-- ==== Sys2Proof/Word.lean ====
section
/-!
DEFINITION. Word types of the NQM8-512 (spec/00_scope.md R4: bit 0 is the least significant bit).
-/
namespace Sys2Proof

/-- A byte, the smallest addressable unit of every memory. -/
abbrev Byte := BitVec 8
/-- A 32-bit word: a slot word, an extension word, a vector lane. -/
abbrev W32 := BitVec 32
/-- A 64-bit word: a scalar register, a CSR, a tagged address. -/
abbrev W64 := BitVec 64

end Sys2Proof
end

