-- ==== Sys2Proof/Machine/Bits.lean ====
section
/-!
DEFINITION. Bit fields, sign extension and byte order (R4, R41).
-/
namespace Sys2Proof.Machine

/-- Bits `lo + n - 1` down to `lo` of a word read as a number (R4). -/
def bits (w lo n : Nat) : Nat := w / 2 ^ lo % 2 ^ n

/-- The 6-bit register field at bit `lo` (R41). -/
def reg (w lo : Nat) : Fin 64 := Fin.ofNat 64 (w / 2 ^ lo)

/-- Bits of a 64-bit value as a number. -/
def field (x : W64) (lo n : Nat) : Nat := bits x.toNat lo n

/-- The low `n` bits of `x` read in two's complement, as an integer. -/
def signed (n x : Nat) : Int :=
  let y := x % 2 ^ n
  if 0 < n ∧ 2 ^ (n - 1) ≤ y then (y : Int) - 2 ^ n else y

/-- An integer as a 64-bit word, wrapping (R102). -/
def w64 (x : Int) : W64 := BitVec.ofInt 64 x

/-- Sign-extend the low `n` bits of a number to 64 bits (R41). -/
def sext64 (n x : Nat) : W64 := w64 (signed n x)

/-- The value of little-endian bytes (R4). -/
def leNat : List Byte → Nat
  | [] => 0
  | b :: bs => b.toNat + 256 * leNat bs

/-- `n` little-endian bytes of a number (R4). -/
def leBytes : Nat → Nat → List Byte
  | 0, _ => []
  | n + 1, x => BitVec.ofNat 8 x :: leBytes n (x / 256)

/-- The value of big-endian bytes (R336). -/
def beNat (bs : List Byte) : Nat := leNat bs.reverse

/-- `n` big-endian bytes of a number (R336). -/
def beBytes (n x : Nat) : List Byte := (leBytes n x).reverse

/-- The little-endian number in `n` bytes of `bs` from offset `o`; missing bytes read as 0. -/
def leAt (bs : List Byte) (o n : Nat) : Nat := leNat ((bs.drop o).take n)

/-- `⌈a ÷ b⌉`. -/
def ceilDiv (a b : Nat) : Nat := (a + b - 1) / b

end Sys2Proof.Machine
end

