-- ==== Sys2Proof/Machine/Cipher.lean ====
section
/-!
DEFINITION. The published functions that the spec names: AES-128 CMAC (R227), SHA-256 and HMAC (R336 to R346), and the
verification of P-256 signatures (R336).
-/
namespace Sys2Proof.Machine

/-! ### AES-128 and its CMAC (R227: NIST SP 800-38B) -/

/-- Twice a byte in the field of AES. -/
def xtime (x : Byte) : Byte := (x <<< 1) ^^^ (if x.msb then 0x1B else 0)

/-- The product of two bytes in the field of AES; `n` counts the bits of `y` still to be taken. -/
def gmul : Nat → Byte → Byte → Byte
  | 0, _, _ => 0
  | n + 1, x, y => (if y.getLsbD 0 then x else 0) ^^^ gmul n (xtime x) (y >>> 1)

/-- `x` to the power `2 ^ n - 2` in the field of AES. -/
def gpow : Nat → Byte → Byte
  | 0, _ => 1
  | n + 1, x => let y := gmul 8 x x; gmul 8 y (gpow n y)

/-- The S-box of AES: the inverse, then the affine map. -/
def sbox (x : Byte) : Byte :=
  let y := gpow 7 x
  y ^^^ y.rotateLeft 1 ^^^ y.rotateLeft 2 ^^^ y.rotateLeft 3 ^^^ y.rotateLeft 4 ^^^ 0x63

/-- Byte-wise exclusive or. -/
def xorBytes (a b : List Byte) : List Byte := List.zipWith (· ^^^ ·) a b

/-- The next round key from one round key and the round constant. -/
def nextKey (k : List Byte) (rc : Byte) : List Byte :=
  let t := (k.drop 13 ++ (k.drop 12).take 1).map sbox
  let w0 := xorBytes (k.take 4) (xorBytes t [rc, 0, 0, 0])
  let w1 := xorBytes ((k.drop 4).take 4) w0
  let w2 := xorBytes ((k.drop 8).take 4) w1
  w0 ++ w1 ++ w2 ++ xorBytes (k.drop 12) w2

/-- Shift the rows of a state held column by column. -/
def shiftRows (x : List Byte) : List Byte := (List.range 16).map fun i => x.getD ((i + 4 * (i % 4)) % 16) 0

/-- Mix one column. -/
def mixColumn (c : List Byte) : List Byte :=
  (List.range 4).map fun i =>
    xtime (c.getD i 0) ^^^ (xtime (c.getD ((i + 1) % 4) 0) ^^^ c.getD ((i + 1) % 4) 0) ^^^ c.getD ((i + 2) % 4) 0 ^^^
      c.getD ((i + 3) % 4) 0

/-- The rounds of AES-128 with the constants that remain; the last round mixes no columns. -/
def aesRounds : List Byte → List Byte → List Byte → List Byte
  | [], _, x => x
  | rc :: rcs, k, x =>
    let k1 := nextKey k rc
    let y := shiftRows (x.map sbox)
    let z := if rcs.isEmpty then y else (List.range 4).flatMap fun i => mixColumn ((y.drop (4 * i)).take 4)
    aesRounds rcs k1 (xorBytes z k1)

/-- AES-128 of one block of 16 bytes. -/
def aes128 (key block : List Byte) : List Byte :=
  aesRounds [0x01, 0x02, 0x04, 0x08, 0x10, 0x20, 0x40, 0x80, 0x1B, 0x36] key (xorBytes block key)

/-- A subkey of CMAC: the block doubled. -/
def doubleBlock (x : List Byte) : List Byte :=
  let n := beNat x
  beBytes 16 (if n < 2 ^ 127 then 2 * n else Nat.xor (2 * n % 2 ^ 128) 0x87)

/-- The AES-128 CMAC of 17 to 31 bytes: a whole block, and a padded one under the second subkey. -/
def cmac2 (key msg : List Byte) : List Byte :=
  let k2 := doubleBlock (doubleBlock (aes128 key (List.replicate 16 0)))
  let rest := msg.drop 16
  let last := rest ++ [0x80] ++ List.replicate (15 - rest.length) 0
  aes128 key (xorBytes (xorBytes last k2) (aes128 key (msg.take 16)))

/-! ### SHA-256 and HMAC -/

/-- The largest number below `r + 2 ^ b` whose `k`-th power is at most `x`, when `r` is such a number. -/
def rootFrom (k x : Nat) : Nat → Nat → Nat
  | 0, r => r
  | b + 1, r => rootFrom k x b (if (r + 2 ^ b) ^ k ≤ x then r + 2 ^ b else r)

/-- The first 32 bits of the fraction of the `k`-th root of `p`: where the constants of SHA-256 come from. -/
def rootFraction (k p : Nat) : W32 := BitVec.ofNat 32 (rootFrom k (p * 2 ^ (32 * k)) 37 0)

/-- The first 64 primes. -/
def shaPrimes : List Nat := (List.range 312).filter fun n => decide (2 ≤ n) && (List.range n).all fun d => decide (d < 2) || n % d != 0

/-- The round constants of SHA-256: cube roots. -/
def shaRounds : List W32 := shaPrimes.map (rootFraction 3)

/-- The hash value that SHA-256 starts from: square roots. -/
def shaStart : List W32 := (shaPrimes.take 8).map (rootFraction 2)

/-- Three rotations of a word, added bit by bit. -/
def rotations (n m l : Nat) (x : W32) : W32 := x.rotateRight n ^^^ x.rotateRight m ^^^ x.rotateRight l

/-- Two rotations and a shift of a word, added bit by bit. -/
def rotateShift (n m l : Nat) (x : W32) : W32 := (x >>> l) ^^^ x.rotateRight m ^^^ x.rotateRight n

/-- The message schedule grows by `n` words; newest first. -/
def shaSchedule : Nat → List W32 → List W32
  | 0, w => w
  | n + 1, w =>
    shaSchedule n ((rotateShift 17 19 10 (w.getD 1 0) + rotateShift 7 18 3 (w.getD 14 0) + w.getD 6 0 + w.getD 15 0) :: w)

/-- One round of SHA-256: the working variables, first to last, under a round constant and a word of the schedule. -/
def shaRound (v : List W32) (kw : W32 × W32) : List W32 :=
  match v with
  | [a, b, c, d, e, f, g, h] =>
    let choice := g ^^^ (e &&& (f ^^^ g))
    let most := (a &&& (b ||| c)) ||| (b &&& c)
    let x := h + kw.1 + kw.2 + choice + rotations 6 11 25 e
    (x + most + rotations 2 13 22 a) :: a :: b :: c :: (d + x) :: [e, f, g]
  | _ => v

/-- Big-endian words of a block. -/
def beWords : Nat → List Byte → List W32
  | 0, _ => []
  | n + 1, bs => BitVec.ofNat 32 (beNat (bs.take 4)) :: beWords n (bs.drop 4)

/-- The hash value after one block of 64 bytes. -/
def shaBlock (h : List W32) (block : List Byte) : List W32 :=
  let ws := (shaSchedule 48 (beWords 16 block).reverse).reverse
  List.zipWith (· + ·) h ((shaRounds.zip ws).foldl shaRound h)

/-- The hash value after `n` blocks. -/
def shaBlocks : Nat → List W32 → List Byte → List W32
  | 0, h, _ => h
  | n + 1, h, bs => shaBlocks n (shaBlock h (bs.take 64)) (bs.drop 64)

/-- SHA-256. -/
def sha256 (m : List Byte) : List Byte :=
  let z := (119 - m.length % 64) % 64
  let p := m ++ [0x80] ++ List.replicate z 0 ++ beBytes 8 (8 * m.length)
  (shaBlocks (p.length / 64) shaStart p).flatMap fun w => beBytes 4 w.toNat

/-- HMAC-SHA-256. -/
def hmac (key m : List Byte) : List Byte :=
  let k := if 64 < key.length then sha256 key else key
  let k0 := k ++ List.replicate (64 - k.length) 0
  sha256 (k0.map (· ^^^ 0x5C) ++ sha256 (k0.map (· ^^^ 0x36) ++ m))

/-! ### P-256 signatures (R336) -/

/-- The prime of P-256. -/
def p256p : Nat := 2 ^ 256 - 2 ^ 224 + 2 ^ 192 + 2 ^ 96 - 1
/-- The order of P-256. -/
def p256n : Nat := 0xffffffff00000000ffffffffffffffffbce6faada7179e84f3b9cac2fc632551
/-- The coefficient b of P-256. -/
def p256b : Nat := 0x5ac635d8aa3a93e7b3ebbd55769886bc651d06b0cc53b0f63bce3c3e27d2604b
/-- The base point of P-256. -/
def p256g : Nat × Nat :=
  (0x6b17d1f2e12c4247f8bce6e563a440f277037d812deb33a0f4a13945d898c296,
   0x4fe342e2fe1a7f9b8ee7eb4a7c0f9e162bce33576b315ececbb6406837bf51f5)

/-- `x ^ e` modulo `m`, over the low `n` bits of `e`. -/
def powMod (m : Nat) : Nat → Nat → Nat → Nat
  | 0, _, _ => 1
  | n + 1, x, e => (if e % 2 = 1 then x else 1) * powMod m n (x * x % m) (e / 2) % m

/-- The inverse modulo a 256-bit prime. -/
def invMod (m x : Nat) : Nat := powMod m 256 (x % m) (m - 2)

/-- The sum of two points; `none` is the point at infinity. -/
def p256add : Option (Nat × Nat) → Option (Nat × Nat) → Option (Nat × Nat)
  | none, q => q
  | p, none => p
  | some (x1, y1), some (x2, y2) =>
    if x1 = x2 ∧ (y1 + y2) % p256p = 0 then none
    else
      let l := if x1 = x2 then (3 * x1 * x1 + (p256p - 3)) * invMod p256p (2 * y1) % p256p
        else (y2 + p256p - y1) * invMod p256p (x2 + p256p - x1) % p256p
      let x3 := (l * l + 2 * p256p - x1 - x2) % p256p
      some (x3, (l * (x1 + p256p - x3) + p256p - y1) % p256p)

/-- A multiple of a point, over the low `n` bits of `e`. -/
def p256mul : Nat → Nat → Option (Nat × Nat) → Option (Nat × Nat)
  | 0, _, _ => none
  | n + 1, e, q => p256add (if e % 2 = 1 then q else none) (p256mul n (e / 2) (p256add q q))

/-- Whether a 64-byte signature over a message verifies under a 64-byte public key: ECDSA P-256 with SHA-256. -/
def ecdsaVerifies (pub msg sig : List Byte) : Bool :=
  let qx := beNat (pub.take 32)
  let qy := beNat (pub.drop 32)
  let r := beNat (sig.take 32)
  let s := beNat (sig.drop 32)
  let onCurve := qx < p256p && qy < p256p && decide ((qx * qx * qx + (p256p - 3) * qx + p256b) % p256p = qy * qy % p256p)
  if pub.length ≠ 64 ∨ sig.length ≠ 64 ∨ !onCurve ∨ r = 0 ∨ p256n ≤ r ∨ s = 0 ∨ p256n ≤ s then false
  else
    let w := invMod p256n s
    let e := beNat (sha256 msg)
    match p256add (p256mul 256 (e * w % p256n) (some p256g)) (p256mul 256 (r * w % p256n) (some (qx, qy))) with
    | none => false
    | some (x, _) => x % p256n == r

end Sys2Proof.Machine
end

