-- ==== Sys2Proof/Config.lean ====
section
/-!
DEFINITION. What an implementation fixes and the free values: constants without a body, so that
nothing in Lean can evaluate them (log 5). Each is applied to a counter of the state or to the operands
it depends on.
-/
namespace Sys2Proof.Config

/-- A free choice where the spec allows two outcomes (R97, R98, R157, R159, R195, R298): `tick` is the
state's counter, `key` says which choice of that step. -/
opaque freeBit (tick key : Nat) : Bool

/-- A free number, for a choice among several (R182, R202, R298) and for latencies that decide which
cycle an operation meets (R174, R180). -/
opaque freeNat (tick key : Nat) : Nat

/-- A free byte: what the spec leaves undefined. -/
opaque freeByte (tick key : Nat) : Byte

/-- Good physical cores of a compute die (R9). -/
opaque goodCores (col : Nat) : Nat

/-- Which logical indices of a die with too few good cores firmware leaves out (R9): the place of the n-th one among those left. -/
opaque missing (col n : Nat) : Nat

/-- Which of the routes around what is retired the front end regenerates, as R292 leaves it open. -/
opaque detour (retired src dst : Nat) : Nat

/-- The bank of its stack in which a DRAM line lies (R334 names banks and gives no map). -/
opaque dramBank (line : Nat) : Nat

/-- How many DRAM banks of a column the spare rows of its stack can take (R334 gives no number). -/
opaque spareBanks (col : Nat) : Nat

/-- The way of a column that firmware keeps for save areas (R324 does not say which); readers take it modulo 16. -/
opaque saveWay (col : Nat) : Nat

/-- The per-boot key of R227, drawn at boot `n`, 16 bytes; no agent can read it. -/
opaque bootKey (n : Nat) : List Byte

/-- The PUF secret of R340. -/
opaque pufSecret : List Byte

/-- The P-256 public key derived from a secret (R340 states no derivation): 64 bytes, x then y. -/
opaque publicKey (secret : List Byte) : List Byte

/-- A signature by the private key derived from a secret (R340, R341, R346): 64 bytes, r then s. -/
opaque sign (secret msg : List Byte) : List Byte

/-- The certificate that binds the attestation key to the identity key (R340, R341 state no format), from their secrets. -/
opaque certificate (identity attestation : List Byte) : List Byte

/-- The signed part and the signature of an ownership record or a configuration blob, whose layouts the spec does not give (R337, R339). -/
opaque signedParts (record : List Byte) : List Byte × List Byte

/-- The owner key, the configuration blobs and the recovery image that an ownership record installs (R336, R337). -/
opaque ownerArea (record : List Byte) : List Byte × List (List Byte) × List Byte

/-- The text of the boot ROM, whose digest starts the measurements (R339). -/
opaque romImage : List Byte

end Sys2Proof.Config
end

