-- ==== Sys2Proof/Syntax.lean ====
section
/-!
DEFINITION. The instruction set as syntax: one constructor of `Instr` per row of
spec/opcode_table.json. The constructors up to `tlbinv`, with the first of the operand-free ones at the end, are slot operations
(03_encoding.md R47); the others are the steps of the part that no word encodes (95_what_each_step_holds.md).
The iteration qualifier of a slot word (R38, R39) belongs to the slot, not to the operation, and
stands in `SlotOp`.
-/
namespace Sys2Proof

/-- A register number of the scalar file (R93), or a vector register number (R112). -/
abbrev Reg := Fin 64
/-- A token number; t0 means none (R42). -/
abbrev Tok := Fin 64
/-- A mask register k0 to k7 (R120). -/
abbrev KReg := Fin 8

/-- The six condition codes of R48. -/
inductive Cond | eq | ne | lt | ge | ltu | geu
  deriving DecidableEq, Repr

/-- Signedness of `mulh` (R102) and `vmulh` (R123). -/
inductive MulKind | ss | uu | su
  deriving DecidableEq, Repr

/-- Kind of `shi` (R102). -/
inductive ShiftKind | left | right | arith | rotate
  deriving DecidableEq, Repr

/-- Wrapping or saturating integer lanes (R123). -/
inductive SatKind | wrap | ss | us
  deriving DecidableEq, Repr

/-- Rounding modes (R75, R126). -/
inductive Rounding | rne | rto | rtz
  deriving DecidableEq, Repr

/-- Lane formats of the float operations (R126). -/
inductive FloatKind | f32 | f16 | b16
  deriving DecidableEq, Repr

/-- Conditions of `vfcmp` (R127). -/
inductive FCond | eq | ne | lt | le | un | ord
  deriving DecidableEq, Repr

/-- Format codes of `vcvt` (R129). -/
inductive CvtFormat | i32 | f32 | f16 | bf16 | e4 | e5 | i8
  deriving DecidableEq, Repr

/-- Functions of `vred` and `vscan` (R125). -/
inductive RedOp | add | min | max | fadd | fmin | fmax
  deriving DecidableEq, Repr

/-- Kinds of `vxc` (R124). -/
inductive XcKind | rot | bc | xor
  deriving DecidableEq, Repr

/-- Functions of `kmov` (R121). -/
inductive KOp | mov | and | or | xor | andn | not | top
  deriving DecidableEq, Repr

/-- Kinds of `vdot4` (R132). -/
inductive DotKind | ss | uu | su
  deriving DecidableEq, Repr

/-- Scalar load and store sizes (R161). -/
inductive MemSize | b | bu | h | hu | w | wu | d
  deriving DecidableEq, Repr

/-- Scopes (R205). -/
inductive Scope | core | clu | col | pkg | grp | dom
  deriving DecidableEq, Repr

/-- Functions of `amo` and `vamo` (R165). -/
inductive AmoOp | add | and | or | xor | min | max | swap
  deriving DecidableEq, Repr

/-- Sides of `mps` (R184). -/
inductive MpsSides | a | b | ab
  deriving DecidableEq, Repr

/-- Element sizes of `mtr` (R185) and pattern sizes of `cpyfill` (R199). -/
inductive UnitSize | b | h | w
  deriving DecidableEq, Repr

/-- Operations of `bankop` (R194). -/
inductive BankOp | zero | copy | cmp
  deriving DecidableEq, Repr

/-- Variants of `bar` (R313). -/
inductive BarVariant | init | exp | arr | arrexp
  deriving DecidableEq, Repr

/-- The token word of an engine operation (R42). -/
structure TokenWord where
  prod : Tok
  c1 : Tok
  c2 : Tok
  c3 : Tok
  cr : Bool
  ring : Fin 8
  deriving DecidableEq, Repr

/-- A unit with its own error window (R320), or a cluster link, which firmware may retire too (R334). -/
inductive UnitId
  | userCore (n : Nat) | firmwareCore (col : Nat) | router (id : Nat)
  | nearBank (col bank : Nat) | dramBank (col bank : Nat) | fabricLink (port : Nat) | hubBlock (n : Nat)
  | clusterLink (router port : Nat)
  deriving DecidableEq, Repr

/-- An access that one package posts to another (R204). `merge` stores the bits of a byte that a mask names, for elements of less than a byte
(R198); `pull` asks for the next bytes of a rendezvous payload (R249, R260). -/
inductive RemoteAccess
  | load (addr len id : Nat)
  | store (addr : Nat) (data : List Byte) (id : Nat)
  | amo (addr : Nat) (op : AmoOp) (dbl : Bool) (operand : W64) (id : Nat)
  | cas (addr : Nat) (dbl : Bool) (expected new : W64) (id : Nat)
  | merge (addr mask : Nat) (data : Byte) (id : Nat)
  | pull (core id len : Nat)
  deriving DecidableEq, Repr

/-- Who posts an access from outside: its package, and the context that it is made for (R190, R204). -/
structure Requester where
  pkg : Nat
  ctx : Nat
  deriving DecidableEq, Repr

/-- What other packages answer to a load: the bytes they return, and whether what is missing was refused by the way reached (R190, R204). -/
structure LoadAnswer where
  data : List Byte
  prot : Bool
  deriving DecidableEq, Repr

/-- What other packages answer to the store or atomic `id` of a core: whether one of them did not perform it, and whether the way reached
refused it (R190, R204). -/
structure StoreAck where
  id : Nat
  failed : Bool
  prot : Bool
  deriving DecidableEq, Repr

/-- A message on the message channel (R248, R249). `payload` is `none` for a rendezvous header. -/
structure Message where
  srcPkg : Nat
  srcEp : Nat
  dstEp : Nat
  tag : Nat
  number : Nat
  length : Nat
  payload : Option (List Byte)
  handle : Nat
  deriving DecidableEq, Repr

/-- A sequence-manager configuration (R262). -/
structure ManagerConfig where
  ctx : Nat
  nslot : Nat
  pt : Nat
  e : Nat
  pool : Nat
  npage : Nat
  res : Nat
  pta : Nat
  tb : Nat
  db : Nat
  deriving DecidableEq, Repr

/-- What an MSI-X vector is bound to (R347). -/
inductive MsixTarget
  | eventRing (entry : Nat) | queueErrors (entry : Nat) | mailbox (col : Nat)
  deriving DecidableEq, Repr

/-- An access through control space or BAR0 without a row of its own (R343, R344, R347, R348), a write of boot flash (R336, R337), or a
read of the PMC's telemetry (R349). -/
inductive ControlWrite
  | window (i : Nat) (value : W64)                                  -- R348, 0x600_8000_0000 + 8i
  | throughWindow (offset len : Nat) (value : W64)                  -- R348, a host write in a control window
  | contextEntry (ctx : Nat) (valid : Bool) (root group : Nat)      -- R296
  | ring (ctx col idx : Nat) (base : W64) (log2 : Nat)              -- R258
  | quant (cycles : Nat)                                            -- R233
  | overflow (base units : Nat)                                     -- R239
  | errorWindow (cycles : Nat)                                      -- R320
  | threshold (n : Nat)                                             -- R320
  | perfSelect (core i sel : Nat)                                   -- R321
  | bar2 (base size : Nat)                                          -- R347
  | msix (vector : Nat) (target : MsixTarget)                       -- R347
  | queueOwner (entry owner : Nat)                                  -- R238 step 1
  | effectivePriority (lid prio : Nat)                              -- R234, the continued walk
  | endLaunch (lid cause : Nat)                                     -- R26
  | saveByte (core offset : Nat) (value : Byte)                     -- R324, R327
  | mailbox (col : Nat)                                             -- R347, firmware's mailbox has a message for the host
  | bar0 (offset : Nat) (data : List Byte)                          -- R343, R344, R347
  | bar0Read (offset len : Nat)                                     -- R342, R343, R346, R348
  | flash (offset : Nat) (data : List Byte)                         -- R336, a write by firmware
  | ownership (record : List Byte)                                  -- R337, an ownership record
  | telemetry                                                       -- R349
  deriving DecidableEq, Repr

/-- The instruction set: every row of spec/opcode_table.json. -/
inductive Instr
  -- S map (R102 to R110, R139, R146 to R148, R302, R309, R241)
  | add (d a b : Reg)
  | sub (d a b : Reg)
  | addi (d a : Reg) (imm : BitVec 10)
  | mul (d a b : Reg)
  | mulh (d a b : Reg) (k : MulKind)
  | div (d a b : Reg) (u : Bool)
  | rem (d a b : Reg) (u : Bool)
  | and (d a b : Reg)
  | or (d a b : Reg)
  | xor (d a b : Reg)
  | andi (d a : Reg) (imm : BitVec 10)
  | ori (d a : Reg) (imm : BitVec 10)
  | xori (d a : Reg) (imm : BitVec 10)
  | sll (d a b : Reg)
  | srl (d a b : Reg)
  | sra (d a b : Reg)
  | shi (d a : Reg) (k : ShiftKind) (n : Fin 64)
  | min (d a b : Reg) (u : Bool)
  | max (d a b : Reg) (u : Bool)
  | clz (d a : Reg)
  | popc (d a : Reg)
  | cmp (d a b : Reg) (c : Cond)
  | cmpi (d a : Reg) (c : Cond) (imm : BitVec 6)
  | cmpiExt (d a : Reg) (c : Cond) (imm : BitVec 32)
  | sel (d a b c : Reg)
  | li (d : Reg) (imm : BitVec 10)
  | liExt (d : Reg) (imm : BitVec 64)
  | bfx (d a : Reg) (pos len1 : Fin 64) (s : Bool)
  | bfi (d a : Reg) (pos len1 : Fin 64)
  | stag (d a : Reg) (tag : Fin 16)
  | br (a b : Reg) (c : Cond) (off : BitVec 32)
  | bri (a : Reg) (imm : BitVec 6) (c : Cond) (off : BitVec 32)
  | j (off : BitVec 32)
  | jal (d : Reg) (off : BitVec 32)
  | jr (a : Reg)
  | btok (t : Tok) (set : Fin 16) (off : BitVec 32)
  | bempty (set : BitVec 8) (off : BitVec 32)
  | chk (a : Reg) (off : BitVec 32)
  | loop (lv : Fin 8) (c : Reg) (n1 : Fin 64)
  | lstr (lv : Fin 8) (j : Fin 4) (x : Reg) (stride : BitVec 32)
  | lbrk (lv : Fin 8) (a : Reg) (u : Bool)
  | wait (ld st : Bool) (n : Fin 256)
  | csrr (d : Reg) (csr : Fin 1024)
  | csrw (d a : Reg) (csr : Fin 1024)
  | csrs (d a : Reg) (csr : Fin 1024)
  | csrc (d a : Reg) (csr : Fin 1024)
  | trap (n : Fin 1024)
  | fset (r : Bool) (c : Reg) (f : Fin 32)
  | fwait (c : Bool) (f : Fin 32)
  | fclr (f : Fin 32)
  -- V map (R114, R120 to R132)
  | vadd (vd va vb : Reg) (k : SatKind)
  | vsub (vd va vb : Reg) (k : SatKind)
  | vmul (vd va vb : Reg) (k : SatKind)
  | vmulh (vd va vb : Reg) (k : MulKind)
  | vmin (vd va vb : Reg) (u : Bool)
  | vmax (vd va vb : Reg) (u : Bool)
  | vabs (vd va : Reg) (s : Bool)
  | vand (vd va vb : Reg)
  | vor (vd va vb : Reg)
  | vxor (vd va vb : Reg)
  | vnot (vd va : Reg)
  | vshl (vd va vb : Reg)
  | vshr (vd va vb : Reg)
  | vsra (vd va vb : Reg)
  | vcmp (c : Cond) (kd : KReg) (va vb : Reg)
  | vsel (vd va vb : Reg) (k : KReg)
  | vfadd (vd va vb : Reg) (r : Rounding) (f : FloatKind)
  | vfsub (vd va vb : Reg) (r : Rounding) (f : FloatKind)
  | vfmul (vd va vb : Reg) (r : Rounding) (f : FloatKind)
  | vfma (vd va vb : Reg) (r : Rounding) (f : FloatKind)
  | vfmin (vd va vb : Reg) (f : FloatKind)
  | vfmax (vd va vb : Reg) (f : FloatKind)
  | vfcmp (c : FCond) (kd : KReg) (va vb : Reg) (f : FloatKind)
  | vcvt (vd va : Reg) (src dst : CvtFormat) (r : Rounding)
  | vpack (vd va : Reg) (i : Fin 16) (nf : Fin 4) (int : Bool)
  | vunpack (vd va : Reg) (i : Fin 16) (nf : Fin 4)
  | vred (sd va : Reg) (f : RedOp)
  | vscan (vd va : Reg) (f : RedOp)
  | vperm (vd va vb : Reg)
  | vxc (vd va : Reg) (n : Fin 8) (k : XcKind)
  | vbcast (vd sa : Reg) (hi : Bool)
  | vext (sd va : Reg) (lane : Fin 16) (s : Bool)
  | viota (vd : Reg) (g : Bool)
  | vli (vd : Reg) (imm : BitVec 16)
  | vliExt (vd : Reg) (imm : BitVec 32)
  | mpush (k : KReg)
  | kmov (kd ka kb : KReg) (f : KOp)
  | vcm (j : Fin 4) (m : BitVec 8)
  | vlgmul (vd va vb : Reg)
  | vlgsum (vd va vb : Reg)
  | vdot4 (vd va vb : Reg) (sat : Bool) (k : DotKind)
  | vmov (vd va : Reg)
  -- F map (R133, R134, R114)
  | fexp2 (vd va : Reg)
  | flog2 (vd va : Reg)
  | frcp (vd va : Reg)
  | frsqrt (vd va : Reg)
  | fsqrt (vd va : Reg)
  | ftanh (vd va : Reg)
  | fsigm (vd va : Reg)
  | fsin (vd va : Reg)
  | fcos (vd va : Reg)
  | flut (vd va vb : Reg)
  | fcm (m : BitVec 8)
  -- M map (R161 to R168, R206, R219, R318)
  | ld (d a : Reg) (sz : MemSize)
  | ldExt (d a : Reg) (sz : MemSize) (off : BitVec 32)
  | st (d a : Reg) (sz : MemSize)
  | stExt (d a : Reg) (sz : MemSize) (off : BitVec 32)
  | vld (vd a : Reg)
  | vldExt (vd a : Reg) (off : BitVec 32) (stride : Option (BitVec 32))
  | vst (vd a : Reg)
  | vstExt (vd a : Reg) (off : BitVec 32) (stride : Option (BitVec 32))
  | vldx (vd a vb : Reg) (k : Fin 4)
  | vldxExt (vd a vb : Reg) (k : Fin 4) (off : BitVec 32)
  | vstx (vd a vb : Reg) (k : Fin 4)
  | vstxExt (vd a vb : Reg) (k : Fin 4) (off : BitVec 32)
  | lds (d a : Reg) (sz : MemSize)
  | ldsExt (d a : Reg) (sz : MemSize) (off : BitVec 32)
  | vlds (vd a : Reg)
  | vldsExt (vd a : Reg) (off : BitVec 32) (stride : Option (BitVec 32))
  | ldAcq (d a : Reg) (sz : MemSize) (scope : Scope)
  | ldAcqExt (d a : Reg) (sz : MemSize) (scope : Scope) (off : BitVec 32)
  | stRel (d a : Reg) (sz : MemSize) (scope : Scope)
  | stRelExt (d a : Reg) (sz : MemSize) (scope : Scope) (off : BitVec 32)
  | amo (d a b : Reg) (f : AmoOp) (dbl : Bool)
  | cas (d a b c : Reg) (dbl : Bool)
  | vamo (vd a vb : Reg) (f : AmoOp)
  | ldg (d x s : Reg) (h : Fin 8) (sx : Bool)
  | vldg (vd x s : Reg) (h : Fin 8)
  | vldv (vd a v : Reg)
  | vldvExt (vd a v : Reg) (off : BitVec 32)
  | pref (a : Reg) (xlat : Bool)
  | prefExt (a : Reg) (xlat : Bool) (off : BitVec 32)
  | mcm (j : Fin 4) (m : BitVec 8)
  -- X map (R176, R182, R184, R185)
  | mma (a b acc : Reg) (shape : Fin 4) (sp : Bool) (ta tb tacc tres planes : Fin 16)
      (res md : Reg) (tw : TokenWord)
  | mmz (d : Reg) (tw : TokenWord)
  | mps (delay : Fin 64) (sides : MpsSides)
  | mscl (j : Fin 4) (a : Reg) (n : Fin 64)
  | mcvt (d a : Reg) (src dst : Fin 16) (tw : TokenWord)
  | mtr (d a : Reg) (shape : Fin 4) (size : Fin 4) (tw : TokenWord)
  | macc (d a : Reg) (ty : Fin 16) (tw : TokenWord)
  -- A map (R191 to R200, R207, R214 to R218, R240 to R278, R286, R299, R308 to R319)
  | cpy (d s c : Reg) (tw : TokenWord)
  | cpyB (d s c : Reg) (tw : TokenWord)
  | cpym (d s c : Reg) (n : Fin 16) (m : Reg) (bar : Fin 32) (tw : TokenWord)
  | cpypl (d s c : Reg) (q : Fin 16) (d2 : Option Reg) (tw : TokenWord)
  | cpysp (d s c : Reg) (tw : TokenWord)
  | cpyfill (d p c : Reg) (sz : UnitSize) (tw : TokenWord)
  | gath (p r i n : Reg) (i64 : Bool) (tw : TokenWord)
  | scat (p r i n : Reg) (i64 : Bool) (tw : TokenWord)
  | bankop (d a n : Reg) (op : BankOp) (tw : TokenWord)
  | lfence (a n : Reg) (tw : TokenWord)
  | fence (scope : Scope) (tw : TokenWord)
  | nflush (a : Reg) (tw : TokenWord)
  | rfence (a : Reg) (all : Bool) (tw : TokenWord)
  | slotrel (n : Reg) (ctr : Fin 16) (tw : TokenWord)
  | bar (v : BarVariant) (r : Bool) (c n : Reg) (b : Fin 16) (tw : TokenWord)
  | barw (p : Reg) (b : Fin 16)
  | vpub (a v : Reg) (tw : TokenWord)
  | vwait (a v : Reg)
  | gstep (h : Fin 8) (n : Reg) (tw : TokenWord)
  | grel (h : Fin 8) (s : Reg) (tw : TokenWord)
  | gbind (h : Fin 8) (a p : Reg) (rd : Bool) (tw : TokenWord)
  | send (e s c : Reg) (b : Bool) (tw : TokenWord)
  | rpost (m k r c v : Reg) (tw : TokenWord)
  | rcancel (d : Reg) (n : Tok) (tw : TokenWord)
  | rprobe (d m k : Reg) (tw : TokenWord)
  | ringpop (d : Reg) (n : Fin 8) (w : Bool) (tw : TokenWord)
  | launch (d a : Reg) (w : Bool) (tw : TokenWord)
  | chunk (d : Reg) (tw : TokenWord)
  | twait (d : Reg) (t : Tok)
  | sqadm (m : Fin 8) (d a : Reg) (tw : TokenWord)
  | sqtree (m : Fin 8) (d a b : Reg) (tw : TokenWord)
  | sqvrd (m : Fin 8) (a b : Reg) (tw : TokenWord)
  | sqacc (m : Fin 8) (d a : Reg) (tw : TokenWord)
  | sqret (m : Fin 8) (d a : Reg) (tw : TokenWord)
  | sqpre (m : Fin 8) (d a : Reg) (rel : Bool) (tw : TokenWord)
  | sqres (m : Fin 8) (d a : Reg) (tw : TokenWord)
  | sqbat (m : Fin 8) (d a b : Reg) (tw : TokenWord)
  | sqkvAddr (m : Fin 8) (d a b : Reg) (tw : TokenWord)
  | sqkvAdv (m : Fin 8) (d a b : Reg) (tw : TokenWord)
  | sealCap (a b : Reg) (tw : TokenWord)
  | wake (a b : Reg) (tw : TokenWord)
  | slotld (a b : Reg) (tw : TokenWord)
  | grpset (a b : Reg) (tw : TokenWord)
  | tlbinv (a b c : Reg) (tw : TokenWord)
  -- Steps of the part that no word encodes
  | loopIterationClose (core : Nat)
  | globalLoadReturn (core id : Nat) (ans : LoadAnswer)
  | storeAcknowledgement (core : Nat) (ack : StoreAck)
  | clusterRemoteAccess (src dst : Nat)
  | fabricAccessArrival (src : Requester) (acc : RemoteAccess)
  | groupPacketReceive (port group origin addr : Nat) (data : List Byte)
  | engineOperationStart (core queue idx : Nat)
  | engineOperationComplete (core idx : Nat)
  | completionRecordWrite (core idx : Nat)
  | matrixOperationStart (core : Nat)
  | accumulatorUpdate (core : Nat)
  | mpsLeaveHead (core : Nat)
  | operandChunkArrival (core operand chunk : Nat) (data : List Byte)
  | fetchFault (core operand chunk cause : Nat)
  | copyChunk (core idx chunk : Nat) (data : List Byte)
  | lmodeWrite (col : Nat) (mode : Bool)
  | layerModeSwitchDone (col : Nat)
  | messageArrival (col : Nat) (msg : Message)
  | messagePresented (col src dst : Nat)
  | rendezvousDataArrival (col idx : Nat) (data : List Byte) (fault : Bool)
  | landingComplete (col idx : Nat)
  | sendAcknowledged (core idx cause bytes : Nat)
  | stripArrival (desc polder region slot : Nat)
  | stepStale (core : Nat)
  | flagSetArrival (src dst : Nat)
  | barrierUpdate (src dst : Nat)
  | sqaccCommitEnd (m : Nat)
  | watchdog (core : Nat)
  | stuckCore (core : Nat)
  | headWaitTimeout (slot : Nat)
  | wakeWrite (page offset : Nat) (value : W64)
  | launchRelease (lid : Nat)
  | launchComplete (lid : Nat)
  | preemptionRequest (lid : Nat)
  | coreHalt (core : Nat)
  | saveComplete (core : Nat)
  | gangResume (lid : Nat)
  | tdispResume (core : Nat)
  | tdispHandler (core : Nat)
  | tdispEnd (core : Nat)
  | eventTaken (col : Nat)
  | uncorrectableError (core : Nat) (inCore : Bool) (id : Option Nat) (addr : Nat)
  | correctableError (u : UnitId)
  | retirement (u : UnitId)
  | thermalMigration (ctx col : Nat) (moves : List (Nat × Nat × Nat))
  | migrationMove (col : Nat)
  | zoneTemperature (col zone celsius : Nat)
  | endpointBind (ep : Nat) (valid : Bool) (ctx col : Nat)
  | managerConfigure (m : Nat) (cfg : ManagerConfig)
  | queueReset (entry : Nat)
  | queueLoad (entry slot : Nat)
  | queueUnload (slot : Nat)
  | controlSpaceWrite (w : ControlWrite)
  | hostBar2Write (offset : Nat) (data : List Byte)
  | hostBar2Read (offset len : Nat)
  | sidebandScrub (req : List Byte)
  | negotiateAlgorithms (p256 sha256 : Bool)
  | getCertificate (slot : Nat)
  | challenge (nonce : List Byte)
  | getMeasurements (block : Nat)
  | bundleFetch (core : Nat)
  -- Operations and steps without an operand (nop to minv, the rest no word encodes)
  | nop
  | eret
  | halt
  | yield
  | tend
  | minv
  | mpop
  | ltimeAdvance
  | poolGrowth
  | quantExpiry
  | wakeProcess
  | nopCommand
  | launchCommand
  | signal
  | slotTableInstall
  | powerOn
  | sidebandReset
  | powerLoss
  | forceRecovery
  | commitA
  | commitB
  | writeLease
  | scrub
  | readLog
  | reboot
  | scrubDoorbell
  | scrubComplete
  | getVersion
  | getCapabilities
  | getDigests
  | errorLogRead
  | commandOfAnotherKind
  deriving DecidableEq, Repr

/-- The iteration qualifier IQ (R38, R39). -/
inductive Qual | every | first | last
  deriving DecidableEq, Repr

/-- The ten slots in bundle order (R33), with their index (R46). -/
inductive Slot | s0 | s1 | v0 | v1 | v2 | f | m0 | m1 | x | a
  deriving DecidableEq, Repr

/-- The six slot classes (R95); S and V slots also select the map that decodes them (R43). -/
inductive Class | s | v | f | m | x | a
  deriving DecidableEq, Repr

/-- An operation as a bundle holds it: its slot, its qualifier, its slot word and its meaning. -/
structure SlotOp where
  slot : Slot
  qual : Qual
  word : W32
  op : Instr
  deriving DecidableEq, Repr

/-- A decoded bundle (R33, R34): header word, length in words, whether it dispatches as a sync bundle, padding, loop end, and
operations; `pairs` are the pairs of slots that name one vector-side destination (R45). -/
structure Bundle where
  header : W32
  len : Nat
  sync : Bool
  pairs : List (Slot × Slot)
  pad : Nat
  le : Nat
  ops : List SlotOp
  deriving DecidableEq, Repr

end Sys2Proof
end

