-- ==== Sys2Proof/WellFormed.lean ====
section
/-!
DEFINITION. Well-formed slot operations: the operand values that check 9 of R44 admits, beyond the
fields that must be zero (which no constructor has). An event of the part is always well formed.
-/
namespace Sys2Proof

/-- The CSR numbers that the map of R136 assigns. -/
def csrAssigned (n : Nat) : Bool :=
  n ≤ 0x004 || n == 0x010 || (0x020 ≤ n && n ≤ 0x023) || (0x028 ≤ n && n ≤ 0x02D) ||
  (0x030 ≤ n && n ≤ 0x033) || n == 0x040 || n == 0x048 || n == 0x049 ||
  (0x050 ≤ n && n ≤ 0x054) || n == 0x058 || n == 0x060 || n == 0x068

/-- Loop levels are 1 to 6 (R105, R108, R109). -/
def levelOk (lv : Fin 8) : Bool := 1 ≤ lv.val && lv.val ≤ 6

/-- A register pair is named by its even member, 2 to 62 (R199, R256, R259, R319). -/
def pairOk (d : Reg) : Bool := d.val ≠ 0 && d.val % 2 == 0

/-- Store sizes are the even codes 0, 2, 4 and 6 (R162). -/
def storeSizeOk : MemSize → Bool
  | .b | .h | .w | .d => true
  | .bu | .hu | .wu => false

/-- Operand values that check 9 of R44 admits. -/
def Instr.wf : Instr → Bool
  | .bfx _ _ pos len1 _ => pos.val + len1.val + 1 ≤ 64          -- R103
  | .bfi _ _ pos len1 => pos.val + len1.val + 1 ≤ 64
  | .btok t set _ => t.val ≠ 0 && set.val ≠ 0                   -- R104
  | .bempty set _ => set ≠ 0
  | .loop lv _ _ => levelOk lv
  | .lstr lv _ _ _ => levelOk lv
  | .lbrk lv a u => levelOk lv && (!u || a.val == 0)            -- R109
  | .wait l t _ => l || t                                   -- R302
  | .csrr _ csr => csrAssigned csr.val                          -- R138
  | .csrw _ _ csr => csrAssigned csr.val
  | .csrs _ _ csr => csrAssigned csr.val
  | .csrc _ _ csr => csrAssigned csr.val
  | .fset r c _ => r || c.val == 0                              -- R309
  | .vcmp _ kd _ _ => kd.val ≠ 0                                -- R120
  | .vfcmp _ kd _ _ _ => kd.val ≠ 0
  | .kmov kd ka kb f =>                                         -- R121
    kd.val ≠ 0 && match f with
      | .mov | .not => kb.val == 0
      | .top => ka.val == 0 && kb.val == 0
      | .and | .or | .xor | .andn => true
  | .vcm g _ => g.val ≤ 2                                       -- R114
  | .flut _ _ vb => vb.val % 16 == 0                            -- R134
  | .st _ _ sz => storeSizeOk sz
  | .stExt _ _ sz _ => storeSizeOk sz
  | .stRel _ _ sz _ => storeSizeOk sz
  | .stRelExt _ _ sz _ _ => storeSizeOk sz
  | .mcm g _ => g.val ≤ 1                                       -- R168
  | .mscl g _ _ => g.val ≤ 1                                    -- R182
  | .cpym _ _ _ _ m br0 _ => pairOk m && br0.val ≤ 16           -- R199
  | .cpypl _ _ _ q _ _ => q.val ≠ 0
  | .bankop _ a _ op tw =>                                      -- R194
    match op with
      | .zero => a.val == 0
      | .cmp => tw.cr
      | .copy => true
  | .rfence a all _ => !all || a.val == 0                       -- R286
  | .bar v r c n _ _ =>                                         -- R313
    (!(r && v == .init)) && (r || c.val == 0) && (v ≠ .arr || n.val == 0)
  | .rcancel _ n _ => n.val ≠ 0                                 -- R256
  | .rprobe d _ _ _ => pairOk d
  | .ringpop d _ _ _ => pairOk d                                -- R259
  | .chunk d _ => pairOk d                                      -- R319
  | .twait _ t => t.val ≠ 0                                     -- R308
  | _ => true

/-- `Instr.wf` as a proposition. -/
abbrev Instr.WellFormed (i : Instr) : Prop := i.wf = true

end Sys2Proof
end

