-- ==== Sys2Proof/Decode.lean ====
section
/-!
DEFINITION. From words to instructions and back: the opcode maps of R47, the operand layouts that each
instruction's description gives, the decode checks of R44, the destination check of R45, and the
encoder.
-/
namespace Sys2Proof

open Machine (bits reg)

/-- The six opcode maps (R43), named by their class. -/
abbrev OpMap := Class

/-- The class of a slot (R43, R95). -/
def Slot.cls : Slot → Class
  | .s0 | .s1 => .s
  | .v0 | .v1 | .v2 => .v
  | .f => .f
  | .m0 | .m1 => .m
  | .x => .x
  | .a => .a

/-- The slot index of R46. -/
def Slot.index : Slot → Nat
  | .s0 => 0 | .s1 => 1 | .v0 => 2 | .v1 => 3 | .v2 => 4 | .f => 5 | .m0 => 6 | .m1 => 7 | .x => 8 | .a => 9

/-- The slots in bundle order (R33). -/
def allSlots : List Slot := [.s0, .s1, .v0, .v1, .v2, .f, .m0, .m1, .x, .a]

/-! ### Codes of the enumerated fields -/

/-- Condition codes (R48). -/
def Cond.code : Cond → Nat | .eq => 0 | .ne => 1 | .lt => 2 | .ge => 3 | .ltu => 4 | .geu => 5
/-- The condition of a code; 6 to 15 are reserved (R48). -/
def Cond.ofCode : Nat → Option Cond
  | 0 => some .eq | 1 => some .ne | 2 => some .lt | 3 => some .ge | 4 => some .ltu | 5 => some .geu | _ => none

/-- fn of `mulh` and `vmulh` (R102, R123). -/
def MulKind.code : MulKind → Nat | .ss => 0 | .uu => 1 | .su => 2
/-- The signedness of a code. -/
def MulKind.ofCode : Nat → Option MulKind | 0 => some .ss | 1 => some .uu | 2 => some .su | _ => none

/-- Kind of `shi` (R102). -/
def ShiftKind.code : ShiftKind → Nat | .left => 0 | .right => 1 | .arith => 2 | .rotate => 3
/-- The kind of a code. -/
def ShiftKind.ofCode : Nat → Option ShiftKind
  | 0 => some .left | 1 => some .right | 2 => some .arith | 3 => some .rotate | _ => none

/-- fn of the saturating lanes (R123). -/
def SatKind.code : SatKind → Nat | .wrap => 0 | .ss => 1 | .us => 2
/-- The kind of a code. -/
def SatKind.ofCode : Nat → Option SatKind | 0 => some .wrap | 1 => some .ss | 2 => some .us | _ => none

/-- Rounding codes (R75, R126). -/
def Rounding.code : Rounding → Nat | .rne => 0 | .rto => 1 | .rtz => 2
/-- The mode of a code. -/
def Rounding.ofCode : Nat → Option Rounding | 0 => some .rne | 1 => some .rto | 2 => some .rtz | _ => none

/-- Lane formats (R126). -/
def FloatKind.code : FloatKind → Nat | .f32 => 0 | .f16 => 1 | .b16 => 2
/-- The format of a code. -/
def FloatKind.ofCode : Nat → Option FloatKind | 0 => some .f32 | 1 => some .f16 | 2 => some .b16 | _ => none

/-- Conditions of `vfcmp` (R127). -/
def FCond.code : FCond → Nat | .eq => 0 | .ne => 1 | .lt => 2 | .le => 3 | .un => 4 | .ord => 5
/-- The condition of a code. -/
def FCond.ofCode : Nat → Option FCond
  | 0 => some .eq | 1 => some .ne | 2 => some .lt | 3 => some .le | 4 => some .un | 5 => some .ord | _ => none

/-- Formats of `vcvt` (R129). -/
def CvtFormat.code : CvtFormat → Nat
  | .i32 => 0 | .f32 => 1 | .f16 => 2 | .bf16 => 3 | .e4 => 4 | .e5 => 5 | .i8 => 6
/-- The format of a code. -/
def CvtFormat.ofCode : Nat → Option CvtFormat
  | 0 => some .i32 | 1 => some .f32 | 2 => some .f16 | 3 => some .bf16 | 4 => some .e4 | 5 => some .e5
  | 6 => some .i8 | _ => none

/-- Kind and fn of `vred` and `vscan`, as 4 × kind + fn (R125). -/
def RedOp.code : RedOp → Nat | .add => 0 | .min => 1 | .max => 2 | .fadd => 4 | .fmin => 5 | .fmax => 6
/-- The function of a code. -/
def RedOp.ofCode : Nat → Option RedOp
  | 0 => some .add | 1 => some .min | 2 => some .max | 4 => some .fadd | 5 => some .fmin | 6 => some .fmax
  | _ => none

/-- fn of `vxc` (R124). -/
def XcKind.code : XcKind → Nat | .rot => 0 | .bc => 1 | .xor => 2
/-- The kind of a code. -/
def XcKind.ofCode : Nat → Option XcKind | 0 => some .rot | 1 => some .bc | 2 => some .xor | _ => none

/-- Function of `kmov` (R121). -/
def KOp.code : KOp → Nat | .mov => 0 | .and => 1 | .or => 2 | .xor => 3 | .andn => 4 | .not => 5 | .top => 6
/-- The function of a code. -/
def KOp.ofCode : Nat → Option KOp
  | 0 => some .mov | 1 => some .and | 2 => some .or | 3 => some .xor | 4 => some .andn | 5 => some .not
  | 6 => some .top | _ => none

/-- fn of `vdot4` (R132). -/
def DotKind.code : DotKind → Nat | .ss => 0 | .uu => 1 | .su => 2
/-- The kind of a code. -/
def DotKind.ofCode : Nat → Option DotKind | 0 => some .ss | 1 => some .uu | 2 => some .su | _ => none

/-- Size codes (R161). -/
def MemSize.code : MemSize → Nat | .b => 0 | .bu => 1 | .h => 2 | .hu => 3 | .w => 4 | .wu => 5 | .d => 6
/-- The size of a code. -/
def MemSize.ofCode : Nat → Option MemSize
  | 0 => some .b | 1 => some .bu | 2 => some .h | 3 => some .hu | 4 => some .w | 5 => some .wu | 6 => some .d
  | _ => none

/-- Scope codes (R161, R205). -/
def Scope.code : Scope → Nat | .core => 0 | .clu => 1 | .col => 2 | .pkg => 3 | .grp => 4 | .dom => 5
/-- The scope of a code. -/
def Scope.ofCode : Nat → Option Scope
  | 0 => some .core | 1 => some .clu | 2 => some .col | 3 => some .pkg | 4 => some .grp | 5 => some .dom
  | _ => none

/-- Functions of `amo` (R165). -/
def AmoOp.code : AmoOp → Nat | .add => 0 | .and => 1 | .or => 2 | .xor => 3 | .min => 4 | .max => 5 | .swap => 6
/-- The function of a code. -/
def AmoOp.ofCode : Nat → Option AmoOp
  | 0 => some .add | 1 => some .and | 2 => some .or | 3 => some .xor | 4 => some .min | 5 => some .max
  | 6 => some .swap | _ => none

/-- Sides of `mps` (R184). -/
def MpsSides.code : MpsSides → Nat | .a => 1 | .b => 2 | .ab => 3
/-- The sides of a code. -/
def MpsSides.ofCode : Nat → Option MpsSides | 1 => some .a | 2 => some .b | 3 => some .ab | _ => none

/-- Pattern sizes of `cpyfill` (R199). -/
def UnitSize.code : UnitSize → Nat | .b => 0 | .h => 1 | .w => 2
/-- The size of a code. -/
def UnitSize.ofCode : Nat → Option UnitSize | 0 => some .b | 1 => some .h | 2 => some .w | _ => none

/-- Operations of `bankop` (R194). -/
def BankOp.code : BankOp → Nat | .zero => 0 | .copy => 1 | .cmp => 2
/-- The operation of a code. -/
def BankOp.ofCode : Nat → Option BankOp | 0 => some .zero | 1 => some .copy | 2 => some .cmp | _ => none

/-- Variants of `bar` (R313). -/
def BarVariant.code : BarVariant → Nat | .init => 0 | .exp => 1 | .arr => 2 | .arrexp => 3
/-- The variant of a code; 4 to 7 are reserved. -/
def BarVariant.ofCode : Nat → Option BarVariant
  | 0 => some .init | 1 => some .exp | 2 => some .arr | 3 => some .arrexp | _ => none

/-- A one-bit fn: 0 or 1, other values reserved. -/
def flagOfCode : Nat → Option Bool | 0 => some false | 1 => some true | _ => none

/-- The number of a one-bit field. -/
def flagCode (b : Bool) : Nat := if b then 1 else 0

/-! ### The token word (R42) -/

/-- The fields of a token word, whatever its bits [3:0]. -/
def tokenWord (e : Nat) : TokenWord where
  prod := reg e 26
  c1 := reg e 20
  c2 := reg e 14
  c3 := reg e 8
  cr := bits e 7 1 == 1
  ring := Fin.ofNat 8 (e / 2 ^ 4)

/-- The token word of R42. -/
def TokenWord.encode (t : TokenWord) : Nat :=
  t.prod.val * 2 ^ 26 + t.c1.val * 2 ^ 20 + t.c2.val * 2 ^ 14 + t.c3.val * 2 ^ 8 +
    flagCode t.cr * 2 ^ 7 + t.ring.val * 2 ^ 4

/-! ### Decoding one slot word -/

/-- What decoding a slot word finds: check 8, check 11, check 9 of R44, or the operation. -/
inductive OpDecode
  | unassigned | badLn | badOperand
  | ok (i : Instr)
  deriving DecidableEq, Repr

/-- An operation whose fixed fields hold their values and whose operands are legal (check 9). -/
def accept (fixed : Bool) (i : Option Instr) : OpDecode :=
  match fixed, i with
  | true, some i => if i.wf then .ok i else .badOperand
  | _, _ => .badOperand

/-- The S map: R102, R103, R104, R105, R108, R109, R139, R146 to R148, R241, R302, R309. -/
def decodeS (op ln w e1 e2 : Nat) : OpDecode :=
  let d := reg w 16
  let a := reg w 10
  let b := reg w 4
  let fn := bits w 0 4
  let imm : BitVec 10 := BitVec.ofNat 10 w
  let off : W32 := BitVec.ofNat 32 e1
  let csr : Fin 1024 := Fin.ofNat 1024 w
  let lv : Fin 8 := Fin.ofNat 8 (w / 2 ^ 19)
  match op, ln with
  | 0x00, 0 => accept (bits w 0 22 == 0) (some .nop)
  | 0x01, 0 => accept (fn == 0) (some (.add d a b))
  | 0x02, 0 => accept (fn == 0) (some (.sub d a b))
  | 0x03, 0 => accept true (some (.addi d a imm))
  | 0x04, 0 => accept (fn == 0) (some (.mul d a b))
  | 0x05, 0 => accept true ((MulKind.ofCode fn).map (.mulh d a b))
  | 0x06, 0 => accept true ((flagOfCode fn).map (.div d a b))
  | 0x07, 0 => accept true ((flagOfCode fn).map (.rem d a b))
  | 0x08, 0 => accept (fn == 0) (some (.and d a b))
  | 0x09, 0 => accept (fn == 0) (some (.or d a b))
  | 0x0A, 0 => accept (fn == 0) (some (.xor d a b))
  | 0x0B, 0 => accept true (some (.andi d a imm))
  | 0x0C, 0 => accept true (some (.ori d a imm))
  | 0x0D, 0 => accept true (some (.xori d a imm))
  | 0x0E, 0 => accept (fn == 0) (some (.sll d a b))
  | 0x0F, 0 => accept (fn == 0) (some (.srl d a b))
  | 0x10, 0 => accept (fn == 0) (some (.sra d a b))
  | 0x11, 0 => accept (bits w 6 2 == 0) ((ShiftKind.ofCode (bits w 8 2)).map fun k => .shi d a k (reg w 0))
  | 0x12, 0 => accept true ((flagOfCode fn).map (.min d a b))
  | 0x13, 0 => accept true ((flagOfCode fn).map (.max d a b))
  | 0x14, 0 => accept (bits w 0 10 == 0) (some (.clz d a))
  | 0x15, 0 => accept (bits w 0 10 == 0) (some (.popc d a))
  | 0x16, 0 => accept true ((Cond.ofCode fn).map (.cmp d a b))
  | 0x17, 0 => accept true ((Cond.ofCode (bits w 6 4)).map fun c => .cmpi d a c (BitVec.ofNat 6 w))
  | 0x17, 1 => accept (bits w 0 6 == 0) ((Cond.ofCode (bits w 6 4)).map fun c => .cmpiExt d a c off)
  | 0x18, 1 => accept (fn == 0 && bits e1 6 26 == 0) (some (.sel d a b (reg e1 0)))
  | 0x19, 0 => accept (bits w 10 6 == 0) (some (.li d imm))
  | 0x19, 2 => accept (bits w 0 16 == 0) (some (.liExt d (BitVec.ofNat 64 (e1 + e2 * 2 ^ 32))))
  | 0x1A, 1 => accept (bits w 0 10 == 0 && bits e1 13 19 == 0)
      (some (.bfx d a (reg e1 0) (reg e1 6) (bits e1 12 1 == 1)))
  | 0x1B, 1 => accept (bits w 0 10 == 0 && bits e1 12 20 == 0) (some (.bfi d a (reg e1 0) (reg e1 6)))
  | 0x1C, 0 => accept (bits w 4 6 == 0) (some (.stag d a (Fin.ofNat 16 w)))
  | 0x20, 1 => accept (bits w 16 6 == 0) ((Cond.ofCode fn).map fun c => .br a b c off)
  | 0x21, 1 => accept (bits w 4 6 == 0)
      ((Cond.ofCode fn).map fun c => .bri a (BitVec.ofNat 6 (w / 2 ^ 16)) c off)
  | 0x22, 1 => accept (bits w 0 22 == 0) (some (.j off))
  | 0x23, 1 => accept (bits w 0 16 == 0) (some (.jal d off))
  | 0x24, 0 => accept (bits w 16 6 == 0 && bits w 0 10 == 0) (some (.jr a))
  | 0x25, 1 => accept (bits w 4 12 == 0) (some (.btok d (Fin.ofNat 16 w) off))
  | 0x26, 1 => accept (bits w 0 14 == 0) (some (.bempty (BitVec.ofNat 8 (w / 2 ^ 14)) off))
  | 0x27, 1 => accept (bits w 16 6 == 0 && bits w 0 10 == 0) (some (.chk a off))
  | 0x28, 0 => accept (bits w 0 7 == 0) (some (.loop lv (reg w 13) (reg w 7)))
  | 0x29, 1 => accept (bits w 0 11 == 0) (some (.lstr lv (Fin.ofNat 4 (w / 2 ^ 17)) (reg w 11) off))
  | 0x2A, 0 => accept (bits w 0 12 == 0) (some (.lbrk lv (reg w 13) (bits w 12 1 == 1)))
  | 0x2B, 0 => accept (bits w 8 12 == 0)
      (some (.wait (bits w 20 1 == 1) (bits w 21 1 == 1) (Fin.ofNat 256 w)))
  | 0x2C, 0 => accept (bits w 10 6 == 0) (some (.csrr d csr))
  | 0x2D, 0 => accept true (some (.csrw d a csr))
  | 0x2E, 0 => accept true (some (.csrs d a csr))
  | 0x2F, 0 => accept true (some (.csrc d a csr))
  | 0x30, 0 => accept (bits w 10 12 == 0) (some (.trap csr))
  | 0x31, 0 => accept (bits w 0 22 == 0) (some .eret)
  | 0x32, 0 => accept (bits w 0 22 == 0) (some .halt)
  | 0x33, 0 => accept (bits w 5 10 == 0) (some (.fset (bits w 21 1 == 1) (reg w 15) (Fin.ofNat 32 w)))
  | 0x34, 0 => accept (bits w 6 16 == 0) (some (.fwait (bits w 5 1 == 1) (Fin.ofNat 32 w)))
  | 0x35, 0 => accept (bits w 5 17 == 0) (some (.fclr (Fin.ofNat 32 w)))
  | 0x36, 0 => accept (bits w 0 22 == 0) (some .yield)
  | 0x37, 0 => accept (bits w 0 22 == 0) (some .tend)
  | _, _ => if op ≤ 0x1C ∨ (0x20 ≤ op ∧ op ≤ 0x37) then .badLn else .unassigned

/-- The V map: R114, R120 to R132. -/
def decodeV (op ln w e1 : Nat) : OpDecode :=
  let d := reg w 16
  let a := reg w 10
  let b := reg w 4
  let fn := bits w 0 2
  let nf := bits w 2 2
  let low := bits w 0 4
  let kd : KReg := Fin.ofNat 8 (w / 2 ^ 16)
  match op, ln with
  | 0x00, 0 => accept (nf == 0) ((SatKind.ofCode fn).map (.vadd d a b))
  | 0x01, 0 => accept (nf == 0) ((SatKind.ofCode fn).map (.vsub d a b))
  | 0x02, 0 => accept (nf == 0) ((SatKind.ofCode fn).map (.vmul d a b))
  | 0x03, 0 => accept (nf == 0) ((MulKind.ofCode fn).map (.vmulh d a b))
  | 0x04, 0 => accept (nf == 0) ((flagOfCode fn).map (.vmin d a b))
  | 0x05, 0 => accept (nf == 0) ((flagOfCode fn).map (.vmax d a b))
  | 0x06, 0 => accept (bits w 2 8 == 0) ((flagOfCode fn).map (.vabs d a))
  | 0x07, 0 => accept (low == 0) (some (.vand d a b))
  | 0x08, 0 => accept (low == 0) (some (.vor d a b))
  | 0x09, 0 => accept (low == 0) (some (.vxor d a b))
  | 0x0A, 0 => accept (bits w 0 10 == 0) (some (.vnot d a))
  | 0x0B, 0 => accept (low == 0) (some (.vshl d a b))
  | 0x0C, 0 => accept (low == 0) (some (.vshr d a b))
  | 0x0D, 0 => accept (low == 0) (some (.vsra d a b))
  | 0x0E, 0 => accept (low == 0) ((Cond.ofCode (bits w 19 3)).map fun c => .vcmp c kd a b)
  | 0x0F, 0 => accept (bits w 3 1 == 0) (some (.vsel d a b (Fin.ofNat 8 w)))
  | 0x10, 0 => accept true ((Rounding.ofCode nf).bind fun r => (FloatKind.ofCode fn).map (.vfadd d a b r))
  | 0x11, 0 => accept true ((Rounding.ofCode nf).bind fun r => (FloatKind.ofCode fn).map (.vfsub d a b r))
  | 0x12, 0 => accept true ((Rounding.ofCode nf).bind fun r => (FloatKind.ofCode fn).map (.vfmul d a b r))
  | 0x13, 0 => accept true ((Rounding.ofCode nf).bind fun r => (FloatKind.ofCode fn).map (.vfma d a b r))
  | 0x14, 0 => accept (nf == 0) ((FloatKind.ofCode fn).map (.vfmin d a b))
  | 0x15, 0 => accept (nf == 0) ((FloatKind.ofCode fn).map (.vfmax d a b))
  | 0x16, 0 => accept (nf == 0)
      ((FCond.ofCode (bits w 19 3)).bind fun c => (FloatKind.ofCode fn).map (.vfcmp c kd a b))
  | 0x17, 0 => accept (nf == 0)
      ((CvtFormat.ofCode (bits w 7 3)).bind fun s => (CvtFormat.ofCode (bits w 4 3)).bind fun t =>
        (Rounding.ofCode fn).map (.vcvt d a s t))
  | 0x18, 0 => accept (bits w 8 2 == 0)
      ((flagOfCode fn).map (.vpack d a (Fin.ofNat 16 (w / 2 ^ 4)) (Fin.ofNat 4 (w / 2 ^ 2))))
  | 0x19, 0 => accept (bits w 8 2 == 0 && fn == 0)
      (some (.vunpack d a (Fin.ofNat 16 (w / 2 ^ 4)) (Fin.ofNat 4 (w / 2 ^ 2))))
  | 0x1A, 0 => accept (bits w 4 6 == 0) ((RedOp.ofCode low).map (.vred d a))
  | 0x1B, 0 => accept (bits w 4 6 == 0) ((RedOp.ofCode low).map (.vscan d a))
  | 0x1C, 0 => accept (low == 0) (some (.vperm d a b))
  | 0x1D, 0 => accept (bits w 2 5 == 0) ((XcKind.ofCode fn).map (.vxc d a (Fin.ofNat 8 (w / 2 ^ 7))))
  | 0x1E, 0 => accept (bits w 2 8 == 0) ((flagOfCode fn).map (.vbcast d a))
  | 0x1F, 0 => accept (bits w 8 2 == 0 && nf == 0)
      ((flagOfCode fn).map (.vext d a (Fin.ofNat 16 (w / 2 ^ 4))))
  | 0x20, 0 => accept (bits w 2 14 == 0) ((flagOfCode fn).map (.viota d))
  | 0x21, 0 => accept true (some (.vli d (BitVec.ofNat 16 w)))
  | 0x21, 1 => accept (bits w 0 16 == 0) (some (.vliExt d (BitVec.ofNat 32 e1)))
  | 0x22, 0 => accept (bits w 13 9 == 0 && bits w 0 10 == 0) (some (.mpush (Fin.ofNat 8 (w / 2 ^ 10))))
  | 0x23, 0 => accept (bits w 0 22 == 0) (some .minv)
  | 0x24, 0 => accept (bits w 0 22 == 0) (some .mpop)
  | 0x25, 0 => accept (bits w 19 3 == 0 && bits w 13 3 == 0 && bits w 7 3 == 0)
      ((KOp.ofCode low).map (.kmov kd (Fin.ofNat 8 (w / 2 ^ 10)) (Fin.ofNat 8 (w / 2 ^ 4))))
  | 0x26, 0 => accept (bits w 0 12 == 0) (some (.vcm (Fin.ofNat 4 (w / 2 ^ 20)) (BitVec.ofNat 8 (w / 2 ^ 12))))
  | 0x27, 0 => accept (low == 0) (some (.vlgmul d a b))
  | 0x28, 0 => accept (low == 0) (some (.vlgsum d a b))
  | 0x29, 0 => accept true ((flagOfCode nf).bind fun s => (DotKind.ofCode fn).map (.vdot4 d a b s))
  | 0x2A, 0 => accept (bits w 0 10 == 0) (some (.vmov d a))
  | _, _ => if op ≤ 0x2A then .badLn else .unassigned

/-- The F map: R114, R133, R134. -/
def decodeF (op ln w : Nat) : OpDecode :=
  let d := reg w 16
  let a := reg w 10
  let z := bits w 0 10 == 0
  match op, ln with
  | 0x00, 0 => accept z (some (.fexp2 d a))
  | 0x01, 0 => accept z (some (.flog2 d a))
  | 0x02, 0 => accept z (some (.frcp d a))
  | 0x03, 0 => accept z (some (.frsqrt d a))
  | 0x04, 0 => accept z (some (.fsqrt d a))
  | 0x05, 0 => accept z (some (.ftanh d a))
  | 0x06, 0 => accept z (some (.fsigm d a))
  | 0x07, 0 => accept z (some (.fsin d a))
  | 0x08, 0 => accept z (some (.fcos d a))
  | 0x09, 0 => accept (bits w 0 4 == 0) (some (.flut d a (reg w 4)))
  | 0x0A, 0 => accept (bits w 20 2 == 0 && bits w 0 12 == 0) (some (.fcm (BitVec.ofNat 8 (w / 2 ^ 12))))
  | _, _ => if op ≤ 0x0A then .badLn else .unassigned

/-- The M map: R161 to R168, R206, R219, R318. -/
def decodeM (op ln w e1 e2 : Nat) : OpDecode :=
  let d := reg w 16
  let a := reg w 10
  let b := reg w 4
  let sz := MemSize.ofCode (bits w 7 3)
  let plain := bits w 0 7 == 0
  let off : W32 := BitVec.ofNat 32 e1
  let str : W32 := BitVec.ofNat 32 e2
  let k : Fin 4 := Fin.ofNat 4 (w / 2 ^ 2)
  let h : Fin 8 := Fin.ofNat 8 (w / 2)
  let z10 := bits w 0 10 == 0
  let z4 := bits w 0 4 == 0
  let withScope (f : MemSize → Scope → Instr) : Option Instr :=
    sz.bind fun s => (Scope.ofCode (bits w 4 3)).map (f s)
  match op, ln with
  | 0x00, 0 => accept plain (sz.map fun s => .ld d a s)
  | 0x00, 1 => accept plain (sz.map fun s => .ldExt d a s off)
  | 0x01, 0 => accept plain (sz.map fun s => .st d a s)
  | 0x01, 1 => accept plain (sz.map fun s => .stExt d a s off)
  | 0x02, 0 => accept z10 (some (.vld d a))
  | 0x02, 1 => accept z10 (some (.vldExt d a off none))
  | 0x02, 2 => accept z10 (some (.vldExt d a off (some str)))
  | 0x03, 0 => accept z10 (some (.vst d a))
  | 0x03, 1 => accept z10 (some (.vstExt d a off none))
  | 0x03, 2 => accept z10 (some (.vstExt d a off (some str)))
  | 0x04, 0 => accept (bits w 0 2 == 0) (some (.vldx d a b k))
  | 0x04, 1 => accept (bits w 0 2 == 0) (some (.vldxExt d a b k off))
  | 0x05, 0 => accept (bits w 0 2 == 0) (some (.vstx d a b k))
  | 0x05, 1 => accept (bits w 0 2 == 0) (some (.vstxExt d a b k off))
  | 0x06, 0 => accept plain (sz.map fun s => .lds d a s)
  | 0x06, 1 => accept plain (sz.map fun s => .ldsExt d a s off)
  | 0x07, 0 => accept z10 (some (.vlds d a))
  | 0x07, 1 => accept z10 (some (.vldsExt d a off none))
  | 0x07, 2 => accept z10 (some (.vldsExt d a off (some str)))
  | 0x08, 0 => accept z4 (withScope fun s p => .ldAcq d a s p)
  | 0x08, 1 => accept z4 (withScope fun s p => .ldAcqExt d a s p off)
  | 0x09, 0 => accept z4 (withScope fun s p => .stRel d a s p)
  | 0x09, 1 => accept z4 (withScope fun s p => .stRelExt d a s p off)
  | 0x0A, 0 => accept true ((AmoOp.ofCode (bits w 1 3)).map fun f => .amo d a b f (bits w 0 1 == 1))
  | 0x0B, 1 => accept (bits w 1 3 == 0 && bits e1 6 26 == 0)
      (some (.cas d a b (reg e1 0) (bits w 0 1 == 1)))
  | 0x0C, 0 => accept (bits w 0 1 == 0) ((AmoOp.ofCode (bits w 1 3)).map (.vamo d a b))
  | 0x0D, 0 => accept true (some (.ldg d a b h (bits w 0 1 == 1)))
  | 0x0E, 0 => accept (bits w 0 1 == 0) (some (.vldg d a b h))
  | 0x0F, 0 => accept z4 (some (.vldv d a b))
  | 0x0F, 1 => accept z4 (some (.vldvExt d a b off))
  | 0x10, 0 => accept (bits w 16 6 == 0 && bits w 0 8 == 0) ((flagOfCode (bits w 8 2)).map (.pref a))
  | 0x10, 1 => accept (bits w 16 6 == 0 && bits w 0 8 == 0)
      ((flagOfCode (bits w 8 2)).map fun l => .prefExt a l off)
  | 0x11, 0 => accept (bits w 0 12 == 0) (some (.mcm (Fin.ofNat 4 (w / 2 ^ 20)) (BitVec.ofNat 8 (w / 2 ^ 12))))
  | _, _ => if op ≤ 0x11 then .badLn else .unassigned

/-- The X map: R176, R182, R184, R185. -/
def decodeX (op ln w e1 e2 : Nat) : OpDecode :=
  let d := reg w 16
  let a := reg w 10
  let b := reg w 4
  let t1 := bits e1 0 4 == 0
  let f16 (lo : Nat) : Fin 16 := Fin.ofNat 16 (e1 / 2 ^ lo)
  match op, ln with
  | 0x00, 2 => accept (bits w 0 1 == 0 && bits e2 0 4 == 0)
      (some (.mma d a b (Fin.ofNat 4 (w / 2 ^ 2)) (bits w 1 1 == 1) (f16 28) (f16 24) (f16 20) (f16 16)
        (f16 12) (reg e1 6) (reg e1 0) (tokenWord e2)))
  | 0x01, 1 => accept (bits w 16 6 == 0 && bits w 0 10 == 0 && t1) (some (.mmz a (tokenWord e1)))
  | 0x02, 0 => accept (bits w 12 10 == 0 && bits w 2 4 == 0) ((MpsSides.ofCode (bits w 0 2)).map (.mps (reg w 6)))
  | 0x03, 0 => accept (bits w 0 8 == 0) (some (.mscl (Fin.ofNat 4 (w / 2 ^ 20)) (reg w 14) (reg w 8)))
  | 0x04, 1 => accept (bits w 0 2 == 0 && t1)
      (some (.mcvt d a (Fin.ofNat 16 (w / 2 ^ 6)) (Fin.ofNat 16 (w / 2 ^ 2)) (tokenWord e1)))
  | 0x05, 1 => accept (bits w 4 6 == 0 && t1)
      (some (.mtr d a (Fin.ofNat 4 (w / 2 ^ 2)) (Fin.ofNat 4 w) (tokenWord e1)))
  | 0x06, 1 => accept (bits w 0 6 == 0 && t1) (some (.macc d a (Fin.ofNat 16 (w / 2 ^ 6)) (tokenWord e1)))
  | _, _ => if op ≤ 0x06 then .badLn else .unassigned

/-- The A map: R191 to R200, R207, R214 to R218, R240 to R245, R248 to R259, R271, R286, R299, R308 to R319. -/
def decodeA (op ln w e1 e2 : Nat) : OpDecode :=
  let d := reg w 16
  let a := reg w 10
  let b := reg w 4
  let low := bits w 0 4
  let zhi := bits w 16 6 == 0
  let t1 := bits e1 0 4 == 0
  let t2 := bits e2 0 4 == 0
  let k1 := tokenWord e1
  let k2 := tokenWord e2
  let h : Fin 8 := Fin.ofNat 8 (w / 2 ^ 19)
  let q13 := reg w 13
  let q7 := reg w 7
  let q1 := reg w 1
  let f0 := bits w 0 1 == 0
  match op, ln with
  | 0x00, 1 => accept t1 (match low with | 0 => some (.cpy d a b k1) | 1 => some (.cpyB d a b k1) | _ => none)
  | 0x01, 2 => accept (bits e1 0 21 == 0 && t2)
      (some (.cpym d a b (Fin.ofNat 16 w) (reg e1 26) (Fin.ofNat 32 (e1 / 2 ^ 21)) k2))
  | 0x02, 1 => accept t1 (some (.cpypl d a b (Fin.ofNat 16 w) none k1))
  | 0x02, 2 => accept (bits e1 0 26 == 0 && t2) (some (.cpypl d a b (Fin.ofNat 16 w) (some (reg e1 26)) k2))
  | 0x03, 1 => accept (low == 0 && t1) (some (.cpysp d a b k1))
  | 0x04, 1 => accept t1 ((UnitSize.ofCode low).map fun z => .cpyfill d a b z k1)
  | 0x05, 2 => accept (bits e1 0 26 == 0 && t2) ((flagOfCode low).map fun z => .gath d a b (reg e1 26) z k2)
  | 0x06, 2 => accept (bits e1 0 26 == 0 && t2) ((flagOfCode low).map fun z => .scat d a b (reg e1 26) z k2)
  | 0x07, 1 => accept t1 ((BankOp.ofCode low).map fun z => .bankop d a b z k1)
  | 0x08, 1 => accept (zhi && low == 0 && t1) (some (.lfence a b k1))
  | 0x09, 1 => accept (bits w 4 18 == 0 && t1) ((Scope.ofCode low).map fun z => .fence z k1)
  | 0x0A, 1 => accept (zhi && bits w 0 10 == 0 && t1) (some (.nflush a k1))
  | 0x0B, 1 => accept (zhi && bits w 1 9 == 0 && t1) (some (.rfence a (bits w 0 1 == 1) k1))
  | 0x0C, 1 => accept (zhi && bits w 4 6 == 0 && t1) (some (.slotrel a (Fin.ofNat 16 w) k1))
  | 0x0D, 1 => accept (bits w 4 2 == 0 && t1) ((BarVariant.ofCode (bits w 19 3)).map fun v =>
      .bar v (bits w 18 1 == 1) (reg w 12) (reg w 6) (Fin.ofNat 16 w) k1)
  | 0x0E, 0 => accept (zhi && bits w 4 6 == 0) (some (.barw a (Fin.ofNat 16 w)))
  | 0x0F, 1 => accept (zhi && low == 0 && t1) (some (.vpub a b k1))
  | 0x10, 0 => accept (zhi && low == 0) (some (.vwait a b))
  | 0x11, 1 => accept (bits w 0 13 == 0 && t1) (some (.gstep h q13 k1))
  | 0x12, 1 => accept (bits w 0 13 == 0 && t1) (some (.grel h q13 k1))
  | 0x13, 1 => accept (bits w 0 6 == 0 && t1) (some (.gbind h q13 q7 (bits w 6 1 == 1) k1))
  | 0x14, 1 => accept t1 ((flagOfCode low).map fun z => .send d a b z k1)
  | 0x15, 2 => accept (low == 0 && bits e1 0 20 == 0 && t2)
      (some (.rpost d a b (reg e1 26) (reg e1 20) k2))
  | 0x16, 1 => accept (bits w 10 6 == 0 && low == 0 && t1) (some (.rcancel d b k1))
  | 0x17, 1 => accept (low == 0 && t1) (some (.rprobe d a b k1))
  | 0x18, 1 => accept (bits w 10 6 == 0 && bits w 0 6 == 0 && t1)
      (some (.ringpop d (Fin.ofNat 8 (w / 2 ^ 7)) (bits w 6 1 == 1) k1))
  | 0x19, 1 => accept (bits w 0 9 == 0 && t1) (some (.launch d a (bits w 9 1 == 1) k1))
  | 0x1A, 1 => accept (bits w 0 16 == 0 && t1) (some (.chunk d k1))
  | 0x1B, 0 => accept (bits w 0 10 == 0) (some (.twait d a))
  | 0x1C, 1 => accept (bits w 0 7 == 0 && t1) (some (.sqadm h q13 q7 k1))
  | 0x1D, 1 => accept (f0 && t1) (some (.sqtree h q13 q7 q1 k1))
  | 0x1E, 1 => accept (bits w 13 6 == 0 && f0 && t1) (some (.sqvrd h q7 q1 k1))
  | 0x1F, 1 => accept (bits w 0 7 == 0 && t1) (some (.sqacc h q13 q7 k1))
  | 0x20, 1 => accept (bits w 0 7 == 0 && t1) (some (.sqret h q13 q7 k1))
  | 0x21, 1 => accept (bits w 1 6 == 0 && t1) (some (.sqpre h q13 q7 (bits w 0 1 == 1) k1))
  | 0x22, 1 => accept (bits w 0 7 == 0 && t1) (some (.sqres h q13 q7 k1))
  | 0x23, 1 => accept (f0 && t1) (some (.sqbat h q13 q7 q1 k1))
  | 0x24, 1 => accept t1 (if bits w 0 1 = 0 then some (.sqkvAddr h q13 q7 q1 k1) else some (.sqkvAdv h q13 q7 q1 k1))
  | 0x25, 1 => accept (zhi && low == 0 && t1) (some (.sealCap a b k1))
  | 0x26, 1 => accept (zhi && low == 0 && t1) (some (.wake a b k1))
  | 0x27, 1 => accept (zhi && low == 0 && t1) (some (.slotld a b k1))
  | 0x28, 1 => accept (zhi && low == 0 && t1) (some (.grpset a b k1))
  | 0x29, 1 => accept (low == 0 && t1) (some (.tlbinv d a b k1))
  | _, _ => if op ≤ 0x29 then .badLn else .unassigned

/-- Decode a slot word and its extension words in the map of a class (R38, R47). A reserved LN has no
accepted form. -/
def decodeOp (om : OpMap) (w e1 e2 : Nat) : OpDecode :=
  let op := bits w 22 6
  let ln := bits w 30 2
  match om with
  | .s => decodeS op ln w e1 e2
  | .v => decodeV op ln w e1
  | .f => decodeF op ln w
  | .m => decodeM op ln w e1 e2
  | .x => decodeX op ln w e1 e2
  | .a => decodeA op ln w e1 e2

/-- The qualifier of a code; 3 is reserved (R38). -/
def Qual.ofCode : Nat → Option Qual | 0 => some .every | 1 => some .first | 2 => some .last | _ => none
/-- The qualifier's code (R38). -/
def Qual.code : Qual → Nat | .every => 0 | .first => 1 | .last => 2

/-- Opcodes of the S map that S1 does not execute (R43). -/
def s0Only (op : Nat) : Bool :=
  (0x20 ≤ op && op ≤ 0x2B) || (0x30 ≤ op && op ≤ 0x32) || op == 0x36 || op == 0x37

/-- Privileged opcodes (R47). -/
def privileged (om : OpMap) (op : Nat) : Bool :=
  match om with
  | .s => op == 0x31 || op == 0x32
  | .a => op == 0x25 || (0x27 ≤ op && op ≤ 0x29)
  | .v | .f | .m | .x => false

/-- Opcodes whose bundle is a control-transfer bundle, a sync bundle whatever SY holds (R35), with `wait`
and `fwait`, whose bundles behave as sync bundles (R302, R310). -/
def forcesSync (op : Nat) : Bool :=
  (0x20 ≤ op && op ≤ 0x2B) || (0x30 ≤ op && op ≤ 0x32) || op == 0x34 || op == 0x36 || op == 0x37

/-! ### Destinations (R45) -/

/-- What a slot writes, as R45 compares it. Vector destinations are compared at dispatch. -/
inductive Dest
  | scalar (r : Nat) | csr (n : Nat) | token (t : Nat) | level (lv : Nat)
  deriving DecidableEq, Repr

/-- A vector-side destination of a slot (R45, fourth case). -/
inductive VDest
  | vector (r : Nat) | mask (r : Nat) | stack
  deriving DecidableEq, Repr

/-- The produced token of the last extension word. -/
def tokDest (e : Nat) : List Dest := [.token (bits e 26 6)]

/-- A register pair d and d + 1. -/
def pairDest (d : Nat) : List Dest := [.scalar d, .scalar (d + 1)]

/-- The destinations that a slot word names by its operand layout, legal or not, when its opcode is
assigned and its LN accepted (R44, R45). -/
def destsOf (om : OpMap) (w e1 e2 : Nat) : List Dest :=
  let op := bits w 22 6
  let ln := bits w 30 2
  let d := bits w 16 6
  match om with
  | .s =>
    if (0x01 ≤ op ∧ op ≤ 0x1C) ∨ op = 0x23 then [.scalar d]
    else if 0x2C ≤ op ∧ op ≤ 0x2F then [.scalar d, .csr (bits w 0 10)]
    else if op = 0x28 ∨ op = 0x29 then [.level (bits w 19 3)]
    else if op = 0x2A then (List.range 7).filterMap fun l => if bits w 19 3 ≤ l then some (.level l) else none
    else if op = 0x37 then (List.range 6).map fun l => .level (l + 1)
    else []
  | .v =>
    if op = 0x1A ∨ op = 0x1F then [.scalar d]
    else if op = 0x26 ∧ bits w 20 2 ≤ 2 then [.csr (0x028 + bits w 20 2)] else []
  | .f => if op = 0x0A then [.csr 0x02B] else []
  | .m =>
    if op = 0x00 ∨ op = 0x06 ∨ op = 0x08 ∨ op = 0x0A ∨ op = 0x0B ∨ op = 0x0D then [.scalar d]
    else if op = 0x11 ∧ bits w 20 2 ≤ 1 then [.csr (0x02C + bits w 20 2)] else []
  | .x =>
    if op = 0x02 then []
    else if op = 0x03 then if bits w 20 2 ≤ 1 then [.csr (0x030 + 2 * bits w 20 2), .csr (0x031 + 2 * bits w 20 2)] else []
    else if op = 0x00 then tokDest e2 else tokDest e1
  | .a =>
    let tok := if ln = 2 then tokDest e2 else tokDest e1
    if op = 0x0E ∨ op = 0x10 then []
    else if op = 0x1B then [.scalar d]
    else if op = 0x16 ∨ op = 0x19 then .scalar d :: tok
    else if op = 0x17 ∨ op = 0x18 ∨ op = 0x1A then pairDest d ++ tok
    else if 0x1C ≤ op ∧ op ≤ 0x24 ∧ op ≠ 0x1E then .scalar (bits w 13 6) :: tok
    else tok

/-- The vector-side destination that a slot word names (R45, fourth case). -/
def vdestsOf (om : OpMap) (w : Nat) : List VDest :=
  let op := bits w 22 6
  let d := bits w 16 6
  match om with
  | .v =>
    if op = 0x0E ∨ op = 0x16 ∨ op = 0x25 then [.mask (bits w 16 3)]
    else if 0x22 ≤ op ∧ op ≤ 0x24 then [.stack]
    else if op = 0x1A ∨ op = 0x1F ∨ op = 0x26 then []
    else [.vector d]
  | .f => if op = 0x0A then [] else [.vector d]
  | .m => if op = 0x02 ∨ op = 0x04 ∨ op = 0x07 ∨ op = 0x0C ∨ op = 0x0E ∨ op = 0x0F then [.vector d] else []
  | .s | .x | .a => []

/-- Two destinations conflict unless they are s0 or t0 (R45). -/
def destConflict (a b : Dest) : Bool :=
  a == b && a ≠ .scalar 0 && a ≠ .token 0

/-- Two vector-side destinations conflict in a cluster both slots enable; k0 is no destination (R45). -/
def vdestConflict (a b : VDest) : Bool := a == b && a ≠ .mask 0

/-! ### Decoding a bundle (R34, R44) -/

/-- A slot's words as the bundle gives them. -/
structure RawSlot where
  slot : Slot
  w : Nat
  e1 : Nat
  e2 : Nat
  deriving DecidableEq, Repr

/-- A failed decode check (R44): cause of check 12 or the defect code, slot index, and the word of tval. -/
inductive Defect
  | bundle (code slot : Nat) (word : Nat)
  | slotOp (code slot : Nat) (word : Nat)
  | privilege (slot : Nat) (word : Nat)
  deriving DecidableEq, Repr

/-- The slots that the header's slot mask names, in bundle order (R33, R34). -/
def maskSlots (h : Nat) : List Slot := allSlots.filter fun s => bits h (18 + s.index) 1 == 1

/-- The number of extension words that LN gives; a reserved LN counts as 0 (R44). -/
def lnWords (w : Nat) : Nat := if bits w 30 2 = 3 then 0 else bits w 30 2

/-- The slots' words from `fetch`, starting at word `p`, with the word after them. -/
def gather (fetch : Nat → Nat) : List Slot → Nat → List RawSlot × Nat
  | [], p => ([], p)
  | s :: rest, p =>
    let w := fetch p
    let n := lnWords w
    let (rs, q) := gather fetch rest (p + 1 + n)
    ({ slot := s, w := w, e1 := if 1 ≤ n then fetch (p + 1) else 0,
       e2 := if 2 ≤ n then fetch (p + 2) else 0 } :: rs, q)

/-- Decode of one raw slot. -/
def RawSlot.dec (r : RawSlot) : OpDecode := decodeOp r.slot.cls r.w r.e1 r.e2

/-- Whether an operand layout applies to the slot (R44, checks 7 and 9). -/
def RawSlot.laidOut (r : RawSlot) : Bool :=
  match r.dec with
  | .unassigned | .badLn => false
  | .badOperand | .ok _ => true

/-- The later slot of the first pair of slots that write one destination (R45, R46). -/
def firstConflict : List RawSlot → List (RawSlot) → Option RawSlot
  | _, [] => none
  | before, r :: rest =>
    let ds := if r.laidOut then destsOf r.slot.cls r.w r.e1 r.e2 else []
    let hit := before.any fun p =>
      p.laidOut && (destsOf p.slot.cls p.w p.e1 p.e2).any fun x => ds.any fun y => destConflict x y
    if hit then some r else firstConflict (before ++ [r]) rest

/-- The pairs of slots that name one vector-side destination, in slot order, the later slot second (R45, fourth case). -/
def vectorPairs : List RawSlot → List RawSlot → List (Slot × Slot)
  | _, [] => []
  | before, r :: rest =>
    let ds := vdestsOf r.slot.cls r.w
    ((before.filter fun p => (vdestsOf p.slot.cls p.w).any fun x => ds.any fun y => vdestConflict x y).map fun p =>
      (p.slot, r.slot)) ++ vectorPairs (before ++ [r]) rest

/-- A decoded bundle or the first check that fails. `fw` says the core is a firmware core (check 12).
A bundle with a pair of slots that name one vector-side destination is held as a sync bundle (R45). -/
def decodeBundle (fetch : Nat → Nat) (pc : Nat) (fw : Bool) : Except Defect Bundle :=
  let h := fetch pc
  if bits h 28 4 ≠ 0xD then .error (.bundle 1 0 h)
  else if bits h 0 11 ≠ 0 then .error (.bundle 2 0 h)
  else if bits h 11 3 = 7 then .error (.bundle 3 0 h)
  else
    let (rs, q) := gather fetch (maskSlots h) (pc + 1)
    if 16384 < q then .error (.bundle 4 0 h)
    else
      match rs.find? fun r => bits r.w 30 2 == 3 with
      | some r => .error (.bundle 5 r.slot.index h)
      | none =>
      match rs.find? fun r => bits r.w 28 2 == 3 with
      | some r => .error (.bundle 6 r.slot.index h)
      | none =>
      match firstConflict [] rs with
      | some r => .error (.bundle 7 r.slot.index h)
      | none =>
      match rs.find? fun r => r.dec == .unassigned with
      | some r => .error (.slotOp 1 r.slot.index r.w)
      | none =>
      match rs.find? fun r => r.dec == .badOperand with
      | some r => .error (.slotOp 2 r.slot.index r.w)
      | none =>
      match rs.find? fun r => r.slot == .s1 && s0Only (bits r.w 22 6) with
      | some r => .error (.slotOp 3 r.slot.index r.w)
      | none =>
      match rs.find? fun r => r.dec == .badLn with
      | some r => .error (.slotOp 4 r.slot.index r.w)
      | none =>
      match rs.find? fun r => !fw && privileged r.slot.cls (bits r.w 22 6) with
      | some r => .error (.privilege r.slot.index r.w)
      | none =>
        .ok {
          header := BitVec.ofNat 32 h
          len := q - pc
          sync := bits h 17 1 == 1 || (rs.any fun r => r.slot.cls == .s && forcesSync (bits r.w 22 6)) || !(vectorPairs [] rs).isEmpty
          pairs := vectorPairs [] rs
          pad := bits h 14 3
          le := bits h 11 3
          ops := rs.filterMap fun r =>
            match r.dec, Qual.ofCode (bits r.w 28 2) with
            | .ok i, some q => some { slot := r.slot, qual := q, word := BitVec.ofNat 32 r.w, op := i }
            | _, _ => none }

/-! ### The host's probe -/

/-- The slots in which a lone slot word is tried: one of each class, in bundle order (log 8). -/
def probeSlots : List Slot := [.s0, .v0, .f, .m0, .x, .a]

/-- How many bits of a lone slot word (LN = 0) the operation at an opcode fixes, opcode by opcode; 0 where no
operation has that form (spec/opcode_table.json). -/
def fixedBits : OpMap → List Nat
  | .s => [30, 12, 12, 8, 12, 8, 8, 8, 12, 12, 12, 8, 8, 8, 12, 12, 12, 10, 8, 8, 18, 18, 8, 8, 0, 14, 0, 0, 14, 0, 0, 0, 0, 0, 0, 0, 24, 0, 0, 0, 15, 0, 20, 20, 14, 8, 8, 8, 20, 30, 30, 18, 24, 25, 30, 30]
  | .v => [10, 10, 10, 10, 10, 10, 16, 12, 12, 12, 18, 12, 12, 12, 12, 9, 8, 8, 8, 8, 10, 10, 10, 10, 10, 12, 14, 14, 12, 13, 16, 12, 22, 8, 27, 30, 30, 17, 20, 12, 12, 8, 18]
  | .f => [18, 18, 18, 18, 18, 18, 18, 18, 18, 12, 22]
  | .m => [15, 15, 18, 18, 10, 10, 15, 18, 12, 12, 8, 0, 9, 8, 9, 12, 22, 20]
  | .x => [0, 0, 22, 16]
  | .a => [0, 0, 0, 0, 0, 0, 0, 0, 0, 0, 0, 0, 0, 0, 20, 0, 18, 0, 0, 0, 0, 0, 0, 0, 0, 0, 0, 18]

/-- The operation that a lone slot word, its extension words zero, is in some map: of the slots in whose map it
is legal, the one whose operation fixes the most bits, the first in bundle order among equals (log 8). -/
def probeSlot (w : Nat) : Option (Slot × Instr) :=
  let hits := probeSlots.filterMap fun s =>
    if bits w 30 2 = 3 ∨ bits w 28 2 = 3 then none
    else match decodeOp s.cls w 0 0 with
      | .ok i => some (s, i, (fixedBits s.cls).getD (bits w 22 6) 0)
      | _ => none
  let best := hits.foldl (fun n h => Nat.max n h.2.2) 0
  (hits.find? fun h => h.2.2 == best).map fun h => (h.1, h.2.1)

/-- The instruction that the decoder reads from a slot word with extension words of zeros (log 8). The
row's bits are the slot word's; `nbits` is its width, and no row has bits above 32. -/
def decodeTableWord (nbits w : Nat) : Option Instr :=
  (probeSlot (w % 2 ^ min nbits 32)).map (·.2)

/-! ### The encoder -/

/-- The RRR layout (R41) with its low bits. -/
def rrr {j k l : Nat} (d : Fin j) (a : Fin k) (b : Fin l) (fn : Nat) : Nat := d.val * 65536 + a.val * 1024 + b.val * 16 + fn
/-- The RRI layout (R41) with its low bits. -/
def rr {j k : Nat} (d : Fin j) (a : Fin k) (low : Nat) : Nat := d.val * 65536 + a.val * 1024 + low

/-- Opcode, operand field [21:0] and extension words of an S-map operation. -/
def encodeS : Instr → Option (Nat × Nat × List Nat)
  | .nop => some (0x00, 0, [])
  | .add d a b => some (0x01, rrr d a b 0, [])
  | .sub d a b => some (0x02, rrr d a b 0, [])
  | .addi d a imm => some (0x03, rr d a (imm.toNat), [])
  | .mul d a b => some (0x04, rrr d a b 0, [])
  | .mulh d a b k => some (0x05, rrr d a b (k.code), [])
  | .div d a b u => some (0x06, rrr d a b (flagCode u), [])
  | .rem d a b u => some (0x07, rrr d a b (flagCode u), [])
  | .and d a b => some (0x08, rrr d a b 0, [])
  | .or d a b => some (0x09, rrr d a b 0, [])
  | .xor d a b => some (0x0A, rrr d a b 0, [])
  | .andi d a imm => some (0x0B, rr d a (imm.toNat), [])
  | .ori d a imm => some (0x0C, rr d a (imm.toNat), [])
  | .xori d a imm => some (0x0D, rr d a (imm.toNat), [])
  | .sll d a b => some (0x0E, rrr d a b 0, [])
  | .srl d a b => some (0x0F, rrr d a b 0, [])
  | .sra d a b => some (0x10, rrr d a b 0, [])
  | .shi d a k n => some (0x11, rr d a (k.code * 2 ^ 8 + n.val), [])
  | .min d a b u => some (0x12, rrr d a b (flagCode u), [])
  | .max d a b u => some (0x13, rrr d a b (flagCode u), [])
  | .clz d a => some (0x14, rr d a 0, [])
  | .popc d a => some (0x15, rr d a 0, [])
  | .cmp d a b c => some (0x16, rrr d a b (c.code), [])
  | .cmpi d a c imm => some (0x17, rr d a (c.code * 2 ^ 6 + imm.toNat), [])
  | .cmpiExt d a c imm => some (0x17, rr d a (c.code * 2 ^ 6), [imm.toNat])
  | .sel d a b c => some (0x18, rrr d a b 0, [c.val])
  | .li d imm => some (0x19, d.val * 2 ^ 16 + imm.toNat, [])
  | .liExt d imm => some (0x19, d.val * 2 ^ 16, [imm.toNat % 2 ^ 32, imm.toNat / 2 ^ 32])
  | .bfx d a pos len1 s => some (0x1A, rr d a 0,
      [pos.val + len1.val * 2 ^ 6 + flagCode s * 2 ^ 12])
  | .bfi d a pos len1 => some (0x1B, rr d a 0, [pos.val + len1.val * 2 ^ 6])
  | .stag d a tag => some (0x1C, rr d a (tag.val), [])
  | .br a b c off => some (0x20, a.val * 2 ^ 10 + b.val * 2 ^ 4 + c.code, [off.toNat])
  | .bri a imm c off => some (0x21, imm.toNat * 2 ^ 16 + a.val * 2 ^ 10 + c.code, [off.toNat])
  | .j off => some (0x22, 0, [off.toNat])
  | .jal d off => some (0x23, d.val * 2 ^ 16, [off.toNat])
  | .jr a => some (0x24, a.val * 2 ^ 10, [])
  | .btok t set off => some (0x25, t.val * 2 ^ 16 + set.val, [off.toNat])
  | .bempty set off => some (0x26, set.toNat * 2 ^ 14, [off.toNat])
  | .chk a off => some (0x27, a.val * 2 ^ 10, [off.toNat])
  | .loop lv c n1 => some (0x28, lv.val * 2 ^ 19 + c.val * 2 ^ 13 + n1.val * 2 ^ 7, [])
  | .lstr lv g x stride => some (0x29, lv.val * 2 ^ 19 + g.val * 2 ^ 17 + x.val * 2 ^ 11, [stride.toNat])
  | .lbrk lv a u => some (0x2A, lv.val * 2 ^ 19 + a.val * 2 ^ 13 + flagCode u * 2 ^ 12, [])
  | .wait l t n => some (0x2B, flagCode t * 2 ^ 21 + flagCode l * 2 ^ 20 + n.val, [])
  | .csrr d csr => some (0x2C, d.val * 2 ^ 16 + csr.val, [])
  | .csrw d a csr => some (0x2D, rr d a (csr.val), [])
  | .csrs d a csr => some (0x2E, rr d a (csr.val), [])
  | .csrc d a csr => some (0x2F, rr d a (csr.val), [])
  | .trap n => some (0x30, n.val, [])
  | .eret => some (0x31, 0, [])
  | .halt => some (0x32, 0, [])
  | .fset r c f => some (0x33, flagCode r * 2 ^ 21 + c.val * 2 ^ 15 + f.val, [])
  | .fwait c f => some (0x34, flagCode c * 2 ^ 5 + f.val, [])
  | .fclr f => some (0x35, f.val, [])
  | .yield => some (0x36, 0, [])
  | .tend => some (0x37, 0, [])
  | _ => none

/-- Opcode, operand field [21:0] and extension words of an V-map operation. -/
def encodeV : Instr → Option (Nat × Nat × List Nat)
  | .vadd d a b k => some (0x00, rrr d a b (k.code), [])
  | .vsub d a b k => some (0x01, rrr d a b (k.code), [])
  | .vmul d a b k => some (0x02, rrr d a b (k.code), [])
  | .vmulh d a b k => some (0x03, rrr d a b (k.code), [])
  | .vmin d a b u => some (0x04, rrr d a b (flagCode u), [])
  | .vmax d a b u => some (0x05, rrr d a b (flagCode u), [])
  | .vabs d a s => some (0x06, rr d a (flagCode s), [])
  | .vand d a b => some (0x07, rrr d a b 0, [])
  | .vor d a b => some (0x08, rrr d a b 0, [])
  | .vxor d a b => some (0x09, rrr d a b 0, [])
  | .vnot d a => some (0x0A, rr d a 0, [])
  | .vshl d a b => some (0x0B, rrr d a b 0, [])
  | .vshr d a b => some (0x0C, rrr d a b 0, [])
  | .vsra d a b => some (0x0D, rrr d a b 0, [])
  | .vcmp c kd a b => some (0x0E, c.code * 2 ^ 19 + rrr kd a b 0, [])
  | .vsel d a b k => some (0x0F, rrr d a b (k.val), [])
  | .vfadd d a b r f => some (0x10, rrr d a b (r.code * 2 ^ 2 + f.code), [])
  | .vfsub d a b r f => some (0x11, rrr d a b (r.code * 2 ^ 2 + f.code), [])
  | .vfmul d a b r f => some (0x12, rrr d a b (r.code * 2 ^ 2 + f.code), [])
  | .vfma d a b r f => some (0x13, rrr d a b (r.code * 2 ^ 2 + f.code), [])
  | .vfmin d a b f => some (0x14, rrr d a b (f.code), [])
  | .vfmax d a b f => some (0x15, rrr d a b (f.code), [])
  | .vfcmp c kd a b f =>
      some (0x16, c.code * 2 ^ 19 + rrr kd a b (f.code), [])
  | .vcvt d a s t r => some (0x17, rr d a (s.code * 2 ^ 7 + t.code * 2 ^ 4 + r.code), [])
  | .vpack d a i n int =>
      some (0x18, rrr d a i (n.val * 2 ^ 2 + flagCode int), [])
  | .vunpack d a i n => some (0x19, rrr d a i (n.val * 2 ^ 2), [])
  | .vred d a f => some (0x1A, rr d a (f.code), [])
  | .vscan d a f => some (0x1B, rr d a (f.code), [])
  | .vperm d a b => some (0x1C, rrr d a b 0, [])
  | .vxc d a n k => some (0x1D, rr d a (n.val * 2 ^ 7 + k.code), [])
  | .vbcast d a hi => some (0x1E, rr d a (flagCode hi), [])
  | .vext d a l s => some (0x1F, rrr d a l (flagCode s), [])
  | .viota d g => some (0x20, d.val * 2 ^ 16 + flagCode g, [])
  | .vli d imm => some (0x21, d.val * 2 ^ 16 + imm.toNat, [])
  | .vliExt d imm => some (0x21, d.val * 2 ^ 16, [imm.toNat])
  | .mpush k => some (0x22, k.val * 2 ^ 10, [])
  | .minv => some (0x23, 0, [])
  | .mpop => some (0x24, 0, [])
  | .kmov kd ka kb f => some (0x25, rrr kd ka kb (f.code), [])
  | .vcm g m => some (0x26, g.val * 2 ^ 20 + m.toNat * 2 ^ 12, [])
  | .vlgmul d a b => some (0x27, rrr d a b 0, [])
  | .vlgsum d a b => some (0x28, rrr d a b 0, [])
  | .vdot4 d a b s k =>
      some (0x29, rrr d a b (flagCode s * 2 ^ 2 + k.code), [])
  | .vmov d a => some (0x2A, rr d a 0, [])
  | _ => none

/-- Opcode, operand field [21:0] and extension words of an F-map operation. -/
def encodeF : Instr → Option (Nat × Nat × List Nat)
  | .fexp2 d a => some (0x00, rr d a 0, [])
  | .flog2 d a => some (0x01, rr d a 0, [])
  | .frcp d a => some (0x02, rr d a 0, [])
  | .frsqrt d a => some (0x03, rr d a 0, [])
  | .fsqrt d a => some (0x04, rr d a 0, [])
  | .ftanh d a => some (0x05, rr d a 0, [])
  | .fsigm d a => some (0x06, rr d a 0, [])
  | .fsin d a => some (0x07, rr d a 0, [])
  | .fcos d a => some (0x08, rr d a 0, [])
  | .flut d a b => some (0x09, rrr d a b 0, [])
  | .fcm m => some (0x0A, m.toNat * 2 ^ 12, [])
  | _ => none

/-- Opcode, operand field [21:0] and extension words of an M-map operation. -/
def encodeM : Instr → Option (Nat × Nat × List Nat)
  | .ld d a s => some (0x00, rr d a (s.code * 2 ^ 7), [])
  | .ldExt d a s o => some (0x00, rr d a (s.code * 2 ^ 7), [o.toNat])
  | .st d a s => some (0x01, rr d a (s.code * 2 ^ 7), [])
  | .stExt d a s o => some (0x01, rr d a (s.code * 2 ^ 7), [o.toNat])
  | .vld d a => some (0x02, rr d a 0, [])
  | .vldExt d a o none => some (0x02, rr d a 0, [o.toNat])
  | .vldExt d a o (some t) => some (0x02, rr d a 0, [o.toNat, t.toNat])
  | .vst d a => some (0x03, rr d a 0, [])
  | .vstExt d a o none => some (0x03, rr d a 0, [o.toNat])
  | .vstExt d a o (some t) => some (0x03, rr d a 0, [o.toNat, t.toNat])
  | .vldx d a b k => some (0x04, rrr d a b (k.val * 2 ^ 2), [])
  | .vldxExt d a b k o =>
      some (0x04, rrr d a b (k.val * 2 ^ 2), [o.toNat])
  | .vstx d a b k => some (0x05, rrr d a b (k.val * 2 ^ 2), [])
  | .vstxExt d a b k o =>
      some (0x05, rrr d a b (k.val * 2 ^ 2), [o.toNat])
  | .lds d a s => some (0x06, rr d a (s.code * 2 ^ 7), [])
  | .ldsExt d a s o => some (0x06, rr d a (s.code * 2 ^ 7), [o.toNat])
  | .vlds d a => some (0x07, rr d a 0, [])
  | .vldsExt d a o none => some (0x07, rr d a 0, [o.toNat])
  | .vldsExt d a o (some t) => some (0x07, rr d a 0, [o.toNat, t.toNat])
  | .ldAcq d a s p => some (0x08, rr d a (s.code * 2 ^ 7 + p.code * 2 ^ 4), [])
  | .ldAcqExt d a s p o =>
      some (0x08, rr d a (s.code * 2 ^ 7 + p.code * 2 ^ 4), [o.toNat])
  | .stRel d a s p => some (0x09, rr d a (s.code * 2 ^ 7 + p.code * 2 ^ 4), [])
  | .stRelExt d a s p o =>
      some (0x09, rr d a (s.code * 2 ^ 7 + p.code * 2 ^ 4), [o.toNat])
  | .amo d a b f z =>
      some (0x0A, rrr d a b (f.code * 2 + flagCode z), [])
  | .cas d a b c z => some (0x0B, rrr d a b (flagCode z), [c.val])
  | .vamo d a b f => some (0x0C, rrr d a b (f.code * 2), [])
  | .ldg d x s h e =>
      some (0x0D, rrr d x s (h.val * 2 + flagCode e), [])
  | .vldg d x s h => some (0x0E, rrr d x s (h.val * 2), [])
  | .vldv d a v => some (0x0F, rrr d a v 0, [])
  | .vldvExt d a v o => some (0x0F, rrr d a v 0, [o.toNat])
  | .pref a x => some (0x10, a.val * 2 ^ 10 + flagCode x * 2 ^ 8, [])
  | .prefExt a x o => some (0x10, a.val * 2 ^ 10 + flagCode x * 2 ^ 8, [o.toNat])
  | .mcm g m => some (0x11, g.val * 2 ^ 20 + m.toNat * 2 ^ 12, [])
  | _ => none

/-- Opcode, operand field [21:0] and extension words of an X-map operation. -/
def encodeX : Instr → Option (Nat × Nat × List Nat)
  | .mma a b acc sh sp ta tb tacc tres pl res md tw =>
      some (0x00, rrr a b acc (sh.val * 2 ^ 2 + flagCode sp * 2),
        [ta.val * 2 ^ 28 + tb.val * 2 ^ 24 + tacc.val * 2 ^ 20 + tres.val * 2 ^ 16 + pl.val * 2 ^ 12 +
          res.val * 2 ^ 6 + md.val, tw.encode])
  | .mmz d tw => some (0x01, d.val * 2 ^ 10, [tw.encode])
  | .mps delay sides => some (0x02, delay.val * 2 ^ 6 + sides.code, [])
  | .mscl g a n => some (0x03, g.val * 2 ^ 20 + a.val * 2 ^ 14 + n.val * 2 ^ 8, [])
  | .mcvt d a s t tw => some (0x04, rr d a (s.val * 2 ^ 6 + t.val * 2 ^ 2), [tw.encode])
  | .mtr d a sh sz tw => some (0x05, rr d a (sh.val * 2 ^ 2 + sz.val), [tw.encode])
  | .macc d a ty tw => some (0x06, rr d a (ty.val * 2 ^ 6), [tw.encode])
  | _ => none

/-- Opcode, operand field [21:0] and extension words of an A-map operation. -/
def encodeA : Instr → Option (Nat × Nat × List Nat)
  | .cpy d s c tw => some (0x00, rrr d s c 0, [tw.encode])
  | .cpyB d s c tw => some (0x00, rrr d s c (1), [tw.encode])
  | .cpym d s c n m b tw =>
      some (0x01, rrr d s c (n.val),
        [m.val * 2 ^ 26 + b.val * 2 ^ 21, tw.encode])
  | .cpypl d s c q none tw => some (0x02, rrr d s c (q.val), [tw.encode])
  | .cpypl d s c q (some r) tw =>
      some (0x02, rrr d s c (q.val), [r.val * 2 ^ 26, tw.encode])
  | .cpysp d s c tw => some (0x03, rrr d s c 0, [tw.encode])
  | .cpyfill d p c z tw => some (0x04, rrr d p c (z.code), [tw.encode])
  | .gath p r i n z tw =>
      some (0x05, rrr p r i (flagCode z), [n.val * 2 ^ 26, tw.encode])
  | .scat p r i n z tw =>
      some (0x06, rrr p r i (flagCode z), [n.val * 2 ^ 26, tw.encode])
  | .bankop d a n op tw => some (0x07, rrr d a n (op.code), [tw.encode])
  | .lfence a n tw => some (0x08, a.val * 2 ^ 10 + n.val * 2 ^ 4, [tw.encode])
  | .fence p tw => some (0x09, p.code, [tw.encode])
  | .nflush a tw => some (0x0A, a.val * 2 ^ 10, [tw.encode])
  | .rfence a all tw => some (0x0B, a.val * 2 ^ 10 + flagCode all, [tw.encode])
  | .slotrel n c tw => some (0x0C, n.val * 2 ^ 10 + c.val, [tw.encode])
  | .bar v r c n b tw =>
      some (0x0D, v.code * 2 ^ 19 + flagCode r * 2 ^ 18 + c.val * 2 ^ 12 + n.val * 2 ^ 6 + b.val, [tw.encode])
  | .barw p b => some (0x0E, p.val * 2 ^ 10 + b.val, [])
  | .vpub a v tw => some (0x0F, a.val * 2 ^ 10 + v.val * 2 ^ 4, [tw.encode])
  | .vwait a v => some (0x10, a.val * 2 ^ 10 + v.val * 2 ^ 4, [])
  | .gstep h n tw => some (0x11, h.val * 2 ^ 19 + n.val * 2 ^ 13, [tw.encode])
  | .grel h s tw => some (0x12, h.val * 2 ^ 19 + s.val * 2 ^ 13, [tw.encode])
  | .gbind h a p rd tw =>
      some (0x13, h.val * 2 ^ 19 + a.val * 2 ^ 13 + p.val * 2 ^ 7 + flagCode rd * 2 ^ 6, [tw.encode])
  | .send e s c b tw =>
      some (0x14, rrr e s c (flagCode b), [tw.encode])
  | .rpost m k r c v tw =>
      some (0x15, rrr m k r 0, [c.val * 2 ^ 26 + v.val * 2 ^ 20, tw.encode])
  | .rcancel d n tw => some (0x16, d.val * 2 ^ 16 + n.val * 2 ^ 4, [tw.encode])
  | .rprobe d m k tw => some (0x17, rrr d m k 0, [tw.encode])
  | .ringpop d n w tw => some (0x18, d.val * 2 ^ 16 + n.val * 2 ^ 7 + flagCode w * 2 ^ 6, [tw.encode])
  | .launch d a w tw => some (0x19, rr d a (flagCode w * 2 ^ 9), [tw.encode])
  | .chunk d tw => some (0x1A, d.val * 2 ^ 16, [tw.encode])
  | .twait d t => some (0x1B, rr d t 0, [])
  | .sqadm m d a tw => some (0x1C, m.val * 2 ^ 19 + d.val * 2 ^ 13 + a.val * 2 ^ 7, [tw.encode])
  | .sqtree m d a b tw => some (0x1D, m.val * 2 ^ 19 + d.val * 2 ^ 13 + a.val * 2 ^ 7 + b.val * 2, [tw.encode])
  | .sqvrd m a b tw => some (0x1E, m.val * 2 ^ 19 + a.val * 2 ^ 7 + b.val * 2, [tw.encode])
  | .sqacc m d a tw => some (0x1F, m.val * 2 ^ 19 + d.val * 2 ^ 13 + a.val * 2 ^ 7, [tw.encode])
  | .sqret m d a tw => some (0x20, m.val * 2 ^ 19 + d.val * 2 ^ 13 + a.val * 2 ^ 7, [tw.encode])
  | .sqpre m d a rel tw =>
      some (0x21, m.val * 2 ^ 19 + d.val * 2 ^ 13 + a.val * 2 ^ 7 + flagCode rel, [tw.encode])
  | .sqres m d a tw => some (0x22, m.val * 2 ^ 19 + d.val * 2 ^ 13 + a.val * 2 ^ 7, [tw.encode])
  | .sqbat m d a b tw => some (0x23, m.val * 2 ^ 19 + d.val * 2 ^ 13 + a.val * 2 ^ 7 + b.val * 2, [tw.encode])
  | .sqkvAddr m d a b tw =>
      some (0x24, m.val * 2 ^ 19 + d.val * 2 ^ 13 + a.val * 2 ^ 7 + b.val * 2, [tw.encode])
  | .sqkvAdv m d a b tw =>
      some (0x24, m.val * 2 ^ 19 + d.val * 2 ^ 13 + a.val * 2 ^ 7 + b.val * 2 + 1, [tw.encode])
  | .sealCap a b tw => some (0x25, a.val * 2 ^ 10 + b.val * 2 ^ 4, [tw.encode])
  | .wake a b tw => some (0x26, a.val * 2 ^ 10 + b.val * 2 ^ 4, [tw.encode])
  | .slotld a b tw => some (0x27, a.val * 2 ^ 10 + b.val * 2 ^ 4, [tw.encode])
  | .grpset a b tw => some (0x28, a.val * 2 ^ 10 + b.val * 2 ^ 4, [tw.encode])
  | .tlbinv a b c tw => some (0x29, rrr a b c 0, [tw.encode])
  | _ => none

/-- Map, opcode, operand field and extension words of a slot operation; `none` for an event. -/
def Instr.fields (i : Instr) : Option (OpMap × Nat × Nat × List Nat) :=
  match encodeS i, encodeV i, encodeF i, encodeM i, encodeX i, encodeA i with
  | some t, _, _, _, _, _ => some (.s, t)
  | none, some t, _, _, _, _ => some (.v, t)
  | none, none, some t, _, _, _ => some (.f, t)
  | none, none, none, some t, _, _ => some (.m, t)
  | none, none, none, none, some t, _ => some (.x, t)
  | none, none, none, none, none, t => t.map fun u => (.a, u)

/-- The slot word with qualifier `q` (R38): LN counts the extension words. -/
def slotWord (q : Qual) (op field : Nat) (ext : List Nat) : Nat :=
  ext.length * 2 ^ 30 + q.code * 2 ^ 28 + op * 2 ^ 22 + field

/-- The words of a slot operation: slot word, then extension words (R38, R40). -/
def encode (q : Qual) (i : Instr) : List Nat :=
  match i.fields with
  | some (_, op, field, ext) => slotWord q op field ext :: ext
  | none => []

/-- The map of a slot operation; `none` for an event. -/
def Instr.opMap (i : Instr) : Option OpMap := i.fields.map (·.1)

end Sys2Proof
end

