-- ==== Sys2Proof/Machine/State.lean ====
section
/-!
DEFINITION. The state of one NQM8-512 module as plain data, the reasons a step can stop, and the
state after reset. Sparse arrays are lists of (index, value) pairs in one canonical form: indices
strictly rising, no value equal to the array's default (`KMap`), so equal contents are equal data.
-/
namespace Sys2Proof.Machine

/-- A sparse array in canonical form; the default belongs to the accessor (Machine/Ops.lean). -/
abbrev KMap (α : Type) := List (Nat × α)

/-- Byte memories: the canonical list of `Host.Cell`, every unlisted address reading as 0 (log 2). -/
abbrev Memory := List Host.Cell

/-- Why the machine stops. Each is safe: the model stops where the spec gives no access. -/
inductive Fault
  /-- Raised by a context 0 access to a local physical address that is neither DRAM, nor a scratch
  window, nor control space (R188, R190, R297: no such address). Safe. -/
  | noSuchAddress (addr : Nat)
  deriving DecidableEq, Repr

/-- Why the model has no meaning for a step. Each is safe: nothing is claimed of what follows. -/
inductive Refusal
  /-- An instruction whose meaning is not written. Raised by Dispatch only. Safe. -/
  | notModelled (mnemonic : String)
  deriving DecidableEq, Repr

/-- The cause codes of R145. -/
inductive Cause
  | illegalBundle | illegalSlotOp | headerLimit | tokenBusy | tileCombo | dfConsumed | addressSpace
  | bufferRight | translation | protection | alignment | stepStale | stepOverrun | version | capability
  | queueExhausted | launchPoolExhausted | watchdog | uncorrectable | software | privilege | remote
  | sequence | record | loopControl
  deriving DecidableEq, Repr

/-- A scalar register with its deferred-fault bit (R93, R100). -/
structure SReg where
  val : W64
  df : Bool
  deriving DecidableEq, Repr

/-- What a held write changes (R325 kinds 1 to 6). -/
inductive WriteTo
  | scalar (r : Nat) (val : W64) (df : Bool)
  | vector (c r : Nat) (lanes : List (Nat × W32)) (df : Bool)
  | mask (c r : Nat) (val : BitVec 16)
  | mstack (c : Nat) (depth : Nat) (entries : KMap (BitVec 16))
  | csr (n : Nat) (val : W64)
  | flags (bits : W64)
  deriving DecidableEq, Repr

/-- A write held under R97 to R99: class and bundle of the producer, exposed latency, the first sync bundle after the
producer, once one has dispatched, and the token of the engine operation that made it, when it has one (R307). -/
structure HeldWrite where
  cls : Class
  n : Nat
  lat : Nat
  sync : Option Nat
  tok : Option Nat
  wr : WriteTo
  deriving DecidableEq, Repr

/-- A loop level (R93). -/
structure LoopLevel where
  active : Bool
  count : W64
  iter : W64
  start : Nat
  len : Nat
  deriving DecidableEq, Repr

/-- A stride entry (R108). -/
structure Stride where
  reg : Nat
  stride : W32
  deriving DecidableEq, Repr

/-- Token states (15_counters.md, state card). -/
inductive TokState | done | faulted | cancelled | pending
  deriving DecidableEq, Repr

/-- A token's current generation (R304); `cycle` is when it left pending (R174 reads it). -/
structure Token where
  state : TokState
  cause : Nat
  gen : Nat
  bytes : Nat
  t : Nat
  cycle : Nat
  deriving DecidableEq, Repr

/-- A sync flag and the largest time carried by the sets it has seen (R310). -/
structure Flag where
  set : Bool
  time : Nat
  deriving DecidableEq, Repr

/-- A phase barrier (R314). -/
structure Barrier where
  c : Nat
  pending : Nat
  expected : Nat
  arrived : Nat
  phase : Nat
  tmax : Nat
  doneT : Nat
  deriving DecidableEq, Repr

/-- The three typed buffers (R150). -/
inductive Buf | w | a | r
  deriving DecidableEq, Repr

/-- Where a byte stands: a typed buffer of a core, or a local physical address. -/
inductive Place
  | buf (core : Nat) (b : Buf) (off : Nat)
  | phys (addr : Nat)
  | far (pkg addr : Nat)
  deriving DecidableEq, Repr

/-- The right that an access needs (R297). -/
inductive Access | read | write | atomic
  deriving DecidableEq, Repr

/-- The space that an address names (R153). -/
inductive Space
  | global (va : Nat)
  | own (b : Buf) (off : Nat)
  | remote (b : Buf) (n off : Nat)
  | scratch (off : Nat)
  deriving DecidableEq, Repr

/-- One piece of an access: its space, its place and whether a store to it is replicated. -/
structure Piece where
  sp : Space
  place : Place
  g : Bool
  deriving DecidableEq, Repr

/-- The read-modify-write that a piece makes (R165). -/
inductive Rmw
  | amo (f : AmoOp) (operand : W64)
  | cas (expected new : W64)
  deriving DecidableEq, Repr

/-- What a piece of an access does: a load, through the load buffer or at the home only (R202, R318), a store of bytes, or a
read-modify-write. -/
inductive PieceOp
  | load (home : Bool)
  | store (bs : List Byte)
  | rmw (m : Rmw)
  deriving DecidableEq, Repr

/-- A piece of an access that is to be performed: its part, its length, where, and what. -/
structure Todo where
  ix : Nat
  n : Nat
  piece : Piece
  op : PieceOp
  deriving DecidableEq, Repr

/-- A word that the latest stores changed, with the bytes it held before and the bytes stored to, bit i for
byte i, bit 4 for an atomic and bit 5 for an access within one aligned 8-byte unit (R157, R159, R170). -/
structure OldWord where
  place : Place
  old : List Byte
  mask : Nat
  deriving DecidableEq, Repr

/-- One piece of a memory-slot access: its address, where it goes, whether a store there is replicated (R295), its length (0 for a piece of a
speculative load that has been discarded, R164, R369), whether it has been performed, and the bytes that it read or stores. -/
structure Part where
  addr : W64
  place : Place
  g : Bool
  n : Nat
  done : Bool
  data : List Byte
  deriving DecidableEq, Repr

/-- What the parts of a load become: a scalar of `n` bytes, or the lanes of a vector register, cluster by cluster
with its active lanes and DF bit. `zeros` are the clusters that a speculative load gives zeros and DF 1 (R164);
`fixed` is a result that no part decides. -/
inductive LoadDest
  | none
  | fixed (ws : List WriteTo)
  | scalar (d : Nat) (sx : Bool)
  | vector (vd : Nat) (lanes : List (Nat × List Nat × Bool)) (zeros : List (Nat × List Nat))
  deriving DecidableEq, Repr

/-- A memory-slot access that a counter counts (R301): its counters, its parts, its destination, the version it
expects in its first part (R318), whether it is speculative (R164), the acquire it makes and whether that empties
the load buffer (R206), the cause taken at the first wait that covers it (R303), the time of its write, the grid handle it reads through, and for a release (R206) its scope and the accesses it still waits for. `no`, `ldNo`
and `stNo` number the accesses in the order of bundles and slots. -/
structure Outstanding where
  id : Nat
  no : Nat
  ldNo : Option Nat
  stNo : Option Nat
  bundle : Nat
  slot : Slot
  ldPend : Bool
  stPend : Bool
  parts : List Part
  dest : LoadDest
  ver : Option W64
  spec : Bool
  acq : Option Bool
  trap : Option (Cause × W64)
  time : Nat
  handle : Option Nat
  scope : Option Scope
  rel : List Nat
  deriving DecidableEq, Repr

/-- A consumed token reference, with the generation's end once it has left pending (R304, R306). -/
structure TokRef where
  tok : Nat
  gen : Nat
  st : Option Token
  deriving DecidableEq, Repr

/-- An engine-queue entry (R223): the operation, the register values read at dispatch in the
operation's own order, the shape records kept for its life (R284), its token word resolved to
generations, the stores it may not see (R159), and the accesses its start waits for. -/
structure EngEntry where
  op : Instr
  vals : List W64
  recs : List (W64 × List Byte)
  slot : Slot
  bundle : Nat
  prod : Nat
  gen : Nat
  consumed : List TokRef
  cr : Bool
  ring : Nat
  stale : List OldWord
  time : Nat
  serial : Nat
  entered : Nat
  waits : List Nat
  deriving DecidableEq, Repr

/-- What an operation leaves in its token and registers (R257, R307). -/
structure Outcome where
  st : TokState
  cause : Nat
  bytes : Nat
  t : Nat
  tag : Nat
  regs : List (Nat × W64)
  deriving DecidableEq, Repr

/-- The counts and sizes of a task-image header (R59). -/
structure Header where
  text : Nat
  data : Nat
  sregs : Nat
  vregs : Nat
  tokens : Nat
  barriers : Nat
  flags : Nat
  grids : Nat
  wbuf : Nat
  abuf : Nat
  rbuf : Nat
  routes : Nat
  replay : Bool
  deriving DecidableEq, Repr

/-- A launch descriptor as read at enqueue (R236). -/
structure LaunchDesc where
  image : Nat
  entry : Nat
  x : Nat
  y : Nat
  z : Nat
  dist : Nat
  slotFlag : Bool
  handlerValid : Bool
  minchunk : Nat
  prio : Nat
  gang : List Nat
  flagWord : W32
  handler : Nat
  preds : List Nat
  doneWord : Nat
  hdr : Header
  deriving DecidableEq, Repr

/-- How far a started engine operation has come. -/
inductive Stage
  | waiting                                     -- in a unit: Parser, front end, network, manager
  | copying (total : Nat) (done : List Nat)     -- 4 KiB chunks (R198)
  | layer (col : Nat) (idx : List Nat) (n time : Nat)  -- in a column's memory-layer engines: indices, units done (R193, R194)
  | pulled (n : Nat) (ahead : List Byte)        -- a rendezvous payload that another package pulls: bytes so far, and those read with them (R248, R249)
  | pooling (d : LaunchDesc) (cancelled : Bool) -- a checked launch waits for a pool entry (R240)
  | finished (o : Outcome) (recorded : Bool)    -- outcome fixed; record still to be written when asked for
  deriving DecidableEq, Repr

/-- An engine operation that has started (R224). One whose task has been ended since keeps its context, for its record, and reaches no token and
no register any more (R26, R323). -/
structure Started where
  id : Nat
  e : EngEntry
  stage : Stage
  orphan : Option Nat
  deriving DecidableEq, Repr

/-- A block that the matrix engine has started (R174): its operand bytes and its scales (R184). -/
structure Block where
  start : Nat
  dur : Nat
  e : EngEntry
  idx : Nat
  last : Bool
  a : List Byte
  b : List Byte
  md : List Byte
  ea : Option (List Byte)
  eb : Option (List Byte)
  deriving DecidableEq, Repr

/-- The matrix engine of a core (R174): queue, cycle at which the next operation can reach the head,
cycle at which the engine is free, started blocks, staged chunks keyed by (operation × 4 + operand) × 256 + chunk,
arrival cycle of each operation's last chunk, the operation whose fetch faulted with its cause, and the operation whose interrupted
fetch mres records (R180, R181). -/
structure Matrix where
  queue : List EngEntry
  headAt : Nat
  freeAt : Nat
  blocks : List Block
  staging : KMap (List Byte)
  arrivedAt : KMap Nat
  faulted : Option (Nat × Nat)
  held : Option Nat
  deriving DecidableEq, Repr

/-- A line of a scale cache (R182) or of the global load buffer (R202). -/
structure CacheLine where
  key : Nat
  data : List Byte
  wts : Nat
  rts : Nat
  deriving DecidableEq, Repr

/-- A cached leaf translation (R298). -/
structure Leaf where
  ctx : Nat
  va : Nat
  size : Nat
  entry : W64
  deriving DecidableEq, Repr

/-- One entry of a polder table (R288). -/
structure Polder where
  scratch : Bool
  pkg : Nat
  unit : Nat
  base : Nat
  fbase0 : Nat
  fbase1 : Nat
  deriving DecidableEq, Repr

/-- A grid descriptor as read by `gbind` (R209, R287). -/
structure Grid where
  rank : Nat
  esize : Nat
  faultMode : Bool
  berm : Nat
  sides : List Nat
  limit : Nat
  extents : List Nat
  counts : List Nat
  radii : List Nat
  dikes : List Nat
  const : W64
  cuts : List (List Nat)
  polders : List Polder
  deriving DecidableEq, Repr

/-- A grid handle (R213); `last` is the step of the last `gstep` dispatched since its `gbind` (R215). -/
structure Handle where
  valid : Bool
  pending : Bool
  reader : Bool
  desc : Nat
  polder : Nat
  grid : Option Grid
  last : Option Nat
  deriving DecidableEq, Repr

/-- The run state of a core. -/
inductive Run
  | free                         -- in no gang
  | running
  | ending                       -- in the final wait of a tend (R242)
  | sleeping                     -- a firmware core after halt (R148)
  | trapped                      -- suspended by a trap (R144, R323)
  | halted                       -- halted for a pre-emption, not yet saved (R323)
  | saved                        -- pre-empted and saved (R328)
  | off                          -- not started (R339), absent or stopped (R26)
  deriving DecidableEq, Repr

/-- Why a bundle is held undispatched (R95, R107, R206, R220, R223, R301, R302, R310, R330). `slip` is a bundle that must follow what
a blocked class still has to dispatch; `twait`, `barw` and `vwait` say what blocks a class that lags. `staleBy` is a stale grid read
in fault mode, with its slot, its step and its LIMIT (R220). -/
inductive Hold
  | staleBy (slot step limit : Nat)
  | none | wait | fwait | twait | barw | vwait | stale | handlePending | counter | queueFull | loadBuffer
  | acquire | stride | final | slip | moving
  deriving DecidableEq, Repr

/-- Whether a bundle is held by a stale grid read (R220). -/
def Hold.isStale : Hold → Bool
  | .stale | .staleBy .. => true
  | _ => false

/-- The trap a slot operation has raised (R144). -/
structure Trap where
  cause : Cause
  tval : W64
  slot : Nat
  async : Bool
  deriving DecidableEq, Repr

/-- What remains to be done once every slot of the bundle has taken effect. -/
inductive Post | none | software (n : Nat) | eret | halt | tend | yield | breakLoop
  deriving DecidableEq, Repr

/-- The slot operation being executed: core, slot, slot word, the operation, bundle number, header address, length
and loop end of its bundle, tokens, status and logical clock as the bundle found them, words written by the other
memory slot of the bundle, whether a wide access leaves pieces for later (R166, R170), whether an operation of the M, X or A class stays behind the
other classes (R95), whether it has stayed behind and is tried again, flags set with
the value before and the time of the set, the time at which it has filled records (R203, R285), and what the slots so far ask of the bundle's
close. -/
structure Cursor where
  core : Nat
  slot : Slot
  word : W32
  op : Instr
  bn : Nat
  pc : Nat
  len : Nat
  pad : Nat
  le : Nat
  tok0 : KMap Token
  status0 : W64
  ltime0 : Nat
  mw : List OldWord
  split : Bool
  lag : Bool
  whole : Bool
  sets : List (Nat × Flag × Nat)
  fill : Nat
  target : Option Nat
  post : Post
  trapped : Option Trap
  held : Hold
  deriving DecidableEq, Repr

/-- An access of a memory slot whose pieces are not all performed: the cursor of its slot operation, the access, and the pieces
that are left. -/
structure MemWork where
  cur : Cursor
  o : Outstanding
  todo : List Todo
  deriving DecidableEq, Repr

/-- A dispatched operation that its class has not performed, because the class is blocked (R95): an entry for a full engine queue
(R223), a wait of the A slot (R308, R315, R317) with the operands it read, an engine operation with the generation that it makes and its
serial number, whose token or whose records are still to come (R285, R304, R305), or an access of the M class with what it will write. The last two
read their operands and are checked when they dispatch (R155, R202, R206, R220, R301). -/
inductive Slipped
  | enter (q : Nat) (e : EngEntry)
  | twait (d : Nat) (r : TokRef)
  | barw (b phase : Nat)
  | vwait (p : Place) (v : Nat)
  | defer (op : Instr) (prod gen serial : Nat)
  | access (op : Instr) (dest : LoadDest)
  deriving DecidableEq, Repr

/-- A slipped operation with its class, the cursor it was dispatched with, and what has blocked it since. -/
structure Slip where
  cls : Class
  cur : Cursor
  op : Slipped
  why : Hold := .none
  deriving DecidableEq, Repr

/-- A word of an own typed buffer as it stood before an engine operation of the core wrote it; `seen` is the bundle in which the
operation's token has been observed, so that the next sync bundle ends the choice of R159. `matrix` marks an X-slot operation, `serial` names the operation, and `bar` is the
barrier, with its phase, that has counted the bytes (R200, R315). -/
structure OldEng where
  matrix : Bool
  serial : Nat
  tok : Nat
  gen : Nat
  seen : Option Nat
  bar : Option (Nat × Nat)
  word : OldWord
  deriving DecidableEq, Repr

/-- A core: user core (index 0 to 2,047), firmware core (index 0xF000 + column), or the saved task of a user core (its
index plus 65,536 × launch identifier; log 20). `journal` lists the coordinates taken and not known to be completed, with
the token generations pending at the `tend` once that has dispatched (R332). -/
structure Core where
  run : Run
  hold : Hold
  sregs : KMap SReg
  pc : Nat
  bn : Nat
  lastSync : Nat
  writes : List HeldWrite
  loops : KMap LoopLevel
  strides : KMap Stride
  vlanes : KMap W32
  vdf : KMap Bool
  kregs : KMap (BitVec 16)
  mdepth : KMap Nat
  mstack : KMap (BitVec 16)
  csr : KMap W64
  imem : KMap W32
  wbuf : Memory
  abuf : Memory
  rbuf : Memory
  scale0 : List CacheLine
  scale1 : List CacheLine
  mx : Matrix
  queues : KMap (List EngEntry)
  extensions : KMap Nat
  started : List Started
  serial : Nat
  outNext : Nat
  ldNext : Nat
  stNext : Nat
  outs : List Outstanding
  due : List (Nat × W32)
  closing : Option (Nat × Nat)
  tokens : KMap Token
  flags : KMap Flag
  freeSlots : KMap Nat
  barriers : KMap Barrier
  range : Nat × Nat
  wdogCount : Nat
  wdogSeen : Nat
  holdCount : Nat
  idle : Nat
  handles : KMap Handle
  loadBuf : List CacheLine
  records : List (W64 × List Byte)
  utlb : List Leaf
  recent : List OldWord
  hist : List OldEng
  slips : List Slip
  late : List MemWork
  fetched : Option Bundle
  ending : Option Bundle         -- the bundle at the pc with the operation of its slot S0 alone, which waits for what its other slots have left behind
  lid : Nat
  rank : Nat
  lastCtx : Option Nat
  launches : List (Nat × Option Nat)   -- the task's `launch` operations whose tokens have left pending, in the order of issue (R237)
  taskSerial : Nat               -- the number of the task's first engine operation
  journal : List (Nat × Option (List (Nat × Nat)))
  still : Nat
  isSaved : Bool
  tdisp : Option Nat
  haltCycle : Nat                -- the cycle on which it was last suspended (R327, R328)
  finalWait : Bool               -- it is in the final wait of its `tend`, or is to make that wait again (R242, R320)
  starts : Bool                  -- its next bundle dispatches on the cycle `nextAt`, released there (R18, R29, R327)
  busyTill : Nat                 -- the first cycle after its latest bundle and padding (R36, R225)
  nextAt : Nat                   -- the first cycle on which its next bundle may dispatch (R36, R95)
  perf : KMap Nat
  perfSel : KMap Nat
  deriving DecidableEq, Repr

/-- A line held in the near tier (R189). -/
structure NearLine where
  dirty : Bool
  data : List Byte
  deriving DecidableEq, Repr

/-- The owner entry of a near-tier way (R187); `origin` is the column a migrated way serves (R330). -/
structure Owner where
  scratch : Bool
  ctx : Nat
  origin : Nat
  deriving DecidableEq, Repr

/-- An item in a source-destination queue of the cluster network (R158, R310, R314). An access names the
requester's outstanding access and its part. -/
inductive NetItem
  | load (id part : Nat)
  | store (id part : Nat)
  | amo (id part : Nat) (dbl : Bool) (op : AmoOp) (operand : W64)
  | cas (id part : Nat) (dbl : Bool) (expected new : W64)
  | flag (f time : Nat)
  | barrier (startedId : Nat) (v : BarVariant) (b : Nat) (n : W64) (time : Nat)
  deriving DecidableEq, Repr

/-- One queue entry of the cluster network: requester, destination, item; the requester's accesses it still waits for
before it enters its queue (R310, R314), and whether its suspended destination holds it (R369). -/
structure NetPacket where
  src : Nat
  dst : Nat
  item : NetItem
  after : List Nat
  held : Bool
  deriving DecidableEq, Repr

/-- What leaves the package on the fabric, in the order of its queue (R204, R249, R217, R295). -/
inductive FabricItem
  | access (core id : Nat) (acc : RemoteAccess)
  | reply (id : Nat) (data : List Byte)
  | ack (id : Nat)
  | refusal (id cause : Nat)
  | fetch (core op chunk addr : Nat)
  | message (core startedId : Nat) (m : Message)
  | messageAck (m : Message) (cause : Nat)
  | pull (m : Message)
  | pullData (handle : Nat) (data : List Byte)
  | group (group port origin addr : Nat) (data : List Byte)
  | strip (desc polder region slot step : Nat) (data : List Byte)
  deriving DecidableEq, Repr

/-- A queued fabric packet with its destination package, or 16,384 + p for up-port p (R13), and its virtual channel (R260). -/
structure FabricPacket where
  pkg : Nat
  channel : Nat
  item : FabricItem
  deriving DecidableEq, Repr

/-- A context-table entry (R296). -/
structure CtxEntry where
  valid : Bool
  root : Nat
  group : Nat
  deriving DecidableEq, Repr

/-- Command-queue states (R228). -/
inductive QState | idle | active | error | free
  deriving DecidableEq, Repr

/-- A queue-table entry (R228), with the rights sealed with its nonce (R227), what the front end read last from the control block (R229), the count of event
records written, the cycle since which the head command waits until an event has been raised for it (R233), the largest
final time of its completed launches (R230), and the outcomes of its LAUNCH commands for relative predecessors (R237). -/
structure QueueEntry where
  base : W64
  nonce : Nat
  size : Nat
  prio : Nat
  owner : Nat
  rights : Nat
  state : QState
  tail : Nat
  head : Nat
  resident : Nat
  ringBase : Nat
  evBase : Nat
  evLog : Nat
  events : Nat
  waited : Option Nat
  done : Nat
  launches : List (Option Nat)
  deriving DecidableEq, Repr

/-- A committed wake (R231, R245): capability words, tail, and the waking core's operation if any. -/
structure Wake where
  words : List W64
  tail : W64
  device : Option (Nat × Nat)
  ctx : Nat
  deriving DecidableEq, Repr

/-- Launch states (11_queues_execution.md, state card), with the two of a pre-empted gang (R328). -/
inductive LaunchState | pending | running | completing | preempting | preempted
  deriving DecidableEq, Repr

/-- A pool entry (R238, R239). -/
structure Launch where
  lid : Nat
  ctx : Nat
  desc : LaunchDesc
  state : LaunchState
  own : Nat
  eff : Nat
  queue : Option (Nat × Bool)       -- queue-table entry and CR of its command
  remaining : Nat                   -- dispenser (R23)
  next : Nat
  redo : List (Nat × List Nat)      -- per gang core: linear indices to be run again first (R333)
  ranges : List (Nat × (Nat × Nat)) -- per gang core: the rest of its dispenser range (R332)
  drawn : List (Nat × Nat)          -- per gang core: coordinates taken in static distribution
  replays : Nat
  release : Nat                     -- cycle T of the release (R18), moved on by the time a pre-emption took (R329)
  haltAt : Nat                      -- halt cycle H (R328)
  time : Nat                        -- largest logical time of its work
  fate : Option (TokState × Nat × Nat)  -- how it ends (R26): status, cause, failed launch
  deriving DecidableEq, Repr

/-- An endpoint entry (R247). -/
structure Endpoint where
  valid : Bool
  ctx : Nat
  col : Nat
  deriving DecidableEq, Repr

/-- A posted receive (R247, R251); while it lands, its message, the bytes written so far, and whether the sender of an
eager message is acknowledged after the landing (R249). -/
structure Posted where
  ep : Nat
  matchW : W64
  maskW : W64
  shape : List Byte
  tile : Nat
  env : Option W64
  core : Nat
  startedId : Nat
  landing : Option Message
  landed : Nat
  ack : Bool
  deriving DecidableEq, Repr

/-- A Parser (R252, R253): posted list, unexpected queue, reorder buffer, next expected numbers. -/
structure Parser where
  posted : List Posted
  landing : List Posted
  unexpected : List Message
  reorder : List Message
  expected : KMap Nat
  deriving DecidableEq, Repr

/-- A completion-ring descriptor (R258): head and tail count records. -/
structure Ring where
  base : W64
  log2 : Nat
  head : Nat
  tail : Nat
  valid : Bool
  deriving DecidableEq, Repr

/-- Slot states (R264). -/
inductive SeqState | free | prefill | active | committing | preempted | done
  deriving DecidableEq, Repr

/-- A node of a token tree (R263). -/
structure Node where
  token : W32
  parent : Nat
  depth : Nat
  q : W32
  verified : Bool
  c : W32
  rank : Nat
  p : W32
  deriving DecidableEq, Repr

/-- A sequence record with its token tree (R263). -/
structure SeqRec where
  state : SeqState
  saved : SeqState
  rule : Nat
  k : Nat
  nm4 : Bool
  seed : W64
  endTok : W32
  maxNew : Nat
  g : Nat
  lc : Nat
  pl : Nat
  pending : W32
  round : Nat
  out : W64
  pages : Nat
  nodes : List Node
  deriving DecidableEq, Repr

/-- The copy phase of an `sqacc` (R275): slot, output, a, done, pages taken, issuing core and operation. -/
structure Commit where
  slot : Nat
  out : List W32
  path : List Nat
  a : Nat
  done : Bool
  took : List Nat
  core : Nat
  startedId : Nat
  deriving DecidableEq, Repr

/-- A sequence manager (R262, R263, R265). -/
structure Manager where
  cfg : ManagerConfig
  slots : KMap SeqRec
  free : List Nat
  commits : List Commit
  waiting : List (Nat × Nat)
  deriving DecidableEq, Repr

/-- The grid state of one polder (R213): tags keyed by 2 × region + slot, the largest logical time of the strips written there, marks by
slot, the first and the last step published, and which suppliers' cells a slot of a region holds for a step whose tag it has not taken:
(2 × region + slot, step, polder). -/
structure PolderState where
  key : Nat × Nat × Nat             -- context, descriptor address, polder
  owner : Option Nat
  grid : Grid
  published : Option (Nat × Nat)
  tags : KMap Nat
  times : KMap Nat
  marks : KMap Nat
  wrote : List (Nat × Nat × Nat)
  leaving : Bool
  deriving DecidableEq, Repr

/-- A strip on its way (R216, R217): destination region and slot, step, data, supplying polder and operation. -/
structure Strip where
  ctx : Nat
  desc : Nat
  polder : Nat
  src : Nat
  region : Nat
  slot : Nat
  step : Nat
  cells : List (Nat × List Byte)    -- cell index in the region and its bytes
  time : Nat                        -- the logical time at which its cells were read (R203)
  core : Nat
  startedId : Nat
  deriving DecidableEq, Repr

/-- An asynchronous event for a firmware core (R142, R144). -/
structure FwEvent where
  source : Nat
  cause : Nat
  tval : W64
  deriving DecidableEq, Repr

/-- An error window (R320). -/
structure ErrWindow where
  u : UnitId
  count : Nat
  start : Nat
  deriving DecidableEq, Repr

/-- The front end: queue table, arbiter, pool (R227 to R239). -/
structure FrontEnd where
  queues : KMap QueueEntry
  nonce : Nat
  bootNo : Nat
  wakeRegs : KMap W64
  wakes : List Wake
  served : KMap Nat
  quant : Nat
  quantAt : Nat
  rejects : Nat
  pool : List Launch
  nextLid : Nat
  overflowBase : Nat
  overflowUnits : Nat
  grown : Nat
  ranTill : KMap Nat                -- by context: the first cycle after the latest bundle of the cores that have left it (R239)
  deriving DecidableEq, Repr

/-- A thermal migration in progress (R330): context, origin column, the moves (way, target column, target way), the operations that were
writing the moving ways when it began (step 2), and the bank that is retired once its way has moved (R334), and the banks, by column, whose retirement waits for its end. -/
structure Migration where
  ctx : Nat
  col : Nat
  moves : List (Nat × Nat × Nat)
  copies : List (Nat × Nat)
  bank : Option Nat
  after : List (Nat × Nat)
  deriving DecidableEq, Repr

/-- The near tier, DRAM and the order of memory (R187). -/
structure MemSys where
  mem : Memory                      -- DRAM cells and scratch bytes, by local physical address
  lines : KMap NearLine             -- held lines, by line number
  times : KMap (Nat × Nat)          -- wts, rts by line number
  colTimes : KMap (Nat × Nat)       -- the pair of the lines not held, by column
  owners : KMap Owner               -- by column × 16 + way
  wayTime : KMap Nat                -- least time of a way's lines after a zeroing or a move (R191, R330), by column × 16 + way
  nsplit : KMap (BitVec 16)         -- by context × 8 + column
  waymap : KMap (Nat × Nat)         -- by (context × 8 + column) × 16 + way: 1 + column, way
  lmode : KMap Nat                  -- LMODE by column: MODE + 2 × SW
  contexts : KMap CtxEntry
  clusterTlb : KMap (List Leaf)     -- by column × 2 + cluster
  arrivals : KMap Nat               -- by package: the time that its queue of requests has come to (R204)
  faulty : List Nat                 -- lines whose data an uncorrectable error has spoilt: whoever reads them faults again (R333)
  dead : List (Nat × Nat)           -- column and bank of the DRAM banks retired with no spare rows left (R334)
  migration : Option Migration
  deriving DecidableEq, Repr

/-- A slot table that a router installs on the cycle `due`, for an operation of a core that has reached a time (R299). -/
structure Install where
  router : Nat
  table : List Byte
  core : Nat
  startedId : Nat
  due : Nat
  time : Nat
  deriving DecidableEq, Repr

/-- Switch and router tables (R289 to R294, R299). -/
structure Routing where
  groupTable : KMap W64
  groupRegs : KMap W64
  slotTables : KMap (List Byte)
  slotBase : KMap Nat
  installs : List Install
  routes : List (Nat × Nat × W64)
  deriving DecidableEq, Repr

/-- The hub's messaging and sequence state (R247, R258, R262, R213), and the core as it was when its save area was last
written (R324). -/
structure Hub where
  endpoints : KMap Endpoint
  parsers : KMap Parser
  sendNo : KMap Nat
  rings : KMap Ring
  managers : KMap Manager
  polders : List PolderState
  strips : List Strip
  fwEvents : KMap (List FwEvent)
  windows : List ErrWindow
  errW : Nat
  thresh : Nat
  absent : List Nat
  sparesUsed : KMap Nat
  perf : KMap Nat
  perfSel : KMap Nat
  retired : List UnitId
  saved : KMap Core
  deriving DecidableEq, Repr

/-- Boot phases (R339, R342, R344, R350). -/
inductive Phase | off | recovery | firmware | scrubbing | halted
  deriving DecidableEq, Repr

/-- Answers of the security block, the sideband and BAR2 to the outside (R341, R347, R349). -/
inductive Answer
  | version (v : Nat)
  | capabilities (certs chal meas keyExchange sessions : Bool)
  | algorithms (ecdsaP256 sha256 : Bool)
  | digests (d : List Byte)
  | certificate (slot : Nat) (c : List Byte)
  | challengeAuth (sig : List Byte)
  | measurement (block : Nat) (value : List Byte)
  | error
  | log (entries : List (List Byte))
  | read (data : List Byte)
  | scrubAccepted
  | telemetry (valves : List Nat)
  | vector (n : Nat)
  deriving DecidableEq, Repr

/-- Boot flash, security block, mailbox, host link and PMC (R336 to R350); `accepted` is the lease record of this boot. -/
structure Security where
  phase : Phase
  ownerKey : List Byte
  blobs : List (List Byte)
  recoveryImage : List Byte
  lease : List Byte
  accepted : Option (List Byte)
  bindNonce : List Byte
  scrubPending : Bool
  slotA : List Byte
  slotB : List Byte
  log : List (List Byte)
  mr : List (List Byte)
  verified : List Nat
  force : Bool
  mailCommand : W64
  mailStatus : Nat
  mailWindow : Nat
  staging : Memory
  scrubRecord : List Byte
  scrubReq : Memory
  scrubNonce : List Byte
  answers : List Answer
  windows : KMap W64
  bar2Base : Nat
  bar2Size : Nat
  msix : List (Nat × MsixTarget)
  valves : KMap Nat
  deriving DecidableEq, Repr

/-- The module. `agenda` lists the events still to be taken, head next, and `turn` the core that runs the
next bundle when the agenda is empty (log 6); `free` counts the free values drawn (log 5); `cycle` counts
core cycles (R5); `pkg` is the module's own package number (R13). -/
structure State where
  agenda : List Instr
  turn : Nat
  cycle : Nat
  free : Nat
  pkg : Nat
  cur : Option Cursor
  cores : KMap Core
  ms : MemSys
  net : List NetPacket
  netWait : List NetPacket
  fabricOut : List FabricPacket
  fe : FrontEnd
  rt : Routing
  hub : Hub
  sec : Security
  spill : KMap Nat
  deriving DecidableEq, Repr

/-- A core before its first release or start: every item at the reset the state cards give, and 0 where
they give none (log 1). CSRs: the formats and masks of R112, lease 64, wdog 0x0100_0000 (R136). -/
def Core.init : Core where
  run := .free
  hold := .none
  sregs := []
  pc := 0
  bn := 0
  lastSync := 0
  writes := []
  loops := []
  strides := []
  vlanes := []
  vdf := []
  kregs := []
  mdepth := []
  mstack := []
  csr := [(0x020, 0x00141E72), (0x021, 0x00103E56), (0x022, 0x00180628), (0x023, 0x000802E2), (0x028, 0xFF), (0x029, 0xFF),
    (0x02A, 0xFF), (0x02B, 0xFF), (0x02C, 0xFF), (0x02D, 0xFF), (0x049, 64), (0x068, 0x01000000)]
  imem := []
  wbuf := []
  abuf := []
  rbuf := []
  scale0 := []
  scale1 := []
  mx := { queue := [], headAt := 0, freeAt := 0, blocks := [], staging := [], arrivedAt := [], faulted := none, held := none }
  queues := []
  extensions := []
  started := []
  serial := 0
  outNext := 0
  ldNext := 0
  stNext := 0
  outs := []
  due := []
  closing := none
  tokens := []
  flags := []
  freeSlots := []
  barriers := []
  range := (0, 0)
  wdogCount := 0
  wdogSeen := 0
  holdCount := 0
  idle := 0
  handles := []
  loadBuf := []
  records := []
  utlb := []
  recent := []
  hist := []
  slips := []
  late := []
  fetched := none
  ending := none
  lid := 0
  rank := 0
  lastCtx := none
  launches := []
  taskSerial := 0
  journal := []
  still := 0
  isSaved := false
  tdisp := none
  haltCycle := 0
  finalWait := false
  starts := false
  busyTill := 0
  nextAt := 0
  perf := []
  perfSel := []

/-- The front end at boot (R228, R233, R237, R239). -/
def FrontEnd.init : FrontEnd where
  queues := []
  nonce := 0
  bootNo := 0
  wakeRegs := []
  wakes := []
  served := []
  quant := 3200000
  quantAt := 0
  rejects := 0
  pool := []
  nextLid := 1
  overflowBase := 0
  overflowUnits := 0
  grown := 0
  ranTill := []

/-- The near tier at boot: every way caching, nothing held, all times 0 (R187). -/
def MemSys.init : MemSys where
  mem := []
  lines := []
  times := []
  colTimes := []
  owners := []
  wayTime := []
  nsplit := []
  waymap := []
  lmode := []
  contexts := []
  clusterTlb := []
  arrivals := []
  faulty := []
  dead := []
  migration := none

/-- Routing state at boot (R289, R294). -/
def Routing.init : Routing where
  groupTable := []
  groupRegs := []
  slotTables := []
  slotBase := []
  installs := []
  routes := []

/-- Hub state at boot: W is 10 s, that is 16,000,000,000 cycles (R320, R5), THRESH is 3. -/
def Hub.init : Hub where
  endpoints := []
  parsers := []
  sendNo := []
  rings := []
  managers := []
  polders := []
  strips := []
  fwEvents := []
  windows := []
  errW := 16000000000
  thresh := 3
  absent := []
  sparesUsed := []
  perf := []
  perfSel := []
  retired := []
  saved := []

/-- Thirty-two zero bytes: the lease-binding nonce before the first scrub (R345), and a measurement
register at boot (R339). -/
def zero32 : List Byte := List.replicate 32 0

/-- The security state at power-on with nothing provisioned in flash (log 4). -/
def Security.init : Security where
  phase := .off
  ownerKey := []
  blobs := []
  recoveryImage := []
  lease := []
  accepted := none
  bindNonce := zero32
  scrubPending := false
  slotA := []
  slotB := []
  log := []
  mr := List.replicate 5 zero32
  verified := [1, 1]
  force := false
  mailCommand := 0
  mailStatus := 0
  mailWindow := 0
  staging := []
  scrubRecord := []
  scrubReq := []
  scrubNonce := zero32
  answers := []
  windows := []
  bar2Base := 0
  bar2Size := 0
  msix := []
  valves := []

/-- The module right after reset: power is on, the boot ROM has not run yet, and its sequence (R339) is the
step to be taken first (log 6). -/
def State.reset : State where
  agenda := [.powerOn]
  turn := 0
  cycle := 0
  free := 0
  pkg := 0
  cur := none
  cores := []
  ms := .init
  net := []
  netWait := []
  fabricOut := []
  fe := .init
  rt := .init
  hub := .init
  sec := .init
  spill := []

end Sys2Proof.Machine
end

