-- ==== Sys2Proof/Machine/Ops.lean ====
section
/-!
DEFINITION. The named operations over the state: sparse arrays, byte memories, registers with their held
writes (R94 to R100), CSRs, declarations (R61), and taking and leaving an exception (R144, R147).
-/
namespace Sys2Proof.Machine

/-- What a meaning answers. -/
abbrev Res := Host.Outcome State Fault Refusal

/-! ### Sparse arrays -/

/-- The value at an index, `d` where none is listed. -/
def kget {α : Type} (d : α) : KMap α → Nat → α
  | [], _ => d
  | (k, v) :: m, i => if k = i then v else kget d m i

/-- List a value at an index, keeping the indices in rising order. -/
def kput {α : Type} : KMap α → Nat → α → KMap α
  | [], i, v => [(i, v)]
  | (k, w) :: m, i, v =>
    if i < k then (i, v) :: (k, w) :: m else if i = k then (i, v) :: m else (k, w) :: kput m i v

/-- Unlist an index. -/
def kdel {α : Type} (m : KMap α) (i : Nat) : KMap α := m.filter fun e => e.1 ≠ i

/-- Store a value; the default `d` is not listed. -/
def kset {α : Type} [DecidableEq α] (d : α) (m : KMap α) (i : Nat) (v : α) : KMap α :=
  if v = d then kdel m i else kput m i v

/-! ### Byte memories -/

/-- The canonical form: addresses strictly rising, no byte equal to what an unlisted address reads as. -/
abbrev Memory.wf (m : Memory) : Prop := m.Pairwise (fun a b => a.1 < b.1) ∧ ∀ e ∈ m, e.2 ≠ 0

/-- The byte at an address; 0 where none is listed (log 2). -/
def mget (m : Memory) (a : Nat) : Byte := kget 0 m a

/-- The cells that hold bytes `bs` from address `a` on, without the zeros. -/
def cells : Nat → List Byte → Memory
  | _, [] => []
  | a, b :: bs => if b = 0 then cells (a + 1) bs else (a, b) :: cells (a + 1) bs

/-- Store bytes from address `a` on. -/
def mwrite (m : Memory) (a : Nat) (bs : List Byte) : Memory :=
  m.filter (fun e => e.1 < a) ++ cells a bs ++ m.filter (fun e => a + bs.length ≤ e.1)

/-- `n` bytes from address `a` on, of the cells at `a` and above. -/
def window : Nat → Nat → Memory → List Byte
  | 0, _, _ => []
  | n + 1, a, [] => 0 :: window n (a + 1) []
  | n + 1, a, (k, b) :: m => if k = a then b :: window n (a + 1) m else 0 :: window n (a + 1) ((k, b) :: m)

/-- `n` bytes from address `a` on. -/
def mread (m : Memory) (a n : Nat) : List Byte := window n a (m.dropWhile fun e => e.1 < a)

/-! ### Cores -/

/-- The core with an index: a user core's logical index (R8), or 0xF000 + column. -/
def State.core (s : State) (i : Nat) : Core := kget Core.init s.cores i

/-- Replace a core. -/
def State.setCore (s : State) (i : Nat) (k : Core) : State := { s with cores := kput s.cores i k }

/-- Change a core. -/
def State.modCore (s : State) (i : Nat) (f : Core → Core) : State := s.setCore i (f (s.core i))

/-- A firmware core's index (R136, cid). -/
def isFw (i : Nat) : Bool := i / 0x1000 == 0xF

/-- The column of a core (R6, R8, R136). -/
def colOf (i : Nat) : Nat := if isFw i then i - 0xF000 else i % 65536 / 256

/-- The cluster of a user core within the package (R8): 128 cores each. -/
def clusterOf (i : Nat) : Nat := i % 65536 / 128

/-- The core that a 7-bit core number names in the cluster of core `i` (R153, R309). -/
def peer (i n : Nat) : Nat := clusterOf i * 128 + n % 128

/-- The column whose firmware core takes the events of a column (R334). -/
def fwCol (s : State) (col : Nat) : Nat :=
  if UnitId.firmwareCore col ∈ s.hub.retired then (col + 1) % 8 else col

/-! ### Held writes (R96 to R99) -/

/-- Whether two writes have one destination. Flag sets commute and never clash. -/
def WriteTo.clash : WriteTo → WriteTo → Bool
  | .scalar a _ _, .scalar b _ _ => a == b
  | .vector c r _ _, .vector d q _ _ => c == d && r == q
  | .mask c r _, .mask d q _ => c == d && r == q
  | .mstack c _ _, .mstack d _ _ => c == d
  | .csr a _, .csr b _ => a == b
  | _, _ => false

/-- Whether a consumer of class `cls` in bundle `m` sees the write (R97); `bit` is the choice where R97 allows
the old or the new value. -/
def HeldWrite.seen (w : HeldWrite) (cls : Class) (m : Nat) (bit : Bool) : Bool :=
  decide (w.n < m) &&
    if w.cls = cls then decide (w.lat ≤ m - w.n)
    else match w.sync with
      | some q => bit || decide (q ≤ m ∧ w.lat ≤ m - q + 1)
      | none => bit

/-- Whether every class in bundle `m` and later is bound to see the write (R97). -/
def HeldWrite.settled (w : HeldWrite) (m : Nat) : Bool :=
  decide (w.n < m ∧ w.lat ≤ m - w.n) &&
    match w.sync with
    | some q => decide (q ≤ m ∧ w.lat ≤ m - q + 1)
    | none => false

/-- How a write in the list stands to a new one (R98): it must take effect before it, a free choice puts it before or after, or it must take
effect after it. -/
inductive Landing | precedes | before | after | follows
  deriving DecidableEq, Repr

/-- How the earlier write `e` stands to the new write `w` (R98): by landing point within a class; between classes a completed write comes before,
one that a sync bundle orders too, and any other by a free choice. -/
def HeldWrite.order (e w : HeldWrite) (bit : Bool) : Landing :=
  let free : Landing := if bit then .after else .before
  if !e.wr.clash w.wr then .before
  else if e.cls = w.cls then (if w.n + w.lat < e.n + e.lat then .follows else .precedes)
  else if e.lat = 0 then .precedes
  else match e.sync with
    | some q => if q ≤ w.n ∧ e.lat ≤ w.n - q + 1 then .precedes else free
    | none => free

/-- Add a write in landing order: after every write that must precede it, whatever the order chosen so far, and as early behind them as the
choices say. A write that must follow it goes behind it. -/
def insertHeld (order : HeldWrite → Landing) (w : HeldWrite) (es : List HeldWrite) : List HeldWrite :=
  let tail := (es.reverse.takeWhile fun e => order e != .precedes).reverse
  let head := es.take (es.length - tail.length)
  let early (e : HeldWrite) : Bool := order e == .before
  head.filter (fun e => order e != .follows) ++ tail.takeWhile early ++ w :: (head.filter (fun e => order e == .follows) ++ tail.dropWhile early)

/-- A core's scalar register file entry at rest. -/
def Core.sbase (k : Core) (r : Nat) : SReg := kget ⟨0, false⟩ k.sregs r

/-- Index of lane `i` of vector register `r` in cluster `c`. -/
def laneIx (c r i : Nat) : Nat := (c * 64 + r) * 16 + i

/-- The change a write makes when it lands. Writes to s0 and k0 are discarded (R94, R112). -/
def WriteTo.land (k : Core) : WriteTo → Core
  | .scalar r v df => if r = 0 then k else { k with sregs := kset ⟨0, false⟩ k.sregs r ⟨v, df⟩ }
  | .vector c r lanes df =>
    { k with vlanes := lanes.foldl (fun m e => kset 0 m (laneIx c r e.1) e.2) k.vlanes
             vdf := kset false k.vdf (c * 64 + r) df }
  | .mask c r v => if r = 0 then k else { k with kregs := kset 0 k.kregs (c * 8 + r) v }
  | .mstack c d es =>
    { k with mdepth := kset 0 k.mdepth c d
             mstack := es.foldl (fun m e => kset 0 m (c * 16 + e.1) e.2) k.mstack }
  | .csr n v => { k with csr := kset 0 k.csr n v }
  | .flags b => { k with csr := kset 0 k.csr 0x010 (kget 0 k.csr 0x010 ||| b) }

/-- Land every settled write that no unsettled write to its destination precedes. -/
def landSettled (m : Nat) : List HeldWrite → List HeldWrite → Core → Core
  | [], kept, k => { k with writes := kept }
  | w :: ws, kept, k =>
    if w.settled m && !(kept.any fun e => e.wr.clash w.wr) then landSettled m ws kept (w.wr.land k)
    else landSettled m ws (kept ++ [w]) k

/-- The bundle of the oldest operation that a blocked class still has to dispatch, `m` when there is none (R95). -/
def Core.oldest (k : Core) (m : Nat) : Nat := k.slips.foldl (fun n x => Nat.min n x.cur.bn) m

/-- Whether the M class is blocked by a stale grid read (R220). -/
def Core.staleBehind (k : Core) : Bool :=
  match k.slips.find? fun x => x.cls == .m with
  | some x => x.why.isStale
  | none => false

/-- Land what bundle `m` and every later one is bound to see, in every class. -/
def Core.settle (k : Core) (m : Nat) : Core := landSettled (k.oldest m) k.writes [] k

/-- Land every held write at once (R99, a restart at a user handler). -/
def Core.landAll (k : Core) : Core :=
  k.writes.foldl (fun k w => w.wr.land k) { k with writes := [] }

/-- A sync bundle `m` gives every unsynchronised write of an earlier bundle its first sync bundle (R97). -/
def Core.stamp (k : Core) (m : Nat) : Core :=
  { k with writes := k.writes.map fun w => if w.sync = none ∧ w.n < m then { w with sync := some m } else w }

/-! ### Reading registers -/

/-- A scalar register as a reader sees it (R94, R97). -/
def Core.sread (k : Core) (see : HeldWrite → Bool) (r : Nat) : SReg :=
  if r = 0 then ⟨0, false⟩
  else k.writes.foldl (fun x w =>
    match w.wr with
    | .scalar q v df => if q = r ∧ see w = true then ⟨v, df⟩ else x
    | _ => x) (k.sbase r)

/-- A vector lane as a reader sees it. -/
def Core.vread (k : Core) (see : HeldWrite → Bool) (c r i : Nat) : W32 :=
  k.writes.foldl (fun x w =>
    match w.wr with
    | .vector d q lanes _ => if d = c ∧ q = r ∧ see w = true then ((lanes.find? fun e => e.1 == i).map (·.2)).getD x else x
    | _ => x) (kget 0 k.vlanes (laneIx c r i))

/-- The DF bit of a vector register in a cluster as a reader sees it. -/
def Core.vdfRead (k : Core) (see : HeldWrite → Bool) (c r : Nat) : Bool :=
  k.writes.foldl (fun x w =>
    match w.wr with
    | .vector d q _ df => if d = c ∧ q = r ∧ see w = true then df else x
    | _ => x) (kget false k.vdf (c * 64 + r))

/-- A mask register as a reader sees it; k0 reads 0xFFFF (R120). -/
def Core.kread (k : Core) (see : HeldWrite → Bool) (c r : Nat) : BitVec 16 :=
  if r = 0 then 0xFFFF
  else k.writes.foldl (fun x w =>
    match w.wr with
    | .mask d q v => if d = c ∧ q = r ∧ see w = true then v else x
    | _ => x) (kget 0 k.kregs (c * 8 + r))

/-- The depth and entries 1 to 15 of a cluster's mask stack as a reader sees them. -/
def Core.stackRead (k : Core) (see : HeldWrite → Bool) (c : Nat) : Nat × KMap (BitVec 16) :=
  k.writes.foldl (fun x w =>
    match w.wr with
    | .mstack d n es => if d = c ∧ see w = true then (n, es) else x
    | _ => x)
    (kget 0 k.mdepth c,
      k.mstack.filterMap fun e => if e.1 / 16 = c then some (e.1 % 16, e.2) else none)

/-- Entry `j` of a mask stack; entry 0 always holds 0xFFFF (R112). -/
def stackEntry (st : Nat × KMap (BitVec 16)) (j : Nat) : BitVec 16 := if j = 0 then 0xFFFF else kget 0 st.2 j

/-- A CSR's stored value as a reader sees it. -/
def Core.csrStored (k : Core) (see : HeldWrite → Bool) (n : Nat) : W64 :=
  k.writes.foldl (fun x w =>
    match w.wr with
    | .csr q v => if q = n ∧ see w = true then v else x
    | _ => x) (kget 0 k.csr n)

/-- The key of a free choice made for the slot operation at the cursor (log 5). -/
def freeKey (c : Cursor) (kind r n : Nat) : Nat := ((c.slot.index * 16 + kind) * 16384 + r) * 4294967296 + n

/-- What the slot operation at the cursor sees of a held write; `kind` and `r` say of which item (R97). -/
def see (s : State) (c : Cursor) (kind r : Nat) (w : HeldWrite) : Bool :=
  w.seen c.slot.cls c.bn (Config.freeBit s.free (freeKey c kind r w.n))

/-- A scalar register read by the slot operation at the cursor. -/
def State.sr (s : State) (c : Cursor) (r : Nat) : SReg := (s.core c.core).sread (see s c 0 r) r

/-- A vector lane read by the slot operation at the cursor. -/
def State.vr (s : State) (c : Cursor) (cl r i : Nat) : W32 := (s.core c.core).vread (see s c 1 (cl * 64 + r)) cl r i

/-- A vector register's DF bit read by the slot operation at the cursor. -/
def State.vf (s : State) (c : Cursor) (cl r : Nat) : Bool := (s.core c.core).vdfRead (see s c 1 (cl * 64 + r)) cl r

/-- A mask register read by the slot operation at the cursor. -/
def State.kr (s : State) (c : Cursor) (cl r : Nat) : BitVec 16 := (s.core c.core).kread (see s c 2 (cl * 8 + r)) cl r

/-- A mask stack read by the slot operation at the cursor. -/
def State.stack (s : State) (c : Cursor) (cl : Nat) : Nat × KMap (BitVec 16) :=
  (s.core c.core).stackRead (see s c 3 cl) cl

/-- The active mask of a cluster, its stack's top (R112). -/
def State.top (s : State) (c : Cursor) (cl : Nat) : BitVec 16 :=
  let st := s.stack c cl
  stackEntry st st.1

/-! ### CSRs (R136 to R141) -/

/-- A CSR's width in bits (R136). -/
def csrWidth (n : Nat) : Nat :=
  if n = 0x000 then 48 else if n = 0x001 then 32 else if n = 0x002 ∨ n = 0x003 then 16 else if n = 0x004 then 3
  else if n = 0x010 then 6 else if 0x020 ≤ n ∧ n ≤ 0x023 then 32 else if 0x028 ≤ n ∧ n ≤ 0x02D then 8
  else if n = 0x031 ∨ n = 0x033 then 6 else if n = 0x040 then 16 else if n = 0x049 then 32
  else if n = 0x050 then 16 else if n = 0x051 ∨ n = 0x054 then 14 else if n = 0x053 then 8
  else if n = 0x060 then 58 else if n = 0x068 then 32 else 64

/-- A write keeps only the CSR's width (R136). -/
def csrTrim (n : Nat) (x : W64) : W64 := BitVec.ofNat 64 (x.toNat % 2 ^ csrWidth n)

/-- The context of a core: its CSR, 0 on firmware cores (R136). -/
def Core.ctx (k : Core) : Nat := (kget 0 k.csr 0x003).toNat

/-- A core's logical clock (R202). -/
def Core.ltime (k : Core) : Nat := (kget 0 k.csr 0x048).toNat

/-- Raise a core's clock to at least `t` (R203). -/
def Core.raise (k : Core) (t : Nat) : Core :=
  { k with csr := kset 0 k.csr 0x048 (BitVec.ofNat 64 (Nat.max k.ltime t)) }

/-- The flags that held flag sets show the reader, ORed (R119, R140). -/
def Core.flagsSeen (k : Core) (see : HeldWrite → Bool) : W64 :=
  k.writes.foldl (fun x w =>
    match w.wr with
    | .flags b => if see w = true then x ||| b else x
    | _ => x) 0

/-- What an S-slot operation at the cursor sees of a held flag set: one choice for both S slots (R140). -/
def seeFlags (s : State) (c : Cursor) (w : HeldWrite) : Bool :=
  w.seen .s c.bn (Config.freeBit s.free (4294967296 * 15 + w.n))

/-- The value of a CSR as the slot operation at the cursor reads it (R136, R140). cid and nsplit have a home of
their own; status and ltime read as the bundle found them (R97). -/
def State.csrv (s : State) (c : Cursor) (n : Nat) : W64 :=
  let k := s.core c.core
  if n = 0x002 then BitVec.ofNat 64 c.core
  else if n = 0x040 then BitVec.ofNat 64 (kget 0 s.ms.nsplit (k.ctx * 8 + colOf c.core)).toNat
  else if n = 0x010 then c.status0
  else if n = 0x048 then BitVec.ofNat 64 c.ltime0
  else k.csrStored (see s c 4 n) n

/-- The cluster mask CSR that governs a slot (R113). -/
def maskCsr : Slot → Nat
  | .v0 => 0x028 | .v1 => 0x029 | .v2 => 0x02A | .f => 0x02B | .m0 => 0x02C | .m1 => 0x02D
  | .s0 | .s1 | .x | .a => 0

/-- The clusters that the slot at the cursor enables, in rising order (R113). -/
def State.enabled (s : State) (c : Cursor) : List Nat :=
  let m := (s.csrv c (maskCsr c.slot)).toNat
  (List.range 8).filter fun cl => bits m cl 1 == 1

/-- The active lanes of a cluster, in rising order (R116). -/
def State.active (s : State) (c : Cursor) (cl : Nat) : List Nat :=
  let t := (s.top c cl).toNat
  (List.range 16).filter fun i => bits t i 1 == 1

/-! ### Writing results -/

/-- How an earlier held write `e` stands to the new write `w` of the slot operation at the cursor (R98). The read and the write of a `csr*`
are one step (R139): of another class's writes to the CSR those up to the latest that it has read come before it, the later ones after it; and a
write by that other class comes after the `csr*` of an earlier bundle. -/
def landingOf (s : State) (c : Cursor) (w e : HeldWrite) : Landing :=
  match w.wr with
  | .csr n _ =>
    if e.cls = w.cls ∨ !e.wr.clash w.wr then e.order w false
    else if w.cls == .s && !see s c 4 n e then .after
    else .precedes
  | _ => e.order w (Config.freeBit s.free (freeKey c 5 0 e.n))

/-- A write with exposed latency `lat` by the slot operation at the cursor (R96). Writes to s0 are discarded (R94). -/
def State.put (s : State) (c : Cursor) (lat : Nat) (w : WriteTo) : State :=
  match w with
  | .scalar 0 _ _ => s
  | _ =>
    let h : HeldWrite := { cls := c.slot.cls, n := c.bn, lat := lat, sync := none, tok := none, wr := w }
    s.modCore c.core fun k => { k with writes := insertHeld (landingOf s c h) h k.writes }

/-- Writes of one operation, in order. -/
def State.puts (s : State) (c : Cursor) (lat : Nat) (ws : List WriteTo) : State :=
  ws.foldl (fun s w => s.put c lat w) s

/-- Set sticky flags (R80, R119). -/
def State.flag (s : State) (c : Cursor) (lat : Nat) (b : W64) : State :=
  if b = 0 then s else s.put c lat (.flags b)

/-- How a held write stands to a write `w` that completes now (R98): one of its own class whose landing point is still ahead follows it; of another
class such a write may, and a write that has reached its landing point does not. -/
def Core.orderNow (k : Core) (bit : Nat → Bool) (w e : HeldWrite) : Landing :=
  if !e.wr.clash w.wr then .before
  else if e.n + e.lat ≤ k.bn then .precedes
  else if e.cls = w.cls then .follows
  else if bit e.n then .after else .before

/-- A write by an engine or a returning load of bundle `n`: complete for its own class; other classes are bound to see
it after a sync bundle, or once its token `tok` has been observed (R98, R303, R307). -/
def State.land (s : State) (core : Nat) (cls : Class) (n : Nat) (tok : Option Nat) (w : WriteTo) : State :=
  match w with
  | .scalar 0 _ _ => s
  | _ =>
    let h : HeldWrite := { cls := cls, n := n, lat := 0, sync := none, tok := tok, wr := w }
    s.modCore core fun k =>
      { k with writes := insertHeld (k.orderNow (fun m => Config.freeBit s.free (17 * core + 131 * m)) h) h k.writes }

/-! ### Cause codes (R145) -/

/-- The code of a cause (R145). -/
def Cause.code : Cause → Nat
  | .illegalBundle => 0x01 | .illegalSlotOp => 0x02 | .headerLimit => 0x03 | .tokenBusy => 0x05
  | .tileCombo => 0x06 | .dfConsumed => 0x07 | .addressSpace => 0x08 | .bufferRight => 0x09
  | .translation => 0x0A | .protection => 0x0B | .alignment => 0x0C | .stepStale => 0x0D
  | .stepOverrun => 0x0E | .version => 0x0F | .capability => 0x10 | .queueExhausted => 0x11
  | .launchPoolExhausted => 0x12 | .watchdog => 0x13 | .uncorrectable => 0x14 | .software => 0x15
  | .privilege => 0x16 | .remote => 0x17 | .sequence => 0x18 | .record => 0x19 | .loopControl => 0x1A

/-! ### Taking an exception (R144) -/

/-- The bundle at which an asynchronous stop finds the core: the oldest one that some class has still to dispatch, else the next (R99, R320). With several
classes behind the oldest counts: DESIGN CHOICE (log 7). -/
def Core.stopPc (k : Core) : Nat :=
  match k.slips with
  | x :: _ => x.cur.pc
  | [] => k.pc

/-- A loop level is active (tstate LA, R143). -/
def Core.inLoop (k : Core) : Bool := k.loops.any fun e => e.2.active

/-- Some write of a bundle before boundary `m` has not reached its landing point (tstate HW, R99). -/
def Core.heldAt (k : Core) (m : Nat) : Bool := k.writes.any fun w => decide (w.n < m ∧ m < w.n + w.lat)

/-- A CSR of a core with every held write of an earlier bundle landed, as an exception or `eret` reads it. -/
def Core.csrNow (k : Core) (n : Nat) : W64 := k.csrStored (fun _ => true) n

/-- EE of tstate (R143), with what `csr*` of earlier bundles, or of the bundle itself, have written to it. -/
def Core.ee (k : Core) : Bool := field (k.csrNow 0x053) 4 1 == 1

/-- Taking an exception at bundle boundary `m` (R144): `tepc`, `tcause` and `tval` get their values; in `tstate`
the slot index, LA and HW are written, PEE gets EE and EE gets 0. -/
def Core.enterTrap (k : Core) (m tepc tcause : Nat) (tval : W64) (slot : Nat) : Core :=
  let st := slot + (if k.ee then 32 else 0) + (if k.heldAt m then 64 else 0) + (if k.inLoop then 128 else 0)
  { k with
    writes := k.writes.filter fun w =>
      match w.wr with
      | .csr n _ => !(n ≥ 0x050 && n ≤ 0x053)
      | _ => true
    csr := kset 0 (kset 0 (kset 0 (kset 0 k.csr 0x050 (BitVec.ofNat 64 tcause)) 0x051 (BitVec.ofNat 64 (tepc % 16384)))
      0x052 tval) 0x053 (BitVec.ofNat 64 st) }

/-- Count `n` in the performance counters whose selectors name an event; they wrap at 2^48 (R321). -/
def Core.count (k : Core) (ev n : Nat) : Core :=
  { k with perf := (List.range 8).foldl (fun m i =>
      if kget 0 k.perfSel i = ev then kset 0 m i ((kget 0 m i + n) % 2 ^ 48) else m) k.perf }

/-- Queue an event for the firmware core of a column (R142, R144, R334). -/
def State.report (s : State) (col source cause : Nat) (tval : W64) : State :=
  let f := fwCol s col
  { s with hub := { s.hub with
      fwEvents := kput s.hub.fwEvents f (kget [] s.hub.fwEvents f ++ [{ source := source, cause := cause, tval := tval }]) } }

/-- What follows the trap (R144): a user core is suspended and reported to the firmware core of its die, with its
logical index as the report's value (R327), and an UNCORRECTABLE trap is treated as the launch requires (R333); a firmware core continues at `tvec`. Where classes ran ahead of a blocked one, the pc keeps
where they stand, for the resumption at `tepc` (R95, R320; log 7). The halt slot is that of bundle `m` (R327); the kind of a held wait and the
hold counter stay for the save area (R324). -/
def State.exception (s : State) (core m tepc : Nat) (t : Trap) : State :=
  let code := t.cause.code + if t.async then 256 else 0
  let k := (s.core core).enterTrap m tepc code t.tval t.slot
  if isFw core then
    s.setCore core { k with pc := (k.csrNow 0x054).toNat % 16384, run := .running, hold := .none, holdCount := 0, fetched := none }
  else
    let s1 := (s.setCore core
      { k with
        pc := if k.slips.isEmpty then tepc % 16384 else k.pc
        run := .trapped
        fetched := none
        haltCycle := s.cycle + (m - k.bn)
        starts := false }).report (colOf core) 0 code (BitVec.ofNat 64 core)
    if t.cause = .uncorrectable then { s1 with agenda := s1.agenda ++ [.uncorrectableError core false none 0] } else s1

/-- A precise trap of the slot operation at the cursor: the exception at its bundle, and a mark for the bundle's
close that no slot of the bundle takes effect (R99). -/
def State.trapAt (s : State) (c : Cursor) (t : Trap) : State :=
  { s.exception c.core c.bn c.pc t with cur := some { c with trapped := some t } }

/-- The slot operation at the cursor traps with a cause and a value. -/
def takeTrap (s : State) (c : Cursor) (cause : Cause) (tval : W64) : Res :=
  .next (s.trapAt c { cause := cause, tval := tval, slot := c.slot.index, async := false })

/-- The bundle of the slot operation at the cursor is held undispatched (R302, R310, R308, R315, R317). -/
def holdAt (s : State) (c : Cursor) (h : Hold) : Res := .next { s with cur := some { c with held := h } }

/-- Return from an exception (R147): EE := PEE, then pc := `tepc`. -/
def Core.leaveTrap (k : Core) : Core :=
  let st := (k.csrNow 0x053).toNat
  let ee := bits st 5 1
  { k with
    writes := k.writes.filter fun w =>
      match w.wr with
      | .csr n _ => n ≠ 0x053
      | _ => true
    csr := kset 0 k.csr 0x053 (BitVec.ofNat 64 (st - bits st 4 1 * 16 + ee * 16))
    pc := (k.csrNow 0x051).toNat % 16384 }

/-- Take the oldest asynchronous event of a firmware core at bundle boundary `m` (R142, R144): the core continues at `tvec`. Only a
trap report writes `tval` (R136, R327). Of several pending events the oldest is taken: DESIGN CHOICE (log 37). -/
def State.takeEvent (s : State) (col m : Nat) : State :=
  match kget [] s.hub.fwEvents col with
  | [] => s
  | e :: es =>
    let i := 0xF000 + col
    let k := s.core i
    let code := e.cause % 256 + 256 + e.source * 512
    let k1 := k.enterTrap m k.pc code (if e.source = 0 then e.tval else k.csrNow 0x052) 15
    { s.setCore i { k1 with pc := (k1.csrNow 0x054).toNat % 16384, run := .running, hold := .none, fetched := none } with
      hub := { s.hub with fwEvents := kput s.hub.fwEvents col es } }

/-- An event is pending and enabled on a firmware core (R144, R148). -/
def State.eventReady (s : State) (col : Nat) : Bool :=
  (s.core (0xF000 + col)).ee && !(kget [] s.hub.fwEvents col).isEmpty

/-! ### Values of tval (R46, R145) -/

/-- tval of a decode trap (R46): word, defect code, slot index. -/
def tvalWord (word code slot : Nat) : W64 := BitVec.ofNat 64 (word + code * 2 ^ 32 + slot * 2 ^ 40)

/-- tval of an ILLEGAL_SLOT_OP, PRIVILEGE or LOOP_CONTROL trap at the cursor (R46, R110). -/
def slotTval (c : Cursor) (code : Nat) : W64 := tvalWord c.word.toNat code c.slot.index

/-- tval of DF_CONSUMED (R145). -/
def dfTval (c : Cursor) (r : Nat) (vec : Bool) (clusters : Nat) : W64 :=
  BitVec.ofNat 64 (r + (if vec then 64 else 0) + clusters * 256 + c.slot.index * 2 ^ 40)

/-! ### Declarations (R61, R137) -/

/-- A use that the header's declarations limit. -/
inductive Use
  | s (r : Nat) | v (r : Nat) | tok (t : Nat) | bar (b : Nat) | flag (f : Nat) | grid (h : Nat)
  deriving DecidableEq, Repr

/-- A field of hlim (R137). -/
def hl (h : W64) : Use → Nat
  | .s _ => field h 0 7 | .v _ => field h 7 7 | .tok _ => field h 14 6
  | .bar _ => field h 20 5 | .flag _ => field h 25 6 | .grid _ => field h 31 4

/-- The kind code of R145 and the number of a use. -/
def Use.code : Use → Nat × Nat
  | .s r => (1, r) | .v r => (2, r) | .tok t => (3, t) | .bar b => (4, b) | .flag f => (5, f) | .grid h => (6, h)

/-- Whether a use lies beyond the declarations `h`: t1 to tn may be used, everything else below the count. -/
def Use.over (h : W64) (u : Use) : Bool :=
  match u with
  | .tok t => decide (hl h u < t)
  | _ => decide (hl h u ≤ u.code.2)

/-- tval of HEADER_LIMIT (R145). -/
def limitTval (kind n slot : Nat) : W64 := BitVec.ofNat 64 (kind + n * 16 + slot * 2 ^ 40)

/-- The declarations of the cursor's core. -/
def State.hlim (s : State) (c : Cursor) : W64 := s.csrv c 0x060

/-- Declared banks of a typed buffer (R137). -/
def declBanks (h : W64) : Buf → Nat
  | .w => field h 35 8 | .a => field h 43 8 | .r => field h 51 7

/-- The first use beyond the declarations traps with HEADER_LIMIT; otherwise go on (R61). -/
def withUses (s : State) (c : Cursor) (us : List Use) (f : Unit → Res) : Res :=
  match us.find? fun u => u.over (s.hlim c) with
  | some u => takeTrap s c .headerLimit (limitTval u.code.1 u.code.2 c.slot.index)
  | none => f ()

/-- A slot operation: its register declarations are checked first (R61), then it acts for the cursor. Outside a
bundle it does nothing. -/
def slotOp (s : State) (us : List Use) (f : Cursor → Res) : Res :=
  match s.cur with
  | none => .next s
  | some c => withUses s c us fun _ => f c

/-- The first of the scalar registers whose DF bit is 1 traps with DF_CONSUMED (R101); otherwise go on. -/
def withClean (s : State) (c : Cursor) (rs : List Reg) (f : Unit → Res) : Res :=
  match rs.find? fun r => (s.sr c r.val).df with
  | some r => takeTrap s c .dfConsumed (dfTval c r.val false 0)
  | none => f ()

/-! ### The program counter and control transfers (R32, R104, R110) -/

/-- The address after the cursor's bundle (R32). -/
def Cursor.after (c : Cursor) : Nat := c.pc + c.len

/-- Set the pc that applies after the bundle. -/
def State.goto (s : State) (c : Cursor) (t : Nat) : State :=
  { s.modCore c.core (fun k => { k with pc := t }) with cur := some { c with target := some t } }

/-- The innermost active loop level, 0 when none (R105). -/
def Core.innermost (k : Core) : Nat := k.loops.foldl (fun n e => if e.2.active then Nat.max n e.1 else n) 0

/-- The address of the bundle `n` bundles after word `p` (R33, R105). -/
def skipBundles (fetch : Nat → Nat) : Nat → Nat → Nat
  | 0, p => p
  | n + 1, p => skipBundles fetch n (gather fetch (maskSlots (fetch p)) (p + 1)).2

/-- A word of instruction memory (R32). -/
def Core.fetch (k : Core) (p : Nat) : Nat := (kget 0 k.imem p).toNat

end Sys2Proof.Machine
end

