-- ==== Sys2Proof/Machine/Operands.lean ====
section
/-!
DEFINITION. Address operands: the space tags (R153), the rights (R154), the ordered checks of R155, translation
(R296 to R298), and the places they lead to.
-/
namespace Sys2Proof.Machine

/-! ### Space tags (R153) -/

/-- The size of a typed buffer (R150). -/
def bufSize : Buf → Nat | .w => 196608 | .a => 131072 | .r => 65536

/-- The buffer of a code in bits [59:58] (R153). -/
def bufCode : Nat → Option Buf | 0 => some .w | 1 => some .a | 2 => some .r | _ => none

/-- The address with `n` bytes from it on, decoded under R153; `limit` is the scratch size. `none` is
ADDRESS_SPACE. -/
def decodeAddr (limit : Nat) (a : W64) (n : Nat) : Option Space :=
  let x := a.toNat
  let off := bits x 0 18
  let ownBuf (b : Buf) : Option Space :=
    if bits x 18 42 = 0 ∧ off < bufSize b ∧ off + n ≤ bufSize b then some (.own b off) else none
  match bits x 60 4 with
  | 0x0 => if bits x 57 3 = 0 ∧ bits x 0 57 + n ≤ 2 ^ 57 then some (.global (bits x 0 57)) else none
  | 0x8 => ownBuf .w
  | 0x9 => ownBuf .a
  | 0xA => ownBuf .r
  | 0xB =>
    match bufCode (bits x 58 2) with
    | some b => if bits x 18 33 = 0 ∧ off < bufSize b ∧ off + n ≤ bufSize b then some (.remote b (bits x 51 7) off) else none
    | none => none
  | 0xC =>
    if bits x 57 3 = 0 ∧ bits x 0 57 < limit ∧ bits x 0 57 + n ≤ limit then some (.scratch (bits x 0 57)) else none
  | _ => none

/-! ### Local physical addresses (R10, R188, R190, R348) -/

/-- A DRAM address (R188). -/
def isDram (p : Nat) : Bool := p < 0x8000000000
/-- An address in a scratch window (R190). -/
def isScratch (p : Nat) : Bool := 0x40000000000 ≤ p && p < 0x40400000000
/-- An address in control space (R192, R327, R348). -/
def isControl (p : Nat) : Bool := 0x60000000000 ≤ p && p < 2 ^ 43

/-- The home column of a DRAM or scratch address (R188, R190). -/
def homeCol (p : Nat) : Nat := if isDram p then p / 0x1000000000 else (p - 0x40000000000) / 0x80000000 % 8

/-- Column and way of a scratch address (R190). -/
def wayOf (p : Nat) : Nat × Nat := ((p - 0x40000000000) / 0x80000000, (p - 0x40000000000) / 0x8000000 % 16)

/-- The window of way `w` of column `c` (R190). -/
def wayBase (c w : Nat) : Nat := 0x40000000000 + c * 0x80000000 + w * 0x8000000

/-- A caching way that no context owns. -/
def Owner.none : Owner := { scratch := false, ctx := 0, origin := 0 }

/-- The owner entry of a way that has left use: no context's, and no caching way (R334). -/
def Owner.outOfUse : Owner := { scratch := true, ctx := 65536, origin := 0 }

/-- The owner entry of a way (R187). -/
def MemSys.owner (ms : MemSys) (c w : Nat) : Owner := kget .none ms.owners (c * 16 + w)

/-- The ways of a column that are scratch of a context, in rising order (R190). -/
def MemSys.ways (ms : MemSys) (ctx col : Nat) : List Nat :=
  let m := (kget 0 ms.nsplit (ctx * 8 + col)).toNat
  (List.range 16).filter fun w => bits m w 1 == 1

/-- The scratch size of a context in a column (R153). -/
def MemSys.scratchSize (ms : MemSys) (ctx col : Nat) : Nat := (ms.ways ctx col).length * 0x8000000

/-- The way that serves a way's window, after migration (R330, R331). -/
def MemSys.forward (ms : MemSys) (p : Nat) : Nat :=
  if isScratch p then
    let (c, w) := wayOf p
    let o := ms.owner c w
    match kget (0, 0) ms.waymap ((o.ctx * 8 + c) * 16 + w) with
    | (0, _) => p
    | (d + 1, v) => if o.scratch then wayBase d v + p % 0x8000000 else p
  else p

/-- Where the contents of a context's scratch way lie: in the way itself, or where a migration has put them (R330). -/
def MemSys.served (ms : MemSys) (ctx col w : Nat) : Nat × Nat :=
  match kget (0, 0) ms.waymap ((ctx * 8 + col) * 16 + w) with
  | (0, _) => (col, w)
  | (d + 1, v) => (d, v)

/-- Whether a place lies in a way that a migration is moving: new accesses to it are held (R330). -/
def MemSys.moving (ms : MemSys) (p : Place) : Bool :=
  match ms.migration, p with
  | some m, .phys a => isScratch a && m.moves.any fun x => decide (ms.served m.ctx m.col x.1 = wayOf a)
  | _, _ => false

/-- The physical address of a scratch offset (R190). -/
def MemSys.scratchPhys (ms : MemSys) (ctx col off : Nat) : Nat :=
  ms.forward (wayBase col ((ms.ways ctx col).getD (off / 0x8000000) 0) + off % 0x8000000)

/-- Whether a way is scratch for a context (R190). -/
def MemSys.wayFor (ms : MemSys) (ctx p : Nat) : Bool :=
  let (c, w) := wayOf p
  let o := ms.owner c w
  o.scratch && o.ctx == ctx

/-! ### The near tier (R187 to R189) -/

/-- The 64 bytes of a line as its home serves them: the near tier's copy where one is held (R188, R189). -/
def MemSys.line (ms : MemSys) (l : Nat) : List Byte :=
  match ms.lines.find? fun e => e.1 == l with
  | some e => e.2.data
  | none => mread ms.mem (l * 64) 64

/-- `n` bytes at a local physical address, as the home serves them. -/
def MemSys.read (ms : MemSys) (p n : Nat) : List Byte :=
  (((List.range ((p % 64 + n + 63) / 64)).flatMap fun i => ms.line (p / 64 + i)).drop (p % 64)).take n

/-- One byte as the home serves it. -/
def MemSys.byte (ms : MemSys) (p : Nat) : Byte := (ms.line (p / 64)).getD (p % 64) 0

/-- Whether a line is held in the near tier. -/
def MemSys.held (ms : MemSys) (l : Nat) : Bool := ms.lines.any fun e => e.1 == l

/-- The times of a line: its own while it is held or scratch, else its column's shared pair (R187). The lines of a
zeroed or migrated way have at least the time of that (R191, R330). -/
def MemSys.time (ms : MemSys) (l : Nat) : Nat × Nat :=
  if isScratch (l * 64) then
    let t := kget (0, 0) ms.times l
    let (c, w) := wayOf (l * 64)
    let m := kget 0 ms.wayTime (c * 16 + w)
    (Nat.max t.1 m, Nat.max t.2 m)
  else if ms.held l then kget (0, 0) ms.times l else kget (0, 0) ms.colTimes (homeCol (l * 64))

/-- Set a line's times. -/
def MemSys.setTime (ms : MemSys) (l : Nat) (t : Nat × Nat) : MemSys :=
  if isScratch (l * 64) || ms.held l then { ms with times := kset (0, 0) ms.times l t }
  else { ms with colTimes := kset (0, 0) ms.colTimes (homeCol (l * 64)) t }

/-- Whether a column has a caching way (R189). -/
def MemSys.caches (ms : MemSys) (col : Nat) : Bool := (List.range 16).any fun w => !(ms.owner col w).scratch

/-- Bring a DRAM line into the near tier (R189); it takes its column's times. -/
def MemSys.hold (ms : MemSys) (l : Nat) : MemSys :=
  if isDram (l * 64) && !ms.held l && ms.caches (homeCol (l * 64)) then
    { ms with
      lines := kput ms.lines l { dirty := false, data := mread ms.mem (l * 64) 64 }
      times := kset (0, 0) ms.times l (kget (0, 0) ms.colTimes (homeCol (l * 64))) }
  else ms

/-- Write a held line back if it is dirty, and drop it; its column's times cover it (R187, R189). -/
def MemSys.evict (ms : MemSys) (l : Nat) : MemSys :=
  match ms.lines.find? fun e => e.1 == l with
  | none => ms
  | some e =>
    let t := kget (0, 0) ms.times l
    let u := kget (0, 0) ms.colTimes (homeCol (l * 64))
    { ms with
      mem := if e.2.dirty then mwrite ms.mem (l * 64) e.2.data else ms.mem
      lines := kdel ms.lines l
      times := kdel ms.times l
      colTimes := kset (0, 0) ms.colTimes (homeCol (l * 64)) (Nat.max t.1 u.1, Nat.max t.2 u.2) }

/-- Overlay bytes on a line from offset `o`. -/
def overlay (line : List Byte) (o : Nat) (bs : List Byte) : List Byte :=
  line.take o ++ bs ++ line.drop (o + bs.length)

/-- Store bytes that lie within one line: a DRAM line is held and becomes dirty; scratch, and a line of a column without
a caching way, are written in place. -/
def MemSys.writeLine (ms : MemSys) (p : Nat) (bs : List Byte) : MemSys :=
  let ms1 := ms.hold (p / 64)
  if ms1.held (p / 64) then
    { ms1 with lines := kput ms1.lines (p / 64) { dirty := true, data := overlay (ms1.line (p / 64)) (p % 64) bs } }
  else { ms with mem := mwrite ms.mem p bs }

/-- Store bytes line by line; `n` bounds the lines. -/
def MemSys.writeLines (ms : MemSys) : Nat → Nat → List Byte → MemSys
  | 0, _, _ => ms
  | n + 1, p, bs =>
    if bs.isEmpty then ms
    else
      let k := 64 - p % 64
      (ms.writeLine p (bs.take k)).writeLines n (p + k) (bs.drop k)

/-- Lines that are written whole hold sound data again; a part of a line that is written leaves it as it is: DESIGN CHOICE (log 34). -/
def MemSys.renew (ms : MemSys) (p n : Nat) : MemSys :=
  { ms with faulty := ms.faulty.filter fun l => !(decide (p ≤ 64 * l) && decide (64 * l + 64 ≤ p + n)) }

/-- The data of the line at an address are spoilt by an uncorrectable error (R333). -/
def MemSys.spoil (ms : MemSys) (a : Nat) : MemSys :=
  if isDram a || isScratch a then { ms with faulty := a / 64 :: ms.faulty.filter fun l => l != a / 64 } else ms

/-- Whether a line lies in a DRAM bank that was retired with no spare rows left (R334). -/
def MemSys.deadLine (ms : MemSys) (l : Nat) : Bool :=
  ms.dead.any fun d => isDram (64 * l) && d.1 == homeCol (64 * l) && d.2 == Config.dramBank l

/-- The first address of `n` bytes at a place whose line a test picks. -/
def Place.firstLine (p : Place) (n : Nat) (f : Nat → Bool) : Option Nat :=
  match p with
  | .phys a => (((List.range ((a % 64 + n + 63) / 64)).map fun i => a / 64 + i).find? fun l => n != 0 && f l).map fun l => Nat.max a (64 * l)
  | .far .. | .buf .. => none

/-- The first address of `n` bytes at a place where no access succeeds any more (R334). -/
def MemSys.deadAt (ms : MemSys) (p : Place) (n : Nat) : Option Nat := p.firstLine n ms.deadLine

/-- The first address of `n` bytes at a place whose data cannot be read: its line is spoilt, or its bank is gone (R333, R334). -/
def MemSys.spoiltAt (ms : MemSys) (p : Place) (n : Nat) : Option Nat := p.firstLine n fun l => ms.faulty.contains l || ms.deadLine l

/-- Store bytes at a local physical address, as the home performs it. -/
def MemSys.write (ms : MemSys) (p : Nat) (bs : List Byte) : MemSys := (ms.writeLines (bs.length / 64 + 2) p bs).renew p bs.length

/-! ### Translation (R296, R297) -/

/-- What translation finds: package, local address, and the G bit (R295, R296). -/
structure Target where
  pkg : Nat
  addr : Nat
  g : Bool
  deriving DecidableEq, Repr

/-- Page size of a leaf at a level (R296). -/
def pageSize : Nat → Nat | 0 => 0x10000 | 1 => 0x200000 | _ => 0x40000000

/-- Index of a virtual address at a level (R296). -/
def levelIndex (va : Nat) : Nat → Nat
  | 4 => bits va 48 9 | 3 => bits va 39 9 | 2 => bits va 30 9 | 1 => bits va 21 9 | _ => bits va 16 5

/-- Whether an entry breaks a rule of R297 at a level; `pkg` is the issuing package. -/
def entryBad (pkg level e : Nat) : Bool :=
  let addr := bits e 12 45 * 4096
  let t := bits e 1 1 == 1
  bits e 0 1 == 0 || bits e 5 7 != 0 || bits e 57 7 != 0 || (t && level == 0) || (!t && level ≥ 3) ||
    (t && (addr / 2 ^ 43 != pkg || !isDram (addr % 2 ^ 43))) || (!t && addr % pageSize level != 0)

/-- Walk from the table at `table`; the list holds the levels still to be read (R296). -/
def walk (ms : MemSys) (pkg va : Nat) : List Nat → Nat → Option (Nat × Nat)
  | [], _ => none
  | level :: rest, table =>
    let e := leNat (ms.read (table + 8 * levelIndex va level) 8)
    if entryBad pkg level e then none
    else if bits e 1 1 = 1 then walk ms pkg va rest (bits e 12 45 * 4096 % 2 ^ 43)
    else some (level, e)

/-- The leaf entry and its level for a virtual address of a context; `none` is TRANSLATION (R296, R297). -/
def findLeaf (s : State) (ctx va : Nat) : Option (Nat × Nat) :=
  let e := kget { valid := false, root := 0, group := 0 } s.ms.contexts ctx
  if !e.valid ∨ e.root % 4096 ≠ 0 ∨ !isDram e.root then none
  else walk s.ms s.pkg va [4, 3, 2, 1, 0] e.root

/-- The lines of the entries that a walk reads (R296). -/
def walkLines (ms : MemSys) (pkg va : Nat) : List Nat → Nat → List Nat
  | [], _ => []
  | level :: rest, table =>
    let p := table + 8 * levelIndex va level
    let e := leNat (ms.read p 8)
    p / 64 :: (if entryBad pkg level e || bits e 1 1 == 0 then [] else walkLines ms pkg va rest (bits e 12 45 * 4096 % 2 ^ 43))

/-- An engine's read of one line at time `pts` enters the order of memory as a load at its home (R202, R203). -/
def MemSys.engLoad (ms : MemSys) (pts lease l : Nat) : MemSys :=
  let t := ms.time l
  ms.setTime l (t.1, Nat.max t.2 (Nat.max (t.1 + lease) (pts + lease)))

/-- Whether a leaf grants an access (R297). -/
def leafGrants (e : Nat) : Access → Bool
  | .read => bits e 2 1 == 1
  | .write => bits e 3 1 == 1
  | .atomic => bits e 2 1 == 1 && bits e 3 1 == 1

/-- The target that a leaf gives, or PROTECTION (R190, R295, R297). -/
def leafTarget (s : State) (ctx va level e : Nat) (acc : Access) : Except Cause Target :=
  let addr := bits e 12 45 * 4096 + va % pageSize level
  let p := addr % 2 ^ 43
  let pkg := addr / 2 ^ 43
  let g := bits e 4 1 == 1
  if !(isDram p || isScratch p) || !leafGrants e acc || (g && acc == .atomic) then .error .protection
  else if pkg = s.pkg ∧ isScratch p ∧ !s.ms.wayFor ctx p then .error .protection
  else .ok { pkg := pkg, addr := if pkg = s.pkg then s.ms.forward p else p, g := g }

/-- A cached leaf that covers an address (R298). -/
def cachedLeaf (ls : List Leaf) (ctx va : Nat) : Option Leaf :=
  ls.find? fun l => l.ctx == ctx && decide (l.va ≤ va ∧ va < l.va + l.size)

/-- The level of a page size. -/
def sizeLevel (n : Nat) : Nat := if n = 0x10000 then 0 else if n = 0x200000 then 1 else 2

/-- Translate for a core: through a leaf that its micro-TLB or its cluster's cache still holds, or by a walk, each
choice allowed (R298). A context 0 address is a local physical address (R296). -/
def translate (s : State) (core ctx va : Nat) (acc : Access) : Except Cause Target :=
  if ctx = 0 then
    if isScratch va && !s.ms.wayFor 0 va then .error .protection
    else .ok { pkg := s.pkg, addr := s.ms.forward va, g := false }
  else
    let cached := match cachedLeaf (s.core core).utlb ctx va with
      | some l => some l
      | none => cachedLeaf (kget [] s.ms.clusterTlb (clusterOf core)) ctx va
    let fresh := findLeaf s ctx va
    let use := match cached with
      | some l =>
        let old := (sizeLevel l.size, l.entry.toNat)
        if fresh = some old then fresh
        else if Config.freeBit s.free (1000003 * core + va) then some old else fresh
      | none => fresh
    match use with
    | none => .error .translation
    | some (level, e) => leafTarget s ctx va level e acc

/-- The leaf that a walk from level and entry leaves in a cache. -/
def newLeaf (ctx va level e : Nat) : Leaf :=
  { ctx := ctx, va := va / pageSize level * pageSize level, size := pageSize level, entry := BitVec.ofNat 64 e }

/-- Cache the leaf that a walk found in a cluster's translation cache; the walker reads each entry as an engine does, at its home (R298). -/
def State.fillCluster (s : State) (core ctx va : Nat) : State :=
  match findLeaf s ctx va with
  | none => s
  | some (level, e) =>
    let cache := kget [] s.ms.clusterTlb (clusterOf core)
    if (cachedLeaf cache ctx va).isSome then s
    else
      let root := (kget { valid := false, root := 0, group := 0 } s.ms.contexts ctx).root
      let ms := (walkLines s.ms s.pkg va [4, 3, 2, 1, 0] root).foldl (fun m l => m.engLoad 0 0 l) s.ms
      { s with ms := { ms with clusterTlb := kput ms.clusterTlb (clusterOf core) ((newLeaf ctx va level e :: cache).take 4096) } }

/-- Cache the leaf that a walk found, in the core's micro-TLB and its cluster's translation cache (R298). -/
def State.fillTlb (s : State) (core ctx va : Nat) : State :=
  match findLeaf s ctx va with
  | none => s
  | some (level, e) =>
    let s1 := if (cachedLeaf (s.core core).utlb ctx va).isSome then s
      else s.modCore core fun k => { k.count 12 1 with utlb := (newLeaf ctx va level e :: k.utlb).take 64 }
    s1.fillCluster core ctx va

/-- A cached leaf may leave its translation cache at any time (R298). -/
def MemSys.dropLeaf (ms : MemSys) (cluster pick : Nat) : MemSys :=
  { ms with clusterTlb := ms.clusterTlb.map fun e => if e.1 = cluster then (e.1, e.2.eraseIdx pick) else e }

/-! ### The checks of R155 -/

/-- The agent that makes an access (R154); `matMove` is the source of `mtr`, `matAdd` that of `macc` (R185). -/
inductive Agent | slots | copy | matA | matB | matAcc | matMove | matAdd | parser
  deriving DecidableEq, Repr

/-- Whether an agent may use a space for an access (R154, R173, R185). -/
def mayUse (g : Agent) (acc : Access) : Space → Bool
  | .global _ => match g with | .matAcc | .matMove => false | _ => true
  | .scratch _ => match g with | .matA | .matB | .matAcc | .matMove | .matAdd => false | _ => true
  | .own b _ =>
    match g, b with
    | .slots, .w => acc == .read
    | .slots, _ => true
    | .copy, _ => true
    | .matA, .a => acc == .read
    | .matB, .w => acc == .read
    | .matAcc, .r => true
    | .matMove, .a | .matMove, .r | .matAdd, .a | .matAdd, .r => acc == .read
    | .parser, .a => true
    | _, _ => false
  | .remote b _ _ =>
    match g, b with
    | .slots, .w | .copy, .w => acc == .read
    | .slots, .a | .copy, .a => true
    | .matA, .a | .matAdd, .a => acc == .read
    | .matB, .w => acc == .read
    | _, _ => false

/-- Whether a core runs a task of a context (R155 step 4, R369). -/
def State.runsTask (s : State) (i ctx : Nat) : Bool :=
  let k := s.core i
  !isFw i && k.ctx == ctx && (k.run == .running || k.run == .ending || k.run == .trapped || k.run == .halted) &&
    !(s.hub.absent.contains i)

/-- A failed check: cause and tval. -/
abbrev Failed := Cause × W64

/-- The scratch limit of a core's context in its column. -/
def State.scratchLimit (s : State) (core : Nat) : Nat := s.ms.scratchSize (s.core core).ctx (colOf core)

/-- Step 2 of R155. -/
def checkSpace (s : State) (core : Nat) (a : W64) (n : Nat) : Option Failed :=
  match decodeAddr (s.scratchLimit core) a n with
  | none => some (.addressSpace, a)
  | some _ => none

/-- The space of an address that passed step 2. -/
def State.space (s : State) (core : Nat) (a : W64) (n : Nat) : Space :=
  (decodeAddr (s.scratchLimit core) a n).getD (.global 0)

/-- Step 3 of R155. -/
def checkRight (s : State) (core : Nat) (g : Agent) (acc : Access) (a : W64) (n : Nat) : Option Failed :=
  if mayUse g acc (s.space core a n) then none else some (.bufferRight, a)

/-- Step 4 of R155. -/
def checkPresent (s : State) (core : Nat) (a : W64) (n : Nat) : Option Failed :=
  match s.space core a n with
  | .remote _ m _ => if s.runsTask (peer core m) (s.core core).ctx && !isFw core then none else some (.protection, a)
  | _ => none

/-- Step 5 of R155. -/
def checkAlign (align : Nat) (a : W64) : Option Failed :=
  if a.toNat % align = 0 then none else some (.alignment, a)

/-- The kind code of a buffer in HEADER_LIMIT (R145). -/
def bufKind : Buf → Nat | .w => 7 | .a => 8 | .r => 9

/-- The lowest byte offset of [off, off + n) beyond a declaration (R61). -/
def beyond (h : W64) (b : Buf) (off n : Nat) : Option Nat :=
  let lim := declBanks h b * 1024
  if off + n ≤ lim then none else some (Nat.max off lim)

/-- Step 6 of R155, for the slot index in tval (R61). -/
def checkDecl (s : State) (core slot : Nat) (a : W64) (n : Nat) : Option Failed :=
  let (owner, b, off) : Nat × Buf × Nat := match s.space core a n with
    | .own b off => (core, b, off)
    | .remote b m off => (peer core m, b, off)
    | _ => (core, .w, 0)
  match s.space core a n with
  | .own .. | .remote .. =>
    (beyond ((s.core owner).csrNow 0x060) b off n).map fun o => (.headerLimit, limitTval (bufKind b) o slot)
  | _ => none

/-- Step 7 of R155, and the check of R190 on a scratch offset. -/
def checkTranslate (s : State) (core : Nat) (acc : Access) (a : W64) (n : Nat) : Option Failed :=
  match s.space core a n with
  | .global va =>
    match translate s core (s.core core).ctx va acc with
    | .ok _ => none
    | .error e => some (e, a)
  | _ => none

/-- The checks of R155 after step 1, in order, over all parts of the access, each an address with its length and
alignment: the first check that fails on any part decides, on its first part. -/
def checkEach (s : State) (core slot : Nat) (g : Agent) (acc : Access) (as : List (W64 × Nat × Nat)) : Option Failed :=
  [fun (x : W64 × Nat × Nat) => checkSpace s core x.1 x.2.1, fun x => checkRight s core g acc x.1 x.2.1,
    fun x => checkPresent s core x.1 x.2.1, fun x => checkAlign x.2.2 x.1, fun x => checkDecl s core slot x.1 x.2.1,
    fun x => checkTranslate s core acc x.1 x.2.1].findSome? fun chk => as.findSome? chk

/-- The checks of R155 over addresses of one length and alignment. -/
def checkAll (s : State) (core slot : Nat) (g : Agent) (acc : Access) (align n : Nat) (as : List W64) : Option Failed :=
  checkEach s core slot g acc (as.map fun a => (a, n, align))

/-- Where an address that passed every check lies, and whether a store to it is replicated. -/
def State.placeOf (s : State) (core : Nat) (acc : Access) (a : W64) (n : Nat) : Place × Bool :=
  match s.space core a n with
  | .own b off => (.buf core b off, false)
  | .remote b m off => (.buf (peer core m) b off, false)
  | .scratch off => (.phys (s.ms.scratchPhys (s.core core).ctx (colOf core) off), false)
  | .global va =>
    match translate s core (s.core core).ctx va acc with
    | .ok t => (if t.pkg = s.pkg then .phys t.addr else .far t.pkg t.addr, t.g)
    | .error _ => (.phys 0, false)

/-- Bytes of a typed buffer. -/
def Core.buf (k : Core) : Buf → Memory | .w => k.wbuf | .a => k.abuf | .r => k.rbuf

/-- Replace a typed buffer. -/
def Core.setBuf (k : Core) (b : Buf) (m : Memory) : Core :=
  match b with
  | .w => { k with wbuf := m }
  | .a => { k with abuf := m }
  | .r => { k with rbuf := m }

/-- Read bytes at a place of this package. -/
def State.readPlace (s : State) (p : Place) (n : Nat) : List Byte :=
  match p with
  | .buf i b off => mread ((s.core i).buf b) off n
  | .phys a => s.ms.read a n
  | .far _ _ => List.replicate n 0

/-- Store bytes at a place of this package. -/
def State.writePlace (s : State) (p : Place) (bs : List Byte) : State :=
  match p with
  | .buf i b off => s.modCore i fun k => k.setBuf b (mwrite (k.buf b) off bs)
  | .phys a => { s with ms := s.ms.write a bs }
  | .far _ _ => s

/-- A place further on. -/
def Place.add (p : Place) (n : Nat) : Place :=
  match p with
  | .buf i b off => .buf i b (off + n)
  | .phys a => .phys (a + n)
  | .far k a => .far k (a + n)

end Sys2Proof.Machine
end

