-- ==== Sys2Proof/Machine/Access.lean ====
section
/-!
DEFINITION. How a memory-slot access is performed: typed buffers in bundle order with the choices of R157, global
memory and scratch at the home with its logical times and the load buffer (R202), cluster-remote accesses
through their queues (R158), other packages through the fabric (R204).
-/
namespace Sys2Proof.Machine

/-! ### The other memory slot of the bundle (R157) and stores since the latest sync bundle (R159) -/

/-- How far place `q` lies beyond place `p` in the same memory; `none` in different memories. -/
def Place.minus (q p : Place) : Option Int :=
  match q, p with
  | .buf i b o, .buf j d r => if i = j ∧ b = d then some ((o : Int) - r) else none
  | .phys a, .phys b => some ((a : Int) - b)
  | .far k a, .far l b => if k = l then some ((a : Int) - b) else none
  | _, _ => none

/-- Byte `x` of a word that starts at `e.place`, when it lies in the word. -/
def OldWord.at (e : OldWord) (x : Place) : Option Nat :=
  match x.minus e.place with
  | some d => if 0 ≤ d ∧ d < 4 then some d.toNat else none
  | none => none

/-- Bytes read at a place, with the words that `old` chooses read as they stood before (R157, R159). -/
def withOld (es : List OldWord) (choose : Nat → Bool) (p : Place) (bs : List Byte) : List Byte :=
  bs.mapIdx fun i b =>
    match es.findIdx? fun e => (e.at (p.add i)).isSome with
    | none => b
    | some ix =>
      if choose ix then
        match es[ix]? with
        | some e => e.old.getD ((e.at (p.add i)).getD 0) b
        | none => b
      else b

/-- The place that is `o` rounded down to a multiple of `n` in the place's memory. -/
def Place.floor (p : Place) (n : Nat) : Place :=
  match p with
  | .buf i b o => .buf i b (o / n * n)
  | .phys a => .phys (a / n * n)
  | .far k a => .far k (a / n * n)

/-- The word-aligned place that holds a place. -/
def Place.word (p : Place) : Place := p.floor 4

/-- The offset of a place in its word. -/
def Place.inWord (p : Place) : Nat :=
  match p with
  | .buf _ _ o => o % 4
  | .phys a => a % 4
  | .far _ a => a % 4

/-- The words of `n` bytes at `p`, given the bytes that stand there from the first word on. -/
def oldWords (p : Place) (n : Nat) (now : List Byte) : List OldWord :=
  (List.range ((p.inWord + n + 3) / 4)).map fun i =>
    let lo := if i = 0 then p.inWord else 0
    let hi := Nat.min 4 (p.inWord + n - 4 * i)
    { place := p.word.add (4 * i), old := (now.drop (4 * i)).take 4, mask := 2 ^ hi - 2 ^ lo }

/-- The words that a store of `n` bytes at `p` changes, as they stand. -/
def State.wordsAt (s : State) (p : Place) (n : Nat) : List OldWord :=
  oldWords p n (s.readPlace p.word ((p.inWord + n + 3) / 4 * 4))

/-- Add words that are not listed yet. -/
def addWords (es new : List OldWord) : List OldWord :=
  es ++ new.filter fun e => !(es.any fun x => x.place == e.place)

/-- The choice of R157 for the cursor's slot on a word of the other memory slot. An access within one aligned 8-byte unit
(`whole`) makes one choice for all the words of another such access (R170). -/
def mwChoice (s : State) (c : Cursor) (whole : Bool) (kind ix : Nat) : Bool :=
  let one := whole && ((c.mw[ix]?).map fun e => bits e.mask 5 1 == 1).getD false
  Config.freeBit s.free (freeKey c kind 0 (if one then 0 else ix + 1))

/-- Bytes at a place of this package as the cursor's memory slot reads them beside the other slot's stores (R156, R157). -/
def State.readSlot (s : State) (c : Cursor) (whole : Bool) (p : Place) (n : Nat) : List Byte :=
  withOld c.mw (mwChoice s c whole 6) p (s.readPlace p n)

/-- The bytes that a store leaves: where the other slot's store to a word prevails, its bytes stay (R157). What an atomic of the
other slot left comes before this store. -/
def State.mergeSlot (s : State) (c : Cursor) (whole : Bool) (p : Place) (bs : List Byte) : List Byte :=
  bs.mapIdx fun i b =>
    match c.mw.findIdx? fun e => (e.at (p.add i)).isSome with
    | none => b
    | some ix =>
      match c.mw[ix]? with
      | some e =>
        let o := (e.at (p.add i)).getD 0
        if bits e.mask 4 1 = 0 ∧ bits e.mask o 1 = 1 ∧ mwChoice s c whole 7 ix = true then (s.readPlace (p.add i) 1).getD 0 b else b
      | none => b

/-- Put an atomic's bytes into the words as they stood before the other slot's store. -/
def OldWord.put (e : OldWord) (p : Place) (bs : List Byte) : OldWord :=
  { e with old := e.old.mapIdx fun j x =>
      match (e.place.add j).minus p with
      | some d => if 0 ≤ d ∧ d < bs.length then bs.getD d.toNat x else x
      | none => x }

/-- A store that comes after engine operations' writes to a core's typed buffer is seen with either contents of its words; a word that it
stores whole offers the choice of R159 no longer. -/
def State.forget (s : State) (p : Place) (bs : List Byte) : State :=
  match p with
  | .buf i _ _ =>
    if (s.core i).hist.isEmpty then s
    else
      let covered (e : OldWord) : Bool := (List.range 4).all fun j => match (e.place.add j).minus p with
        | some d => decide (0 ≤ d) && decide (d < (bs.length : Int))
        | none => false
      s.modCore i fun k =>
        { k with hist := (k.hist.filter fun h => !covered h.word).map fun h => { h with word := h.word.put p bs } }
  | _ => s

/-- Keep the words that the cursor's store changes for the other memory slot (R157) and for engine operations (R159). `whole` says that
the access lies in one aligned 8-byte unit (R170). -/
def State.noteStore (s : State) (c : Cursor) (whole : Bool) (words : List OldWord) : State :=
  { s.modCore c.core fun k => { k with recent := addWords k.recent words } with
    cur := s.cur.map fun d => { d with mw := addWords d.mw (words.map fun e => if whole then { e with mask := e.mask + 32 } else e) } }

/-- Store bytes for the cursor's memory slot in an own typed buffer, keeping what the words held before. -/
def State.writeSlot (s : State) (c : Cursor) (whole : Bool) (p : Place) (bs : List Byte) : State :=
  ((s.writePlace p (s.mergeSlot c whole p bs)).noteStore c whole (s.wordsAt p bs.length)).forget p bs

/-- Bytes of an own typed buffer as they may stand for a reader that is not bound to see some engine operations' writes: per aligned
word the present contents, or those before one of these writes (R159). `pick` chooses for a word. -/
def withHist (hs : List OldEng) (pick : Nat → Nat) (p : Place) (bs : List Byte) : List Byte :=
  bs.mapIdx fun i b =>
    let x := p.add i
    let mine := hs.filter fun h => (h.word.at x).isSome
    match mine[pick ((match x with | .buf _ _ o => o | .phys o => o | .far _ o => o) / 4) % (mine.length + 1)]? with
    | some h => h.word.old.getD ((h.word.at x).getD 0) b
    | none => b

/-- Bytes of an own typed buffer as a memory-slot load reads them (R156, R157, R159). -/
def State.loadOwn (s : State) (c : Cursor) (whole : Bool) (p : Place) (n : Nat) : List Byte :=
  let hs := (s.core c.core).hist
  let bs := s.readPlace p n
  withOld c.mw (mwChoice s c whole 6) p
    (if hs.isEmpty then bs else withHist hs (fun w => Config.freeNat s.free (freeKey c 10 0 w)) p bs)

/-! ### Ordinary accesses at the home (R201 to R203) -/

/-- The lease of a core (R202). -/
def Core.lease (k : Core) : Nat := (k.csrNow 0x049).toNat

/-- The time that a core's accesses have come to: its clock, and the times of its stores that are not acknowledged (R201, R202). -/
def Core.accessTime (k : Core) : Nat := k.outs.foldl (fun t o => Nat.max t o.time) k.ltime

/-- A load at the home: the line's read lease is renewed, the core's clock rises to the line's write time, and the
line may come into the near tier, as R189 leaves open (R202). -/
def State.homeLoad (s : State) (core p : Nat) : State :=
  let l := p / 64
  let k := s.core core
  let ms := if Config.freeBit s.free (7 * l + 1) then s.ms.hold l else s.ms
  let t := ms.time l
  let rts := Nat.max t.2 (Nat.max (t.1 + k.lease) (k.accessTime + k.lease))
  { s with ms := ms.setTime l (t.1, rts) }.modCore core fun k => k.raise t.1

/-- A store at the home: its time exceeds every read lease of the line, and no earlier access of the core is later (R201, R202). -/
def State.homeStore (s : State) (core p : Nat) (bs : List Byte) : State × Nat :=
  let l := p / 64
  let ms := s.ms.hold l
  let t := Nat.max (s.core core).accessTime ((ms.time l).2 + 1)
  ({ s with ms := (ms.setTime l (t, t)).write p bs }.modCore core fun k =>
    { k with loadBuf := k.loadBuf.filter fun e => e.key ≠ l }, t)

/-- Put a line into the load buffer; a full one replaces any of its entries (R202). -/
def Core.fillBuf (k : Core) (pick : Nat) (e : CacheLine) : Core :=
  let rest := k.loadBuf.filter fun x => x.key ≠ e.key
  { k with loadBuf := e :: (if rest.length < 32 then rest else rest.eraseIdx (pick % 32)) }

/-- Whether a global store or atomic of the core in an earlier bundle than `m` is not acknowledged (R202). -/
def Core.storesOpen (k : Core) (m : Nat) : Bool :=
  k.outs.any fun o => o.stPend && decide (o.bundle < m) && o.parts.any fun p =>
    match p.place with | .phys _ | .far _ _ => true | .buf .. => false

/-- A load of this package's memory by a memory slot (R202): from the load buffer where it holds the line, has not
lost it and the lease covers the clock, else at the home; with lease 0 every load renews at the home. `none` blocks the M class,
unless it may not `wait`. -/
def State.bufferLoad (s : State) (c : Cursor) (whole wait : Bool) (p n : Nat) : Option (List Byte × State) :=
  let l := p / 64
  let k := s.core c.core
  let hit := k.loadBuf.find? fun e => e.key == l && decide (k.ltime ≤ e.rts) && k.lease != 0
  match hit with
  | some e =>
    if Config.freeBit s.free (7 * l + 2) && (wait || !k.storesOpen c.bn) then
      if k.storesOpen c.bn then none
      else some ((e.data.drop (p % 64)).take n, s.modCore c.core fun k => k.raise e.wts)
    else home l k
  | none => home l k
where
  /-- A renewal at the home. -/
  home (l : Nat) (k : Core) : Option (List Byte × State) :=
    let s1 := s.homeLoad c.core p
    let line : CacheLine :=
      { key := l, data := s.ms.line l, wts := (s1.ms.time l).1, rts := k.accessTime + k.lease }
    some (s.readSlot c whole (.phys p) n,
      s1.modCore c.core fun k => (k.count 11 1).fillBuf (Config.freeNat s.free (7 * l + 3)) line)

/-! ### Outstanding accesses (R301) -/

/-- The ld counter. -/
def Core.ld (k : Core) : Nat := (k.outs.filter fun o => o.ldPend).length
/-- The st counter. -/
def Core.st (k : Core) : Nat := (k.outs.filter fun o => o.stPend).length

/-- The value of a scalar load: extended from its bytes (R161). -/
def extend (sx : Bool) (bs : List Byte) : W64 :=
  if sx then sext64 (8 * bs.length) (leNat bs) else BitVec.ofNat 64 (leNat bs)

/-- The lane writes of one cluster from as many data items as it has lanes, and the rest of the data. -/
def laneData : List Nat → List (List Byte) → List (Nat × W32) × List (List Byte)
  | [], ds => ([], ds)
  | _ :: _, [] => ([], [])
  | i :: is, d :: ds =>
    let (ws, rest) := laneData is ds
    ((i, BitVec.ofNat 32 (leNat d)) :: ws, rest)

/-- The vector writes of a load, cluster by cluster. -/
def clusterWrites (vd : Nat) : List (Nat × List Nat × Bool) → List (List Byte) → List WriteTo
  | [], _ => []
  | (cl, lanes, df) :: rest, ds =>
    let (ws, more) := laneData lanes ds
    .vector cl vd ws df :: clusterWrites vd rest more

/-- The register writes of a load from its parts' data (R162 to R164). -/
def LoadDest.writes (d : LoadDest) (ds : List (List Byte)) : List WriteTo :=
  match d with
  | .none => []
  | .fixed ws => ws
  | .scalar r sx => [.scalar r (extend sx (ds.headD [])) false]
  | .vector vd lanes zeros =>
    clusterWrites vd lanes ds ++ zeros.map fun z => .vector z.1 vd (z.2.map fun i => (i, 0)) true

/-- How an access reaches its memory. -/
inductive Via | own | net (dst : Nat) | home | fabric (pkg : Nat)
  deriving DecidableEq, Repr

/-- The way of an access to a place; tag 0xB counts as remote even for the core itself (R153). -/
def viaOf (sp : Space) (p : Place) : Via :=
  match sp, p with
  | .remote .., .buf i _ _ => .net i
  | _, .buf .. => .own
  | _, .phys _ => .home
  | _, .far k _ => .fabric k

/-- The piece that an address names. -/
def State.piece (s : State) (core : Nat) (acc : Access) (n : Nat) (a : W64) : Piece :=
  let p := s.placeOf core acc a n
  { sp := s.space core a n, place := p.1, g := p.2 }

/-- Free bytes where an engine reads what is not in the model's state: control space at no named register, or another package
(log 12, log 21). -/
def State.unknown (s : State) (a n : Nat) : List Byte := (List.range n).map fun i => Config.freeByte s.free (a + i)

/-- Whether a piece is an own typed-buffer access, which no counter counts (R301). -/
def Piece.isOwn (p : Piece) : Bool := viaOf p.sp p.place == .own

/-- A packet for the cluster network; one for a task that stands in its save area is held (R369, log 20). -/
def State.sendNet (s : State) (src dst : Nat) (i : NetItem) : State :=
  { s with net := s.net ++ [{ src := src, dst := dst, item := i, after := [], held := decide (65536 ≤ dst) }] }

/-- A packet for the fabric (R204, R260): channel 0 requests, 1 responses. -/
def State.sendFabric (s : State) (pkg ch : Nat) (i : FabricItem) : State :=
  { s with fabricOut := s.fabricOut ++ [{ pkg := pkg, channel := ch, item := i }] }

/-- Packages of the issuing package's group: its group registers' valid members (R205, R294). -/
def State.groupMembers (s : State) : List Nat :=
  (List.range 16).filterMap fun i =>
    let w := kget 0 s.rt.groupRegs (i + 1)
    if bits w.toNat 15 1 = 1 then some (bits w.toNat 0 14) else none

/-- The packages of the other members, in ascending rank order: port 2j and port 2j + 1 join this package to the j-th (R13, R294). -/
def State.peers (s : State) : List Nat :=
  let own := bits (kget 0 s.rt.groupRegs 0).toNat 16 4
  (List.range 16).filterMap fun i =>
    let w := (kget 0 s.rt.groupRegs (i + 1)).toNat
    if bits w 15 1 = 1 ∧ i ≠ own then some (bits w 0 14) else none

/-- Where a fabric port leads: to a peer's package, or, as 16,384 + p, to a domain switch by up-port p; an idle port leads nowhere. In a
full group ports 30 to 35 are up-ports; in a smaller one a port beyond the last peer is what its group register says (R13, R294). -/
def State.portTo (s : State) (p : Nat) : Option Nat :=
  match s.peers[p / 2]? with
  | some k => some k
  | none =>
    let r := (kget 0 s.rt.groupRegs (17 + p)).toNat
    if 15 ≤ s.peers.length ∨ bits r 0 2 = 2 then some (16384 + p) else none

/-- The switch sends a packet of a group on the egress ports of the group's entry, but not on the port it came by; an idle port sends
nothing (R13, R295). -/
def State.forward (s : State) (group : Nat) (came : Option Nat) (origin addr : Nat) (bs : List Byte) : State :=
  let e := (kget 0 s.rt.groupTable group).toNat
  ((List.range 36).filter fun p => bits e p 1 == 1 && some p != came).foldl
    (fun s p => match s.portTo p with
      | some k => s.sendFabric k 0 (.group group p origin addr bs)
      | none => s) s

/-- Send the copies of a write to a G page of a context (R295). -/
def State.replicate (s : State) (ctx addr : Nat) (bs : List Byte) : State :=
  s.forward (kget { valid := false, root := 0, group := 0 } s.ms.contexts ctx).group none s.pkg addr bs

/-- F of R165 on values of `w` bits. -/
def amoValue (f : AmoOp) (w x b : Nat) : Nat :=
  match f with
  | .add => (x + b) % 2 ^ w
  | .and => x &&& b
  | .or => x ||| b
  | .xor => x ^^^ b
  | .min => if signed w x ≤ signed w b then x else b
  | .max => if signed w b ≤ signed w x then x else b
  | .swap => b

/-- The bytes that a read-modify-write leaves; `none` leaves memory as it is. -/
def Rmw.apply (m : Rmw) (n : Nat) (old : List Byte) : Option (List Byte) :=
  let x := leNat old
  match m with
  | .amo f b => some (leBytes n (amoValue f (8 * n) x (b.toNat % 2 ^ (8 * n))))
  | .cas e v => if x = e.toNat % 2 ^ (8 * n) then some (leBytes n (v.toNat % 2 ^ (8 * n))) else none

/-- Whether the atomic at the cursor comes before the other memory slot's store to a word that both touch (R157): one
choice for the whole atomic. A word that an atomic of the other slot changed offers no choice. -/
def firstOnWord (s : State) (c : Cursor) (p : Place) (n : Nat) : Bool :=
  match c.mw.findIdx? fun e => bits e.mask 4 1 == 0 && (List.range n).any fun i => (e.at (p.add i)).isSome with
  | some ix => mwChoice s c true 6 ix
  | none => false

/-- The words as the other slot's store found them, with what earlier lanes of this atomic left (R166). -/
def State.wordsBefore (s : State) (c : Cursor) : List OldWord :=
  match s.cur with
  | some d => (d.mw.take c.mw.length).filter fun e => bits e.mask 4 1 == 0
  | none => []

/-- Bytes as an atomic reads them; `first` says that it comes before the other slot's store. -/
def State.rmwRead (s : State) (c : Cursor) (first : Bool) (p : Place) (n : Nat) : List Byte :=
  if first then withOld (s.wordsBefore c) (fun _ => true) p (s.readPlace p n) else s.readPlace p n

/-- The bytes that an atomic's write leaves: where the other slot's store comes later, that store's bytes stay. -/
def State.rmwMerge (s : State) (c : Cursor) (first : Bool) (p : Place) (bs : List Byte) : List Byte :=
  if first then
    bs.mapIdx fun i b =>
      match (s.wordsBefore c).find? fun e => (e.at (p.add i)).isSome with
      | none => b
      | some e =>
        if bits e.mask ((e.at (p.add i)).getD 0) 1 = 1 then (s.readPlace (p.add i) 1).getD 0 b else b
  else bs

/-- Keep what an atomic did for the other memory slot's choices (R157) and for R159. -/
def State.noteRmw (s : State) (c : Cursor) (first : Bool) (words : List OldWord) (p : Place) (bs : List Byte) : State :=
  let marked := words.map fun e => { e with mask := e.mask % 16 + 48 }
  { s.modCore c.core fun k => { k with recent := addWords k.recent words } with
    cur := s.cur.map fun d =>
      { d with mw := addWords (if first then d.mw.map fun e => e.put p bs else d.mw) marked } }


/-! ### Control space as a firmware access reaches it -/

/-- LMODE of a column, TDISP of a core, a window register (R187, R327, R348): the register that holds a control-space
address, with its own address and size. -/
inductive CtlReg | lmode (col : Nat) | tdisp (core : Nat) | window (i : Nat)
  deriving DecidableEq, Repr

/-- The control-space register at an address, if the spec names one there. -/
def ctlReg (p : Nat) : Option (CtlReg × Nat × Nat) :=
  let lm := (p - 0x60000000000) / 0x100000
  let td := (p - 0x60040000000) / 0x40
  let wi := (p - 0x60080000000) / 8
  if 0x60080000000 ≤ p ∧ wi < 16 then some (.window wi, 0x60080000000 + 8 * wi, 8)
  else if 0x60040000000 ≤ p ∧ td < 2048 ∧ p < 0x60040000000 + td * 0x40 + 8 then
    some (.tdisp td, 0x60040000000 + td * 0x40, 8)
  else if lm < 8 ∧ 0x60000000000 + lm * 0x100000 + 0x100 ≤ p ∧ p < 0x60000000000 + lm * 0x100000 + 0x104 then
    some (.lmode lm, 0x60000000000 + lm * 0x100000 + 0x100, 4)
  else none

/-- The value of a control-space register. TDISP states no value for a read: its action field is free. -/
def State.ctlValue (s : State) : CtlReg → Nat
  | .lmode c => kget 0 s.ms.lmode c
  | .tdisp k => Config.freeNat s.free (11 * k + 5) % 4
  | .window i => (kget 0 s.sec.windows i).toNat

/-- The bytes that a read at a control-space address returns: of the register there, where the spec names one; else a register that
the spec describes at no address, or the host window, whose bytes are free (R347, R348; log 21). -/
def State.ctlRead (s : State) (p n : Nat) : List Byte :=
  (List.range n).map fun i => match ctlReg (p + i) with
    | some (r, base, len) => (leBytes len (s.ctlValue r)).getD (p + i - base) 0
    | none => Config.freeByte s.free (p + i)

/-- The event that a write to a control-space register makes (R192, R327, R348). -/
def ctlEvent (r : CtlReg) (v : Nat) : List Instr :=
  match r with
  | .lmode c => [.lmodeWrite c (bits v 0 1 == 1)]
  | .tdisp k =>
    match bits v 0 2 with
    | 0 => [.tdispResume k] | 1 => [.tdispHandler k] | 2 => [.tdispEnd k] | _ => []
  | .window i => [.controlSpaceWrite (.window i (BitVec.ofNat 64 v))]

/-- A store to a control-space address: a write of the bytes of the register there, where the spec names one; LMODE and TDISP act by their lowest byte. What a store
elsewhere writes is a step of its own that may come at any time (log 21). -/
def State.ctlWrite (s : State) (p : Nat) (bs : List Byte) : State :=
  match ctlReg p with
  | some (r, base, len) =>
    let old := leBytes len (s.ctlValue r)
    if p = base ∨ r matches .window _ then
      { s with agenda := s.agenda ++ ctlEvent r (leNat ((old.take (p - base) ++ bs ++ old.drop (p - base + bs.length)).take len)) }
    else s
  | none => s

/-! ### Performing an access piece by piece -/

/-- The running result of an access's pieces: the state, the access with its parts, and whether a piece must wait for the load
buffer (R202). -/
structure Run1 where
  st : State
  o : Outstanding
  held : Bool
  deriving DecidableEq, Repr

/-- Part `i` of an access has been performed, with the bytes it read or stored. -/
def Outstanding.perform (o : Outstanding) (i : Nat) (bs : List Byte) : Outstanding :=
  { o with parts := o.parts.modify i fun p => { p with done := true, data := bs } }

/-- A part is performed. -/
def Run1.done (r : Run1) (s : State) (i : Nat) (bs : List Byte) (t : Nat) : Run1 :=
  { r with st := s, o := { r.o.perform i bs with time := Nat.max r.o.time t } }

/-- Load a piece: at the own buffer port, at the home, or through its queue. -/
def performLoad (c : Cursor) (whole wait home : Bool) (r : Run1) (t : Todo) : Run1 :=
  match viaOf t.piece.sp t.piece.place, t.piece.place with
  | .own, q => r.done r.st t.ix (r.st.loadOwn c whole q t.n) 0
  | .home, .phys a =>
    if isControl a then r.done r.st t.ix (r.st.ctlRead a t.n) 0
    else if home then r.done (r.st.homeLoad c.core a) t.ix (r.st.readSlot c whole (.phys a) t.n) 0
    else match r.st.bufferLoad c whole wait a t.n with
      | some (bs, s1) => r.done s1 t.ix bs 0
      | none => { r with held := true }
  | .net dst, _ => { r with st := r.st.sendNet c.core dst (.load r.o.id t.ix) }
  | .fabric k, .far _ a => { r with st := r.st.sendFabric k 0 (.access c.core r.o.id (.load a t.n r.o.id)) }
  | _, _ => r

/-- Store a piece's bytes. -/
def performStore (c : Cursor) (whole : Bool) (bs : List Byte) (r : Run1) (t : Todo) : Run1 :=
  match viaOf t.piece.sp t.piece.place, t.piece.place with
  | .own, q => r.done (r.st.writeSlot c whole q bs) t.ix bs 0
  | .home, .phys a =>
    if isControl a then r.done (r.st.ctlWrite a bs) t.ix bs 0
    else
      let words := r.st.wordsAt (.phys a) bs.length
      let (s1, u) := r.st.homeStore c.core a (r.st.mergeSlot c whole (.phys a) bs)
      let s2 := s1.noteStore c whole words
      let s3 := if t.piece.g then s2.replicate (s2.core c.core).ctx a bs else s2
      r.done s3 t.ix bs u
  | .net dst, _ => { r with st := r.st.sendNet c.core dst (.store r.o.id t.ix) }
  | .fabric k, .far _ a =>
    let s1 := r.st.sendFabric k 0 (.access c.core r.o.id (.store a bs r.o.id))
    { r with st := if t.piece.g then s1.replicate (s1.core c.core).ctx a bs else s1 }
  | _, _ => r

/-- Perform an atomic piece (R165): at the buffer port, at the home, or by its queue. -/
def performRmw (c : Cursor) (m : Rmw) (r : Run1) (t : Todo) : Run1 :=
  match viaOf t.piece.sp t.piece.place, t.piece.place with
  | .own, q =>
    let first := firstOnWord r.st c q t.n
    let old := r.st.rmwRead c first q t.n
    let s1 := match m.apply t.n old with
      | some new =>
        ((r.st.writePlace q (r.st.rmwMerge c first q new)).noteRmw c first (r.st.wordsAt q t.n) q new).forget q new
      | none => r.st
    r.done s1 t.ix old 0
  | .home, .phys a =>
    if isControl a then r.done r.st t.ix (r.st.ctlRead a t.n) 0
    else
      let first := firstOnWord r.st c (.phys a) t.n
      let old := r.st.rmwRead c first (.phys a) t.n
      let s1 := r.st.homeLoad c.core a
      match m.apply t.n old with
      | some new =>
        let (s2, u) := s1.homeStore c.core a (s1.rmwMerge c first (.phys a) new)
        r.done (s2.noteRmw c first (s1.wordsAt (.phys a) t.n) (.phys a) new) t.ix old u
      | none => r.done s1 t.ix old 0
  | .net dst, _ =>
    let item : NetItem := match m with
      | .amo f b => .amo r.o.id t.ix (t.n == 8) f b
      | .cas e v => .cas r.o.id t.ix (t.n == 8) e v
    { r with st := r.st.sendNet c.core dst item }
  | .fabric k, .far _ a =>
    let acc : RemoteAccess := match m with
      | .amo f b => .amo a f (t.n == 8) b r.o.id
      | .cas e v => .cas a (t.n == 8) e v r.o.id
    { r with st := r.st.sendFabric k 0 (.access c.core r.o.id acc) }
  | _, _ => r

/-- Perform one piece, unless an earlier one of the access must wait. -/
def performPiece (c : Cursor) (whole wait : Bool) (r : Run1) (t : Todo) : Run1 :=
  if r.held then r
  else match t.op with
    | .load home => performLoad c whole wait home r t
    | .store bs => performStore c whole bs r t
    | .rmw m => performRmw c m r t

/-- The address of a space (R153). -/
def Space.addr : Space → W64
  | .global va => BitVec.ofNat 64 va
  | .own b off => BitVec.ofNat 64 ((match b with | .w => 8 | .a => 9 | .r => 10) * 2 ^ 60 + off)
  | .remote b n off => BitVec.ofNat 64 (0xB * 2 ^ 60 + (match b with | .w => 0 | .a => 1 | .r => 2) * 2 ^ 58 + n * 2 ^ 51 + off)
  | .scratch off => BitVec.ofNat 64 (0xC * 2 ^ 60 + off)

/-- The part of an access that a piece is, before it is performed. -/
def Todo.part (t : Todo) : Part :=
  { addr := t.piece.sp.addr, place := t.piece.place, g := t.piece.g, n := t.n, done := false, data := match t.op with | .store bs => bs | _ => [] }

/-- Whether pieces lie in one aligned 8-byte unit, so that the access is made at one instant (R170). -/
def oneUnit (ts : List Todo) : Bool :=
  match ts with
  | [] => true
  | t :: rest => rest.all fun u => u.piece.place.floor 8 == t.piece.place.floor 8

/-- Whether a piece comes after another one in one order: both in this package's order of memory (R201), both in the queue to one
other package (R204), or both in the typed buffers of one core (R156, R158). -/
def Todo.orderedWith (t u : Todo) : Bool :=
  match t.piece.place, u.piece.place with
  | .phys _, .phys _ => true
  | .far i _, .far k _ => i == k
  | .buf i .., .buf k .. => i == k
  | _, _ => false

/-- Whether a piece of an access in bundle `m` must wait behind the pieces that accesses of earlier bundles have still to make. -/
def Core.behind (k : Core) (m : Nat) (t : Todo) : Bool :=
  k.late.any fun w => decide (w.cur.bn < m) && w.todo.any t.orderedWith

/-- The pieces of an access that are made at its dispatch, and those left for later: all of an unsent release (R206), those behind an
earlier release (R201, R204), those behind a version read that is left (R318), and, of a wide access, those that a free choice leaves, with the later pieces on their words
(R163, R166, R170). -/
def leavePieces (s : State) (c : Cursor) (o : Outstanding) (ts : List Todo) : List Todo × List Todo :=
  let k := s.core c.core
  let wide := c.split && !oneUnit ts
  ts.foldl (fun (x : List Todo × List Todo) t =>
    if !o.rel.isEmpty || k.behind c.bn t || (o.ver.isSome && !x.2.isEmpty) || (wide && Config.freeBit s.free (freeKey c 11 0 t.ix)) ||
        x.2.any fun u => u.piece.place.word == t.piece.place.word then (x.1, x.2 ++ [t])
    else (x.1 ++ [t], x.2)) ([], [])

/-- Enter an access in the core's list of outstanding accesses, in the order of bundles and slots (R303). -/
def State.addOut (s : State) (core : Nat) (o : Outstanding) : State :=
  s.modCore core fun k =>
    let after (x : Outstanding) : Bool := x.bundle == o.bundle && decide (o.slot.index < x.slot.index)
    let up (on : Bool) (n : Option Nat) : Option Nat := if on then n.map (· + 1) else n
    let before := k.outs.filter fun x => !after x
    let behind := k.outs.filter after
    let num (next : Nat) (f : Outstanding → Option Nat) : Nat := next - (behind.filter fun x => (f x).isSome).length
    { k with
      outs := before ++ [{ o with
          no := k.outNext - behind.length
          ldNo := if o.ldPend then some (num k.ldNext fun x => x.ldNo) else none
          stNo := if o.stPend then some (num k.stNext fun x => x.stNo) else none }] ++
        behind.map fun x => { x with no := x.no + 1, ldNo := up o.ldPend x.ldNo, stNo := up o.stPend x.stNo }
      outNext := k.outNext + 1
      ldNext := k.ldNext + if o.ldPend then 1 else 0
      stNext := k.stNext + if o.stPend then 1 else 0 }

/-- An access in the making at the cursor. -/
def newOut (s : State) (c : Cursor) : Outstanding :=
  { id := (s.core c.core).outNext, no := 0, ldNo := none, stNo := none, bundle := c.bn, slot := c.slot, ldPend := false,
    stPend := false, parts := [], dest := .none, ver := none, spec := false, acq := none, trap := none, time := 0, handle := none,
    scope := none, rel := [] }

/-- Whether a counter would rise above 256 (R301). -/
def countersFull (s : State) (c : Cursor) (ld st : Bool) : Bool :=
  (ld && decide (256 ≤ (s.core c.core).ld)) || (st && decide (256 ≤ (s.core c.core).st))

/-- Cache the leaves of the global addresses of an access (R298). -/
def State.fillFor (s : State) (core n : Nat) (as : List W64) : State :=
  as.foldl (fun s a => match s.space core a n with
    | .global va => s.fillTlb core (s.core core).ctx va
    | _ => s) s

/-- Whether an access stays within the core's own typed buffers, where no counter counts it (R301). Grid reads and deferred results of
global addresses count (R164, R220). -/
def ownOnly (o : Outstanding) (ts : List Todo) : Bool :=
  o.handle.isNone && (match o.dest with | .fixed _ => false | _ => true) && ts.all fun t => t.piece.isOwn

/-- Whether a scope empties the load buffer (R206, R207). -/
def scopeEmpties : Scope → Bool | .grp | .dom => true | .core | .clu | .col | .pkg => false

/-- Whether a scope's row names a part of a store or atomic (R205); the copies of a replicated store are posted stores to packages of the
group (R295). -/
def rowNames (s : State) (sc : Scope) (p : Part) : Bool :=
  match sc, p.place with
  | .core, _ => false
  | _, .buf .. => true
  | .grp, .far k _ => p.g || s.groupMembers.contains k
  | .dom, .far _ _ => true
  | .grp, .phys _ | .dom, .phys _ => p.g
  | _, _ => false

/-- The unacknowledged stores and atomics that a scope's row names, in bundles before `m` (R205). -/
def State.rowOf (s : State) (core m : Nat) (sc : Scope) : List Nat :=
  ((s.core core).outs.filter fun o =>
    o.stPend && decide (o.bundle < m) && o.parts.any (rowNames s sc)).map fun o => o.id

/-- Why the M class cannot dispatch an access now: an acquire of an earlier bundle whose value has not returned (R206), or a counter
that would rise above 256 (R301). -/
def blockedAccess (s : State) (c : Cursor) (own : Bool) (o : Outstanding) : Hold :=
  if (s.core c.core).outs.any fun x => x.ldPend && x.acq.isSome && decide (x.bundle < c.bn) then .acquire
  else if !own && countersFull s c o.ldPend o.stPend then .counter
  else .none

/-- A piece whose way a migration has moved meanwhile (R330). -/
def Piece.forward (p : Piece) (ms : MemSys) : Piece :=
  { p with place := match p.place with | .phys a => .phys (ms.forward a) | q => q }

/-- Dispatch an access in the M class: its pieces are performed, or left for later. On own typed buffers a load writes its destination
with L = 6 (R156); anything else raises its counters (R160, R301). A hold says why the class is blocked. -/
def State.dispatchAccess (s : State) (c : Cursor) (o : Outstanding) (ts0 : List Todo) : Hold × State :=
  let ts := ts0.map fun t => { t with piece := t.piece.forward s.ms }
  let own := ownOnly o ts
  let why := if ts.any fun t => s.ms.moving t.piece.place then .moving else blockedAccess s c own o
  if why ≠ .none then (why, s)
  else
    let o1 : Outstanding :=
      { o with
        id := (s.core c.core).outNext
        parts := ts.map Todo.part
        ldPend := o.ldPend && !own
        stPend := o.stPend && !own
        rel := match o.scope with | some sc => s.rowOf c.core c.bn sc | none => [] }
    let (now, left) := leavePieces s c o1 ts
    let r := now.foldl (performPiece c (oneUnit ts) true) { st := s, o := o1, held := false }
    if r.held then (.loadBuffer, s)
    else if own && left.isEmpty then (.none, r.st.puts c 6 (o.dest.writes (r.o.parts.map fun p => p.data)))
    else
      let s1 := if own then r.st else r.st.addOut c.core r.o
      (.none, if left.isEmpty then s1
        else s1.modCore c.core fun k => { k with late := k.late ++ [{ cur := { c with mw := [] }, o := r.o, todo := left }] })

/-- The operation at the cursor stays behind the other classes, blocked by `why` or by choice (R95). -/
def State.slip (s : State) (c : Cursor) (op : Slipped) (why : Hold := .none) : State :=
  s.modCore c.core fun k => { k with slips := k.slips ++ [{ cls := c.slot.cls, cur := c, op := op, why := why }] }

/-- Whether a class of a core has operations that it still has to dispatch. -/
def Core.lags (k : Core) (cls : Class) : Bool := k.slips.any fun x => x.cls == cls

/-- Whether the class of the operation at the cursor has operations of earlier bundles that it still has to dispatch. -/
def Core.lagsBefore (k : Core) (c : Cursor) : Bool := k.slips.any fun x => x.cls == c.slot.cls && decide (x.cur.bn < c.bn)

/-- Whether the memory slot at the cursor dispatches with its bundle or holds it: one of a firmware core, and one that is tried again (log 7). -/
def Cursor.atOnce (c : Cursor) : Bool := c.whole || (isFw c.core && c.slot.cls == .m)

/-- A class that cannot dispatch the operation at the cursor: the operation stays behind the other classes (R95), or its bundle is held
(log 7). -/
def slipOr (s : State) (c : Cursor) (h : Hold) (op : Slipped) : Res :=
  if c.atOnce then holdAt s c h else .next (s.slip c op (if (s.core c.core).lags c.slot.cls then .none else h))

/-- A checked access of a memory slot (R156 to R166): dispatched in the M class, or left behind the other classes, to be checked again when
it dispatches (R155). -/
def accessOp (s : State) (c : Cursor) (o : Outstanding) (ts : List Todo) : Res :=
  if !c.atOnce && (c.lag || (s.core c.core).lags .m) then .next (s.slip c (.access c.op o.dest))
  else match s.dispatchAccess c o ts with
    | (.none, t) => .next t
    | (h, _) => slipOr s c h (.access c.op o.dest)

/-- The pieces of a load of `n` bytes at each address; `home` keeps them out of the load buffer. -/
def State.loads (s : State) (core n : Nat) (home : Bool) (as : List W64) : List Todo :=
  as.mapIdx fun i a => { ix := i, n := n, piece := s.piece core .read n a, op := .load home }

/-- A load of `n` bytes at each address, checked (R156, R160, R301). `o` carries what the access is besides. -/
def finishLoad (s : State) (c : Cursor) (n : Nat) (as : List W64) (o : Outstanding) : Res :=
  accessOp (s.fillFor c.core n as) c { o with ldPend := true } (s.loads c.core n false as)

/-- A store of bytes at each address, checked (R156, R160, R301). -/
def finishStore (s : State) (c : Cursor) (n : Nat) (as : List (W64 × List Byte)) (o : Outstanding) : Res :=
  accessOp (s.fillFor c.core n (as.map (·.1))) c { o with stPend := true }
    (as.mapIdx fun i a => { ix := i, n := n, piece := s.piece c.core .write n a.1, op := .store a.2 })

/-- Atomics of `n` bytes at each address, checked: both counters rise unless every one is on an own typed buffer
(R165). -/
def finishRmw (s : State) (c : Cursor) (n : Nat) (as : List (W64 × Rmw)) (o : Outstanding) : Res :=
  accessOp (s.fillFor c.core n (as.map (·.1))) c { o with ldPend := true, stPend := true }
    (as.mapIdx fun i a => { ix := i, n := n, piece := s.piece c.core .atomic n a.1, op := .rmw a.2 })

/-! ### The pieces that are left (R166, R170, R206) -/

/-- Whether a piece of an access left for later may be made now: its own release waits for nothing more, and no access of an earlier
bundle in `before` has still to make a piece that it follows. -/
def Core.mayMake (k : Core) (before : List MemWork) (w : MemWork) (t : Todo) : Bool :=
  !(k.outs.any fun o => o.id == w.o.id && !w.o.rel.isEmpty && !o.rel.isEmpty) &&
    !(before.any fun v => decide (v.cur.bn < w.cur.bn) && v.todo.any t.orderedWith)

/-- Make what may be made of the accesses left for later, in their order; `kept` are those before with pieces still left. -/
def State.makeLate (s : State) (core : Nat) : List MemWork → List MemWork → State
  | kept, [] => s.modCore core fun k => { k with late := kept }
  | kept, w :: ws =>
    let go := w.todo.filter fun t => (s.core core).mayMake kept w t
    let rest := w.todo.filter fun t => !(s.core core).mayMake kept w t
    let r := go.foldl (performPiece w.cur false false) { st := s, o := w.o, held := false }
    let own := !w.o.ldPend && !w.o.stPend
    let s1 :=
      if own then (if rest.isEmpty then r.st.puts w.cur 6 (w.o.dest.writes (r.o.parts.map fun p => p.data)) else r.st)
      else r.st.modCore core fun k => { k with outs := k.outs.map fun o =>
        if o.id = w.o.id then { o with parts := go.foldl (fun ps t => ps.set t.ix (r.o.parts.getD t.ix t.part)) o.parts
                                       time := Nat.max o.time r.o.time } else o }
    s1.makeLate core (if rest.isEmpty then kept else kept ++ [{ w with o := r.o, todo := rest }]) ws

/-- Whether accesses that memory slots have dispatched have still to reach one of some ways: a change of the ways waits for them (R191, R330). -/
def State.owesTo (s : State) (ways : Nat × Nat → Bool) : Bool :=
  s.cores.any fun e => e.2.late.any fun w => w.todo.any fun t => match t.piece.place with
    | .phys a => isScratch a && ways (wayOf a)
    | _ => false

/-- Make what may be made of the accesses that a core's memory slots have left for later. -/
def State.flushLate (s : State) (core : Nat) : State :=
  let ws := (s.core core).late
  if ws.isEmpty then s else s.makeLate core [] ws

end Sys2Proof.Machine
end

