-- ==== Sys2Proof/Machine/EngineMem.lean ====
section
/-!
DEFINITION. Reads and writes by engines, the hub and other packages: at the home of each line, with the logical times of
R203, or in a typed buffer.
-/
namespace Sys2Proof.Machine

/-- The lines that `n` bytes from local address `p` touch. -/
def linesOf (p n : Nat) : List Nat :=
  if n = 0 then [] else (List.range ((p % 64 + n + 63) / 64)).map fun i => p / 64 + i

/-- An engine's write of one line enters the order of memory as a store at its home (R203); `floor` is the least
time it may take. -/
def MemSys.engStore (ms : MemSys) (floor l : Nat) : MemSys × Nat :=
  let t := Nat.max floor ((ms.time l).2 + 1)
  (ms.setTime l (t, t), t)

/-- Whether another package does not answer an access (R297): nothing in the model's state says it (log 12). -/
def State.lost (s : State) (k : Nat) : Bool := Config.freeBit s.free (37 * k + 11)

/-- An engine's read of this package by an agent at time `pts` that takes leases of `lease`: its bytes, the largest write time read, and
the state after. The bytes of another package, and of control space, are free. -/
def State.engReadAt (s : State) (pts lease : Nat) (p : Place) (n : Nat) : List Byte × Nat × State :=
  match p with
  | .phys a =>
    if isControl a then (s.ctlRead a n, 0, s)
    else
      let ls := linesOf a n
      (s.ms.read a n, ls.foldl (fun t l => Nat.max t (s.ms.time l).1) 0,
        { s with ms := ls.foldl (fun m l => m.engLoad pts lease l) s.ms })
  | .far _ a => (s.unknown a n, Config.freeNat s.free (a + 3), s)
  | .buf .. => (s.readPlace p n, 0, s)

/-- An engine's read at time `pts` for an agent without a lease of its own. -/
def State.engRead (s : State) (pts : Nat) (p : Place) (n : Nat) : List Byte × Nat × State := s.engReadAt pts 0 p n

/-- Set the write times of the lines that an engine writes; the latest of them. -/
def MemSys.engStores (ms : MemSys) (floor : Nat) (ls : List Nat) : MemSys × Nat :=
  ls.foldl (fun (x : MemSys × Nat) l =>
    let y := x.1.engStore floor l
    (y.1, Nat.max x.2 y.2)) (ms, floor)

/-- An engine's write at a place of this package: the state after and the time of the write. -/
def State.engWrite (s : State) (floor : Nat) (p : Place) (bs : List Byte) : State × Nat :=
  match p with
  | .phys a =>
    if bs.isEmpty then (s, floor)
    else if isControl a then (s.ctlWrite a bs, floor)
    else
      let ls := linesOf a bs.length
      let ms1 := if isDram a then ls.foldl MemSys.hold s.ms else s.ms
      let (ms2, t) := ms1.engStores floor ls
      ({ s with ms := ms2.write a bs }, t)
  | .far _ _ => (s, floor)
  | .buf .. => ((s.writePlace p bs).forget p bs, floor)

end Sys2Proof.Machine
end

