-- ==== Sys2Proof/Machine/Scalar.lean ====
section
/-!
DEFINITION. The S map's arithmetic, logic, shifts, compares, constants and bit fields (R102, R103).
-/
namespace Sys2Proof.Machine

/-- Whether a condition holds between two 64-bit values (R48). -/
def condHolds (c : Cond) (x y : W64) : Bool :=
  match c with
  | .eq => x == y
  | .ne => x != y
  | .lt => x.slt y
  | .ge => y.sle x
  | .ltu => x.ult y
  | .geu => y.ule x

/-- The same condition on 32-bit lanes (R123). -/
def condHolds32 (c : Cond) (x y : W32) : Bool :=
  match c with
  | .eq => x == y
  | .ne => x != y
  | .lt => x.slt y
  | .ge => y.sle x
  | .ltu => x.ult y
  | .geu => y.ule x

/-- A truth value as a register value (R103). -/
def boolWord (b : Bool) : W64 := if b then 1 else 0

/-- Quotient truncated toward zero; division by 0 gives all ones (R102). -/
def divWord (u : Bool) (x y : W64) : W64 :=
  if y = 0 then BitVec.allOnes 64 else if u then x / y else x.sdiv y

/-- Remainder, its sign that of `x`; by 0 it is `x` (R102). -/
def remWord (u : Bool) (x y : W64) : W64 :=
  if y = 0 then x else if u then x % y else x.srem y

/-- Bits [127:64] of the exact product (R102). -/
def mulHigh (k : MulKind) (x y : W64) : W64 :=
  let p : Int := match k with
    | .ss => x.toInt * y.toInt
    | .uu => (x.toNat : Int) * y.toNat
    | .su => x.toInt * y.toNat
  w64 (p / 2 ^ 64)

/-- The smaller operand (R102). -/
def minWord (u : Bool) (x y : W64) : W64 :=
  if (if u then x.ult y else x.slt y) then x else y

/-- The larger operand (R102). -/
def maxWord (u : Bool) (x y : W64) : W64 :=
  if (if u then y.ult x else y.slt x) then x else y

/-- Leading zeros of a number of `n` bits (R102). -/
def leadingZeros : Nat → Nat → Nat
  | 0, _ => 0
  | n + 1, x => if bits x n 1 = 1 then 0 else 1 + leadingZeros n x

/-- One bits of a number of `n` bits (R102). -/
def oneBits : Nat → Nat → Nat
  | 0, _ => 0
  | n + 1, x => bits x n 1 + oneBits n x

/-- `shi` (R102). -/
def shiftWord (k : ShiftKind) (x : W64) (n : Nat) : W64 :=
  match k with
  | .left => x <<< n
  | .right => x >>> n
  | .arith => x.sshiftRight n
  | .rotate => x.rotateRight n

/-- `bfx` (R103). -/
def extractField (x : W64) (pos len : Nat) (sgn : Bool) : W64 :=
  if sgn then sext64 len (field x pos len) else BitVec.ofNat 64 (field x pos len)

/-- `bfi` (R103). -/
def insertField (d a : W64) (pos len : Nat) : W64 :=
  BitVec.ofNat 64 (d.toNat - field d pos len * 2 ^ pos + field a 0 len * 2 ^ pos)

/-- An operation of one source (R100, R102). -/
def alu1 (f : W64 → W64) (lat : Nat) (d a : Reg) (s : State) : Res :=
  slotOp s [.s d.val, .s a.val] fun c =>
    let x := s.sr c a.val
    .next (s.put c lat (.scalar d.val (f x.val) x.df))

/-- An operation of two sources: the result and the OR of the DF bits (R100, R102). -/
def alu2 (f : W64 → W64 → W64) (lat : Nat) (d a b : Reg) (s : State) : Res :=
  slotOp s [.s d.val, .s a.val, .s b.val] fun c =>
    let x := s.sr c a.val
    let y := s.sr c b.val
    .next (s.put c lat (.scalar d.val (f x.val y.val) (x.df || y.df)))

/-- A constant, with DF 0 (R100). -/
def aluConst (v : W64) (d : Reg) (s : State) : Res :=
  slotOp s [.s d.val] fun c => .next (s.put c 1 (.scalar d.val v false))

/-- `nop` (R102). -/
def execNop (s : State) : Res := .next s
/-- `add` (R102). -/
def execAdd (d a b : Reg) (s : State) : Res := alu2 (fun x y => x + y) 1 d a b s
/-- `sub` (R102). -/
def execSub (d a b : Reg) (s : State) : Res := alu2 (fun x y => x - y) 1 d a b s
/-- `addi` (R102). -/
def execAddi (d a : Reg) (imm : BitVec 10) (s : State) : Res := alu1 (fun x => x + imm.signExtend 64) 1 d a s
/-- `mul`, L = 3 (R96, R102). -/
def execMul (d a b : Reg) (s : State) : Res := alu2 (fun x y => x * y) 3 d a b s
/-- `mulh`, L = 3 (R96, R102). -/
def execMulh (d a b : Reg) (k : MulKind) (s : State) : Res := alu2 (mulHigh k) 3 d a b s
/-- `div`, L = 20 (R96, R102). -/
def execDiv (d a b : Reg) (u : Bool) (s : State) : Res := alu2 (divWord u) 20 d a b s
/-- `rem`, L = 20 (R96, R102). -/
def execRem (d a b : Reg) (u : Bool) (s : State) : Res := alu2 (remWord u) 20 d a b s
/-- `and` (R102). -/
def execAnd (d a b : Reg) (s : State) : Res := alu2 (fun x y => x &&& y) 1 d a b s
/-- `or` (R102). -/
def execOr (d a b : Reg) (s : State) : Res := alu2 (fun x y => x ||| y) 1 d a b s
/-- `xor` (R102). -/
def execXor (d a b : Reg) (s : State) : Res := alu2 (fun x y => x ^^^ y) 1 d a b s
/-- `andi` (R102). -/
def execAndi (d a : Reg) (imm : BitVec 10) (s : State) : Res := alu1 (fun x => x &&& imm.signExtend 64) 1 d a s
/-- `ori` (R102). -/
def execOri (d a : Reg) (imm : BitVec 10) (s : State) : Res := alu1 (fun x => x ||| imm.signExtend 64) 1 d a s
/-- `xori` (R102). -/
def execXori (d a : Reg) (imm : BitVec 10) (s : State) : Res := alu1 (fun x => x ^^^ imm.signExtend 64) 1 d a s
/-- `sll`: b[63:6] are ignored (R102). -/
def execSll (d a b : Reg) (s : State) : Res := alu2 (fun x y => shiftWord .left x (field y 0 6)) 1 d a b s
/-- `srl` (R102). -/
def execSrl (d a b : Reg) (s : State) : Res := alu2 (fun x y => shiftWord .right x (field y 0 6)) 1 d a b s
/-- `sra` (R102). -/
def execSra (d a b : Reg) (s : State) : Res := alu2 (fun x y => shiftWord .arith x (field y 0 6)) 1 d a b s
/-- `shi` (R102). -/
def execShi (d a : Reg) (k : ShiftKind) (n : Fin 64) (s : State) : Res := alu1 (fun x => shiftWord k x n.val) 1 d a s
/-- `min` (R102). -/
def execMin (d a b : Reg) (u : Bool) (s : State) : Res := alu2 (minWord u) 1 d a b s
/-- `max` (R102). -/
def execMax (d a b : Reg) (u : Bool) (s : State) : Res := alu2 (maxWord u) 1 d a b s
/-- `clz` (R102). -/
def execClz (d a : Reg) (s : State) : Res := alu1 (fun x => BitVec.ofNat 64 (leadingZeros 64 x.toNat)) 1 d a s
/-- `popc` (R102). -/
def execPopc (d a : Reg) (s : State) : Res := alu1 (fun x => BitVec.ofNat 64 (oneBits 64 x.toNat)) 1 d a s
/-- `cmp` (R103). -/
def execCmp (d a b : Reg) (c : Cond) (s : State) : Res := alu2 (fun x y => boolWord (condHolds c x y)) 1 d a b s
/-- `cmpi` with imm6 (R103). -/
def execCmpi (d a : Reg) (c : Cond) (imm : BitVec 6) (s : State) : Res :=
  alu1 (fun x => boolWord (condHolds c x (imm.signExtend 64))) 1 d a s
/-- `cmpi` with imm32 (R103). -/
def execCmpiExt (d a : Reg) (c : Cond) (imm : BitVec 32) (s : State) : Res :=
  alu1 (fun x => boolWord (condHolds c x (imm.signExtend 64))) 1 d a s
/-- `sel`: the DF bits of a, b and the condition are ORed (R100, R103). -/
def execSel (d a b k : Reg) (s : State) : Res :=
  slotOp s [.s d.val, .s a.val, .s b.val, .s k.val] fun c =>
    let x := s.sr c a.val
    let y := s.sr c b.val
    let z := s.sr c k.val
    .next (s.put c 1 (.scalar d.val (if z.val ≠ 0 then x.val else y.val) (x.df || y.df || z.df)))
/-- `li` with imm10 (R103). -/
def execLi (d : Reg) (imm : BitVec 10) (s : State) : Res := aluConst (imm.signExtend 64) d s
/-- `li` with imm64 (R103). -/
def execLiExt (d : Reg) (imm : BitVec 64) (s : State) : Res := aluConst imm d s
/-- `bfx` (R103). -/
def execBfx (d a : Reg) (pos len1 : Fin 64) (sgn : Bool) (s : State) : Res :=
  alu1 (fun x => extractField x pos.val (len1.val + 1) sgn) 1 d a s
/-- `bfi`: the destination is a source too (R100, R103). -/
def execBfi (d a : Reg) (pos len1 : Fin 64) (s : State) : Res :=
  slotOp s [.s d.val, .s a.val] fun c =>
    let x := s.sr c a.val
    let y := s.sr c d.val
    .next (s.put c 1 (.scalar d.val (insertField y.val x.val pos.val (len1.val + 1)) (x.df || y.df)))
/-- `stag` (R103). -/
def execStag (d a : Reg) (tag : Fin 16) (s : State) : Res :=
  alu1 (fun x => BitVec.ofNat 64 (field x 0 60 + tag.val * 2 ^ 60)) 1 d a s

end Sys2Proof.Machine
end

