-- ==== Sys2Proof/Machine/Control.lean ====
section
/-!
DEFINITION. Control transfers, the loop sequencer (R104 to R110), `trap`, `eret` and `halt` (R146 to R148). An
S0 operation acts after the other slots of its bundle (Machine/Step.lean), so it may set the pc at once.
-/
namespace Sys2Proof.Machine

/-- A loop level that has never been started (R93). -/
def LoopLevel.init : LoopLevel := { active := false, count := 0, iter := 0, start := 0, len := 0 }

/-- A loop level of a core. -/
def Core.level (k : Core) (lv : Nat) : LoopLevel := kget .init k.loops lv

/-- Replace a loop level. -/
def Core.setLevel (k : Core) (lv : Nat) (l : LoopLevel) : Core := { k with loops := kset .init k.loops lv l }

/-- A token that no operation has produced: done, cause 0, bytes 0, T 0. -/
def Token.init : Token := { state := .done, cause := 0, gen := 0, bytes := 0, t := 0, cycle := 0 }

/-- The bit of a token state in the state set of `btok` (R104). -/
def TokState.bit : TokState → Nat | .pending => 0 | .done => 1 | .faulted => 2 | .cancelled => 3

/-- LOOP_CONTROL with a defect code at the cursor (R110). -/
def loopTrap (s : State) (c : Cursor) (code : Nat) : Res := takeTrap s c .loopControl (slotTval c code)

/-- The checks of R110 that forbid a control transfer in an active loop body; otherwise go on. -/
def outsideLoop (s : State) (c : Cursor) (f : Unit → Res) : Res :=
  if (s.core c.core).inLoop then loopTrap s c 1 else f ()

/-- Go to a target, which must be a word address (R104); `after` is what the transfer does besides. -/
def transferTo (s : State) (c : Cursor) (target : Int) (after : State → State) : Res :=
  if 0 ≤ target ∧ target ≤ 16383 then .next ((after s).goto c target.toNat)
  else takeTrap s c .addressSpace (w64 target)

/-- A control transfer with a word offset from its header (R104): declarations, loop check, DF check, target. -/
def branchOn (us : List Use) (clean : List Reg) (taken : State → Cursor → Bool) (after : State → Cursor → State)
    (off : BitVec 32) (s : State) : Res :=
  slotOp s us fun c => outsideLoop s c fun _ => withClean s c clean fun _ =>
    transferTo s c (if taken s c then (c.pc : Int) + off.toInt else (c.after : Int)) fun s => after s c

/-- No effect beyond the transfer. -/
def noEffect (s : State) (_ : Cursor) : State := s

/-- `br` (R104). -/
def execBr (a b : Reg) (cd : Cond) (off : BitVec 32) (s : State) : Res :=
  branchOn [.s a.val, .s b.val] [a, b] (fun s c => condHolds cd (s.sr c a.val).val (s.sr c b.val).val) noEffect off s

/-- `bri` (R104). -/
def execBri (a : Reg) (imm : BitVec 6) (cd : Cond) (off : BitVec 32) (s : State) : Res :=
  branchOn [.s a.val] [a] (fun s c => condHolds cd (s.sr c a.val).val (imm.signExtend 64)) noEffect off s

/-- `j` (R104). -/
def execJ (off : BitVec 32) (s : State) : Res := branchOn [] [] (fun _ _ => true) noEffect off s

/-- `jal`: the link is the address of the next bundle, with DF 0 (R104). -/
def execJal (d : Reg) (off : BitVec 32) (s : State) : Res :=
  branchOn [.s d.val] [] (fun _ _ => true)
    (fun s c => s.put c 1 (.scalar d.val (BitVec.ofNat 64 c.after) false)) off s

/-- `jr`: the target is the register's value (R104). -/
def execJr (a : Reg) (s : State) : Res :=
  slotOp s [.s a.val] fun c => outsideLoop s c fun _ => withClean s c [a] fun _ =>
    transferTo s c (s.sr c a.val).val.toNat id

/-- The generation of a token that the cursor's bundle names: the one current at its fetch (R304). -/
def Cursor.token (c : Cursor) (t : Nat) : Token := kget .init c.tok0 t

/-- From bundle `m` on every class sees what the operation of token `n` has written to registers (R307). -/
def Core.reveal (k : Core) (m n : Nat) : Core :=
  { k with writes := k.writes.map fun w => if w.sync = none ∧ w.tok = some n then { w with sync := some m } else w }

/-- The writes of an operation whose token has been observed in bundle `m` are bound to be seen after the next sync bundle (R159). -/
def Core.seenOp (k : Core) (m n gen : Nat) : Core :=
  { k with hist := k.hist.map fun h => if h.tok = n ∧ h.gen = gen ∧ h.seen = none then { h with seen := some m } else h }

/-- A core observes a generation `t` of token `n` in bundle `m`: seen done or faulted, it raises `ltime` to its T (R203), and its
operation's registers hold their new values from the next bundle on (R307). -/
def Core.observeTok (k : Core) (m n : Nat) (t : Token) : Core :=
  if t.state = .done ∨ t.state = .faulted then ((k.raise t.t).reveal (m + 1) n).seenOp m n t.gen else k

/-- Observe token `n` of the cursor's bundle. -/
def State.observe (s : State) (c : Cursor) (n : Nat) : State := s.modCore c.core fun k => k.observeTok c.bn n (c.token n)

/-- `btok`: taken when the token's state is in the set (R104); an observation (R203). -/
def execBtok (t : Tok) (set : Fin 16) (off : BitVec 32) (s : State) : Res :=
  branchOn [.tok t.val] [] (fun _ c => bits set.val (c.token t.val).state.bit 1 == 1)
    (fun s c => s.observe c t.val) off s

/-- `bempty`: taken when the top mask is all zeros in every cluster of the set (R104). -/
def execBempty (set : BitVec 8) (off : BitVec 32) (s : State) : Res :=
  branchOn [] [] (fun s c => (List.range 8).all fun cl => bits set.toNat cl 1 == 0 || s.top c cl == 0) noEffect off s

/-- `chk`: taken when the DF bit is 1; it consumes nothing (R101, R104). -/
def execChk (a : Reg) (off : BitVec 32) (s : State) : Res :=
  branchOn [.s a.val] [] (fun s c => (s.sr c a.val).df) noEffect off s

/-- `loop` (R105). -/
def execLoop (lv : Fin 8) (r : Reg) (n1 : Fin 64) (s : State) : Res :=
  slotOp s [.s r.val] fun c =>
    let k := s.core c.core
    if lv.val ≠ k.innermost + 1 ∨ c.le ≠ 0 then loopTrap s c 2
    else withClean s c [r] fun _ =>
      let cnt := (s.sr c r.val).val
      if cnt = 0 then .next (s.goto c (skipBundles k.fetch (n1.val + 1) c.after))
      else .next ((s.modCore c.core fun k => k.setLevel lv.val
        { active := true, count := cnt, iter := 0, start := c.after, len := n1.val + 1 }).goto c c.after)

/-- `lstr` (R108). -/
def execLstr (lv : Fin 8) (j : Fin 4) (x : Reg) (stride : BitVec 32) (s : State) : Res :=
  slotOp s [.s x.val] fun c =>
    .next (s.modCore c.core fun k =>
      { k with strides := kset ⟨0, 0⟩ k.strides ((lv.val - 1) * 4 + j.val) ⟨x.val, stride⟩ })

/-- Make every loop level from `lv` up inactive (R109). -/
def Core.leaveLoops (k : Core) (lv : Nat) : Core :=
  { k with loops := k.loops.filter fun e => e.1 < lv }

/-- `lbrk` (R109). -/
def execLbrk (lv : Fin 8) (a : Reg) (u : Bool) (s : State) : Res :=
  slotOp s [.s a.val] fun c =>
    let k := s.core c.core
    let l := k.level lv.val
    if !l.active then loopTrap s c 4
    else withClean s c (if u then [] else [a]) fun _ =>
      if u || (s.sr c a.val).val ≠ 0 then
        .next ((s.modCore c.core fun k => k.leaveLoops lv.val).goto c (skipBundles k.fetch l.len l.start))
      else .next s

/-- `trap n` (R146): every other slot of the bundle and its idle bundles come first; then SOFTWARE is taken with
tval := n and `tepc` at the next encoded bundle. -/
def execTrap (n : Fin 1024) (s : State) : Res :=
  slotOp s [] fun c =>
    .next { s.exception c.core (c.bn + 1 + c.pad) c.after
        { cause := .software, tval := BitVec.ofNat 64 n.val, slot := 0, async := false } with
      cur := some { c with post := .software n.val } }

/-- `eret` (R147). -/
def execEret (s : State) : Res :=
  slotOp s [] fun c => outsideLoop s c fun _ =>
    .next { s.modCore c.core Core.leaveTrap with cur := some { c with post := .eret } }

/-- `halt` (R148): the core stops dispatching at the next bundle; a pending event with EE = 1 is taken at once,
otherwise the core sleeps. -/
def execHalt (s : State) : Res :=
  slotOp s [] fun c => outsideLoop s c fun _ =>
    let s1 := s.modCore c.core fun k => { k with pc := c.after, run := .sleeping }
    let s2 := if s1.eventReady (colOf c.core) then s1.takeEvent (colOf c.core) (c.bn + 1 + c.pad) else s1
    .next { s2 with cur := some { c with post := .halt } }

end Sys2Proof.Machine
end

