-- ==== Sys2Proof/Machine/Uses.lean ====
section
/-!
DEFINITION. The registers that an operation's words name, for the bundles that must wait for a register: behind a stride add
(R107), or behind a register that a blocked class has still to write (R95, R97).
-/
namespace Sys2Proof.Machine

/-- The scalar registers that an S-, V- or F-slot operation names. -/
def Instr.coreScalars : Instr → List Reg
  | .add d a b | .sub d a b | .mul d a b | .mulh d a b _ | .div d a b _ | .rem d a b _ | .and d a b | .or d a b | .xor d a b
  | .sll d a b | .srl d a b | .sra d a b | .min d a b _ | .max d a b _ | .cmp d a b _ => [d, a, b]
  | .addi d a _ | .andi d a _ | .ori d a _ | .xori d a _ | .shi d a _ _ | .clz d a | .popc d a | .cmpi d a _ _
  | .cmpiExt d a _ _ | .bfx d a _ _ _ | .bfi d a _ _ | .stag d a _ | .csrw d a _ | .csrs d a _ | .csrc d a _ => [d, a]
  | .sel d a b c => [d, a, b, c]
  | .li d _ | .liExt d _ | .jal d _ | .csrr d _ => [d]
  | .br a b _ _ => [a, b]
  | .bri a _ _ _ | .jr a | .chk a _ | .loop _ a _ | .lbrk _ a _ | .fset _ a _ => [a]
  | .vred d _ _ | .vext d _ _ _ | .vbcast _ d _ => [d]
  | _ => []

/-- The scalar registers that an M-, X- or A-slot operation names. -/
def Instr.unitScalars : Instr → List Reg
  | .ld d a _ | .ldExt d a _ _ | .st d a _ | .stExt d a _ _ | .lds d a _ | .ldsExt d a _ _ | .ldAcq d a _ _ | .ldAcqExt d a _ _ _
  | .stRel d a _ _ | .stRelExt d a _ _ _ => [d, a]
  | .vld _ a | .vldExt _ a _ _ | .vst _ a | .vstExt _ a _ _ | .vldx _ a _ _ | .vldxExt _ a _ _ _ | .vstx _ a _ _
  | .vstxExt _ a _ _ _ | .vlds _ a | .vldsExt _ a _ _ | .vamo _ a _ _ | .pref a _ | .prefExt a _ _ => [a]
  | .amo d a b _ _ => [d, a, b]
  | .cas d a b c _ => [d, a, b, c]
  | .ldg d x y _ _ => [d, x, y]
  | .vldg _ x y _ => [x, y]
  | .vldv _ a v | .vldvExt _ a v _ => [a, v]
  | .mma a b d _ _ _ _ _ _ _ x y _ => [a, b, d, x, y]
  | .mmz d _ | .mscl _ d _ => [d]
  | .mcvt d a _ _ _ | .mtr d a _ _ _ | .macc d a _ _ => [d, a]
  | .cpy d a c _ | .cpyB d a c _ | .cpysp d a c _ | .cpyfill d a c _ _ => [d, a, c]
  | .cpym d a c _ m _ _ => [d, a, c, m]
  | .cpypl d a c _ e _ => [d, a, c] ++ e.toList
  | .gath p r i n _ _ | .scat p r i n _ _ => [p, r, i, n]
  | .bankop d a n _ _ => [d, a, n]
  | .lfence a n _ | .bar _ _ a n _ _ | .vpub a n _ | .vwait a n | .gbind _ a n _ _ | .sealCap a n _ | .wake a n _ | .slotld a n _
  | .grpset a n _ => [a, n]
  | .nflush a _ | .rfence a _ _ | .slotrel a _ _ | .barw a _ | .gstep _ a _ | .grel _ a _ | .rcancel a _ _ | .ringpop a _ _ _
  | .chunk a _ | .twait a _ => [a]
  | .send e a c _ _ => [e, a, c]
  | .rpost m k r c v _ => [m, k, r, c, v]
  | .rprobe d m k _ => [d, m, k]
  | .launch d a _ _ | .sqadm _ d a _ | .sqacc _ d a _ | .sqret _ d a _ | .sqpre _ d a _ _ | .sqres _ d a _ | .sqvrd _ d a _ => [d, a]
  | .sqtree _ d a b _ | .sqbat _ d a b _ | .sqkvAddr _ d a b _ | .sqkvAdv _ d a b _ | .tlbinv d a b _ => [d, a, b]
  | _ => []

/-- Whether an operation names a scalar register, itself or as the second of a pair that its result or its operands take. -/
def Instr.names (i : Instr) (r : Nat) : Bool :=
  (Instr.coreScalars i ++ Instr.unitScalars i).any fun x => x.val == r || x.val + 1 == r

/-- Whether an M-slot operation names a vector register. -/
def Instr.namesVector (i : Instr) (r : Nat) : Bool :=
  (match i with
  | .vld v _ | .vldExt v _ _ _ | .vst v _ | .vstExt v _ _ _ | .vlds v _ | .vldsExt v _ _ _ | .vldv v _ _ | .vldvExt v _ _ _ | .vldg v _ _ _ => [v]
  | .vldx v _ w _ | .vldxExt v _ w _ _ | .vstx v _ w _ | .vstxExt v _ w _ _ | .vamo v _ w _ => [v, w]
  | _ => []).any fun x => x.val == r

/-- The registers that an A-slot operation writes when it completes (R240, R256, R259, R271, R319). -/
def Instr.results : Instr → List Nat
  | .rcancel d _ _ | .launch d _ _ _ | .sqadm _ d _ _ | .sqtree _ d _ _ _ | .sqacc _ d _ _ | .sqret _ d _ _ | .sqpre _ d _ _ _
  | .sqres _ d _ _ | .sqbat _ d _ _ _ | .sqkvAddr _ d _ _ _ | .sqkvAdv _ d _ _ _ => [d.val]
  | .rprobe d _ _ _ | .ringpop d _ _ _ | .chunk d _ => [d.val, d.val + 1]
  | _ => []

end Sys2Proof.Machine
end

