-- ==== Sys2Proof/Machine/Stream.lean ====
section
/-!
DEFINITION. The bundle stream of a core: fetch with its decode checks (R44, R95) and the close of a loop iteration
(R107). A fetched bundle passes into the queues of every class in one step, so it makes its token generations as it does (log 7).
-/
namespace Sys2Proof.Machine

/-- The trap of a decode defect (R46). -/
def defectTrap (d : Defect) : Trap :=
  match d with
  | .bundle code slot h => { cause := .illegalBundle, tval := tvalWord h code slot, slot := if code ≤ 4 then 15 else slot, async := false }
  | .slotOp code slot w => { cause := .illegalSlotOp, tval := tvalWord w code slot, slot := slot, async := false }
  | .privilege slot w => { cause := .privilege, tval := tvalWord w 0 slot, slot := slot, async := false }

/-- Fetch and decode the bundle at the pc (R32, R33, R44): a failed check traps precisely at the bundle, once every class has
dispatched every earlier one (R99). -/
def State.fetchBundle (s : State) (core : Nat) : State :=
  let k := s.core core
  match decodeBundle k.fetch k.pc (isFw core) with
  | .ok b => s.setCore core { k with fetched := some b }
  | .error d => if k.slips.isEmpty then s.exception core k.bn k.pc (defectTrap d) else s.modCore core fun k => { k with hold := .slip }

/-- BUNDLE_FETCH: a running core without a fetched bundle and without an open loop end fetches (R95). -/
def execBundleFetch (core : Nat) (s : State) : Res :=
  let k := s.core core
  if k.run = .running ∧ k.fetched = none ∧ k.ending = none ∧ k.closing = none then .next (s.fetchBundle core) else .next s

/-- A stride add reads its register after every write of earlier bundles has landed (R107); the DF bit stays (R100). -/
def Core.addStride (k : Core) (reg : Nat) (stride : W32) : Core :=
  if reg = 0 then k
  else
    let x := k.sread (fun _ => true) reg
    { k with
      writes := k.writes.filter fun w =>
        match w.wr with
        | .scalar q _ _ => q ≠ reg
        | _ => true
      sregs := kset ⟨0, false⟩ k.sregs reg ⟨x.val + stride.signExtend 64, x.df⟩ }

/-- Whether a load writes a scalar register. -/
def LoadDest.writesScalar (d : LoadDest) (reg : Nat) : Bool :=
  match d with
  | .scalar d _ => d == reg
  | .fixed ws => ws.any fun w => match w with
    | .scalar d _ _ => d == reg
    | _ => false
  | _ => false

/-- Whether an operation of an earlier bundle has still to write a scalar register: an outstanding load, an engine operation, or an
operation that a blocked class has still to dispatch (R95, R107). -/
def Core.writing (k : Core) (reg : Nat) : Bool :=
  (k.outs.any fun o => o.ldPend && o.dest.writesScalar reg) ||
    (k.queues.any fun q => q.2.any fun e => (Instr.results e.op).contains reg) ||
    (k.started.any fun x => x.orphan.isNone && (Instr.results x.e.op).contains reg) ||
    k.late.any (fun w => w.o.dest.writesScalar reg) ||
    k.slips.any fun x => match x.op with
      | .enter _ e => (Instr.results e.op).contains reg
      | .defer op .. => (Instr.results op).contains reg
      | .twait d _ => d == reg
      | .access _ d => d.writesScalar reg
      | .barw .. | .vwait .. => false

/-- The stride adds of a level's close; an add whose register has still to be written is made when that has happened (R107). -/
def Core.addStrides (k : Core) (lv : Nat) : Core :=
  (List.range 4).foldl (fun k j =>
    let e := kget ⟨0, 0⟩ k.strides ((lv - 1) * 4 + j)
    if e.reg = 0 then k
    else if k.writing e.reg then { k with due := k.due ++ [(e.reg, e.stride)] }
    else k.addStride e.reg e.stride) k

/-- The stride adds that waited for a write of their register are made (R107). -/
def Core.makeDue (k : Core) : Core :=
  k.due.foldl (fun k e => if k.writing e.1 then { k with due := k.due ++ [e] } else k.addStride e.1 e.2)
    { k with due := [] }

/-- The close of an iteration of a level whose loop-end bundle ends at word `after` (R107). -/
def Core.closeLoop (k : Core) (lv after : Nat) : Core :=
  let k1 := k.addStrides lv
  let l := k1.level lv
  let n := l.iter + 1
  if n < l.count then { k1.setLevel lv { l with iter := n } with pc := l.start, closing := none }
  else { k1.setLevel lv { l with iter := n, active := false } with pc := after, closing := none }

/-- A core at its next bundle boundary: an iteration whose loop-end bundle has dispatched is closed (R107). -/
def Core.atBoundary (k : Core) : Core :=
  match k.closing with
  | some (lv, after) => k.closeLoop lv after
  | none => k

/-- A core at the boundary where it stops: the iteration is closed once every class has dispatched the loop-end bundle (R99, R107). -/
def Core.bounded (k : Core) : Core := if k.slips.isEmpty then k.atBoundary else k

/-- LOOP_ITERATION_CLOSE: a core closes the iteration once every class has dispatched the loop-end bundle (R107). -/
def execLoopIterationClose (core : Nat) (s : State) : Res :=
  if (s.core core).slips.isEmpty then .next (s.modCore core Core.atBoundary) else .next s

end Sys2Proof.Machine
end

