-- ==== Sys2Proof/Machine/Net.lean ====
section
/-!
DEFINITION. How outstanding accesses return and are acknowledged (R158, R160, R202, R204, R206, R301, R303), the
cluster network's queues with what a suspended core holds (R158, R369), and accesses of other packages (R204, R295).
-/
namespace Sys2Proof.Machine

/-! ### Outstanding accesses -/

/-- Change an outstanding access of a core. -/
def State.modOut (s : State) (core id : Nat) (f : Outstanding → Outstanding) : State :=
  s.modCore core fun k => { k with outs := k.outs.map fun o => if o.id = id then f o else o }

/-- The outstanding access with an identifier. -/
def Core.out (k : Core) (id : Nat) : Option Outstanding := k.outs.find? fun o => o.id == id

/-- Drop the accesses that no counter counts and that have no trap to be taken; while the M class has still to dispatch one of their bundles
or of an earlier one, they keep their place in the order of accesses (R303). -/
def Core.tidy (k : Core) : Core :=
  { k with outs := k.outs.filter fun o => o.ldPend || o.stPend || o.trap.isSome ||
      k.slips.any fun x => x.cls == .m && decide (x.cur.bn ≤ o.bundle) }

/-- Whether a place lies in another package. -/
def Place.isFar : Place → Bool | .far _ _ => true | _ => false

/-- Fill the parts that another package serves from the bytes it returned, as far as they reach. -/
def fillFar : List Part → List Byte → List Part
  | [], _ => []
  | p :: ps, bs =>
    if p.place.isFar && !p.done && decide (p.n ≤ bs.length) then
      { p with done := true, data := bs.take p.n } :: fillFar ps (bs.drop p.n)
    else p :: fillFar ps bs

/-- The clusters of a vector load all of whose parts came, and those that a speculative load gives zeros (R164). -/
def splitLanes : List (Nat × List Nat × Bool) → List Part →
    List (Nat × List Nat × Bool) × List (Nat × List Nat) × List Part
  | [], _ => ([], [], [])
  | c :: cs, ps =>
    let mine := ps.take c.2.1.length
    let (good, bad, kept) := splitLanes cs (ps.drop c.2.1.length)
    if mine.all fun p => p.done then (c :: good, bad, mine ++ kept) else (good, (c.1, c.2.1) :: bad, kept)

/-- What a speculative load leaves when the parts that are not done cannot be had (R164). -/
def LoadDest.deferred (d : LoadDest) (ps : List Part) : LoadDest × List Part :=
  match d with
  | .scalar r _ => (.fixed [.scalar r 0 true], [])
  | .vector vd lanes zeros =>
    let (good, bad, kept) := splitLanes lanes ps
    (.vector vd good (zeros ++ bad), kept)
  | d => (d, ps)

/-- A load whose values have come writes its destination, and ld falls (R301); an acquire at a wide scope empties the load
buffer (R206). -/
def State.writeLoad (s : State) (core : Nat) (o : Outstanding) (dest : LoadDest) (ps : List Part) : State :=
  let s1 := (dest.writes (ps.map fun p => p.data)).foldl (fun s w => s.land core .m o.bundle none w) s
  let s2 := s1.modOut core o.id fun o => { o with ldPend := false, parts := o.parts.map fun p => { p with done := true } }
  s2.modCore core fun k =>
    let k1 := if o.acq = some true then { k with loadBuf := [] } else k
    k1.tidy

/-- A load ends with a cause that the first covering `wait` takes; its destination keeps its value (R160, R303, R318). -/
def State.failLoad (s : State) (core : Nat) (o : Outstanding) (cause : Cause) (tval : W64) : State :=
  s.modOut core o.id fun o => { o with ldPend := false, stPend := false, trap := some (cause, tval) }

/-- The end of a load whose parts have come (R202, R318); a speculative one defers what has been discarded (R164). -/
def State.endLoad (s : State) (core : Nat) (o : Outstanding) : State :=
  if o.spec && o.parts.any fun p => p.n == 0 then
    let (dest, kept) := o.dest.deferred (o.parts.map fun p => { p with done := p.n != 0 })
    s.writeLoad core o dest kept
  else match o.ver, o.parts with
  | some v, p :: ps =>
    let x := leNat p.data % 2 ^ 48
    if x = v.toNat then s.writeLoad core o o.dest ps else s.failLoad core o .version (BitVec.ofNat 64 x)
  | _, ps => s.writeLoad core o o.dest ps

/-! ### The cluster network (R158) -/

/-- Whether a core is suspended, so that it holds what arrives (R369). -/
def State.suspended (s : State) (i : Nat) : Bool :=
  let r := (s.core i).run
  r == .trapped || r == .halted || r == .saved

/-- The barrier update of R314 at time `time`; `none` faults the token with RECORD. -/
def Barrier.update (b : Barrier) (v : BarVariant) (n : W64) (time : Nat) : Option Barrier :=
  let exp (b : Barrier) : Barrier := { b with expected := (b.expected + n.toNat % 2 ^ 48) % 2 ^ 48 }
  let late (b : Barrier) : Barrier := { b with tmax := Nat.max b.tmax time }
  let arrive (b : Barrier) : Option Barrier :=
    if b.c = 0 ∨ b.pending = 0 then none else some { b with pending := b.pending - 1 }
  match v with
  | .init => some { c := n.toNat, pending := n.toNat, expected := 0, arrived := 0, phase := 0, tmax := time, doneT := 0 }
  | .exp => some (late (exp b))
  | .arr => (arrive b).map late
  | .arrexp => (arrive (exp b)).map late

/-- A barrier that nothing has initialised. -/
def Barrier.none : Barrier := { c := 0, pending := 0, expected := 0, arrived := 0, phase := 0, tmax := 0, doneT := 0 }

/-- The completion test of R314: a complete phase advances and its counts restart. -/
def Barrier.complete (b : Barrier) : Barrier :=
  if b.c ≠ 0 ∧ b.pending = 0 ∧ b.arrived = b.expected then
    { b with phase := (b.phase + 1) % 2 ^ 32, pending := b.c, expected := 0, arrived := 0, doneT := b.tmax }
  else b

/-- An outcome without registers (R257). -/
def outcome (st : TokState) (cause bytes t : Nat) : Outcome :=
  { st := st, cause := cause, bytes := bytes, t := t, tag := 0, regs := [] }

/-- Fix the outcome of a started operation. -/
def State.finish (s : State) (core id : Nat) (o : Outcome) : State :=
  s.modCore core fun k =>
    { k with started := k.started.map fun x => if x.id = id then { x with stage := .finished o false } else x }

/-- Update a barrier and run the completion test. -/
def State.putBarrier (s : State) (core b : Nat) (x : Barrier) : State :=
  s.modCore core fun k => { k with barriers := kset .none k.barriers b x.complete }

/-- A barrier update takes effect at core `dst` for operation `id` of core `src` (R314). -/
def State.applyBarrier (s : State) (src dst id : Nat) (v : BarVariant) (b : Nat) (n : W64) (time : Nat) : State :=
  match (kget .none (s.core dst).barriers b).update v n time with
  | some x => (s.putBarrier dst b x).finish src id (outcome .done 0 0 time)
  | none => s.finish src id (outcome .faulted Cause.record.code 0 time)

/-- A flag is set, carrying a time (R310). -/
def State.applyFlag (s : State) (dst f time : Nat) : State :=
  s.modCore dst fun k =>
    let x := kget ⟨false, 0⟩ k.flags f
    { k with flags := kset ⟨false, 0⟩ k.flags f { set := true, time := Nat.max x.time time } }

/-- An access of core `src` takes effect at its destination (R158). -/
def State.applyAccess (s : State) (src : Nat) (item : NetItem) : State :=
  let go (id i : Nat) (f : Part → List Byte × Option (List Byte)) : State :=
    match (s.core src).out id with
    | some o =>
      match o.parts[i]? with
      | some p =>
        let (old, new) := f p
        let s1 := match new with
          | some bs => (s.writePlace p.place bs).forget p.place bs
          | none => s
        s1.modOut src id fun o => o.perform i old
      | none => s
    | none => s
  match item with
  | .load id i => go id i fun p => (s.readPlace p.place p.n, none)
  | .store id i => go id i fun p => (p.data, some p.data)
  | .amo id i _ f b => go id i fun p =>
    let old := s.readPlace p.place p.n
    (old, (Rmw.amo f b).apply p.n old)
  | .cas id i _ e v => go id i fun p =>
    let old := s.readPlace p.place p.n
    (old, (Rmw.cas e v).apply p.n old)
  | .flag .. | .barrier .. => s

/-- A packet takes effect at its destination. -/
def State.applyPacket (s : State) (p : NetPacket) : State :=
  match p.item with
  | .flag f t => s.applyFlag p.dst f t
  | .barrier id v b n t => s.applyBarrier p.src p.dst id v b n t
  | item => s.applyAccess p.src item

/-- The 64-bit address of a cluster-remote place (R153). -/
def remoteAddr (p : Place) : W64 :=
  match p with
  | .buf i b off =>
    BitVec.ofNat 64 (0xB * 2 ^ 60 + (match b with | .w => 0 | .a => 1 | .r => 2) * 2 ^ 58 + i % 128 * 2 ^ 51 + off)
  | .phys _ | .far _ _ => 0

/-- A part of an access is discarded at a core whose launch ended: PROTECTION, with its address (R369); a speculative load defers it
(R164). -/
def State.discardPart (s : State) (src id i : Nat) : State :=
  match (s.core src).out id with
  | some o =>
    match o.parts[i]?, o.trap with
    | some x, none =>
      if o.spec then s.modOut src id fun o => { o with parts := o.parts.modify i fun p => { p with n := 0, done := true, data := [] } }
      else s.failLoad src o .protection x.addr
    | _, _ => s
  | none => s

/-- A packet held at a core whose launch ended is discarded (R369). -/
def State.discardPacket (s : State) (p : NetPacket) : State :=
  match p.item with
  | .load id i | .store id i | .amo id i .. | .cas id i .. => s.discardPart p.src id i
  | .flag .. => s
  | .barrier id .. => s.finish p.src id (outcome .faulted Cause.protection.code 0 0)

/-- Make the items that a core holds, in queue order (R369). -/
def State.deliverHeld (s : State) (dst : Nat) : State :=
  (s.net.filter fun p => p.dst == dst && p.held).foldl State.applyPacket
    { s with net := s.net.filter fun p => !(p.dst == dst && p.held) }

/-- Discard the items that a core holds (R369). -/
def State.discardHeld (s : State) (dst : Nat) : State :=
  (s.net.filter fun p => p.dst == dst && p.held).foldl State.discardPacket
    { s with net := s.net.filter fun p => !(p.dst == dst && p.held) }

/-- Whether a piece goes through the cluster network to a core. -/
def Todo.goesTo (t : Todo) (dst : Nat) : Bool := viaOf t.piece.sp t.piece.place == .net dst

/-- Discard what is still on its way to a task in its save area: pieces that memory slots have left for later, flag sets and barrier
updates (R369). -/
def State.discardLate (s : State) (dst : Nat) : State :=
  let lost := s.cores.flatMap fun e => e.2.late.flatMap fun w =>
    (w.todo.filter fun t => t.goesTo dst).map fun t => (e.1, w.o.id, t.ix)
  let s1 : State :=
    { s with
      netWait := s.netWait.filter fun p => p.dst != dst
      cores := s.cores.map fun e => (e.1, { e.2 with late := (e.2.late.map fun w =>
        { w with todo := w.todo.filter fun t => !t.goesTo dst }).filter fun w => !w.todo.isEmpty }) }
  lost.foldl (fun s x => s.discardPart x.1 x.2.1 x.2.2)
    ((s.netWait.filter fun p => p.dst == dst).foldl State.discardPacket s1)

/-- The first packet of a queue that has not arrived, when `want` accepts it: it takes effect, or its suspended
destination holds it. -/
def State.arrive (s : State) (src dst : Nat) (want : NetItem → Bool) : State :=
  match s.net.findIdx? fun p => p.src == src && p.dst == dst && !p.held with
  | none => s
  | some i =>
    match s.net[i]? with
    | none => s
    | some p =>
      if !want p.item then s
      else if s.suspended dst then { s with net := s.net.set i { p with held := true } }
      else State.applyPacket { s with net := s.net.eraseIdx i } p

/-- CLUSTER_REMOTE_ACCESS: the next access of a queue takes effect at its destination (R158). -/
def execClusterRemoteAccess (src dst : Nat) (s : State) : Res :=
  .next (s.arrive src dst fun i => match i with
    | .flag .. | .barrier .. => false
    | _ => true)

/-- FLAG_SET_ARRIVAL: a remote flag set reaches its target (R310, R311). -/
def execFlagSetArrival (src dst : Nat) (s : State) : Res :=
  .next (s.arrive src dst fun i => match i with
    | .flag .. => true
    | _ => false)

/-- BARRIER_UPDATE: a remote barrier update reaches its target (R314). -/
def execBarrierUpdate (src dst : Nat) (s : State) : Res :=
  .next (s.arrive src dst fun i => match i with
    | .barrier .. => true
    | _ => false)

/-! ### What waits for acknowledgements (R206, R310) -/

/-- Whether an access still has a counter raised. -/
def Core.pending (k : Core) (id : Nat) : Bool := k.outs.any fun o => o.id == id && (o.ldPend || o.stPend)

/-- Whether an access still waits for its acknowledgement. -/
def Core.unacked (k : Core) (id : Nat) : Bool := k.outs.any fun o => o.id == id && o.stPend

/-- After an access of a core ends: releases whose row is drained are sent with what waits behind them, and flag sets and barrier
updates that wait for nothing more enter their queues with the core's time (R206, R310, R314). -/
def State.drainCore (s : State) (core : Nat) : State :=
  let s1 := s.modCore core fun k => { k with outs := k.outs.map fun o => { o with rel := o.rel.filter k.unacked } }
  let s2 := s1.flushLate core
  let k := s2.core core
  let go (p : NetPacket) : Bool := p.src == core && !(p.after.any k.pending)
  let timed (p : NetPacket) : NetPacket :=
    { p with after := [], held := decide (65536 ≤ p.dst), item := match p.item with
        | .flag f t => .flag f (Nat.max t k.ltime)
        | .barrier id v b n t => .barrier id v b n (Nat.max t k.ltime)
        | i => i }
  { s2 with
    net := s2.net ++ (s2.netWait.filter go).map timed
    netWait := s2.netWait.filter fun p => !go p }

/-- Send an item once the listed accesses of its source have ended (R310, R314). -/
def State.sendAfter (s : State) (src dst : Nat) (after : List Nat) (item : NetItem) : State :=
  let p : NetPacket := { src := src, dst := dst, item := item, after := after, held := false }
  State.drainCore { s with netWait := s.netWait ++ [p] } src

/-- The accesses that a remote flag set or barrier update waits for: tag 0xB accesses, and global stores and atomics,
in bundles before `m` (R310). -/
def Core.beforeSync (k : Core) (m : Nat) : List Nat :=
  (k.outs.filter fun o => decide (o.bundle < m) && (o.stPend || o.parts.any fun p => match p.place with
    | .buf .. => true
    | _ => false)).map fun o => o.id

/-- The package of the first part that did not come. -/
def firstFar (ps : List Part) : Nat :=
  match ps.find? fun p => !p.done with
  | some p => match p.place with
    | .far k _ => k
    | _ => 0
  | none => 0

/-- What a fault in another package leaves for the first covering `wait`: PROTECTION with the address, or REMOTE with the package (R145, R190,
R297). -/
def farFault (prot : Bool) (ps : List Part) : Cause × W64 :=
  if prot then (.protection, ((ps.find? fun p => !p.done).map fun p => p.addr).getD 0) else (.remote, BitVec.ofNat 64 (firstFar ps))

/-- Whether an access can still return: every part within this package has been performed, and no piece is left for later. -/
def Core.complete (k : Core) (o : Outstanding) : Bool :=
  !(o.parts.any fun p => !p.done && !p.place.isFar) && !(k.late.any fun w => w.o.id == o.id && (w.o.ldPend || w.o.stPend))

/-- The physical address at which a load meets spoilt data (R333). -/
def State.spoiltPart (s : State) (o : Outstanding) : Option Nat := o.parts.findSome? fun p => s.ms.spoiltAt p.place p.n

/-- The physical address at which a store meets a bank that is gone (R334). -/
def State.deadPart (s : State) (o : Outstanding) : Option Nat := o.parts.findSome? fun p => s.ms.deadAt p.place p.n

/-- GLOBAL_LOAD_RETURN: the values of a load have come (R202, R301). Spoilt data are UNCORRECTABLE, of a speculative load too (R160, R164, R333). Too few bytes from other packages are a fault there: PROTECTION of the
way reached when the answer says so (R190), else REMOTE (R297). -/
def execGlobalLoadReturn (core id : Nat) (ans : LoadAnswer) (s : State) : Res :=
  match (s.core core).out id with
  | none => .next s
  | some o =>
    if !o.ldPend || !(s.core core).complete o then .next s
    else match s.spoiltPart o with
    | some a => .next ((s.failLoad core o .uncorrectable (BitVec.ofNat 64 a)).drainCore core)
    | none =>
      let ps := fillFar o.parts ans.data
      if ps.all fun p => p.done then .next ((s.endLoad core { o with parts := ps }).drainCore core)
      else if o.spec then
        let (dest, kept) := o.dest.deferred ps
        .next ((s.writeLoad core o dest kept).drainCore core)
      else .next ((s.failLoad core o (farFault ans.prot ps).1 (farFault ans.prot ps).2).drainCore core)

/-- STORE_ACKNOWLEDGEMENT: a store or atomic is acknowledged; st falls and `ltime` rises to the store's time (R202, R204). A store that
another package did not perform ends with REMOTE, or PROTECTION when the way reached refused it, and one in a DRAM bank that is gone with
UNCORRECTABLE (R334), which the first covering `wait` takes (R190, R297, R303). -/
def execStoreAcknowledgement (core : Nat) (ack : StoreAck) (s : State) : Res :=
  match (s.core core).out ack.id with
  | none => .next s
  | some o =>
    if !o.stPend || !(s.core core).complete o then .next s
    else
      let bad := ack.failed && o.parts.any fun p => !p.done && p.place.isFar
      let s1 := s.modOut core ack.id fun o =>
        { o with
          stPend := false
          trap := match s.deadPart o with
            | some a => some (.uncorrectable, BitVec.ofNat 64 a)
            | none => if bad then some (farFault ack.prot o.parts) else o.trap }
      .next ((s1.modCore core fun k => (k.raise o.time).tidy).drainCore core)

/-! ### Other packages (R204, R295) -/

/-- Whether a local address lies in memory that other packages reach. -/
def reachable (p n : Nat) : Bool :=
  (isDram p && decide (p + n ≤ 0x8000000000)) || (isScratch p && decide (p + n ≤ 0x40400000000))

/-- Whether an access of a context reaches a local address when it is served: DRAM, or a way that is scratch for the context (R190). -/
def State.serves (s : State) (ctx a n : Nat) : Bool := reachable a n && (isDram a || s.ms.wayFor ctx a)

/-- A read that arrives from another package, at the time that its queue has come to: no later arrival of the queue precedes it (R204). -/
def State.arriveRead (s : State) (pkg a n : Nat) : List Byte × State :=
  let t := kget 0 s.ms.arrivals pkg
  let (bs, u, s1) := s.engRead t (.phys (s.ms.forward a)) n
  (bs, { s1 with ms := { s1.ms with arrivals := kset 0 s1.ms.arrivals pkg (Nat.max t u) } })

/-- A write that arrives from another package, not before the earlier arrivals of its queue (R204). -/
def State.arriveWrite (s : State) (pkg a : Nat) (bs : List Byte) : State :=
  let t := kget 0 s.ms.arrivals pkg
  let (s1, u) := s.engWrite t (.phys (s.ms.forward a)) bs
  { s1 with ms := { s1.ms with arrivals := kset 0 s1.ms.arrivals pkg (Nat.max t u) } }

/-- FABRIC_ACCESS_ARRIVAL: an access of another package, made for a context, enters this package's order and is answered (R204). One that
reaches a way that is not scratch for its context is refused (R190). A pull is Machine/Message.lean's. -/
def serveAccess (pkg ctx : Nat) (acc : RemoteAccess) (s : State) : Res :=
  let refuse (id : Nat) : Res := .next (s.sendFabric pkg 1 (.refusal id Cause.protection.code))
  let rmw (a n id : Nat) (m : Rmw) : Res :=
    if s.serves ctx a n then
      let (old, s1) := s.arriveRead pkg a n
      let s2 := match m.apply n old with
        | some new => s1.arriveWrite pkg a new
        | none => s1
      .next (s2.sendFabric pkg 1 (.reply id old))
    else refuse id
  match acc with
  | .load a n id =>
    if s.serves ctx a n then
      let (bs, s1) := s.arriveRead pkg a n
      .next (s1.sendFabric pkg 1 (.reply id bs))
    else refuse id
  | .store a bs id =>
    if s.serves ctx a bs.length then .next ((s.arriveWrite pkg a bs).sendFabric pkg 1 (.ack id))
    else refuse id
  | .amo a f dbl b id => rmw a (amoBytes8 dbl) id (.amo f b)
  | .cas a dbl e v id => rmw a (amoBytes8 dbl) id (.cas e v)
  | .pull .. => .next s
  | .merge a mask v id =>
    if s.serves ctx a 1 then
      let old := leNat (s.readPlace (.phys (s.ms.forward a)) 1)
      .next ((s.arriveWrite pkg a [BitVec.ofNat 8 ((old &&& (255 - mask)) ||| (v.toNat &&& mask))]).sendFabric pkg 1 (.ack id))
    else refuse id
where
  /-- Bytes of an atomic's size (R165). -/
  amoBytes8 (dbl : Bool) : Nat := if dbl then 8 else 4

/-- GROUP_PACKET_RECEIVE: the switch forwards a replicated write on the group's other ports and performs it here when
the local bit is set and this package did not send it (R295), as a store of the sender's queue (R204). -/
def execGroupPacketReceive (port group origin addr : Nat) (data : List Byte) (s : State) : Res :=
  let e := (kget 0 s.rt.groupTable group).toNat
  let s1 := s.forward group (some port) origin addr data
  if bits e 36 1 = 1 ∧ origin ≠ s.pkg ∧ reachable addr data.length = true then
    .next ((s1.arriveWrite origin addr data).sendFabric origin 1 (.ack 0))
  else .next s1

end Sys2Proof.Machine
end

