-- ==== Sys2Proof/Machine/Engine.lean ====
section
/-!
DEFINITION. Engine operations: dispatch into the engine queues (R223), token words (R304 to R306), completion, and
completion records (R257, R258).
-/
namespace Sys2Proof.Machine

/-! ### Queues (R223, R225) -/

/-- Base entries of an engine queue, by class code (R223). -/
def queueBase (q : Nat) : Nat := if q = 0 then 32 else 16

/-- An engine queue of a core. -/
def Core.queue (k : Core) (q : Nat) : List EngEntry := if q = 1 then k.mx.queue else kget [] k.queues q

/-- Replace an engine queue. -/
def Core.setQueue (k : Core) (q : Nat) (es : List EngEntry) : Core :=
  if q = 1 then { k with mx := { k.mx with queue := es } } else { k with queues := kset [] k.queues q es }

/-- Whether an engine queue is full, its extensions included. -/
def Core.queueFull (k : Core) (q : Nat) : Bool :=
  decide (queueBase q + kget 0 k.extensions q ≤ (k.queue q).length)

/-- Return a queue's extension to the spill pool once it holds no more than its base entries (R225). -/
def State.returnSpill (s : State) (core q : Nat) : State :=
  let k := s.core core
  let n := kget 0 k.extensions q
  if n ≠ 0 ∧ (k.queue q).length ≤ queueBase q then
    { s.setCore core { k with extensions := kdel k.extensions q } with
      spill := kset 0 s.spill (clusterOf core) (kget 0 s.spill (clusterOf core) - n) }
  else s

/-- Remove an entry from an engine queue. -/
def State.dequeue (s : State) (core q idx : Nat) : State :=
  (s.modCore core fun k => k.setQueue q ((k.queue q).eraseIdx idx)).returnSpill core q

/-! ### Token words (R304, R305) -/

/-- The tokens that a token word names, the produced one first. -/
def tokNames (t : TokenWord) : List Nat := [t.prod.val, t.c1.val, t.c2.val, t.c3.val].filter (· ≠ 0)

/-- tval of TOKEN_BUSY (R145). -/
def busyTval (t slot : Nat) : W64 := BitVec.ofNat 64 (t + slot * 2 ^ 40)

/-- Whether the slot's class has still to dispatch a `twait` on a token's current generation: by the time the slot dispatches, that
generation has left pending (R95, R308). -/
def Cursor.awaitsToken (c : Cursor) (k : Core) (n : Nat) : Bool :=
  k.slips.any fun x => x.cls == c.slot.cls && match x.op with
    | .twait _ r => r.tok == n && r.gen == (c.token n).gen
    | _ => false

/-- A consumed token: the generation current when the bundle was fetched, resolved if it has left pending (R304). -/
def Cursor.ref (c : Cursor) (n : Nat) : TokRef :=
  let t := c.token n
  { tok := n, gen := t.gen, st := if t.state = .pending then none else some t }

/-- Make a new generation of a token (R304). -/
def State.produce (s : State) (core n : Nat) : State :=
  if n = 0 then s
  else s.modCore core fun k =>
    let t := kget Token.init k.tokens n
    { k with tokens := kput k.tokens n { state := .pending, cause := 0, gen := (t.gen + 1) % 65536, bytes := 0, t := 0, cycle := 0 } }

/-- The engine operation at the cursor stays behind the other classes, undispatched: its token takes its new generation, as at the bundle's
fetch (R95, R304). -/
def State.defer (s : State) (c : Cursor) (t : TokenWord) : State :=
  let k := s.core c.core
  ((s.modCore c.core fun k => { k with serial := k.serial + 1 }).produce c.core t.prod.val).slip c
    (.defer c.op t.prod.val (((kget Token.init k.tokens t.prod.val).gen + 1) % 65536) k.serial)

/-- The checks of a token word, at the dispatch of the slot's class (R305); otherwise go on. A token that is still pending while the class has
earlier bundles to dispatch is looked at again when it has. -/
def withTokens (s : State) (c : Cursor) (t : TokenWord) (f : Unit → Res) : Res :=
  withUses s c ((tokNames t).map fun n => .tok n) fun _ =>
    if t.prod.val = 0 ∨ (c.token t.prod.val).state ≠ .pending ∨ c.awaitsToken (s.core c.core) t.prod.val then f ()
    else if (s.core c.core).lagsBefore c then (if c.whole || isFw c.core then holdAt s c .slip else .next (s.defer c t))
    else takeTrap s c .tokenBusy (busyTval t.prod.val c.slot.index)

/-- Whether references name a generation of a token: their operation sees what the token's operation wrote (R159). -/
def consumes (rs : List TokRef) (n gen : Nat) : Bool := n != 0 && rs.any fun r => r.tok == n && r.gen == gen

/-- The queue entry of an operation dispatched at the cursor. It must see the words that an operation has written whose token it consumes,
also where a store came before that write (R159). -/
def newEntry (s : State) (c : Cursor) (op : Instr) (t : TokenWord) (vals : List W64) : EngEntry :=
  let k := s.core c.core
  let refs := ([t.c1.val, t.c2.val, t.c3.val].filter (· ≠ 0)).map c.ref
  let seen (w : OldWord) : Bool := k.hist.any fun h => h.word.place == w.place && consumes refs h.tok h.gen
  { op := op, vals := vals, recs := [], slot := c.slot, bundle := c.bn, prod := t.prod.val
    gen := ((kget Token.init k.tokens t.prod.val).gen + 1) % 65536
    consumed := refs
    cr := t.cr, ring := t.ring.val, stale := k.recent.filter fun w => !seen w, time := k.ltime, serial := k.serial, entered := s.cycle, waits := [] }

/-- Whether the operation at the cursor stays behind the other classes: by the scheduler's choice, or behind an operation that its
class has still to dispatch (R95). -/
def staysBehind (s : State) (c : Cursor) : Bool := !c.whole && (c.lag || (s.core c.core).lags c.slot.cls)

/-- Enter an operation in its queue, with the time at which it has filled records (R203); its token becomes pending. A full queue blocks its class (R95, R223). -/
def State.enqueue (s : State) (c : Cursor) (q : Nat) (e : EngEntry) : State :=
  let s1 := (s.modCore c.core fun k => { k with serial := k.serial + 1 }).produce c.core e.prod
  let e := { e with time := Nat.max e.time ((s.cur.map fun d => d.fill).getD 0) }
  if staysBehind s c || (s.core c.core).queueFull q then s1.slip c (.enter q e)
  else s1.modCore c.core fun k => k.setQueue q (k.queue q ++ [e])

/-- Go on when the engine queue of the operation at the cursor has room; a full queue holds a bundle that must
dispatch in every class at once (R223, log 7). -/
def withRoom (s : State) (c : Cursor) (q : Nat) (f : Unit → Res) : Res :=
  if c.whole && (s.core c.core).queueFull q then holdAt s c .queueFull else f ()

/-- An A-slot engine operation: register declarations, room in its queue, token word, its own checks `f` (R61, R223,
R305). -/
def engineOp (s : State) (us : List Use) (q : Nat) (t : TokenWord) (f : Cursor → Res) : Res :=
  slotOp s us fun c => withRoom s c q fun _ => withTokens s c t fun _ => f c

/-- A failed check traps precisely; otherwise go on. -/
def orTrap (s : State) (c : Cursor) (e : Option Failed) (f : Unit → Res) : Res :=
  match e with
  | some x => takeTrap s c x.1 x.2
  | none => f ()

/-! ### Completion (R304, R306, R307) -/

/-- Resolve a reference to a generation that has left pending. -/
def TokRef.resolve (r : TokRef) (n : Nat) (t : Token) : TokRef :=
  if r.tok = n ∧ r.gen = t.gen ∧ r.st = none then { r with st := some t } else r

/-- Resolve the references of a queued operation. -/
def EngEntry.resolve (e : EngEntry) (n : Nat) (t : Token) : EngEntry := { e with consumed := e.consumed.map fun r => r.resolve n t }

/-- Resolve the references of an operation that its class has still to dispatch. -/
def Slip.resolve (x : Slip) (n : Nat) (t : Token) : Slip :=
  { x with
    cur := { x.cur with tok0 := if (kget Token.init x.cur.tok0 n).gen = t.gen then kput x.cur.tok0 n t else x.cur.tok0 }
    op := match x.op with
      | .enter q e => .enter q (e.resolve n t)
      | .twait d r => .twait d (r.resolve n t)
      | op => op }

/-- Status code of a record and of a saved token (R257). -/
def TokState.status : TokState → Nat | .done => 0 | .faulted => 1 | .cancelled => 2 | .pending => 3

/-- A token in 16 bytes: state, cause, generation, bytes, T. -/
def Token.save (t : Token) : List Byte :=
  leBytes 1 t.state.status ++ leBytes 1 t.cause ++ leBytes 2 t.gen ++ leBytes 4 t.bytes ++ leBytes 8 t.t

/-- The save area of a core, in a way that is scratch of context 0 (R324). -/
def State.saveBase (s : State) (i : Nat) : Option Nat :=
  let c := colOf i
  let w := Config.saveWay c % 16
  let o := s.ms.owner c w
  if o.scratch ∧ o.ctx = 0 then some (s.ms.forward (wayBase c w) + i % 256 * 0x80000) else none

/-- The completion of a token of a task that has been saved updates the saved token table (R323, R324). -/
def State.saveToken (s : State) (core n : Nat) (t : Token) : State :=
  if (s.core core).isSaved && (kget Token.init (s.core core).tokens n).gen == t.gen then
    match s.saveBase core with
    | some base => { s with ms := { s.ms with mem := mwrite s.ms.mem (base + 0x70800 + 16 * n) t.save } }
    | none => s
  else s

/-- A generation leaves pending with an outcome, and every queued operation that names it learns of it. -/
def State.retire (s : State) (core n gen : Nat) (o : Outcome) : State :=
  if n = 0 then s
  else
    let t : Token := { state := o.st, cause := o.cause, gen := gen, bytes := o.bytes, t := o.t, cycle := s.cycle }
    (s.saveToken core n t).modCore core fun k =>
      { k with
        tokens := if (kget Token.init k.tokens n).gen = gen then kput k.tokens n t else k.tokens
        queues := k.queues.map fun q => (q.1, q.2.map fun e => e.resolve n t)
        mx := { k.mx with queue := k.mx.queue.map fun e => e.resolve n t }
        slips := k.slips.map fun x => x.resolve n t }

/-- Put an operation among the started ones. -/
def State.addStarted (s : State) (core : Nat) (e : EngEntry) (st : Stage) : State :=
  s.modCore core fun k => { k with started := k.started ++ [{ id := e.serial, e := e, stage := st, orphan := none }] }

/-- Change the stage of a started operation. -/
def State.setStage (s : State) (core id : Nat) (st : Stage) : State :=
  s.modCore core fun k => { k with started := k.started.map fun x => if x.id = id then { x with stage := st } else x }

/-- The largest logical time that the operation's consumed tokens carry. -/
def EngEntry.inTime (e : EngEntry) : Nat :=
  e.consumed.foldl (fun t r => match r.st with
    | some x => Nat.max t x.t
    | none => t) 0

/-- The token that a write of an operation stands under (R307). -/
def tokOf (prod : Nat) : Option Nat := if prod = 0 then none else some prod

/-- Whether every consumed generation has left pending (R306). -/
def EngEntry.ready (e : EngEntry) : Bool := e.consumed.all fun r => r.st.isSome

/-- The outcome of an operation with a consumed token that is not done (R306). -/
def EngEntry.cancelled (e : EngEntry) : Option Outcome :=
  (e.consumed.findSome? fun r => r.st.bind fun t =>
    if t.state = .faulted ∨ t.state = .cancelled then some t.cause else none).map fun cause => outcome .cancelled cause 0 0

/-- Whether the engines of a core may start operations: not while it is suspended (R323). -/
def Core.engines (k : Core) : Bool :=
  k.run == .running || k.run == .ending || k.run == .sleeping

/-- List what a `launch` answered, in the order of issue, when it belongs to the core's tile task (R237). One without an identifier, whether it failed at
its enqueue, found the pool full, was cancelled with a token that it consumes (R306) or faulted by a pool that does not grow (R239), counts as failed
at enqueue: of the last two a DESIGN CHOICE (log 23). -/
def Core.noteLaunch (k : Core) (serial : Nat) (lid : Option Nat) : Core :=
  if serial < k.taskSerial then k
  else { k with launches := k.launches.filter (fun x => decide (x.1 < serial)) ++ (serial, lid) :: k.launches.filter fun x => decide (serial < x.1) }

/-- The completion of a `fence`: the core's clock rises to what its tokens carry, the token's time is the clock, and at a wide scope the load
buffer empties (R207, R208). Of one whose task was ended nothing is left (R26). -/
def State.endFence (s : State) (core : Nat) (x : Started) (o : Outcome) : State × Outcome :=
  match x.e.op, x.orphan with
  | .fence scope _, none =>
    let s1 := s.modCore core fun k => { k.raise o.t with loadBuf := if scopeEmpties scope then [] else k.loadBuf }
    (s1, { o with t := (s1.core core).ltime })
  | _, _ => (s, o)

/-- The registers, the token and the entry of a finished operation (R304, R307); of one whose task was ended only the entry (R26).
A token that an uncorrectable error faults is treated as the launch requires (R333). -/
def State.complete (s0 : State) (core : Nat) (x : Started) (o0 : Outcome) : State :=
  let (s, o) := s0.endFence core x o0
  let s1 := s.modCore core fun k => { k with started := k.started.filter fun y => y.id ≠ x.id }
  if x.orphan.isSome then s1 else
  let s2 := o.regs.foldl (fun s r => s.land core .a x.e.bundle (tokOf x.e.prod) (.scalar r.1 r.2 false)) s1
  let s3 := s2.retire core x.e.prod x.e.gen o
  let s3 := if o.st = .faulted ∧ o.cause = Cause.uncorrectable.code then { s3 with agenda := s3.agenda ++ [.uncorrectableError core false none 0] } else s3
  match x.e.op with
  | .launch .. => s3.modCore core fun k => k.noteLaunch x.e.serial (match o.regs with
      | (_, v) :: _ => if o.st = .done then some v.toNat else none
      | [] => none)
  | _ => s3

/-! ### Completion records (R257, R258) -/

/-- The 16 bytes of a completion record (R257). -/
def recordBytes (tok : Nat) (o : Outcome) : List Byte :=
  leBytes 8 (tok + o.st.status * 64 + o.cause * 256 + o.tag % 65536 * 65536 + o.bytes % 2 ^ 32 * 2 ^ 32) ++ leBytes 8 o.t

/-- A ring descriptor that firmware has not set (R258). -/
def Ring.unset : Ring := { base := 0, log2 := 0, head := 0, tail := 0, valid := false }

/-- Index of a ring: eight per context per column (R258). -/
def ringIx (ctx col n : Nat) : Nat := (ctx * 8 + col) * 8 + n

/-- Records in a ring. -/
def Ring.size (r : Ring) : Nat := 2 ^ r.log2

/-- Where an agent of the hub finds a tagged address of a context: tag 0x0 through translation, tag 0xC in the
context's scratch of a column (R153, R258, R267). -/
def hubPlace (s : State) (ctx col : Nat) (a : W64) (n : Nat) (acc : Access) : Except Cause Place :=
  match decodeAddr (s.ms.scratchSize ctx col) a n with
  | some (.global va) =>
    if ctx = 0 then (if isScratch va && !s.ms.wayFor 0 va then .error .protection else .ok (.phys (s.ms.forward va)))
    else match findLeaf s ctx va with
      | none => .error .translation
      | some (level, e) =>
        match leafTarget s ctx va level e acc with
        | .ok t => .ok (if t.pkg = s.pkg then .phys t.addr else .far t.pkg t.addr)
        | .error e => .error e
  | some (.scratch off) => .ok (.phys (s.ms.scratchPhys ctx col off))
  | _ => .error .addressSpace

/-- Whether the page of a global address of a context is replicated (R295, R296). -/
def hubGroup (s : State) (ctx : Nat) (a : W64) : Bool :=
  ctx != 0 && field a 57 7 == 0 && match findLeaf s ctx a.toNat with
    | some (_, e) => bits e 4 1 == 1
    | none => false

/-- An agent of the hub writes bytes within one line at a place that it found for an address: at the home, or as a posted store to another
package (R203, R204, R295). -/
def State.hubStore (s : State) (ctx : Nat) (a : W64) (floor : Nat) (p : Place) (bs : List Byte) : State × Nat :=
  let (s1, t) := s.engWrite floor p bs
  let s2 := match p with
    | .far k q => s1.sendFabric k 0 (.access 65535 0 (.store q bs 0))
    | _ => s1
  match p with
  | .phys q | .far _ q => (if hubGroup s ctx a then s2.replicate ctx q bs else s2, t)
  | .buf .. => (s2, t)

/-- COMPLETION_RECORD_WRITE: the record of a finished operation takes a slot of its ring, once one is free (R258). A `fence` completes with it, so
that record and token hold the clock at completion (R207). -/
def execCompletionRecordWrite (core idx : Nat) (s0 : State) : Res :=
  match (s0.core core).started[idx]? with
  | some x =>
    match x.stage with
    | .finished o0 false =>
      if !x.e.cr then .next s0
      else
        let (s, o) := s0.endFence core x o0
        let ctx := x.orphan.getD (s.core core).ctx
        let ix := ringIx ctx (colOf core) x.e.ring
        let r := kget .unset s.hub.rings ix
        let bad : Outcome := { o with st := .faulted, cause := Cause.record.code }
        if !r.valid then .next (s.setStage core x.id (.finished bad true))
        else if r.size ≤ r.tail - r.head then .next s0
        else
          let a := r.base + BitVec.ofNat 64 (16 * (r.tail % r.size))
          match hubPlace s ctx (colOf core) a 16 .write with
          | .error _ => .next (s.setStage core x.id (.finished bad true))
          | .ok p =>
            let (_, t) := s.engWrite o.t p (List.replicate 16 0)
            let (s2, _) := s.hubStore ctx a o.t p (recordBytes x.e.prod { o with t := t })
            let s3 := { s2 with hub := { s2.hub with rings := kput s2.hub.rings ix { r with tail := r.tail + 1 } } }
            .next (if x.e.op matches .fence .. then s3.complete core x { o with t := t } else s3.setStage core x.id (.finished { o with t := t } true))
    | _ => .next s0
  | none => .next s0

end Sys2Proof.Machine
end

