-- ==== Sys2Proof/Machine/Flags.lean ====
section
/-!
DEFINITION. The sticky flags of `status` (R141) as numbers, so that sets of flags are ORed.
-/
namespace Sys2Proof.Machine

/-- A set of status flags in the layout of R141. -/
abbrev FlagSet := Nat

/-- NV, invalid (R65). -/
def flNV : FlagSet := 1
/-- OF, overflow (R79). -/
def flOF : FlagSet := 2
/-- UF, underflow (R79). -/
def flUF : FlagSet := 4
/-- NX, inexact (R79). -/
def flNX : FlagSet := 8
/-- SAT, saturated (R81, R91, R119). -/
def flSAT : FlagSet := 16
/-- MPSMISS, a scale that found no block (R184). -/
def flMPS : FlagSet := 32

/-- A flag when a condition holds. -/
def flagIf (b : Bool) (f : FlagSet) : FlagSet := if b then f else 0

/-- The flags of many results, ORed (R119). -/
def orFlags (fs : List FlagSet) : FlagSet := fs.foldl (fun a b => a ||| b) 0

end Sys2Proof.Machine
end

