-- ==== Sys2Proof/Machine/Float.lean ====
section
/-!
DEFINITION. Number formats and arithmetic (04_values.md): exact values, decoding (R64, R77), Round (R79),
conversions (R81 to R84), lg6 (R67 to R70) and the exact sums and products (R65, R66, R69).
-/
namespace Sys2Proof.Machine

/-- Special values of a float format (R75). -/
inductive Specials | ieee | nanOnly | noSpecials
  deriving DecidableEq, Repr

/-- A float format (R64, R75). -/
structure Fmt where
  ew : Nat
  mw : Nat
  bias : Nat
  sg : Bool
  sp : Specials
  sub : Bool
  deriving DecidableEq, Repr

/-- fp32 (R64). -/
def fp32 : Fmt := ⟨8, 23, 127, true, .ieee, true⟩
/-- fp16 (R64). -/
def fp16 : Fmt := ⟨5, 10, 15, true, .ieee, true⟩
/-- bf16 (R64). -/
def bf16 : Fmt := ⟨8, 7, 127, true, .ieee, true⟩
/-- fp8e4 (R64). -/
def fp8e4 : Fmt := ⟨4, 3, 7, true, .nanOnly, true⟩
/-- fp8e5 (R64). -/
def fp8e5 : Fmt := ⟨5, 2, 15, true, .ieee, true⟩

/-- The width of a code in bits. -/
def Fmt.width (f : Fmt) : Nat := f.ew + f.mw + if f.sg then 1 else 0

/-- An exact value: NaN, a signed infinity, or (−1)^neg × m × 2^e (R85). -/
inductive FVal
  | nan
  | inf (neg : Bool)
  | fin (neg : Bool) (m : Nat) (e : Int)
  deriving DecidableEq, Repr

/-- The sign of a value that is not NaN. -/
def FVal.neg : FVal → Bool
  | .nan => false
  | .inf s => s
  | .fin s _ _ => s

/-- A zero of either sign. -/
def FVal.isZero : FVal → Bool
  | .fin _ 0 _ => true
  | _ => false

/-- An integer as a value; 0 is +0. -/
def FVal.ofInt (x : Int) : FVal := .fin (decide (x < 0)) x.natAbs 0

/-- The value of a code (R64, R77). -/
def decodeFloat (f : Fmt) (code : Nat) : FVal :=
  let s := f.sg && bits code (f.ew + f.mw) 1 == 1
  let e := bits code f.mw f.ew
  let m := bits code 0 f.mw
  let ones := decide (e = 2 ^ f.ew - 1)
  match f.sp, ones with
  | .ieee, true => if m = 0 then .inf s else .nan
  | .nanOnly, true =>
    if m = 2 ^ f.mw - 1 then .nan else .fin s (2 ^ f.mw + m) ((e : Int) - f.bias - f.mw)
  | _, _ =>
    if e = 0 then
      if f.sub then .fin s m (1 - (f.bias : Int) - f.mw) else .fin s 0 0
    else .fin s (2 ^ f.mw + m) ((e : Int) - f.bias - f.mw)

/-- The exponent and mantissa of the largest finite value (R64, R77); 0 where a format without subnormals has no other finite
value. -/
def Fmt.maxCode (f : Fmt) : Nat :=
  let top := match f.sp with
    | .ieee => (2 ^ f.ew - 1) * 2 ^ f.mw - 1
    | .nanOnly => 2 ^ (f.ew + f.mw) - 2
    | .noSpecials => 2 ^ (f.ew + f.mw) - 1
  if !f.sub && top < 2 ^ f.mw then 0 else top

/-- A code with a sign; in a format without sign a non-zero negative result becomes +0 and sets NV (R77), and
no NX (DEDUCED, log 29). -/
def Fmt.signed (f : Fmt) (neg : Bool) (code : Nat) (fl : FlagSet) : Nat × FlagSet :=
  if !neg then (code, fl)
  else if f.sg then (code + 2 ^ (f.ew + f.mw), fl)
  else if code = 0 then (0, fl) else (0, fl ||| flNV)

/-- The canonical NaN, or +0 with NV where the format has none (R65, R77). -/
def Fmt.nan (f : Fmt) : Nat × FlagSet :=
  match f.sp with
  | .ieee => ((2 ^ f.ew - 1) * 2 ^ f.mw + 2 ^ (f.mw - 1), 0)
  | .nanOnly => (2 ^ (f.ew + f.mw) - 1, 0)
  | .noSpecials => (0, flNV)

/-- Infinity, or the largest finite value with OF, and no NX, where the format has none (R77; DEDUCED, log 29). -/
def Fmt.inf (f : Fmt) (neg : Bool) : Nat × FlagSet :=
  match f.sp with
  | .ieee => f.signed neg ((2 ^ f.ew - 1) * 2 ^ f.mw) 0
  | _ => f.signed neg f.maxCode flOF

/-- m × 2^−r rounded to an integer, and whether that changed it (R79). -/
def roundShift (mode : Rounding) (m r : Nat) : Nat × Bool :=
  let k := m / 2 ^ r
  let rest := m % 2 ^ r
  match mode with
  | .rne =>
    let half := 2 ^ r / 2
    if rest = 0 then (k, false)
    else if half < rest ∨ (rest = half ∧ k % 2 = 1) then (k + 1, true) else (k, true)
  | .rtz => (k, rest ≠ 0)
  | .rto => (if rest ≠ 0 ∧ k % 2 = 0 then k + 1 else k, rest ≠ 0)

/-- Round of R79: the code and the flags. -/
def roundTo (f : Fmt) (mode : Rounding) : FVal → Nat × FlagSet
  | .nan => f.nan
  | .inf s => f.inf s
  | .fin s 0 _ => f.signed s 0 0
  | .fin s m e =>
    let emin : Int := 1 - (f.bias : Int)
    let low : Int := emin - f.mw
    let qe : Int := Max.max (e + (Nat.log2 m : Int)) emin - f.mw
    let (k, inexact) :=
      if qe ≤ e then (m * 2 ^ (e - qe).toNat, false) else roundShift mode m (qe - e).toNat
    let code := (qe - low).toNat * 2 ^ f.mw + k
    let nx := flagIf inexact flNX
    if k = 0 then f.signed s 0 (flUF ||| flNX)
    else if f.maxCode < code then
      if mode = .rne ∧ f.sp = .ieee then f.signed s ((2 ^ f.ew - 1) * 2 ^ f.mw) (flOF ||| flNX)
      else f.signed s f.maxCode (flOF ||| flNX)
    else if code < 2 ^ f.mw then
      if f.sub then f.signed s code (nx ||| flagIf inexact flUF) else f.signed s 0 (flUF ||| flNX)
    else f.signed s code nx

/-! ### Exact sums and products -/

/-- A product, and whether it created a NaN (R65, R66). -/
def mulVal : FVal → FVal → FVal × Bool
  | .nan, _ => (.nan, false)
  | _, .nan => (.nan, false)
  | .inf s, y => if y.isZero then (.nan, true) else (.inf (s != y.neg), false)
  | x, .inf t => if x.isZero then (.nan, true) else (.inf (x.neg != t), false)
  | .fin s m e, .fin t n g => (.fin (s != t) (m * n) (e + g), false)

/-- A finite value as an integer multiple of 2^g, for g at most its exponent. -/
def scaled (g : Int) : FVal → Int
  | .fin s m e => (if s then -1 else 1) * (m * 2 ^ (e - g).toNat : Nat)
  | _ => 0

/-- The exponent of a value, 0 for zeros and specials. -/
def FVal.exp0 : FVal → Int
  | .fin _ 0 _ => 0
  | .fin _ _ e => e
  | _ => 0

/-- An exact sum of any number of addends, and whether it created a NaN (R65, R66). -/
def sumVal (xs : List FVal) : FVal × Bool :=
  if xs.any fun x => x == .nan then (.nan, false)
  else
    let p := xs.any fun x => x == .inf false
    let n := xs.any fun x => x == .inf true
    if p && n then (.nan, true)
    else if p || n then (.inf n, false)
    else
      let g := xs.foldl (fun a x => Min.min a x.exp0) 0
      let t := xs.foldl (fun a x => a + scaled g x) 0
      if t = 0 then (.fin (!xs.isEmpty && xs.all fun x => x.isZero && x.neg) 0 0, false)
      else (.fin (decide (t < 0)) t.natAbs g, false)

/-- The negated value. -/
def FVal.negate : FVal → FVal
  | .nan => .nan
  | .inf s => .inf !s
  | .fin s m e => .fin (!s) m e

/-- Multiply by 2^k exactly (R89). -/
def FVal.scale (k : Int) : FVal → FVal
  | .fin s m e => .fin s m (e + k)
  | x => x

/-- The result of an operation, NV added when it created a NaN (R65). -/
def roundNew (f : Fmt) (mode : Rounding) (x : FVal × Bool) : Nat × FlagSet :=
  let (code, fl) := roundTo f mode x.1
  (code, fl ||| flagIf x.2 flNV)

/-- Whether x is less than y; neither is NaN. -/
def lessVal (x y : FVal) : Bool :=
  match x, y with
  | .inf s, .inf t => s && !t
  | .inf s, _ => s
  | _, .inf t => !t
  | _, _ =>
    let g := Min.min x.exp0 y.exp0
    decide (scaled g x < scaled g y)

/-- A comparison of `vfcmp` (R127). -/
def fcondHolds (c : FCond) (x y : FVal) : Bool :=
  if x = .nan ∨ y = .nan then (match c with | .ne | .un => true | .eq | .lt | .le | .ord => false)
  else match c with
    | .eq => !lessVal x y && !lessVal y x
    | .ne => lessVal x y || lessVal y x
    | .lt => lessVal x y
    | .le => !lessVal y x
    | .un => false
    | .ord => true

/-- Below in the order of R128, in which −0 lies below +0. -/
def lowerVal (x y : FVal) : Bool :=
  lessVal x y || (x.isZero && y.isZero && x.neg && !y.neg)

/-- `vfmin` (false) and `vfmax` (true) of two codes (R128). -/
def minMaxCode (f : Fmt) (isMax : Bool) (a b : Nat) : Nat :=
  let x := decodeFloat f a
  let y := decodeFloat f b
  if x = .nan then (if y = .nan then f.nan.1 else b)
  else if y = .nan then a
  else if isMax then (if lowerVal x y then b else a) else (if lowerVal y x then b else a)

/-! ### Integer conversions (R81) -/

/-- Clamp to a range, and whether that changed the value. -/
def clampInt (lo hi x : Int) : Int × Bool :=
  if x < lo then (lo, true) else if hi < x then (hi, true) else (x, false)

/-- The smallest and largest value of an integer format of `n` bits (R62). -/
def intRange (sgn : Bool) (n : Nat) : Int × Int :=
  if sgn then (-(2 ^ (n - 1) : Nat), (2 ^ (n - 1) : Nat) - 1) else (0, (2 ^ n : Nat) - 1)

/-- A clamp into an integer format of `n` bits, as its code, with SAT (R62, R81). -/
def clampCode (sgn : Bool) (n : Nat) (x : Int) : Nat × FlagSet :=
  let r := intRange sgn n
  let (y, sat) := clampInt r.1 r.2 x
  ((y % (2 ^ n : Nat)).toNat, flagIf sat flSAT)

/-- A float to an integer format: rounded in the mode, then clamped (R81). -/
def floatToInt (sgn : Bool) (n : Nat) (mode : Rounding) (x : FVal) : Nat × FlagSet :=
  match x with
  | .nan => (0, flNV)
  | .inf s =>
    let r := intRange sgn n
    (((if s then r.1 else r.2) % (2 ^ n : Nat)).toNat, flSAT)
  | .fin s m e =>
    let (k, nx) := if 0 ≤ e then (m * 2 ^ e.toNat, false) else roundShift mode m (-e).toNat
    let (code, fl) := clampCode sgn n (if s then -(k : Int) else k)
    (code, fl ||| flagIf nx flNX)

/-! ### lg6 (R67 to R70) -/

/-- The table of R68. -/
def lg6Table (i : Nat) : Nat := match i % 4 with | 0 => 128 | 1 => 152 | 2 => 181 | _ => 215

/-- The value of an lg6 code, bits [7:6] ignored (R63, R67, R68). -/
def lg6Val (code : Nat) : FVal :=
  let c := code % 64
  if c = 0x20 then .fin false 0 0
  else .fin (bits c 5 1 == 1) (lg6Table (bits c 0 5)) ((bits c 0 5 / 4 : Nat) - 11)

/-- The product of two lg6 codes (R69): the table entry of the summed exponent. -/
def lg6Mul (a b : Nat) : FVal :=
  let x := a % 64
  let y := b % 64
  if x = 0x20 ∨ y = 0x20 then .fin false 0 0
  else
    let s := bits x 0 5 + bits y 0 5
    .fin (bits x 5 1 != bits y 5 1) (lg6Table s) ((s / 4 : Nat) - 15)

/-- |x| in units of 2^−16, rounded down, with whether that lost something; lg6 decisions need no more. -/
def lg6Units (m : Nat) (e : Int) : Nat × Bool :=
  if -16 ≤ e then (m * 2 ^ (e + 16).toNat, false)
  else (m / 2 ^ (-16 - e).toNat, m % 2 ^ (-16 - e).toNat ≠ 0)

/-- Table magnitude of exponent e in units of 2^−16 (R68). -/
def lg6Mag (e : Nat) : Nat := lg6Table e * 2 ^ (e / 4 + 5)

/-- The exponent whose table value lies nearest to u units (plus a lost fraction), ties to even (R70). -/
def lg6Nearest (u : Nat) (lost : Bool) : Nat :=
  (List.range 31).foldl (fun best e =>
    let mid2 := lg6Mag e + lg6Mag (e + 1)
    if mid2 < 2 * u ∨ (mid2 = 2 * u ∧ (lost ∨ e % 2 = 1)) then e + 1 else best) 0

/-- Conversion into lg6 (R70). The result is a non-zero code with the sign of x, and the format has no −2⁻⁴ (R67): below zero the
smallest exponent is 1 (DEDUCED, log 22). -/
def toLg6 : FVal → Nat × FlagSet
  | .nan => (0x20, flNV)
  | .inf s => (0x1F + (if s then 0x20 else 0), flOF ||| flNX)
  | .fin s m e =>
    if m = 0 then (0x20, 0)
    else
      let (u, lost) := lg6Units m e
      if u < 2048 ∨ (u = 2048 ∧ !lost) then (0x20, flNX)
      else
        let g0 := lg6Nearest u lost
        let g := if s then Nat.max 1 g0 else g0
        let ovf := decide (lg6Mag 31 < u ∨ (lg6Mag 31 = u ∧ lost))
        (g + (if s then 0x20 else 0),
          flagIf ovf flOF ||| flagIf (decide (lg6Mag g ≠ u) || lost) flNX)

/-! ### Format descriptors (R75, R76) -/

/-- The code width that W selects (R75). -/
def nfWidth (d : Nat) : Option Nat :=
  match bits d 0 2 with | 0 => some 4 | 1 => some 6 | 2 => some 8 | _ => none

/-- Whether a descriptor is valid (R76). -/
def nfValid (d : Nat) : Bool :=
  let ew := bits d 2 3
  let mw := bits d 5 4
  let sp := bits d 18 2
  match nfWidth d with
  | none => false
  | some w =>
    sp ≠ 3 && bits d 21 2 ≠ 3 && bits d 23 9 == 0 && mw ≤ 8 && bits d 9 1 + ew + mw == w &&
      (ew ≠ 0 || (sp == 2 && bits d 20 1 == 0 && bits d 10 8 == 0)) && (sp ≠ 0 || mw ≠ 0)

/-- The float format of a descriptor with EW > 0. -/
def nfFmt (d : Nat) : Fmt where
  ew := bits d 2 3
  mw := bits d 5 4
  bias := bits d 10 8
  sg := bits d 9 1 == 1
  sp := match bits d 18 2 with | 0 => .ieee | 1 => .nanOnly | _ => .noSpecials
  sub := bits d 20 1 == 1

/-- The rounding mode of a descriptor (R75). -/
def nfMode (d : Nat) : Rounding := match bits d 21 2 with | 1 => .rto | 2 => .rtz | _ => .rne

end Sys2Proof.Machine
end

