-- ==== Sys2Proof/Machine/Vector.lean ====
section
/-!
DEFINITION. The vector frame (R113, R116 to R119), integer and lane operations, masks and the mask stack, and
the integer reductions' shared part (R120 to R125, R132).
-/
namespace Sys2Proof.Machine

/-! ### The frame of R116 -/

/-- The lane results of one operation: per enabled cluster the active lanes with value and flags. -/
def laneResults (s : State) (c : Cursor) (op : Nat → Nat → W32 × FlagSet) :
    List (Nat × List (Nat × W32 × FlagSet)) :=
  (s.enabled c).map fun cl => (cl, (s.active c cl).map fun i => (i, op cl i))

/-- The flags of all active lanes, ORed (R119). -/
def laneFlags (rs : List (Nat × List (Nat × W32 × FlagSet))) : FlagSet :=
  orFlags (rs.flatMap fun r => r.2.map fun e => e.2.2)

/-- The DF bit that R116 gives vd: the sources' OR, and the old bit unless every lane is active. -/
def destDf (s : State) (c : Cursor) (vd cl : Nat) (src : Bool) : Bool :=
  src || (s.top c cl != 0xFFFF && s.vf c cl vd)

/-- Write lane results into vd of the enabled clusters (R116). -/
def vframe (s : State) (c : Cursor) (lat vd : Nat) (src : Nat → Bool) (op : Nat → Nat → W32 × FlagSet) : Res :=
  let rs := laneResults s c op
  let ws := rs.map fun r =>
    WriteTo.vector r.1 vd (r.2.map fun e => (e.1, e.2.1)) (destDf s c vd r.1 (src r.1))
  .next ((s.puts c lat ws).flag c lat (BitVec.ofNat 64 (laneFlags rs)))

/-- A lane function of va and vb. -/
def lane2 (f : W32 → W32 → W32 × FlagSet) (lat : Nat) (vd va vb : Reg) (s : State) : Res :=
  slotOp s [.v vd.val, .v va.val, .v vb.val] fun c =>
    vframe s c lat vd.val (fun cl => s.vf c cl va.val || s.vf c cl vb.val)
      fun cl i => f (s.vr c cl va.val i) (s.vr c cl vb.val i)

/-- A lane function of va. -/
def lane1 (f : W32 → W32 × FlagSet) (lat : Nat) (vd va : Reg) (s : State) : Res :=
  slotOp s [.v vd.val, .v va.val] fun c =>
    vframe s c lat vd.val (fun cl => s.vf c cl va.val) fun cl i => f (s.vr c cl va.val i)

/-- A lane function of va, vb and vd. -/
def lane3 (f : W32 → W32 → W32 → W32 × FlagSet) (lat : Nat) (vd va vb : Reg) (s : State) : Res :=
  slotOp s [.v vd.val, .v va.val, .v vb.val] fun c =>
    vframe s c lat vd.val (fun cl => s.vf c cl va.val || s.vf c cl vb.val || s.vf c cl vd.val)
      fun cl i => f (s.vr c cl va.val i) (s.vr c cl vb.val i) (s.vr c cl vd.val i)

/-- A lane value without flags. -/
def plain (x : W32) : W32 × FlagSet := (x, 0)

/-- Clusters as a mask. -/
def clusterBits (cls : List Nat) : Nat := cls.foldl (fun n cl => n + 2 ^ cl) 0

/-- A vector register whose DF bit is 1 in an enabled cluster traps with DF_CONSUMED (R118, R171); the first of
`rs` decides; otherwise go on. -/
def withCleanV (s : State) (c : Cursor) (rs : List Reg) (f : Unit → Res) : Res :=
  let bad (r : Reg) : List Nat := (s.enabled c).filter fun cl => s.vf c cl r.val
  match rs.find? fun r => !(bad r).isEmpty with
  | some r => takeTrap s c .dfConsumed (dfTval c r.val true (clusterBits (bad r)))
  | none => f ()

/-! ### Integer operations (R123) -/

/-- A result clamped to 32 bits under a saturating variant, with SAT (R119). -/
def satLane (k : SatKind) (signedVal unsignedVal : Int) : W32 × FlagSet :=
  match k with
  | .wrap => (BitVec.ofInt 32 signedVal, 0)
  | .ss =>
    let r := clampInt (-(2 ^ 31)) (2 ^ 31 - 1) signedVal
    (BitVec.ofInt 32 r.1, flagIf r.2 flSAT)
  | .us =>
    let r := clampInt 0 (2 ^ 32 - 1) unsignedVal
    (BitVec.ofInt 32 r.1, flagIf r.2 flSAT)

/-- `vadd`, `vsub` and `vmul` (R123). -/
def arithLane (f : Int → Int → Int) (k : SatKind) (x y : W32) : W32 × FlagSet :=
  satLane k (f x.toInt y.toInt) (f x.toNat y.toNat)

/-- `vmulh`: bits [63:32] of the exact product (R123). -/
def mulHigh32 (k : MulKind) (x y : W32) : W32 :=
  let p : Int := match k with
    | .ss => x.toInt * y.toInt
    | .uu => (x.toNat : Int) * y.toNat
    | .su => x.toInt * y.toNat
  BitVec.ofInt 32 (p / 2 ^ 32)

/-- The smaller lane. -/
def minLane (u : Bool) (x y : W32) : W32 := if (if u then x.ult y else x.slt y) then x else y
/-- The larger lane. -/
def maxLane (u : Bool) (x y : W32) : W32 := if (if u then y.ult x else y.slt x) then x else y

/-- `vabs` (R123). -/
def absLane (sat : Bool) (x : W32) : W32 × FlagSet :=
  if sat then satLane .ss x.toInt.natAbs 0 else plain (if x.slt 0 then -x else x)

/-- `vadd` (R123). -/
def execVadd (vd va vb : Reg) (k : SatKind) (s : State) : Res := lane2 (arithLane (fun x y => x + y) k) 2 vd va vb s
/-- `vsub` (R123). -/
def execVsub (vd va vb : Reg) (k : SatKind) (s : State) : Res := lane2 (arithLane (fun x y => x - y) k) 2 vd va vb s
/-- `vmul` (R123). -/
def execVmul (vd va vb : Reg) (k : SatKind) (s : State) : Res := lane2 (arithLane (fun x y => x * y) k) 2 vd va vb s
/-- `vmulh` (R123). -/
def execVmulh (vd va vb : Reg) (k : MulKind) (s : State) : Res := lane2 (fun x y => plain (mulHigh32 k x y)) 2 vd va vb s
/-- `vmin` (R123). -/
def execVmin (vd va vb : Reg) (u : Bool) (s : State) : Res := lane2 (fun x y => plain (minLane u x y)) 2 vd va vb s
/-- `vmax` (R123). -/
def execVmax (vd va vb : Reg) (u : Bool) (s : State) : Res := lane2 (fun x y => plain (maxLane u x y)) 2 vd va vb s
/-- `vabs` (R123). -/
def execVabs (vd va : Reg) (sat : Bool) (s : State) : Res := lane1 (absLane sat) 2 vd va s
/-- `vand` (R123). -/
def execVand (vd va vb : Reg) (s : State) : Res := lane2 (fun x y => plain (x &&& y)) 2 vd va vb s
/-- `vor` (R123). -/
def execVor (vd va vb : Reg) (s : State) : Res := lane2 (fun x y => plain (x ||| y)) 2 vd va vb s
/-- `vxor` (R123). -/
def execVxor (vd va vb : Reg) (s : State) : Res := lane2 (fun x y => plain (x ^^^ y)) 2 vd va vb s
/-- `vnot` (R123). -/
def execVnot (vd va : Reg) (s : State) : Res := lane1 (fun x => plain (~~~x)) 2 vd va s
/-- `vshl` (R123). -/
def execVshl (vd va vb : Reg) (s : State) : Res := lane2 (fun x y => plain (x <<< (y.toNat % 32))) 2 vd va vb s
/-- `vshr` (R123). -/
def execVshr (vd va vb : Reg) (s : State) : Res := lane2 (fun x y => plain (x >>> (y.toNat % 32))) 2 vd va vb s
/-- `vsra` (R123). -/
def execVsra (vd va vb : Reg) (s : State) : Res := lane2 (fun x y => plain (x.sshiftRight (y.toNat % 32))) 2 vd va vb s

/-! ### Moves, constants and permutes (R124) -/

/-- `vmov` (R124). -/
def execVmov (vd va : Reg) (s : State) : Res := lane1 plain 2 vd va s

/-- A lane function without vector sources, `src` the DF bit of a scalar source (R117). -/
def laneOf (s : State) (c : Cursor) (lat : Nat) (vd : Reg) (src : Bool) (f : Nat → Nat → W32) : Res :=
  vframe s c lat vd.val (fun _ => src) fun cl i => plain (f cl i)

/-- `vli` with imm16 (R124). -/
def execVli (vd : Reg) (imm : BitVec 16) (s : State) : Res :=
  slotOp s [.v vd.val] fun c => laneOf s c 2 vd false fun _ _ => imm.signExtend 32
/-- `vli` with a 32-bit value (R124). -/
def execVliExt (vd : Reg) (imm : BitVec 32) (s : State) : Res :=
  slotOp s [.v vd.val] fun c => laneOf s c 2 vd false fun _ _ => imm
/-- `viota` (R124). -/
def execViota (vd : Reg) (g : Bool) (s : State) : Res :=
  slotOp s [.v vd.val] fun c => laneOf s c 2 vd false fun cl i => BitVec.ofNat 32 (if g then 16 * cl + i else i)
/-- `vbcast` (R124). -/
def execVbcast (vd sa : Reg) (hi : Bool) (s : State) : Res :=
  slotOp s [.v vd.val, .s sa.val] fun c =>
    let x := s.sr c sa.val
    laneOf s c 2 vd x.df fun _ _ => BitVec.ofNat 32 (field x.val (if hi then 32 else 0) 32)
/-- `vsel` (R124). -/
def execVsel (vd va vb : Reg) (k : KReg) (s : State) : Res :=
  slotOp s [.v vd.val, .v va.val, .v vb.val] fun c =>
    vframe s c 2 vd.val (fun cl => s.vf c cl va.val || s.vf c cl vb.val) fun cl i =>
      plain (if bits (s.kr c cl k.val).toNat i 1 = 1 then s.vr c cl va.val i else s.vr c cl vb.val i)
/-- `vperm` (R124). -/
def execVperm (vd va vb : Reg) (s : State) : Res :=
  slotOp s [.v vd.val, .v va.val, .v vb.val] fun c =>
    vframe s c 2 vd.val (fun cl => s.vf c cl va.val || s.vf c cl vb.val) fun cl i =>
      plain (s.vr c cl va.val ((s.vr c cl vb.val i).toNat % 16))

/-- The source cluster of `vxc` (R124). -/
def xcSource (k : XcKind) (n cl : Nat) : Nat :=
  match k with
  | .rot => (cl + n) % 8
  | .bc => n
  | .xor => cl ^^^ n

/-- `vxc`, L = 6; it reads the source cluster whether or not that is enabled (R113, R124). -/
def execVxc (vd va : Reg) (n : Fin 8) (k : XcKind) (s : State) : Res :=
  slotOp s [.v vd.val, .v va.val] fun c =>
    vframe s c 6 vd.val (fun cl => s.vf c (xcSource k n.val cl) va.val) fun cl i =>
      plain (s.vr c (xcSource k n.val cl) va.val i)

/-- `vext`: the lane of the lowest enabled cluster; 0 with DF 0 when none is (R113, R117, R124). -/
def execVext (sd va : Reg) (lane : Fin 16) (sgn : Bool) (s : State) : Res :=
  slotOp s [.s sd.val, .v va.val] fun c =>
    match s.enabled c with
    | [] => .next (s.put c 2 (.scalar sd.val 0 false))
    | cl :: _ =>
      let x := s.vr c cl va.val lane.val
      .next (s.put c 2 (.scalar sd.val (if sgn then x.signExtend 64 else x.setWidth 64) (s.vf c cl va.val)))

/-! ### Masks (R120 to R122) -/

/-- Lane bits as a mask: bit i for each lane of the list that `f` holds of. -/
def laneMask (lanes : List Nat) (f : Nat → Bool) : BitVec 16 :=
  BitVec.ofNat 16 (lanes.foldl (fun n i => if f i then n + 2 ^ i else n) 0)

/-- Write a mask register in the enabled clusters: 0 in inactive lanes (R120). -/
def maskOut (s : State) (c : Cursor) (lat : Nat) (kd : KReg) (f : Nat → Nat → Bool) : Res :=
  .next (s.puts c lat ((s.enabled c).map fun cl => .mask cl kd.val (laneMask (s.active c cl) (f cl))))

/-- `vcmp` (R118, R120, R123). -/
def execVcmp (cd : Cond) (kd : KReg) (va vb : Reg) (s : State) : Res :=
  slotOp s [.v va.val, .v vb.val] fun c => withCleanV s c [va, vb] fun _ =>
    maskOut s c 2 kd fun cl i => condHolds32 cd (s.vr c cl va.val i) (s.vr c cl vb.val i)

/-- A change of the mask stacks of the enabled clusters (R121). -/
def stackOut (s : State) (c : Cursor) (f : Nat → Nat × KMap (BitVec 16) → Nat × KMap (BitVec 16)) : Res :=
  .next (s.puts c 2 ((s.enabled c).map fun cl =>
    let st := f cl (s.stack c cl)
    .mstack cl st.1 st.2))

/-- `mpush` (R121, R122). -/
def execMpush (k : KReg) (s : State) : Res :=
  slotOp s [] fun c =>
    if (s.enabled c).any fun cl => (s.stack c cl).1 == 15 then takeTrap s c .illegalSlotOp (slotTval c 6)
    else stackOut s c fun cl st => (st.1 + 1, kput st.2 (st.1 + 1) (s.kr c cl k.val &&& stackEntry st st.1))

/-- `minv` (R121, R122). -/
def execMinv (s : State) : Res :=
  slotOp s [] fun c =>
    if (s.enabled c).any fun cl => (s.stack c cl).1 == 0 then takeTrap s c .illegalSlotOp (slotTval c 7)
    else stackOut s c fun _ st => (st.1, kput st.2 st.1 (stackEntry st (st.1 - 1) &&& ~~~(stackEntry st st.1)))

/-- `mpop` (R121, R122). -/
def execMpop (s : State) : Res :=
  slotOp s [] fun c =>
    if (s.enabled c).any fun cl => (s.stack c cl).1 == 0 then takeTrap s c .illegalSlotOp (slotTval c 7)
    else stackOut s c fun _ st => (st.1 - 1, st.2)

/-- `kmov`, on all 16 bits whatever the active mask (R120, R121). -/
def execKmov (kd ka kb : KReg) (f : KOp) (s : State) : Res :=
  slotOp s [] fun c =>
    .next (s.puts c 2 ((s.enabled c).map fun cl =>
      let a := s.kr c cl ka.val
      let b := s.kr c cl kb.val
      .mask cl kd.val (match f with
        | .mov => a | .and => a &&& b | .or => a ||| b | .xor => a ^^^ b | .andn => a &&& ~~~b | .not => ~~~a
        | .top => s.top c cl)))

/-- `vcm` (R114). -/
def execVcm (j : Fin 4) (m : BitVec 8) (s : State) : Res :=
  slotOp s [] fun c => .next (s.put c 2 (.csr (0x028 + j.val) (m.setWidth 64)))

/-! ### Dot products of bytes (R132) -/

/-- A byte of a lane, signed or not. -/
def laneByte (sgn : Bool) (x : W32) (p : Nat) : Int :=
  let b := bits x.toNat (8 * p) 8
  if sgn then signed 8 b else b

/-- `vdot4` (R132). -/
def dot4Lane (k : DotKind) (sat : Bool) (x y z : W32) : W32 × FlagSet :=
  let t := (List.range 4).foldl (fun t p => t + laneByte (k ≠ .uu) x p * laneByte (k = .ss) y p) z.toInt
  satLane (if sat then .ss else .wrap) t 0

/-- `vdot4` (R132). -/
def execVdot4 (vd va vb : Reg) (sat : Bool) (k : DotKind) (s : State) : Res := lane3 (dot4Lane k sat) 2 vd va vb s

end Sys2Proof.Machine
end

