-- ==== Sys2Proof/Machine/MemSlot.lean ====
section
/-!
DEFINITION. The memory-slot instructions (R161 to R171, R206, R318).
-/
namespace Sys2Proof.Machine

/-- Bytes of a size (R161). -/
def szBytes : MemSize → Nat | .b | .bu => 1 | .h | .hu => 2 | .w | .wu => 4 | .d => 8
/-- Whether a size sign-extends (R161). -/
def szSigned : MemSize → Bool | .b | .h | .w => true | .bu | .hu | .wu | .d => false

/-- The local physical address that a context 0 access names, when it is neither DRAM, nor scratch, nor control space (R188, R190,
R348). -/
def State.oddPhys (s : State) (core n : Nat) (as : List W64) : Option Nat :=
  if (s.core core).ctx = 0 then
    as.findSome? fun a => match s.space core a n with
      | .global va => if isDram va || isScratch va || isControl va then none else some va
      | _ => none
  else none

/-- An access at an address where there is no memory and no control space stops by name; otherwise go on. -/
def onMemory (s : State) (c : Cursor) (n : Nat) (as : List W64) (f : Unit → Res) : Res :=
  match s.oddPhys c.core n as with
  | some p => .fault (.noSuchAddress p)
  | none => f ()

/-- The check of a memory slot's addresses after its DF bits: a failure traps precisely (R155, R161). -/
def withAccess (s : State) (c : Cursor) (acc : Access) (parts : List (W64 × Nat × Nat)) (f : Unit → Res) : Res :=
  match checkEach s c.core c.slot.index .slots acc parts with
  | some e => takeTrap s c e.1 e.2
  | none => f ()

/-! ### Scalar loads and stores (R161, R162, R164) -/

/-- a + off modulo 2⁶⁴ (R161). -/
def baseAddr (s : State) (c : Cursor) (a : Reg) (off : BitVec 32) : W64 := (s.sr c a.val).val + off.signExtend 64

/-- A checked scalar load. -/
def scalarLoad (s : State) (c : Cursor) (n : Nat) (a : W64) (o : Outstanding) : Res :=
  onMemory s c n [a] fun _ => finishLoad s c n [a] o

/-- A checked scalar store. -/
def scalarStore (s : State) (c : Cursor) (a : W64) (bs : List Byte) (o : Outstanding) : Res :=
  onMemory s c bs.length [a] fun _ => finishStore s c bs.length [(a, bs)] o

/-- The part of a scalar access. -/
def scalarPart (a : W64) (sz : MemSize) : W64 × Nat × Nat := (a, szBytes sz, szBytes sz)

/-- `ld` at an offset (R162). -/
def loadAt (d a : Reg) (sz : MemSize) (off : BitVec 32) (s : State) : Res :=
  slotOp s [.s d.val, .s a.val] fun c => withClean s c [a] fun _ =>
    withAccess s c .read [scalarPart (baseAddr s c a off) sz] fun _ =>
      scalarLoad s c (szBytes sz) (baseAddr s c a off) { newOut s c with dest := .scalar d.val (szSigned sz) }

/-- `st` at an offset (R162). -/
def storeAt (d a : Reg) (sz : MemSize) (off : BitVec 32) (s : State) : Res :=
  slotOp s [.s d.val, .s a.val] fun c => withClean s c [a, d] fun _ =>
    withAccess s c .write [scalarPart (baseAddr s c a off) sz] fun _ =>
      scalarStore s c (baseAddr s c a off) (leBytes (szBytes sz) (s.sr c d.val).val.toNat) (newOut s c)

/-- `ld` (R162). -/
def execLd (d a : Reg) (sz : MemSize) (s : State) : Res := loadAt d a sz 0 s
/-- `ld` with an offset (R162). -/
def execLdExt (d a : Reg) (sz : MemSize) (off : BitVec 32) (s : State) : Res := loadAt d a sz off s
/-- `st` (R162). -/
def execSt (d a : Reg) (sz : MemSize) (s : State) : Res := storeAt d a sz 0 s
/-- `st` with an offset (R162). -/
def execStExt (d a : Reg) (sz : MemSize) (off : BitVec 32) (s : State) : Res := storeAt d a sz off s

/-! ### Acquire and release (R206) -/

/-- Whether an address names global memory or scratch, where a scope has its effect. -/
def inOrder (s : State) (c : Cursor) (a : W64) (n : Nat) : Bool :=
  match s.space c.core a n with
  | .global _ | .scratch _ => true
  | .own .. | .remote .. => false

/-- `ld.acq`: on global memory and scratch it holds the M class of later bundles until its value has returned (R206). -/
def acquireAt (d a : Reg) (sz : MemSize) (sc : Scope) (off : BitVec 32) (s : State) : Res :=
  slotOp s [.s d.val, .s a.val] fun c => withClean s c [a] fun _ =>
    withAccess s c .read [scalarPart (baseAddr s c a off) sz] fun _ =>
      let acq := if inOrder s c (baseAddr s c a off) (szBytes sz) then some (scopeEmpties sc) else none
      scalarLoad s c (szBytes sz) (baseAddr s c a off)
        { newOut s c with dest := .scalar d.val (szSigned sz), acq := acq }

/-- `st.rel`: on global memory and scratch it is sent once the accesses of its scope's row are acknowledged; later bundles go on
(R206). -/
def releaseAt (d a : Reg) (sz : MemSize) (sc : Scope) (off : BitVec 32) (s : State) : Res :=
  slotOp s [.s d.val, .s a.val] fun c => withClean s c [a, d] fun _ =>
    withAccess s c .write [scalarPart (baseAddr s c a off) sz] fun _ =>
      let ad := baseAddr s c a off
      scalarStore s c ad (leBytes (szBytes sz) (s.sr c d.val).val.toNat)
        { newOut s c with scope := if inOrder s c ad (szBytes sz) then some sc else none }

/-- `ld.acq` (R162, R206). -/
def execLdAcq (d a : Reg) (sz : MemSize) (sc : Scope) (s : State) : Res := acquireAt d a sz sc 0 s
/-- `ld.acq` with an offset (R162, R206). -/
def execLdAcqExt (d a : Reg) (sz : MemSize) (sc : Scope) (off : BitVec 32) (s : State) : Res := acquireAt d a sz sc off s
/-- `st.rel` (R162, R206). -/
def execStRel (d a : Reg) (sz : MemSize) (sc : Scope) (s : State) : Res := releaseAt d a sz sc 0 s
/-- `st.rel` with an offset (R162, R206). -/
def execStRelExt (d a : Reg) (sz : MemSize) (sc : Scope) (off : BitVec 32) (s : State) : Res := releaseAt d a sz sc off s

/-! ### Vector loads and stores (R163) -/

/-- The active lanes of the enabled clusters, in global lane order. -/
def laneList (s : State) (c : Cursor) : List (Nat × Nat) :=
  (s.enabled c).flatMap fun cl => (s.active c cl).map fun i => (cl, i)

/-- The address of lane i of cluster c: a + off + c × stride + 4i (R163). -/
def laneAddr (s : State) (c : Cursor) (a : Reg) (off stride : BitVec 32) (l : Nat × Nat) : W64 :=
  baseAddr s c a off + BitVec.ofInt 64 (l.1 * stride.toInt) + BitVec.ofNat 64 (4 * l.2)

/-- The address of an indexed lane: a + off + (index << k) (R163, R166). -/
def indexAddr (s : State) (c : Cursor) (a vb : Reg) (k : Nat) (off : BitVec 32) (l : Nat × Nat) : W64 :=
  baseAddr s c a off + BitVec.ofNat 64 ((s.vr c l.1 vb.val l.2).toNat * 2 ^ k)

/-- One word per lane (R163). -/
def wordPart (a : W64) : W64 × Nat × Nat := (a, 4, 4)

/-- The destination of a vector load: every enabled cluster with its active lanes, DF under R116. -/
def vecDest (s : State) (c : Cursor) (vd : Reg) : LoadDest :=
  .vector vd.val ((s.enabled c).map fun cl => (cl, s.active c cl, destDf s c vd.val cl false)) []

/-- A checked vector load of one word at each address. -/
def vectorLoad (s : State) (c : Cursor) (as : List W64) (o : Outstanding) : Res :=
  onMemory s c 4 as fun _ => finishLoad s c 4 as o

/-- The scalar registers of a vector access whose DF bits count: none when the slot enables no cluster (R113, R171). -/
def laneRegs (s : State) (c : Cursor) (rs : List Reg) : List Reg := if (s.enabled c).isEmpty then [] else rs

/-- `vld` over lane addresses, with the index register when there is one. -/
def vloadOn (vd a : Reg) (idx : Option Reg) (addr : State → Cursor → Nat × Nat → W64) (s : State) : Res :=
  slotOp s ([.v vd.val, .s a.val] ++ idx.toList.map fun r => .v r.val) fun c =>
    withClean s c (laneRegs s c [a]) fun _ => withCleanV s c idx.toList fun _ =>
      let as := (laneList s c).map (addr s c)
      withAccess s c .read (as.map wordPart) fun _ =>
        vectorLoad s c as { newOut s c with dest := vecDest s c vd }

/-- `vst` over lane addresses; lanes are stored in global lane order, so the highest prevails (R163). -/
def vstoreOn (vd a : Reg) (idx : Option Reg) (addr : State → Cursor → Nat × Nat → W64) (s : State) : Res :=
  slotOp s ([.v vd.val, .s a.val] ++ idx.toList.map fun r => .v r.val) fun c =>
    withClean s c (laneRegs s c [a]) fun _ => withCleanV s c (idx.toList ++ [vd]) fun _ =>
      let as := (laneList s c).map (addr s c)
      withAccess s c .write (as.map wordPart) fun _ =>
        onMemory s c 4 as fun _ =>
          finishStore s c 4 ((laneList s c).map fun l => (addr s c l, leBytes 4 (s.vr c l.1 vd.val l.2).toNat)) (newOut s c)

/-- The default cluster stride (R163). -/
def strideOf (stride : Option (BitVec 32)) : BitVec 32 := stride.getD 64

/-- `vld` (R163). -/
def execVld (vd a : Reg) (s : State) : Res := vloadOn vd a none (fun s c l => laneAddr s c a 0 64 l) s
/-- `vld` with an offset and a stride (R163). -/
def execVldExt (vd a : Reg) (off : BitVec 32) (stride : Option (BitVec 32)) (s : State) : Res :=
  vloadOn vd a none (fun s c l => laneAddr s c a off (strideOf stride) l) s
/-- `vst` (R163). -/
def execVst (vd a : Reg) (s : State) : Res := vstoreOn vd a none (fun s c l => laneAddr s c a 0 64 l) s
/-- `vst` with an offset and a stride (R163). -/
def execVstExt (vd a : Reg) (off : BitVec 32) (stride : Option (BitVec 32)) (s : State) : Res :=
  vstoreOn vd a none (fun s c l => laneAddr s c a off (strideOf stride) l) s
/-- `vldx` (R163). -/
def execVldx (vd a vb : Reg) (k : Fin 4) (s : State) : Res :=
  vloadOn vd a (some vb) (fun s c l => indexAddr s c a vb k.val 0 l) s
/-- `vldx` with an offset (R163). -/
def execVldxExt (vd a vb : Reg) (k : Fin 4) (off : BitVec 32) (s : State) : Res :=
  vloadOn vd a (some vb) (fun s c l => indexAddr s c a vb k.val off l) s
/-- `vstx` (R163). -/
def execVstx (vd a vb : Reg) (k : Fin 4) (s : State) : Res :=
  vstoreOn vd a (some vb) (fun s c l => indexAddr s c a vb k.val 0 l) s
/-- `vstx` with an offset (R163). -/
def execVstxExt (vd a vb : Reg) (k : Fin 4) (off : BitVec 32) (s : State) : Res :=
  vstoreOn vd a (some vb) (fun s c l => indexAddr s c a vb k.val off l) s

/-! ### Speculative loads (R164) -/

/-- The causes that a speculative load defers (R164). -/
def deferrable : Cause → Bool
  | .addressSpace | .bufferRight | .protection | .alignment | .translation | .remote => true
  | _ => false

/-- A result that needs no access: it returns like a load where the address names global memory, a remote buffer or
scratch, else it is written with L = 6 (R164). -/
def deferredLoad (s : State) (c : Cursor) (a : W64) (ws : List WriteTo) : Res :=
  let tag := bits a.toNat 60 4
  if tag = 0 ∨ tag = 0xB ∨ tag = 0xC then
    accessOp s c { newOut s c with ldPend := true, dest := .fixed ws, spec := true } []
  else .next (s.puts c 6 ws)

/-- `lds` at an offset (R164). -/
def specAt (d a : Reg) (sz : MemSize) (off : BitVec 32) (s : State) : Res :=
  slotOp s [.s d.val, .s a.val] fun c =>
    let ad := baseAddr s c a off
    if (s.sr c a.val).df then deferredLoad s c ad [.scalar d.val 0 true]
    else match checkEach s c.core c.slot.index .slots .read [scalarPart ad sz] with
      | some e => if deferrable e.1 then deferredLoad s c ad [.scalar d.val 0 true] else takeTrap s c e.1 e.2
      | none => scalarLoad s c (szBytes sz) ad { newOut s c with dest := .scalar d.val (szSigned sz), spec := true }

/-- `vlds` over lane addresses: each enabled cluster with active lanes is checked on its own (R164). -/
def vspecOn (vd a : Reg) (addr : State → Cursor → Nat × Nat → W64) (s : State) : Res :=
  slotOp s [.v vd.val, .s a.val] fun c =>
    let lanes (cl : Nat) : List W64 := (s.active c cl).map fun i => addr s c (cl, i)
    let res (cl : Nat) : Option Failed := checkEach s c.core c.slot.index .slots .read ((lanes cl).map wordPart)
    let bad (cl : Nat) : Bool :=
      !(s.active c cl).isEmpty && ((s.sr c a.val).df ||
        match res cl with
        | some e => deferrable e.1
        | none => false)
    let trap := ((s.enabled c).filter fun cl => !bad cl).findSome? res
    match trap with
    | some e => takeTrap s c e.1 e.2
    | none =>
      let good := (s.enabled c).filter fun cl => !bad cl
      let zeros := ((s.enabled c).filter bad).map fun cl => (cl, s.active c cl)
      let dest : LoadDest := .vector vd.val (good.map fun cl => (cl, s.active c cl, destDf s c vd.val cl false)) zeros
      let as := good.flatMap lanes
      if as.isEmpty && !zeros.isEmpty then
        deferredLoad s c ((zeros.flatMap fun z => z.2.map fun i => addr s c (z.1, i)).headD 0) (dest.writes [])
      else vectorLoad s c as { newOut s c with dest := dest, spec := true }

/-- `lds` (R164). -/
def execLds (d a : Reg) (sz : MemSize) (s : State) : Res := specAt d a sz 0 s
/-- `lds` with an offset (R164). -/
def execLdsExt (d a : Reg) (sz : MemSize) (off : BitVec 32) (s : State) : Res := specAt d a sz off s
/-- `vlds` (R164). -/
def execVlds (vd a : Reg) (s : State) : Res := vspecOn vd a (fun s c l => laneAddr s c a 0 64 l) s
/-- `vlds` with an offset and a stride (R164). -/
def execVldsExt (vd a : Reg) (off : BitVec 32) (stride : Option (BitVec 32)) (s : State) : Res :=
  vspecOn vd a (fun s c l => laneAddr s c a off (strideOf stride) l) s

/-! ### Atomics (R165, R166) -/

/-- Bytes of an atomic's size. -/
def amoBytes (dbl : Bool) : Nat := if dbl then 8 else 4

/-- A checked scalar atomic; the old value is sign-extended into d. -/
def atomicOn (d a : Reg) (others : List Reg) (dbl : Bool) (m : State → Cursor → Rmw) (s : State) : Res :=
  slotOp s ([.s d.val, .s a.val] ++ others.map fun r => .s r.val) fun c => withClean s c (a :: others) fun _ =>
    let ad := (s.sr c a.val).val
    withAccess s c .atomic [(ad, amoBytes dbl, amoBytes dbl)] fun _ =>
      onMemory s c (amoBytes dbl) [ad] fun _ =>
        finishRmw s c (amoBytes dbl) [(ad, m s c)] { newOut s c with dest := .scalar d.val true }

/-- `amo` (R165). -/
def execAmo (d a b : Reg) (f : AmoOp) (dbl : Bool) (s : State) : Res :=
  atomicOn d a [b] dbl (fun s c => .amo f (s.sr c b.val).val) s

/-- `cas` (R165). -/
def execCas (d a b r : Reg) (dbl : Bool) (s : State) : Res :=
  atomicOn d a [b, r] dbl (fun s c => .cas (s.sr c b.val).val (s.sr c r.val).val) s

/-- `vamo` (R166): lanes in global lane order. -/
def execVamo (vd a vb : Reg) (f : AmoOp) (s : State) : Res :=
  slotOp s [.v vd.val, .s a.val, .v vb.val] fun c =>
    withClean s c (laneRegs s c [a]) fun _ => withCleanV s c [vb, vd] fun _ =>
      let ls := laneList s c
      let as := ls.map (indexAddr s c a vb 2 0)
      withAccess s c .atomic (as.map wordPart) fun _ =>
        onMemory s c 4 as fun _ =>
          finishRmw s c 4 (ls.map fun l =>
              (indexAddr s c a vb 2 0 l, .amo f (BitVec.ofNat 64 (s.vr c l.1 vd.val l.2).toNat)))
            { newOut s c with dest := vecDest s c vd }

/-! ### Prefetch and the cluster masks (R167, R168) -/

/-- `pref`: a line may come into the near tier, or a translation into the caches; nothing else changes (R167). -/
def prefAt (a : Reg) (xlat : Bool) (off : BitVec 32) (s : State) : Res :=
  slotOp s [.s a.val] fun c =>
    let ad := baseAddr s c a off
    if (s.sr c a.val).df then .next s
    else match s.space c.core ad 1 with
      | .global va =>
        if (checkEach s c.core c.slot.index .slots .read [(ad, 1, 1)]).isSome then .next s
        else if xlat then .next (s.fillTlb c.core (s.core c.core).ctx va)
        else match (s.placeOf c.core .read ad 1).1 with
          | .phys p => .next { s with ms := s.ms.hold (p / 64) }
          | _ => .next s
      | _ => .next s

/-- `pref` (R167). -/
def execPref (a : Reg) (xlat : Bool) (s : State) : Res := prefAt a xlat 0 s
/-- `pref` with an offset (R167). -/
def execPrefExt (a : Reg) (xlat : Bool) (off : BitVec 32) (s : State) : Res := prefAt a xlat off s

/-- `mcm` (R168). -/
def execMcm (j : Fin 4) (m : BitVec 8) (s : State) : Res :=
  slotOp s [] fun c => .next (s.put c 1 (.csr (0x02C + j.val) (m.zeroExtend 64)))

/-! ### Loads under a version check (R318) -/

/-- The check of R316 on the address of a version word; a failure traps precisely. -/
def versionTag (s : State) (c : Cursor) (a : W64) (f : Unit → Res) : Res :=
  let tag := bits a.toNat 60 4
  if tag = 0 ∨ tag = 0xC then f () else takeTrap s c .addressSpace a

/-- `vldv`: the version word first, at its home, then one word per active lane; without an enabled cluster it does nothing (R113). -/
def versionLoad (vd a v : Reg) (off : BitVec 32) (s : State) : Res :=
  slotOp s [.v vd.val, .s a.val, .s v.val] fun c => withClean s c (laneRegs s c [a, v]) fun _ =>
    let w := (s.sr c a.val).val
    let as := (laneList s c).map fun l => laneAddr s c a off 64 l
    if (s.enabled c).isEmpty then .next s
    else versionTag s c w fun _ => withAccess s c .read ((w, 8, 64) :: as.map wordPart) fun _ =>
      onMemory s c 8 [w] fun _ => onMemory s c 4 as fun _ =>
        accessOp ((s.fillFor c.core 8 [w]).fillFor c.core 4 as) c
          { newOut s c with ldPend := true, dest := vecDest s c vd, ver := some (BitVec.ofNat 64 (field (s.sr c v.val).val 0 48)) }
          (s.loads c.core 8 true [w] ++ (s.loads c.core 4 false as).map fun t => { t with ix := t.ix + 1 })

/-- `vldv` (R318): the data follow the version word at offset 64. -/
def execVldv (vd a v : Reg) (s : State) : Res := versionLoad vd a v 64 s
/-- `vldv` with an offset (R318). -/
def execVldvExt (vd a v : Reg) (off : BitVec 32) (s : State) : Res := versionLoad vd a v off s

end Sys2Proof.Machine
end

