-- ==== Sys2Proof/Machine/Sync.lean ====
section
/-!
DEFINITION. `wait` (R302, R303), sync flags (R309 to R311), the waiting operations of the A slot (R308, R315, R317),
and `slotrel`, `bar` and `vpub` (R312 to R317).
-/
namespace Sys2Proof.Machine

/-! ### wait (R302, R303) -/

/-- How many accesses of the cursor's own bundle a test counts. -/
def Core.ofBundle (k : Core) (m : Nat) (f : Outstanding → Bool) : Nat :=
  (k.outs.filter fun o => o.bundle == m && f o).length

/-- Whether a `wait` of bundle `m` on the named counters with threshold `n` covers an access: all but the n youngest
that the counters have counted in earlier bundles, in the order of bundles and slots (R303). -/
def Core.covers (k : Core) (m : Nat) (ld st : Bool) (n : Nat) (o : Outstanding) : Bool :=
  decide (o.bundle < m) &&
    if ld && st then decide (o.no + n + k.ofBundle m (fun _ => true) < k.outNext)
    else if ld then
      match o.ldNo with
      | some i => decide (i + n + k.ofBundle m (fun o => o.ldNo.isSome) < k.ldNext)
      | none => false
    else match o.stNo with
      | some i => decide (i + n + k.ofBundle m (fun o => o.stNo.isSome) < k.stNext)
      | none => false

/-- `wait`: the counters, then the covered accesses, then the oldest cause that they leave (R302, R303). -/
def execWait (ld st : Bool) (n : Fin 256) (s : State) : Res :=
  slotOp s [] fun c =>
    let k := s.core c.core
    let cnt (f : Outstanding → Bool) : Nat := (k.outs.filter fun o => decide (o.bundle < c.bn) && f o).length
    let low := (!ld || decide (cnt (fun o => o.ldPend) ≤ n.val)) && (!st || decide (cnt (fun o => o.stPend) ≤ n.val))
    let covered := k.outs.filter (k.covers c.bn ld st n.val)
    if !low || covered.any (fun o => (ld && o.ldPend) || (st && o.stPend)) then holdAt s c .wait
    else match covered.find? fun o => o.trap.isSome with
      | some o =>
        let s1 := s.modCore c.core fun k => { k with outs := k.outs.filter fun x => x.id ≠ o.id }
        match o.trap with
        | some (cause, v) => takeTrap s1 c cause v
        | none => .next s
      | none => .next s

/-! ### Sync flags (R309 to R311) -/

/-- A flag of a core. -/
def Core.flag (k : Core) (f : Nat) : Flag := kget ⟨false, 0⟩ k.flags f

/-- A flag as the bundle found it. -/
def Cursor.flag0 (c : Cursor) (k : Core) (f : Nat) : Flag :=
  match c.sets.find? fun e => e.1 == f with
  | some e => e.2.1
  | none => k.flag f

/-- Set an own flag; a clear in the same bundle comes first (R311). -/
def State.setFlag (s : State) (c : Cursor) (f : Nat) : State :=
  let k := s.core c.core
  let s1 := s.applyFlag c.core f k.ltime
  { s1 with cur := s1.cur.map fun d => { d with sets := (f, c.flag0 k f, k.ltime) :: d.sets } }

/-- Clear an own flag; a set of the same bundle comes after and stays (R311). -/
def State.clearFlag (s : State) (c : Cursor) (f : Nat) : State :=
  s.modCore c.core fun k =>
    { k with flags := match c.sets.find? fun e => e.1 == f with
        | some e => kput k.flags f { set := true, time := e.2.2 }
        | none => kdel k.flags f }

/-- The checks on a target core that runs a task of the issuer's context, and on its declaration (R309, R313). -/
def onPeer (s : State) (c : Cursor) (r : W64) (u : Use) (f : Nat → Res) : Res :=
  let t := peer c.core r.toNat
  if isFw c.core || !s.runsTask t (s.core c.core).ctx then takeTrap s c .protection r
  else if u.over ((s.core t).csrNow 0x060) then takeTrap s c .headerLimit (limitTval u.code.1 u.code.2 c.slot.index)
  else f t

/-- `fset` (R309, R310). -/
def execFset (r : Bool) (x : Reg) (f : Fin 32) (s : State) : Res :=
  slotOp s (if r then [.s x.val] else []) fun c => withClean s c (if r then [x] else []) fun _ =>
    withUses s c [.flag f.val] fun _ =>
      if r then
        onPeer s c (s.sr c x.val).val (.flag f.val) fun t =>
          let k := s.core c.core
          .next (s.sendAfter c.core t (k.beforeSync k.lastSync) (.flag f.val 0))
      else .next (s.setFlag c f.val)

/-- `fwait` (R309, R310): held until the flag is 1; an observation of the largest time its sets carried. -/
def execFwait (clear : Bool) (f : Fin 32) (s : State) : Res :=
  slotOp s [.flag f.val] fun c =>
    let x := c.flag0 (s.core c.core) f.val
    if x.set then
      let s1 := s.modCore c.core fun k => k.raise x.time
      .next (if clear then s1.clearFlag c f.val else s1)
    else holdAt s c .fwait

/-- `fclr` (R309, R310). -/
def execFclr (f : Fin 32) (s : State) : Res := slotOp s [.flag f.val] fun c => .next (s.clearFlag c f.val)

/-! ### The waiting operations of the A slot -/

/-- What `twait` writes (R308). -/
def twaitValue (n : Nat) (t : Token) : W64 :=
  BitVec.ofNat 64 (n + t.state.status * 64 + t.cause * 256 + t.bytes % 2 ^ 32 * 2 ^ 32)

/-- The return of a `twait` with the generation's end (R308). -/
def State.endTwait (s : State) (c : Cursor) (d n : Nat) (t : Token) : State :=
  (s.modCore c.core fun k => k.observeTok (Nat.max c.bn (k.bn - 1)) n t).put c 1 (.scalar d (twaitValue n t) false)

/-- Dispatch a wait of the A slot, or leave it behind the other classes until it can return (R95). `f` is its return, once it can. -/
def waitOp (s : State) (c : Cursor) (h : Hold) (op : Slipped) (f : Option State) : Res :=
  if staysBehind s c then .next (s.slip c op)
  else match f with
    | some t => .next t
    | none => slipOr s c h op

/-- `twait` (R308): it blocks the A class until the named generation leaves pending. -/
def execTwait (d : Reg) (t : Tok) (s : State) : Res :=
  slotOp s [.s d.val, .tok t.val] fun c =>
    let r := c.ref t.val
    waitOp s c .twait (.twait d.val r) (r.st.map (s.endTwait c d.val t.val))

/-- What own deliveries wrote that a barrier has counted in a phase other than `phase`, the one that runs, is bound to be seen after the next
sync bundle (R315). -/
def Core.seenPhase (k : Core) (b phase : Nat) : Core :=
  { k with hist := k.hist.map fun h => if h.seen = none ∧ (h.bar.any fun x => x.1 == b && x.2 != phase) then { h with seen := some k.bn } else h }

/-- The return of a `barw`, once the phase differs from p (R315): an observation of the completed phase. -/
def State.endBarw (s : State) (core b phase : Nat) : Option State :=
  let x := kget .none (s.core core).barriers b
  if x.phase = phase then none else some (s.modCore core fun k => (k.raise x.doneT).seenPhase b x.phase)

/-- `barw` (R315): it blocks the A class until the phase differs from p. -/
def execBarw (p : Reg) (b : Fin 16) (s : State) : Res :=
  slotOp s [.s p.val, .bar b.val] fun c => withClean s c [p] fun _ =>
    let phase := (s.sr c p.val).val.toNat % 2 ^ 32
    waitOp s c .barw (.barw b.val phase) (s.endBarw c.core b.val phase)

/-- The checks of a version word's address (R316). -/
def versionCheck (s : State) (c : Cursor) (acc : Access) (a : W64) (f : Unit → Res) : Res :=
  versionTag s c a fun _ => withAccess s c acc [(a, 8, 64)] fun _ => onMemory s c 8 [a] f

/-- The return of a `vwait`, once the version at the word's home is at least v (R317): an observation with the T of the latest write
there. In another package the word is not in the model's state: whether it has come is a free choice, and so is its time (log 12). -/
def State.endVwait (s : State) (c : Cursor) (p : Place) (v : Nat) : Option State :=
  match p with
  | .phys p =>
    if v ≤ leNat (s.ms.read p 8) % 2 ^ 48 then some (s.modCore c.core fun k => k.raise (s.ms.time (p / 64)).1) else none
  | _ =>
    if Config.freeBit s.free (freeKey c 8 0 0) then
      some (s.modCore c.core fun k => k.raise (Config.freeNat s.free (freeKey c 9 0 0)))
    else none

/-- `vwait` (R317): it blocks the A class until the version at the word's home is at least v. A package that does not answer is REMOTE
(R297), and a word that cannot be read UNCORRECTABLE (R333, R334). -/
def execVwait (a v : Reg) (s : State) : Res :=
  slotOp s [.s a.val, .s v.val] fun c => withClean s c [a, v] fun _ =>
    let ad := (s.sr c a.val).val
    versionCheck s c .read ad fun _ =>
      let p := (s.placeOf c.core .read ad 8).1
      let x := field (s.sr c v.val).val 0 48
      orTrap s c (match p with
        | .far k _ => if s.lost k then some (.remote, BitVec.ofNat 64 k) else none
        | .phys _ | .buf .. => (s.ms.spoiltAt p 8).map fun x => (.uncorrectable, BitVec.ofNat 64 x)) fun _ =>
      waitOp s c .vwait (.vwait p x) (s.endVwait c p x)

/-! ### slotrel, bar and vpub -/

/-- The accesses of a core in bundles before its latest sync bundle that a test picks. -/
def Core.earlier (k : Core) (f : Outstanding → Bool) : List Nat :=
  (k.outs.filter fun o => decide (o.bundle < k.lastSync) && f o).map fun o => o.id

/-- `slotrel` (R312). -/
def execSlotrel (n : Reg) (ctr : Fin 16) (tw : TokenWord) (s : State) : Res :=
  engineOp s [.s n.val] 0 tw fun c => withClean s c [n] fun _ =>
    .next (s.enqueue c 0 { newEntry s c (.slotrel n ctr tw) tw [(s.sr c n.val).val] with
      waits := (s.core c.core).earlier fun _ => true })

/-- The start of `slotrel`: the counter rises, clamped at 255 (R312). -/
def startSlotrel (s : State) (core : Nat) (ctr : Nat) (e : EngEntry) : State × Stage :=
  let n := (e.vals.headD 0).toNat
  (s.modCore core fun k => { k with freeSlots := kset 0 k.freeSlots ctr (Nat.min 255 (kget 0 k.freeSlots ctr + n)) },
    .finished (outcome .done 0 0 (Nat.max e.time e.inTime)) false)

/-- `bar` (R313). -/
def execBar (v : BarVariant) (r : Bool) (x n : Reg) (b : Fin 16) (tw : TokenWord) (s : State) : Res :=
  let regs := (if r then [x] else []) ++ (if v = .arr then [] else [n])
  engineOp s (regs.map fun y => .s y.val) 0 tw fun c => withClean s c regs fun _ =>
    withUses s c [.bar b.val] fun _ =>
      let go (_ : Nat) : Res :=
        let nv := (s.sr c n.val).val
        if v = .init ∧ (nv.toNat < 1 ∨ 65535 < nv.toNat) then takeTrap s c .addressSpace nv
        else
          let k := s.core c.core
          .next (s.enqueue c 0 { newEntry s c (.bar v r x n b tw) tw [(s.sr c x.val).val, nv] with
            waits := k.beforeSync k.lastSync })
      if r then onPeer s c (s.sr c x.val).val (.bar b.val) go else go 0

/-- The start of `bar`: a local update applies at once, a remote one travels as a flag set does (R314). -/
def startBar (s : State) (core : Nat) (v : BarVariant) (r : Bool) (b : Nat) (e : EngEntry) : State × Stage :=
  let n := e.vals.getD 1 0
  let t := Nat.max (s.core core).ltime e.inTime
  if r then
    (s.sendAfter core (peer core (e.vals.headD 0).toNat) [] (.barrier e.serial v b n t), .waiting)
  else
    match (kget .none (s.core core).barriers b).update v n t with
    | some x => (s.putBarrier core b x, .finished (outcome .done 0 0 t) false)
    | none => (s, .finished (outcome .faulted Cause.record.code 0 t) false)

/-- `vpub` (R316, R317). -/
def execVpub (a v : Reg) (tw : TokenWord) (s : State) : Res :=
  engineOp s [.s a.val, .s v.val] 0 tw fun c => withClean s c [a, v] fun _ =>
    let ad := (s.sr c a.val).val
    versionCheck s c .write ad fun _ =>
      .next (s.enqueue c 0 { newEntry s c (.vpub a v tw) tw [ad, (s.sr c v.val).val] with
        waits := (s.core c.core).earlier fun o => o.stPend && o.parts.any fun p => match p.place with
          | .buf .. => false
          | _ => true })

/-- The start of `vpub`: the version is read and, when v is above it, written in one step at its home, as a store of the core at its time (R202,
R317). In another package the read version is not in the model's state: whether v is above it is a free choice, and so is whether the package
answers (R297, log 12). -/
def startVpub (s : State) (core : Nat) (e : EngEntry) : State × Stage :=
  let a := e.vals.headD 0
  let v := (e.vals.getD 1 0).toNat % 2 ^ 48
  let floor := Nat.max e.inTime (s.core core).ltime
  match checkEach s core 9 .copy .write [(a, 8, 64)] with
  | some x => (s, .finished (outcome .faulted x.1.code 0 e.inTime) false)
  | none =>
    match (s.placeOf core .write a 8) with
    | (.phys p, g) =>
      if (s.ms.spoiltAt (.phys p) 8).isSome then (s, .finished (outcome .faulted Cause.uncorrectable.code 0 e.inTime) false)
      else if v ≤ leNat (s.ms.read p 8) % 2 ^ 48 then (s, .finished (outcome .faulted Cause.version.code 0 e.inTime) false)
      else
        let (s1, t) := s.engWrite floor (.phys p) (leBytes 8 v)
        let s2 := if g then s1.replicate (s1.core core).ctx p (leBytes 8 v) else s1
        (s2, .finished (outcome .done 0 8 t) false)
    | (.far k p, g) =>
      if s.lost k then (s, .finished (outcome .faulted Cause.remote.code 0 e.inTime) false)
      else if Config.freeBit s.free (13 * core + 7) then
        let s1 := s.sendFabric k 0 (.access core e.serial (.store p (leBytes 8 v) e.serial))
        (if g then s1.replicate (s1.core core).ctx p (leBytes 8 v) else s1,
          .finished (outcome .done 0 8 (Nat.max floor (Config.freeNat s.free (13 * core + 8)))) false)
      else (s, .finished (outcome .faulted Cause.version.code 0 e.inTime) false)
    | (.buf .., _) => (s, .finished (outcome .faulted Cause.addressSpace.code 0 e.inTime) false)

/-! ### The operations that a class has still to dispatch (R95) -/

/-- Dispatch the oldest operation of the X or A class that lags, where its class is no longer blocked: `none` while it is. A word that a
`vwait` watches may have moved meanwhile (R330). An access is Machine/Bundle.lean's. -/
def State.takeSlip (s : State) (core : Nat) (x : Slip) : Option State :=
  match x.op with
  | .enter q e => if (s.core core).queueFull q then none
    else some (s.modCore core fun k => k.setQueue q (k.queue q ++ [{ e with time := Nat.max e.time k.ltime, entered := s.cycle }]))
  | .twait d r => r.st.map (s.endTwait x.cur d r.tok)
  | .barw b phase => s.endBarw core b phase
  | .vwait p v => s.endVwait x.cur (match p with | .phys a => .phys (s.ms.forward a) | p => p) v
  | .access .. | .defer .. => none

end Sys2Proof.Machine
end

