-- ==== Sys2Proof/Machine/Shape.lean ====
section
/-!
DEFINITION. Shape records (R280 to R283), the record cache (R284 to R286), tiles (R197, R281), and the streams of
element moves that copies, messages and the Parser make.
-/
namespace Sys2Proof.Machine

/-! ### Records (R280 to R282) -/

/-- A shape record's fields (R280). -/
structure Shape where
  base : W64
  ty : Nat
  rank : Nat
  layout : Nat
  ext : List Nat
  str : List Int
  tile : List Nat
  plane : Nat
  mbase : W64
  mstride : Nat
  deriving DecidableEq, Repr

/-- The size of a byte-sized element type (R62 to R64, R281); 0 for int4 and nm. -/
def elemSize (ty : Nat) : Nat :=
  match ty with
  | 0x0 | 0x1 | 0x3 | 0x4 | 0x7 => 1
  | 0x5 | 0x6 => 2
  | 0x9 | 0xA => 4
  | 0xB => 8
  | _ => 0

/-- Whether a type may stand as 2:4 sparse B (R87). -/
def sparseType (ty : Nat) : Bool := ty == 0 || ty == 1 || ty == 3 || ty == 4 || ty == 5 || ty == 6

/-- Whether a base carries a tag of R280. -/
def recordTag (a : W64) : Bool := [0x0, 0x8, 0x9, 0xA, 0xB, 0xC].contains (bits a.toNat 60 4)

/-- The fields of 128 record bytes. -/
def readShape (bs : List Byte) : Shape :=
  let f := leAt bs 8 8
  { base := BitVec.ofNat 64 (leAt bs 0 8), ty := bits f 0 4, rank := bits f 4 3, layout := bits f 8 2
    ext := (List.range 5).map fun k => leAt bs (16 + 4 * k) 4
    str := (List.range 5).map fun k => signed 64 (leAt bs (40 + 8 * k) 8)
    tile := (List.range 5).map fun k => leAt bs (80 + 2 * k) 2
    plane := leAt bs 96 8, mbase := BitVec.ofNat 64 (leAt bs 104 8), mstride := leAt bs 112 8 }

/-- Whether 128 record bytes are malformed (R282). -/
def malformed (bs : List Byte) : Bool :=
  let f := leAt bs 8 8
  let r := readShape bs
  let e (k : Nat) := r.ext.getD k 1
  let t (k : Nat) := r.tile.getD k 1
  let st (k : Nat) := r.str.getD k 0
  let es := elemSize r.ty
  r.ty > 0xB || r.layout == 3 || r.rank == 0 || r.rank > 5 || bits f 7 1 != 0 || bits f 10 54 != 0 ||
    leAt bs 36 4 != 0 || leAt bs 90 6 != 0 || leAt bs 120 8 != 0 ||
    (r.layout == 1) != (r.ty == 8) || (r.layout != 1 && r.plane != 0) ||
    (r.layout != 2 && (r.mbase != 0 || r.mstride != 0)) ||
    (r.layout == 2 && (!sparseType r.ty || e 0 % 4 != 0 || t 0 % 4 != 0 || !recordTag r.mbase)) ||
    (es == 0 && st 0 != 0) ||
    (List.range 5).any (fun k =>
      e k == 0 || e k ≥ 2 ^ 31 || t k == 0 || (r.rank ≤ k && (e k != 1 || st k != 0 || t k != 1))) ||
    !recordTag r.base || (es != 0 && (r.base.toNat % es != 0 || r.str.any fun x => x % es != 0))

/-! ### Tiles (R197, R198, R281) -/

/-- Tiles along a dimension (R197). -/
def Shape.tiles (r : Shape) (k : Nat) : Nat := ceilDiv (r.ext.getD k 1) (r.tile.getD k 1)

/-- Tiles of the grid. -/
def Shape.gridSize (r : Shape) : Nat := (List.range 5).foldl (fun n k => n * r.tiles k) 1

/-- Digits of an index in a mixed radix, dimension 0 fastest (R197). -/
def digits : List Nat → Nat → List Nat
  | [], _ => []
  | n :: ns, q => q % n :: digits ns (q / n)

/-- The first element coordinate of a tile in each dimension. -/
def Shape.origin (r : Shape) (tau : Nat) : List Nat :=
  (digits ((List.range 5).map r.tiles) tau).mapIdx fun k d => d * r.tile.getD k 1

/-- How many elements of a tile lie within the extents, in each dimension (R198). -/
def Shape.counts (r : Shape) (tau : Nat) : List Nat :=
  (r.origin tau).mapIdx fun k o => Nat.min (r.tile.getD k 1) (r.ext.getD k 1 - o)

/-- Product of a list. -/
def prodOf (ns : List Nat) : Nat := ns.foldl (· * ·) 1

/-- Elements of a tile within the extents. -/
def Shape.elems (r : Shape) (tau : Nat) : Nat := prodOf (r.counts tau)

/-- Element coordinates of element `q` of a tile whose moved elements number `cnt` in each dimension, in tile order. -/
def Shape.coords (r : Shape) (tau : Nat) (cnt : List Nat) (q : Nat) : List Nat :=
  (digits cnt q).mapIdx fun k d => d + (r.origin tau).getD k 0

/-- Σ x_k × s_k over dimensions `from` to 4. -/
def Shape.offset (r : Shape) (lo : Nat) (xs : List Nat) : Int :=
  (List.range 5).foldl (fun n k => if lo ≤ k then n + (xs.getD k 0 : Int) * r.str.getD k 0 else n) 0

/-- A bit field in memory: the byte's address, the bit it starts at, and its width. -/
structure Loc where
  addr : W64
  bit : Nat
  w : Nat
  deriving DecidableEq, Repr

/-- An address at a signed byte offset. -/
def addrPlus (a : W64) (x : Int) : W64 := a + BitVec.ofInt 64 x

/-- Where element coordinates `xs` lie, in plane `j` for nm (R281). -/
def Shape.locOf (r : Shape) (j : Nat) (xs : List Nat) : Loc :=
  let x0 := xs.getD 0 0
  if r.ty = 8 then ⟨addrPlus r.base (j * r.plane + r.offset 1 xs + (x0 / 4 : Nat)), 2 * (x0 % 4), 2⟩
  else if r.ty = 2 then ⟨addrPlus r.base (r.offset 1 xs + (x0 / 2 : Nat)), 4 * (x0 % 2), 4⟩
  else ⟨addrPlus r.base (r.offset 0 xs), 0, 8 * elemSize r.ty⟩

/-- Bits of one element, or of one plane's digit. -/
def Shape.bitsOf (r : Shape) : Nat := if r.ty = 8 then 2 else if r.ty = 2 then 4 else 8 * elemSize r.ty

/-- Groups of a 2:4 sparse tile along dimension 0, then the other dimensions' counts. -/
def groupCounts (cnt : List Nat) : List Nat :=
  match cnt with
  | n :: ns => n / 4 :: ns
  | [] => []

/-- Counts with dimension 0 in whole groups: what the dense elements of a tile are read from (R199). -/
def wholeGroups (cnt : List Nat) : List Nat :=
  match cnt with
  | n :: ns => ceilDiv n 4 * 4 :: ns
  | [] => []

/-- Where kept value `h` of group coordinates lies; coordinate 0 counts groups (R281). -/
def Shape.keptLoc (r : Shape) (h : Nat) (gs : List Nat) : Loc :=
  ⟨addrPlus r.base (((2 * gs.getD 0 0 + h : Nat) : Int) * r.str.getD 0 0 + r.offset 1 gs), 0, 8 * elemSize r.ty⟩

/-- Group coordinates of group `q` of a tile whose moved elements number `cnt`. -/
def Shape.groupCoords (r : Shape) (tau : Nat) (cnt : List Nat) (q : Nat) : List Nat :=
  (digits (groupCounts cnt) q).mapIdx fun k d =>
    if k = 0 then d + (r.origin tau).getD 0 0 / 4 else d + (r.origin tau).getD k 0

/-- Where the metadata entry of group coordinates of a tile lies (R172, R281). -/
def Shape.metaLoc (r : Shape) (tau : Nat) (gs : List Nat) : Loc :=
  let loc := gs.mapIdx fun k g => if k = 0 then g - (r.origin tau).getD 0 0 / 4 else g - (r.origin tau).getD k 0
  let hi := (List.range 4).foldr (fun k n => n * r.tile.getD (k + 1) 1 + loc.getD (k + 1) 0) 0
  let e := hi * (r.tile.getD 0 4 / 4) + loc.getD 0 0
  ⟨addrPlus r.mbase (tau * r.mstride + e / 2), 4 * (e % 2), 4⟩

/-! ### Streams of moves -/

/-- Where the bits of a moved element come from: a constant, a location, or the kept value whose metadata names a
row of its group (R172, R199). -/
inductive Src
  | const (v : Nat)
  | loc (l : Loc)
  | pick (row : Nat) (md k0 k1 : Loc)

/-- A run of moves of one width: how many, how wide, how many bits an element has, whence and whither. `only` says which moves the
destination takes, and `also` where a second destination takes one (R199). -/
structure Seg where
  n : Nat
  w : Nat
  keep : Nat
  src : Nat → Src
  dst : Nat → Loc
  only : Nat → Bool
  also : Nat → Option Loc

/-- Bytes that a run writes. -/
def Seg.bytes (g : Seg) : Nat := (g.n * g.w + 7) / 8
/-- Chunks of 4 KiB in a run (R198). -/
def Seg.chunks (g : Seg) : Nat := ceilDiv g.bytes 4096

/-- A run of locations: how many, how wide, how many bits an element has, and where each lies. -/
structure LocRun where
  n : Nat
  w : Nat
  keep : Nat
  at_ : Nat → Loc

/-- The locations of a tile's `cnt` elements in stream order: elements, planes in turn, or kept values and
metadata. An lg6 element has 6 bits (R63). -/
def Shape.runs (r : Shape) (tau : Nat) (cnt planes : List Nat) : List LocRun :=
  if r.layout = 2 then
    let ng := prodOf (groupCounts cnt)
    [{ n := 2 * ng, w := 8 * elemSize r.ty, keep := 8 * elemSize r.ty
       at_ := fun q => r.keptLoc (q % 2) (r.groupCoords tau cnt (q / 2)) },
      { n := ng, w := 4, keep := 4, at_ := fun q => r.metaLoc tau (r.groupCoords tau cnt q) }]
  else if r.layout = 1 then
    planes.map fun j => { n := prodOf cnt, w := 2, keep := 2, at_ := fun q => r.locOf j (r.coords tau cnt q) }
  else [{ n := prodOf cnt, w := r.bitsOf, keep := if r.ty = 7 then 6 else r.bitsOf
          at_ := fun q => r.locOf 0 (r.coords tau cnt q) }]

/-- Moves from one tile to another of one layout. -/
def pairRuns (src dst : List LocRun) : List Seg :=
  (src.zip dst).map fun x =>
    { n := x.2.n, w := x.2.w, keep := x.2.keep, src := fun q => .loc (x.1.at_ q), dst := x.2.at_, only := fun _ => true, also := fun _ => none }

/-- The elements that both tiles have, in each dimension (R198). -/
def sharedCounts (a : Shape) (i : Nat) (b : Shape) (j : Nat) : List Nat :=
  List.zipWith Nat.min (a.counts i) (b.counts j)

/-- Every part of a tile that an operation touches, for the checks of R198. -/
def runParts (rs : List LocRun) : List (W64 × Nat × Nat) :=
  rs.flatMap fun x => (List.range x.n).map fun q => ((x.at_ q).addr, ((x.at_ q).w + 7) / 8, 1)

/-! ### The record cache (R284 to R286) -/

/-- The checks of R155 steps 2 to 6 over parts; of the declared bytes the lowest beyond the declaration decides (R61). -/
def checkHere (s : State) (core slot : Nat) (g : Agent) (acc : Access) (as : List (W64 × Nat × Nat)) : Option Failed :=
  let early := [fun (x : W64 × Nat × Nat) => checkSpace s core x.1 x.2.1, fun x => checkRight s core g acc x.1 x.2.1,
    fun x => checkPresent s core x.1 x.2.1, fun x => checkAlign x.2.2 x.1].findSome? fun chk => as.findSome? chk
  match early with
  | some e => some e
  | none =>
    let past := as.filterMap fun x => checkDecl s core slot x.1 x.2.1
    past.foldl (fun m e => match m with
      | none => some e
      | some b => if e.2.toNat < b.2.toNat then some e else some b) none

/-- The operation at the cursor has filled a record at a time (R203). -/
def State.filledAt (s : State) (t : Nat) : State := { s with cur := s.cur.map fun d => { d with fill := Nat.max d.fill t } }

/-- The record bytes that a reference at the cursor fills, and the state after the read (R285): a failed check, with the record's
address; a wait for the core's stores, or for what the A class has still to dispatch; or an engine read at the home. A record in another
package is not in the model's state, and the package may not answer (log 12). -/
def fillRecord (s t : State) (c : Cursor) (a : W64) : Except Failed (Option (List Byte × State)) :=
  let tag := bits a.toNat 60 4
  if a.toNat % 128 ≠ 0 ∨ !(tag = 0 ∨ tag = 9 ∨ tag = 0xC) then .error (.record, a)
  else match checkEach s c.core c.slot.index .copy .read [(a, 128, 1)] with
    | some e => .error (e.1, a)
    | none =>
      let k := s.core c.core
      if k.lagsBefore c || (tag != 9 && (k.earlier fun o => o.stPend).any k.unacked) then .ok none
      else match (s.placeOf c.core .read a 128).1 with
        | .far p q =>
          if s.lost p then .error (.remote, a)
          else .ok (some (s.unknown q 128, (t.sendFabric p 0 (.fetch c.core 65536 0 q)).filledAt (Config.freeNat s.free (43 * p + 7))))
        | p =>
          match t.ms.spoiltAt p 128 with
          | some x => .error (.uncorrectable, BitVec.ofNat 64 x)
          | none =>
          let (bs, u1, u0) := t.engReadAt k.ltime k.lease p 128
          let u := u0.filledAt u1
          .ok (some (withOld k.recent (fun i => Config.freeBit s.free (freeKey c 10 0 (i + 1))) p
            (withHist k.hist (fun w => Config.freeNat s.free (freeKey c 12 0 w)) p bs), u))

/-- Look records up in order (R284): cached copies, or fills; a malformed record fails. `none` holds the bundle. -/
def lookRecords (s : State) (c : Cursor) : List W64 → State → Except Failed (Option (State × List (List Byte)))
  | [], t => .ok (some (t, []))
  | a :: as, t =>
    let k := t.core c.core
    let got : Except Failed (Option (List Byte × State)) := match k.records.find? fun e => e.1 == a with
      | some e => .ok (some (e.2, t))
      | none => fillRecord s t c a
    match got with
    | .error e => .error e
    | .ok none => .ok none
    | .ok (some (bs, t)) =>
      if malformed bs then .error (.record, a)
      else
        match lookRecords s c as (t.modCore c.core fun k =>
            { k with records := ((a, bs) :: k.records.filter fun e => e.1 ≠ a).take 64 }) with
        | .ok (some (u, rs)) => .ok (some (u, bs :: rs))
        | r => r

/-- The records at the given addresses, looked up at dispatch; `f` gets the state with the cache as it then is. A record that must wait to be
filled blocks the class of its operation, and holds the bundle on a firmware core (log 7). -/
def withRecords (s : State) (c : Cursor) (tw : TokenWord) (as : List W64) (f : State → List (List Byte) → Res) : Res :=
  match lookRecords s c as s with
  | .error e => takeTrap s c e.1 e.2
  | .ok none => if c.whole || isFw c.core then holdAt s c .loadBuffer else .next (s.defer c tw)
  | .ok (some (t, rs)) => f t rs

/-- `rfence` (R286): the entries leave at dispatch, and the operation enters the copy queue. -/
def execRfence (a : Reg) (all : Bool) (tw : TokenWord) (s : State) : Res :=
  let regs := if all then [] else [a]
  engineOp s (regs.map fun r => .s r.val) 0 tw fun c => withClean s c regs fun _ =>
    let key := (s.sr c a.val).val
    let s1 := s.modCore c.core fun k => { k with records := if all then [] else k.records.filter fun e => e.1 ≠ key }
    .next (s1.enqueue c 0 (newEntry s c (.rfence a all tw) tw []))

/-- The start of `rfence`: done at once at the core's time (R286). -/
def startRfence (s : State) (core : Nat) (e : EngEntry) : State × Stage :=
  (s, .finished (outcome .done 0 0 (Nat.max (s.core core).ltime e.inTime)) false)

end Sys2Proof.Machine
end

