-- ==== Sys2Proof/Machine/GridShape.lean ====
section
/-!
DEFINITION. Grid descriptors (R209, R287, R288) and the geometry of polders and forelands (R210 to R212).
-/
namespace Sys2Proof.Machine

/-! ### Descriptors (R209, R287, R288) -/

/-- Four numbers of a size from an offset. -/
def four (bs : List Byte) (o n : Nat) : List Nat := (List.range 4).map fun k => leAt bs (o + n * k) n

/-- The cut points of the dimensions whose polder counts are given, from an offset on. -/
def readCuts (bs : List Byte) : Nat → List Nat → List (List Nat)
  | _, [] => []
  | o, p :: ps => ((List.range (p + 1)).map fun i => leAt bs (o + 4 * i) 4) :: readCuts bs (o + 4 * (p + 1)) ps

/-- Offset of the polder table. -/
def polderTable (counts : List Nat) : Nat :=
  ceilDiv (64 + (counts.map fun p => 4 * (p + 1)).foldl (· + ·) 0) 32 * 32

/-- A polder entry (R288). -/
def readPolder (bs : List Byte) : Polder :=
  { scratch := leAt bs 0 1 == 1, pkg := bits (leAt bs 2 2) 0 14, unit := leAt bs 4 2, base := leAt bs 8 4
    fbase0 := leAt bs 12 4, fbase1 := leAt bs 16 4 }

/-- Whether a polder entry breaks a rule of R288 or R211. -/
def polderBad (esz : Nat) (bs : List Byte) : Bool :=
  leAt bs 0 1 > 1 || leAt bs 1 1 != 0 || bits (leAt bs 2 2) 14 2 != 0 || leAt bs 6 2 != 0 || leAt bs 20 12 != 0 ||
    leAt bs 4 2 ≥ (if leAt bs 0 1 = 1 then 8 else 2048) ||
    leAt bs 8 4 % esz != 0 || leAt bs 12 4 % esz != 0 || leAt bs 16 4 % esz != 0

/-- Size in bytes of the header's grid: cut points and polder table included. -/
def gridBytes (head : List Byte) : Nat :=
  let counts := four head 24 2
  polderTable counts + 32 * prodOf counts

/-- A descriptor's fields (R287). -/
def readGridFields (bs : List Byte) : Grid :=
  let b0 := leAt bs 0 1
  let counts := four bs 24 2
  let dk := leAt bs 40 4
  let tab := polderTable counts
  { rank := bits b0 0 3, esize := bits b0 3 2, faultMode := bits b0 5 1 == 1, berm := leAt bs 1 1
    sides := (List.range 4).map fun k => bits (leAt bs 2 1) (2 * k) 2
    limit := leAt bs 4 4, extents := four bs 8 4, counts := counts, radii := four bs 32 2
    dikes := (List.range 8).map fun f => bits dk (3 * f) 3
    const := BitVec.ofNat 64 (leAt bs 48 8), cuts := readCuts bs 64 counts
    polders := (List.range (prodOf counts)).map fun i => readPolder (bs.drop (tab + 32 * i)) }

/-- Bytes of an element. -/
def Grid.elem (g : Grid) : Nat := 2 ^ g.esize

/-- The width w_k of a foreland (R209). -/
def Grid.width (g : Grid) (k : Nat) : Nat := g.radii.getD k 0 * g.berm

/-- The polder coordinates of a polder index (R209). -/
def Grid.coord (g : Grid) (p : Nat) : List Nat := digits g.counts p

/-- Origin of a polder in a dimension. -/
def Grid.origin (g : Grid) (p k : Nat) : Nat := (g.cuts.getD k []).getD ((g.coord p).getD k 0) 0

/-- Extent e_k of a polder. -/
def Grid.extent (g : Grid) (p k : Nat) : Nat :=
  (g.cuts.getD k []).getD ((g.coord p).getD k 0 + 1) 0 - g.origin p k

/-- Whether the cut points of a dimension break a rule of R209. -/
def cutsBad (extent : Nat) (cs : List Nat) : Bool :=
  cs.headD 1 != 0 || cs.getLastD 0 != extent || (cs.zip (cs.drop 1)).any fun x => x.2 ≤ x.1

/-- Whether a header is of a grid that R209 allows, as far as the header goes. -/
def headerBad (head : List Byte) : Bool :=
  let g := readGridFields (head.take 64)
  let b0 := leAt head 0 1
  let dk := leAt head 40 4
  let past (k : Nat) : Bool := decide (g.rank ≤ k)
  let face (f : Nat) : Nat := bits dk (3 * f) 3
  g.rank == 0 || g.rank > 4 || bits b0 6 2 != 0 || leAt head 3 1 != 0 || g.berm == 0 ||
    leAt head 44 4 != 0 || leAt head 56 8 != 0 || bits dk 24 8 != 0 || (g.faultMode && g.limit == 0) ||
    prodOf g.counts > 4096 || prodOf g.counts == 0 ||
    (List.range 4).any fun k =>
      let e := g.extents.getD k 0
      e == 0 || e ≥ 2 ^ 31 || g.sides.getD k 0 == 3 || face (2 * k) > 5 || face (2 * k + 1) > 5 ||
        (face (2 * k) == 0) != (face (2 * k + 1) == 0) ||
        (past k && (e != 1 || g.counts.getD k 0 != 1 || g.radii.getD k 1 != 0 || g.sides.getD k 1 != 0 ||
          face (2 * k) != 0 || face (2 * k + 1) != 0))

/-- Whether a whole descriptor with a good header breaks a rule of R209, R211 or R288. -/
def bodyBad (bs : List Byte) : Bool :=
  let g := readGridFields bs
  let tab := polderTable g.counts
  (List.range 4).any (fun k => cutsBad (g.extents.getD k 1) (g.cuts.getD k [])) ||
    (List.range (prodOf g.counts)).any fun p =>
      polderBad g.elem (bs.drop (tab + 32 * p)) ||
        (List.range 4).any fun k => g.extent p k < g.width k || g.extent p k + g.width k > 32767

/-! ### Regions (R210, R211) -/

/-- The direction of a region in a dimension: 0 lower, 1 inside, 2 upper. -/
def dirOf (region k : Nat) : Nat := region / 3 ^ k % 3

/-- Whether a region exists (R210). -/
def Grid.exists_ (g : Grid) (region : Nat) : Bool :=
  decide (region < 3 ^ g.rank) && (List.range g.rank).any (fun k => dirOf region k != 1) &&
    (List.range g.rank).all fun k =>
      match dirOf region k with
      | 0 => g.width k != 0 && g.sides.getD k 0 != 2
      | 1 => true
      | _ => g.width k != 0 && g.sides.getD k 0 != 1

/-- The existing regions, in rising index. -/
def Grid.regions (g : Grid) : List Nat := (List.range (3 ^ g.rank)).filter g.exists_

/-- Extents of a region of a polder. -/
def Grid.regionDims (g : Grid) (p region : Nat) : List Nat :=
  (List.range 4).map fun k => if k < g.rank ∧ dirOf region k ≠ 1 then g.width k else g.extent p k

/-- The first local coordinate of a region in a dimension. -/
def Grid.regionLow (g : Grid) (p region k : Nat) : Int :=
  if g.rank ≤ k then 0
  else match dirOf region k with
    | 0 => -(g.width k : Int)
    | 1 => 0
    | _ => g.extent p k

/-- Elements before a region in its slot (R211). -/
def Grid.regionStart (g : Grid) (p region : Nat) : Nat :=
  ((g.regions.filter (· < region)).map fun r => prodOf (g.regionDims p r)).foldl (· + ·) 0

/-- Elements of all existing regions of a slot. -/
def Grid.slotElems (g : Grid) (p : Nat) : Nat := (g.regions.map fun r => prodOf (g.regionDims p r)).foldl (· + ·) 0

/-- Dense index of coordinates in extents, dimension 0 fastest. -/
def denseIndex : List Nat → List Nat → Nat
  | n :: ns, x :: xs => x + n * denseIndex ns xs
  | _, _ => 0

/-- Byte offset of an interior element in its polder's space (R211). -/
def Grid.interiorOff (g : Grid) (p : Nat) (xs : List Nat) : Nat :=
  (g.polders.getD p ⟨false, 0, 0, 0, 0, 0⟩).base + denseIndex ((List.range 4).map (g.extent p)) xs * g.elem

/-- Byte offset of cell `i` of a region's slot (R211). -/
def Grid.cellOff (g : Grid) (p region slot i : Nat) : Nat :=
  let x := g.polders.getD p ⟨false, 0, 0, 0, 0, 0⟩
  (if slot = 0 then x.fbase0 else x.fbase1) + (g.regionStart p region + i) * g.elem

/-- Local coordinates of cell `i` of a region. -/
def Grid.cellCoords (g : Grid) (p region i : Nat) : List Int :=
  (digits (g.regionDims p region) i).mapIdx fun k (d : Nat) => g.regionLow p region k + (d : Int)

/-- The region that holds local coordinates, when they lie within R210's bounds. -/
def Grid.regionOf (g : Grid) (p : Nat) (xs : List Int) : Option Nat :=
  let dir (k : Nat) : Option Nat :=
    let x := xs.getD k 0
    if x < -(g.width k : Int) ∨ (g.extent p k + g.width k : Nat) ≤ x then none
    else if x < 0 then some 0 else if x < g.extent p k then some 1 else some 2
  ((List.range 4).mapM dir).map fun ds =>
    ((ds.take g.rank).mapIdx fun k d => d * 3 ^ k).foldl (· + ·) 0

/-- The index of local coordinates within a region. -/
def Grid.indexIn (g : Grid) (p region : Nat) (xs : List Int) : Nat :=
  denseIndex (g.regionDims p region) ((List.range 4).map fun k => (xs.getD k 0 - g.regionLow p region k).toNat)

/-- The region index of the interior. -/
def Grid.inside (g : Grid) : Nat := ((List.range g.rank).map fun k => 3 ^ k).foldl (· + ·) 0

/-! ### Sources of foreland cells (R212) -/

/-- What R212 gives a foreland cell. -/
inductive CellSource
  | cell (polder : Nat) (xs : List Nat)
  | bytes (bs : List Byte)
  | open_
  deriving DecidableEq, Repr

/-- Apply the dike rules to a global coordinate, dimension by dimension from `k` on. -/
def Grid.mapCoord (g : Grid) : Nat → List Int → List Int → Except CellSource (List Int)
  | _, [], done => .ok done
  | k, x :: xs, done =>
    let n : Int := (g.extents.getD k 1 : Nat)
    let go (y : Int) : Except CellSource (List Int) := g.mapCoord (k + 1) xs (done ++ [y])
    if 0 ≤ x ∧ x < n then go x
    else
      let low := decide (x < 0)
      match g.dikes.getD (2 * k + if low then 0 else 1) 0 with
      | 0 => go (x % n)
      | 1 => go (if low then 0 else n - 1)
      | 2 => go (if low then -x - 1 else 2 * n - x - 1)
      | 3 => .error (.bytes (leBytes g.elem g.const.toNat))
      | 4 => .error (.bytes (List.replicate g.elem 0))
      | _ => .error .open_

/-- Index of the last cut point at or below a coordinate. -/
def cutIndex (cs : List Nat) (x : Nat) : Nat := (cs.filter (· ≤ x)).length - 1

/-- The source of cell `i` of a region of a polder (R212). -/
def Grid.source (g : Grid) (p region i : Nat) : CellSource :=
  let global : List Int := (g.cellCoords p region i).mapIdx fun k x => x + ((g.origin p k : Nat) : Int)
  match g.mapCoord 0 global [] with
  | .error e => e
  | .ok ys =>
    let ns := ys.map Int.toNat
    let q := ns.mapIdx fun k y => cutIndex (g.cuts.getD k []) y
    let owner := denseIndex g.counts q
    .cell owner (ns.mapIdx fun k y => y - g.origin owner k)

/-- Cells of a region. -/
def Grid.cellCount (g : Grid) (p region : Nat) : Nat := prodOf (g.regionDims p region)

/-- The polders that supply a cell of a region, and the owner of the region itself (R217, condition 1). -/
def Grid.suppliers (g : Grid) (p region : Nat) : List Nat :=
  ((List.range (g.cellCount p region)).foldl (fun (l : List Nat) i => match g.source p region i with
    | .cell o _ => if l.contains o then l else l ++ [o]
    | _ => l) [p])

end Sys2Proof.Machine
end

