-- ==== Sys2Proof/Machine/Copy.lean ====
section
/-!
DEFINITION. The copy engine (R197 to R200): the checks at dispatch, the streams of moves, and the chunks.
-/
namespace Sys2Proof.Machine

/-! ### What an engine reads and writes -/

/-- Where an engine of a core finds `n` bytes at an address, at the time of the access; a fault goes to the token. -/
def enginePlace (s : State) (core : Nat) (acc : Access) (a : W64) (n : Nat) : Except Cause (Place × Bool) :=
  match decodeAddr (s.scratchLimit core) a n with
  | none => .error .addressSpace
  | some (.global va) =>
    match translate s core (s.core core).ctx va acc with
    | .error e => .error e
    | .ok t =>
      if t.pkg = s.pkg ∧ !(isDram t.addr || isScratch t.addr) then .error .protection
      else .ok (s.placeOf core acc a n)
  | some _ => .ok (s.placeOf core acc a n)

/-- An engine's walk leaves the leaf in the cluster's translation cache (R298). -/
def State.fillEngine (s : State) (core : Nat) (a : W64) (n : Nat) : State :=
  match s.space core a n with
  | .global va => s.fillCluster core (s.core core).ctx va
  | _ => s

/-- Run a core under a context. -/
def State.setCtx (s : State) (core ctx : Nat) : State := s.modCore core fun k => { k with csr := kset 0 k.csr 0x003 (BitVec.ofNat 64 ctx) }

/-- Act for a started operation in the context of its own task, which is another one's than the core's once that task has been ended (R26, R31). -/
def State.forTask (s : State) (core : Nat) (orphan : Option Nat) (f : State → State) : State :=
  match orphan with
  | none => f s
  | some ctx => (f (s.setCtx core ctx)).setCtx core (s.core core).ctx

/-- What an operation's stream of reads and writes has come to: the operation and whether it is one of the X slot, the state, the time,
the bytes still to come from other packages, the fault that stopped it, and the lines asked of other packages. -/
structure Flow where
  core : Nat
  e : EngEntry
  matrix : Bool
  st : State
  time : Nat
  data : List Byte
  bad : Option Cause
  asked : List (Nat × Nat)

/-- The stream of an A-slot operation of a core from a time on; `data` are the bytes that other packages return. -/
def State.flow (s : State) (core : Nat) (e : EngEntry) (time : Nat) (data : List Byte) : Flow :=
  { core := core, e := e, matrix := false, st := s, time := time, data := data, bad := none, asked := [] }

/-- Bytes of a typed buffer as the operation may read them (R159): of the core's later stores and of its engine operations' writes whose
token it does not consume, each aligned word is seen wholly or not at all. X-slot operations see one another in queue order. -/
def Flow.view (f : Flow) (p : Place) (bs : List Byte) : List Byte :=
  let hs := (f.st.core f.core).hist.filter fun h => !(consumes f.e.consumed h.tok h.gen || (f.matrix && h.matrix) || h.serial == f.e.serial)
  withOld f.e.stale (fun i => Config.freeBit f.st.free (17 * f.core + 1009 * i + 3)) p
    (if hs.isEmpty then bs else withHist hs (fun w => Config.freeNat f.st.free (17 * f.core + 1009 * w + 4)) p bs)

/-- Ask another package for the line of an address, once (R204). -/
def Flow.ask (f : Flow) (pkg a : Nat) : Flow :=
  if f.asked.contains (pkg, a / 64) then f
  else { f with st := f.st.sendFabric pkg 0 (.fetch f.core f.e.serial f.asked.length a), asked := (pkg, a / 64) :: f.asked }

/-- Read `n` bytes at an address for an operation; bytes of another package are taken from the flow's data, and spoilt data are UNCORRECTABLE
(R333). -/
def Flow.read (f : Flow) (a : W64) (n : Nat) : List Byte × Flow :=
  match f.bad with
  | some _ => ([], f)
  | none =>
    match enginePlace f.st f.core .read a n with
    | .error e => ([], { f with bad := some e })
    | .ok (.far k q, _) =>
      let g := f.ask k q
      if n ≤ f.data.length then (f.data.take n, { g with st := g.st.fillEngine f.core a n, data := f.data.drop n, time := Nat.max g.time (Config.freeNat f.st.free (43 * k + 7)) })
      else ([], { g with bad := some .remote })
    | .ok (p, _) =>
      if (f.st.ms.spoiltAt p n).isSome then ([], { f with bad := some .uncorrectable }) else
      let (bs, t, s1) := f.st.engReadAt f.time (f.st.core f.core).lease p n
      (f.view p bs, { f with st := s1.fillEngine f.core a n, time := Nat.max f.time t })

/-- Keep how words of the core's own typed buffers stood before the operation wrote them; an operation that consumes its token sees the
write whatever earlier store it may miss (R159). -/
def State.noteEngine (s : State) (core : Nat) (matrix : Bool) (e : EngEntry) (words : List OldWord) : State :=
  let k := s.core core
  let mine := k.hist.filter fun h => h.serial == e.serial
  let new := if mine.isEmpty then words else words.filter fun w => !(mine.any fun h => h.word.place == w.place)
  let seen (x : EngEntry) : EngEntry :=
    if consumes x.consumed e.prod e.gen then
      { x with stale := x.stale.filter fun w => !(words.any fun y => y.place == w.place) }
    else x
  s.setCore core { k with
    hist := k.hist ++ new.map fun w => { matrix := matrix, serial := e.serial, tok := e.prod, gen := e.gen, seen := none, bar := none, word := w }
    queues := k.queues.map fun q => (q.1, q.2.map seen)
    mx := { k.mx with queue := k.mx.queue.map seen }
    started := k.started.map fun x => { x with e := seen x.e }
    slips := k.slips.map fun x => { x with op := match x.op with
      | .enter q y => .enter q (seen y)
      | op => op } }

/-- The bytes that a write by an A-slot operation leaves in the own typed buffers: of two operations that no token edge joins, an aligned
word holds the bytes of one or of the other (R198). An operation dispatched after the core has observed the other's token follows it
(DEDUCED, log 13). -/
def Flow.beside (f : Flow) (p : Place) (bs : List Byte) : List Byte :=
  let hs := (f.st.core f.core).hist.filter fun h => !(h.matrix || h.serial == f.e.serial || consumes f.e.consumed h.tok h.gen ||
    h.seen.any fun m => decide (m < f.e.bundle))
  if hs.isEmpty then bs
  else bs.mapIdx fun i b =>
    let x := p.add i
    match hs.findIdx? fun h => match h.word.at x with
      | some j => bits h.word.mask j 1 == 1
      | none => false with
    | some ix => if Config.freeBit f.st.free (17 * f.core + 1009 * ix + 5) then (f.st.readPlace x 1).getD 0 b else b
    | none => b

/-- Write bytes into the core's own typed buffers for the operation. -/
def Flow.writeOwn (f : Flow) (p : Place) (bs : List Byte) : Flow :=
  { f with st := (f.st.writePlace p (f.beside p bs)).noteEngine f.core f.matrix f.e (f.st.wordsAt p bs.length) }

/-- Whether a place lies in a core's own typed buffers. -/
def Place.ownOf (p : Place) (core : Nat) : Bool :=
  match p with
  | .buf i _ _ => i == core
  | _ => false

/-- Write bytes at an address for an operation; a bank that is gone is UNCORRECTABLE (R334). The time of a store in another package is not in
the model's state (log 12). -/
def Flow.write (f : Flow) (a : W64) (bs : List Byte) : Flow :=
  match f.bad with
  | some _ => f
  | none =>
    match enginePlace f.st f.core .write a bs.length with
    | .error e => { f with bad := some e }
    | .ok (.far k p, g) =>
      if f.st.lost k then { f with bad := some .remote }
      else
        let s1 := f.st.sendFabric k 0 (.access f.core 0 (.store p bs 0))
        { f with
          st := (if g then s1.replicate (s1.core f.core).ctx p bs else s1).fillEngine f.core a bs.length
          time := Nat.max f.time (Config.freeNat f.st.free (43 * k + 8)) }
    | .ok (p, g) =>
      if (f.st.ms.deadAt p bs.length).isSome then { f with bad := some .uncorrectable }
      else if p.ownOf f.core then f.writeOwn p bs
      else
        let (s1, t) := f.st.engWrite f.time p bs
        let s2 := match g, p with
          | true, .phys q => s1.replicate (s1.core f.core).ctx q bs
          | _, _ => s1
        { f with st := s2.fillEngine f.core a bs.length, time := Nat.max f.time t }

/-- Read the bits at a location. -/
def Flow.readLoc (f : Flow) (l : Loc) : Nat × Flow :=
  let (bs, f1) := f.read l.addr ((l.bit + l.w + 7) / 8)
  (bits (leNat bs) l.bit l.w, f1)

/-- Read the value that a move carries. -/
def Flow.readSrc (f : Flow) (x : Src) : Nat × Flow :=
  match x with
  | .const v => (v, f)
  | .loc l => f.readLoc l
  | .pick row md k0 k1 =>
    let (m, f1) := f.readLoc md
    if bits m 0 2 = row then f1.readLoc k0
    else if bits m 2 2 = row then f1.readLoc k1
    else (0, f1)

/-! ### Bytes to be written -/

/-- One byte to be written: its address, which of its bits change, and their values. -/
structure ByteMove where
  addr : W64
  mask : Nat
  val : Nat
  deriving DecidableEq, Repr

/-- The bytes that a value of a location makes. -/
def Loc.moves (l : Loc) (v : Nat) : List ByteMove :=
  if l.w < 8 then [⟨l.addr, (2 ^ l.w - 1) * 2 ^ l.bit, v % 2 ^ l.w * 2 ^ l.bit⟩]
  else (List.range (l.w / 8)).map fun i => ⟨l.addr + BitVec.ofNat 64 i, 255, bits v (8 * i) 8⟩

/-- Join moves into bytes of one address each, in stream order. -/
def joinMoves : List ByteMove → List ByteMove
  | [] => []
  | m :: ms =>
    match joinMoves ms with
    | x :: xs =>
      if x.addr = m.addr then ⟨m.addr, m.mask ||| x.mask, (m.val &&& (255 - x.mask)) ||| x.val⟩ :: xs else m :: x :: xs
    | [] => [m]

/-- Whole bytes at rising addresses within one line, as one write; a byte of which some bits change by itself. -/
def writeRuns : List ByteMove → List (W64 × List ByteMove)
  | [] => []
  | m :: ms =>
    match writeRuns ms with
    | (a, xs) :: rest =>
      if m.mask = 255 ∧ xs.all (fun x => x.mask == 255) ∧ a = m.addr + 1 ∧ a.toNat % 64 ≠ 0 then (m.addr, m :: xs) :: rest
      else (m.addr, [m]) :: (a, xs) :: rest
    | [] => [(m.addr, [m])]

/-- Write some bits of a byte: over what stands there, or as a store of those bits in another package (R198). The members of a group hold the
same byte, so the copies of a replicated byte carry it whole as it stands here (R295): DEDUCED (log 12). -/
def Flow.writeBits (f : Flow) (m : ByteMove) : Flow :=
  match f.bad, enginePlace f.st f.core .write m.addr 1 with
  | none, .ok (.far k p, g) =>
    if f.st.lost k then { f with bad := some .remote }
    else
      let s1 := f.st.sendFabric k 0 (.access f.core 0 (.merge p m.mask (BitVec.ofNat 8 m.val) 0))
      { f with
      st := if g then s1.replicate (s1.core f.core).ctx p
        [BitVec.ofNat 8 ((leNat (s1.readPlace (.phys (s1.ms.forward p)) 1) &&& (255 - m.mask)) ||| m.val)] else s1
      time := Nat.max f.time (Config.freeNat f.st.free (43 * k + 8)) }
  | none, .ok (p, _) => f.write m.addr [BitVec.ofNat 8 ((leNat (f.st.readPlace p 1) &&& (255 - m.mask)) ||| m.val)]
  | _, _ => f.write m.addr [0]

/-- Write one run. -/
def Flow.writeRun (f : Flow) (x : W64 × List ByteMove) : Flow :=
  match x.2 with
  | [m] => if m.mask = 255 then f.write m.addr [BitVec.ofNat 8 m.val] else f.writeBits m
  | ms => f.write x.1 (ms.map fun m => BitVec.ofNat 8 m.val)

/-- Whether an address lies in a way that a migration is moving (R330). -/
def movingAt (s : State) (core : Nat) (a : W64) : Bool :=
  match enginePlace s core .read a 1 with
  | .ok (p, _) => s.ms.moving p
  | .error _ => false

/-- The addresses that a move reads. -/
def Src.addrs : Src → List W64
  | .const _ => []
  | .loc l => [l.addr]
  | .pick _ md k0 k1 => [md.addr, k0.addr, k1.addr]

/-- Whether a run writes, or (`all`) reads or writes, a way that a migration is moving (R330). -/
def Seg.movingIn (g : Seg) (s : State) (core : Nat) (all : Bool) : Bool :=
  (List.range g.n).any fun q =>
    (g.only q && movingAt s core (g.dst q).addr) || ((g.also q).any fun l => movingAt s core l.addr) ||
      (all && (g.src q).addrs.any (movingAt s core))

/-- The first fault that writing bytes at addresses would meet. -/
def writeFault (s : State) (core : Nat) (ms : List ByteMove) : Option Cause :=
  ms.findSome? fun m => match enginePlace s core .write m.addr 1 with
    | .error e => some e
    | .ok (.far k _, _) => if s.lost k then some .remote else none
    | .ok (p, _) => if (s.ms.deadAt p 1).isSome then some .uncorrectable else none

/-! ### Chunks -/

/-- Moves in a chunk of a run. -/
def Seg.perChunk (g : Seg) : Nat := 32768 / g.w

/-- The run and the chunk within it that a chunk number names. -/
def findChunk : List Seg → Nat → Option (Seg × Nat)
  | [], _ => none
  | g :: gs, i => if i < g.chunks then some (g, i) else findChunk gs (i - g.chunks)

/-- The move numbers of a chunk of a run. -/
def Seg.range (g : Seg) (i : Nat) : List Nat :=
  (List.range (Nat.min g.perChunk (g.n - i * g.perChunk))).map fun q => i * g.perChunk + q

/-- The values of a chunk, read in order. -/
def Flow.readAll (g : Seg) : List Nat → Flow → List (Nat × Nat) × Flow
  | [], f => ([], f)
  | q :: qs, f =>
    let (v, f1) := f.readSrc (g.src q)
    let (vs, f2) := Flow.readAll g qs f1
    ((q, v % 2 ^ g.keep) :: vs, f2)

/-- The bytes of a chunk at the destination. -/
def Seg.byteMoves (g : Seg) (vs : List (Nat × Nat)) : List ByteMove :=
  joinMoves (vs.flatMap fun x => if g.only x.1 then (g.dst x.1).moves x.2 else [])

/-- The bytes of a chunk at the second destination (R199). -/
def Seg.secondMoves (g : Seg) (vs : List (Nat × Nat)) : List ByteMove :=
  joinMoves (vs.flatMap fun x => match g.also x.1 with
    | some l => l.moves x.2
    | none => [])

/-- Bytes of chunk `i`. -/
def chunkBytes (gs : List Seg) (i : Nat) : Nat :=
  match findChunk gs i with
  | some (g, j) => Nat.min 4096 (g.bytes - 4096 * j)
  | none => 0

/-- Bytes in the longest fully written leading run of chunks (R198). -/
def leadingBytes (gs : List Seg) (done : List Nat) : Nat → Nat → Nat
  | 0, _ => 0
  | n + 1, i => if done.contains i then chunkBytes gs i + leadingBytes gs done n (i + 1) else 0

/-- The moves that one of two destinations takes. -/
def Seg.taken (g : Seg) (second : Bool) : List Nat :=
  (List.range g.n).filter fun q => if second then (g.also q).isSome else g.only q

/-- The chunks of one of two destinations, with their bytes and whether every move has been made; `base` chunks come before the run. -/
def destChunks (second : Bool) (done : List Nat) : Nat → List Seg → List (Nat × Bool)
  | _, [] => []
  | base, g :: gs =>
    let qs := g.taken second
    ((List.range (ceilDiv (qs.length * g.w) 32768)).map fun k =>
      let mine := (qs.drop (k * g.perChunk)).take g.perChunk
      ((mine.length * g.w + 7) / 8, mine.all fun q => done.contains (base + q / g.perChunk))) ++
    destChunks second done (base + g.chunks) gs

/-- Bytes in the longest fully written leading run of chunks of one of two destinations (R199). -/
def leadingOf (second : Bool) (gs : List Seg) (done : List Nat) : Nat :=
  (((destChunks second done 0 gs).takeWhile fun x => x.2).map fun x => x.1).foldl (· + ·) 0

/-! ### The plans of the copy operations (R199) -/

/-- What a copy does: its runs, whether they have a second destination, and the receivers of a multicast. -/
structure Plan where
  segs : List Seg
  second : Bool
  receivers : Option (List Nat)

/-- The planes of a mask. -/
def planesOf (m : Nat) : List Nat := (List.range 4).filter fun j => bits m j 1 == 1

/-- The record `i` of an entry. -/
def EngEntry.shape (e : EngEntry) (i : Nat) : Shape := readShape ((e.recs.getD i (0, [])).2)

/-- Operand value `i` of an entry. -/
def EngEntry.val (e : EngEntry) (i : Nat) : Nat := (e.vals.getD i 0).toNat

/-- Moves between two tiles of one layout. -/
def tileSegs (d : Shape) (td : Nat) (r : Shape) (tr : Nat) (planes : List Nat) : List Seg :=
  let cnt := sharedCounts d td r tr
  pairRuns (r.runs tr cnt planes) (d.runs td cnt planes)

/-- Moves of `cpypl` to two destinations: each element of the source that one of them shares is read once (R199). -/
def jointSegs (d x : Shape) (td : Nat) (r : Shape) (tr : Nat) (planes : List Nat) : List Seg :=
  let c1 := sharedCounts d td r tr
  let c2 := sharedCounts x td r tr
  let cnt := List.zipWith Nat.max c1 c2
  let within (c : List Nat) (q : Nat) : Bool := (List.zipWith (fun a b => decide (a < b)) (digits cnt q) c).all id
  ((pairRuns (r.runs tr cnt planes) (d.runs td cnt planes)).zip (x.runs td cnt planes)).map fun y =>
    { y.1 with only := within c1, also := fun q => if within c2 q then some (y.2.at_ q) else none }

/-- Moves of `cpysp`: each dense element from its group's kept values (R199). -/
def sparseSegs (d : Shape) (td : Nat) (r : Shape) (tr : Nat) : List Seg :=
  let cnt := sharedCounts d td r tr
  [{ n := prodOf cnt, w := d.bitsOf, keep := d.bitsOf
     dst := fun q => d.locOf 0 (d.coords td cnt q)
     only := fun _ => true, also := fun _ => none
     src := fun q =>
       let xs := r.coords tr cnt q
       let gs := match xs with
         | y :: ys => y / 4 :: ys
         | [] => []
       .pick (xs.getD 0 0 % 4) (r.metaLoc tr gs) (r.keptLoc 0 gs) (r.keptLoc 1 gs) }]

/-- The low bits of a pattern repeated to a width. -/
def repeatBits (p w : Nat) : Nat → Nat
  | 0 => 0
  | n + 1 => p % 2 ^ w + 2 ^ w * repeatBits p w n

/-- Bits of a pattern (R199). -/
def unitBits : UnitSize → Nat | .b => 8 | .h => 16 | .w => 32

/-- Moves of `cpyfill`; of a 2:4 sparse tile the kept values are filled. -/
def fillSegs (d : Shape) (td p : Nat) (sz : UnitSize) : List Seg :=
  let v := repeatBits p (unitBits sz) (8 * elemSize d.ty / unitBits sz)
  ((d.runs td (d.counts td) [0, 1, 2, 3]).take 1).map fun x =>
    { n := x.n, w := x.w, keep := x.keep, src := fun _ => .const v, dst := x.at_, only := fun _ => true, also := fun _ => none }

/-- The cores of a 128-bit core set in a core's cluster (R199). -/
def coreSet (core lo hi : Nat) : List Nat :=
  ((List.range 128).filter fun n => bits (lo + hi * 2 ^ 64) n 1 == 1).map fun n => peer core n

/-- The plan of a queued copy. -/
def copyPlan (core : Nat) (e : EngEntry) : Plan :=
  let c := e.val 2
  let one (gs : List Seg) : Plan := { segs := gs, second := false, receivers := none }
  match e.op with
  | .cpyB .. =>
    one [{ n := c % 2 ^ 32, w := 8, keep := 8
           src := fun q => .loc ⟨e.vals.getD 1 0 + BitVec.ofNat 64 q, 0, 8⟩
           dst := fun q => ⟨e.vals.getD 0 0 + BitVec.ofNat 64 q, 0, 8⟩
           only := fun _ => true, also := fun _ => none }]
  | .cpysp .. => one (sparseSegs (e.shape 0) (c / 2 ^ 32) (e.shape 1) (c % 2 ^ 32))
  | .cpyfill _ _ _ sz _ => one (fillSegs (e.shape 0) (c / 2 ^ 32) (e.val 1) sz)
  | .cpypl _ _ _ q d2 _ =>
    if d2.isSome then
      { segs := jointSegs (e.shape 0) (e.shape 2) (c / 2 ^ 32) (e.shape 1) (c % 2 ^ 32) (planesOf q.val), second := true, receivers := none }
    else one (tileSegs (e.shape 0) (c / 2 ^ 32) (e.shape 1) (c % 2 ^ 32) (planesOf q.val))
  | .cpym .. =>
    { segs := tileSegs (e.shape 0) (c / 2 ^ 32) (e.shape 1) (c % 2 ^ 32) [0, 1, 2, 3], second := false
      receivers := some (coreSet core (e.val 3) (e.val 4)) }
  | _ => one (tileSegs (e.shape 0) (c / 2 ^ 32) (e.shape 1) (c % 2 ^ 32) [0, 1, 2, 3])

/-- Chunks of a plan. -/
def Plan.chunks (p : Plan) : Nat := (p.segs.map Seg.chunks).foldl (· + ·) 0

/-- How many times each byte of the first destination is written: once per receiver (R199, R257). -/
def Plan.copies (p : Plan) : Nat := (p.receivers.map List.length).getD 1

/-- Bytes that a whole copy writes (R199). -/
def Plan.bytes (p : Plan) : Nat :=
  if p.second then
    ([false, true].flatMap fun x => p.segs.map fun g => ((g.taken x).length * g.w + 7) / 8).foldl (· + ·) 0
  else (p.segs.map Seg.bytes).foldl (· + ·) 0 * p.copies

/-- Bytes that a copy stopped by a fault counts: those of the longest fully written leading run of chunks of each destination (R198, R199). -/
def Plan.leading (p : Plan) (done : List Nat) : Nat :=
  if p.second then leadingOf false p.segs done + leadingOf true p.segs done
  else leadingBytes p.segs done p.chunks 0 * p.copies

/-! ### Dispatch (R198, R199) -/

/-- The parts of a tile that a copy reads or writes, checked under R155 steps 1 to 6. -/
def checkTile (s : State) (c : Cursor) (g : Agent) (acc : Access) (rs : List LocRun) : Option Failed :=
  checkHere s c.core c.slot.index g acc (runParts rs)

/-- RECORD with the address of a record (R198). -/
def recordFail (b : Bool) (a : W64) : Option Failed := if b then some (.record, a) else none

/-- The checks of R198 item 2 on a pair of tiles: grids, then agreement; `layouts` says which layouts go together. -/
def pairCheck (da sa : W64) (d : Shape) (td : Nat) (r : Shape) (tr : Nat) (layouts : Bool) : Option Failed :=
  (recordFail (decide (d.gridSize ≤ td)) da).orElse fun _ =>
    (recordFail (decide (r.gridSize ≤ tr)) sa).orElse fun _ =>
      recordFail (d.tile != r.tile || d.ty != r.ty || !layouts) sa

/-- The earliest access that a copy waits for: the core's global stores before the latest sync bundle (R198 item 6). -/
def copyWaits (s : State) (c : Cursor) : List Nat :=
  (s.core c.core).earlier fun o => o.stPend && o.parts.any fun p => match p.place with
    | .buf .. => false
    | _ => true

/-- Enter a copy in the copy queue. -/
def enterCopy (s : State) (t : State) (c : Cursor) (op : Instr) (tw : TokenWord) (vals : List W64)
    (recs : List (W64 × List Byte)) : Res :=
  .next (t.enqueue c 0 { newEntry s c op tw vals with recs := recs, waits := copyWaits s c })

/-- A copy between two tiles that each have a record. -/
def tileCopy (op : Instr) (d r x : Reg) (tw : TokenWord) (planes : List Nat) (layouts : Shape → Shape → Bool) (s : State) : Res :=
  engineOp s [.s d.val, .s r.val, .s x.val] 0 tw fun c => withClean s c [d, r, x] fun _ =>
    let da := (s.sr c d.val).val
    let sa := (s.sr c r.val).val
    let tau := (s.sr c x.val).val
    withRecords s c tw [da, sa] fun t recs =>
      let dst := readShape (recs.getD 0 [])
      let src := readShape (recs.getD 1 [])
      let td := tau.toNat / 2 ^ 32
      let tr := tau.toNat % 2 ^ 32
      let cnt := sharedCounts dst td src tr
      let read := if src.layout = 2 ∧ dst.layout ≠ 2 then wholeGroups cnt else cnt
      orTrap s c (pairCheck da sa dst td src tr (layouts dst src)) fun _ =>
        orTrap s c (checkTile s c .copy .write (dst.runs td cnt planes)) fun _ =>
          orTrap s c (checkTile s c .copy .read (src.runs tr read planes)) fun _ =>
            enterCopy s t c op tw [da, sa, tau] [(da, recs.getD 0 []), (sa, recs.getD 1 [])]

/-- `cpy` (R199). -/
def execCpy (d r x : Reg) (tw : TokenWord) (s : State) : Res :=
  tileCopy (.cpy d r x tw) d r x tw [0, 1, 2, 3] (fun a b => a.layout == b.layout) s

/-- `cpysp` (R199): a 2:4 sparse source and a dense destination. -/
def execCpysp (d r x : Reg) (tw : TokenWord) (s : State) : Res :=
  tileCopy (.cpysp d r x tw) d r x tw [0, 1, 2, 3] (fun a b => a.layout == 0 && b.layout == 2) s

/-- `cpypl` (R199): the planes of a mask, of nm records, into one or two destinations. A record that is not nm traps as one that disagrees, with
the source record's address; that it does so where both are not nm is DESIGN CHOICE (log 13), R198 and R199 name no record then. -/
def execCpypl (d r x : Reg) (q : Fin 16) (d2 : Option Reg) (tw : TokenWord) (s : State) : Res :=
  let regs := [d, r, x] ++ d2.toList
  engineOp s (regs.map fun y => .s y.val) 0 tw fun c => withClean s c regs fun _ =>
    let da := (s.sr c d.val).val
    let sa := (s.sr c r.val).val
    let tau := (s.sr c x.val).val
    let ea := d2.toList.map fun y => (s.sr c y.val).val
    withRecords s c tw ([da, sa] ++ ea) fun t recs =>
      let dst := readShape (recs.getD 0 [])
      let src := readShape (recs.getD 1 [])
      let td := tau.toNat / 2 ^ 32
      let tr := tau.toNat % 2 ^ 32
      let nm (y : Shape) : Bool := src.layout == 1 && y.layout == 1
      let planes := planesOf q.val
      orTrap s c (pairCheck da sa dst td src tr (nm dst)) fun _ =>
        orTrap s c ((ea.zip (recs.drop 2)).findSome? fun y => pairCheck y.1 sa (readShape y.2) td src tr (nm (readShape y.2))) fun _ =>
          orTrap s c (checkTile s c .copy .write (dst.runs td (sharedCounts dst td src tr) planes)) fun _ =>
            orTrap s c (checkTile s c .copy .read (src.runs tr (sharedCounts dst td src tr) planes)) fun _ =>
              orTrap s c ((recs.drop 2).findSome? fun y =>
                  checkTile s c .copy .write ((readShape y).runs td (sharedCounts (readShape y) td src tr) planes)) fun _ =>
                enterCopy s t c (.cpypl d r x q d2 tw) tw [da, sa, tau] (([da, sa] ++ ea).zip recs)

/-- `cpyfill` (R199): a pattern over the destination tile. -/
def execCpyfill (d p x : Reg) (sz : UnitSize) (tw : TokenWord) (s : State) : Res :=
  engineOp s [.s d.val, .s p.val, .s x.val] 0 tw fun c => withClean s c [d, p, x] fun _ =>
    let da := (s.sr c d.val).val
    let tau := (s.sr c x.val).val
    withRecords s c tw [da] fun t recs =>
      let dst := readShape (recs.getD 0 [])
      let td := tau.toNat / 2 ^ 32
      let fits := elemSize dst.ty != 0 && 8 * elemSize dst.ty % unitBits sz == 0
      orTrap s c (recordFail (decide (dst.gridSize ≤ td) || !fits) da) fun _ =>
        orTrap s c (checkTile s c .copy .write ((dst.runs td (dst.counts td) [0, 1, 2, 3]).take 1)) fun _ =>
          enterCopy s t c (.cpyfill d p x sz tw) tw [da, (s.sr c p.val).val, tau] [(da, recs.getD 0 [])]

/-- `cpy.b` (R199): a byte range. -/
def execCpyB (d r x : Reg) (tw : TokenWord) (s : State) : Res :=
  engineOp s [.s d.val, .s r.val, .s x.val] 0 tw fun c => withClean s c [d, r, x] fun _ =>
    let da := (s.sr c d.val).val
    let sa := (s.sr c r.val).val
    let v := (s.sr c x.val).val
    let n := v.toNat
    let meet := decide (da ≠ sa) && decide (da.toNat < sa.toNat + n) && decide (sa.toNat < da.toNat + n)
    if 2 ^ 32 ≤ n then takeTrap s c .addressSpace v
    else if n = 0 then enterCopy s s c (.cpyB d r x tw) tw [da, sa, v] []
    else if meet then takeTrap s c .addressSpace da
    else
      orTrap s c (checkHere s c.core c.slot.index .copy .write [(da, n, 1)]) fun _ =>
        orTrap s c (checkHere s c.core c.slot.index .copy .read [(sa, n, 1)]) fun _ =>
          enterCopy s s c (.cpyB d r x tw) tw [da, sa, v] []

/-- The checks of R200 on one receiver: that it runs a task of the context, and its declaration. -/
def checkReceiver (s : State) (c : Cursor) (r : Nat) (base : W64) (rs : List LocRun) : Option Failed :=
  if isFw c.core || !s.runsTask r (s.core c.core).ctx then some (.protection, base)
  else
    let b : Buf := if bits base.toNat 60 4 = 8 then .w else .a
    let past := (runParts rs).filterMap fun x => beyond ((s.core r).csrNow 0x060) b (bits x.1.toNat 0 18) x.2.1
    match past with
    | [] => none
    | o :: os => some (.headerLimit, limitTval (bufKind b) (os.foldl Nat.min o) c.slot.index)

/-- `cpym` (R199, R200): the source tile to the same offsets of every receiver. -/
def execCpym (d r x : Reg) (n : Fin 16) (m : Reg) (bar : Fin 32) (tw : TokenWord) (s : State) : Res :=
  let m1 : Reg := Fin.ofNat 64 (m.val + 1)
  engineOp s [.s d.val, .s r.val, .s x.val, .s m.val, .s m1.val] 0 tw fun c => withClean s c [d, r, x, m, m1] fun _ =>
    withUses s c (if bar.val = 0 then [] else [.bar (bar.val - 1)]) fun _ =>
      let da := (s.sr c d.val).val
      let sa := (s.sr c r.val).val
      let tau := (s.sr c x.val).val
      let lo := (s.sr c m.val).val
      let hi := (s.sr c m1.val).val
      let set := coreSet c.core lo.toNat hi.toNat
      withRecords s c tw [da, sa] fun t recs =>
        let dst := readShape (recs.getD 0 [])
        let src := readShape (recs.getD 1 [])
        let td := tau.toNat / 2 ^ 32
        let tr := tau.toNat % 2 ^ 32
        let cnt := sharedCounts dst td src tr
        let tag := bits dst.base.toNat 60 4
        let runs := dst.runs td cnt [0, 1, 2, 3]
        orTrap s c (pairCheck da sa dst td src tr (dst.layout == src.layout)) fun _ =>
          if !(tag = 8 ∨ tag = 9) then takeTrap s c .bufferRight dst.base
          else if set.isEmpty then enterCopy s t c (.cpym d r x n m bar tw) tw [da, sa, tau, lo, hi] [(da, recs.getD 0 []), (sa, recs.getD 1 [])]
          else
            orTrap s c ((runParts runs).findSome? fun y => checkSpace s c.core y.1 y.2.1) fun _ =>
              orTrap s c (set.findSome? fun p => checkReceiver s c p dst.base runs) fun _ =>
                orTrap s c (checkTile s c .copy .read (src.runs tr cnt [0, 1, 2, 3])) fun _ =>
                  enterCopy s t c (.cpym d r x n m bar tw) tw [da, sa, tau, lo, hi] [(da, recs.getD 0 []), (sa, recs.getD 1 [])]

/-! ### Start and chunks -/

/-- The free-slot counter that a multicast takes from, when the operation is one. -/
def cpymCounter : Instr → Option (Nat × Nat)
  | .cpym _ _ _ n _ bar _ => some (n.val, bar.val)
  | _ => none

/-- A fault of an operation that a migration waits for abandons the migration, with an event at the origin column (R331). -/
def State.abandon (s : State) (core id : Nat) (cause : Cause) : State :=
  match s.ms.migration with
  | some m =>
    if m.copies.contains (core, id) then { s with ms := { s.ms with migration := none } }.report m.col 2 cause.code 0 else s
  | none => s

/-- The start of a copy: a multicast takes one slot of each receiver at once, or waits (R200); an empty copy completes. One that reaches a
way which a migration moves is held (R330). -/
def startCopy (s : State) (core : Nat) (e : EngEntry) : Option (State × Stage) :=
  let p := copyPlan core e
  let set := p.receivers.getD []
  let idle := p.chunks = 0 ∨ p.receivers = some []
  let done : Stage := .finished (outcome .done 0 0 (Nat.max e.time e.inTime)) false
  if s.ms.migration.isSome && p.segs.any fun g => g.movingIn s core true then none else
  match cpymCounter e.op with
  | some (n, _) =>
    if p.receivers = some [] then some (s, done)
    else if set.any fun r => kget 0 (s.core r).freeSlots n == 0 then none
    else
      let s1 := set.foldl (fun s r => s.modCore r fun k =>
        { k with freeSlots := kset 0 k.freeSlots n (kget 0 k.freeSlots n - 1) }) s
      some (s1, if idle then done else .copying p.chunks [])
  | none => some (s, if idle then done else .copying p.chunks [])

/-- The own-buffer location of an address with tag 0x8 or 0x9. -/
def ownPlace (r : Nat) (a : W64) : Place := .buf r (if bits a.toNat 60 4 = 8 then .w else .a) (bits a.toNat 0 18)

/-- The words that an operation has just delivered are counted in a phase of a barrier (R200). -/
def Core.countOld (k : Core) (serial : Nat) (b : Nat × Nat) : Core :=
  { k with hist := k.hist.map fun h => if h.serial = serial ∧ h.bar = none then { h with bar := some b } else h }

/-- Write bytes into a receiver's buffer for an operation and count them at its barrier (R200, R314). -/
def deliver (core : Nat) (e : EngEntry) (s : State) (r bar : Nat) (t : Nat) (ms : List ByteMove) : State :=
  let s1 := (writeRuns ms).foldl (fun s x =>
    let p := ownPlace r x.1
    let bs := x.2.mapIdx fun i m =>
      BitVec.ofNat 8 ((leNat (s.readPlace (p.add i) 1) &&& (255 - m.mask)) ||| m.val)
    if r = core then ((s.flow core e t []).writeOwn p bs).st else (s.engWrite t p bs).1) s
  if bar = 0 then s1
  else
    let b := kget .none (s1.core r).barriers (bar - 1)
    let s2 := if r = core then s1.modCore core fun k => k.countOld e.serial (bar - 1, b.phase) else s1
    s2.putBarrier r (bar - 1) { b with arrived := (b.arrived + ms.length) % 2 ^ 48, tmax := Nat.max b.tmax t }

/-- A copy ends with a fault: the bytes of its longest fully written leading run count (R198 item 7). -/
def copyFault (p : Plan) (done : List Nat) (cause : Cause) (t : Nat) : Stage :=
  .finished (outcome .faulted cause.code (p.leading done) t) false

/-- The copy engine reads and writes one chunk of a started copy (R198); `data` are the bytes that another
package returns for its source. -/
def copyChunk (core idx chunk : Nat) (data : List Byte) (s : State) : Res :=
  match (s.core core).started[idx]? with
  | none => .next s
  | some x =>
    match x.stage with
    | .copying total done =>
      let p := copyPlan core x.e
      if done.contains chunk || !(s.core core).engines then .next s
      else
        match findChunk p.segs chunk with
        | none => .next s
        | some (g, i) =>
          let t0 := Nat.max x.e.time x.e.inTime
          let (vs, f1) := Flow.readAll g (g.range i) (s.flow core x.e t0 data)
          let ms := g.byteMoves vs
          let m2 := g.secondMoves vs
          let bad := match f1.bad with
            | some e => some e
            | none => if p.receivers.isSome then none else writeFault s core (ms ++ m2)
          match bad with
          | some e => .next ((f1.st.abandon core x.id e).setStage core x.id (copyFault p done e t0))
          | none =>
            let f2 := match p.receivers with
              | some rs =>
                { f1 with st := rs.foldl (fun s r => deliver core x.e s r ((cpymCounter x.e.op).getD (0, 0)).2 f1.time ms) f1.st }
              | none => (writeRuns ms ++ writeRuns m2).foldl Flow.writeRun f1
            let now := chunk :: done
            let st : Stage :=
              if now.length = total then .finished (outcome .done 0 p.bytes f2.time) false else .copying total now
            let written := (((vs.filter fun v => g.only v.1).length * g.w + 7) / 8) * p.copies +
              ((vs.filter fun v => (g.also v.1).isSome).length * g.w + 7) / 8
            .next (f2.st.modCore core fun k =>
              { k.count 10 written with started := k.started.map fun y =>
                  if y.id = x.id then { y with stage := st, e := { y.e with time := f2.time } } else y })
    | _ => .next s

end Sys2Proof.Machine
end

