-- ==== Sys2Proof/Machine/Tile.lean ====
section
/-!
DEFINITION. Matrix tiles and their arithmetic: legal combinations (R87), block durations (R175), layouts (R63, R72, R172),
element values (R62, R64, R69, R73), exact block sums (R88, R89), accumulation (R90, R91) and conversion (R81 to R84, R92).
-/
namespace Sys2Proof.Machine

/-- M, N and K of a shape (R87). -/
def mmaDims : Nat → Nat × Nat × Nat
  | 0 => (32, 32, 32)
  | 1 => (16, 64, 32)
  | 2 => (8, 128, 32)
  | _ => (32, 32, 64)

/-- Bits that an element of a type takes in memory (R62 to R64); of nm one digit. -/
def typeBits (ty : Nat) : Nat :=
  match ty with
  | 0x2 => 4 | 0x8 => 2 | 0x5 | 0x6 => 16 | 0x9 | 0xA => 32 | _ => 8

/-- Whether a type is fp8. -/
def isF8 (ty : Nat) : Bool := ty == 3 || ty == 4
/-- Whether a type is fp16 or bf16. -/
def isHalf (ty : Nat) : Bool := ty == 5 || ty == 6
/-- Whether a type is int8 or uint8. -/
def isI8 (ty : Nat) : Bool := ty == 0 || ty == 1

/-- The table of R87: shape, types of A, B, accumulator and result, plane set, and SP. -/
def legalMma (sh ta tb tacc tres planes : Nat) (sp : Bool) : Bool :=
  let fp := tacc == 9 && (tres == 9 || tres == 5 || tres == 6 || tres == 3 || tres == 4)
  let int := tacc == 10 && tres == 10
  if tb = 8 then planes != 0 && (isI8 ta || isF8 ta) && fp && !sp
  else planes == 0 &&
    if isI8 ta && isI8 tb then int
    else if (isI8 ta || ta == 2) && tb == 2 then int && !sp
    else if isF8 ta && isF8 tb then fp
    else if ta == 7 && tb == 7 then fp && !sp
    else if (isHalf ta && (isHalf tb || isF8 tb)) || (isF8 ta && isHalf tb) then fp && sh != 3
    else false

/-- Block duration D of an `mma` (R175). -/
def mmaDur (ta tb planes : Nat) : Nat :=
  if isHalf ta || isHalf tb then 64
  else if tb = 8 then 4 * ((List.range 4).filter fun j => bits planes j 1 == 1).length
  else if ta = 7 then 8
  else if tb = 2 then (if ta = 2 then 4 else 8)
  else 16

/-- Bytes of `n` elements of a type. -/
def tileSize (ty n : Nat) : Nat := n * typeBits ty / 8

/-- Code of element `n` of packed elements (R63). -/
def codeAt (ty : Nat) (bs : List Byte) (n : Nat) : Nat :=
  let w := typeBits ty
  if w < 8 then bits (leAt bs (n * w / 8) 1) (n * w % 8) w else leAt bs (n * w / 8) (w / 8)

/-- The float format of a type code. -/
def typeFmt (ty : Nat) : Fmt :=
  match ty with
  | 3 => fp8e4 | 4 => fp8e5 | 5 => fp16 | 6 => bf16 | _ => fp32

/-- The value of a code of a type (R62 to R64). -/
def codeVal (ty code : Nat) : FVal :=
  match ty with
  | 0 => .ofInt (signed 8 code)
  | 1 => .ofInt code
  | 2 => .ofInt (signed 4 code)
  | 7 => lg6Val code
  | 10 => .ofInt (signed 32 code)
  | _ => decodeFloat (typeFmt ty) code

/-- Convert a value into a type with RNE (R81 to R84, R92, R185). -/
def convertTo (ty : Nat) (x : FVal) : Nat × FlagSet :=
  match ty with
  | 0 => floatToInt true 8 .rne x
  | 1 => floatToInt false 8 .rne x
  | 10 => floatToInt true 32 .rne x
  | _ => roundTo (typeFmt ty) .rne x

/-- Cut a list into `count` pieces of `n`. -/
def pieces {α : Type} (n : Nat) : Nat → List α → List (List α)
  | 0, _ => []
  | count + 1, xs => xs.take n :: pieces n count (xs.drop n)

/-- An element of an operand: its value, and its code for the products of lg6 (R69). -/
structure Elem where
  val : FVal
  code : Nat

/-- An element of a type. -/
def elemOf (ty code : Nat) : Elem := { val := codeVal ty code, code := code }

/-- The rows of an A tile, K elements each (R172). -/
def aRows (ty m k : Nat) (bs : List Byte) : List (List Elem) :=
  pieces k m ((List.range (m * k)).map fun n => elemOf ty (codeAt ty bs n))

/-- Planes of a plane set, leading digit first. -/
def planeList (planes : Nat) : List Nat := (List.range 4).filter fun j => bits planes j 1 == 1

/-- The value of a weight of nm under a plane set, from the planes' bytes in turn, `size` bytes each (R73). -/
def nmElem (planes size : Nat) (bs : List Byte) (n : Nat) : Elem :=
  let digit (i : Nat) : Int := 2 * (codeAt 8 (bs.drop (i * size)) n : Int) - 3
  let half := ((planeList planes).mapIdx fun i j => digit i * 4 ^ (3 - j)).foldl (· + ·) 0
  { val := (FVal.ofInt half).scale (-1), code := 0 }

/-- The four rows of group `g` of a sparse column of `kept` codes (R172). -/
def sparseGroup (ty entry : Nat) (v0 v1 : Nat) : List Elem :=
  (List.range 4).map fun r =>
    if bits entry 0 2 = r then elemOf ty v0
    else if bits entry 2 2 = r then elemOf ty v1
    else { val := .fin false 0 0, code := 0 }

/-- The columns of a B tile, K elements each (R172). -/
def bCols (ty n k planes : Nat) (sp : Bool) (bs md : List Byte) : List (List Elem) :=
  if ty = 8 then pieces k n ((List.range (n * k)).map (nmElem planes (k * n / 4) bs))
  else if sp then
    pieces k n ((List.range (n * k / 4)).flatMap fun g =>
      sparseGroup ty (codeAt 2 md g) (codeAt ty bs (2 * g)) (codeAt ty bs (2 * g + 1)))
  else pieces k n ((List.range (n * k)).map fun i => elemOf ty (codeAt ty bs i))

/-- A product (R69, R88), and whether it created a NaN. -/
def prodOfElems (lg : Bool) (a b : Elem) : FVal × Bool :=
  if lg then (lg6Mul a.code b.code, false) else mulVal a.val b.val

/-- The exact sum of a block's products, and whether a NaN arose from other operands (R88). -/
def blockSum (lg : Bool) (row col : List Elem) : FVal × Bool :=
  let ps := List.zipWith (prodOfElems lg) row col
  let (x, new) := sumVal (ps.map fun p => p.1)
  (x, new || ps.any fun p => p.2)

/-- A block sum under the scales of its row and its column (R89). -/
def scaleSum (x : FVal × Bool) (ea eb : Option Byte) : FVal × Bool :=
  let one (e : Option Byte) : Int := match e with
    | some b => (b.toNat : Int) - 127
    | none => 0
  if ea = some 0xFF ∨ eb = some 0xFF then (.nan, true) else (x.1.scale (one ea + one eb), x.2)

/-- One update of an fp32 accumulator element (R90): only NV and OF are set. -/
def accumFloat (acc : Nat) (x : FVal) : Nat × FlagSet :=
  let (sum, new) := sumVal [decodeFloat fp32 acc, x]
  let (code, fl) := roundTo fp32 .rne sum
  (code, flagIf new flNV ||| (fl &&& flOF))

/-- One update of an int32 accumulator element (R91). -/
def accumInt (acc : Nat) (x : Int) : Nat × FlagSet := clampCode true 32 (signed 32 acc + x)

/-- Row-major words of a tile of 4-byte elements. -/
def wordsOf (n : Nat) (bs : List Byte) : List Nat := (List.range n).map fun i => leAt bs (4 * i) 4

/-- The elements of a block in turn: row i, column j, the A row and the B column cut to the block's 32 products. -/
def blockElems (ta tb sh planes idx : Nat) (sp : Bool) (a b md : List Byte) : List (FVal × Bool) :=
  let (m, n, k) := mmaDims sh
  let cut (xs : List Elem) : List Elem := (xs.drop (32 * idx)).take 32
  let cols := (bCols tb n k planes sp b md).map cut
  ((aRows ta m k a).map cut).flatMap fun row => cols.map fun col => blockSum (ta == 7) row col

/-- The accumulator words that a block leaves, and its flags (R88 to R91). -/
def updateWords (int : Bool) (n : Nat) (ea eb : Option (List Byte)) (sums : List (FVal × Bool)) (acc : List Nat) :
    List Nat × FlagSet :=
  let one (i : Nat) (x : Nat × FVal × Bool) : Nat × FlagSet :=
    if int then accumInt x.1 (scaled 0 x.2.1)
    else
      let y := scaleSum x.2 (ea.bind fun e => e[i / n]?) (eb.bind fun e => e[i % n]?)
      let (w, fl) := accumFloat x.1 y.1
      (w, fl ||| flagIf y.2 flNV)
  let rs := (acc.zip sums).mapIdx one
  (rs.map fun r => r.1, orFlags (rs.map fun r => r.2))

/-- Elements converted from words of a type into a type, as bytes, and the flags (R92, R185). -/
def convertWords (src dst : Nat) (ws : List Nat) : List Byte × FlagSet :=
  let rs := ws.map fun w => convertTo dst (codeVal src w)
  (rs.flatMap fun r => leBytes (typeBits dst / 8) r.1, orFlags (rs.map fun r => r.2))

/-- The words that `macc` leaves, and its flags (R185). -/
def addWordTiles (ty : Nat) (d a : List Nat) : List Nat × FlagSet :=
  let one (x y : Nat) : Nat × FlagSet :=
    if ty = 10 then accumInt x (signed 32 y) else accumFloat x (decodeFloat fp32 y)
  let rs := List.zipWith one d a
  (rs.map fun r => r.1, orFlags (rs.map fun r => r.2))

/-- Bytes of an `mtr` element (R185). -/
def mtrBytes (size : Nat) : Nat := 2 ^ size

/-- A row-major tile of `rows` × `cols` elements of `z` bytes, transposed (R185). -/
def transposeTile (rows cols z : Nat) (bs : List Byte) : List Byte :=
  (List.range cols).flatMap fun k => (List.range rows).flatMap fun i => (bs.drop ((i * cols + k) * z)).take z

/-- Rows and columns of the A shape (R172). -/
def aShape (sh : Nat) : Nat × Nat := ((mmaDims sh).1, (mmaDims sh).2.2)

end Sys2Proof.Machine
end

