-- ==== Sys2Proof/Machine/Matrix.lean ====
section
/-!
DEFINITION. The matrix engine (R172 to R185): the X-slot operations at dispatch, operand fetch, starts at exact cycles,
block scales, and the updates of the R-buffer.
-/
namespace Sys2Proof.Machine

/-! ### Dispatch (R177, R185) -/

/-- An X-slot operation: register declarations, then room in the matrix queue (R61, R223). -/
def xOp (s : State) (us : List Use) (f : Cursor → Res) : Res :=
  slotOp s us fun c => withRoom s c 1 fun _ => f c

/-- The operation's tiles are no legal combination: TILE_COMBO with the X slot word (R145). -/
def orCombo (s : State) (c : Cursor) (ok : Bool) (f : Unit → Res) : Res :=
  if ok then f () else takeTrap s c .tileCombo (BitVec.ofNat 64 c.word.toNat)

/-- One tile operand: its address register, the agent that uses it, the access, and the parts it occupies. -/
structure TileUse where
  reg : Reg
  agent : Agent
  acc : Access
  parts : List (W64 × Nat)

/-- The checks of R155 steps 1 to 6 on one operand; every tile is 64-byte aligned (R172). -/
def checkOperand (s : State) (c : Cursor) (u : TileUse) : Option Failed :=
  if (s.sr c u.reg.val).df then some (.dfConsumed, dfTval c u.reg.val false 0)
  else checkHere s c.core c.slot.index u.agent u.acc (u.parts.map fun p => (p.1, p.2, 64))

/-- The operands in turn, then the token word (R177, R185). -/
def withTiles (s : State) (c : Cursor) (us : List TileUse) (tw : TokenWord) (f : Unit → Res) : Res :=
  orTrap s c (us.findSome? (checkOperand s c)) fun _ => withTokens s c tw f

/-- Whether two byte ranges overlap. -/
def overlaps (a : W64) (n : Nat) (b : W64) (m : Nat) : Bool :=
  decide (a.toNat < b.toNat + m) && decide (b.toNat < a.toNat + n)

/-- The parts of a B tile: of nm only the planes in the set (R172). -/
def bParts (b : W64) (ty sh planes : Nat) (sp : Bool) : List (W64 × Nat) :=
  let (_, n, k) := mmaDims sh
  if ty = 8 then (planeList planes).map fun j => (b + BitVec.ofNat 64 (j * (k * n / 4)), k * n / 4)
  else [(b, tileSize ty (if sp then k * n / 2 else k * n))]

/-- Bytes of an A tile. -/
def aSize (ty sh : Nat) : Nat := let (m, _, k) := mmaDims sh; tileSize ty (m * k)

/-- Bytes of a metadata tile (R172). -/
def mdSize (sh : Nat) : Nat := let (_, n, k) := mmaDims sh; n * k / 8

/-- `mma` (R176, R177). -/
def execMma (a b acc : Reg) (shape : Fin 4) (sp : Bool) (ta tb tacc tres planes : Fin 16) (res md : Reg) (tw : TokenWord)
    (s : State) : Res :=
  let hasRes := res.val ≠ 0
  let hasMd := md.val ≠ 0
  xOp s (([a, b, acc] ++ (if hasRes then [res] else []) ++ (if hasMd then [md] else [])).map fun r => .s r.val) fun c =>
    let v (r : Reg) : W64 := (s.sr c r.val).val
    let rn := tileSize tres.val 1024
    let ok := legalMma shape.val ta.val tb.val tacc.val tres.val planes.val sp && (hasRes || tres == tacc) && (sp == decide hasMd)
      && !(decide hasRes && overlaps (v acc) 4096 (v res) rn)
    orCombo s c ok fun _ =>
      let uses : List TileUse :=
        [{ reg := a, agent := .matA, acc := .read, parts := [(v a, aSize ta.val shape.val)] },
          { reg := b, agent := .matB, acc := .read, parts := bParts (v b) tb.val shape.val planes.val sp }] ++
        (if hasMd then [{ reg := md, agent := .matB, acc := .read, parts := [(v md, mdSize shape.val)] }] else []) ++
        [{ reg := acc, agent := .matAcc, acc := .write, parts := [(v acc, 4096)] }] ++
        (if hasRes then [{ reg := res, agent := .matAcc, acc := .write, parts := [(v res, rn)] }] else [])
      withTiles s c uses tw fun _ =>
        .next (s.enqueue c 1 (newEntry s c (.mma a b acc shape sp ta tb tacc tres planes res md tw) tw
          [v a, v b, v md, v acc, v res]))

/-- `mmz` (R185). -/
def execMmz (d : Reg) (tw : TokenWord) (s : State) : Res :=
  xOp s [.s d.val] fun c =>
    let a := (s.sr c d.val).val
    withTiles s c [{ reg := d, agent := .matAcc, acc := .write, parts := [(a, 4096)] }] tw fun _ =>
      .next (s.enqueue c 1 (newEntry s c (.mmz d tw) tw [a]))

/-- `mcvt` (R185): the source is checked before the destination: DESIGN CHOICE (log 38). -/
def execMcvt (d a : Reg) (src dst : Fin 16) (tw : TokenWord) (s : State) : Res :=
  xOp s [.s d.val, .s a.val] fun c =>
    let dv := (s.sr c d.val).val
    let av := (s.sr c a.val).val
    let n := tileSize dst.val 1024
    let ok := [9, 10].contains src.val && [0, 1, 3, 4, 5, 6, 9, 10].contains dst.val && (dv == av || !overlaps dv n av 4096)
    orCombo s c ok fun _ =>
      withTiles s c [{ reg := a, agent := .matAcc, acc := .read, parts := [(av, 4096)] },
          { reg := d, agent := .matAcc, acc := .write, parts := [(dv, n)] }] tw fun _ =>
        .next (s.enqueue c 1 (newEntry s c (.mcvt d a src dst tw) tw [dv, av]))

/-- Bytes of an `mtr` tile (R185). -/
def mtrSize (sh size : Nat) : Nat := (aShape sh).1 * (aShape sh).2 * mtrBytes size

/-- `mtr` (R185): size 3 traps with TILE_COMBO, and the source is checked before the destination: DESIGN CHOICE
(log 38). -/
def execMtr (d a : Reg) (shape size : Fin 4) (tw : TokenWord) (s : State) : Res :=
  xOp s [.s d.val, .s a.val] fun c =>
    let dv := (s.sr c d.val).val
    let av := (s.sr c a.val).val
    let n := mtrSize shape.val size.val
    let ok := size.val != 3 && ((dv == av && shape.val == 0) || !overlaps dv n av n)
    orCombo s c ok fun _ =>
      withTiles s c [{ reg := a, agent := .matMove, acc := .read, parts := [(av, n)] },
          { reg := d, agent := .matAcc, acc := .write, parts := [(dv, n)] }] tw fun _ =>
        .next (s.enqueue c 1 (newEntry s c (.mtr d a shape size tw) tw [dv, av]))

/-- `macc` (R185): the source is checked before the destination: DESIGN CHOICE (log 38). -/
def execMacc (d a : Reg) (ty : Fin 16) (tw : TokenWord) (s : State) : Res :=
  xOp s [.s d.val, .s a.val] fun c =>
    let dv := (s.sr c d.val).val
    let av := (s.sr c a.val).val
    orCombo s c ([9, 10].contains ty.val && !overlaps dv 4096 av 4096) fun _ =>
      withTiles s c [{ reg := a, agent := .matAdd, acc := .read, parts := [(av, 4096)] },
          { reg := d, agent := .matAcc, acc := .write, parts := [(dv, 4096)] }] tw fun _ =>
        .next (s.enqueue c 1 (newEntry s c (.macc d a ty tw) tw [dv, av]))

/-- The token word of an operation without one. -/
def noTokens : TokenWord := { prod := 0, c1 := 0, c2 := 0, c3 := 0, cr := false, ring := 0 }

/-- `mps` (R184): it waits for nothing at dispatch but room in its queue. -/
def execMps (delay : Fin 64) (sides : MpsSides) (s : State) : Res :=
  xOp s [] fun c => .next (s.enqueue c 1 (newEntry s c (.mps delay sides) noTokens []))

/-- `mscl` (R182). -/
def execMscl (j : Fin 4) (a : Reg) (n : Fin 64) (s : State) : Res :=
  xOp s [.s a.val] fun c => withClean s c [a] fun _ =>
    .next (s.enqueue c 1 (newEntry s c (.mscl j a n) noTokens [(s.sr c a.val).val]))

/-! ### Operand fetch (R178 to R181) -/

/-- The fetched operands of an operation: the parts of A, B and metadata, or the source of a `macc` that lies outside
the core (R180, R185). -/
def EngEntry.operands (e : EngEntry) : List (List (W64 × Nat)) :=
  let v (i : Nat) : W64 := e.vals.getD i 0
  match e.op with
  | .mma _ _ _ sh sp ta tb _ _ pl _ _ _ =>
    [[(v 0, aSize ta.val sh.val)], bParts (v 1) tb.val sh.val pl.val sp, if sp then [(v 2, mdSize sh.val)] else []]
  | .macc .. => if [0x9, 0xA].contains (bits (v 1).toNat 60 4) then [] else [[(v 1, 4096)]]
  | _ => []

/-- The 64-byte chunks of a fetched operand, in order. -/
def EngEntry.chunks (e : EngEntry) (operand : Nat) : List W64 :=
  (e.operands.getD operand []).flatMap fun p => (List.range (p.2 / 64)).map fun i => p.1 + BitVec.ofNat 64 (64 * i)

/-- Key of a staged chunk. -/
def stageKey (serial operand chunk : Nat) : Nat := (serial * 4 + operand) * 256 + chunk

/-- A staged chunk. -/
def Matrix.chunk (m : Matrix) (serial operand chunk : Nat) : Option (List Byte) :=
  (m.staging.find? fun x => x.1 == stageKey serial operand chunk).map fun x => x.2

/-- The staged bytes of an operand. -/
def Matrix.operand (m : Matrix) (e : EngEntry) (operand : Nat) : List Byte :=
  (List.range (e.chunks operand).length).flatMap fun i => (m.chunk e.serial operand i).getD []

/-- Whether every chunk of an operation has arrived. -/
def Matrix.fetched (m : Matrix) (e : EngEntry) : Bool :=
  (List.range 3).all fun o => (List.range (e.chunks o).length).all fun i => (m.chunk e.serial o i).isSome

/-- The longest prefix of an operand's chunks that has arrived, of at most `n` (R180). -/
def Matrix.arrivedUpTo (m : Matrix) (serial operand : Nat) : Nat → Nat → Nat
  | 0, i => i
  | n + 1, i => if (m.chunk serial operand i).isSome then m.arrivedUpTo serial operand n (i + 1) else i

/-- Arrived prefix of an operand of an operation. -/
def Matrix.arrived (m : Matrix) (e : EngEntry) (operand : Nat) : Nat :=
  m.arrivedUpTo e.serial operand (e.chunks operand).length 0

/-- Whether an operation may fetch: its consumed tokens are done, and its fetch has not faulted (R178, R180). -/
def Core.mayFetch (k : Core) (e : EngEntry) : Bool :=
  e.ready && e.cancelled.isNone && (k.mx.faulted.map fun x => x.1) != some e.serial

/-- The chunks that an operation stages. -/
def EngEntry.stages (e : EngEntry) : Nat := ((List.range 3).map fun o => (e.chunks o).length).foldl (· + ·) 0

/-- Whether operand staging, of 256 chunks, has room for an operation beside those ahead of it in the queue (R150). -/
def Core.stagingRoom (k : Core) (e : EngEntry) : Bool :=
  decide (((k.mx.queue.filter fun x => decide (x.serial ≤ e.serial)).map EngEntry.stages).foldl (· + ·) 0 ≤ 256)

/-- The first queued operation that still needs a chunk and has room for it. -/
def Core.fetcher (k : Core) (operand chunk : Nat) : Option EngEntry :=
  k.mx.queue.find? fun e => k.mayFetch e && decide (chunk < (e.chunks operand).length) && (k.mx.chunk e.serial operand chunk).isNone &&
    k.stagingRoom e

/-- What stops the fetch of 64 bytes at an address: the space, then the named core and its declaration, then translation
(R155, R180). -/
def fetchCause (s : State) (core : Nat) (a : W64) : Option Cause :=
  match checkPresent s core a 64, checkDecl s core 8 a 64 with
  | some x, _ => some x.1
  | _, some x => some x.1
  | none, none =>
    match enginePlace s core .read a 64 with
    | .error e => some e
    | .ok _ => none

/-- Whether a suspended core holds the accesses to an address (R369). -/
def heldBy (s : State) (core : Nat) (a : W64) : Bool :=
  match s.space core a 64 with
  | .remote _ m _ => s.suspended (peer core m)
  | _ => false

/-- An uncorrectable error in a chunk that an operation fetches: it ends with its token faulted (R180, R185). -/
def State.failFetch (s : State) (core : Nat) (e : EngEntry) : State :=
  ((s.dequeue core 1 ((s.core core).mx.queue.findIdx fun x => x.serial == e.serial)).addStarted core e
    (.finished (outcome .faulted Cause.uncorrectable.code 0 0) false))

/-- OPERAND_CHUNK_ARRIVAL: a chunk is read at its source as it stands, and arrives in operand staging (R179, R180); `data`
are the bytes of a source in another package. Spoilt data end the operation (R333). -/
def execOperandChunkArrival (core operand chunk : Nat) (data : List Byte) (s : State) : Res :=
  let k := s.core core
  match k.fetcher operand chunk with
  | none => .next s
  | some e =>
    let a := (e.chunks operand).getD chunk 0
    if !k.engines || (fetchCause s core a).isSome || heldBy s core a then .next s
    else
      let f := Flow.read { s.flow core e e.time data with matrix := true } a 64
      match f.2.bad with
      | some x => .next (if x = .uncorrectable then s.failFetch core e else s)
      | none =>
        .next (f.2.st.modCore core fun k =>
          { k with mx := { k.mx with
              staging := kput k.mx.staging (stageKey e.serial operand chunk) f.1
              arrivedAt := kput k.mx.arrivedAt e.serial s.cycle
              queue := k.mx.queue.map fun x => if x.serial = e.serial then { x with time := f.2.time } else x } })

/-- mres of an interrupted fetch (R181): `operand` is 3 when none faulted. -/
def Matrix.mres (m : Matrix) (e : EngEntry) (operand : Nat) : W64 :=
  BitVec.ofNat 64 (2 ^ 63 + operand * 2 ^ 58 + m.arrived e 2 * 2 ^ 16 + m.arrived e 1 * 2 ^ 8 + m.arrived e 0)

/-- The chunks of an operand that mres counts (R181). -/
def mresCount (v : W64) (operand : Nat) : Nat :=
  if operand = 0 then bits v.toNat 0 8 else if operand = 1 then bits v.toNat 8 8 else bits v.toNat 16 4

/-- The chunks of an operation that the resumed engine takes as arrived: those that mres counts, as operand staging holds them; with V = 0
none (R180, R181). A counted chunk that staging does not hold is free. -/
def Matrix.trust (m : Matrix) (e : EngEntry) (v : W64) (free : Nat) : Matrix :=
  let n (o : Nat) : Nat := if bits v.toNat 63 1 = 1 then Nat.min (mresCount v o) (e.chunks o).length else 0
  let rest := m.staging.filter fun x => x.1 / 1024 != e.serial
  { m with staging := (List.range 3).foldl (fun st o => (List.range (n o)).foldl (fun st i =>
      kput st (stageKey e.serial o i) ((m.chunk e.serial o i).getD
        ((List.range 64).map fun j => Config.freeByte free (1024 * o + 64 * i + j)))) st) rest }

/-- Keep of an operation's staged chunks only the prefixes (R180). -/
def Matrix.keepPrefixes (m : Matrix) (e : EngEntry) : Matrix :=
  let kept (key : Nat) : Bool := !(key / 1024 == e.serial) || decide (key % 256 < m.arrived e (key / 256 % 4))
  { m with staging := m.staging.filter fun x => kept x.1 }

/-- Write mres (R180, R181); the new value is seen through the operation's token (R140). -/
def State.putMres (s : State) (core : Nat) (e : EngEntry) (v : W64) : State :=
  if (s.core core).csrNow 0x058 = v then s else s.land core .x e.bundle (tokOf e.prod) (.csr 0x058 v)

/-- FETCH_FAULT: the fetch of a chunk faults (R180): the prefixes stay, mres is written, and the core takes the trap at its
next bundle boundary. A source in another package reports REMOTE. tval is the faulting address for every cause, as R180 says (DEDUCED, log 39). -/
def execFetchFault (core operand chunk cause : Nat) (s : State) : Res :=
  let k := s.core core
  match k.fetcher operand chunk with
  | none => .next s
  | some e =>
    let a := (e.chunks operand).getD chunk 0
    let far := match enginePlace s core .read a 64 with
      | .ok (.far _ _, _) => some Cause.remote
      | _ => none
    let why := (fetchCause s core a).orElse fun _ => far
    match why with
    | none => .next s
    | some w =>
      if w.code ≠ cause || !k.engines then .next s
      else
        let s1 := s.putMres core e (k.mx.mres e operand)
        let s2 := s1.modCore core fun k =>
          { k.bounded with mx := { k.mx.keepPrefixes e with faulted := some (e.serial, cause), held := some e.serial } }
        .next (s2.exception core (s2.core core).bn (s2.core core).stopPc { cause := w, tval := a, slot := 8, async := true })

/-! ### Starts (R174) -/

/-- The cycle at which an operation's last consumed token left pending. -/
def EngEntry.tokenCycle (e : EngEntry) : Nat :=
  e.consumed.foldl (fun t r => match r.st with
    | some x => Nat.max t x.cycle
    | none => t) 0

/-- The cycle at which the operation at the head leaves it, once it is decided (R174, R182, R184, R306). -/
def Core.leaveCycle (k : Core) (e : EngEntry) : Option Nat :=
  let h := Nat.max k.mx.headAt e.entered
  match e.op with
  | .mps delay _ => some (h + delay.val)
  | .mscl .. => some h
  | _ =>
    if !e.ready then none
    else if e.cancelled.isSome then some (Nat.max h e.tokenCycle)
    else if k.mx.fetched e && (k.mx.faulted.map fun x => x.1) != some e.serial then
      some (Nat.max (Nat.max h e.tokenCycle) (Nat.max (kget 0 k.mx.arrivedAt e.serial) k.mx.freeAt))
    else none

/-- Duration D and number of blocks of an operation (R175, R185). -/
def EngEntry.blocks (e : EngEntry) : Nat × Nat :=
  match e.op with
  | .mma _ _ _ sh _ ta tb _ _ pl _ _ _ => (mmaDur ta.val tb.val pl.val, if sh.val = 3 then 2 else 1)
  | .mtr _ _ sh _ _ => (if sh.val = 3 then 32 else 16, 1)
  | _ => (16, 1)

/-- The head of the matrix queue leaves it at a cycle. -/
def State.leaveHead (s : State) (core cycle : Nat) : State :=
  (s.dequeue core 1 0).modCore core fun k => { k with idle := 0, mx := { k.mx with headAt := cycle + 1 } }

/-- The source bytes that a start takes from the own A-buffer; a source in the R-buffer is read as the earlier X
operations leave it (R159). -/
def ownSource (s : State) (core : Nat) (e : EngEntry) : List Byte :=
  let a := e.vals.getD 1 0
  let n := match e.op with
    | .mtr _ _ sh size _ => mtrSize sh.val size.val
    | .macc .. => 4096
    | _ => 0
  if bits a.toNat 60 4 = 9 ∧ n ≠ 0 then (Flow.read { s.flow core e 0 [] with matrix := true } a n).1 else []

/-- The blocks that an operation starts at a cycle. -/
def newBlocks (s : State) (core : Nat) (e : EngEntry) (cycle : Nat) : List Block :=
  let m := (s.core core).mx
  let (d, n) := e.blocks
  let a := if e.operands.isEmpty then ownSource s core e else m.operand e 0
  (List.range n).map fun b =>
    { start := cycle + b * d, dur := d, e := e, idx := b, last := b + 1 == n, a := a, b := m.operand e 1, md := m.operand e 2
      ea := none, eb := none }

/-- The start of an operation at the head: `mscl` sets its CSRs and empties its scale-cache side, a cancelled operation
does nothing, and any other starts its blocks. -/
def State.startMatrix (s : State) (core : Nat) (e : EngEntry) (cycle : Nat) : State :=
  let s1 := s.leaveHead core cycle
  match e.op with
  | .mscl j _ n =>
    let s2 := s1.land core .x e.bundle none (.csr (0x030 + 2 * j.val) (e.vals.getD 0 0))
    let s3 := s2.land core .x e.bundle none (.csr (0x031 + 2 * j.val) (BitVec.ofNat 64 n.val))
    s3.modCore core fun k => if j.val = 0 then { k with scale0 := [] } else { k with scale1 := [] }
  | _ =>
    match e.cancelled with
    | some o => s1.addStarted core e (.finished o false)
    | none =>
      let (d, n) := e.blocks
      (s1.addStarted core e .waiting).modCore core fun k =>
        { k.count 9 n with mx := { k.mx with
            freeAt := cycle + n * d
            blocks := k.mx.blocks ++ newBlocks s core e cycle
            staging := k.mx.staging.filter fun x => x.1 / 1024 ≠ e.serial
            arrivedAt := kdel k.mx.arrivedAt e.serial } }

/-- MATRIX_OPERATION_START: the head of the matrix queue starts, at the cycle that R174 gives. -/
def execMatrixOperationStart (core : Nat) (s : State) : Res :=
  let k := s.core core
  match k.mx.queue with
  | e :: _ =>
    match e.op, k.leaveCycle e with
    | .mps .., _ => .next s
    | _, some q => if k.engines && decide (q ≤ s.cycle) then .next (s.startMatrix core e q) else .next s
    | _, none => .next s
  | [] => .next s

/-! ### Scales (R183, R184) -/

/-- Byte offset of a leading element within its tile (R183). -/
def leadOffset (e : EngEntry) (side x k0 : Nat) : Nat :=
  match e.op with
  | .mma _ _ _ sh sp ta tb _ _ _ _ _ _ =>
    let k := (mmaDims sh.val).2.2
    if side = 0 then (x * k + k0) * typeBits ta.val / 8
    else if sp then (x * (k / 2) + 2 * (k0 / 4)) * typeBits tb.val / 8
    else (x * k + k0) * typeBits tb.val / 8
  | _ => 0

/-- The field of an operand address that Off adds to (R183). -/
def offField (a : W64) : Nat := if bits a.toNat 60 4 = 0 then bits a.toNat 0 57 else bits a.toNat 0 18

/-- The scale address of a leading element (R183). -/
def scaleAddr (k : Core) (e : EngEntry) (side x k0 : Nat) : W64 :=
  let off := offField (e.vals.getD side 0) + leadOffset e side x k0
  k.csrNow (0x030 + 2 * side) + BitVec.ofNat 64 (off / 2 ^ (k.csrNow (0x031 + 2 * side)).toNat)

/-- The lines of a scale-cache side. -/
def Core.scales (k : Core) (side : Nat) : List CacheLine := if side = 0 then k.scale0 else k.scale1

/-- The 64 bytes that fill a scale-cache line, the time at which they were written, and the state after the read (R183, R203): `none` for
another tag, and where the scale byte or its line faults, beyond the declaration too (R61). Of another package they are free, and the
package may not answer (log 12). -/
def scaleLine (s : State) (core : Nat) (byte line : W64) : Option (List Byte × State) :=
  if [0x0, 0x8, 0x9, 0xA].contains (bits byte.toNat 60 4) && (checkDecl s core 8 byte 1).isNone then
    match enginePlace s core .read line 64 with
    | .ok (.far k q, _) => if s.lost k then none else some (s.unknown q 64, s.sendFabric k 0 (.fetch core 65537 0 q))
    | .ok (p, _) =>
      let k := s.core core
      let (bs, _, s1) := s.engReadAt k.ltime k.lease p 64
      some (bs, s1)
    | .error _ => none
  else none

/-- Look one scale byte up through its side of the scale cache; a full side replaces any of its lines (R182, R183). -/
def scaleByte (s : State) (core side : Nat) (a : W64) : Option (Byte × State) :=
  let k := s.core core
  let key := a.toNat / 64
  match (k.scales side).find? fun l => l.key == key with
  | some l => some (l.data.getD (a.toNat % 64) 0, s)
  | none =>
    (scaleLine s core a (BitVec.ofNat 64 (key * 64))).map fun x =>
      let (bs, s) := x
      let old := k.scales side
      let kept := if old.length < 64 then old else old.eraseIdx (Config.freeNat s.free (19 * core + key) % 64)
      let ls : List CacheLine := { key := key, data := bs, wts := 0, rts := 0 } :: kept
      (bs.getD (a.toNat % 64) 0, s.modCore core fun k => if side = 0 then { k with scale0 := ls } else { k with scale1 := ls })

/-- Look scale bytes up in order. -/
def scaleBytes (core side : Nat) : List W64 → State → Option (List Byte × State)
  | [], s => some ([], s)
  | a :: as, s =>
    match scaleByte s core side a with
    | some (b, s1) => (scaleBytes core side as s1).map fun r => (b :: r.1, r.2)
    | none => none

/-- The scale bytes of a block's side, when the `mps` names it. -/
def sideScales (core side n : Nat) (named : Bool) (b : Block) (s : State) : Option (Option (List Byte) × State) :=
  if named then
    (scaleBytes core side ((List.range n).map fun x => scaleAddr (s.core core) b.e side x (32 * b.idx)) s).map fun r =>
      (some r.1, r.2)
  else some (none, s)

/-- Whether a block is one of an `mma` that accumulates in fp32. -/
def Block.scalable (b : Block) : Bool :=
  match b.e.op with
  | .mma _ _ _ _ _ _ _ tacc _ _ _ _ _ => tacc.val == 9
  | _ => false

/-- An `mps` is discarded with MPSMISS (R184). -/
def missScale (s : State) (core : Nat) (e : EngEntry) : State := s.land core .x e.bundle none (.flags (BitVec.ofNat 64 flMPS))

/-- An `mps` leaves the head at cycle `q` and scales the block that started at q − 12, or misses (R183, R184). -/
def applyMps (s : State) (core : Nat) (e : EngEntry) (sides : MpsSides) (q : Nat) : State :=
  match (s.core core).mx.blocks.find? fun b => b.start + 12 == q && b.scalable with
  | none => missScale s core e
  | some b =>
    let (m, n, _) := match b.e.op with
      | .mma _ _ _ sh .. => mmaDims sh.val
      | _ => (0, 0, 0)
    let got := (sideScales core 0 m (sides != .b) b s).bind fun x =>
      (sideScales core 1 n (sides != .a) b x.2).map fun y => (x.1, y.1, y.2)
    match got with
    | none => missScale s core e
    | some (ea, eb, s1) =>
      s1.modCore core fun k =>
        { k with mx := { k.mx with blocks := k.mx.blocks.map fun x =>
            if x.start = b.start ∧ x.e.serial = b.e.serial then { x with ea := ea, eb := eb } else x } }

/-- MPS_LEAVE_HEAD: an `mps` at the head leaves it `delay` cycles after it reached it (R184). -/
def execMpsLeaveHead (core : Nat) (s : State) : Res :=
  let k := s.core core
  match k.mx.queue with
  | e :: _ =>
    match e.op, k.leaveCycle e with
    | .mps _ sides, some q =>
      if k.engines && decide (q ≤ s.cycle) then .next (applyMps (s.leaveHead core q) core e sides q) else .next s
    | _, _ => .next s
  | [] => .next s

/-! ### Updates (R88 to R92, R174, R185) -/

/-- The R-buffer place of a tile address. -/
def rPlace (core : Nat) (a : W64) : Place := .buf core .r (bits a.toNat 0 18)

/-- Bytes of words. -/
def wordBytes (ws : List Nat) : List Byte := ws.flatMap (leBytes 4)

/-- The bytes that a record of an X-slot operation counts: those of its destination tile. For an `mma` the spec states no
count: it is free (log 14). -/
def matrixBytes (s : State) (e : EngEntry) : Nat :=
  match e.op with
  | .mma .. => Config.freeNat s.free (23 * e.serial + 1) % 2 ^ 32
  | .mcvt _ _ _ dst _ => tileSize dst.val 1024
  | .mtr _ _ sh size _ => mtrSize sh.val size.val
  | _ => 4096

/-- The words of bytes from a word's place on, as an X-slot operation finds them; `n` bounds them. -/
def wordRun : Nat → Place → List Byte → List OldWord
  | 0, _, _ => []
  | n + 1, p, bs => if bs.isEmpty then [] else { place := p, old := bs.take 4, mask := 15 } :: wordRun n (p.add 4) (bs.drop 4)

/-- An X-slot operation writes bytes of the R-buffer (R159). -/
def State.writeR (s : State) (core : Nat) (e : EngEntry) (a : W64) (bs : List Byte) : State :=
  let p := rPlace core a
  (s.writePlace p bs).noteEngine core true e (wordRun (bs.length / 4) p (s.readPlace p bs.length))

/-- A block's effect on the R-buffer, with its flags. What the operation reads there is as earlier X-slot operations left it, beside what
R159 leaves open of other writes. -/
def blockEffect (s : State) (core : Nat) (b : Block) : State × FlagSet :=
  let v (i : Nat) : W64 := b.e.vals.getD i 0
  let f : Flow := { s.flow core b.e 0 [] with matrix := true }
  let rd (a : W64) (n : Nat) : List Byte := f.view (rPlace core a) (s.readPlace (rPlace core a) n)
  let src (n : Nat) : List Byte := if bits (v 1).toNat 60 4 = 0xA then rd (v 1) n else b.a
  match b.e.op with
  | .mma _ _ _ sh sp ta tb tacc tres pl res _ _ =>
    let sums := blockElems ta.val tb.val sh.val pl.val b.idx sp b.a b.b b.md
    let (ws, fl) := updateWords (tacc.val == 10) (mmaDims sh.val).2.1 b.ea b.eb sums (wordsOf 1024 (rd (v 3) 4096))
    let s1 := s.writeR core b.e (v 3) (wordBytes ws)
    if b.last && res.val != 0 then
      let (bs, fl2) := convertWords tacc.val tres.val ws
      (s1.writeR core b.e (v 4) bs, fl ||| fl2)
    else (s1, fl)
  | .mmz .. => (s.writeR core b.e (v 0) (List.replicate 4096 0), 0)
  | .mcvt _ _ from_ dst _ =>
    let (bs, fl) := convertWords from_.val dst.val (wordsOf 1024 (rd (v 1) 4096))
    (s.writeR core b.e (v 0) bs, fl)
  | .mtr _ _ sh size _ =>
    let (r, c) := aShape sh.val
    (s.writeR core b.e (v 0) (transposeTile r c (mtrBytes size.val) (src (mtrSize sh.val size.val))), 0)
  | .macc _ _ ty _ =>
    let (ws, fl) := addWordTiles ty.val (wordsOf 1024 (rd (v 0) 4096)) (wordsOf 1024 (src 4096))
    (s.writeR core b.e (v 0) (wordBytes ws), fl)
  | _ => (s, 0)

/-- mres becomes 0 at the end of an operation that fetches, unless it records another one's interrupted fetch (R178, R181, R185). -/
def State.clearMres (s : State) (core : Nat) (e : EngEntry) : State :=
  if (e.op matches .mma .. | .macc ..) && ((s.core core).mx.held.getD e.serial) == e.serial then
    (s.putMres core e 0).modCore core fun k => { k with mx := { k.mx with held := none } }
  else s

/-- The update of the oldest started block: its elements, its flags, and with the last block the operation's outcome. -/
def State.updateBlock (s : State) (core : Nat) (b : Block) : State :=
  let (s1, fl) := blockEffect s core b
  let s2 := if fl = 0 then s1 else s1.land core .x b.e.bundle (tokOf b.e.prod) (.flags (BitVec.ofNat 64 fl))
  let s3 := s2.modCore core fun k => { k with mx := { k.mx with blocks := k.mx.blocks.drop 1 } }
  if b.last then
    (s3.clearMres core b.e).finish core b.e.serial (outcome .done 0 (matrixBytes s b.e) (Nat.max b.e.time b.e.inTime))
  else s3

/-- Whether an operation at the head may still leave in time to scale a block: its update waits for it (R174, R184). -/
def Core.scaleOpen (k : Core) (b : Block) : Bool :=
  match k.mx.queue with
  | e :: _ => (match k.leaveCycle e with
    | some q => decide (q ≤ b.start + 12)
    | none => false)
  | [] => false

/-- ACCUMULATOR_UPDATE: at I + D + 20 the oldest started block's elements are updated (R174). -/
def execAccumulatorUpdate (core : Nat) (s : State) : Res :=
  let k := s.core core
  match k.mx.blocks with
  | b :: _ =>
    if s.cycle < b.start + b.dur + 20 || (k.engines && k.scaleOpen b) then .next s else .next (s.updateBlock core b)
  | [] => .next s

end Sys2Proof.Machine
end

