-- ==== Sys2Proof/Machine/Layer.lean ====
section
/-!
DEFINITION. The near-tier split (R191), the memory-layer engines and their mode (R11, R192 to R196), and `fence` (R207).
A row operation and a bank operation go on unit by unit once their engine has accepted them (log 15).
-/
namespace Sys2Proof.Machine

/-! ### Dispatch -/

/-- The parts of an operand that one address and a length name; none of length 0. -/
def rangePart (a : W64) (n : Nat) : List (W64 × Nat × Nat) := if n = 0 then [] else [(a, n, 1)]

/-- Bytes of an index (R193). -/
def indexBytes (i64 : Bool) : Nat := if i64 then 8 else 4

/-- Bytes of a table row (R193). -/
def Shape.rowBytes (r : Shape) : Nat := r.ext.getD 0 1 * elemSize r.ty

/-- Whether a record is a table of `gath` and `scat` (R193). -/
def Shape.isTable (r : Shape) : Bool :=
  r.rank == 2 && elemSize r.ty != 0 && r.str.getD 0 0 == (elemSize r.ty : Int) && bits r.base.toNat 60 4 == 0

/-- `gath` (`acc` = write) and `scat` (`acc` = read): the checks at dispatch (R193). -/
def rowsOp (op : Instr) (acc : Access) (p r i n : Reg) (i64 : Bool) (tw : TokenWord) (s : State) : Res :=
  engineOp s ([p, r, i, n].map fun y => .s y.val) 2 tw fun c => withClean s c [p, r, i, n] fun _ =>
    let v (y : Reg) : W64 := (s.sr c y.val).val
    let cnt := (v n).toNat
    if 65536 < cnt then takeTrap s c .addressSpace (v n)
    else if cnt = 0 then .next (s.enqueue c 2 (newEntry s c op tw [v p, v r, v i, v n]))
    else
      withRecords s c tw [v r] fun t recs =>
        let x := readShape (recs.getD 0 [])
        orTrap s c (recordFail (!x.isTable) (v r)) fun _ =>
          orTrap s c (checkHere s c.core c.slot.index .copy acc (rangePart (v p) (cnt * x.rowBytes))) fun _ =>
            orTrap s c (checkHere s c.core c.slot.index .copy .read (rangePart (v i) (cnt * indexBytes i64))) fun _ =>
              .next (t.enqueue c 2 { newEntry s c op tw [v p, v r, v i, v n] with recs := [(v r, recs.getD 0 [])] })

/-- `gath` (R193). -/
def execGath (p r i n : Reg) (i64 : Bool) (tw : TokenWord) (s : State) : Res :=
  rowsOp (.gath p r i n i64 tw) .write p r i n i64 tw s

/-- `scat` (R193). -/
def execScat (p r i n : Reg) (i64 : Bool) (tw : TokenWord) (s : State) : Res :=
  rowsOp (.scat p r i n i64 tw) .read p r i n i64 tw s

/-- `bankop` (R194): the alignment of its addresses and of its length. -/
def execBankop (d a n : Reg) (op : BankOp) (tw : TokenWord) (s : State) : Res :=
  engineOp s ([d, a, n].map fun y => .s y.val) 2 tw fun c => withClean s c [d, a, n] fun _ =>
    let v (y : Reg) : W64 := (s.sr c y.val).val
    if (v d).toNat % 4096 ≠ 0 then takeTrap s c .alignment (v d)
    else if op ≠ .zero ∧ (v a).toNat % 4096 ≠ 0 then takeTrap s c .alignment (v a)
    else if (v n).toNat % 4096 ≠ 0 ∨ 2 ^ 32 ≤ (v n).toNat then takeTrap s c .alignment (v d)
    else .next (s.enqueue c 2 (newEntry s c (.bankop d a n op tw) tw [v d, v a, v n]))

/-- `lfence` (R196): its start waits for the core's earlier stores. -/
def execLfence (a n : Reg) (tw : TokenWord) (s : State) : Res :=
  engineOp s [.s a.val, .s n.val] 2 tw fun c => withClean s c [a, n] fun _ =>
    .next (s.enqueue c 2 { newEntry s c (.lfence a n tw) tw [(s.sr c a.val).val, (s.sr c n.val).val] with waits := copyWaits s c })

/-- `fence` (R207): its completion waits for the accesses of its scope's row. -/
def execFence (scope : Scope) (tw : TokenWord) (s : State) : Res :=
  engineOp s [] 0 tw fun c =>
    .next (s.enqueue c 0 { newEntry s c (.fence scope tw) tw [] with waits := s.rowOf c.core (s.core c.core).lastSync scope })

/-- `nflush` (R191). -/
def execNflush (a : Reg) (tw : TokenWord) (s : State) : Res :=
  engineOp s [.s a.val] 0 tw fun c => withClean s c [a] fun _ =>
    .next (s.enqueue c 0 (newEntry s c (.nflush a tw) tw [(s.sr c a.val).val]))

/-! ### Ranges of one column's DRAM -/

/-- A range cut at multiples of `u`; `n` bounds the pieces. -/
def cutRange (u : Nat) : Nat → W64 → Nat → List (W64 × Nat)
  | 0, _, _ => []
  | k + 1, a, n =>
    if n = 0 then []
    else
      let m := Nat.min n (u - a.toNat % u)
      (a, m) :: cutRange u k (a + BitVec.ofNat 64 m) (n - m)

/-- The pieces of a range between multiples of `u`. -/
def piecesOf (u : Nat) (a : W64) (n : Nat) : List (W64 × Nat) := cutRange u (n / u + 2) a n

/-- The DRAM address of a byte for a memory-layer engine; a range elsewhere is ADDRESS_SPACE (R193, R194, R196). -/
def dramOf (s : State) (core : Nat) (acc : Access) (a : W64) : Except Cause Nat :=
  if bits a.toNat 60 4 ≠ 0 then .error .addressSpace
  else match enginePlace s core acc a 1 with
    | .ok (.phys p, _) => if isDram p then .ok p else .error .addressSpace
    | .ok _ => .error .addressSpace
    | .error .protection => .error .protection
    | .error _ => .error .addressSpace

/-- The DRAM pieces of a range, all in column `col`, cut at multiples of 4 KiB. -/
def dramPieces (s : State) (core col : Nat) (acc : Access) (a : W64) (n : Nat) : Except Cause (List (Nat × Nat)) :=
  (piecesOf 4096 a n).mapM fun x =>
    match dramOf s core acc x.1 with
    | .ok p => if homeCol p = col then .ok (p, x.2) else .error .addressSpace
    | .error e => .error e

/-- Whether two lists of pieces share a byte. -/
def piecesMeet (xs ys : List (Nat × Nat)) : Bool :=
  xs.any fun x => ys.any fun y => decide (x.1 < y.1 + y.2) && decide (y.1 < x.1 + x.2)

/-- Faulted without effect. -/
def layerFault (s : State) (e : EngEntry) (cause : Cause) : State × Stage :=
  (s, .finished (outcome .faulted cause.code 0 (Nat.max e.time e.inTime)) false)

/-- Done at once. -/
def doneNow (s : State) (e : EngEntry) (bytes : Nat) : State × Stage :=
  (s, .finished (outcome .done 0 bytes (Nat.max e.time e.inTime)) false)

/-- The mode of a column's engines: `none` while a switch is in progress (R11, R192). -/
def State.layerMode (s : State) (col : Nat) : Option Bool :=
  let m := kget 0 s.ms.lmode col
  if bits m 1 1 = 1 then none else some (bits m 0 1 == 1)

/-! ### gath and scat (R193) -/

/-- Read `n` bytes from an address on in 64-byte units. -/
def Flow.readMany (f : Flow) (a : W64) (n : Nat) : List Byte × Flow :=
  (piecesOf 64 a n).foldl (fun (x : List Byte × Flow) p =>
    let (bs, g) := x.2.read p.1 p.2
    (x.1 ++ bs, g)) ([], f)

/-- Write bytes from an address on in 64-byte units. -/
def Flow.writeMany (f : Flow) (a : W64) (bs : List Byte) : Flow :=
  ((piecesOf 64 a bs.length).foldl (fun (x : Flow × List Byte) p =>
    (x.1.write p.1 (x.2.take p.2), x.2.drop p.2)) (f, bs)).1

/-- The units that `gath` and `scat` move, in list order: address in the table, address in the packed rows, length; each of
64 bytes of the table at most. -/
def rowUnits (r : Shape) (packed : W64) (idx : List Nat) : List (W64 × W64 × Nat) :=
  (idx.mapIdx fun q j => (q, j)).flatMap fun x =>
    let row := addrPlus r.base (x.2 * r.str.getD 1 0)
    (piecesOf 64 row r.rowBytes).map fun y => (y.1, packed + BitVec.ofNat 64 (x.1 * r.rowBytes) + (y.1 - row), y.2)

/-- The bytes of units. -/
def unitBytes (us : List (W64 × W64 × Nat)) : Nat := us.foldl (fun n u => n + u.2.2) 0

/-- The whole table lies in a column's DRAM. -/
def tableIn (s : State) (core col : Nat) (acc : Access) (r : Shape) : Option Cause :=
  (List.range (r.ext.getD 1 1)).findSome? fun (j : Nat) =>
    match dramPieces s core col acc (addrPlus r.base (j * r.str.getD 1 0)) r.rowBytes with
    | .ok _ => none
    | .error e => some e

/-- The start of `gath` and `scat` at the engines of the table's home column; `none` while their mode switches. -/
def startRows (s : State) (core : Nat) (e : EngEntry) (back i64 : Bool) : Option (State × Stage) :=
  let n := e.val 3
  if n = 0 then some (doneNow s e 0)
  else
    let r := e.shape 0
    match dramOf s core .read r.base with
    | .error x => some (layerFault s e x)
    | .ok p =>
      match s.layerMode (homeCol p) with
      | none => none
      | some true => some (layerFault s e .illegalSlotOp)
      | some false =>
        let col := homeCol p
        let ia := e.vals.getD 2 0
        let z := indexBytes i64
        match tableIn s core col (if back then .write else .read) r, dramPieces s core col .read ia (n * z) with
        | some x, _ => some (layerFault s e x)
        | _, .error x => some (layerFault s e x)
        | none, .ok _ =>
          let (bs, f1) := (s.flow core e (Nat.max e.time e.inTime) []).readMany ia (n * z)
          let idx := (List.range n).map fun q => leAt bs (q * z) z
          if idx.any fun j => decide (r.ext.getD 1 1 ≤ j) then some (layerFault s e .addressSpace)
          else match f1.bad with
            | some x => some (layerFault s e x)
            | none =>
              let us := rowUnits r (e.vals.getD 0 0) idx
              if us.isEmpty then some (doneNow s e 0)
              else if us.any fun u => movingAt s core u.1 || movingAt s core u.2.1 then none
              else some (f1.st, .layer col idx 0 f1.time)

/-- The bytes of elements as a device writes them: bits [7:6] of an lg6 element are zero (R63). -/
def Shape.written (r : Shape) (bs : List Byte) : List Byte := if r.ty = 7 then bs.map fun b => b &&& 0x3F#8 else bs

/-- The next unit of a `gath` (false) or `scat` (true), at one instant (R193); `data` are the bytes that another package
returns for the packed rows. -/
def moveUnit (s : State) (core : Nat) (x : Started) (back : Bool) (col : Nat) (idx : List Nat) (n time : Nat) (data : List Byte) :
    State :=
  let us := rowUnits (x.e.shape 0) (x.e.vals.getD 0 0) idx
  match us[n]? with
  | none => s.setStage core x.id (.finished (outcome .done 0 (unitBytes us) time) false)
  | some (row, slot, k) =>
    let (bs, f1) := (s.flow core x.e time data).readMany (if back then slot else row) k
    let f2 := f1.writeMany (if back then row else slot) ((x.e.shape 0).written bs)
    f2.st.setStage core x.id (match f2.bad with
      | some c => .finished (outcome .faulted c.code (unitBytes (us.take n)) f2.time) false
      | none => if n + 1 < us.length then .layer col idx (n + 1) f2.time
        else .finished (outcome .done 0 (unitBytes us) f2.time) false)

/-! ### bankop and lfence (R194 to R196) -/

/-- The DRAM pieces that a queued `bankop` touches. -/
def bankPieces (s : State) (core : Nat) (e : EngEntry) : List (Nat × Nat) :=
  let get (a : W64) : List (Nat × Nat) :=
    (piecesOf 4096 a (e.val 2)).filterMap fun x => match dramOf s core .read x.1 with
      | .ok p => some (p, x.2)
      | .error _ => none
  get (e.vals.getD 0 0) ++ get (e.vals.getD 1 0)

/-- The first offset at which two lists differ, or their length. -/
def firstDiff : List Byte → List Byte → Nat
  | a :: as, b :: bs => if a = b then firstDiff as bs + 1 else 0
  | _, _ => 0

/-- Whether an earlier `lfence` of the core has not completed: it holds later bank operations (R196). -/
def Core.lfenceBefore (k : Core) (serial : Nat) : Bool :=
  let is (e : EngEntry) : Bool := decide (e.serial < serial) && e.op matches .lfence ..
  (k.queue 2).any is || k.started.any fun x => is x.e

/-- The start of `bankop`: it reads and writes DRAM cells directly (R194, R195). One of length 0 meets the mode of the column that holds its
destination address (R11), and does nothing. -/
def startBankop (s : State) (core : Nat) (op : BankOp) (e : EngEntry) : Option (State × Stage) :=
  let d := e.vals.getD 0 0
  let a := e.vals.getD 1 0
  let n := e.val 2
  if (s.core core).lfenceBefore e.serial then none
  else
    match dramOf s core (if op = .cmp then .read else .write) d with
    | .error x => some (if n = 0 then doneNow s e 0 else layerFault s e x)
    | .ok p =>
      match s.layerMode (homeCol p) with
      | none => none
      | some false => some (layerFault s e .illegalSlotOp)
      | some true =>
        if n = 0 then some (doneNow s e 0) else
        let col := homeCol p
        let src := if op = .zero then .ok [] else dramPieces s core col .read a n
        match dramPieces s core col (if op = .cmp then .read else .write) d n, src with
        | .error x, _ => some (layerFault s e x)
        | _, .error x => some (layerFault s e x)
        | .ok _, .ok _ =>
          if op = .copy ∧ d ≠ a ∧ overlaps d n a n then some (layerFault s e .addressSpace)
          else some (s, .layer col [] 0 (Nat.max e.time e.inTime))

/-- The next bank row of a `bankop` (R194): 4 KiB are zeroed, copied or compared. A row that translates into the column's DRAM
no more ends the operation. What it writes to a G page is replicated (R295). -/
def bankUnit (s : State) (core : Nat) (x : Started) (op : BankOp) (col n time : Nat) : State :=
  let at_ (a : W64) (acc : Access) : Except Cause Nat :=
    match dramOf s core acc (a + BitVec.ofNat 64 (4096 * n)) with
    | .ok p => if homeCol p = col then .ok p else .error .addressSpace
    | .error c => .error c
  let fin (st : TokState) (cause bytes : Nat) : Stage := .finished (outcome st cause bytes time) false
  let next (bytes : Nat) : Stage :=
    if 4096 * (n + 1) < x.e.val 2 then .layer col [] (n + 1) time else fin .done 0 bytes
  let dst := at_ (x.e.vals.getD 0 0) (if op = .cmp then .read else .write)
  let src := if op = .zero then dst else at_ (x.e.vals.getD 1 0) .read
  let spoilt (p : Nat) : Bool := (s.ms.spoiltAt (.phys p) 4096).isSome
  match dst, src with
  | .error c, _ | _, .error c => s.setStage core x.id (fin .faulted c.code (if op = .cmp then 0 else 4096 * n))
  | .ok p, .ok q =>
    if (op != .zero && spoilt q) || (op == .cmp && spoilt p) || (s.ms.deadAt (.phys p) 4096).isSome then
      s.setStage core x.id (fin .faulted Cause.uncorrectable.code (if op = .cmp then 0 else 4096 * n))
    else
    let write (bs : List Byte) : State :=
      let s1 := { s with ms := { s.ms with mem := mwrite s.ms.mem p bs }.renew p bs.length }
      if (s.placeOf core .write (x.e.vals.getD 0 0 + BitVec.ofNat 64 (4096 * n)) 1).2 then s1.replicate (s.core core).ctx p bs else s1
    match op with
    | .zero => (write (List.replicate 4096 0)).setStage core x.id (next (x.e.val 2))
    | .copy => (write (mread s.ms.mem q 4096)).setStage core x.id (next (x.e.val 2))
    | .cmp =>
      let k := firstDiff (mread s.ms.mem p 4096) (mread s.ms.mem q 4096)
      s.setStage core x.id (if k < 4096 then fin .done 0 (4096 * n + k) else next (x.e.val 2))

/-- The next unit of an operation in the memory-layer engines, in the context of its task (R31, R193, R194). -/
def State.layerUnit (s : State) (core : Nat) (x : Started) (col : Nat) (idx : List Nat) (n time : Nat) (data : List Byte) : State :=
  s.forTask core x.orphan fun s => match x.e.op with
  | .gath .. => moveUnit s core x false col idx n time data
  | .scat .. => moveUnit s core x true col idx n time data
  | .bankop _ _ _ op _ => bankUnit s core x op col n time
  | _ => s

/-- The start of `lfence`: while the column's mode switches it waits (R11); once the core's earlier bank operations on the range are over, the lines are written back and
invalidated, and take a time above every earlier lease (R196). -/
def startLfence (s : State) (core : Nat) (e : EngEntry) : Option (State × Stage) :=
  let a := e.vals.getD 0 0
  let n := e.val 1
  let lo := a.toNat / 64 * 64
  let len := (a.toNat + n + 63) / 64 * 64 - lo
  if n = 0 then some (doneNow s e 0)
  else
    match dramOf s core .read a with
    | .error x => some (layerFault s e x)
    | .ok p =>
      match s.layerMode (homeCol p), dramPieces s core (homeCol p) .read (BitVec.ofNat 64 lo) len with
      | none, _ => none
      | _, .error x => some (layerFault s e x)
      | some _, .ok ps =>
        let open_ := ((s.core core).queue 2).any fun x =>
          decide (x.serial < e.serial) && (x.op matches .bankop ..) && piecesMeet (bankPieces s core x) ps
        let going := (s.core core).started.any fun x =>
          (x.stage matches .layer ..) && (x.e.op matches .bankop ..) && piecesMeet (bankPieces s core x.e) ps
        if open_ || going then none
        else
          let ls := ps.flatMap fun x => linesOf x.1 x.2
          let ms1 := ls.foldl MemSys.evict s.ms
          let (ms2, t) := ms1.engStores (Nat.max e.time e.inTime) ls
          some ({ s with ms := ls.foldl (fun m l => m.setTime l (t, t)) ms2 }, .finished (outcome .done 0 0 t) false)

/-! ### fence and nflush -/

/-- The start of `fence`, once its row is acknowledged: what it does it does on completion (`State.endFence`, R207). -/
def startFence (s : State) (e : EngEntry) : State × Stage := (s, .finished (outcome .done 0 0 e.inTime) false)

/-- Zero the window of a way. -/
def zeroWay (m : Memory) (c w : Nat) : Memory :=
  m.filter fun x => !(decide (wayBase c w ≤ x.1) && decide (x.1 < wayBase c w + 0x8000000))

/-- The largest read lease of a column's lines (R191, R330). -/
def MemSys.maxRts (ms : MemSys) (col : Nat) : Nat :=
  let t := ms.times.foldl (fun t x => if homeCol (x.1 * 64) = col then Nat.max t x.2.2 else t) (kget (0, 0) ms.colTimes col).2
  (List.range 16).foldl (fun t w => Nat.max t (kget 0 ms.wayTime (col * 16 + w))) t

/-- The zeroing of a way is a store to each of its lines (R191, R203): its times become one more than its read lease. -/
def MemSys.zeroTimes (ms : MemSys) (c w : Nat) : MemSys :=
  let m := kget 0 ms.wayTime (c * 16 + w)
  { ms with
    times := ms.times.map fun x =>
      if isScratch (x.1 * 64) && decide (wayOf (x.1 * 64) = (c, w)) then (x.1, (Nat.max x.2.2 m + 1, Nat.max x.2.2 m + 1)) else x
    wayTime := kset 0 ms.wayTime (c * 16 + w) (m + 1) }

/-- Whether a near-tier way holds a retired bank: it stays out of use (R334). -/
def State.outOfUse (s : State) (c w : Nat) : Bool :=
  s.hub.retired.any fun u => match u with
    | .nearBank d b => d == c && b % 16 == w
    | _ => false

/-- The start of `nflush` (R191): the ways that change are zeroed where they lie, by stores, and get their new owner; lines of a way that
becomes scratch are written back and leave the near tier. It waits while a migration of the context in the column is in
progress (R331). -/
def startNflush (s : State) (core : Nat) (e : EngEntry) : Option (State × Stage) :=
  let x := (s.core core).ctx
  let c := colOf core
  let key := x * 8 + c
  let new := e.val 0 % 65536
  let old := (kget 0 s.ms.nsplit key).toNat
  let gain := (List.range 16).filter fun w => bits new w 1 == 1 && bits old w 1 == 0
  let lose := (List.range 16).filter fun w => bits new w 1 == 0 && bits old w 1 == 1
  let busy := match s.ms.migration with
    | some m => m.ctx == x && m.col == c
    | none => false
  if busy then none
  else if gain.any fun w => (s.ms.owner c w).scratch && (s.ms.owner c w).ctx != x then some (layerFault s e .protection)
  else
    let at_ := lose.map fun w => s.ms.served x c w
    let zeroed := ((gain ++ lose).map fun w => (c, w)) ++ at_
    if s.owesTo zeroed.contains then none else
    let owners1 := gain.foldl (fun m w => kset .none m (c * 16 + w) { scratch := true, ctx := x, origin := c }) s.ms.owners
    let owners2 := (lose.map (fun w => (c, w)) ++ at_).foldl (fun m w => kset .none m (w.1 * 16 + w.2)
      (if s.outOfUse w.1 w.2 then .outOfUse else .none)) owners1
    let ms1 : MemSys :=
      { s.ms with
        mem := zeroed.foldl (fun m w => zeroWay m w.1 w.2) s.ms.mem
        faulty := s.ms.faulty.filter fun l => !(isScratch (64 * l) && zeroed.contains (wayOf (64 * l)))
        owners := owners2
        waymap := lose.foldl (fun m w => kdel m (key * 16 + w)) s.ms.waymap
        nsplit := kset 0 s.ms.nsplit key (BitVec.ofNat 16 new) }
    let out (l : Nat) : Bool := homeCol (l * 64) == c && !gain.isEmpty && (!ms1.caches c || Config.freeBit s.free (31 * l + 5))
    let ms2 := (s.ms.lines.filter fun l => out l.1).foldl (fun m l => m.evict l.1) ms1
    let ms3 := zeroed.eraseDups.foldl (fun ms w => ms.zeroTimes w.1 w.2) ms2
    let t := zeroed.foldl (fun t w => Nat.max t (ms3.maxRts w.1)) (ms3.maxRts c)
    some ({ s with ms := ms3 }, .finished (outcome .done 0 0 (Nat.max e.inTime t)) false)

/-! ### The layer mode (R11, R192) -/

/-- LMODE_WRITE: firmware writes MODE; a write during a switch is ignored. -/
def execLmodeWrite (col : Nat) (mode : Bool) (s : State) : Res :=
  match s.layerMode col with
  | none => .next s
  | some _ => .next { s with ms := { s.ms with lmode := kset 0 s.ms.lmode col ((if mode then 1 else 0) + 2) } }

/-- Whether a column's engines have an accepted operation that has not completed (R11). -/
def State.layerBusy (s : State) (col : Nat) : Bool :=
  s.cores.any fun x => x.2.started.any fun y => match y.stage with
    | .layer c .. => c == col
    | _ => false

/-- LAYER_MODE_SWITCH_DONE: every accepted operation of the column has completed, and the new mode applies (R11, R192). -/
def execLayerModeSwitchDone (col : Nat) (s : State) : Res :=
  match s.layerMode col with
  | none =>
    if s.layerBusy col then .next s
    else .next { s with ms := { s.ms with lmode := kset 0 s.ms.lmode col (kget 0 s.ms.lmode col % 2) } }
  | some _ => .next s

end Sys2Proof.Machine
end

