-- ==== Sys2Proof/Machine/Grid.lean ====
section
/-!
DEFINITION. Grid objects (R213 to R221): binding, publishing, strips and tags, release, and step-tag-checked reads. Strips
from polders of other packages come at times and with contents that are free choices (log 12).
-/
namespace Sys2Proof.Machine

/-! ### Handles and polder state (R213) -/

/-- A handle that nothing has bound. -/
def Handle.none : Handle :=
  { valid := false, pending := false, reader := false, desc := 0, polder := 0, grid := Option.none, last := Option.none }

/-- A grid handle of a core. -/
def Core.handle (k : Core) (h : Nat) : Handle := kget .none k.handles h

/-- The state of a polder of a context's grid. -/
def State.polder (s : State) (ctx desc p : Nat) : Option PolderState := s.hub.polders.find? fun x => x.key == (ctx, desc, p)

/-- Replace a polder's state. -/
def State.setPolder (s : State) (x : PolderState) : State :=
  { s with hub := { s.hub with polders := x :: s.hub.polders.filter fun y => y.key != x.key } }

/-- The dispatched grid operations of a core that have not started, in their queue or still to enter it (R95, R223). -/
def Core.gridEntries (k : Core) : List EngEntry :=
  k.queue 4 ++ k.slips.filterMap fun x => match x.op with
    | .enter 4 e => some e
    | _ => none

/-- Whether a core has a `gstep` of a polder whose token has not completed (R214). -/
def Core.steppingOn (k : Core) (desc p : Nat) : Bool :=
  let is (e : EngEntry) : Bool := (e.op matches .gstep ..) && e.val 2 == desc && e.val 3 == p
  k.gridEntries.any is || k.started.any fun x => is x.e

/-- The core that owns a polder: an unbinding owner keeps it until its `gstep`s have completed (R214). -/
def State.ownerOf (s : State) (x : PolderState) : Option Nat :=
  match x.owner with
  | some i => if x.leaving && !(s.core i).steppingOn x.key.2.1 x.key.2.2 then none else some i
  | none => none

/-- A polder of a grid. -/
def Grid.polder (g : Grid) (p : Nat) : Polder := g.polders.getD p ⟨false, 0, 0, 0, 0, 0⟩

/-- Column of a polder's storage. -/
def Polder.col (x : Polder) : Nat := if x.scratch then x.unit else x.unit / 256

/-- The tagged address of a byte offset of a polder (R211). -/
def Polder.addr (x : Polder) (off : Nat) : W64 := BitVec.ofNat 64 ((if x.scratch then 0xC else 0x9) * 2 ^ 60 + off)

/-- Where a byte offset of a polder of this package lies; a polder in the A-buffer of a task that is saved stands there (log 20). -/
def polderPlace (s : State) (ctx : Nat) (x : Polder) (owner : Option Nat) (off : Nat) : Place :=
  if x.scratch then .phys (s.ms.scratchPhys ctx x.unit off) else .buf (owner.getD x.unit) .a off

/-! ### Dispatch of gbind, gstep and grel (R214, R215, R218) -/

/-- Whether a handle is bound to a polder as its owner. -/
def Handle.owns (x : Handle) (desc p : Nat) : Bool := x.valid && !x.reader && x.desc == desc && x.polder == p

/-- Whether another handle of a core is bound to a polder as its owner. -/
def Core.ownsElsewhere (k : Core) (h desc p : Nat) : Bool := k.handles.any fun x => x.1 != h && x.2.owns desc p

/-- Unbind a handle: its owner's polder stays owned while its `gstep`s are outstanding, and while another handle of the core owns it (R214). -/
def State.unbind (s : State) (core h : Nat) : State :=
  let x := (s.core core).handle h
  if x.valid && !x.reader && !(s.core core).ownsElsewhere h x.desc x.polder then
    { s with hub := { s.hub with polders := s.hub.polders.map fun y =>
        if y.key = ((s.core core).ctx, x.desc, x.polder) ∧ y.owner = some core then { y with leaving := true } else y } }
  else s

/-- `gbind` (R214). -/
def execGbind (h : Fin 8) (a p : Reg) (rd : Bool) (tw : TokenWord) (s : State) : Res :=
  engineOp s [.s a.val, .s p.val, .grid h.val] 4 tw fun c => withClean s c [a, p] fun _ =>
    let av := (s.sr c a.val).val
    let pv := (s.sr c p.val).val.toNat % 4096
    let x : Handle := { Handle.none with pending := true, reader := rd, desc := av.toNat, polder := pv }
    let s1 := (s.unbind c.core h.val).modCore c.core fun k => { k with handles := kput k.handles h.val x }
    .next (s1.enqueue c 4 (newEntry s c (.gbind h a p rd tw) tw [av, BitVec.ofNat 64 pv]))

/-- The traps that `gstep` and `grel` share: the handle must be bound, or being bound, as owner. -/
def withOwner (s : State) (c : Cursor) (h : Fin 8) (f : Handle → Res) : Res :=
  let x := (s.core c.core).handle h.val
  if (!x.valid && !x.pending) || x.reader then takeTrap s c .record 0 else f x

/-- `gstep` (R215). -/
def execGstep (h : Fin 8) (n : Reg) (tw : TokenWord) (s : State) : Res :=
  engineOp s [.s n.val, .grid h.val] 4 tw fun c => withClean s c [n] fun _ => withOwner s c h fun x =>
    let v := (s.sr c n.val).val.toNat % 2 ^ 48
    if (match x.last with | some l => v != l + 1 | none => false) then takeTrap s c .stepOverrun (BitVec.ofNat 64 v)
    else
      let s1 := s.modCore c.core fun k => { k with handles := kput k.handles h.val { x with last := some v } }
      let waits := (s.core c.core).earlier fun o => o.stPend
      .next (s1.enqueue c 4 { newEntry s c (.gstep h n tw) tw
        [BitVec.ofNat 64 h.val, BitVec.ofNat 64 v, BitVec.ofNat 64 x.desc, BitVec.ofNat 64 x.polder, 0] with waits := waits })

/-- `grel` (R218): its start waits for the handle's earlier reads. Of the step register bits [47:0] count: DESIGN CHOICE (log 30), R218 does not say
what the others do. -/
def execGrel (h : Fin 8) (r : Reg) (tw : TokenWord) (s : State) : Res :=
  engineOp s [.s r.val, .grid h.val] 4 tw fun c => withClean s c [r] fun _ => withOwner s c h fun x =>
    let v := (s.sr c r.val).val.toNat % 2 ^ 48
    let waits := (s.core c.core).earlier fun o => o.ldPend && o.handle == some h.val
    .next (s.enqueue c 4 { newEntry s c (.grel h r tw) tw
      [BitVec.ofNat 64 h.val, BitVec.ofNat 64 v, BitVec.ofNat 64 x.desc, BitVec.ofNat 64 x.polder, 0] with waits := waits })

/-! ### gbind at the engine (R214) -/

/-- Read a descriptor for an operation of a core, with the state and the time after it: bytes of another package are free (log 12). -/
def readGrid (s : State) (core : Nat) (e : EngEntry) (a : W64) : Except Cause (Option Grid × State × Nat) :=
  let free := (List.range 262144).map fun i => Config.freeByte s.free (37 * core + i)
  if bits a.toNat 60 4 ≠ 0 ∨ a.toNat % 64 ≠ 0 then .ok (none, s, 0)
  else
    let (head, f1) := (s.flow core e (Nat.max e.time e.inTime) free).readMany a 64
    match f1.bad with
    | some e => .error e
    | none =>
      if headerBad head then .ok (none, f1.st, f1.time)
      else
        let (bs, f2) := f1.readMany a (gridBytes head)
        match f2.bad with
        | some e => .error e
        | none => .ok (if bodyBad bs then none else some (readGridFields bs), f2.st, f2.time)

/-- A bound fails when a polder's storage exceeds the declaration or the scratch size (R214). -/
def Grid.tooBig (g : Grid) (p limit : Nat) : Bool :=
  let x := g.polder p
  let inside := prodOf ((List.range 4).map (g.extent p)) * g.elem
  let slot := g.slotElems p * g.elem
  decide (limit < x.base + inside) || (decide (slot ≠ 0) && (decide (limit < x.fbase0 + slot) || decide (limit < x.fbase1 + slot)))

/-- Region entries that a column's Sluice holds (R213). -/
def State.regionCount (s : State) (col : Nat) : Nat :=
  (s.hub.polders.map fun x => if (x.grid.polder x.key.2.2).col = col ∧ (s.ownerOf x).isSome then x.grid.regions.length else 0).foldl
    (· + ·) 0

/-- The cause with which a binding fails (R214). -/
def bindFault (s : State) (core : Nat) (rd : Bool) (g : Grid) (desc p : Nat) : Option Cause :=
  let k := s.core core
  let x := g.polder p
  let limit := if x.scratch then s.ms.scratchSize k.ctx (colOf core) else declBanks (k.csrNow 0x060) .a * 1024
  let mine := x.pkg == s.pkg && (if x.scratch then x.unit == colOf core else x.unit == core && !rd)
  if !mine then some .protection
  else if g.tooBig p limit then some .headerLimit
  else if rd then none
  else match (s.polder k.ctx desc p).bind s.ownerOf with
    | some i => if i = core then none else some .protection
    | none => if 16384 < s.regionCount (colOf core) + g.regions.length then some .queueExhausted else none

/-- The waiting `gstep`s and `grel`s of a binding that failed take its cause (R215). -/
def poison (core h serial code : Nat) (s : State) : State :=
  s.modCore core fun k =>
    let next := k.gridEntries.foldl (fun (n : Option Nat) e => match e.op with
      | .gbind g .. => if g.val = h ∧ serial < e.serial ∧ n = none then some e.serial else n
      | _ => n) none
    let mine (e : EngEntry) : Bool := ((e.op matches .gstep ..) || (e.op matches .grel ..)) && e.val 0 == h &&
      decide (serial < e.serial) && (match next with | some m => decide (e.serial < m) | none => true)
    let mark (e : EngEntry) : EngEntry := if mine e then { e with vals := e.vals.set 4 (BitVec.ofNat 64 code) } else e
    { k.setQueue 4 ((k.queue 4).map mark) with
      slips := k.slips.map fun x => { x with op := match x.op with | .enter q e => .enter q (mark e) | op => op } }

/-- Whether a handle still waits for a `gbind`: a later `gbind` of the handle leaves it to that one. -/
def Core.awaits (k : Core) (h : Nat) (rd : Bool) (e : EngEntry) : Bool :=
  let x := k.handle h
  x.pending && x.desc == e.val 0 && x.polder == e.val 1 && x.reader == rd &&
    !k.gridEntries.any fun y => decide (e.serial < y.serial) && match y.op with | .gbind g .. => g.val == h | _ => false

/-- A `gbind` that is cancelled leaves its handle invalid, as one that fails does (R214, R306). -/
def State.cancelGbind (s : State) (core : Nat) (e : EngEntry) (code : Nat) : State :=
  match e.op with
  | .gbind h _ _ rd _ =>
    let s1 := if (s.core core).awaits h.val rd e then
        s.modCore core fun k => { k with handles := kput k.handles h.val .none } else s
    poison core h.val e.serial code s1
  | _ => s

/-- A polder as its owner has just bound it: nothing published, no tag, no mark (R213). What an earlier binding of its own had still to
deliver to regions without its cells is gone. A handle that a later `gbind` has taken is unbound at once. -/
def State.ownPolder (s : State) (ctx desc p core : Nat) (g : Grid) (bound : Bool) : State :=
  let x : PolderState :=
    { key := (ctx, desc, p), owner := some core, grid := g, published := none, tags := [], times := [], marks := [], wrote := [], leaving := !bound }
  let old (y : Strip) : Bool := y.ctx == ctx && y.desc == desc && y.polder == p && y.src == p && y.cells.isEmpty
  let s1 := s.setPolder x
  { s1 with hub := { s1.hub with strips := s1.hub.strips.filter fun y => !old y } }

/-- The start of `gbind` (R214). -/
def startGbind (s : State) (core : Nat) (h : Nat) (rd : Bool) (e : EngEntry) : State × Stage :=
  let a := e.vals.getD 0 0
  let p := e.val 1
  let x := (s.core core).handle h
  let mine := (s.core core).awaits h rd e
  let put (s : State) (y : Handle) : State :=
    if mine then s.modCore core fun k => { k with handles := kput k.handles h y } else s
  let fail (cause : Cause) : State × Stage :=
    (poison core h e.serial cause.code (put s .none), .finished (outcome .faulted cause.code 0 (Nat.max e.time e.inTime)) false)
  match readGrid s core e a with
  | .error cause => fail cause
  | .ok (none, _) => fail .record
  | .ok (some g, s, t) =>
    if prodOf g.counts ≤ p then fail .record
    else match bindFault s core rd g a.toNat p with
      | some cause => fail cause
      | none =>
        let bound := mine || (s.core core).handles.any fun y => y.2.owns a.toNat p
        let s1 := if rd then s else s.ownPolder (s.core core).ctx a.toNat p core g bound
        (put s1 { x with valid := true, pending := false, grid := some g }, .finished (outcome .done 0 0 t) false)

/-- Whether a `gbind` that an operation on the handle waits for has not been made (R215). -/
def Core.binding (k : Core) (h serial : Nat) : Bool :=
  k.gridEntries.any fun y => decide (y.serial < serial) && match y.op with | .gbind g .. => g.val == h | _ => false

/-! ### gstep and strips (R216, R217) -/

/-- The bytes of an interior cell as they stand. -/
def interiorCell (s : State) (ctx : Nat) (g : Grid) (p : Nat) (owner : Option Nat) (xs : List Nat) : List Byte :=
  s.readPlace (polderPlace s ctx (g.polder p) owner (g.interiorOff p xs)) g.elem

/-- The cells of a region that polder `me` supplies: its own interior cells, and the cells that the dike rules fix when the
region is its own. -/
def suppliedCells (read : List Nat → List Byte) (g : Grid) (me p region : Nat) : List (Nat × List Byte) :=
  (List.range (g.cellCount p region)).filterMap fun i =>
    match g.source p region i with
    | .cell o xs => if o = me then some (i, read xs) else none
    | .bytes bs => if p = me then some (i, bs) else none
    | .open_ => none

/-- The strips that a `gstep` of a polder delivers: one to each region that it supplies, and one without cells to each other region of its own,
which takes its tag once its slot is free (R216, R217). The reads go on at the operation's time (R203). -/
def stripsOf (s : State) (core : Nat) (e : EngEntry) (g : Grid) (me step : Nat) : List Strip :=
  let ctx := (s.core core).ctx
  let read (xs : List Nat) : List Byte :=
    (s.flow core e e.time []).view (polderPlace s ctx (g.polder me) (some core) (g.interiorOff me xs)) (interiorCell s ctx g me (some core) xs)
  (List.range (prodOf g.counts)).flatMap fun p => g.regions.filterMap fun region =>
    let cells := suppliedCells read g me p region
    if cells.isEmpty && p != me then none
    else some
      { ctx := ctx, desc := e.val 2, polder := p, src := me, region := region, slot := step / g.berm % 2, step := step
        cells := cells, time := 0, core := core, startedId := e.serial }

/-- The reads that strips make of their polder's interior in scratch, as loads at the home (R203): the state and the latest time read. -/
def State.readStrips (s : State) (g : Grid) (me core t : Nat) (ys : List Strip) : State × Nat :=
  ys.foldl (fun x y => y.cells.foldl (fun (x : State × Nat) c => match g.source y.polder y.region c.1 with
    | .cell o xs =>
      if o = me ∧ (g.polder me).scratch then
        let (_, u, s1) := x.1.engReadAt x.2 (x.1.core core).lease (polderPlace x.1 y.ctx (g.polder me) (some core) (g.interiorOff me xs)) g.elem
        (s1, Nat.max x.2 u)
      else x
    | _ => x) x) (s, t)

/-- Whether a polder in scratch no longer lies within the scratch of its context, because an `nflush` has changed the split since its `gbind`:
no engine reaches it then. The spec names no cause for that; the `gstep` faults with ADDRESS_SPACE, as an access beyond the scratch size does
(R153; DEDUCED, log 34). -/
def State.shrunk (s : State) (ctx : Nat) (g : Grid) (p : Nat) : Bool :=
  (g.polder p).scratch && g.tooBig p (s.ms.scratchSize ctx (g.polder p).unit)

/-- The record bytes of a `gstep`, for which the spec states no count: free (log 14). -/
def stepBytes (s : State) (e : EngEntry) : Nat := Config.freeNat s.free (23 * e.serial + 1) % 2 ^ 32

/-- The start of `gstep`: publish, and on a multiple of the berm send the strips (R216). -/
def startGstep (s : State) (core h : Nat) (e : EngEntry) : Option (State × Stage) :=
  let n := e.val 1
  let t := Nat.max e.time e.inTime
  if e.val 4 ≠ 0 then some (s, .finished (outcome .faulted (e.val 4) 0 t) false)
  else if (s.core core).binding h e.serial then none
  else match s.polder (s.core core).ctx (e.val 2) (e.val 3) with
    | none => some (s, .finished (outcome .faulted Cause.record.code 0 t) false)
    | some x =>
      let s1 := s.setPolder { x with published := match x.published with
        | some (f, _) => some (f, n)
        | none => some (n, n) }
      if n % x.grid.berm = 0 && s.shrunk (s.core core).ctx x.grid (e.val 3) then
        some (s1, .finished (outcome .faulted Cause.addressSpace.code 0 t) false)
      else
      let strips := if n % x.grid.berm = 0 then stripsOf s core e x.grid (e.val 3) n else []
      let far := strips.filter fun y => (x.grid.polder y.polder).pkg ≠ s.pkg
      let s2 := far.foldl (fun s y => s.sendFabric (x.grid.polder y.polder).pkg 3
        (.strip y.desc y.polder y.region y.slot y.step (y.cells.flatMap fun c => c.2))) s1
      let s3 := s2.readStrips x.grid (e.val 3) core t strips
      let (s4, u) := s3
      some ({ s4 with hub := { s4.hub with strips := s4.hub.strips ++ strips.map fun y => { y with time := u } } },
        if strips.all fun y => y.cells.isEmpty then .finished (outcome .done 0 (stepBytes s e) u) false else .waiting)

/-- The start of `grel`: the release mark of the block's slot rises (R218). -/
def startGrel (s : State) (core h : Nat) (e : EngEntry) : Option (State × Stage) :=
  let t := Nat.max e.time e.inTime
  if e.val 4 ≠ 0 then some (s, .finished (outcome .faulted (e.val 4) 0 t) false)
  else if (s.core core).binding h e.serial then none
  else match s.polder (s.core core).ctx (e.val 2) (e.val 3) with
    | none => some (s, .finished (outcome .faulted Cause.record.code 0 t) false)
    | some x =>
      let b := e.val 1 / x.grid.berm
      some (s.setPolder { x with marks := kput x.marks (b % 2) (Nat.max (kget 0 x.marks (b % 2)) (b * x.grid.berm)) },
        .finished (outcome .done 0 0 t) false)

/-- A tag or a mark, when it is valid. -/
def stepAt (m : KMap Nat) (i : Nat) : Option Nat := (m.find? fun x => x.1 == i).map fun x => x.2

/-- Whether a slot of a region is free: its tag is invalid, or its mark has reached it (R217, condition 2). -/
def PolderState.slotFree (x : PolderState) (region slot : Nat) : Bool :=
  match stepAt x.tags (2 * region + slot) with
  | none => true
  | some t => match stepAt x.marks slot with
    | some r => decide (t ≤ r)
    | none => false

/-- Whether a core's task is pre-empted: halted for it, or saved (R328). -/
def State.preempted (s : State) (i : Nat) : Bool := (s.core i).run == .halted || decide (65536 ≤ i)

/-- Whether Sluice holds deliveries into a polder: it lies in the A-buffer of a core that is pre-empted (R221). -/
def heldPolder (s : State) (x : PolderState) (p : Nat) : Bool :=
  !(x.grid.polder p).scratch && match x.owner with
    | some i => s.preempted i
    | none => false

/-- Write the cells of a strip; the time of the last write. -/
def writeCells (s : State) (ctx : Nat) (g : Grid) (p : Nat) (owner : Option Nat) (region slot floor : Nat)
    (cells : List (Nat × List Byte)) : State × Nat :=
  cells.foldl (fun (x : State × Nat) c =>
    x.1.engWrite x.2 (polderPlace x.1 ctx (g.polder p) owner (g.cellOff p region slot c.1)) c.2) (s, floor)

/-- A supplier's part of a region has been written at time `t`: once the region holds every supplier's cells for the step, and the owner has
published it, the region takes its tag (R217). Cells that another step's strip overwrites are not the earlier step's any more; a strip without
cells (`bare`) overwrites none. -/
def State.stripWritten (s : State) (x : PolderState) (p region slot m src t : Nat) (bare : Bool) : State :=
  let ix := 2 * region + slot
  let wrote := (ix, m, src) :: x.wrote.filter fun w => !(w.1 == ix && w.2.2 == src && (w.2.1 == m || !bare))
  let y := { x with times := kput x.times ix (Nat.max (kget 0 x.times ix) t) }
  if (x.grid.suppliers p region).all fun o => wrote.contains (ix, m, o) then
    s.setPolder { y with tags := kput x.tags ix m, wrote := wrote.filter fun w => w.1 != ix || decide (m < w.2.1) }
  else s.setPolder { y with wrote := wrote }

/-- A `gstep` none of whose strips is still on its way has completed (R216). -/
def State.endStep (s : State) (core id t : Nat) : State :=
  let s1 := s.modCore core fun k => { k with started := k.started.map fun y =>
    if y.id = id then { y with e := { y.e with time := Nat.max y.e.time t } } else y }
  if s1.hub.strips.any fun y => y.core == core && y.startedId == id && !y.cells.isEmpty then s1
  else match (s1.core core).started.find? fun y => y.id == id && y.stage == .waiting with
    | some y => s1.finish core id (outcome .done 0 (stepBytes s1 y.e) (Nat.max y.e.time y.e.inTime))
    | none => s1

/-- A cell that its owner has changed since the `gstep` may come with its old or its new contents, by aligned words of the interior (R216). -/
def cellNow (s : State) (ctx desc : Nat) (g : Grid) (src p region : Nat) (key : Nat) (c : Nat × List Byte) : Nat × List Byte :=
  match g.source p region c.1, (s.polder ctx desc src).bind s.ownerOf with
  | .cell o xs, some own =>
    if o = src then
      let now := interiorCell s ctx g src (some own) xs
      (c.1, c.2.mapIdx fun i b =>
        if Config.freeBit s.free (41 * key + 1009 * ((g.interiorOff src xs + i) / 4) + 6) then now.getD i b else b)
    else c
  | _, _ => c

/-- Whether Sluice can write a strip into a polder now: it has an owner, nothing holds it, its slot is free (R217, R221), and none of the
cells lies in a way that a migration is moving (R330). -/
def canWrite (s : State) (x : PolderState) (y : Strip) : Bool :=
  (s.ownerOf x).isSome && !heldPolder s x y.polder && x.slotFree y.region y.slot &&
    !(y.cells.any fun c =>
      s.ms.moving (polderPlace s y.ctx (x.grid.polder y.polder) (s.ownerOf x) (x.grid.cellOff y.polder y.region y.slot c.1)))

/-- Whether a strip of this package can be delivered. -/
def deliverable (s : State) (y : Strip) : Bool :=
  match s.polder y.ctx y.desc y.polder with
  | some x => canWrite s x y
  | none => false

/-- The package of a strip's destination, as its supplier's grid names it. -/
def stripPkg (s : State) (y : Strip) : Nat :=
  match s.polder y.ctx y.desc y.src with
  | some x => (x.grid.polder y.polder).pkg
  | none => s.pkg

/-- Remove one strip. -/
def State.dropStrip (s : State) (y : Strip) : State :=
  { s with hub := { s.hub with strips := s.hub.strips.filter fun z => z != y } }

/-- The strip of a supplier in another package, when one may come: its step is the one that the slot now waits for, its
contents are free (log 12). -/
def farStrip (s : State) (desc p region slot : Nat) : Option (PolderState × Strip) :=
  s.hub.polders.findSome? fun x =>
    if x.key.2 ≠ (desc, p) ∨ (s.ownerOf x).isNone then none
    else
      let g := x.grid
      match x.published with
      | none => none
      | some (first, last) =>
        let b := last / g.berm
        let ms := ((x.wrote.filter fun w => w.1 == 2 * region + slot).map fun w => w.2.1) ++ [(if b % 2 = slot then b else b - 1) * g.berm]
        let next := ms.findSome? fun m =>
          ((g.suppliers p region).find? fun o => (g.polder o).pkg != s.pkg && !x.wrote.contains (2 * region + slot, m, o)).map fun o => (m, o)
        match next with
        | none => none
        | some (m, o) =>
          let late := match stepAt x.tags (2 * region + slot) with | some t => decide (m ≤ t) | none => false
          let read (_ : List Nat) : List Byte := List.replicate g.elem 0
          let cells := (suppliedCells read g o p region).map fun c =>
            (c.1, c.2.mapIdx fun i _ => Config.freeByte s.free (43 * c.1 + i))
          let y : Strip :=
            { ctx := x.key.1, desc := desc, polder := p, src := o, region := region, slot := slot, step := m, cells := cells, time := 0
              core := 0, startedId := 0 }
          if m < first || late || m / g.berm % 2 ≠ slot || !canWrite s x y || s.shrunk x.key.1 g p then none
          else some (x, y)

/-- A strip that cannot be delivered is dropped, and its token faults (R216). -/
def State.stripFails (s : State) (y : Strip) (cause : Cause) : State :=
  let s1 := s.dropStrip y
  match (s.core y.core).started.find? fun z => z.id == y.startedId && z.stage == .waiting with
  | some z => s1.finish y.core y.startedId (outcome .faulted cause.code 0 (Nat.max y.time (Nat.max z.e.time z.e.inTime)))
  | none => s1

/-- A strip to another package is acknowledged, or does not reach it: then its token faults with REMOTE (R216). -/
def State.strippedFar (s : State) (y : Strip) : State :=
  if s.lost (stripPkg s y) then s.stripFails y .remote
  else (s.dropStrip y).endStep y.core y.startedId (Nat.max y.time (Config.freeNat s.free 47))

/-- STRIP_ARRIVAL: Sluice writes a strip into a free slot, and the region takes its tag once it is whole (R217). -/
def execStripArrival (desc polder region slot : Nat) (s : State) : Res :=
  let mine := s.hub.strips.filter fun y => y.desc == desc && y.polder == polder && y.region == region && y.slot == slot
  match mine.find? fun y => stripPkg s y != s.pkg with
  | some y => .next (s.strippedFar y)
  | none =>
    match mine.find? (deliverable s) with
    | some y =>
      match s.polder y.ctx desc polder with
      | some x =>
        if s.shrunk y.ctx x.grid polder then .next (s.stripFails y .addressSpace)
        else
          let cells := y.cells.map (cellNow s y.ctx desc x.grid y.src polder region (y.core + y.startedId))
          let (s1, t) := writeCells s y.ctx x.grid polder (s.ownerOf x) region slot y.time cells
          .next (((s1.stripWritten x polder region slot y.step y.src t y.cells.isEmpty).dropStrip y).endStep y.core y.startedId t)
      | none => .next s
    | none =>
      match farStrip s desc polder region slot with
      | some (x, y) =>
        let (s1, t) := writeCells s y.ctx x.grid polder (s.ownerOf x) region slot (Config.freeNat s.free 53) y.cells
        .next (s1.stripWritten x polder region slot y.step y.src t y.cells.isEmpty)
      | none => .next s

/-! ### Reading a grid (R219, R220) -/

/-- One cell of a read: where it lies, and its region when it is in a foreland. -/
structure CellRef where
  addr : W64
  region : Option Nat
  deriving DecidableEq, Repr

/-- The cell at local coordinates for a step; `none` is outside the polder and its forelands (R220). -/
def cellRef (g : Grid) (p step : Nat) (xs : List Int) : Option CellRef :=
  match g.regionOf p xs with
  | none => none
  | some r =>
    if r = g.inside then some ⟨(g.polder p).addr (g.interiorOff p (xs.map Int.toNat)), none⟩
    else if g.exists_ r then some ⟨(g.polder p).addr (g.cellOff p r (step / g.berm % 2) (g.indexIn p r xs)), some r⟩
    else none

/-- The four coordinates of a coordinate register (R219). -/
def coordsOf (v : W64) : List Int := (List.range 4).map fun k => signed 16 (field v (16 * k) 16)

/-- The tag of a cell's slot. -/
def cellTag (tags : KMap Nat) (g : Grid) (step : Nat) (r : CellRef) : Option (Option Nat) :=
  r.region.map fun x => stepAt tags (2 * x + step / g.berm % 2)

/-- The checks of R220 from the coordinates on, and the load (R98, R301): a foreland in scratch is read at its home, and every foreland
raises the clock to its strips' time. A read of no lane does nothing. A stale cell blocks the M class. -/
def readCells (s : State) (c : Cursor) (h : Fin 8) (x : Reg) (step : Nat) (hd : Handle) (g : Grid) (cells : List (List Int))
    (dest : LoadDest) : Res :=
  match cells.mapM (cellRef g hd.polder step) with
  | none => takeTrap s c .addressSpace (s.sr c x.val).val
  | some refs =>
    let own := s.polder (s.core c.core).ctx hd.desc hd.polder
    let tags := (own.map fun y => y.tags).getD []
    let times := (own.map fun y => y.times).getD []
    let t := step / g.berm * g.berm
    let found := refs.filterMap (cellTag tags g step)
    if found.any fun y => match y with | some m => decide (t < m) | none => false then
      takeTrap s c .stepOverrun (BitVec.ofNat 64 step)
    else if found.any fun y => y != some t then
      slipOr s c (if g.faultMode then .staleBy c.slot.index step g.limit else .stale) (.access c.op dest)
    else
      withAccess s c .read (refs.map fun r => (r.addr, g.elem, g.elem)) fun _ =>
        if refs.isEmpty then .next s
        else
          let at_ := refs.foldl (fun n r => match r.region with
            | some i => Nat.max n (kget 0 times (2 * i + step / g.berm % 2))
            | none => n) 0
          let s1 := if at_ = 0 then s else s.modCore c.core fun k => k.raise at_
          accessOp s1 c { newOut s c with ldPend := true, dest := dest, handle := some h.val }
            (refs.mapIdx fun i r =>
              { ix := i, n := g.elem, piece := s.piece c.core .read g.elem r.addr, op := .load r.region.isSome })

/-- A read through a handle, with what it will write: an invalid handle traps, a pending one blocks the M class (R220). -/
def withGrid (s : State) (c : Cursor) (h : Fin 8) (dest : LoadDest) (f : Handle → Grid → Res) : Res :=
  let x := (s.core c.core).handle h.val
  if x.pending then slipOr s c .handlePending (.access c.op dest)
  else match x.valid, x.grid with
    | true, some g => f x g
    | _, _ => takeTrap s c .record 0

/-- `ldg` (R219, R220). -/
def execLdg (d x r : Reg) (h : Fin 8) (sx : Bool) (s : State) : Res :=
  slotOp s [.s d.val, .s x.val, .s r.val, .grid h.val] fun c => withClean s c [x, r] fun _ => withGrid s c h (.scalar d.val sx) fun hd g =>
    readCells s c h x ((s.sr c r.val).val.toNat % 2 ^ 48) hd g [coordsOf (s.sr c x.val).val] (.scalar d.val sx)

/-- The coordinates of lane i of cluster c: (x0 + i, x1 + c, x2, x3) (R219). -/
def laneCoords (v : W64) (l : Nat × Nat) : List Int :=
  match coordsOf v with
  | a :: b :: rest => (a + l.2) :: (b + l.1) :: rest
  | xs => xs

/-- `vldg` (R219, R220); without an enabled cluster it does nothing (R113). -/
def execVldg (vd x r : Reg) (h : Fin 8) (s : State) : Res :=
  slotOp s [.v vd.val, .s x.val, .s r.val, .grid h.val] fun c => withClean s c (laneRegs s c [x, r]) fun _ =>
    if (s.enabled c).isEmpty then .next s else withGrid s c h (vecDest s c vd) fun hd g =>
    if g.esize ≠ 2 then takeTrap s c .record (BitVec.ofNat 64 hd.desc)
    else
      readCells s c h x ((s.sr c r.val).val.toNat % 2 ^ 48) hd g ((laneList s c).map (laneCoords (s.sr c x.val).val))
        (vecDest s c vd)

/-- A stale grid read in fault mode whose hold counter has reached LIMIT (R220), with its bundle and its slot and step: the read that
blocks the M class, or that holds its bundle. It traps once every class has dispatched every earlier bundle (R99). -/
def Core.staleTrap (k : Core) : Option (Nat × Nat × Nat × Nat) :=
  let at_ (h : Hold) (bn pc : Nat) : Option (Nat × Nat × Nat × Nat) := match h with
    | .staleBy slot step limit => if limit ≤ k.holdCount ∧ bn ≤ k.oldest bn then some (bn, pc, slot, step) else none
    | _ => none
  match k.slips.find? fun x => x.cls == .m with
  | some x => at_ x.why x.cur.bn x.cur.pc
  | none => at_ k.hold k.bn k.pc

/-- Whether a core's hold counter has reached LIMIT in fault mode (R220). -/
def staleDue (s : State) (core : Nat) : Bool := (s.core core).staleTrap.isSome

/-- STEP_STALE: the held grid read traps (R220). -/
def execStepStale (core : Nat) (s : State) : Res :=
  let k := s.core core
  match k.staleTrap with
  | some (bn, pc, slot, step) =>
    if k.run = .running then
      .next (s.exception core bn pc { cause := .stepStale, tval := BitVec.ofNat 64 step, slot := slot, async := false })
    else .next s
  | none => .next s

end Sys2Proof.Machine
end

