-- ==== Sys2Proof/Machine/Message.lean ====
section
/-!
DEFINITION. Endpoints, sends, receives, landing, probing and completion rings (R247 to R260).
-/
namespace Sys2Proof.Machine

/-! ### Parsers and endpoints (R247) -/

/-- An endpoint that nothing has bound. -/
def Endpoint.unbound : Endpoint := { valid := false, ctx := 0, col := 0 }

/-- A Parser at boot. -/
def Parser.init : Parser := { posted := [], landing := [], unexpected := [], reorder := [], expected := [] }

/-- An endpoint of the package. -/
def State.endpoint (s : State) (ep : Nat) : Endpoint := kget .unbound s.hub.endpoints ep

/-- The Parser of a column. -/
def State.parser (s : State) (col : Nat) : Parser := kget .init s.hub.parsers col

/-- Replace the Parser of a column. -/
def State.setParser (s : State) (col : Nat) (p : Parser) : State :=
  { s with hub := { s.hub with parsers := kput s.hub.parsers col p } }

/-- Key of an ordered pair: an endpoint of this package and the 26-bit address of the other (R247). -/
def pairKey (ep other : Nat) : Nat := ep * 2 ^ 26 + other

/-- The source address of a message (R252). -/
def srcOf (m : Message) : Nat := m.srcPkg * 4096 + m.srcEp

/-- The address of an endpoint of this package. -/
def State.epAddr (s : State) (ep : Nat) : Nat := s.pkg * 4096 + ep

/-- Whether a message matches match and mask words (R252). -/
def matchesWords (mw kw : W64) (m : Message) : Bool :=
  let src := (field mw 0 26 ^^^ srcOf m) &&& field kw 0 26
  let tag := (field mw 32 16 ^^^ m.tag) &&& field kw 32 16
  src == 0 && tag == 0

/-- The endpoint field of a match word or an envelope register. -/
def epField (w : W64) : Nat := field w 48 12

/-- Whether the reserved bits of a match word or an envelope register are zero (R248, R251). -/
def envelopeOk (w : W64) : Bool := field w 26 6 == 0 && field w 60 4 == 0

/-- Whether the bits of a mask word that compare nothing are zero (R251). -/
def maskOk (w : W64) : Bool := field w 26 6 == 0 && field w 48 16 == 0

/-! ### Byte streams of tiles (R248, R254) -/

/-- Bytes of a run of elements. -/
def LocRun.bytes (x : LocRun) : Nat := (x.n * x.w + 7) / 8

/-- Bytes of a stream. -/
def streamBytes (rs : List LocRun) : Nat := (rs.map LocRun.bytes).foldl (· + ·) 0

/-- The moves that byte `i` of a stream makes at its tile. -/
def streamMoves : List LocRun → Nat → Byte → List ByteMove
  | [], _, _ => []
  | x :: xs, i, b =>
    if i < x.bytes then
      if x.w < 8 then
        ((List.range (8 / x.w)).filter fun q => i * (8 / x.w) + q < x.n).flatMap fun q =>
          (x.at_ (i * (8 / x.w) + q)).moves (bits b.toNat (q * x.w) x.w % 2 ^ x.keep)
      else
        let z := x.w / 8
        let l := x.at_ (i / z)
        [⟨l.addr + BitVec.ofNat 64 (i % z), 255, if x.keep < 8 then b.toNat % 2 ^ x.keep else b.toNat⟩]
    else streamMoves xs (i - x.bytes) b

/-- Byte `i` of a stream, read at its tile. -/
def Flow.streamByte : List LocRun → Nat → Flow → Byte × Flow
  | [], _, f => (0, f)
  | x :: xs, i, f =>
    if i < x.bytes then
      if x.w < 8 then
        let qs := (List.range (8 / x.w)).filter fun q => i * (8 / x.w) + q < x.n
        let (v, g) := qs.foldl (fun (y : Nat × Flow) q =>
          let (u, h) := y.2.readLoc (x.at_ (i * (8 / x.w) + q))
          (y.1 + u % 2 ^ x.keep * 2 ^ (q * x.w), h)) (0, f)
        (BitVec.ofNat 8 v, g)
      else
        let z := x.w / 8
        let (bs, g) := f.read ((x.at_ (i / z)).addr + BitVec.ofNat 64 (i % z)) 1
        (if x.keep < 8 then BitVec.ofNat 8 ((bs.headD 0).toNat % 2 ^ x.keep) else bs.headD 0, g)
    else Flow.streamByte xs (i - x.bytes) f

/-- Bytes `i` on of a stream. -/
def Flow.streamRead (rs : List LocRun) : Nat → Nat → Flow → List Byte × Flow
  | 0, _, f => ([], f)
  | n + 1, i, f =>
    let (b, g) := Flow.streamByte rs i f
    let (bs, h) := Flow.streamRead rs n (i + 1) g
    (b :: bs, h)

/-- The 64-byte units that byte `i` of a stream touches. -/
def unitsAt (rs : List LocRun) (i : Nat) : List Nat := (streamMoves rs i 0).map fun m => m.addr.toNat / 64

/-- How many bytes of a stream of `total` bytes are read together from byte `lo` on, where `want` are wanted: as few as leave no 64-byte unit of
the source to be read again (R248). -/
def unitSpan (rs : List LocRun) (lo want total : Nat) : Nat :=
  let whole (n : Nat) : Bool :=
    let us := (List.range n).flatMap fun i => unitsAt rs (lo + i)
    (List.range (total - lo - n)).all fun j => (unitsAt rs (lo + n + j)).all fun u => !us.contains u
  ((List.range (total - lo + 1)).find? fun n => decide (want ≤ n) && whole n).getD (total - lo)

/-- The runs of a whole tile: every element within the extents, every plane. -/
def Shape.tileRuns (r : Shape) (tau : Nat) : List LocRun := r.runs tau (r.counts tau) [0, 1, 2, 3]

/-- The runs of a byte range. -/
def rangeRuns (a : W64) (n : Nat) : List LocRun := [{ n := n, w := 8, keep := 8, at_ := fun q => ⟨a + BitVec.ofNat 64 q, 0, 8⟩ }]

/-- The source stream of a `send`. -/
def sendRuns (e : EngEntry) : List LocRun :=
  match e.op with
  | .send _ _ _ true _ => rangeRuns (e.vals.getD 1 0) (e.val 2)
  | _ => (e.shape 0).tileRuns (e.val 2)

/-! ### Dispatch (R248, R251, R256, R259) -/

/-- A register whose value breaks a rule traps with ADDRESS_SPACE and that value (R248). -/
def orSpace (s : State) (c : Cursor) (ok : Bool) (v : W64) (f : Unit → Res) : Res :=
  if ok then f () else takeTrap s c .addressSpace v

/-- `send` and `send.b` (R248). -/
def execSend (e r x : Reg) (b : Bool) (tw : TokenWord) (s : State) : Res :=
  engineOp s [.s e.val, .s r.val, .s x.val] 3 tw fun c => withClean s c [e, r, x] fun _ =>
    let ev := (s.sr c e.val).val
    let rv := (s.sr c r.val).val
    let xv := (s.sr c x.val).val
    let entry (recs : List (W64 × List Byte)) : EngEntry :=
      { newEntry s c (.send e r x b tw) tw [ev, rv, xv] with recs := recs, waits := copyWaits s c }
    orSpace s c (envelopeOk ev) ev fun _ =>
      orSpace s c (if b then xv.toNat ≤ 2 ^ 24 else xv.toNat < 2 ^ 32) xv fun _ =>
        let ep := s.endpoint (epField ev)
        if !ep.valid || ep.ctx != (s.core c.core).ctx then takeTrap s c .protection ev
        else if b then
          orTrap s c (checkHere s c.core c.slot.index .copy .read (rangePart rv xv.toNat)) fun _ =>
            .next (s.enqueue c 3 (entry []))
        else
          withRecords s c tw [rv] fun t recs =>
            let sh := readShape (recs.getD 0 [])
            let runs := sh.tileRuns xv.toNat
            orTrap s c (recordFail (decide (sh.gridSize ≤ xv.toNat)) rv) fun _ =>
              orTrap s c (checkTile s c .copy .read runs) fun _ =>
                orTrap s c (recordFail (decide (2 ^ 24 < streamBytes runs)) rv) fun _ =>
                  .next (t.enqueue c 3 (entry [(rv, recs.getD 0 [])]))

/-- The checks on match word, mask word and endpoint that `rpost` and `rprobe` share. -/
def withMatch (s : State) (c : Cursor) (mv kv : W64) (f : Unit → Res) : Res :=
  orSpace s c (envelopeOk mv) mv fun _ => orSpace s c (maskOk kv) kv fun _ => f ()

/-- The receiving endpoint is bound to the core's context and column (R251). -/
def withEndpoint (s : State) (c : Cursor) (mv : W64) (f : Unit → Res) : Res :=
  let ep := s.endpoint (epField mv)
  if ep.valid && ep.ctx == (s.core c.core).ctx && ep.col == colOf c.core then f () else takeTrap s c .protection mv

/-- `rpost` (R251). -/
def execRpost (m k r x v : Reg) (tw : TokenWord) (s : State) : Res :=
  let env := if v.val = 0 then [] else [v]
  engineOp s (([m, k, r, x] ++ env).map fun y => .s y.val) 3 tw fun c => withClean s c ([m, k, r, x] ++ env) fun _ =>
    let g (y : Reg) : W64 := (s.sr c y.val).val
    withMatch s c (g m) (g k) fun _ => orSpace s c (decide ((g x).toNat < 2 ^ 32)) (g x) fun _ => withEndpoint s c (g m) fun _ =>
      withRecords s c tw [g r] fun t recs =>
        let sh := readShape (recs.getD 0 [])
        let tau := (g x).toNat
        orTrap s c (recordFail (decide (sh.gridSize ≤ tau)) (g r)) fun _ =>
          orTrap s c (checkTile s c .parser .write (sh.tileRuns tau)) fun _ =>
            orTrap s c (if v.val = 0 then none else checkHere s c.core c.slot.index .parser .write [(g v, 8, 8)]) fun _ =>
              .next (t.enqueue c 3 { newEntry s c (.rpost m k r x v tw) tw [g m, g k, g r, g x, g v] with
                recs := [(g r, recs.getD 0 [])] })

/-- `rcancel` (R256). -/
def execRcancel (d : Reg) (n : Tok) (tw : TokenWord) (s : State) : Res :=
  engineOp s [.s d.val, .tok n.val] 3 tw fun c => .next (s.enqueue c 3 (newEntry s c (.rcancel d n tw) tw []))

/-- The second register of a pair. -/
def pairReg (d : Reg) : Nat := d.val + 1

/-- `rprobe` (R256). -/
def execRprobe (d m k : Reg) (tw : TokenWord) (s : State) : Res :=
  engineOp s [.s d.val, .s (pairReg d), .s m.val, .s k.val] 3 tw fun c => withClean s c [m, k] fun _ =>
    let mv := (s.sr c m.val).val
    let kv := (s.sr c k.val).val
    withMatch s c mv kv fun _ => withEndpoint s c mv fun _ =>
      .next (s.enqueue c 3 (newEntry s c (.rprobe d m k tw) tw [mv, kv]))

/-- `ringpop` and `ringpop.w` (R259). -/
def execRingpop (d : Reg) (n : Fin 8) (w : Bool) (tw : TokenWord) (s : State) : Res :=
  engineOp s [.s d.val, .s (pairReg d)] 3 tw fun c => .next (s.enqueue c 3 (newEntry s c (.ringpop d n w tw) tw []))

/-! ### Senders (R249, R250, R253) -/

/-- Key of an operation as a pull handle names it. -/
def handleOf (core id : Nat) : Nat := core * 2 ^ 32 + id

/-- Whether an operation's consumed tokens were all done at a cycle. -/
def EngEntry.doneBy (e : EngEntry) (cycle : Nat) : Bool :=
  e.consumed.all fun r => match r.st with
    | some t => t.state == .done && decide (t.cycle ≤ cycle)
    | none => false

/-- Whether an earlier `send` of the core has to start first (R253). -/
def Core.sendBefore (k : Core) (e : EngEntry) : Bool :=
  (k.queue 3).any fun x => decide (x.serial < e.serial) && (x.op matches .send ..) && x.doneBy e.entered && e.doneBy e.entered

/-- The message that a `send` makes, with the number of its pair. -/
def messageOf (s : State) (core : Nat) (e : EngEntry) (payload : Option (List Byte)) (len : Nat) : Message :=
  let ev := e.vals.getD 0 0
  { srcPkg := s.pkg, srcEp := epField ev, dstEp := field ev 0 12, tag := field ev 32 16
    number := kget 0 s.hub.sendNo (pairKey (epField ev) (field ev 0 26)), length := len, payload := payload
    handle := handleOf core e.serial }

/-- The start of `send`: an eager payload is read; the message takes its number and leaves (R248, R249, R253). A rendezvous payload for
another package stays until that package has pulled it. The time of the reads stays with the operation (R203). -/
def startSend (s : State) (core : Nat) (e : EngEntry) : Option (State × Stage) :=
  if (s.core core).sendBefore e then none
  else
    let ev := e.vals.getD 0 0
    let runs := sendRuns e
    let len := streamBytes runs
    let free := (List.range 4096).map fun i => Config.freeByte s.free (53 * core + i)
    let f0 := s.flow core e (Nat.max e.time e.inTime) free
    let (bs, f) := if len ≤ 4096 then Flow.streamRead runs len 0 f0 else ([], f0)
    match f.bad with
    | some x => some (f.st, .finished (outcome .faulted x.code 0 f.time) false)
    | none =>
      let m := messageOf f.st core e (if len ≤ 4096 then some bs else none) len
      let key := pairKey (epField ev) (field ev 0 26)
      let s1 := { f.st with hub := { f.st.hub with sendNo := kset 0 f.st.hub.sendNo key (m.number + 1) } }
      let s2 := s1.modCore core fun k => k.setQueue 3 ((k.queue 3).map fun y => if y.serial = e.serial then { y with time := f.time } else y)
      some (s2.sendFabric (field ev 12 14) 2 (.message core e.serial m),
        if len ≤ 4096 ∨ field ev 12 14 = s.pkg then .waiting else .pulled 0 [])

/-- A sender of this package learns the outcome of its message; one elsewhere is told by a packet. -/
def State.ackSender (s : State) (m : Message) (cause bytes : Nat) : State :=
  if m.srcPkg = s.pkg then
    let core := m.handle / 2 ^ 32
    let id := m.handle % 2 ^ 32
    match (s.core core).started.find? fun x => x.id == id with
    | some x =>
      let t := Nat.max x.e.time x.e.inTime
      match x.stage with
      | .waiting => s.finish core id (if cause = 0 then outcome .done 0 bytes t else outcome .faulted cause bytes t)
      | _ => s
    | none => s
  else s.sendFabric m.srcPkg 1 (.messageAck m cause)

/-- SEND_ACKNOWLEDGED: another package's Parser has taken an eager message, with all its bytes (R249); or the destination is not reached, is
not bound, or has dropped the message, and the token faults with REMOTE (R250). No other answer comes. -/
def execSendAcknowledged (core idx cause bytes : Nat) (s : State) : Res :=
  match (s.core core).started[idx]? with
  | some x =>
    let t := Nat.max x.e.time x.e.inTime
    let failed := cause == Cause.remote.code && bytes == 0
    let taken := cause == 0 && bytes == streamBytes (sendRuns x.e)
    let out := outcome (if failed then .faulted else .done) cause bytes t
    if !(x.e.op matches .send ..) || field (x.e.vals.getD 0 0) 12 14 == s.pkg || !(failed || taken) then .next s
    else match x.stage with
      | .waiting => .next (s.finish core x.id out)
      | .pulled n _ => if failed && n == 0 then .next (s.finish core x.id out) else .next s
      | _ => .next s
  | none => .next s

/-- Keep the time of an operation with it. -/
def State.noteTime (s : State) (core id t : Nat) : State :=
  s.modCore core fun k => { k with started := k.started.map fun y =>
    if y.id = id then { y with e := { y.e with time := Nat.max y.e.time t } } else y }

/-- The next bytes of a rendezvous payload, a packet at most, of `n` bytes sent so far and bytes that have been read ahead: the bytes, those read
ahead of them, and the flow after the read, which takes every 64-byte unit of the source at one instant (R248). -/
def pullBytes (s : State) (core : Nat) (x : Started) (n len : Nat) (ahead : List Byte) : (List Byte × List Byte) × Flow :=
  let rs := sendRuns x.e
  let total := streamBytes rs
  let want := Nat.min (Nat.min 256 len) (total - n)
  let at_ := n + ahead.length
  let more := if want ≤ ahead.length then 0 else unitSpan rs at_ (want - ahead.length) total
  let free := (List.range more).map fun i => Config.freeByte s.free (61 * core + i)
  let (bs, f) := Flow.streamRead rs more at_ (s.flow core x.e (Nat.max x.e.time x.e.inTime) free)
  (((ahead ++ bs).take want, (ahead ++ bs).drop want), f)

/-- Another package pulls the next bytes of a rendezvous payload, in the context of the sender's task: they are read as they stand and sent; with
the last of them the sender's token completes, and a fault of the read ends both sides (R249, R250, R260). -/
def State.pulledBy (s : State) (pkg core len n : Nat) (ahead : List Byte) (x : Started) : State :=
  s.forTask core x.orphan fun s =>
    let ((bs, rest), f) := pullBytes s core x n len ahead
    let total := streamBytes (sendRuns x.e)
    match f.bad with
    | some e => (f.st.sendFabric pkg 1 (.refusal (handleOf core x.id) Cause.remote.code)).finish core x.id (outcome .faulted e.code 0 f.time)
    | none =>
      let s1 := (f.st.sendFabric pkg 1 (.pullData (handleOf core x.id) bs)).noteTime core x.id f.time
      if n + bs.length < total then s1.setStage core x.id (.pulled (n + bs.length) rest) else s1.finish core x.id (outcome .done 0 total f.time)

/-- A pull request of another package reaches the operation that it names. -/
def pullArrives (pkg core id len : Nat) (s : State) : Res :=
  match (s.core core).started.find? fun x => x.id == id with
  | none => .next s
  | some x =>
    match x.stage with
    | .pulled n ahead => if field (x.e.vals.getD 0 0) 12 14 ≠ pkg ∨ len = 0 then .next s else .next (s.pulledBy pkg core len n ahead x)
    | _ => .next s

/-- FABRIC_ACCESS_ARRIVAL: an access of another package enters this package's order, or pulls a payload (R204, R249). -/
def execFabricAccessArrival (src : Requester) (acc : RemoteAccess) (s : State) : Res :=
  match acc with
  | .pull core id len => pullArrives src.pkg core id len s
  | acc => serveAccess src.pkg src.ctx acc s

/-! ### Matching (R252) -/

/-- The first posted receive of an endpoint that a message matches, by place in the list. -/
def Parser.takes (p : Parser) (m : Message) : Option Nat :=
  p.posted.findIdx? fun x => x.ep == m.dstEp && matchesWords x.matchW x.maskW m

/-- The oldest unexpected message of an endpoint that match and mask words accept. -/
def Parser.finds (p : Parser) (ep : Nat) (mw kw : W64) : Option Nat :=
  p.unexpected.findIdx? fun m => m.dstEp == ep && matchesWords mw kw m

/-- A rendezvous payload is pulled from its sender: from another package by a request (R254). -/
def State.pull (s : State) (m : Message) : State :=
  if m.payload.isNone && m.srcPkg != s.pkg then s.sendFabric m.srcPkg 0 (.pull m) else s

/-- The oldest message of a pair that is next in number order, by place in the reorder buffer (R253). -/
def Parser.nextOf (p : Parser) (src dst : Nat) : Option Nat :=
  p.reorder.findIdx? fun m => srcOf m == src && m.dstEp == dst && m.number == kget 0 p.expected (pairKey dst src)

/-- Bytes in the eager store (R247). -/
def Parser.stored (p : Parser) : Nat := (p.unexpected.map fun m => (m.payload.map List.length).getD 0).foldl (· + ·) 0

/-- Remove from the fabric queues a message of this package to itself; `none` when it is not there. -/
def takeLocal (s : State) (m : Message) : Option State :=
  match s.fabricOut.findIdx? fun p => p.pkg == s.pkg && match p.item with | .message _ _ x => x == m | _ => false with
  | some i => some { s with fabricOut := s.fabricOut.eraseIdx i }
  | none => none

/-- Whether a Parser takes a message from the wire: it has credit while its unexpected entries and its eager store have room (R260), and the
pair's reorder buffer holds at most 64 messages that are early (R253). -/
def Parser.credit (p : Parser) (m : Message) : Bool :=
  let next (x : Message) : Bool := x.number == kget 0 p.expected (pairKey x.dstEp (srcOf x))
  let early := p.reorder.filter fun x => srcOf x == srcOf m && x.dstEp == m.dstEp && !next x
  decide (p.unexpected.length < 2048) && decide (p.stored + (m.payload.map List.length).getD 0 ≤ 4194304) &&
    (next m || decide (early.length < 64))

/-- MESSAGE_ARRIVAL: a message reaches its Parser's reorder buffer, when the Parser has credit for it (R250, R253, R260). -/
def execMessageArrival (col : Nat) (msg : Message) (s : State) : Res :=
  let s1 := if msg.srcPkg = s.pkg then takeLocal s msg else some s
  match s1 with
  | none => .next s
  | some t =>
    let ep := t.endpoint msg.dstEp
    if !ep.valid then .next (t.ackSender msg Cause.remote.code 0)
    else if ep.col ≠ col then .next s
    else
      let p := t.parser col
      if p.credit msg then .next (t.setParser col { p with reorder := p.reorder ++ [msg] }) else .next s

/-- MESSAGE_PRESENTED: the next message of a pair takes the first receive that matches it, or joins the unexpected queue
while there is room (R252, R253, R260). -/
def execMessagePresented (col src dst : Nat) (s : State) : Res :=
  let p := s.parser col
  match p.nextOf src dst with
  | none => .next s
  | some i =>
    match p.reorder[i]? with
    | none => .next s
    | some m =>
      let p1 := { p with reorder := p.reorder.eraseIdx i
                         expected := kset 0 p.expected (pairKey dst src) (m.number + 1) }
      match p.takes m with
      | some j =>
        match p.posted[j]? with
        | some x => .next ((s.setParser col { p1 with
            posted := p1.posted.eraseIdx j
            landing := p1.landing ++ [{ x with landing := some m, landed := 0, ack := m.payload.isSome }] }).pull m)
        | none => .next s
      | none =>
        if 2048 ≤ p.unexpected.length ∨ 4194304 < p.stored + (m.payload.map List.length).getD 0 then .next s
        else
          let s1 := s.setParser col { p1 with unexpected := p1.unexpected ++ [m] }
          .next (if m.payload.isSome then s1.ackSender m 0 m.length else s1)

/-! ### Receives (R251, R252) -/

/-- The start of `rpost`: the oldest unexpected message that matches, else the tail of the posted list; it waits while the
Parser has no free entry. -/
def startRpost (s : State) (core : Nat) (e : EngEntry) : Option (State × Stage) :=
  let col := colOf core
  let p := s.parser col
  let mw := e.vals.getD 0 0
  let kw := e.vals.getD 1 0
  let env := match e.op with
    | .rpost _ _ _ _ v _ => if v.val = 0 then none else some (e.vals.getD 4 0)
    | _ => none
  let x : Posted :=
    { ep := epField mw, matchW := mw, maskW := kw, shape := (e.recs.getD 0 (0, [])).2, tile := e.val 3, env := env, core := core
      startedId := e.serial, landing := none, landed := 0, ack := false }
  if 2048 ≤ p.posted.length + p.landing.length then none
  else match p.finds (epField mw) mw kw with
    | some i =>
      match p.unexpected[i]? with
      | some m =>
        some ((s.setParser col { p with
          unexpected := p.unexpected.eraseIdx i
          landing := p.landing ++ [{ x with landing := some m }] }).pull m, .waiting)
      | none => none
    | none => some (s.setParser col { p with posted := p.posted ++ [x] }, .waiting)

/-- Results for registers that an operation writes, with its outcome (R256, R307). -/
def withRegs (o : Outcome) (regs : List (Nat × W64)) : Outcome := { o with regs := regs }

/-- The start of `rcancel` (R256). -/
def startRcancel (s : State) (core d n : Nat) (e : EngEntry) : State × Stage :=
  let col := colOf core
  let p := s.parser col
  let t := Nat.max e.time e.inTime
  let done (v : W64) : Stage := .finished (withRegs (outcome .done 0 0 t) [(d, v)]) false
  let mine (x : Posted) : Bool := x.core == core && (s.core core).started.any fun y => y.id == x.startedId && y.orphan.isNone && y.e.prod == n
  match p.posted.findIdx? mine with
  | none => (s, done 0)
  | some i =>
    match p.posted[i]? with
    | none => (s, done 0)
    | some x =>
      let s1 := s.setParser col { p with posted := p.posted.eraseIdx i }
      (s1.finish core x.startedId (outcome .cancelled 0 0 t), done 1)

/-- The start of `rprobe` (R256). -/
def startRprobe (s : State) (core d : Nat) (e : EngEntry) : State × Stage :=
  let p := s.parser (colOf core)
  let mw := e.vals.getD 0 0
  let t := Nat.max e.time e.inTime
  let found := (p.finds (epField mw) mw (e.vals.getD 1 0)).bind fun i => p.unexpected[i]?
  let (a, b) : W64 × W64 := match found with
    | some m => (BitVec.ofNat 64 (srcOf m + m.tag * 2 ^ 32 + 2 ^ 63), BitVec.ofNat 64 m.length)
    | none => (0, 0)
  (s, .finished (withRegs (outcome .done 0 0 t) [(d, a), (d + 1, b)]) false)

/-- Whether a ring's record lies in another package that does not answer (R297). -/
def ringLost (s : State) (p : Place) : Bool :=
  match p with
  | .far k _ => s.lost k
  | _ => false

/-- The start of `ringpop`: a ring without a base faults, an empty one answers or waits, else the oldest record is taken and
observed (R259). A record in another package is not in the model's state: its bytes are free (log 12). -/
def startRingpop (s : State) (core d n : Nat) (w : Bool) (e : EngEntry) : Option (State × Stage) :=
  let ctx := (s.core core).ctx
  let ix := ringIx ctx (colOf core) n
  let r := kget .unset s.hub.rings ix
  let t := Nat.max e.time e.inTime
  let none_ : List (Nat × W64) := [(d, 0xC0), (d + 1, 0)]
  if !r.valid then some (s, .finished (withRegs (outcome .faulted Cause.record.code 0 t) none_) false)
  else if r.head = r.tail then
    if w then none else some (s, .finished (withRegs (outcome .done 0 0 t) none_) false)
  else
    match hubPlace s ctx (colOf core) (r.base + BitVec.ofNat 64 (16 * (r.head % r.size))) 16 .read with
    | .error x => some (s, .finished (withRegs (outcome .faulted x.code 0 t) none_) false)
    | .ok p =>
      if ringLost s p then some (s, .finished (withRegs (outcome .faulted Cause.remote.code 0 t) none_) false) else
      let (bs, rt, s1) := s.engReadAt t (s.core core).lease p 16
      let at_ := leAt bs 8 8
      let s2 := { s1 with hub := { s1.hub with rings := kput s1.hub.rings ix { r with head := r.head + 1 } } }
      let s3 := s2.modCore core fun k => k.raise at_
      some (s3, .finished (withRegs (outcome .done 0 0 (Nat.max t (Nat.max rt at_)))
        [(d, BitVec.ofNat 64 (leAt bs 0 8)), (d + 1, BitVec.ofNat 64 at_)]) false)

/-! ### Landing (R254, R255) -/

/-- The landing tile's stream. -/
def Posted.runs (x : Posted) : List LocRun := (readShape x.shape).tileRuns x.tile

/-- Whether the Parser holds a landing: its posting core's A-buffer is pre-empted (R255). -/
def heldLanding (s : State) (x : Posted) : Bool :=
  (bits (readShape x.shape).base.toNat 60 4 == 9 && s.preempted x.core) ||
    (s.ms.migration.isSome && x.runs.any fun r => (List.range r.n).any fun q => movingAt s x.core (r.at_ q).addr)

/-- Write the next bytes of a payload into the landing tile, in order, as far as its capacity goes and up to the first byte whose
write faults; and how many have been written (R254). -/
def landBytes (x : Posted) (bs : List Byte) (f0 : Flow) : Flow × Nat :=
  let s := f0.st
  let runs := x.runs
  let fit := bs.take (streamBytes runs - x.landed)
  let ms := fit.mapIdx fun i b => streamMoves runs (x.landed + i) b
  let n := (ms.findIdx? fun m => (writeFault s x.core m).isSome).getD ms.length
  let f := (writeRuns (joinMoves (ms.take n).flatten)).foldl Flow.writeRun f0
  ({ f with bad := (ms[n]?).bind (writeFault s x.core) }, n)

/-- The operation that posted a receive. -/
def postedOp (s : State) (x : Posted) : Option Started := (s.core x.core).started.find? fun y => y.id == x.startedId

/-- The time that a landing has come to. -/
def landTime (s : State) (x : Posted) : Nat := ((postedOp s x).map fun y => Nat.max y.e.time y.e.inTime).getD 0

/-- A receive ends: its outcome carries the message's tag (R257). -/
def State.endReceive (s : State) (col idx : Nat) (x : Posted) (m : Message) (st : TokState) (cause bytes t : Nat) : State :=
  let p := s.parser col
  (s.setParser col { p with landing := p.landing.eraseIdx idx }).finish x.core x.startedId
    { outcome st cause bytes t with tag := m.tag }

/-- Bytes of a stream that have landed. -/
def landedBytes (x : Posted) : Nat := Nat.min x.landed (streamBytes x.runs)

/-- The next bytes of a rendezvous payload that a sender of this package supplies, a packet and what else the last 64-byte unit holds (R248), read in
the context of its task: its bytes, the time and the state after the read, or the fault of the read. -/
def pullLocal (s : State) (x : Posted) (m : Message) : Except Cause (List Byte × Nat × State) :=
  let core := m.handle / 2 ^ 32
  match (s.core core).started.find? fun y => y.id == m.handle % 2 ^ 32 with
  | none => .error .remote
  | some y =>
    let rs := sendRuns y.e
    let n := unitSpan rs x.landed (Nat.min 256 (m.length - x.landed)) m.length
    let free := (List.range n).map fun i => Config.freeByte s.free (59 * core + i)
    let read (s : State) : List Byte × Flow := Flow.streamRead rs n x.landed (s.flow core y.e (Nat.max y.e.time y.e.inTime) free)
    let (bs, f) := read (s.setCtx core (y.orphan.getD (s.core core).ctx))
    match f.bad with
    | some e => .error e
    | none => .ok (bs, f.time, (f.st.setCtx core (s.core core).ctx).noteTime core y.id f.time)

/-- RENDEZVOUS_DATA_ARRIVAL: a packet of a pulled payload arrives and lands (R249, R250, R254). A fault of the source ends both
sides; of a landing that has faulted the rest is pulled and discarded. -/
def execRendezvousDataArrival (col idx : Nat) (data : List Byte) (fault : Bool) (s : State) : Res :=
  let p := s.parser col
  match p.landing[idx]? with
  | none => .next s
  | some x =>
    match x.landing, postedOp s x with
    | some m, some y =>
      if m.payload.isSome || m.length ≤ x.landed || heldLanding s x then .next s
      else
        let got : Except Cause (List Byte × Nat × State) :=
          if m.srcPkg = s.pkg then pullLocal s x m
          else if fault then .error .remote else .ok (data.take (m.length - x.landed), 0, s)
        match got with
        | .error e =>
          let s1 := s.endReceive col idx x m .faulted Cause.remote.code (landedBytes x) (landTime s x)
          .next (if m.srcPkg = s.pkg then s1.ackSender m e.code 0 else s1)
        | .ok (bs, rt, s) => .next (s.forTask x.core y.orphan fun s =>
            let (f, n) := landBytes x bs (s.flow x.core y.e (Nat.max rt (landTime s x)) [])
            match f.bad with
            | some e => (f.st.endReceive col idx x m .faulted e.code (landedBytes x + n) f.time).ackSender m 0 m.length
            | none =>
              let q := f.st.parser col
              let s1 := f.st.setParser col { q with landing := q.landing.set idx { x with landed := x.landed + bs.length } }
              s1.noteTime x.core x.startedId f.time)
    | _, _ => .next s

/-- The envelope that a landing writes (R254). -/
def envelopeBytes (m : Message) : List Byte := leBytes 8 (srcOf m + m.tag * 2 ^ 32)

/-- The end of a landing whose payload is complete: what is left of it lands, the envelope is written, and the receive completes (R254). -/
def State.endLanding (s : State) (col idx : Nat) (x : Posted) (m : Message) (y : Started) : State :=
  let cap := streamBytes x.runs
  let (f, done) := landBytes x (m.payload.getD []) (s.flow x.core y.e (landTime s x) [])
  let ack (s : State) : State := if x.ack || m.payload.isNone then s.ackSender m 0 m.length else s
  match f.bad with
  | some e => ack (f.st.endReceive col idx x m .faulted e.code (landedBytes x + done) f.time)
  | none =>
    let g := match x.env with
      | some a => f.write a (envelopeBytes m)
      | none => f
    let n := Nat.min m.length cap
    match g.bad with
    | some e => ack (g.st.endReceive col idx x m .faulted e.code n g.time)
    | none =>
      if cap < m.length then ack (g.st.endReceive col idx x m .faulted Cause.record.code cap g.time)
      else ack (g.st.endReceive col idx x m .done 0 n g.time)

/-- LANDING_COMPLETE: the payload has landed; the envelope is written and the receive completes (R254). An eager payload lands
here in one step. It lands in the context of the task that posted the receive (R31). -/
def execLandingComplete (col idx : Nat) (s : State) : Res :=
  let p := s.parser col
  match p.landing[idx]? with
  | none => .next s
  | some x =>
    match x.landing, postedOp s x with
    | some m, some y =>
      if heldLanding s x || (m.payload.isNone && decide (x.landed < m.length)) then .next s
      else .next (s.forTask x.core y.orphan fun s => s.endLanding col idx x m y)
    | _, _ => .next s

/-! ### Binding (R247) -/

/-- Drop what an endpoint holds when it is bound again (R247): posted receives become cancelled; dropped messages that were not
acknowledged fault their senders. -/
def dropEndpoint (ep : Nat) (s : State) : State :=
  let col := (s.endpoint ep).col
  let p := s.parser col
  let gone := p.posted.filter fun x => x.ep == ep
  let dropped := (p.unexpected.filter fun m => m.dstEp == ep && m.payload.isNone) ++ p.reorder.filter fun m => m.dstEp == ep
  let flying := s.fabricOut.filterMap fun y => match y.item with
    | .message _ _ m => if y.pkg = s.pkg ∧ m.dstEp = ep then some m else none
    | _ => none
  let s1 := s.setParser col { p with
    posted := p.posted.filter fun x => x.ep != ep
    unexpected := p.unexpected.filter fun m => m.dstEp != ep
    reorder := p.reorder.filter fun m => m.dstEp != ep }
  let s2 := { s1 with fabricOut := s1.fabricOut.filter fun y => match y.item with
    | .message _ _ m => !(y.pkg == s.pkg && m.dstEp == ep)
    | _ => true }
  let s3 := gone.foldl (fun s x => s.finish x.core x.startedId (outcome .cancelled 0 0 (landTime s x))) s2
  (dropped ++ flying).foldl (fun s m => s.ackSender m Cause.remote.code 0) s3

/-- Receives on an endpoint that a core has dispatched and its engine has not started end cancelled (R247). -/
def Core.cancelPosts (k : Core) (ep : Nat) : Core :=
  let hit (e : EngEntry) : Bool := (e.op matches .rpost ..) && epField (e.vals.getD 0 0) == ep
  let behind := k.slips.filterMap fun x => match x.op with
    | .enter _ e => if hit e then some e else none
    | _ => none
  let gone := (k.queue 3).filter hit ++ behind
  if gone.isEmpty then k
  else
    { k.setQueue 3 ((k.queue 3).filter fun e => !hit e) with
      slips := k.slips.filter fun x => match x.op with
        | .enter _ e => !hit e
        | _ => true
      started := k.started ++ gone.map fun e => { id := e.serial, e := e, stage := .finished (outcome .cancelled 0 0 (Nat.max e.time e.inTime)) false, orphan := none } }

/-- Every receive pending on an endpoint in the cores' queues ends cancelled. -/
def cancelPosts (ep : Nat) (s : State) : State :=
  let s1 : State := { s with cores := s.cores.map fun x => (x.1, x.2.cancelPosts ep) }
  (s.cores.map fun x => x.1).foldl (fun s i => s.returnSpill i 3) s1

/-- The pair counts and the reorder buffers restart when either endpoint is bound: messages of the endpoint that wait there for earlier ones, or are
on their way to a Parser of this package, are lost like those that it held (R247, R250). -/
def restartPairs (ep : Nat) (s : State) : State :=
  let mine (k : Nat) : Bool := k / 2 ^ 26 == ep || k % 2 ^ 26 == s.epAddr ep
  let sent (m : Message) : Bool := srcOf m == s.epAddr ep
  let lost := (s.hub.parsers.flatMap fun x => x.2.reorder.filter sent) ++ s.fabricOut.filterMap fun y => match y.item with
    | .message _ _ m => if y.pkg = s.pkg ∧ sent m then some m else none
    | _ => none
  let s1 := { s with
    fabricOut := s.fabricOut.filter fun y => match y.item with
      | .message _ _ m => !(y.pkg == s.pkg && sent m)
      | _ => true
    hub := { s.hub with
      sendNo := s.hub.sendNo.filter fun e => !mine e.1
      parsers := s.hub.parsers.map fun x => (x.1, { x.2 with
        expected := x.2.expected.filter fun e => !mine e.1
        reorder := x.2.reorder.filter fun m => !sent m }) } }
  lost.foldl (fun s m => s.ackSender m Cause.remote.code 0) s1

/-- ENDPOINT_BIND: firmware binds an endpoint to a context and a column (R247). -/
def execEndpointBind (ep : Nat) (valid : Bool) (ctx col : Nat) (s : State) : Res :=
  if 4096 ≤ ep then .next s
  else
    let s1 := restartPairs ep (cancelPosts ep (dropEndpoint ep s))
    let e : Endpoint := if valid then { valid := true, ctx := ctx % 65536, col := col % 8 } else .unbound
    .next { s1 with hub := { s1.hub with endpoints := kset .unbound s1.hub.endpoints ep e } }

end Sys2Proof.Machine
end

