-- ==== Sys2Proof/Machine/Launch.lean ====
section
/-!
DEFINITION. Launches: descriptors and image headers, enqueue, the pool and the priority walk (R16 to R26, R59, R60, R234 to
R239, R289 to R293), and how a launch ends.
-/
namespace Sys2Proof.Machine

/-! ### Front-end accesses to a context's memory -/

/-- A firmware event of the front end, source 1 (R142). Which firmware core takes it is not stated: a free choice. -/
def State.feEvent (s : State) (cause : Nat) : State := s.report (Config.freeNat s.free 211 % 8) 1 cause 0

/-- The pieces of `n` bytes from an address that lie within one line each; the first number bounds them. -/
def linePieces : Nat → Nat → Nat → List (Nat × Nat)
  | 0, _, _ => []
  | f + 1, a, n =>
    if n = 0 then []
    else
      let k := Nat.min (64 - a % 64) n
      (a, k) :: linePieces f (a + k) (n - k)

/-- What a front-end access has come to. -/
structure HubFlow where
  st : State
  time : Nat
  data : List Byte
  bad : Option Cause
  deriving DecidableEq, Repr

/-- Whether an address is a global one (R153). -/
def isGlobal (a : W64) : Bool := field a 57 7 == 0

/-- REMOTE, when a place stands in a package that does not answer (R297, log 12). -/
def State.lostAt (s : State) (p : Place) : Option Cause :=
  match p with
  | .far k _ => if s.lost k then some .remote else none
  | .buf .. | .phys _ => none

/-- Why `n` bytes at a place cannot be read: REMOTE, or UNCORRECTABLE where their data are spoilt (R297, R333). -/
def State.lostOrSpoilt (s : State) (p : Place) (n : Nat) : Option Cause :=
  if (s.ms.spoiltAt p n).isSome then some .uncorrectable else s.lostAt p

/-- Read a piece of a line as an engine does (R203). Bytes of another package are asked for (R204): they are free, and a package that does not
answer is REMOTE (R297). -/
def HubFlow.piece (f : HubFlow) (q : Place) (n : Nat) : HubFlow :=
  let (bs, t, s1) := f.st.engRead f.time q n
  let s2 := match q with
    | .far k x => s1.sendFabric k 0 (.access 65535 0 (.load x n 0))
    | .buf .. | .phys _ => s1
  { f with st := s2, time := Nat.max f.time t, data := f.data ++ bs, bad := f.st.lostOrSpoilt q n }

/-- Read `n` bytes at a global address of a context. -/
def hubRead (s : State) (ctx : Nat) (a : W64) (n : Nat) : HubFlow :=
  (linePieces (n / 64 + 2) a.toNat n).foldl (fun (f : HubFlow) p =>
    if f.bad.isSome then f
    else match hubPlace f.st ctx 0 (BitVec.ofNat 64 p.1) p.2 .read with
      | .error e => { f with bad := some e }
      | .ok q => f.piece q p.2)
    { st := s, time := 0, data := [], bad := if isGlobal a then none else some .addressSpace }

/-- Write bytes that lie within one line at a global address of a context as an engine does (R203, R204). -/
def hubWrite (s : State) (ctx : Nat) (a : W64) (bs : List Byte) (floor : Nat) : HubFlow :=
  let f : HubFlow := { st := s, time := floor, data := [], bad := none }
  if !isGlobal a then { f with bad := some .addressSpace }
  else match hubPlace s ctx 0 a bs.length .write with
    | .error e => { f with bad := some e }
    | .ok q =>
      let (s1, t) := s.hubStore ctx a floor q bs
      { f with st := s1, time := t, bad := s.lostAt q }

/-! ### Image headers (R59, R60) -/

/-- Whether all bytes of a range are zero. -/
def zeroAt (bs : List Byte) (o n : Nat) : Bool := leAt bs o n == 0

/-- The counts and sizes of a header. -/
def readHeader (bs : List Byte) : Header :=
  { text := leAt bs 8 4, data := leAt bs 12 4, sregs := leAt bs 16 1, vregs := leAt bs 17 1, tokens := leAt bs 18 1
    barriers := leAt bs 19 1, flags := leAt bs 20 1, grids := leAt bs 21 1, wbuf := leAt bs 24 4, abuf := leAt bs 28 4
    rbuf := leAt bs 32 4, routes := leAt bs 36 4, replay := leAt bs 6 1 % 2 == 1 }

/-- Whether a header keeps every rule of R59. -/
def headerOk (bs : List Byte) : Bool :=
  let h := readHeader bs
  leAt bs 0 4 == 0x544D514E && leAt bs 4 2 == 1 && leAt bs 6 2 < 2 && decide (1 ≤ h.text ∧ h.text ≤ 16384) &&
    decide (h.data ≤ h.abuf) && decide (1 ≤ h.sregs ∧ h.sregs ≤ 64) && h.vregs ≤ 64 && h.tokens ≤ 63 && h.barriers ≤ 16 &&
    h.flags ≤ 32 && h.grids ≤ 8 && zeroAt bs 22 2 && h.wbuf ≤ 196608 && h.abuf ≤ 131072 && h.rbuf ≤ 65536 &&
    h.routes % 8 == 0 && zeroAt bs 40 24

/-- hlim as the front end loads it (R61, R137). -/
def Header.limits (h : Header) : W64 :=
  BitVec.ofNat 64 (h.sregs + h.vregs * 2 ^ 7 + h.tokens * 2 ^ 14 + h.barriers * 2 ^ 20 + h.flags * 2 ^ 25 + h.grids * 2 ^ 31 +
    ceilDiv h.wbuf 1024 * 2 ^ 35 + ceilDiv h.abuf 1024 * 2 ^ 43 + ceilDiv h.rbuf 1024 * 2 ^ 51)

/-! ### Routes (R289 to R293) -/

/-- A route-list entry: source and destination core, start slot, length, turn string, and its reserved bytes. -/
structure Route where
  src : Nat
  dst : Nat
  slot : Nat
  len : Nat
  turns : Nat
  zeros : Bool
  deriving DecidableEq, Repr

/-- The entries of a route list for a gang; a rank beyond the gang names no core. -/
def readRoutes (gang : List Nat) (bs : List Byte) : List Route :=
  (List.range (ceilDiv bs.length 16)).map fun i =>
    let e := bs.drop (16 * i)
    { src := gang.getD (leAt e 0 2) 65535, dst := gang.getD (leAt e 2 2) 65535, slot := leAt e 4 1, len := leAt e 6 1
      turns := leAt e 8 8, zeros := zeroAt e 5 1 && zeroAt e 7 1 }

/-- The core beyond a mesh port of a core (R8, R289). -/
def meshNext (core port : Nat) : Option Nat :=
  let n := core % 128
  if port = 1 then (if 16 ≤ n then some (core - 16) else none)
  else if port = 2 then (if n % 16 < 15 then some (core + 1) else none)
  else if port = 3 then (if n / 16 < 7 then some (core + 16) else none)
  else if port = 4 then (if 1 ≤ n % 16 then some (core - 1) else none)
  else none

/-- The input port that faces an output port. -/
def facing (port : Nat) : Nat := if port = 1 then 3 else if port = 2 then 4 else if port = 3 then 1 else 2

/-- The output that a turn code takes for a flit that moves in a direction (R291). -/
def turned (dir code : Nat) : Nat :=
  if code = 1 then (dir + 2) % 4 + 1 else if code = 2 then dir % 4 + 1 else dir

/-- The hops of a route from a router on: router, input, output. `none` when it leaves the mesh or does not eject within the codes
left; codes after its eject are ignored (R291, R293). -/
def routeHops (dst : Nat) : Nat → Nat → Nat → Nat → Option (List (Nat × Nat × Nat))
  | 0, _, _, _ => none
  | n + 1, core, dir, codes =>
    let code := codes % 4
    if code = 3 then
      some [(core, facing dir, if dst / 128 ≠ core / 128 ∧ core % 16 = 0 then 4 else 0)]
    else
      let out := turned dir code
      match meshNext core out with
      | none => none
      | some next => (routeHops dst n next out (codes / 4)).map fun hs => (core, facing dir, out) :: hs

/-- Every hop of a route, its source first. -/
def Route.hops (r : Route) : Option (List (Nat × Nat × Nat)) :=
  let p := bits r.turns 0 3
  if bits r.turns 3 1 = 1 then none
  else match meshNext r.src p with
    | none => none
    | some next => (routeHops r.dst 30 next p (r.turns / 16)).map fun hs => (r.src, 0, p) :: hs

/-- Whether two reservations of one router's output for different inputs meet in a slot. -/
def hopsClash (a b : Route) : Bool :=
  let xs := (a.hops.getD []).mapIdx fun h x => ((a.slot + h) % 256, x)
  let ys := (b.hops.getD []).mapIdx fun h y => ((b.slot + h) % 256, y)
  xs.any fun x => ys.any fun y =>
    x.2.1 == y.2.1 && x.2.2.2 == y.2.2.2 && x.2.2.1 != y.2.2.1 &&
      (decide ((y.1 + 256 - x.1) % 256 < a.len) || decide ((x.1 + 256 - y.1) % 256 < b.len))

/-- Whether some pair of a list is related. -/
def anyPair {α : Type} (f : α → α → Bool) : List α → Bool
  | [] => false
  | x :: xs => xs.any (f x) || anyPair f xs

/-- Whether a route list breaks a rule of R293. -/
def routesBad (gang : List Nat) (rs : List Route) : Bool :=
  rs.any (fun r => !r.zeros || r.len == 0 || match r.hops with
    | none => true
    | some hs => hs.any fun h => !gang.contains h.1) ||
  anyPair (fun a b => (a.src == b.src && a.dst == b.dst) || hopsClash a b) rs

/-! #### Routes between two cores (R292) -/

/-- The ports that lead along a row, then along a column, from a core to another of its cluster; off the cluster along the row to position
0 (R292). -/
def defaultPorts (src dst : Nat) : List Nat :=
  let x := src % 16
  let y := src % 128 / 16
  if src / 128 ≠ dst / 128 then List.replicate x 4
  else
    let u := dst % 16
    let v := dst % 128 / 16
    (if x < u then List.replicate (u - x) 2 else List.replicate (x - u) 4) ++
      (if y < v then List.replicate (v - y) 3 else List.replicate (y - v) 1)

/-- The hops from a router on through ports; the last router ejects to `out`. -/
def portHops (out : Nat) : Nat → Nat → List Nat → List (Nat × Nat × Nat)
  | core, came, [] => [(core, came, out)]
  | core, came, p :: ps => (core, came, p) :: portHops out ((meshNext core p).getD core) (facing p) ps

/-- Whether the hops of a route cross a retired router, a retired cluster link, or the router of a retired core that is neither its source nor its
destination (R292, R334). -/
def crosses (retired : List UnitId) (src dst : Nat) (hs : List (Nat × Nat × Nat)) : Bool :=
  hs.any fun h => (h.1 != src && h.1 != dst && retired.contains (.userCore h.1)) ||
    retired.contains (.router h.1) || retired.contains (.clusterLink h.1 h.2.2) ||
    match meshNext h.1 h.2.2 with
    | some n => retired.contains (.clusterLink n (facing h.2.2))
    | none => false

/-- The turn codes of ports after one in direction `dir`, with the eject; a flit does not turn back (R291). -/
def turnCodes : Nat → List Nat → Option Nat
  | _, [] => some 3
  | dir, p :: ps => ((List.range 3).find? fun c => turned dir c == p).bind fun c => (turnCodes p ps).map fun v => c + 4 * v

/-- The turn string of ports (R291). -/
def turnsOf (ps : List Nat) : Option Nat :=
  match ps with
  | [] => none
  | p :: rest => if 29 < rest.length then none else (turnCodes p rest).map fun v => p + 16 * v

/-- The turn strings that lead around what is retired: the default ways to a core of the cluster and from it on. -/
def detours (retired : List UnitId) (src dst : Nat) : List Nat :=
  ((List.range 128).filterMap fun i =>
      turnsOf (defaultPorts src (src / 128 * 128 + i) ++ defaultPorts (src / 128 * 128 + i) dst)).filter fun v =>
    match ({ src := src, dst := dst, slot := 0, len := 1, turns := v, zeros := true } : Route).hops with
    | some hs => !crosses retired src dst hs
    | none => false

/-- A turn string that the front end regenerates around what is retired: which of them is not stated (log 23). -/
def reroute (retired : List UnitId) (src dst : Nat) : Option Nat :=
  let vs := detours retired src dst
  vs[Config.detour retired.length src dst % vs.length]?

/-- The default route of a request; one that crosses what is retired is regenerated (R292). -/
def defaultRoute (retired : List UnitId) (src dst : Nat) : List (Nat × Nat × Nat) :=
  let hs := portHops (if src / 128 = dst / 128 then 0 else 4) src 0 (defaultPorts src dst)
  match if crosses retired src dst hs then reroute retired src dst else none with
  | some v => ({ src := src, dst := dst, slot := 0, len := 1, turns := v, zeros := true } : Route).hops.getD hs
  | none => hs

/-- The route of a request between two cores: the listed one, or the default route (R292). -/
def State.requestRoute (s : State) (src dst : Nat) : List (Nat × Nat × Nat) :=
  match s.rt.routes.find? fun x => x.1 == src && x.2.1 == dst with
  | some x => ({ src := src, dst := dst, slot := 0, len := 1, turns := x.2.2.toNat, zeros := true } : Route).hops.getD []
  | none => defaultRoute s.hub.retired src dst

/-- The route of the response to a request from `src` to `dst` (R292). -/
def State.responseRoute (s : State) (src dst : Nat) : List (Nat × Nat × Nat) := s.requestRoute dst src

/-- A listed route as a release loads it: regenerated when it crosses what is retired (R292). -/
def Route.around (r : Route) (retired : List UnitId) : Route :=
  if crosses retired r.src r.dst (r.hops.getD []) then { r with turns := (reroute retired r.src r.dst).getD r.turns } else r

/-- The slot table of a core's router under a route list: 256 entries of five bytes (R290, R293). -/
def routerTable (rs : List Route) (core : Nat) : List Byte :=
  let uses := rs.flatMap fun r => ((r.hops.getD []).mapIdx fun h x => ((r.slot + h) % 256, r.len, x)).filter fun u => u.2.2.1 == core
  (List.range 1280).map fun i =>
    match uses.find? fun u => u.2.2.2.2 == i % 5 && decide ((i / 5 + 256 - u.1) % 256 < u.2.1) with
    | some u => BitVec.ofNat 8 u.2.2.2.1
    | none => 0xFF

/-- A slot table whose outputs are all free. -/
def freeTable (ports : Nat) : List Byte := List.replicate (256 * ports) 0xFF

/-! ### Launch descriptors (R236, R237) -/

/-- The gang of a descriptor: its range, or the bits of its bitmap. -/
def readGang (bs bitmap : List Byte) : List Nat :=
  if leAt bs 23 1 = 0 then (List.range (leAt bs 26 2)).map fun i => leAt bs 24 2 + i
  else (List.range 2048).filter fun i => bits (leAt bitmap (i / 8) 1) (i % 8) 1 == 1

/-- The fields of a descriptor; its predecessors as they stand. -/
def readDesc (bs bitmap head : List Byte) : LaunchDesc :=
  { image := leAt bs 0 8, entry := leAt bs 8 4, x := leAt bs 12 2, y := leAt bs 14 2, z := leAt bs 16 2, dist := leAt bs 18 1
    slotFlag := bits (leAt bs 19 1) 0 1 == 1, handlerValid := bits (leAt bs 19 1) 1 1 == 1, minchunk := leAt bs 20 2
    prio := leAt bs 22 1, gang := readGang bs bitmap, flagWord := BitVec.ofNat 32 (leAt bs 28 4), handler := leAt bs 40 4
    preds := (List.range (leAt bs 44 4 % 16)).map fun i => leAt bs (64 + 8 * i) 8
    doneWord := leAt bs 48 8, hdr := readHeader head }

/-- Whether a predecessor entry breaks a rule of R237. Its entry has 8 bytes; that bits [63:32] must be zero is a DESIGN CHOICE (log 23). -/
def predBad (e : Nat) : Bool := e / 2 ^ 32 != 0 || (bits e 31 1 == 1 && (bits e 16 15 != 0 || bits e 0 16 == 0))

/-- Whether a descriptor breaks a rule that its 128 bytes show (R236). -/
def descBad (bs : List Byte) : Bool :=
  let n := leAt bs 44 4
  let form := leAt bs 23 1
  let first := leAt bs 24 2
  let count := leAt bs 26 2
  !isGlobal (BitVec.ofNat 64 (leAt bs 0 8)) || leAt bs 0 8 % 64 != 0 || leAt bs 12 2 == 0 || leAt bs 14 2 == 0 ||
    leAt bs 16 2 == 0 || leAt bs 18 1 > 2 || leAt bs 19 1 > 3 || (leAt bs 18 1 != 0 && leAt bs 20 2 == 0) ||
    leAt bs 22 1 > 7 || form > 1 ||
    (form == 0 && (decide (2048 < first + count) || count == 0 || !zeroAt bs 32 8)) ||
    (form == 1 && !(zeroAt bs 24 4)) || n > 8 || leAt bs 48 8 % 8 != 0 || !zeroAt bs 56 8 ||
    (List.range 8).any (fun i => if i < n then predBad (leAt bs (64 + 8 * i) 8) else !zeroAt bs (64 + 8 * i) 8)

/-- What a predecessor entry names, with the launches that relative entries count (R237): nothing, a launch that failed at
enqueue, or an identifier. -/
def namedBy (hist : List (Option Nat)) (e : Nat) : Option (Option Nat) :=
  if bits e 31 1 = 0 then some (some e)
  else
    let k := bits e 0 16
    if k ≤ hist.length then hist[hist.length - k]? else none

/-- The predecessor identifiers of a descriptor. -/
def predIds (hist : List (Option Nat)) (d : LaunchDesc) : List Nat := d.preds.filterMap fun e => (namedBy hist e).join

/-- Whether a descriptor names by a relative entry a launch that failed at enqueue. -/
def namesFailed (hist : List (Option Nat)) (d : LaunchDesc) : Bool := d.preds.any fun e => namedBy hist e == some none

/-! ### Enqueue (R238) -/

/-- What the checks of an enqueue find: the cause of a failure, or the descriptor with its predecessors as identifiers and
whether the launch is cancelled at its enqueue (R237); and the done word, once the descriptor has been read. -/
structure Vetted where
  st : State
  desc : Except Cause (LaunchDesc × Bool)
  done : Nat

/-- The done word that a launch which fails counts in: that of a descriptor that could be read, 8-byte aligned (R238, log 23). -/
def descDone (bs : List Byte) : Nat := if leAt bs 48 8 % 8 = 0 then leAt bs 48 8 else 0

/-- The checks of R238 on a descriptor address, in their order. A launch that fails before its descriptor has been read, for context 0 or at a misaligned
address, counts no done word: DESIGN CHOICE (log 23). -/
def vetLaunch (s : State) (ctx : Nat) (a : W64) (hist : List (Option Nat)) (device : Bool) : Vetted :=
  if ctx = 0 then { st := s, desc := .error .protection, done := 0 }
  else
    let f1 := hubRead s ctx a 128
    let bs := f1.data
    if f1.bad.isSome || a.toNat % 64 != 0 then { st := f1.st, desc := .error .record, done := 0 }
    else if descBad bs then { st := f1.st, desc := .error .record, done := descDone bs }
    else
      let map := leAt bs 23 1 == 1
      let f2 := hubRead f1.st ctx (BitVec.ofNat 64 (leAt bs 32 8)) (if map then 256 else 0)
      let f3 := hubRead f2.st ctx (BitVec.ofNat 64 (leAt bs 0 8)) 64
      let d := readDesc bs f2.data f3.data
      let ids := predIds hist d
      let foreign := device && s.fe.pool.any fun l => l.ctx != ctx && ids.contains l.lid
      let head := f3.bad.isNone && headerOk f3.data
      if (map && f2.bad.isSome) || d.gang.isEmpty || foreign || (d.handlerValid && head && d.hdr.text ≤ d.handler) then
        { st := f3.st, desc := .error .record, done := d.doneWord }
      else if d.gang.any fun i => s.hub.absent.contains i then { st := f3.st, desc := .error .protection, done := d.doneWord }
      else if !head || d.hdr.text ≤ d.entry then { st := f3.st, desc := .error .headerLimit, done := d.doneWord }
      else
        let f4 := hubRead f3.st ctx (BitVec.ofNat 64 (d.image + 64 + 4 * d.hdr.text + d.hdr.data)) d.hdr.routes
        if f4.bad.isSome || routesBad d.gang (readRoutes d.gang f4.data) then { st := f4.st, desc := .error .record, done := d.doneWord }
        else { st := f4.st, desc := .ok ({ d with preds := ids.filter fun i => s.fe.pool.any fun l => l.lid == i }, namesFailed hist d), done := d.doneWord }

/-- Entries of the pool: 4,096 and 256 for each overflow unit taken (R238, R239). -/
def FrontEnd.poolSize (f : FrontEnd) : Nat := 4096 + 256 * f.grown

/-! ### Priorities (R234) -/

/-- The walk from launches named as predecessors upwards, at most `n` levels: their effective priorities fall to `p`; also
whether launches beyond the last level remain. -/
def walkUp (p : Nat) : Nat → List Nat → List Launch → List Launch × Bool
  | 0, ids, pool => (pool, pool.any fun l => ids.contains l.lid)
  | n + 1, ids, pool =>
    let hit := pool.filter fun l => ids.contains l.lid
    if hit.isEmpty then (pool, false)
    else walkUp p n (hit.flatMap fun l => l.desc.preds)
      (pool.map fun l => if ids.contains l.lid then { l with eff := Nat.min l.eff p } else l)

/-- A core's `prio` changes under R97 across classes with L = 1. -/
def Core.writePrio (k : Core) (p : Nat) : Core :=
  { k with writes := k.writes ++
      [{ cls := .x, n := k.bn - 1, lat := 1, sync := none, tok := none, wr := .csr 0x004 (BitVec.ofNat 64 p) }] }

/-- A launch of the pool. -/
def State.launch (s : State) (lid : Nat) : Option Launch := s.fe.pool.find? fun l => l.lid == lid

/-- Where a gang core's task is held: the core itself, or its save area while the launch is pre-empted (log 20). -/
def Launch.home (l : Launch) (i : Nat) : Nat := if l.state = .preempted then l.lid * 65536 + i else i

/-- Put a new pool in place; changed effective priorities reach `prio` of the launches' cores. -/
def State.setPool (s : State) (pool : List Launch) : State :=
  let changed := pool.filter fun l => s.fe.pool.any fun o => o.lid == l.lid && o.eff != l.eff
  let s1 := { s with fe := { s.fe with pool := pool } }
  changed.foldl (fun s l => (l.desc.gang.map l.home).foldl (fun s i =>
    if (s.core i).lid = l.lid then s.modCore i fun k => k.writePrio l.eff else s) s) s1

/-- Change one launch of the pool. -/
def State.modLaunch (s : State) (lid : Nat) (f : Launch → Launch) : State :=
  { s with fe := { s.fe with pool := s.fe.pool.map fun l => if l.lid = lid then f l else l } }

/-- The graph walker on an accepted launch: 16 levels, and an event when the walk goes on beyond them (R234). -/
def State.walkFrom (s : State) (l : Launch) : State :=
  let (pool, more) := walkUp l.own 16 l.desc.preds s.fe.pool
  let s1 := s.setPool pool
  if more then s1.feEvent 0 else s1

/-- The launches that some launches name as predecessors, directly or transitively, at most `n` levels up; also whether the walk goes on. -/
def ancestors (pool : List Launch) : Nat → List Nat → List Nat × Bool
  | 0, ids => ([], pool.any fun l => ids.contains l.lid)
  | n + 1, ids =>
    let hit := pool.filter fun l => ids.contains l.lid
    if hit.isEmpty then ([], false)
    else
      let (more, rest) := ancestors pool n (hit.flatMap fun l => l.desc.preds)
      (hit.map (fun l => l.lid) ++ more, rest)

/-- Lower the effective priorities of listed launches to those of their dependents; `n` rounds. -/
def settlePriorities (ids : List Nat) : Nat → List Launch → List Launch
  | 0, pool => pool
  | n + 1, pool =>
    settlePriorities ids n (pool.map fun l =>
      if ids.contains l.lid then
        { l with eff := ((pool.filter fun d => d.desc.preds.contains l.lid).map fun d => d.eff).foldl Nat.min l.eff }
      else l)

/-- Effective priorities anew, after dependents that name `preds` have been cancelled (R234): of what they were behind, and an event when
the walk goes on beyond 16 levels. -/
def State.rewalk (s : State) (preds : List Nat) : State :=
  let (ids, more) := ancestors s.fe.pool 16 preds
  let base := s.fe.pool.map fun l => if ids.contains l.lid then { l with eff := l.own } else l
  let s1 := s.setPool (settlePriorities ids ids.length base)
  if more then s1.feEvent 0 else s1

/-! ### How launches end (R26, R238) -/

/-- A queue-table entry that has never been sealed (R228). -/
def QueueEntry.free : QueueEntry :=
  { base := 0, nonce := 0, size := 0, prio := 0, owner := 0, rights := 0, state := .free, tail := 0, head := 0, resident := 127
    ringBase := 0, evBase := 0, evLog := 0, events := 0, waited := none, done := 0, launches := [] }

/-- A queue-table entry. -/
def State.queue (s : State) (e : Nat) : QueueEntry := kget .free s.fe.queues e

/-- Replace a queue-table entry. -/
def State.setQueue (s : State) (e : Nat) (q : QueueEntry) : State := { s with fe := { s.fe with queues := kset .free s.fe.queues e q } }

/-- The vectors that are bound to a target are raised (R347). -/
def State.msix (s : State) (x : MsixTarget) : State :=
  { s with sec := { s.sec with answers := s.sec.answers ++ (s.sec.msix.filter fun v => v.2 == x).map fun v => .vector v.1 } }

/-- Write an event record into a queue's event ring (R229); a ring whose size breaks its rule, and one that cannot be written,
takes none. The position starts at 0 when
the queue is sealed and wraps without a test for a full ring: DESIGN CHOICE (log 32). -/
def State.eventRecord (s : State) (e : Nat) (st : TokState) (cause bytes t : Nat) : State :=
  let q := s.queue e
  let a := BitVec.ofNat 64 (q.evBase + 16 * (q.events % 2 ^ q.evLog))
  let r (t : Nat) : List Byte := recordBytes 0 (outcome st cause bytes t)
  if q.evLog < 4 ∨ 20 < q.evLog ∨ !isGlobal a then s
  else match hubPlace s q.owner 0 a 16 .write with
    | .error _ => s
    | .ok p =>
      let (_, u) := s.engWrite t p (r 0)
      (((s.hubStore q.owner a t p (r u)).1).setQueue e { q with events := q.events + 1 }).msix (.eventRing e)

/-- The done word rises by 1 indivisibly; a fault raises a firmware event and writes nothing (R238). -/
def State.countDone (s : State) (ctx : Nat) (word t : Nat) : State :=
  if word = 0 then s
  else
    let a := BitVec.ofNat 64 word
    match if isGlobal a then hubPlace s ctx 0 a 8 .write else .error .addressSpace with
    | .error e => s.feEvent e.code
    | .ok (.far k x) =>
      let s1 := s.sendFabric k 0 (.access 65535 0 (.amo x .add true 1 0))
      if s.lost k then s1.feEvent Cause.remote.code else s1
    | .ok p =>
      let old := leNat (s.readPlace p 8)
      (s.hubStore ctx a t p (leBytes 8 (old + 1))).1

/-- One launch leaves the pool with a status: its done word, its event record, and the overflow units that drain (R238,
R239). -/
def State.closeLaunch (s : State) (l : Launch) (st : TokState) (cause failed : Nat) : State :=
  let pool := s.fe.pool.filter fun x => x.lid != l.lid
  let s1 := { s with fe := { s.fe with pool := pool, grown := if pool.length < 4096 then 0 else s.fe.grown } }
  let s2 := s1.countDone l.ctx l.desc.doneWord l.time
  match l.queue with
  | none => s2
  | some (e, cr) =>
    let q := s2.queue e
    let s3 := s2.setQueue e { q with done := Nat.max q.done l.time }
    if cr then s3.eventRecord e st cause failed l.time else s3

/-- Close launches, and cancel those that name one that was not done, transitively; the first number bounds them (R26). -/
def State.closeAll : Nat → List (Launch × TokState × Nat × Nat) → State → State
  | 0, _, s => s
  | _ + 1, [], s => s
  | n + 1, (l, st, cause, failed) :: rest, s =>
    let s1 := s.closeLaunch l st cause failed
    let more := if st = .done then [] else (s1.fe.pool.filter fun x => x.desc.preds.contains l.lid && !(rest.any fun y => y.1.lid == x.lid)).map
      fun x => (x, TokState.cancelled, cause, if failed = 0 then l.lid else failed)
    State.closeAll n (rest ++ more) s1

/-- A launch ends with a status, and its dependents with it. -/
def State.endLaunch (s : State) (l : Launch) (st : TokState) (cause failed : Nat) : State :=
  let s1 := State.closeAll (s.fe.pool.length + 1) [(l, st, cause, failed)] s
  let gone := s.fe.pool.filter fun x => x.lid != l.lid && !(s1.fe.pool.any fun y => y.lid == x.lid)
  if gone.isEmpty then s1 else s1.rewalk (l.desc.preds ++ gone.flatMap fun x => x.desc.preds)

/-- Whether a launch has failed or has been ended: no coordinate is taken any more (R26). One that is to be replayed has not. -/
def Launch.ended (l : Launch) : Bool := match l.fate with | some (st, _, _) => st != .pending | none => false

/-- The operation whose fetch a suspension interrupts: the one that faulted, else the first in the queue that may fetch and has chunks to
come (R180, R323): DESIGN CHOICE (log 40). -/
def Core.interrupted (k : Core) : Option EngEntry :=
  match k.mx.faulted with
  | some (n, _) => k.mx.queue.find? fun e => e.serial == n
  | none => k.mx.queue.find? fun e => e.stages != 0 && k.mayFetch e && !k.mx.fetched e

/-- The end of a launch abandons the `mma` whose fetch mres records: its token faults with the cause of the fetch fault, else of the end,
every X operation behind it is cancelled, and mres becomes 0 (R180). -/
def State.endMatrix (s : State) (core cause : Nat) : State :=
  let k := s.core core
  match k.mx.held.bind fun n => k.mx.queue.find? fun e => e.serial == n with
  | none => s
  | some e =>
    let why := (k.mx.faulted.map fun x => x.2).getD cause
    let out (x : EngEntry) : Outcome := if x.serial = e.serial then outcome .faulted why 0 0 else outcome .cancelled why 0 0
    let s1 := (k.mx.queue.filter fun x => decide (e.serial ≤ x.serial)).foldl
      (fun s x => (s.addStarted core x (.finished (out x) false)).retire core x.prod x.gen (out x)) s
    s1.modCore core fun k => { k with csr := kset 0 k.csr 0x058 0 }

/-- Whether an operation goes on in its engine when its task is stopped: one that has started in the memory-layer engines, the messaging
engine, Sluice or a sequence manager, or that only waits for its completion (R323). A copy stops with the chunk it writes. -/
def Stage.goesOn : Stage → Bool
  | .copying .. => false
  | .waiting | .layer .. | .pulled .. | .pooling .. | .finished .. => true

/-- What a stopped task leaves in its engines (R26, R323). -/
def Core.orphans (k : Core) : List Started :=
  (k.started.filter fun x => x.stage.goesOn).map fun x => { x with orphan := some (x.orphan.getD k.ctx) }

/-- Owners of polders among cores own them no more: their handles are invalid (R213). -/
def State.disown (s : State) (cores : List Nat) : State :=
  { s with hub := { s.hub with polders := s.hub.polders.map fun x =>
      match x.owner with
      | some i => if cores.contains i then { x with owner := none, leaving := false } else x
      | none => x } }

/-- Replace one core number in what refers to a core's operations: messages, receives, strips, commits, wakes, packets, and the pieces that
are on their way to its task (R369). -/
def State.rename (s : State) (i j : Nat) : State :=
  let c (x : Nat) : Nat := if x = i then j else x
  let msg (m : Message) : Message :=
    if m.srcPkg = s.pkg ∧ m.handle / 2 ^ 32 = i then { m with handle := j * 2 ^ 32 + m.handle % 2 ^ 32 } else m
  let post (x : Posted) : Posted := { x with core := c x.core, landing := x.landing.map msg }
  let parser (p : Parser) : Parser :=
    { p with posted := p.posted.map post, landing := p.landing.map post, unexpected := p.unexpected.map msg
             reorder := p.reorder.map msg }
  let item (x : FabricItem) : FabricItem :=
    match x with
    | .access k id a => .access (c k) id a
    | .message k id m => .message (c k) id (msg m)
    | x => x
  let mgr (m : Manager) : Manager :=
    { m with commits := m.commits.map fun x => { x with core := c x.core }
             waiting := m.waiting.map fun x => (c x.1, x.2) }
  let owed (w : MemWork) : MemWork :=
    { w with todo := w.todo.map fun t => if t.goesTo i then
        { t with piece := { t.piece with place := match t.piece.place with | .buf _ b off => .buf j b off | p => p } } else t }
  { s with
    cores := s.cores.map fun e => if e.2.late.isEmpty then e else (e.1, { e.2 with late := e.2.late.map owed })
    net := s.net.map fun p => if p.dst = i then { p with src := c p.src, dst := j, held := true } else { p with src := c p.src }
    netWait := s.netWait.map fun p => { p with src := c p.src, dst := c p.dst }
    fabricOut := s.fabricOut.map fun p => { p with item := item p.item }
    fe := { s.fe with wakes := s.fe.wakes.map fun w => { w with device := w.device.map fun d => (c d.1, d.2) } }
    hub := { s.hub with
      parsers := s.hub.parsers.map fun p => (p.1, parser p.2)
      managers := s.hub.managers.map fun m => (m.1, mgr m.2)
      polders := s.hub.polders.map fun x => { x with owner := x.owner.map c }
      strips := s.hub.strips.map fun x => { x with core := c x.core } }
    ms := { s.ms with migration := s.ms.migration.map fun m => { m with copies := m.copies.map fun x => (c x.1, x.2) } } }

/-- Return every queue extension of a core to its cluster's spill pool (R225). -/
def State.returnAll (s : State) (core : Nat) : State :=
  let n := ((s.core core).extensions.map fun e => e.2).foldl (· + ·) 0
  { s.modCore core fun k => { k with extensions := [] } with
    spill := kset 0 s.spill (clusterOf core) (kget 0 s.spill (clusterOf core) - n) }

/-- The saved tasks of a launch are dropped: what they held is discarded (R369), and their engines go on (R323). With a cause the launch
ends (R180). -/
def State.dropSaved (s : State) (l : Launch) (cause : Option Nat) : State :=
  (s.cores.filter fun e => e.1 / 65536 == l.lid && decide (65536 ≤ e.1)).foldl (fun (s : State) e =>
    let i := e.1 % 65536
    let s0 := match cause with
      | some c => s.endMatrix e.1 c
      | none => s
    let s1 := ((((s0.discardHeld e.1).discardLate e.1).returnAll e.1).disown [e.1]).rename e.1 i
    let left := (s1.core e.1).orphans
    { s1 with cores := kdel s1.cores e.1 }.modCore i fun k => { k with started := k.started ++ left }) s

/-- A launch fails or is ended (R26): one that has not been released ends at once; the tasks of a running one stop, and one
that is saved is discarded. -/
def State.failLaunch (s : State) (l : Launch) (st : TokState) (cause : Nat) : State :=
  match l.state with
  | .pending => s.endLaunch l st cause 0
  | .running => s.modLaunch l.lid fun l => { l with state := .preempting, fate := some (st, cause, 0) }
  | .preempting | .completing => s.modLaunch l.lid fun l => if l.ended then l else { l with fate := some (st, cause, 0) }
  | .preempted => (s.dropSaved l (some cause)).modLaunch l.lid fun l => { l with state := .completing, fate := some (st, cause, 0) }

/-- A launch as it enters the pool. -/
def newLaunch (ctx lid own time : Nat) (d : LaunchDesc) (queue : Option (Nat × Bool)) : Launch :=
  { lid := lid, ctx := ctx, desc := d, state := .pending, own := own, eff := own, queue := queue
    remaining := d.x * d.y * d.z, next := 0, redo := [], ranges := [], drawn := [], replays := 0, release := 0, haltAt := 0, time := time
    fate := none }

/-- A launch that passed its checks takes its identifier and enters the pool; one that names a failed launch completes at
once, cancelled, with 0 as the failed identifier (R237, R238). -/
def State.acceptLaunch (s : State) (ctx floor time : Nat) (d : LaunchDesc) (cancelled : Bool) (queue : Option (Nat × Bool)) :
    State × Nat :=
  let lid := s.fe.nextLid
  let l := newLaunch ctx lid (Nat.max d.prio floor) time d queue
  let s1 := { s with fe := { s.fe with nextLid := if lid = 2 ^ 31 - 1 then 1 else lid + 1 } }
  if cancelled then (s1.closeLaunch l .cancelled 0 0, lid)
  else ({ s1 with fe := { s1.fe with pool := s1.fe.pool ++ [l] } }.walkFrom l, lid)

/-! ### Coordinates (R17, R22, R23, R319) -/

/-- The size of the coordinate space. -/
def Launch.total (l : Launch) : Nat := l.desc.x * l.desc.y * l.desc.z

/-- tcoord of a linear index (R17, R20). -/
def Launch.coord (l : Launch) (n : Nat) : W64 :=
  BitVec.ofNat 64 (n % l.desc.x + n / l.desc.x % l.desc.y * 2 ^ 16 + n / (l.desc.x * l.desc.y) * 2 ^ 32)

/-- The next draw of a dispenser: start and count (R23). -/
def Launch.chunk (l : Launch) : Nat × Nat :=
  if l.ended then (l.next, 0) else
  let c := if l.desc.dist = 1 then l.desc.minchunk else Nat.max l.desc.minchunk (ceilDiv l.remaining (2 * l.desc.gang.length))
  (l.next, Nat.min c l.remaining)

/-- Draw from a launch's dispenser. -/
def State.draw (s : State) (l : Launch) : State × Nat × Nat :=
  let (a, c) := l.chunk
  (s.modLaunch l.lid fun l => { l with next := a + c, remaining := l.remaining - c }, a, c)

/-- What a list says of a core. -/
def listed {α : Type} (d : α) (xs : List (Nat × α)) (i : Nat) : α := ((xs.find? fun x => x.1 == i).map fun x => x.2).getD d

/-- Replace what a list says of a core. -/
def relist {α : Type} (xs : List (Nat × α)) (i : Nat) (v : α) : List (Nat × α) := (i, v) :: xs.filter fun x => x.1 != i

/-- The next coordinate of a gang core, taken from its launch: those to be run again first (R333), then R22 or R319. -/
def State.nextCoord (s : State) (l : Launch) (core : Nat) : Option Nat × State :=
  if l.ended then (none, s) else
  match listed [] l.redo core with
  | i :: is => (some i, s.modLaunch l.lid fun l => { l with redo := relist l.redo core is })
  | [] =>
    let k := s.core core
    if l.desc.dist = 0 then
      let n := listed 0 l.drawn core
      let i := k.rank + n * l.desc.gang.length
      if i < l.total then (some i, s.modLaunch l.lid fun l => { l with drawn := relist l.drawn core (n + 1) }) else (none, s)
    else if k.range.1 < k.range.2 then
      (some k.range.1, s.modCore core fun k => { k with range := (k.range.1 + 1, k.range.2) })
    else
      let (s1, a, c) := s.draw l
      if c = 0 then (none, s1) else (some a, s1.modCore core fun k => { k with range := (a + 1, a + c) })

/-- A tile task starts on a core (R20): its coordinate, the reset mask stacks and sequencer, the watchdog, the entry point. -/
def Core.startTask (k : Core) (l : Launch) (n : Nat) : Core :=
  { k with
    csr := kset 0 k.csr 0x000 (l.coord n)
    mdepth := []
    mstack := []
    loops := []
    strides := []
    wdogCount := 0
    wdogSeen := 0
    launches := []
    taskSerial := k.serial
    finalWait := false
    journal := k.journal ++ [(n, none)]
    pc := l.desc.entry
    run := .running
    hold := .none
    fetched := none
    ending := none
    closing := none }

/-- The largest logical time of a core's work. -/
def Core.workTime (k : Core) : Nat := k.tokens.foldl (fun t e => Nat.max t e.2.t) k.ltime

/-- A core stops running its context: the front end keeps when that context's latest bundle was (R239). -/
def State.noteRan (s : State) (k : Core) : State :=
  { s with fe := { s.fe with ranTill := kset 0 s.fe.ranTill k.ctx (Nat.max (kget 0 s.fe.ranTill k.ctx) k.busyTill) } }

/-- A core leaves its gang and is free (R21); the last one leaves its launch to complete. -/
def State.leaveGang (s : State) (core : Nat) : State :=
  let k := s.core core
  let s1 := ((s.noteRan k).returnAll core).modCore core fun k =>
    { k with run := .free, lid := 0, hold := .none, fetched := none, ending := none, closing := none, started := k.orphans, outs := [], due := []
             slips := [], late := [], hist := [], starts := false, finalWait := false }
  match s.launch k.lid with
  | none => s1
  | some l =>
    let s2 := s1.modLaunch l.lid fun l => { l with time := Nat.max l.time k.workTime }
    if l.desc.gang.any fun i => (s2.core i).lid == l.lid then s2
    else s2.modLaunch l.lid fun l => { l with state := .completing }

/-! ### Release (R18, R19) -/

/-- A launch waits in the pool: for its predecessors, its cores, or to be resumed (R19, R328). -/
def Launch.waits (l : Launch) : Bool := l.state == .pending || l.state == .preempted

/-- The cores that a waiting launch needs: its gang, or the cores whose tasks are saved. -/
def State.needs (s : State) (l : Launch) : List Nat :=
  if l.state = .preempted then l.desc.gang.filter fun i => (s.core (l.home i)).lid == l.lid else l.desc.gang

/-- Whether every predecessor has completed (R25). -/
def State.ready (s : State) (l : Launch) : Bool := !(s.fe.pool.any fun p => l.desc.preds.contains p.lid)

/-- Whether an other waiting launch that needs a common core comes first (R19): one of higher effective priority, or an
earlier one of equal priority. -/
def State.outranked (s : State) (l : Launch) : Bool :=
  let mine := s.needs l
  let ahead := s.fe.pool.takeWhile fun w => w.lid != l.lid
  s.fe.pool.any fun w => w.waits && w.lid != l.lid && (s.needs w).any (fun i => mine.contains i) &&
    (decide (w.eff < l.eff) || (w.eff == l.eff && ahead.any fun a => a.lid == w.lid))

/-- Whether a waiting launch may take its cores now. -/
def State.mayRun (s : State) (l : Launch) : Bool :=
  s.ready l && !s.outranked l && (s.needs l).all fun i => (s.core i).run == .free && !s.hub.absent.contains i

/-- The words of a text section. -/
def textWords : Nat → Nat → List Byte → KMap W32
  | 0, _, _ => []
  | n + 1, i, bs =>
    let w : W32 := BitVec.ofNat 32 (leAt bs 0 4)
    if w = 0 then textWords n (i + 1) (bs.drop 4) else (i, w) :: textWords n (i + 1) (bs.drop 4)

/-- The CSRs of a core at release (R18, R20, R61, R112, R136). -/
def releaseCsrs (k : Core) (l : Launch) : KMap W64 :=
  let kept := k.csr.filter fun e => e.1 == 0x048 || e.1 == 0x049 || (decide (0x050 ≤ e.1) && decide (e.1 ≤ 0x054)) || e.1 == 0x068
  [(0x001, BitVec.ofNat 64 l.lid), (0x003, BitVec.ofNat 64 l.ctx), (0x004, BitVec.ofNat 64 l.eff), (0x020, 0x00141E72),
    (0x021, 0x00103E56), (0x022, 0x00180628), (0x023, 0x000802E2), (0x028, 0xFF), (0x029, 0xFF), (0x02A, 0xFF), (0x02B, 0xFF),
    (0x02C, 0xFF), (0x02D, 0xFF), (0x060, l.desc.hdr.limits)].foldl (fun m e => kset 0 m e.1 e.2) kept

/-- A gang core at release on cycle `now` (R18, R59, R152): everything that its launch resets, before its first tile task. -/
def Core.atRelease (k0 : Core) (l : Launch) (i rank now : Nat) (text : KMap W32) (data : List Byte) : Core :=
  let k := k0.landAll
  let fresh := k.lastCtx ≠ some l.ctx
  { Core.init with
    sregs := (k.sregs.filter fun e => decide (l.desc.hdr.sregs ≤ e.1)).filterMap fun e =>
      if e.2.val = 0 then none else some (e.1, { e.2 with df := false })
    vlanes := k.vlanes.filter fun e => decide (l.desc.hdr.vregs ≤ e.1 / 16 % 64)
    csr := releaseCsrs k l
    imem := text
    wbuf := if fresh then [] else k.wbuf
    abuf := mwrite (if fresh then [] else k.abuf) 0 data
    rbuf := if fresh then [] else k.rbuf
    flags := (List.range 32).filterMap fun i => if l.desc.flagWord.getLsbD i then some (i, ⟨true, 0⟩) else none
    lid := l.lid
    rank := rank
    range := listed (0, 0) l.ranges i
    lastCtx := some l.ctx
    serial := k.serial
    outNext := k.outNext
    utlb := k.utlb
    started := k.started
    starts := true
    nextAt := now
    perf := k.perf
    perfSel := k.perfSel }

/-- The first cycle from `now` on, or after it, on which a router's counter reads 0 (R18, R299). -/
def nextZero (base now : Nat) : Nat := now + 256 - (now + (256 - base % 256)) % 256

/-- Preset a router's counter: what waits to be installed there follows it (R18, R299). -/
def Routing.preset (rt : Routing) (router base now : Nat) : Routing :=
  { rt with
    slotBase := kset 0 rt.slotBase router base
    installs := rt.installs.map fun x => if x.router = router then { x with due := nextZero base now } else x }

/-- The slot tables of the gang's routers: reserved for the route list, regenerated around what is retired, under the slot-table flag,
else free; every loaded router's counter reads 0 on the cycle `base` (R18, R292, R293). -/
def State.loadSlots (s : State) (l : Launch) (rs0 : List Route) (base : Nat) : State :=
  let rs := rs0.map fun r => r.around s.hub.retired
  let rt := l.desc.gang.foldl (fun (rt : Routing) i =>
    if l.desc.slotFlag then
      { rt with slotTables := kset (freeTable 5) rt.slotTables i (routerTable rs i) }.preset i base s.cycle
    else { rt with slotTables := kdel rt.slotTables i }) s.rt
  let others := rt.routes.filter fun x => !l.desc.gang.contains x.1
  { s with rt := { rt with routes := rs.map (fun r => (r.src, r.dst, BitVec.ofNat 64 r.turns)) ++ others } }

/-- The elements of a list in a freely chosen order. -/
def shuffle {α : Type} (pick : Nat → Nat) : Nat → List α → List α
  | 0, xs => xs
  | n + 1, xs =>
    match xs[pick n % xs.length]? with
    | some x => x :: shuffle pick n (xs.eraseIdx (pick n % xs.length))
    | none => xs

/-- A gang core takes its first coordinate, or leaves the gang when there is none (R20, R21). -/
def State.firstTask (s : State) (lid core : Nat) : State :=
  match s.launch lid with
  | none => s
  | some l =>
    match s.nextCoord l core with
    | (some n, s1) => s1.modCore core fun k => k.startTask l n
    | (none, s1) => s1.leaveGang core

/-- The route list of a launch's image (R59, R293). -/
def Launch.routeList (l : Launch) (s : State) : HubFlow :=
  hubRead s l.ctx (BitVec.ofNat 64 (l.desc.image + 64 + 4 * l.desc.hdr.text + l.desc.hdr.data)) l.desc.hdr.routes

/-- Release a gang on one cycle (R18): images, slot tables, resets, first coordinates. Draws that arrive together come in a
freely chosen order. Its cores dispatch their first bundles on this cycle. -/
def State.release (s : State) (l : Launch) : State :=
  let f := hubRead s l.ctx (BitVec.ofNat 64 (l.desc.image + 64)) (4 * l.desc.hdr.text + l.desc.hdr.data + l.desc.hdr.routes)
  match f.bad with
  | some e => f.st.endLaunch l .faulted e.code 0
  | none =>
    let text := textWords l.desc.hdr.text 0 f.data
    let rest := f.data.drop (4 * l.desc.hdr.text)
    let routes := readRoutes l.desc.gang (rest.drop l.desc.hdr.data)
    let s1 := (f.st.disown l.desc.gang).loadSlots l routes s.cycle
    let ranks := l.desc.gang.mapIdx fun r i => (r, i)
    let s2 := ranks.foldl (fun s x => s.modCore x.2 fun k =>
      k.atRelease l x.2 x.1 s.cycle text (rest.take l.desc.hdr.data)) s1
    let s3 := s2.modLaunch l.lid fun l => { l with state := .running, release := s.cycle }
    let order := if l.desc.dist = 0 then l.desc.gang
      else shuffle (fun n => Config.freeNat s.free (1000 + n)) l.desc.gang.length l.desc.gang
    order.foldl (fun s i => s.firstTask l.lid i) s3

/-- LAUNCH_RELEASE: a waiting launch takes its cores (R18, R19). -/
def execLaunchRelease (lid : Nat) (s : State) : Res :=
  match s.launch lid with
  | some l => if l.state = .pending ∧ s.mayRun l then .next (s.release l) else .next s
  | none => .next s

/-- LAUNCH_COMPLETE: a launch whose cores have all left completes (R21, R238). -/
def execLaunchComplete (lid : Nat) (s : State) : Res :=
  match s.launch lid with
  | some l =>
    if l.state ≠ .completing then .next s
    else match l.fate with
      | some (st, cause, failed) => .next (s.endLaunch l st cause failed)
      | none => .next (s.endLaunch l .done 0 0)
  | none => .next s

end Sys2Proof.Machine
end

