-- ==== Sys2Proof/Machine/Sequence.lean ====
section
/-!
DEFINITION. The sequence managers: the ten `sq` operations, acceptance, the copy phase of a commit, and configuration (R262 to
R278).
-/
namespace Sys2Proof.Machine

/-- Insert into a rising list. -/
def insertNat (x : Nat) : List Nat → List Nat
  | [] => [x]
  | y :: ys => if x ≤ y then x :: y :: ys else y :: insertNat x ys

/-- A list in rising order. -/
def sortNat (xs : List Nat) : List Nat := xs.foldr insertNat []

/-! ### Managers, records and trees (R262, R263) -/

/-- A manager's configuration at boot (R262). -/
def bootConfig : ManagerConfig :=
  { ctx := 0, nslot := 0, pt := 16, e := 64, pool := 0, npage := 0, res := 0, pta := 0, tb := 0, db := 0 }

/-- A manager with every slot FREE and the free pool full, in rising order (R262, R263). -/
def Manager.fresh (cfg : ManagerConfig) : Manager :=
  { cfg := cfg, slots := [], free := List.range cfg.npage, commits := [], waiting := [] }

/-- A manager. -/
def State.manager (s : State) (m : Nat) : Manager := kget (.fresh bootConfig) s.hub.managers m

/-- Replace a manager. -/
def State.setManager (s : State) (m : Nat) (x : Manager) : State :=
  { s with hub := { s.hub with managers := kput s.hub.managers m x } }

/-- A new node (R274): its check is absent. -/
def newNode (token : W32) (parent depth : Nat) (q : W32) : Node :=
  { token := token, parent := parent, depth := depth, q := q, verified := false, c := 0, rank := 0, p := 0 }

/-- A FREE slot. -/
def SeqRec.free : SeqRec :=
  { state := .free, saved := .free, rule := 0, k := 0, nm4 := false, seed := 0, endTok := 0, maxNew := 0, g := 0, lc := 0, pl := 0
    pending := 0, round := 0, out := 0, pages := 0, nodes := [newNode 0 0 0 0] }

/-- The record of a slot. -/
def Manager.slot (x : Manager) (i : Nat) : SeqRec := kget .free x.slots i

/-- Replace the record of a slot. -/
def Manager.setSlot (x : Manager) (i : Nat) (r : SeqRec) : Manager := { x with slots := kset .free x.slots i r }

/-- The tree with its root only, unverified (R263). -/
def SeqRec.cut (r : SeqRec) : SeqRec := { r with nodes := [newNode r.pending 0 0 0] }

/-- The code of a slot state (R263). -/
def SeqState.code : SeqState → Nat
  | .free => 0 | .prefill => 1 | .active => 2 | .committing => 3 | .preempted => 4 | .done => 5

/-! ### The manager's memory accesses (R265, R271) -/

/-- Read `n` bytes for a manager, at a tag 0x0 address through the context's translation or in its scratch of a column. -/
def HubFlow.get (f : HubFlow) (ctx col : Nat) (a : W64) (n : Nat) : List Byte × HubFlow :=
  let g := (linePieces (n / 64 + 2) a.toNat n).foldl (fun (f : HubFlow) p =>
    if f.bad.isSome then f
    else match hubPlace f.st ctx col (BitVec.ofNat 64 p.1) p.2 .read with
      | .error e => { f with bad := some e }
      | .ok q => f.piece q p.2) { f with data := [] }
  (g.data, { g with data := [] })

/-- Write bytes for a manager; a package that does not answer is REMOTE (R204, R275). -/
def HubFlow.put (f : HubFlow) (ctx col : Nat) (a : W64) (bs : List Byte) : HubFlow :=
  ((linePieces (bs.length / 64 + 2) a.toNat bs.length).foldl (fun (x : HubFlow × List Byte) p =>
    let (f, rest) := x
    if f.bad.isSome then x
    else
      let b := BitVec.ofNat 64 p.1
      match hubPlace f.st ctx col b p.2 .write with
      | .error e => ({ f with bad := some e }, rest)
      | .ok q =>
        let (s1, t) := f.st.hubStore ctx b f.time q (rest.take p.2)
        ({ f with st := s1, time := Nat.max f.time t, bad := f.st.lostAt q }, rest.drop p.2)) (f, bs)).1

/-- Little-endian 32-bit words of bytes. -/
def seqWords (bs : List Byte) (n : Nat) : List Nat := (List.range n).map fun i => leAt bs (4 * i) 4

/-- The page table of a slot (R263). -/
def tableOf (cfg : ManagerConfig) (slot : Nat) : W64 := BitVec.ofNat 64 (cfg.pta + slot * 4096)

/-- The pages of a slot, read from its page table. -/
def HubFlow.pages (f : HubFlow) (cfg : ManagerConfig) (slot h : Nat) : List Nat × HubFlow :=
  let (bs, f1) := f.get cfg.ctx 0 (tableOf cfg slot) (4 * h)
  ((seqWords bs h).map fun x => x % 65536, f1)

/-- KvAddr of a position, with the slot's pages (R266). -/
def kvAddr (cfg : ManagerConfig) (pages : List Nat) (x : Nat) : W64 :=
  BitVec.ofNat 64 (cfg.pool + pages.getD (x / cfg.pt) 0 * (cfg.pt * cfg.e) + x % cfg.pt * cfg.e)

/-- Pages that cover a count of positions. -/
def pagesFor (cfg : ManagerConfig) (positions : Nat) : Nat := ceilDiv positions cfg.pt

/-- What an operation has come to: the accesses so far, the manager, and its result, or COMMITTING as `none`. -/
abbrev SeqAns := HubFlow × Manager × Except Cause (Option Nat)

/-- A slot takes pages from the head of the pool until it holds `total`, and its table is filled on (R267). A fault changes no
table (R271). -/
def growSlot (f : HubFlow) (x : Manager) (i : Nat) (r : SeqRec) (total : Nat) : HubFlow × Manager × SeqRec × List Nat :=
  let took := x.free.take (total - r.pages)
  let f1 := f.put x.cfg.ctx 0 (tableOf x.cfg i + BitVec.ofNat 64 (4 * r.pages)) (took.flatMap fun p => leBytes 4 p)
  (f1, { x with free := x.free.drop took.length }, { r with pages := r.pages + took.length }, took)

/-- A slot's pages return to the tail of the pool in rising order (R267). -/
def releaseSlot (f : HubFlow) (x : Manager) (i : Nat) (r : SeqRec) : HubFlow × Manager × SeqRec :=
  let (ps, f1) := f.pages x.cfg i r.pages
  (f1, { x with free := x.free ++ sortNat ps }, { r with pages := 0 })

/-- An operation that ended with a record to be stored; a memory fault changes no table. -/
def seqEnd (x0 : Manager) (i : Nat) (f : HubFlow) (x : Manager) (r : SeqRec) (d : Nat) : SeqAns :=
  match f.bad with
  | some c => (f, x0, .error c)
  | none => (f, x.setSlot i r, .ok (some d))

/-- A requirement that failed (R264). -/
def seqFail (f : HubFlow) (x : Manager) : SeqAns := (f, x, .error .sequence)

/-! ### Acceptance (R268 to R270) -/

/-- An fp32 code that is finite and from 0 to 1, in units of 2⁻¹⁴⁹. -/
def probOf (p : W32) : Option Nat :=
  let e := bits p.toNat 23 8
  let m := bits p.toNat 0 23
  let v := if e = 0 then m else (2 ^ 23 + m) * 2 ^ (e - 1)
  if e = 255 ∨ (bits p.toNat 31 1 = 1 ∧ v ≠ 0) ∨ 2 ^ 149 < v then none else some v

/-- One round of Philox-4×32 (R269). -/
def philoxRound (k : Nat × Nat) (x : Nat × Nat × Nat × Nat) : Nat × Nat × Nat × Nat :=
  let p0 := 0xD2511F53 * x.1
  let p1 := 0xCD9E8D57 * x.2.2.1
  (p1 / 2 ^ 32 ^^^ x.2.1 ^^^ k.1, p1 % 2 ^ 32, p0 / 2 ^ 32 ^^^ x.2.2.2 ^^^ k.2, p0 % 2 ^ 32)

/-- Output word 0 of Philox-4×32-10 (R269). -/
def philox (seed round n : Nat) : Nat :=
  ((List.range 10).foldl (fun x r =>
    philoxRound ((seed + 0x9E3779B9 * r) % 2 ^ 32, (seed / 2 ^ 32 + 0xBB67AE85 * r) % 2 ^ 32) x)
    (round % 2 ^ 32, round / 2 ^ 32 % 2 ^ 32, n, 0)).1

/-- The acceptance bit of a node (R268). -/
def SeqRec.accepts (r : SeqRec) (n : Nat) (y : Node) : Bool :=
  if r.rule = 0 then y.rank == 0
  else if r.rule = 1 then decide (y.rank < r.k)
  else decide (philox r.seed.toNat r.round n / 256 * (probOf y.q).getD 0 < (probOf y.p).getD 0 * 2 ^ 24)

/-- For each node, whether it and its ancestors but the root are accepted (R270). -/
def SeqRec.onPath (r : SeqRec) : List Bool :=
  (r.nodes.drop 1).foldl (fun oks y => oks ++ [r.accepts oks.length y && oks.getD y.parent false]) [true]

/-- A node by its index. -/
def SeqRec.node (r : SeqRec) (n : Nat) : Node := r.nodes.getD n (newNode 0 0 0 0)

/-- The end node: of greatest depth, and of those the lowest (R270). -/
def SeqRec.endNode (r : SeqRec) : Nat :=
  (List.range r.nodes.length).foldl (fun e n =>
    if r.onPath.getD n false && decide ((r.node e).depth < (r.node n).depth) then n else e) 0

/-- The path from the root to a node; the first number bounds it. -/
def SeqRec.path (r : SeqRec) : Nat → Nat → List Nat
  | 0, n => [n]
  | f + 1, n => if n = 0 then [0] else r.path f (r.node n).parent ++ [n]

/-- Whether every requirement of R275 on the tree holds. -/
def SeqRec.sound (r : SeqRec) : Bool :=
  r.nodes.all (fun y => y.verified) && (r.nodes.drop 1).all fun y =>
    (probOf y.p).isSome && match probOf y.q with
      | some q => r.rule != 2 || q != 0
      | none => false

/-- The output of a round after its cuts, and whether the request is done (R275). -/
def SeqRec.output (r : SeqRec) (path : List Nat) : List W32 × Bool :=
  let all := (path.drop 1).map (fun n => (r.node n).token) ++ [(r.node (path.getLastD 0)).c]
  let (o1, d1) := if r.endTok = 0xFFFFFFFF then (all, false)
    else match all.findIdx? fun t => t == r.endTok with
      | some i => (all.take (i + 1), true)
      | none => (all, false)
  if r.maxNew ≤ r.g + o1.length then (o1.take (r.maxNew - r.g), true) else (o1, d1)

/-! ### The operations (R272 to R278) -/

/-- `sqadm` (R272). -/
def seqAdmit (f : HubFlow) (x : Manager) (col : Nat) (a : W64) : SeqAns :=
  if a.toNat % 8 ≠ 0 then (f, x, .error .alignment)
  else
    let (bs, f1) := f.get x.cfg.ctx col a 64
    match f1.bad with
    | some c => (f1, x, .error c)
    | none =>
      let p := leAt bs 0 4
      let rule := leAt bs 32 1
      let k := leAt bs 34 2
      let out := BitVec.ofNat 64 (leAt bs 24 8)
      if p = 0 ∨ 1024 * x.cfg.pt < p + 1 ∨ leAt bs 20 4 = 0 ∨ !isGlobal out ∨ out.toNat % 4 ≠ 0 ∨ 2 < rule ∨ 1 < leAt bs 33 1 ∨
          (if rule = 1 then k = 0 else k ≠ 0) ∨ !zeroAt bs 36 28 then seqFail f1 x
      else
        match (List.range x.cfg.nslot).find? fun i => (x.slot i).state == .free with
        | none => (f1, x, .ok (some (2 ^ 62 + 1)))
        | some i =>
          let need := pagesFor x.cfg (p + 1)
          if x.free.length < need + x.cfg.res then (f1, x, .ok (some (2 ^ 62 + 2)))
          else
            let r : SeqRec :=
              { SeqRec.free with
                state := if 1 < p then .prefill else .active, rule := rule, k := k, nm4 := leAt bs 33 1 == 1
                seed := BitVec.ofNat 64 (leAt bs 8 8), endTok := BitVec.ofNat 32 (leAt bs 16 4), maxNew := leAt bs 20 4, pl := p
                pending := BitVec.ofNat 32 (leAt bs 4 4), out := out }
            let (f2, x2, r2, _) := growSlot f1 x i r.cut need
            seqEnd x i f2 x2 r2 i

/-- `sqtree` (R274). -/
def seqTree (f : HubFlow) (x : Manager) (a b : W64) (i : Nat) : SeqAns :=
  let r := x.slot i
  let up := field a 8 6
  let depth := (r.node up).depth + 1
  if field a 14 18 ≠ 0 ∨ field b 32 32 ≠ 0 ∨ r.state ≠ .active ∨ 64 ≤ r.nodes.length ∨ r.nodes.length ≤ up ∨
      1024 * x.cfg.pt ≤ r.lc + depth then seqFail f x
  else seqEnd x i f x { r with nodes := r.nodes ++ [newNode (BitVec.ofNat 32 (field a 32 32)) up depth (BitVec.ofNat 32 (field b 0 32))] }
    r.nodes.length

/-- `sqvrd` (R274). -/
def seqVerify (f : HubFlow) (x : Manager) (a b : W64) (i : Nat) : SeqAns :=
  let r := x.slot i
  let n := field a 8 6
  if field a 14 2 ≠ 0 ∨ field b 32 32 ≠ 0 ∨ r.state ≠ .active ∨ r.nodes.length ≤ n then seqFail f x
  else
    let y : Node := { r.node n with
      verified := true, c := BitVec.ofNat 32 (field a 32 32), rank := field a 16 16, p := BitVec.ofNat 32 (field b 0 32) }
    seqEnd x i f x { r with nodes := r.nodes.set n y } 0

/-- `sqkv.addr` (R273). -/
def seqAddr (f : HubFlow) (x : Manager) (b : W64) (i : Nat) : SeqAns :=
  let r := x.slot i
  if r.state = .free ∨ r.pages * x.cfg.pt ≤ b.toNat then seqFail f x
  else
    let (ps, f1) := f.pages x.cfg i r.pages
    seqEnd x i f1 x r (kvAddr x.cfg ps b.toNat).toNat

/-- `sqkv.adv` (R273). -/
def seqAdvance (f : HubFlow) (x : Manager) (b : W64) (i : Nat) : SeqAns :=
  let r := x.slot i
  let lc := r.lc + b.toNat
  let total := pagesFor x.cfg (lc + 1)
  if r.state ≠ .prefill ∨ b = 0 ∨ r.pl - 1 < lc ∨ r.pages + x.free.length < total ∨ 1024 < total then seqFail f x
  else
    let (f1, x1, r1, _) := growSlot f x i r total
    seqEnd x i f1 x1 { r1 with lc := lc, state := if lc = r.pl - 1 then .active else .prefill } lc

/-- `sqpre` and `sqpre.rel` on a record (R276); it also ends a commit that met an uncorrectable error (R275). -/
def preemptSlot (f : HubFlow) (x : Manager) (i : Nat) (r : SeqRec) (rel : Bool) : HubFlow × Manager × SeqRec × Nat :=
  let r1 := { r.cut with saved := r.state, state := .preempted }
  if rel then
    let pl := if r.state = .active then r.lc + 1 else r.pl
    let (f1, x1, r2) := releaseSlot f x i r1
    (f1, x1, { r2 with pl := pl, lc := 0, saved := if 1 < pl then .prefill else .active }, r.pages)
  else (f, x, r1, 0)

/-- `sqpre` (R276). -/
def seqPreempt (f : HubFlow) (x : Manager) (rel : Bool) (i : Nat) : SeqAns :=
  let r := x.slot i
  if r.state ≠ .prefill ∧ r.state ≠ .active then seqFail f x
  else
    let (f1, x1, r1, d) := preemptSlot f x i r rel
    seqEnd x i f1 x1 r1 d

/-- `sqres` (R276). A request that needs more than the 1,024 pages that a sequence may hold (R262) breaks a requirement (log 14). -/
def seqResume (f : HubFlow) (x : Manager) (i : Nat) : SeqAns :=
  let r := x.slot i
  let need := pagesFor x.cfg (r.pl + 1)
  if r.state ≠ .preempted ∨ (r.pages = 0 ∧ 1024 < need) then seqFail f x
  else if r.pages ≠ 0 then seqEnd x i f x { r with state := r.saved } r.saved.code
  else if x.free.length < need + x.cfg.res then (f, x, .ok (some (2 ^ 62 + 2)))
  else
    let (f1, x1, r1, _) := growSlot f x i r need
    seqEnd x i f1 x1 { r1 with state := r.saved } r.saved.code

/-- `sqret` (R277). -/
def seqRetire (f : HubFlow) (x : Manager) (i : Nat) : SeqAns :=
  let r := x.slot i
  if r.state = .free then seqFail f x
  else
    let (f1, x1, _) := releaseSlot f x i r
    seqEnd x i f1 x1 .free r.pages

/-- `sqacc` up to its copy phase (R275). A sequence holds at most 1,024 pages. -/
def seqAccept (f : HubFlow) (x : Manager) (core id i : Nat) : SeqAns :=
  let r := x.slot i
  let path := r.path 64 r.endNode
  let (out, done) := r.output path
  let total := pagesFor x.cfg (r.lc + out.length)
  if r.state ≠ .active ∨ !r.sound ∨ r.pages + x.free.length < total ∨ 1024 < total then seqFail f x
  else
    let (f1, x1, r1, took) := growSlot f x i r total
    match f1.bad with
    | some c => (f1, x, .error c)
    | none =>
      let c : Commit := { slot := i, out := out, path := path.take out.length, a := path.length - 1, done := done, took := took
                          core := core, startedId := id }
      (f1, { (x1.setSlot i { r1 with state := .committing }) with commits := x1.commits ++ [c] }, .ok none)

/-- A batch record (R278): its bytes and its rows. -/
def batchRecord (x : Manager) (sel chunk : Nat) : List Byte × Nat :=
  let picked := (List.range x.cfg.nslot).filter fun i =>
    let st := (x.slot i).state
    (st == .prefill && bits sel 0 1 == 1) || (st == .active && bits sel 1 1 == 1)
  let rows (r : SeqRec) : Nat := if r.state = .prefill then Nat.min chunk (r.pl - 1 - r.lc) else r.nodes.length
  let (entries, nodes, total, _) := picked.foldl (fun (y : List Byte × List Byte × Nat × Nat) i =>
    let (es, ns, m, n) := y
    let r := x.slot i
    let tree := if r.state = .active then r.nodes else []
    (es ++ leBytes 2 i ++ leBytes 1 r.state.code ++ leBytes 1 (if r.nm4 then 1 else 0) ++ leBytes 4 m ++ leBytes 4 (rows r) ++
        leBytes 4 r.lc ++ leBytes 4 (if r.state = .active then n else 0xFFFFFFFF) ++ leBytes 2 r.pages ++ leBytes 2 0 ++
        leBytes 8 (tableOf x.cfg i).toNat,
      ns ++ tree.flatMap (fun z => leBytes 4 z.token.toNat ++ leBytes 1 z.parent ++ leBytes 1 z.depth ++ leBytes 2 0),
      m + rows r, n + tree.length)) ([], [], 0, 0)
  (leBytes 4 picked.length ++ leBytes 4 total ++ leBytes 4 (nodes.length / 8) ++ leBytes 4 x.cfg.pt ++ leBytes 4 x.cfg.e ++
    leBytes 4 0 ++ leBytes 8 x.cfg.pool ++ leBytes 8 x.cfg.pta ++ leBytes 8 x.cfg.tb ++ leBytes 8 x.cfg.db ++ leBytes 8 0 ++
    entries ++ nodes, total)

/-- `sqbat` (R278): a record for tag 0x9 is an engine write of the operation into the issuing core's A-buffer, which its loads are bound to see once
they have observed its token (R159); none once its task has ended, as `own` says (log 14). -/
def seqBatch (f : HubFlow) (x : Manager) (core : Nat) (own : Bool) (e : EngEntry) (a b : W64) : SeqAns :=
  let chunk := field b 16 16
  if field b 2 14 ≠ 0 ∨ (field b 0 1 = 1 ∧ chunk = 0) then seqFail f x
  else
    let (bs, m) := batchRecord x (field b 0 2) chunk
    if field b 32 32 < bs.length then (f, x, .error .record)
    else if bits a.toNat 60 4 = 9 then
      (if own then { f with st := ((f.st.flow core e f.time []).writeOwn (.buf core .a (field a 0 18)) bs).st } else f, x, .ok (some m))
    else
      let f1 := f.put x.cfg.ctx (colOf core) a bs
      match f1.bad with
      | some c => (f1, x, .error c)
      | none => (f1, x, .ok (some m))

/-! ### Order in the manager (R264, R265, R271) -/

/-- The manager of an operation, and the register that holds its slot. -/
def seqSlotOp : Instr → Option (Nat × Bool)
  | .sqadm m .. | .sqbat m .. => some (m.val, false)
  | .sqtree m .. | .sqvrd m .. | .sqacc m .. | .sqret m .. | .sqpre m .. | .sqres m .. | .sqkvAddr m .. | .sqkvAdv m .. =>
    some (m.val, true)
  | _ => none

/-- The result register of an operation. -/
def seqReg : Instr → Option Reg
  | .sqadm _ d .. | .sqtree _ d .. | .sqacc _ d .. | .sqret _ d .. | .sqpre _ d .. | .sqres _ d .. | .sqbat _ d .. | .sqkvAddr _ d ..
  | .sqkvAdv _ d .. => some d
  | _ => none

/-- The slot that an operation names in its register a: `none` breaks a rule of R271. Node words give it in [7:0] alone. -/
def Manager.slotOf (x : Manager) (op : Instr) (a : W64) : Option Nat :=
  let i := field a 0 8
  let high := match op with
    | .sqtree .. | .sqvrd .. => 0
    | _ => field a 8 56
  if high ≠ 0 ∨ x.cfg.nslot ≤ i then none else some i

/-- Whether an operation waits in its manager for a commit (R265). -/
def Manager.blocks (x : Manager) (e : EngEntry) : Bool :=
  match e.op with
  | .sqbat .. => !x.commits.isEmpty
  | .sqadm .. => false
  | op => match x.slotOf op (e.vals.getD 0 0) with
    | some i => (x.slot i).state == .committing
    | none => false

/-- One operation of a bound manager, as one step over its tables (R264, R265). -/
def Manager.perform (x : Manager) (f : HubFlow) (core id : Nat) (own : Bool) (e : EngEntry) : SeqAns :=
  let a := e.vals.getD 0 0
  let b := e.vals.getD 1 0
  let on (g : Nat → SeqAns) : SeqAns := match x.slotOf e.op a with
    | some i => g i
    | none => seqFail f x
  match e.op with
  | .sqadm .. => seqAdmit f x (colOf core) a
  | .sqbat .. => seqBatch f x core own e a b
  | .sqtree .. => on (seqTree f x a b)
  | .sqvrd .. => on (seqVerify f x a b)
  | .sqacc .. => on (seqAccept f x core id)
  | .sqret .. => on (seqRetire f x)
  | .sqpre _ _ _ rel _ => on (seqPreempt f x rel)
  | .sqres .. => on (seqResume f x)
  | .sqkvAddr .. => on (seqAddr f x b)
  | .sqkvAdv .. => on (seqAdvance f x b)
  | _ => seqFail f x

/-- The byte count of a manager's operation, which the spec states for none of them: free (log 14). -/
def seqBytes (s : State) (id : Nat) : Nat := Config.freeNat s.free (29 * id + 5) % 2 ^ 32

/-- The outcome of an operation with its result register (R271). -/
def seqOutcome (s : State) (e : EngEntry) (t : Nat) (r : Except Cause Nat) : Outcome :=
  let (st, cause, d) : TokState × Nat × Nat := match r with
    | .ok d => (.done, 0, d)
    | .error c => (.faulted, c.code, 2 ^ 63 + c.code)
  withRegs (outcome st cause (seqBytes s e.serial) t) ((seqReg e.op).toList.map fun (q : Reg) => (q.val, BitVec.ofNat 64 d))

/-- An operation that its manager takes up: its outcome, or COMMITTING. `orphan` is the context of one whose task has ended. -/
def State.manage (s : State) (m core : Nat) (orphan : Option Nat) (e : EngEntry) : State × Option Outcome :=
  let x := s.manager m
  let t := Nat.max e.time e.inTime
  if x.cfg.ctx = 0 ∨ x.cfg.ctx ≠ orphan.getD (s.core core).ctx then (s, some (seqOutcome s e t (.error .protection)))
  else
    let (f, x1, r) := x.perform { st := s, time := t, data := [], bad := none } core e.serial orphan.isNone e
    let s1 := f.st.setManager m x1
    match r with
    | .error c => (s1, some (seqOutcome s e f.time (.error c)))
    | .ok (some d) => (s1, some (seqOutcome s e f.time (.ok d)))
    | .ok none => (s1, none)

/-- An operation reaches its manager: it is performed, or waits for a commit (R265). -/
def startSeq (s : State) (m core : Nat) (e : EngEntry) : State × Stage :=
  let x := s.manager m
  if x.cfg.ctx ≠ 0 && x.cfg.ctx == (s.core core).ctx && x.blocks e then
    (s.setManager m { x with waiting := x.waiting ++ [(core, e.serial)] }, .waiting)
  else match s.manage m core none e with
    | (s1, some o) => (s1, .finished o false)
    | (s1, none) => (s1, .waiting)

/-- The operations that wait in a manager are tried again in their order. -/
def State.wakeManager (s : State) (m : Nat) : State :=
  let ws := (s.manager m).waiting
  ws.foldl (fun s w =>
    match (s.core w.1).started.find? fun y => y.id == w.2 with
    | none => s
    | some y =>
      if (s.manager m).blocks y.e then s.setManager m { s.manager m with waiting := (s.manager m).waiting ++ [w] }
      else match s.manage m w.1 y.orphan y.e with
        | (s1, some o) => s1.finish w.1 w.2 o
        | (s1, none) => s1) (s.setManager m { s.manager m with waiting := [] })

/-! ### The copy phase (R275) -/

/-- The copies of a commit and its output. -/
def HubFlow.copyOut (f : HubFlow) (cfg : ManagerConfig) (r : SeqRec) (c : Commit) : HubFlow :=
  let (ps, f1) := f.pages cfg c.slot r.pages
  let f2 := (c.path.mapIdx fun i n => (i, n)).foldl (fun (f : HubFlow) (y : Nat × Nat) =>
    let (bs, g) := f.get cfg.ctx 0 (BitVec.ofNat 64 (cfg.tb + (64 * c.slot + y.2) * cfg.e)) cfg.e
    if g.bad.isSome then g else g.put cfg.ctx 0 (kvAddr cfg ps (r.lc + y.1)) bs) f1
  if f2.bad.isSome then f2
  else f2.put cfg.ctx 0 (r.out + BitVec.ofNat 64 (4 * r.g)) (c.out.flatMap fun t => leBytes 4 t.toNat)

/-- The started operation of a commit, with the time it has reached. -/
def State.commitEntry (s : State) (c : Commit) : Option EngEntry :=
  ((s.core c.core).started.find? fun y => y.id == c.startedId).map fun y => y.e

/-- A commit leaves its manager with a record for its slot and an outcome; what waited goes on. -/
def State.endCommit (s : State) (m : Nat) (c : Commit) (x : Manager) (r : SeqRec) (t : Nat) (ans : Except Cause Nat) : State :=
  let s1 := s.setManager m { (x.setSlot c.slot r) with commits := x.commits.filter fun y => y != c }
  let s2 := match s.commitEntry c with
    | some e => s1.finish c.core c.startedId (seqOutcome s e t ans)
    | none => s1
  s2.wakeManager m

/-- SQACC_COMMIT_END: the copy phase of one commit of the manager ends; any may be the first (R265, R275). -/
def execSqaccCommitEnd (m : Nat) (s : State) : Res :=
  let x := s.manager m
  match x.commits[Config.freeNat s.free 227 % (x.commits.length + 1)]?.orElse fun _ => x.commits.head? with
  | none => .next s
  | some c =>
    let r := x.slot c.slot
    let t0 := ((s.commitEntry c).map fun e => Nat.max e.time e.inTime).getD 0
    let f := ({ st := s, time := t0, data := [], bad := none } : HubFlow).copyOut x.cfg r c
    match f.bad with
    | some e =>
      .next (f.st.endCommit m c { x with free := c.took ++ x.free } { r with state := .active, pages := r.pages - c.took.length }
        f.time (.error e))
    | none =>
      let n := c.out.length
      let lc := r.lc + n
      let r1 := { r with lc := lc, g := r.g + n, pending := c.out.getLastD 0, round := (r.round + 1) % 2 ^ 64
                         state := if c.done then .done else .active }
      .next (f.st.endCommit m c x r1.cut f.time (.ok (n + c.a * 256 + (if c.done then 65536 else 0) + lc * 2 ^ 32)))

/-- An uncorrectable error met by the commit of a core's operation (R275): as `sqpre.rel` from ACTIVE. -/
def State.commitError (s : State) (core id : Nat) : Option State :=
  s.hub.managers.findSome? fun (y : Nat × Manager) =>
    (y.2.commits.find? fun c => c.core == core && c.startedId == id).map fun c =>
      let x := y.2
      let t0 := ((s.commitEntry c).map fun e => Nat.max e.time e.inTime).getD 0
      let f : HubFlow := { st := s, time := t0, data := [], bad := none }
      let (f1, x1, r, _) := preemptSlot f x c.slot { x.slot c.slot with state := .active } true
      f1.st.endCommit y.1 c x1 r f1.time (.error .uncorrectable)

/-- Whether a configuration keeps the widths, ranges and alignments of the card (R262); the reset values also stand. -/
def configOk (c : ManagerConfig) : Bool :=
  let area (base size : Nat) : Bool := decide (base + size ≤ 2 ^ 57)
  c == bootConfig ||
    (c.ctx < 65536 && decide (1 ≤ c.nslot ∧ c.nslot ≤ 256) && [16, 32, 64, 128, 256].contains c.pt &&
      decide (c.e % 64 = 0 ∧ 64 ≤ c.e ∧ c.e ≤ 2 ^ 20) && decide (c.pool % 4096 = 0) && decide (1 ≤ c.npage ∧ c.npage ≤ 65536) &&
      area c.pool (c.npage * c.pt * c.e) && decide (c.res ≤ c.npage) && decide (c.pta % 4096 = 0) && area c.pta (c.nslot * 4096) &&
      area c.tb (c.nslot * 64 * c.e) && area c.db (c.nslot * 64 * c.e))

/-- MANAGER_CONFIGURE: firmware binds and configures a manager (R262); a configuration outside the card's ranges is not taken (log 14).
A commit in its copy phase ends with its token faulted; what waited meets the new binding. -/
def execManagerConfigure (m : Nat) (cfg : ManagerConfig) (s : State) : Res :=
  if 8 ≤ m ∨ !configOk cfg then .next s
  else
    let x := s.manager m
    let s1 := x.commits.foldl (fun (s : State) c => match s.commitEntry c with
      | some e => s.finish c.core c.startedId (seqOutcome s e (Nat.max e.time e.inTime) (.error .sequence))
      | none => s) s
    .next ((s1.setManager m { Manager.fresh cfg with waiting := x.waiting }).wakeManager m)

/-! ### Dispatch (R271, R278) -/

/-- The dispatch of an operation: its registers are read into the sequence-manager queue (R223, R271). -/
def seqOp (op : Instr) (d : Option Reg) (srcs : List Reg) (tw : TokenWord) (s : State) : Res :=
  engineOp s ((d.toList ++ srcs).map fun r => .s r.val) 5 tw fun c => withClean s c srcs fun _ =>
    .next (s.enqueue c 5 (newEntry s c op tw (srcs.map fun r => (s.sr c r.val).val)))

/-- `sqadm` (R272). -/
def execSqadm (m : Fin 8) (d a : Reg) (tw : TokenWord) (s : State) : Res := seqOp (.sqadm m d a tw) (some d) [a] tw s
/-- `sqtree` (R274). -/
def execSqtree (m : Fin 8) (d a b : Reg) (tw : TokenWord) (s : State) : Res := seqOp (.sqtree m d a b tw) (some d) [a, b] tw s
/-- `sqvrd` (R274). -/
def execSqvrd (m : Fin 8) (a b : Reg) (tw : TokenWord) (s : State) : Res := seqOp (.sqvrd m a b tw) none [a, b] tw s
/-- `sqacc` (R275). -/
def execSqacc (m : Fin 8) (d a : Reg) (tw : TokenWord) (s : State) : Res := seqOp (.sqacc m d a tw) (some d) [a] tw s
/-- `sqret` (R277). -/
def execSqret (m : Fin 8) (d a : Reg) (tw : TokenWord) (s : State) : Res := seqOp (.sqret m d a tw) (some d) [a] tw s
/-- `sqpre` and `sqpre.rel` (R276). -/
def execSqpre (m : Fin 8) (d a : Reg) (rel : Bool) (tw : TokenWord) (s : State) : Res := seqOp (.sqpre m d a rel tw) (some d) [a] tw s
/-- `sqres` (R276). -/
def execSqres (m : Fin 8) (d a : Reg) (tw : TokenWord) (s : State) : Res := seqOp (.sqres m d a tw) (some d) [a] tw s
/-- `sqkv.addr` (R273). -/
def execSqkvAddr (m : Fin 8) (d a b : Reg) (tw : TokenWord) (s : State) : Res := seqOp (.sqkvAddr m d a b tw) (some d) [a, b] tw s
/-- `sqkv.adv` (R273). -/
def execSqkvAdv (m : Fin 8) (d a b : Reg) (tw : TokenWord) (s : State) : Res := seqOp (.sqkvAdv m d a b tw) (some d) [a, b] tw s

/-- `sqbat` (R278): the destination is checked under R155 steps 1 to 6 over the capacity. -/
def execSqbat (m : Fin 8) (d a b : Reg) (tw : TokenWord) (s : State) : Res :=
  engineOp s [.s d.val, .s a.val, .s b.val] 5 tw fun c => withClean s c [a, b] fun _ =>
    let av := (s.sr c a.val).val
    let bv := (s.sr c b.val).val
    orTrap s c (checkHere s c.core c.slot.index .parser .write [(av, field bv 32 32, 64)]) fun _ =>
      .next (s.enqueue c 5 (newEntry s c (.sqbat m d a b tw) tw [av, bv]))

end Sys2Proof.Machine
end

