-- ==== Sys2Proof/Machine/System.lean ====
section
/-!
DEFINITION. `slotld`, `grpset` and `tlbinv` (R299), the advance of logical clocks (R202), the watchdog (R28), stuck cores (R225,
R226) and events of firmware cores (R144).
-/
namespace Sys2Proof.Machine

/-! ### slotld, grpset, tlbinv (R299) -/

/-- Ports of a router (R289); an identifier that names none has no ports. -/
def routerPorts (id : Nat) : Nat :=
  if id < 0x800 then 5 else if id < 0x808 then 18 else if id = 0x810 then 46 else 0

/-- `slotld` (R299). -/
def execSlotld (a b : Reg) (tw : TokenWord) (s : State) : Res :=
  engineOp s [.s a.val, .s b.val] 0 tw fun c => withClean s c [a, b] fun _ =>
    let av := (s.sr c a.val).val
    let bv := (s.sr c b.val).val
    orSpace s c (routerPorts av.toNat != 0) av fun _ =>
      orSpace s c (bv.toNat % 64 == 0 && reachable bv.toNat (256 * routerPorts av.toNat)) bv fun _ =>
        .next (s.enqueue c 0 (newEntry s c (.slotld a b tw) tw [av, bv]))

/-- `grpset` (R299). -/
def execGrpset (a b : Reg) (tw : TokenWord) (s : State) : Res :=
  engineOp s [.s a.val, .s b.val] 0 tw fun c => withClean s c [a, b] fun _ =>
    let av := (s.sr c a.val).val
    orSpace s c (decide (av.toNat < 0x20000) && (field av 16 1 == 0 || decide (field av 0 16 ≤ 52))) av fun _ =>
      .next (s.enqueue c 0 (newEntry s c (.grpset a b tw) tw [av, (s.sr c b.val).val]))

/-- `tlbinv` (R299). -/
def execTlbinv (a b x : Reg) (tw : TokenWord) (s : State) : Res :=
  engineOp s [.s a.val, .s b.val, .s x.val] 0 tw fun c => withClean s c [a, b, x] fun _ =>
    let g (r : Reg) : W64 := (s.sr c r.val).val
    orSpace s c (decide ((g a).toNat < 0x30000)) (g a) fun _ =>
      .next (s.enqueue c 0 (newEntry s c (.tlbinv a b x tw) tw [g a, g b, g x]))

/-- The start of `slotld`: the table is read; its installation is awaited. -/
def startSlotld (s : State) (core : Nat) (e : EngEntry) : State × Stage :=
  let id := e.val 0
  let (bs, t, s1) := s.engRead (Nat.max e.time e.inTime) (.phys (e.val 1)) (256 * routerPorts id)
  let x : Install :=
    { router := id, table := bs, core := core, startedId := e.serial, due := nextZero (kget 0 s.rt.slotBase id) s.cycle
      time := Nat.max (Nat.max e.time e.inTime) t }
  ({ s1 with rt := { s1.rt with installs := s1.rt.installs ++ [x] } }, .waiting)

/-- SLOT_TABLE_INSTALL: the tables whose routers' counters read 0 are installed, all at once (R299). -/
def execSlotTableInstall (s : State) : Res :=
  let due := s.rt.installs.filter fun x => decide (x.due ≤ s.cycle)
  let rt := { s.rt with
    installs := s.rt.installs.filter fun x => !decide (x.due ≤ s.cycle)
    slotTables := due.foldl (fun m x => kput m x.router x.table) s.rt.slotTables }
  .next (due.foldl (fun (s : State) x => s.finish x.core x.startedId (outcome .done 0 0 x.time)) { s with rt := rt })

/-- The start of `grpset`: the switch writes the entry or the register whole. -/
def startGrpset (s : State) (e : EngEntry) : State × Stage :=
  let n := e.val 0 % 65536
  let v := e.vals.getD 1 0
  let rt := if e.val 0 / 65536 = 0 then { s.rt with groupTable := kset 0 s.rt.groupTable n v }
    else { s.rt with groupRegs := kset 0 s.rt.groupRegs n v }
  ({ s with rt := rt }, .finished (outcome .done 0 0 (Nat.max e.time e.inTime)) false)

/-- Whether a `tlbinv` covers a cached translation; a range of no bytes covers none. -/
def covered (a b c : Nat) (l : Leaf) : Bool :=
  bits a 16 2 == 0 ||
    (l.ctx == a % 65536 && (bits a 16 2 == 1 || (c != 0 && decide (b < l.va + l.size) && decide (l.va < b + c))))

/-- Whether a core still has accesses to memory beyond its cluster that are not performed or acknowledged. -/
def Core.openGlobal (k : Core) : Bool :=
  k.outs.any fun o => (o.ldPend || o.stPend) && o.parts.any fun p => match p.place with
    | .phys _ | .far _ _ => true
    | .buf .. => false

/-- The start of `tlbinv`, once the open accesses of the contexts it names have ended: the cached translations it covers are
dropped. Which leaf an open access went through is not kept; a wait for more of them is allowed. -/
def startTlbinv (s : State) (core : Nat) (e : EngEntry) : Option (State × Stage) :=
  let a := e.val 0
  let named (x : Nat × Core) : Bool := bits a 16 2 == 0 || x.2.ctx == a % 65536
  if s.cores.any fun x => named x && x.2.openGlobal then none
  else
    let keep (ls : List Leaf) : List Leaf := ls.filter fun l => !covered a (e.val 1) (e.val 2) l
    let s1 := { s with
      cores := s.cores.map fun x => (x.1, { x.2 with utlb := keep x.2.utlb })
      ms := { s.ms with clusterTlb := s.ms.clusterTlb.map fun x => (x.1, keep x.2) } }
    some (s1, .finished (outcome .done 0 0 (Nat.max (s.core core).ltime e.inTime)) false)

/-! ### Clocks, watchdog, stuck cores, events -/

/-- Every core of the module: user cores and firmware cores (R6, R8). -/
def allCores : List Nat := List.range 2048 ++ (List.range 8).map fun c => 0xF000 + c

/-- LTIME_ADVANCE: every 1,024 cycles each core's logical clock rises by one (R202). -/
def execLtimeAdvance (s : State) : Res :=
  .next (allCores.foldl (fun s i => s.modCore i fun k => k.raise (k.ltime + 1)) s)

/-- A user core runs its task. -/
def Core.busy (k : Core) : Bool := k.run == .running || k.run == .ending

/-- WATCHDOG: the counter has reached `wdog`, and the core traps before its next bundle (R28, R144). -/
def execWatchdog (core : Nat) (s : State) : Res :=
  let k := s.core core
  let lim := (k.csrNow 0x068).toNat
  if isFw core || !k.busy || lim == 0 || decide (lim ≤ k.wdogSeen) || decide (k.wdogCount < lim) then .next s
  else
    let s1 := s.modCore core fun k => { k with wdogSeen := k.wdogCount }
    .next (s1.exception core k.bn k.stopPc { cause := .watchdog, tval := BitVec.ofNat 64 lim, slot := 15, async := false })

/-- The full engine queues of a core, with their sizes. -/
def Core.fullQueues (k : Core) : List (Nat × Nat) :=
  ((List.range 6).filter k.queueFull).map fun q => (queueBase q + kget 0 k.extensions q, q)

/-- The smallest full queue of a core, the lower class code on a tie (R225). -/
def Core.smallestFull (k : Core) : Option Nat :=
  (k.fullQueues.foldl (fun (m : Option (Nat × Nat)) x => match m with
    | none => some x
    | some y => if x.1 < y.1 then some x else some y) none).map fun x => x.2

/-- The oldest bundle that a class has not dispatched (R226). -/
def Core.lagsAt (k : Core) (cls : Class) : Nat := ((k.slips.find? fun x => x.cls == cls).map fun x => x.cur.pc).getD k.pc

/-- STUCK_CORE: after 64 cycles without a dispatch or a start, the smallest full queue takes 16 entries of the cluster's spill
pool; with fewer than 16 left the core traps, at the bundle where the class of that queue waits (R225, R226). -/
def execStuckCore (core : Nat) (s : State) : Res :=
  let k := s.core core
  if isFw core || !k.busy || k.idle < 64 then .next s
  else match k.smallestFull with
    | none => .next s
    | some q =>
      let used := kget 0 s.spill (clusterOf core)
      let s1 := s.modCore core fun k => { k with idle := 0 }
      if 1024 < used + 16 then
        .next (s1.exception core k.bn (k.lagsAt (if q = 1 then .x else .a))
          { cause := .queueExhausted, tval := BitVec.ofNat 64 q, slot := if q = 1 then 8 else 9, async := false })
      else
        .next { s1.modCore core (fun k => { k.count 14 1 with extensions := kput k.extensions q (kget 0 k.extensions q + 16) }) with
          spill := kput s1.spill (clusterOf core) (used + 16) }

/-- EVENT_TAKEN: a firmware core takes the oldest asynchronous event at a bundle boundary, while EE is 1 (R144, R148): one that every class has
reached (R99; log 7). -/
def execEventTaken (col : Nat) (s : State) : Res :=
  let k := s.core (0xF000 + col)
  if s.eventReady col && k.closing.isNone && k.slips.isEmpty && k.ending.isNone && (k.run == .running || k.run == .sleeping) then .next (s.takeEvent col k.bn) else .next s

end Sys2Proof.Machine
end

