-- ==== Sys2Proof/Machine/SaveArea.lean ====
section
/-!
DEFINITION. The task save area in memory (R324, R325, R327): what a suspension writes into it, and what a resumption takes from
it. Items whose fields the spec names without their offsets stand packed in the order of their state cards; queue entries, which have no
layout at all, are written free and not read back (log 20).
-/
namespace Sys2Proof.Machine

/-! ### Held-write records (R325) -/

/-- The codes of the producing classes. -/
def classCode : Class → Nat | .s => 0 | .v => 1 | .f => 2 | .m => 3 | .x => 4 | .a => 5

/-- The class of a code. -/
def classOf : Nat → Class | 0 => .s | 1 => .v | 2 => .f | 3 => .m | 4 => .x | _ => .a

/-- Kind and destination of a write. -/
def WriteTo.kind : WriteTo → Nat × Nat
  | .scalar r _ _ => (1, r) | .vector _ r _ _ => (2, r) | .mask _ r _ => (3, r) | .mstack .. => (4, 0) | .csr n _ => (5, n)
  | .flags _ => (6, 0)

/-- The clusters that a write changes, as a mask, and its DF bits. -/
def WriteTo.masks : WriteTo → Nat × Nat
  | .scalar _ _ df => (0, if df then 1 else 0)
  | .vector c _ _ df => (2 ^ c, if df then 2 ^ c else 0)
  | .mask c _ _ | .mstack c _ _ => (2 ^ c, 0)
  | .csr .. | .flags _ => (0, 0)

/-- The value in a header. -/
def WriteTo.value : WriteTo → Nat
  | .scalar _ v _ | .csr _ v | .flags v => v.toNat
  | .vector .. | .mask .. | .mstack .. => 0

/-- The body of a write, 80 bytes for kinds 2 to 4. -/
def WriteTo.body : WriteTo → List Byte
  | .vector _ _ lanes _ =>
    leBytes 16 ((lanes.map fun x => 2 ^ x.1).foldl (· + ·) 0) ++
      (List.range 16).flatMap fun i => leBytes 4 (((lanes.find? fun x => x.1 == i).map fun x => x.2.toNat).getD 0)
  | .mask _ _ v => leBytes 80 v.toNat
  | .mstack _ d es => leBytes 16 d ++ (List.range 16).flatMap (fun j => leBytes 2 (stackEntry (d, es) j).toNat) ++ leBytes 32 0
  | .scalar .. | .csr .. | .flags _ => []

/-- Bundles from boundary `m` to the landing point of a write. -/
def HeldWrite.distance (w : HeldWrite) (m : Nat) : Nat := w.n + w.lat - m

/-- Whether a write is held at boundary `m` (R99). -/
def HeldWrite.isHeld (w : HeldWrite) (m : Nat) : Bool := decide (w.n < m ∧ m < w.n + w.lat)

/-- Insert by landing point. -/
def insertLanding (m : Nat) (w : HeldWrite) : List HeldWrite → List HeldWrite
  | [] => [w]
  | y :: ys => if w.distance m ≤ y.distance m then w :: y :: ys else y :: insertLanding m w ys

/-- The record of one write of one operation: its writes to single clusters stand together. -/
def recordOf (m : Nat) (ws : List HeldWrite) : List Byte :=
  match ws with
  | [] => []
  | w :: _ =>
    let (kind, dest) := w.wr.kind
    let mask := (ws.map fun x => x.wr.masks.1).foldl (· ||| ·) 0
    let df := (ws.map fun x => x.wr.masks.2).foldl (· ||| ·) 0
    leBytes 1 kind ++ leBytes 1 (classCode w.cls) ++ leBytes 2 dest ++ leBytes 1 (w.distance m) ++ leBytes 1 mask ++ leBytes 1 df ++
      leBytes 1 0 ++ leBytes 8 w.wr.value ++ ws.flatMap fun x => x.wr.body

/-- Writes of one operation to rising clusters, grouped. -/
def groupWrites : List HeldWrite → List (List HeldWrite)
  | [] => []
  | w :: ws =>
    match groupWrites ws with
    | (y :: ys) :: rest =>
      if w.cls = y.cls ∧ w.n = y.n ∧ w.lat = y.lat ∧ w.wr.kind = y.wr.kind ∧ w.wr.masks.1 < y.wr.masks.1 ∧ w.wr.masks.1 ≠ 0 then
        (w :: y :: ys) :: rest
      else [w] :: (y :: ys) :: rest
    | gs => [w] :: gs

/-- The held-write area of a core, up to its end record. -/
def Core.heldArea (k : Core) : List Byte :=
  let ws := (k.writes.filter fun w => w.isHeld k.bn).foldr (insertLanding k.bn) []
  (groupWrites ws).flatMap (recordOf k.bn) ++ leBytes 16 0

/-- The writes of a body for one cluster of kinds 2 to 4; `none` when a zero field is not zero. -/
def readBody (kind dest df c : Nat) (bs : List Byte) : Option WriteTo :=
  if kind = 2 then
    if !zeroAt bs 2 14 then none
    else some (.vector c dest (((List.range 16).filter fun i => bits (leAt bs 0 2) i 1 == 1).map fun i =>
      (i, BitVec.ofNat 32 (leAt bs (16 + 4 * i) 4))) (bits df c 1 == 1))
  else if kind = 3 then (if zeroAt bs 2 78 then some (.mask c dest (BitVec.ofNat 16 (leAt bs 0 2))) else none)
  else if !zeroAt bs 1 15 || !zeroAt bs 48 32 then none
  else some (.mstack c (leAt bs 0 1) ((List.range 15).map fun j => (j + 1, BitVec.ofNat 16 (leAt bs (18 + 2 * j) 2))))

/-- Read records up to the end record at boundary `m`; the first number bounds them. `none` is a bad record (R325). -/
def readRecords (m : Nat) : Nat → List Byte → Option (List HeldWrite)
  | 0, _ => some []
  | f + 1, bs =>
    let kind := leAt bs 0 1
    let dest := leAt bs 2 2
    let mask := leAt bs 5 1
    let df := leAt bs 6 1
    let n := m - 1
    let held (w : WriteTo) : HeldWrite :=
      { cls := classOf (leAt bs 1 1), n := n, lat := m + leAt bs 4 1 - n, sync := none, tok := none, wr := w }
    let v := BitVec.ofNat 64 (leAt bs 8 8)
    let one (w : WriteTo) (ok : Bool) : Option (List HeldWrite) :=
      if ok then (readRecords m f (bs.drop 16)).map fun ws => held w :: ws else none
    if kind = 0 then some []
    else if 7 ≤ kind ∨ !zeroAt bs 7 1 then none
    else if kind = 1 then one (.scalar dest v (df == 1)) (mask == 0 && df ≤ 1)
    else if kind = 5 then one (.csr dest v) (mask == 0 && df == 0)
    else if kind = 6 then one (.flags v) (mask == 0 && df == 0 && dest == 0)
    else if !zeroAt bs 8 8 ∨ (kind = 4 ∧ dest ≠ 0) ∨ (kind ≠ 2 ∧ df ≠ 0) then none
    else
      let cs := (List.range 8).filter fun c => bits mask c 1 == 1
      let bodies := cs.mapIdx fun i c => readBody kind dest df c ((bs.drop (16 + 80 * i)).take 80)
      match bodies.mapM id, readRecords m f (bs.drop (16 + 80 * cs.length)) with
      | some ws, some rest => some (ws.map held ++ rest)
      | _, _ => none

/-! ### The area (R324) -/

/-- The CSRs in ascending order (R136). -/
def csrNumbers : List Nat :=
  [0x000, 0x001, 0x002, 0x003, 0x004, 0x010, 0x020, 0x021, 0x022, 0x023, 0x028, 0x029, 0x02A, 0x02B, 0x02C, 0x02D, 0x030, 0x031,
    0x032, 0x033, 0x040, 0x048, 0x049, 0x050, 0x051, 0x052, 0x053, 0x054, 0x058, 0x060, 0x068]

/-- Land the writes that are past their landing point: the registers as a suspension saves them (R99). -/
def Core.landPast (k : Core) : Core :=
  (k.writes.filter fun w => !w.isHeld k.bn).foldl (fun k w => w.wr.land k)
    { k with writes := k.writes.filter fun w => w.isHeld k.bn }

/-- The bits of a DF map from an index on, as a number. -/
def dfBits (get : Nat → Bool) : Nat := (List.range 64).foldl (fun n r => n + if get r then 2 ^ r else 0) 0

/-- Bytes of a logical value. -/
def boolBytes (n : Nat) (b : Bool) : List Byte := leBytes n (if b then 1 else 0)

/-- A loop level in 32 bytes: active, count, iteration, start, length. -/
def LoopLevel.save (l : LoopLevel) : List Byte :=
  boolBytes 8 l.active ++ leBytes 8 l.count.toNat ++ leBytes 8 l.iter.toNat ++ leBytes 4 l.start ++ leBytes 4 l.len

/-- A loop level from its 32 bytes. -/
def LoopLevel.load (bs : List Byte) : LoopLevel :=
  { active := leAt bs 0 8 % 2 == 1, count := BitVec.ofNat 64 (leAt bs 8 8), iter := BitVec.ofNat 64 (leAt bs 16 8)
    start := leAt bs 24 4 % 16384, len := leAt bs 28 4 }

/-- The token state of a code. -/
def TokState.ofCode (n : Nat) : TokState :=
  match n % 4 with | 0 => .done | 1 => .faulted | 2 => .cancelled | _ => .pending

/-- A token from its 16 bytes. -/
def Token.load (old : Token) (bs : List Byte) : Token :=
  { old with state := .ofCode (leAt bs 0 1), cause := leAt bs 1 1, gen := leAt bs 2 2, bytes := leAt bs 4 4, t := leAt bs 8 8 }

/-- A phase barrier in 32 bytes: C, pending, expected, arrived, phase, Tmax. -/
def Barrier.save (b : Barrier) : List Byte :=
  leBytes 2 b.c ++ leBytes 2 b.pending ++ leBytes 6 b.expected ++ leBytes 6 b.arrived ++ leBytes 4 b.phase ++ leBytes 8 b.tmax ++ leBytes 4 0

/-- A phase barrier from its 32 bytes. -/
def Barrier.load (old : Barrier) (bs : List Byte) : Barrier :=
  { old with c := leAt bs 0 2, pending := leAt bs 2 2, expected := leAt bs 4 6, arrived := leAt bs 10 6, phase := leAt bs 16 4
             tmax := leAt bs 20 8 }

/-- A grid handle in 16 bytes: valid, role, pending, descriptor address, polder index. -/
def Handle.save (h : Handle) : List Byte :=
  leBytes 16 ((if h.valid then 1 else 0) + (if h.reader then 2 else 0) + (if h.pending then 4 else 0) + h.desc % 2 ^ 57 * 8 +
    h.polder % 4096 * 2 ^ 60)

/-- A grid handle from its 16 bytes; the descriptor that it has read stays while the address is the same. -/
def Handle.load (old : Handle) (bs : List Byte) : Handle :=
  let v := leAt bs 0 9
  let d := bits v 3 57
  { old with
    valid := v % 2 == 1
    reader := v / 2 % 2 == 1
    pending := v / 4 % 2 == 1
    desc := d
    polder := bits v 60 12
    grid := if d = old.desc then old.grid else Option.none }

/-- The code of a held wait. -/
def Hold.code : Hold → Nat
  | .none => 0 | .wait => 1 | .fwait => 2 | .twait => 3 | .barw => 4 | .vwait => 5 | .final => 6
  | .stale | .staleBy .. => 7
  | .handlePending | .counter | .queueFull | .loadBuffer | .acquire | .stride | .slip | .moving => 0

/-- The code of the wait that a core is held in: its next bundle's, or that of a class that stays behind (R320). -/
def Core.waitCode (k : Core) : Nat :=
  if k.finalWait then 6
  else if k.hold.code ≠ 0 then k.hold.code
  else (k.slips.findSome? fun x => match x.op with
    | .twait .. => some 3
    | .barw .. => some 4
    | .vwait .. => some 5
    | .access .. => if x.why.isStale then some 7 else none
    | .enter .. | .defer .. => none).getD 0

/-- ld, st, the sync flags, the free-slot counters, the dispenser range, the kind of the held wait, the queue lengths and the halt slot. -/
def Core.saveCounters (k : Core) (halt : Nat) : List Byte :=
  leBytes 2 k.ld ++ leBytes 2 k.st ++ leBytes 4 (((List.range 32).filter fun i => (k.flag i).set).foldl (fun n i => n + 2 ^ i) 0) ++
    (List.range 16).flatMap (fun i => leBytes 1 (kget 0 k.freeSlots i)) ++ leBytes 8 k.range.1 ++ leBytes 8 k.range.2 ++
    leBytes 1 k.waitCode ++ (List.range 6).flatMap (fun q => leBytes 2 (k.queue q).length) ++
    leBytes 1 halt ++ leBytes 202 0

/-- The parts of a save area that are written and taken back, with their offsets. -/
def saveParts (s : State) (i : Nat) (k0 : Core) : List (Nat × List Byte) :=
  let k := k0.landPast
  [(0x00000, mread k.wbuf 0 196608), (0x30000, mread k.abuf 0 131072), (0x50000, mread k.rbuf 0 65536),
    (0x60000, (List.range 8192).flatMap fun x => leBytes 4 (kget 0 k.vlanes x).toNat),
    (0x70000, (List.range 64).flatMap fun r => leBytes 8 (k.sbase r).val.toNat),
    (0x70200, leBytes 8 (dfBits fun r => (k.sbase r).df) ++
      (List.range 8).flatMap (fun c => leBytes 8 (dfBits fun r => kget false k.vdf (c * 64 + r))) ++ leBytes 56 0),
    (0x70280, (List.range 64).flatMap fun x => leBytes 2 (if x % 8 = 0 then 0xFFFF else (kget 0 k.kregs x).toNat)),
    (0x70300, (List.range 8).flatMap fun c =>
      let st := k.stackRead (fun _ => false) c
      (List.range 16).flatMap (fun j => leBytes 2 (stackEntry st j).toNat) ++ leBytes 32 st.1),
    (0x68000, let ch := k.mx.staging.flatMap fun x => slice64 x.2
      (ch ++ List.replicate (16384 - ch.length) 0).take 16384),
    (0x70500, (List.range 6).flatMap (fun l => (k.level (l + 1)).save) ++ List.replicate 64 0),
    (0x70600, (List.range 24).flatMap fun x =>
      let e := kget ⟨0, 0⟩ k.strides x
      leBytes 4 e.reg ++ leBytes 4 e.stride.toNat),
    (0x70700, csrNumbers.flatMap fun n => leBytes 8 (
      if n = 0x002 then i % 65536
      else if n = 0x040 then (kget 0 s.ms.nsplit (k.ctx * 8 + colOf i)).toNat
      else (kget 0 k.csr n).toNat)),
    (0x71000, let h := k.heldArea
      h ++ List.replicate (28672 - h.length) 0),
    (0x70800, List.replicate 16 0 ++ (List.range 63).flatMap fun t => (kget Token.init k.tokens (t + 1)).save),
    (0x70C00, (List.range 16).flatMap fun b => (kget .none k.barriers b).save),
    (0x70E00, k.saveCounters ((k.haltCycle + (256 - kget 0 s.rt.slotBase (i % 65536) % 256)) % 256)),
    (0x70F00, (List.range 8).flatMap (fun h => (k.handle h).save) ++ leBytes 128 k.holdCount),
    (0x78000, List.replicate 32768 0)]
where
  /-- The 64 bytes of a staged chunk. -/
  slice64 (bs : List Byte) : List Byte := (bs ++ List.replicate 64 0).take 64

/-- The parts whose layout the spec does not give: queue entries, and what lies beyond the stride entries and the CSRs. -/
def freeParts : List (Nat × Nat) := [(0x6C000, 16384), (0x706C0, 64), (0x707F8, 8)]

/-- A suspended core's state is written to its save area (R323, R324). -/
def State.writeSave (s : State) (i : Nat) : State :=
  match s.saveBase i with
  | none => s
  | some base =>
    let unknown := freeParts.map fun x => (x.1, (List.range x.2).map fun j => Config.freeByte s.free (7919 + x.1 + j))
    let mem := (unknown ++ saveParts s i (s.core i)).foldl (fun m x => mwrite m (base + x.1) x.2) s.ms.mem
    { s with ms := { s.ms with mem := mem }, hub := { s.hub with saved := kput s.hub.saved (i % 65536) (s.core i) } }

/-- The halt slot of a core: what its router's counter read when it was suspended (R324, R327). -/
def State.haltSlot (s : State) (i : Nat) : Nat := ((s.core i).haltCycle + (256 - kget 0 s.rt.slotBase (i % 65536) % 256)) % 256

/-- The registers and buffers of a save area's bytes; `get` reads from an offset, and `halt` is the slot in which the core was suspended.
A shorter queue keeps its oldest entries. `none` is a bad held-write record. -/
def Core.loadSave (k0 : Core) (halt : Nat) (get : Nat → Nat → List Byte) : Option Core :=
  let k := k0.landPast
  let num (o n : Nat) : Nat := leNat (get o n)
  let df (o r : Nat) : Bool := bits (num o 8) r 1 == 1
  (readRecords k.bn 1792 (get 0x71000 28672)).map fun ws =>
    { k with
      writes := ws
      wbuf := mwrite [] 0 (get 0 196608)
      abuf := mwrite [] 0 (get 0x30000 131072)
      rbuf := mwrite [] 0 (get 0x50000 65536)
      vlanes := (List.range 8192).foldl (fun m x => kset 0 m x (BitVec.ofNat 32 (num (0x60000 + 4 * x) 4))) []
      sregs := ((List.range 64).drop 1).foldl (fun m r =>
        kset ⟨0, false⟩ m r ⟨BitVec.ofNat 64 (num (0x70000 + 8 * r) 8), df 0x70200 r⟩) []
      vdf := (List.range 512).foldl (fun m x => kset false m x (df (0x70208 + 8 * (x / 64)) (x % 64))) []
      kregs := (List.range 64).foldl (fun m x => if x % 8 = 0 then m else kset 0 m x (BitVec.ofNat 16 (num (0x70280 + 2 * x) 2))) []
      mdepth := (List.range 8).foldl (fun m c => kset 0 m c (num (0x70320 + 64 * c) 1)) []
      mstack := (List.range 128).foldl (fun m x =>
        if x % 16 = 0 then m else kset 0 m x (BitVec.ofNat 16 (num (0x70300 + 64 * (x / 16) + 2 * (x % 16)) 2))) []
      strides := (List.range 24).foldl (fun m x =>
        kset ⟨0, 0⟩ m x ⟨num (0x70600 + 8 * x) 1 % 64, BitVec.ofNat 32 (num (0x70604 + 8 * x) 4)⟩) []
      mx := { k.mx with
        staging := k.mx.staging.mapIdx fun j x => (x.1, get (0x68000 + 64 * j) 64)
        queue := k.mx.queue.take (num 0x70E2B 2) }
      loops := (List.range 6).foldl (fun m l => kset .init m (l + 1) (.load (get (0x70500 + 32 * l) 32))) k.loops
      tokens := (List.range 63).foldl (fun m t =>
        let old := kget Token.init m (t + 1)
        let new := old.load (get (0x70810 + 16 * t) 16)
        if new = old then m else kput m (t + 1) new) k.tokens
      barriers := (List.range 16).foldl (fun m b => kset .none m b ((kget .none m b).load (get (0x70C00 + 32 * b) 32))) k.barriers
      flags := (List.range 32).foldl (fun m f =>
        let old := kget ⟨false, 0⟩ m f
        kset ⟨false, 0⟩ m f { old with set := bits (num 0x70E04 4) f 1 == 1 }) k.flags
      finalWait := k.finalWait && num 0x70E28 1 == 6
      queues := k.queues.filterMap fun q => match q.2.take (num (0x70E29 + 2 * q.1) 2) with
        | [] => none
        | es => some (q.1, es)
      haltCycle := k.haltCycle + (num 0x70E35 1 + 256 - halt % 256) % 256
      holdCount := num 0x70F80 8
      freeSlots := (List.range 16).foldl (fun m n => kset 0 m n (num (0x70E08 + n) 1)) k.freeSlots
      range := (num 0x70E18 8, num 0x70E20 8)
      handles := (List.range 8).foldl (fun m h =>
        let old := kget .none m h
        let new := old.load (get (0x70F00 + 16 * h) 16)
        if new = old then m else kput m h new) k.handles
      csr := (csrNumbers.mapIdx fun j n => (n, num (0x70700 + 8 * j) 8)).foldl (fun m x =>
        if x.1 = 0x002 ∨ x.1 = 0x040 then m else kset 0 m x.1 (csrTrim x.1 (BitVec.ofNat 64 x.2))) k.csr }

/-- What a resumption reads: a byte that firmware has changed since the save, else the byte as it now stands. -/
def mergeSave : List Byte → List Byte → List Byte → List Byte
  | m :: ms, o :: os, n :: ns => (if m = o then n else m) :: mergeSave ms os ns
  | _, _, ns => ns

/-- Bytes of the parts of an area. -/
def partBytes (ps : List (Nat × List Byte)) (o n : Nat) : List Byte :=
  match ps.find? fun p => decide (p.1 ≤ o ∧ o < p.1 + p.2.length) with
  | some p => (p.2.drop (o - p.1)).take n
  | none => []

/-- What waits for a token learns that firmware has ended its generation in the save area (R304, R327). -/
def State.resolveEdited (s : State) (i : Nat) (old new : Core) : State :=
  (new.tokens.filter fun t => t.2.state != .pending && (kget Token.init old.tokens t.1).state == .pending).foldl (fun s t =>
    s.modCore i fun k =>
      { k with
        queues := k.queues.map fun q => (q.1, q.2.map fun e => e.resolve t.1 t.2)
        mx := { k.mx with queue := k.mx.queue.map fun e => e.resolve t.1 t.2 }
        slips := k.slips.map fun x => x.resolve t.1 t.2 }) s

/-- A core takes its state from its save area again (R327, R329). What firmware has left as it was saved changes nothing.
`none` is a bad held-write record (R325). -/
def State.reload (s : State) (i : Nat) : Option State :=
  let k := s.core i
  match s.saveBase i, s.hub.saved.find? fun x => x.1 == i % 65536 && x.2.lid == k.lid with
  | some base, some (_, old) =>
    let now := saveParts s i k
    let was := saveParts s i old
    let new := now.map fun x => (x.1, mergeSave (mread s.ms.mem (base + x.1) x.2.length) (partBytes was x.1 x.2.length) x.2)
    if new = now then some s else (k.loadSave (s.haltSlot i) (partBytes new)).map fun k1 => (s.setCore i k1).resolveEdited i k k1
  | _, _ => some s

end Sys2Proof.Machine
end

