-- ==== Sys2Proof/Machine/Suspend.lean ====
section
/-!
DEFINITION. Suspension, dispositions, pre-emption and resumption, replay, retirement and migration (R29, R320, R323 to R335,
R350, R369). A pre-empted task stands under a key of its own (log 20); its save area in memory is Machine/SaveArea.lean's.
-/
namespace Sys2Proof.Machine

/-! ### Halting and saving (R323, R326, R328) -/

/-- What a suspension does to the matrix engine: the progress of the interrupted fetch is recorded in mres, and of its chunks the prefixes
stay (R180, R181); every other staged chunk stays (R186). -/
def State.suspendMatrix (s : State) (core : Nat) : State :=
  let k := s.core core
  match k.interrupted with
  | none => s
  | some e =>
    let s1 := if k.mx.faulted.isSome then s else s.putMres core e (k.mx.mres e 3)
    s1.modCore core fun k => { k with mx := { k.mx.keepPrefixes e with held := some e.serial } }

/-- The resumed engine goes on from the prefixes that mres counts (R180, R181). -/
def Core.resumeMatrix (k : Core) (free : Nat) : Core :=
  match k.mx.held.bind fun n => k.mx.queue.find? fun e => e.serial == n with
  | none => k
  | some e => { k with mx := k.mx.trust e (k.csrNow 0x058) free }

/-- Suspension empties the load buffer, the record cache and the scale cache (R326). -/
def Core.emptyCaches (k : Core) : Core := { k with loadBuf := [], records := [], scale0 := [], scale1 := [] }

/-- Whether steps 2 to 4 of R323 are complete: nothing is outstanding, and every started block has drained. -/
def State.drained (s : State) (core : Nat) : Bool :=
  let k := s.core core
  !(k.outs.any fun o => o.ldPend || o.stPend) && k.late.isEmpty && k.mx.blocks.isEmpty && !(s.netWait.any fun p => p.src == core)

/-- The running launches whose gangs hold cores that a waiting launch needs (R235). -/
def State.holders (s : State) (l : Launch) : List Launch :=
  s.fe.pool.filter fun g => g.state == .running && (s.needs l).any fun i => (s.core i).lid == g.lid

/-- PREEMPTION_REQUEST: firmware asks for the pre-emption of a running gang (R29); or the front end pre-empts, for a waiting launch, every
gang that holds a core it needs, when each has a strictly lower effective priority (R235, R328). -/
def execPreemptionRequest (lid : Nat) (s : State) : Res :=
  let ask (s : State) (g : Nat) : State := s.modLaunch g fun l => { l with state := .preempting }
  match s.launch lid with
  | none => .next s
  | some l =>
    if l.state = .running then .next (ask s lid)
    else if l.waits && (s.holders l).all fun g => decide (l.eff < g.eff) then
      .next ((s.holders l).foldl (fun s g => ask s g.lid) s)
    else .next s

/-- CORE_HALT: a core of a gang that is being pre-empted halts at a bundle boundary (R29, R323). A core in the final wait of
a `tend` stands at that bundle (R242). -/
def execCoreHalt (core : Nat) (s : State) : Res :=
  let k := s.core core
  match s.launch k.lid with
  | some l =>
    if l.state = .preempting ∧ (k.run = .running ∨ k.run = .ending) then
      .next ((s.flushLate core).modCore core fun k =>
        { k.bounded with
          run := .halted, fetched := none, isSaved := false, haltCycle := s.cycle, starts := false })
    else .next s
  | none => .next s

/-- Whether a journal entry's coordinate is completed: its `tend` has dispatched, and every token pending there has left
pending (R332). -/
def Core.entryDone (k : Core) (e : Nat × Option (List (Nat × Nat))) : Bool :=
  match e.2 with
  | none => false
  | some ts => ts.all fun t =>
    let x := kget Token.init k.tokens t.1
    x.gen != t.2 || x.state != .pending

/-- The coordinates that a core has taken and not completed, in ascending order (R333). -/
def Core.unfinished (k : Core) : List Nat := sortNat ((k.journal.filter fun e => !k.entryDone e).map fun e => e.1)

/-- Whether a launch is being pre-empted for a replay (R333). -/
def Launch.replaying (l : Launch) : Bool := match l.fate with | some (.pending, _, _) => true | _ => false

/-- A launch keeps what a core of its gang had taken, for the replay (R332, R333). -/
def Launch.keepWork (l : Launch) (core : Nat) (k : Core) : Launch :=
  { l with redo := relist l.redo core (sortNat (k.unfinished ++ listed [] l.redo core))
           ranges := relist l.ranges core k.range }

/-- A core's tasks stop for good: held items are discarded, and the core is free (R26, R369). Its posted receives stay posted (R261, R335). -/
def State.stopCore (s : State) (core : Nat) : State :=
  let k := s.core core
  let s1 := s.modLaunch k.lid fun l =>
    if l.replaying then l.keepWork core k else l
  let s2 := match (s1.launch k.lid).bind fun l => if l.replaying then none else l.fate with
    | some (_, cause, _) => s1.endMatrix core cause
    | none => s1
  let s3 := s2.leaveGang core
  (s3.discardHeld core).modCore core fun k =>
    { k with queues := [], mx := Core.init.mx, journal := [] }

/-- A launch whose gang has stopped for a replay waits for its release again (R333). -/
def State.replayAgain (s : State) (lid : Nat) : State :=
  s.modLaunch lid fun l => if l.state = .completing && l.replaying then { l with state := .pending, fate := none } else l

/-- What stays in a core whose task has been saved, for the next launch on it. -/
def Core.vacated (k : Core) : Core :=
  { Core.init with
    csr := k.csr.filter fun e => e.1 == 0x048 || e.1 == 0x049 || (decide (0x050 ≤ e.1) && decide (e.1 ≤ 0x054)) || e.1 == 0x068
    wbuf := k.wbuf
    abuf := k.abuf
    rbuf := k.rbuf
    lastCtx := k.lastCtx
    serial := k.serial
    outNext := k.outNext
    utlb := k.utlb
    perf := k.perf
    perfSel := k.perfSel }

/-- The gang cores of a launch whose tasks have not ended. -/
def State.liveCores (s : State) (l : Launch) : List Nat := l.desc.gang.filter fun i => (s.core (l.home i)).lid == l.lid

/-- Every save is complete: the cores are counted free, and the tasks stand in their save areas; H is the cycle on which the last of them
halted (R328). -/
def State.saveGang (s : State) (l : Launch) : State :=
  let s1 := (s.liveCores l).foldl (fun s i =>
    let j := l.lid * 65536 + i
    let k := s.core i
    let s1 := ((s.noteRan k).setCore j { k with run := if k.run = .halted then .saved else k.run }).setCore i k.vacated
    s1.rename i j) s
  s1.modLaunch l.lid fun l =>
    { l with state := .preempted, haltAt := ((s.liveCores l).map fun i => (s.core i).haltCycle).foldl Nat.max 0 }

/-- SAVE_COMPLETE: the state of a suspended core is in its save area (R323, R328). A core of a launch that has been ended is
freed then, and so is one of a launch that is to be replayed; a core that a trap suspended and that was saved before its gang
is pre-empted counts as saved with it. -/
def execSaveComplete (core : Nat) (s0 : State) : Res :=
  let s := s0.flushLate core
  let k := s.core core
  if !(k.run == .halted || k.run == .trapped) || 65536 ≤ core || (!k.isSaved && !s.drained core) then .next s
  else
    let s1 := if k.isSaved then s
      else ((s.suspendMatrix core).modCore core fun k => { k.emptyCaches with isSaved := true }).writeSave core
    match s1.launch k.lid with
    | none => .next s1
    | some l =>
      if l.state ≠ .preempting then
        .next (match k.isSaved, k.tdisp with
          | false, some 0 => { s1 with agenda := s1.agenda ++ [.tdispResume core] }
          | false, some _ => { s1 with agenda := s1.agenda ++ [.tdispHandler core] }
          | _, _ => s1)
      else if l.fate.isSome then .next ((s1.stopCore core).replayAgain l.lid)
      else if (s1.liveCores l).all fun i => (s1.core i).isSaved then .next (s1.saveGang l)
      else .next s1

/-! ### Going on (R327, R329) -/

/-- A suspended core dispatches again on a cycle: engines go on, and the router's held items are made first (R180, R329, R369). A core in the
final wait of its `tend` makes that wait again (R242, R320). -/
def State.goOn (s : State) (core pc cycle : Nat) : State :=
  (s.modCore core fun k0 =>
    let k := k0.resumeMatrix s.free
    let waits := k.finalWait && decide (pc = k.pc)
    { k with
      run := if waits then .ending else .running
      finalWait := waits
      hold := .none
      holdCount := 0
      pc := pc
      fetched := none
      isSaved := false
      tdisp := none
      starts := true
      nextAt := cycle
      mx := { k.mx with headAt := Nat.max k.mx.headAt s.cycle, faulted := none } }).deliverHeld core

/-- Whether a class waits there for a token, a barrier or a version (R308, R315, R317). -/
def Slipped.isWait : Slipped → Bool
  | .twait .. | .barw .. | .vwait .. => true
  | .enter .. | .access .. | .defer .. => false

/-- Whether an address is one where a stop found the core: of a bundle that a class has still to dispatch, or else the next one (R99, R226). -/
def Core.stopsAt (k : Core) (a : Nat) : Bool := k.stopPc % 16384 == a || k.slips.any fun x => x.cur.pc % 16384 == a

/-- Disposition 0: dispatch continues at `tepc` (R327). Where classes ran ahead of one that waits there, the wait is made again while the
others go on where they stand; when firmware has changed `tepc`, it is not made, and what a bundle that has dispatched but for its end leaves
behind is older than the bundle that dispatches next (R320; log 7). -/
def State.resumeTrapped (s : State) (core cycle : Nat) : State :=
  let k := s.core core
  let tepc := (k.csrNow 0x051).toNat
  if k.slips.isEmpty ∧ k.ending = none then s.goOn core tepc cycle
  else if k.stopsAt tepc then s.goOn core k.pc cycle
  else (s.modCore core fun k => { k with bn := k.bn + (if k.ending.isSome then 1 else 0), ending := none, slips := k.slips.filter fun x => !x.op.isWait }).goOn core tepc cycle

/-- The queued operations of a core that have not started, in queue order. -/
def Core.queued (k : Core) : List EngEntry := (List.range 6).flatMap k.queue

/-- The matrix engine after a restart at the handler: the interrupted `mma` and its chunks are gone, what else is staged stays (R180, R335). -/
def Matrix.abandon (m : Matrix) : Matrix :=
  { m with
    queue := []
    staging := m.staging.filter fun x => some (x.1 / 1024) != m.held
    arrivedAt := []
    held := none }

/-- The writes of bundles from `m` on are dropped: the trap leaves the state as if none of them had dispatched (R99). -/
def Core.dropAhead (k : Core) (m : Nat) : Core := { k with writes := k.writes.filter fun w => decide (w.n < m) }

/-- The generation of an operation that no class has dispatched is discarded (R305). -/
def Slip.undo (x : Slip) (m : KMap Token) : KMap Token :=
  match x.op with
  | .defer _ n gen _ => if (kget Token.init m n).gen = gen then kput m n (x.cur.token n) else m
  | _ => m

/-- Disposition 1: held writes land, the loop levels and mask stacks reset, unstarted operations are cancelled with the trap's
cause, an interrupted `mma` is abandoned, and the task continues at its handler (R180, R327). What a class had still to dispatch is not
dispatched; its tokens are cancelled. -/
def State.handleTrapped (s : State) (core handler cycle : Nat) : State :=
  let k := s.core core
  let cause := field (k.csrNow 0x050) 0 8
  let why := (k.mx.faulted.map fun x => x.2).getD cause
  let out (e : EngEntry) : Outcome := if k.mx.held = some e.serial then outcome .faulted why 0 0 else outcome .cancelled cause 0 0
  let behind := k.slips.filterMap fun x => match x.op with
    | .enter _ e => some e
    | _ => none
  let s1 := (k.queued ++ behind).foldl (fun s e => (s.cancelGbind core e cause).addStarted core e (.finished (out e) false)) s
  let s2 := (s1.returnAll core).modCore core fun k =>
    let k1 := ({ k with queues := [], slips := [], tokens := k.slips.foldr Slip.undo k.tokens, mx := k.mx.abandon }.dropAhead (k.oldest k.bn)).landAll
    { k1 with loops := [], closing := none, ending := none, mdepth := [], mstack := [], finalWait := false
              csr := if k.mx.held.isSome then kset 0 k1.csr 0x058 0 else k1.csr }
  s2.goOn core handler cycle

/-- The first cycle from now on that a core's slot counter reads what it read when the core was suspended (R327). -/
def State.sameSlot (s : State) (core : Nat) : Nat :=
  s.cycle + ((s.core core).haltCycle % 256 + (256 - s.cycle % 256)) % 256

/-- Apply a disposition to a core whose task a trap has suspended and saved (R327): alone, or with its gang on the cycle of the gang's
resumption (R328). A launch that is ended so completes with status faulted and the cause of the trap: DESIGN CHOICE (log 24), R26 and
R238 give no status and no cause for it. -/
def State.dispose (s : State) (core action : Nat) (gang : Option Nat) : State :=
  let k := s.core core
  let alone := gang.getD (s.sameSlot core)
  match s.launch k.lid with
  | none =>
    if action = 0 then ((s.reload core).getD s).resumeTrapped core alone else s.modCore core fun k => { k with run := .free, tdisp := none }
  | some l =>
    if action = 0 ∨ (action = 1 ∧ l.desc.handlerValid) then
      match s.reload core with
      | none => s.failLaunch l .faulted Cause.record.code
      | some s1 =>
        if action = 0 then s1.resumeTrapped core alone else s1.handleTrapped core l.desc.handler (gang.getD s.cycle)
    else s.failLaunch l .faulted (field (k.csrNow 0x050) 0 8)

/-- The task that a TDISP write reaches: the one on the core, or one saved as trapped with its gang (R328). -/
def State.trappedTask (s : State) (core : Nat) : Option Nat :=
  if (s.core core).run = .trapped then some core
  else (s.cores.find? fun e => e.1 % 65536 == core && decide (65536 ≤ e.1) && e.2.run == .trapped).map fun e => e.1

/-- A write of TDISP (R327, R328): ignored unless the core is suspended by a trap; held while its gang is pre-empted, and
until its state is saved. -/
def State.tdisp (s : State) (core action : Nat) : State :=
  match s.trappedTask core with
  | none => s
  | some i =>
    let k := s.core i
    match s.launch k.lid with
    | none => if k.isSaved then s.dispose i action none else s.modCore i fun k => { k with tdisp := some action }
    | some l =>
      let ends := action = 2 ∨ (action = 1 ∧ !l.desc.handlerValid)
      if ends then s.dispose i 2 none
      else if l.state = .running ∧ k.isSaved then s.dispose i action none
      else s.modCore i fun k => { k with tdisp := some action }

/-- TDISP_RESUME: action 0. -/
def execTdispResume (core : Nat) (s : State) : Res := .next (s.tdisp core 0)
/-- TDISP_HANDLER: action 1. -/
def execTdispHandler (core : Nat) (s : State) : Res := .next (s.tdisp core 1)
/-- TDISP_END: action 2. -/
def execTdispEnd (core : Nat) (s : State) : Res := .next (s.tdisp core 2)

/-- A saved task stands in its core again: halted tasks go on at their bundle, a trapped one as its disposition says, or not
yet (R328, R329). `shift` is the time that the pre-emption took. What the core's performance counters have counted meanwhile stays (R321). -/
def State.restoreCore (s : State) (l : Launch) (shift i : Nat) : State :=
  let j := l.lid * 65536 + i
  let k := s.core j
  let now := s.core i
  let back : Core :=
    { k with
      wdogCount := 0
      wdogSeen := 0
      serial := Nat.max k.serial now.serial
      outNext := Nat.max k.outNext now.outNext
      outs := k.outs.map fun o => { o with no := o.no + (Nat.max k.outNext now.outNext - k.outNext) }
      perf := now.perf
      perfSel := now.perfSel
      started := k.started ++ now.started
      haltCycle := k.haltCycle + shift }
  let s2 := State.rename { s with cores := kdel (kput s.cores i back) j } j i
  if k.run = .trapped then
    match k.tdisp with
    | some a => s2.dispose i a (some s.cycle)
    | none => s2
  else (s2.goOn i k.pc s.cycle).modCore i fun b => { b with hold := k.hold, holdCount := k.holdCount }

/-- The launch's slot tables are loaded again, and its routers' counters read what they read at H (R329). -/
def State.reloadSlots (s : State) (l : Launch) (base : Nat) : Except Cause State :=
  if !l.desc.slotFlag then .ok s
  else
    let f := l.routeList s
    match f.bad with
    | some e => .error e
    | none => .ok (f.st.loadSlots l (readRoutes l.desc.gang f.data) base)

/-- GANG_RESUME: a pre-empted gang takes its cores again, on one common cycle (R329). -/
def execGangResume (lid : Nat) (s : State) : Res :=
  match s.launch lid with
  | none => .next s
  | some l =>
    if l.state ≠ .preempted ∨ !s.mayRun l then .next s
    else
      let live := s.liveCores l
      let shift := s.cycle - l.haltAt
      match live.foldl (fun (x : Option State) i => x.bind fun s => s.reload (l.lid * 65536 + i)) (some s) with
      | none => .next (s.failLaunch l .faulted Cause.record.code)
      | some s0 =>
        match (s0.disown live).reloadSlots l (l.release + shift) with
        | .error e => .next (s.failLaunch l .faulted e.code)
        | .ok s1 =>
          let s2 := s1.modLaunch lid fun l => { l with state := .running, release := l.release + shift }
          .next (live.foldl (fun s i => s.restoreCore l shift i) s2)

/-! ### Errors (R320, R333, R334) -/

/-- Enter an error in the error log: a ring of 262,144 entries of 64 bytes (R336), whose contents are not stated: free bytes. -/
def State.logError (s : State) : State :=
  let e := (List.range 64).map fun i => Config.freeByte s.free (71 + i)
  let log := s.sec.log ++ [e]
  { s with sec := { s.sec with log := log.drop (log.length - 262144) } }

/-- The column of a unit; units of no column report to a firmware core that is a free choice. -/
def unitCol (s : State) (u : UnitId) : Nat :=
  match u with
  | .userCore n => colOf n
  | .firmwareCore c => c
  | .router id => if id < 0x800 then colOf id else if id < 0x808 then id - 0x800 else Config.freeNat s.free 213 % 8
  | .nearBank c _ | .dramBank c _ => c
  | .clusterLink id _ => colOf id
  | .fabricLink _ | .hubBlock _ => Config.freeNat s.free 213 % 8

/-- CORRECTABLE_ERROR: the unit's error window, and a lasting-fault report when it fills (R320). -/
def execCorrectableError (u : UnitId) (s : State) : Res :=
  let w0 := (s.hub.windows.find? fun w => w.u == u).getD { u := u, count := 0, start := 0 }
  let w1 := if s.hub.errW < s.cycle - w0.start then { w0 with start := s.cycle, count := 0 } else w0
  let lasting := decide (s.hub.thresh ≤ w1.count + 1)
  let w2 := { w1 with count := if lasting then 0 else w1.count + 1 }
  let s1 := { s with hub := { s.hub with windows := w2 :: s.hub.windows.filter fun w => w.u != u } }
  .next (if lasting then s1.report (unitCol s u) 3 0 0 else s1)

/-- Spare cores of a die: up to three good cores beyond the 256 that are mapped and the firmware core (R9). -/
def spares (c : Nat) : Nat := Nat.min 3 (Config.goodCores c - 257)

/-- A user core is retired: routes lead around it (R292), and a spare takes its index after its gang is pre-empted; with no spare left it becomes
absent, and every launch with a task there, running or saved, ends (R9, R334). -/
def State.retireCore (s0 : State) (n : Nat) : State :=
  let s : State := { s0 with hub := { s0.hub with retired := UnitId.userCore n :: s0.hub.retired.filter fun x => x != UnitId.userCore n } }
  let c := colOf n
  let used := kget 0 s.hub.sparesUsed c
  if used < spares c then
    let s1 : State := { s with hub := { s.hub with sparesUsed := kset 0 s.hub.sparesUsed c (used + 1) } }
    match s.launch (s.core n).lid with
    | some l => s1.modLaunch l.lid fun l => if l.state = .running then { l with state := .preempting } else l
    | none => s1
  else
    let s1 : State := { s with hub := { s.hub with absent := n :: s.hub.absent.filter fun i => i != n } }
    (s1.fe.pool.filter fun l => (s1.liveCores l).contains n).foldl (fun s l => s.failLaunch l .faulted Cause.uncorrectable.code) s1

/-- A near-tier bank is retired (R334): the lines of its column are written back, and its way leaves use. -/
def State.retireBank (s : State) (c w : Nat) : State :=
  let ls := (s.ms.lines.map fun e => e.1).filter fun l => homeCol (l * 64) == c
  let ms := ls.foldl MemSys.evict s.ms
  { s with
    ms := { ms with owners := kset .none ms.owners (c * 16 + w % 16) .outOfUse }
    hub := { s.hub with retired := .nearBank c w :: s.hub.retired.filter fun x => x != .nearBank c w } }

/-- A DRAM bank is retired (R334): spare rows of the stack stand in for it, and where none is left every access to it is UNCORRECTABLE. -/
def State.retireDram (s : State) (c w : Nat) : State :=
  let gone := s.hub.retired.filterMap fun x => match x with
    | .dramBank d v => if d = c then some v else none
    | _ => none
  if gone.contains w then s
  else
    { s with
      hub := { s.hub with retired := .dramBank c w :: s.hub.retired }
      ms := { s.ms with dead := if gone.length < Config.spareBanks c then s.ms.dead else (c, w) :: s.ms.dead } }

/-- The copies that write a way which a migration moves, of the operations under way (R330). -/
def State.movingCopies (s : State) : List (Nat × Nat) :=
  s.cores.flatMap fun x => (x.2.started.filter fun y => (y.stage matches .copying ..) &&
    (copyPlan x.1 y.e).segs.any fun g => g.movingIn s x.1 false).map fun y => (x.1, y.id)

/-- A migration begins (R330). -/
def State.migrate (s : State) (m : Migration) : State :=
  let s1 := { s with ms := { s.ms with migration := some m } }
  { s1 with ms := { s1.ms with migration := some { m with copies := s1.movingCopies } } }

/-- A caching way of another column, of those there are a free choice: where a scratch way goes before its bank is retired (R334). -/
def State.refuge (s : State) (c : Nat) : Option (Nat × Nat) :=
  let all := (List.range 128).filter fun i => i / 16 != c && !(s.ms.owner (i / 16) (i % 16)).scratch
  (all[Config.freeNat s.free 219 % (all.length + 1)]?.orElse fun _ => all.head?).map fun i => (i / 16, i % 16)

/-- RETIREMENT: what becomes of a unit that firmware retires (R334). A scratch way is first migrated, after a migration under way (R330). Routes around a router or a
cluster link are regenerated as they are used and loaded (R292). -/
def execRetirement (u : UnitId) (s : State) : Res :=
  let mark (s : State) : State := { s with hub := { s.hub with retired := u :: s.hub.retired.filter fun x => x != u } }
  match u with
  | .userCore n => .next (s.retireCore n)
  | .firmwareCore c =>
    let next := (c + 1) % 8
    let evs := kget [] s.hub.fwEvents next ++ kget [] s.hub.fwEvents c
    let s1 := { s with hub := { s.hub with fwEvents := kput (kdel s.hub.fwEvents c) next evs } }
    .next (mark (s1.modCore (0xF000 + c) fun k => { k with run := .off }))
  | .nearBank c w =>
    let o := s.ms.owner c (w % 16)
    if !o.scratch then .next (s.retireBank c w)
    else match s.ms.migration with
      | some m => .next { s with ms := { s.ms with migration := some { m with after := m.after ++ [(c, w)] } } }
      | none => match s.refuge c with
        | some (d, v) =>
          .next (s.migrate { ctx := o.ctx, col := c, moves := [(w % 16, d, v)], copies := [], bank := some w, after := [] })
        | none => .next s
  | .fabricLink p =>
    let w := kget 0 s.rt.groupRegs (17 + p)
    .next (mark { s with rt := { s.rt with groupRegs := kset 0 s.rt.groupRegs (17 + p) (BitVec.ofNat 64 (w.toNat / 4 * 4)) } })
  | .hubBlock _ => .next s.logError
  | .dramBank c w => .next (s.retireDram c w)
  | .router _ | .clusterLink .. => .next (mark s)

/-- An uncorrectable error in a launch (R333): a replay launch is pre-empted and released again, at most twice; any other
fails. -/
def State.uncorrectable (s : State) (l : Launch) : State :=
  if l.ended then s
  else if !l.desc.hdr.replay || 2 ≤ l.replays then s.failLaunch l .faulted Cause.uncorrectable.code
  else
    let again (l : Launch) : Launch := { l with replays := l.replays + 1, fate := some (.pending, Cause.uncorrectable.code, 0) }
    match l.state with
    | .running | .preempting => s.modLaunch l.lid fun l => { again l with state := .preempting }
    | .preempted =>
      let kept := (s.liveCores l).foldl (fun (m : Launch) i => m.keepWork i (s.core (l.home i))) l
      let s1 := s.dropSaved l none
      s1.modLaunch l.lid fun l => { l with state := .pending, replays := l.replays + 1, redo := kept.redo, ranges := kept.ranges }
    | .pending | .completing => s

/-- The launch of a core is treated as an uncorrectable error requires (R333). -/
def State.uncorrectableIn (s : State) (core : Nat) : State :=
  match s.launch (s.core core).lid with
  | some l => s.uncorrectable l
  | none => s

/-- UNCORRECTABLE_ERROR at a physical address, whose line stays spoilt: in the data of an outstanding load it is taken at the first covering `wait`
(R160); in a fetched chunk it faults the token of the `mma` or `macc` (R180, R185); in the source of an engine operation, its token; in the copies of
a commit, its token (R275). A faulted token, when it completes, and an error of the core itself are treated as the launch requires (R333). -/
def execUncorrectableError (core : Nat) (inCore : Bool) (id : Option Nat) (addr : Nat) (s0 : State) : Res :=
  match id with
  | some n =>
    let s := { s0 with ms := s0.ms.spoil addr }
    let k := s.core core
    match k.out n with
    | some o =>
      if o.ldPend then .next ((s.failLoad core o .uncorrectable (BitVec.ofNat 64 addr)).drainCore core) else .next s0
    | none =>
      match k.mx.queue.find? fun e => e.serial == n && e.stages != 0 && k.mayFetch e && !k.mx.fetched e with
      | some e => .next (s.failFetch core e)
      | none =>
        match k.started.find? fun x => x.id == n && x.orphan.isNone && ((x.stage matches .copying ..) || (x.stage matches .layer ..) || (x.stage matches .pulled ..)) with
        | some x => .next (s.finish core n (outcome .faulted Cause.uncorrectable.code 0 (Nat.max x.e.time x.e.inTime)))
        | none => .next ((s.commitError core n).getD s0)
  | none =>
    let s1 := s0.uncorrectableIn core
    .next (if inCore && !isFw core then s1.retireCore core else s1)

/-! ### Migration and heat (R330, R331, R350) -/

/-- THERMAL_MIGRATION: firmware starts to move scratch ways of a context out of a column (R330): each way with its target column
and way. New accesses to the ways are held, and copies that write there complete. -/
def execThermalMigration (ctx col : Nat) (moves : List (Nat × Nat × Nat)) (s : State) : Res :=
  if s.ms.migration.isSome then .next s
  else
    let ok := moves.filter fun m => (s.ms.ways ctx col).contains m.1 && decide (m.2.1 < 8 ∧ m.2.2 < 16) && m.2.1 != col &&
      !(s.ms.owner m.2.1 m.2.2).scratch
    .next (s.migrate { ctx := ctx, col := col, moves := ok, copies := [], bank := none, after := [] })

/-- Move the contents of one way to a target way (R330): bytes, owner entry, times and map. -/
def MemSys.moveWay (ms : MemSys) (ctx col w tc tw : Nat) : MemSys :=
  let key := (ctx * 8 + col) * 16 + w
  let here := ms.served ctx col w
  let src := wayBase here.1 here.2
  let dst := wayBase tc tw
  let within (a : Nat) : Bool := decide (src ≤ a ∧ a < src + 0x8000000)
  let t := Nat.max (ms.maxRts col) (ms.maxRts tc) + 1
  let moved := ms.mem.filterMap fun e => if within e.1 then some (e.1 - src + dst, e.2) else none
  let rest := ms.mem.filter fun e => !within e.1 && !decide (dst ≤ e.1 ∧ e.1 < dst + 0x8000000)
  let lineIn (b l : Nat) : Bool := decide (b ≤ l * 64 ∧ l * 64 < b + 0x8000000)
  let owners := if here = (col, w) then ms.owners else kdel ms.owners (here.1 * 16 + here.2)
  { ms with
    mem := (rest.filter fun e => decide (e.1 < dst)) ++ moved ++ rest.filter fun e => decide (dst ≤ e.1)
    times := ms.times.filter fun e => !lineIn src e.1 && !lineIn dst e.1
    faulty := (ms.faulty.filter fun l => !lineIn dst l).map fun l => if lineIn src l then l - src / 64 + dst / 64 else l
    wayTime := kset 0 ms.wayTime (tc * 16 + tw) t
    owners := kset .none owners (tc * 16 + tw) { scratch := true, ctx := ctx, origin := col }
    waymap := kset (0, 0) ms.waymap key (tc + 1, tw) }

/-- MIGRATION_MOVE out of a column: once the copies that were writing the moving ways have completed, and what memory slots had
dispatched there, the ways change places, and what was cached of them
by cores is invalidated (R330, R335). -/
def execMigrationMove (col : Nat) (s : State) : Res :=
  match s.ms.migration with
  | none => .next s
  | some m =>
    let going (x : Nat × Nat) : Bool := (s.core x.1).engines && (s.core x.1).started.any fun y => y.id == x.2 && (y.stage matches .copying ..)
    let at_ (w : Nat × Nat) : Bool := m.moves.any fun x => decide (s.ms.served m.ctx m.col x.1 = w)
    if m.col ≠ col ∨ m.copies.any going ∨ s.owesTo at_ = true then .next s
    else
      let ok := m.moves.filter fun x => (s.ms.ways m.ctx m.col).contains x.1 && !(s.ms.owner x.2.1 x.2.2).scratch
      let ls := (s.ms.lines.map fun e => e.1).filter fun l => ok.any fun x => x.2.1 == homeCol (l * 64)
      let ms1 := ls.foldl MemSys.evict { s.ms with migration := none }
      let ms2 := ok.foldl (fun ms x => ms.moveWay m.ctx m.col x.1 x.2.1 x.2.2) ms1
      let gone (p : Nat) : Bool := isScratch p && ok.any fun x => decide (s.ms.served m.ctx m.col x.1 = wayOf p)
      let goneAt (i : Nat) (a : W64) : Bool := match enginePlace s i .read a 1 with
        | .ok (.phys p, _) => gone p
        | _ => false
      let tidy (i : Nat) (k : Core) : Core :=
        { k with
          loadBuf := k.loadBuf.filter fun x => !gone (x.key * 64)
          records := k.records.filter fun x => !goneAt i x.1
          scale0 := k.scale0.filter fun x => !goneAt i (BitVec.ofNat 64 (x.key * 64))
          scale1 := k.scale1.filter fun x => !goneAt i (BitVec.ofNat 64 (x.key * 64)) }
      let s1 : State := { s with
        ms := ms2, cores := s.cores.map fun e => (e.1, tidy e.1 e.2), agenda := s.agenda ++ m.after.map fun x => .retirement (.nearBank x.1 x.2) }
      .next (match m.bank with
        | some w => { s1 with hub := { s1.hub with retired := .nearBank m.col w :: s1.hub.retired.filter fun x => x != .nearBank m.col w } }
        | none => s1)

/-- ZONE_TEMPERATURE: the PMC sets the zone's valve, at a position that is not stated; at 95 °C it raises an event, at 105 °C it
halts the package and writes the error log (R350). -/
def execZoneTemperature (col zone celsius : Nat) (s : State) : Res :=
  if 8 ≤ col ∨ 16 ≤ zone then .next s
  else
    let s1 := { s with sec := { s.sec with valves := kset 128 s.sec.valves (col * 16 + zone) (Config.freeNat s.free 217 % 256) } }
    if 105 ≤ celsius then
      let s2 := s1.logError
      .next { s2 with sec := { s2.sec with phase := .halted }, agenda := []
                      fe := { s2.fe with pool := [], wakes := [] }
                      cores := s2.cores.map fun e => (e.1, { e.2 with run := .off }) }
    else if 95 ≤ celsius then .next (s1.report col 2 0 0)
    else .next s1

end Sys2Proof.Machine
end

