-- ==== Sys2Proof/Machine/FrontEnd.lean ====
section
/-!
DEFINITION. `launch`, `chunk`, `tend` and `yield`; sealed capabilities, wakes, command queues, and the pool's growth (R227 to
R245, R319).
-/
namespace Sys2Proof.Machine

/-! ### launch and chunk (R240, R319) -/

/-- `launch` and `launch.w` (R240). -/
def execLaunch (d a : Reg) (w : Bool) (tw : TokenWord) (s : State) : Res :=
  engineOp s [.s d.val, .s a.val] 3 tw fun c => withClean s c [a] fun _ =>
    .next (s.enqueue c 3 (newEntry s c (.launch d a w tw) tw [(s.sr c a.val).val]))

/-- A checked launch takes its identifier (R237, R240). -/
def State.takeLaunch (s : State) (core d : Nat) (e : EngEntry) (desc : LaunchDesc) (cancelled : Bool) : State × Stage :=
  let k := s.core core
  let t := Nat.max e.time e.inTime
  let (s1, lid) := s.acceptLaunch k.ctx (k.csrNow 0x004).toNat t desc cancelled none
  (s1, .finished (withRegs (outcome .done 0 0 t) [(d, BitVec.ofNat 64 lid)]) false)

/-- The start of `launch`: the checks, then a pool entry; `launch.w` waits for one (R240). -/
def startLaunch (s : State) (core d : Nat) (w : Bool) (e : EngEntry) : State × Stage :=
  let k := s.core core
  let v := vetLaunch s k.ctx (e.vals.getD 0 0) ((k.launches.filter fun x => decide (x.1 < e.serial)).map fun x => x.2) true
  let t := Nat.max e.time e.inTime
  match v.desc with
  | .error c =>
    (v.st.countDone k.ctx v.done t,
      .finished (withRegs (outcome .faulted c.code 0 t) [(d, BitVec.ofNat 64 (2 ^ 63 + c.code))]) false)
  | .ok (desc, cancelled) =>
    if v.st.fe.pool.length < v.st.fe.poolSize then v.st.takeLaunch core d e desc cancelled
    else if w then (v.st, .pooling desc cancelled)
    else (v.st, .finished (withRegs (outcome .cancelled 0 0 t) [(d, 0)]) false)

/-- A waiting `launch.w` takes a pool entry once there is room (R240). -/
def State.retryLaunch (s : State) (core : Nat) (x : Started) : State :=
  match x.e.op, x.stage with
  | .launch d _ _ _, .pooling desc cancelled =>
    if s.fe.pool.length < s.fe.poolSize then
      let (s1, st) := s.takeLaunch core d.val x.e desc cancelled
      s1.setStage core x.id st
    else s
  | _, _ => s

/-- `chunk` (R319). -/
def execChunk (d : Reg) (tw : TokenWord) (s : State) : Res :=
  engineOp s [.s d.val, .s (pairReg d)] 0 tw fun c => .next (s.enqueue c 0 (newEntry s c (.chunk d tw) tw []))

/-- The start of `chunk`: a draw from the launch's dispenser; without one, count 0 and the size of the space (R319). A core
without a launch has no space: the start is free. -/
def startChunk (s : State) (core d : Nat) (e : EngEntry) : State × Stage :=
  let done (a n : Nat) : Stage :=
    .finished (withRegs (outcome .done 0 0 (Nat.max e.time e.inTime)) [(d, BitVec.ofNat 64 a), (d + 1, BitVec.ofNat 64 n)]) false
  match s.launch (s.core core).lid with
  | none => (s, done (Config.freeNat s.free 223) 0)
  | some l =>
    if l.desc.dist = 0 then (s, done l.total 0)
    else
      let (s1, a, n) := s.draw l
      (s1, done (if n = 0 then l.total else a) n)

/-! ### tend and yield (R242, R243) -/

/-- A coordinate's `tend` dispatches: the journal notes the tokens then pending, and drops what is completed (R332). -/
def Core.markTend (k : Core) : Core :=
  let open_ := (k.tokens.filter fun t => t.2.state == .pending).map fun t => (t.1, t.2.gen)
  let j := k.journal.map fun e => if e.2 = none then (e.1, some open_) else e
  { k with journal := j.filter fun e => !k.entryDone e }

/-- `tend` (R242): after the other slots, the loops end and held writes land; the core takes its next coordinate, or waits to
leave its gang. The end of the tile task returns its queue extensions (R225). -/
def execTend (s : State) : Res :=
  slotOp s [] fun c =>
    let s1 := (s.flushLate c.core).modCore c.core fun k => ({ k with loops := [] }).landAll.markTend
    let close (t : State) : Res := .next { t with cur := some { c with post := .tend } }
    let stay (t : State) : Res := close (t.modCore c.core fun k => { k with run := .ending, finalWait := true })
    match s1.launch (s1.core c.core).lid with
    | none => stay s1
    | some l =>
      match s1.nextCoord l c.core with
      | (some n, s2) => close ((s2.returnAll c.core).modCore c.core fun k => k.startTask l n)
      | (none, s2) => stay s2

/-- Whether the final wait of a `tend` is over (R242). -/
def State.tendDone (s : State) (core : Nat) : Bool :=
  let k := s.core core
  k.ld == 0 && k.st == 0 && !(k.tokens.any fun t => t.2.state == .pending) && k.queued.isEmpty && k.started.all (fun x => x.orphan.isSome) &&
    k.mx.blocks.isEmpty && !(s.netWait.any fun p => p.src == core)

/-- A core in the final wait of a `tend` leaves its gang once the wait is over; a firmware core, which has no gang, stops. -/
def State.endWait (s : State) (core : Nat) : State :=
  if s.tendDone core then
    if isFw core then s.modCore core fun k => { k with run := .off, hold := .none } else s.leaveGang core
  else s.modCore core fun k => { k with hold := .final }

/-- Whether a waiting launch of equal or higher effective priority needs a core (R243). -/
def State.wanted (s : State) (core : Nat) (l : Launch) : Bool :=
  s.fe.pool.any fun w => w.waits && decide (w.eff ≤ l.eff) && (s.needs w).contains core

/-- `yield` (R243): the watchdog is cleared, and the gang is offered to the front end; the yielding core halts at the next
bundle when the gang is pre-empted. -/
def execYield (s : State) : Res :=
  slotOp s [] fun c =>
    let s1 := s.modCore c.core fun k => { k with wdogCount := 0, wdogSeen := 0 }
    let close (t : State) : Res := .next { t with cur := some { c with post := .yield } }
    match s1.launch (s1.core c.core).lid with
    | none => close s1
    | some l =>
      if l.state = .running ∧ s1.wanted c.core l then
        let s2 := s1.modLaunch l.lid fun l => { l with state := .preempting }
        close (s2.modCore c.core fun k => { k with run := .halted, isSaved := false, haltCycle := s.cycle, starts := false })
      else close s1

/-! ### Capabilities (R227, R244, R245) -/

/-- The sealing fields of word 1: ring size, priority, rights, owner. -/
def capFields (w : W64) : Nat × Nat × Nat × Nat := (field w 0 5, field w 5 3, field w 8 8, field w 16 16)

/-- Whether words 0 and 1 keep the rules of R227. -/
def capOk (w0 w1 : W64) : Bool :=
  let (size, _, rights, owner) := capFields w1
  w0.toNat % 64 == 0 && decide (4 ≤ size ∧ size ≤ 20) && rights < 8 && owner != 0 && field w1 32 32 == 0

/-- The MAC of words 0 to 2 under the key of this boot: the leftmost 64 bits of the CMAC, as bytes 24 to 31 hold them. -/
def capMac (s : State) (ws : List W64) : W64 :=
  BitVec.ofNat 64 (leNat ((cmac2 (Config.bootKey s.fe.bootNo) ((ws.take 3).flatMap fun w => leBytes 8 w.toNat)).take 8))

/-- The dispatch of `seal` and `wake`: the capability address must carry tag 0x0, 0x9 or 0xC. -/
def capOp (op : Instr) (q : Nat) (a b : Reg) (tw : TokenWord) (s : State) : Res :=
  engineOp s [.s a.val, .s b.val] q tw fun c => withClean s c [a, b] fun _ =>
    let av := (s.sr c a.val).val
    orSpace s c ([0x0, 0x9, 0xC].contains (field av 60 4)) av fun _ =>
      orTrap s c (checkHere s c.core c.slot.index .copy .read [(av, 32, 1)]) fun _ =>
        .next (s.enqueue c q (newEntry s c op tw [av, (s.sr c b.val).val]))

/-- `seal` (R244). -/
def execSealCap (a b : Reg) (tw : TokenWord) (s : State) : Res := capOp (.sealCap a b tw) 0 a b tw s
/-- `wake` (R245). -/
def execWake (a b : Reg) (tw : TokenWord) (s : State) : Res := capOp (.wake a b tw) 3 a b tw s

/-- The words of a capability. -/
def capWords (bs : List Byte) : List W64 := (List.range 4).map fun i => BitVec.ofNat 64 (leAt bs (8 * i) 8)

/-- The stream of an operation that reads `n` bytes, with free bytes for what another package holds (log 12). -/
def Flow.start (s : State) (core : Nat) (e : EngEntry) (n : Nat) : Flow :=
  s.flow core e (Nat.max e.time e.inTime) ((List.range n).map fun i => Config.freeByte s.free (73 * core + i))

/-- The start of `seal` (R244). -/
def startSeal (s : State) (core : Nat) (e : EngEntry) : State × Stage :=
  let a := e.vals.getD 0 0
  let b := e.val 1
  let (bs, f) := (Flow.start s core e 16).read a 16
  let w0 := BitVec.ofNat 64 (leAt bs 0 8)
  let w1 := BitVec.ofNat 64 (leAt bs 8 8)
  match f.bad with
  | some x => (f.st, .finished (outcome .faulted x.code 0 f.time) false)
  | none =>
    if !capOk w0 w1 || 1023 < b then (f.st, .finished (outcome .faulted Cause.record.code 0 f.time) false)
    else
      let nonce := f.st.fe.nonce + 1
      let s1 := { f.st with fe := { f.st.fe with nonce := nonce } }
      let mac := capMac s1 [w0, w1, BitVec.ofNat 64 nonce]
      let g := { f with st := s1 }.write (a + 16) (leBytes 8 nonce ++ leBytes 8 mac.toNat)
      match g.bad with
      | some x => (g.st, .finished (outcome .faulted x.code 0 g.time) false)
      | none =>
        let (size, prio, rights, owner) := capFields w1
        let q : QueueEntry := { QueueEntry.free with
          base := w0, nonce := nonce, size := size, prio := prio, owner := owner, rights := rights, state := .idle
          resident := (g.st.queue b).resident }
        (g.st.setQueue b q, .finished (outcome .done 0 16 g.time) false)

/-- The start of `wake`: its wake is committed, and the token waits for its processing (R245). -/
def startWake (s : State) (core : Nat) (e : EngEntry) : State × Stage :=
  let (bs, f) := (Flow.start s core e 32).read (e.vals.getD 0 0) 32
  match f.bad with
  | some x => (f.st, .finished (outcome .faulted x.code 0 f.time) false)
  | none =>
    let w : Wake := { words := capWords bs, tail := e.vals.getD 1 0, device := some (core, e.serial), ctx := (s.core core).ctx }
    ({ f.st with fe := { f.st.fe with wakes := f.st.fe.wakes ++ [w] } }, .waiting)

/-! ### Wakes (R229, R231, R232) -/

/-- WAKE_WRITE: a host write to a wake register; the word at byte 32 commits the wake (R231). -/
def execWakeWrite (page offset : Nat) (value : W64) (s : State) : Res :=
  if 256 ≤ page ∨ 32 < offset ∨ offset % 8 ≠ 0 ∨ s.sec.phase ≠ .firmware then .next s
  else
    let regs := kset 0 s.fe.wakeRegs (page * 8 + offset / 8) value
    let s1 := { s with fe := { s.fe with wakeRegs := regs } }
    if offset = 32 then
      let w : Wake := { words := (List.range 4).map fun i => kget 0 regs (page * 8 + i), tail := value, device := none, ctx := 0 }
      .next { s1 with fe := { s1.fe with wakes := s1.fe.wakes ++ [w] } }
    else .next s1

/-- The code of a queue state (R228). -/
def QState.code : QState → Nat | .idle => 0 | .active => 1 | .error => 2 | .free => 3

/-- The front end's store of the head and the state copy in the control block (R229). -/
def State.writeControl (s : State) (e : Nat) : State :=
  let q := s.queue e
  let f1 := hubWrite s q.owner (q.base + 8) (leBytes 8 q.head) 0
  let f2 := hubWrite f1.st q.owner (q.base + 16) (leBytes 4 q.state.code) 0
  f2.st

/-- The front end reads offsets 0, 24 and 32 of the control block (R229). What it cannot read stays as it was. -/
def State.readControl (s : State) (e : Nat) : State :=
  let q := s.queue e
  let f := hubRead s q.owner q.base 64
  if f.bad.isSome then f.st
  else f.st.setQueue e { q with ringBase := leAt f.data 0 8, evBase := leAt f.data 24 8, evLog := leAt f.data 32 1 }

/-- A queue goes to ERROR: its state is copied to the control block, and a record is written (R232). -/
def State.queueError (s : State) (e : Nat) (cause : Cause) (sub : Nat) : State :=
  ((((s.setQueue e { s.queue e with state := .error }).writeControl e)).eventRecord e .faulted cause.code sub 0).msix (.queueErrors e)

/-- The checks and the effect of a wake (R232): whether it is accepted. -/
def State.wake (s : State) (w : Wake) : Bool × State :=
  let word (i : Nat) : W64 := w.words.getD i 0
  let known := s.fe.queues.find? fun x => x.2.state != .free && x.2.base == word 0 && x.2.nonce == (word 2).toNat
  let rights := field (word 1) 8 8
  let owner := field (word 1) 16 16
  match if capMac s w.words = word 3 then known else none with
  | none => (false, { s with fe := { s.fe with rejects := s.fe.rejects + 1 } }.feEvent 0)
  | some (e, _) =>
    let t := w.tail.toNat
    let refused := match w.device with
      | none => bits rights 0 1 == 0
      | some _ => bits rights 1 1 == 0 || w.ctx != owner
    if (s.queue e).state = .error then (false, s.eventRecord e .faulted Cause.capability.code 3 0)
    else if refused then (false, s.eventRecord e .faulted Cause.capability.code 4 0)
    else
    let s1 := s.readControl e
    let q := s1.queue e
    if t < q.tail then (false, s1.queueError e .capability 1)
    else if 2 ^ q.size < t - q.head then (false, s1.queueError e .capability 2)
    else
      let fresh := q.head = q.tail ∧ q.head < t
      let q1 := { q with tail := t, state := if q.head < t then .active else q.state
                         waited := if fresh then some s.cycle else q.waited }
      let s2 := (s1.setQueue e q1).writeControl e
      (true, if q.resident = 127 then s2.feEvent 0 else s2)

/-- WAKE_PROCESS: the front end takes the oldest committed wake (R232, R245). -/
def execWakeProcess (s : State) : Res :=
  match s.fe.wakes with
  | [] => .next s
  | w :: ws =>
    let (ok, s1) := { s with fe := { s.fe with wakes := ws } }.wake w
    match w.device with
    | none => .next s1
    | some (core, id) =>
      let t := ((s1.core core).started.find? fun x => x.id == id).map fun x => Nat.max x.e.time x.e.inTime
      .next (s1.finish core id (if ok then outcome .done 0 0 (t.getD 0) else outcome .faulted Cause.capability.code 0 (t.getD 0)))

/-! ### Command queues (R230, R233) -/

/-- What a command is: one of the three kinds, or one that puts its queue in ERROR (R230). -/
inductive CommandKind | nop | launch | signal | bad
  deriving DecidableEq, Repr

/-- The kind of a command's 64 bytes, under its queue's rights (R230). Bytes 24 to 63, which its table does not list, count as reserved: DESIGN CHOICE
(log 32). -/
def commandKind (rights : Nat) (bs : List Byte) : CommandKind :=
  if leAt bs 1 1 > 1 || !zeroAt bs 2 6 then .bad
  else if leAt bs 0 1 = 0 then (if zeroAt bs 8 56 then .nop else .bad)
  else if leAt bs 0 1 = 1 then (if zeroAt bs 16 48 && bits rights 2 1 == 1 then .launch else .bad)
  else if leAt bs 0 1 = 2 then (if zeroAt bs 24 40 && leAt bs 8 8 % 8 == 0 then .signal else .bad)
  else .bad

/-- The bytes of a queue's head command; none while they cannot be read. -/
def State.headCommand (s : State) (q : QueueEntry) : Option HubFlow :=
  let f := hubRead s q.owner (BitVec.ofNat 64 (q.ringBase + 64 * (q.head % 2 ^ q.size))) 64
  if f.bad.isSome then none else some f

/-- Whether a command can proceed (R230, R233): a launch needs a pool entry, a signal the end of the queue's launches. -/
def State.proceeds (s : State) (e : Nat) (k : CommandKind) : Bool :=
  match k with
  | .launch => decide (s.fe.pool.length < s.fe.poolSize)
  | .signal => !(s.fe.pool.any fun l => (l.queue.map fun x => x.1) == some e)
  | .nop | .bad => true

/-- A resident queue's command that may be taken now. -/
def State.offer (s : State) (e : Nat) : Option (Nat × CommandKind × HubFlow) :=
  let q := s.queue e
  if q.resident < 64 ∧ q.state = .active ∧ q.head < q.tail then
    match s.headCommand q with
    | some f =>
      let k := commandKind q.rights f.data
      if s.proceeds e k then some (e, k, f) else none
    | none => none
  else none

/-- The command that the arbiter takes next: lowest priority number, then round-robin by resident slot after the one last
served at that level (R233). -/
def State.arbiter (s : State) : Option (Nat × CommandKind × HubFlow) :=
  (List.range 8).findSome? fun p =>
    let from_ := kget 0 s.fe.served p
    (List.range 64).findSome? fun i =>
      let slot := (from_ + i) % 64
      match s.fe.queues.find? fun x => x.2.resident == slot && x.2.prio == p with
      | some x => s.offer x.1
      | none => none

/-- The head advances past a taken command (R229, R233). A queue whose head reaches its accepted tail stays ACTIVE: DESIGN CHOICE (log 32). -/
def State.consume (s : State) (e : Nat) : State :=
  let q := s.queue e
  let s1 := s.setQueue e { q with head := q.head + 1, waited := if q.head + 1 < q.tail then some s.cycle else none }
  ({ s1 with fe := { s1.fe with served := kset 0 s1.fe.served q.prio ((q.resident + 1) % 64) } }).writeControl e

/-- Whether a command asks for an event record. -/
def wantsRecord (bs : List Byte) : Bool := leAt bs 1 1 == 1

/-- Take the arbiter's command when it has a kind. -/
def takeCommand (s : State) (kind : CommandKind) (f : Nat → HubFlow → State) : Res :=
  match s.arbiter with
  | some (e, k, x) => if k = kind then .next (f e x) else .next s
  | none => .next s

/-- NOP_COMMAND (R230). -/
def execNopCommand (s : State) : Res :=
  takeCommand s .nop fun e x =>
    let s1 := x.st.consume e
    if wantsRecord x.data then s1.eventRecord e .done 0 0 0 else s1

/-- LAUNCH_COMMAND: the launch is enqueued for the queue's owner (R230, R238). -/
def execLaunchCommand (s : State) : Res :=
  takeCommand s .launch fun e x =>
    let q := x.st.queue e
    let v := vetLaunch x.st q.owner (BitVec.ofNat 64 (leAt x.data 8 8)) q.launches false
    let cr := wantsRecord x.data
    let (s1, lid) : State × Option Nat := match v.desc with
      | .error c =>
        let s1 := v.st.countDone q.owner v.done 0
        (if cr then s1.eventRecord e .faulted c.code 0 0 else s1, none)
      | .ok (d, cancelled) =>
        let (s1, lid) := v.st.acceptLaunch q.owner q.prio 0 d cancelled (some (e, cr))
        (s1, some lid)
    let q1 := s1.queue e
    (s1.setQueue e { q1 with launches := q1.launches ++ [lid] }).consume e

/-- SIGNAL: the value is stored once the queue's earlier launches have completed, with a logical time that is at least
theirs (R230). -/
def execSignal (s : State) : Res :=
  takeCommand s .signal fun e x =>
    let q := x.st.queue e
    let f := hubWrite x.st q.owner (BitVec.ofNat 64 (leAt x.data 8 8)) ((x.data.drop 16).take 8) q.done
    let s1 := f.st.consume e
    match f.bad, wantsRecord x.data with
    | some c, true => s1.eventRecord e .faulted c.code 0 f.time
    | none, true => s1.eventRecord e .done 0 0 f.time
    | _, false => s1

/-- COMMAND_OF_ANOTHER_KIND: a command that breaks a rule puts its queue in ERROR (R230). It does not move the round-robin position of its level:
DESIGN CHOICE (log 32). -/
def execCommandOfAnotherKind (s : State) : Res := takeCommand s .bad fun e x => x.st.queueError e .record 5

/-! ### Residency and time (R232, R233) -/

/-- QUANT_EXPIRY: every QUANT cycles the front end raises an event (R233). -/
def execQuantExpiry (s : State) : Res :=
  if s.cycle - s.fe.quantAt < s.fe.quant ∨ s.sec.phase ≠ .firmware then .next s
  else .next ({ s with fe := { s.fe with quantAt := s.cycle } }.feEvent 0)

/-- HEAD_WAIT_TIMEOUT: a resident queue's head command has waited 4,096 cycles (R233). -/
def execHeadWaitTimeout (slot : Nat) (s : State) : Res :=
  match s.fe.queues.find? fun x => x.2.resident == slot && decide (slot < 64 ∧ x.2.head < x.2.tail) with
  | some (e, q) =>
    match q.waited with
    | some c => if s.cycle - c < 4096 then .next s else .next ((s.setQueue e { q with waited := none }).feEvent 0)
    | none => .next s
  | none => .next s

/-- QUEUE_RESET: firmware resets a queue (R232). -/
def execQueueReset (entry : Nat) (s : State) : Res :=
  let q := s.queue entry
  if q.state = .free then .next s
  else .next ((s.setQueue entry { q with head := q.tail, state := .idle, waited := none }).writeControl entry)

/-- QUEUE_LOAD: firmware makes a queue resident in a slot (R233). -/
def execQueueLoad (entry slot : Nat) (s : State) : Res :=
  if 64 ≤ slot ∨ 1024 ≤ entry then .next s
  else
    let out := s.fe.queues.map fun (x : Nat × QueueEntry) => (x.1, if x.2.resident = slot then { x.2 with resident := 127 } else x.2)
    let s1 := { s with fe := { s.fe with queues := out } }
    let q := s1.queue entry
    .next (s1.setQueue entry { q with resident := slot, waited := if q.head < q.tail then some s.cycle else none })

/-- QUEUE_UNLOAD: firmware unloads the queue in a slot; its entry stays (R233). -/
def execQueueUnload (slot : Nat) (s : State) : Res :=
  .next { s with fe := { s.fe with queues := s.fe.queues.map fun (x : Nat × QueueEntry) =>
    (x.1, if slot < 64 ∧ x.2.resident = slot then { x.2 with resident := 127 } else x.2) } }

/-! ### The pool's growth (R239) -/

/-- The waiting `launch.w` operations, with their cores. -/
def State.poolWaiters (s : State) : List (Nat × Started) :=
  s.cores.flatMap fun x => (x.2.started.filter fun y => y.stage matches .pooling ..).map fun y => (x.1, y)

/-- Whether no core that ran a context has dispatched a bundle of it for 1,024 cycles: none that runs it now, and none that has left it. -/
def State.ctxStill (s : State) (ctx : Nat) : Bool :=
  decide (kget 0 s.fe.ranTill ctx + 1024 ≤ s.cycle) &&
  s.cores.all fun x => isFw x.1 || decide (65536 ≤ x.1) || x.2.ctx != ctx || x.2.run == .free || x.2.run == .off ||
    decide (1024 ≤ x.2.still)

/-- The operation of a list that was issued last. -/
def youngest : List (Nat × Started) → Option (Nat × Started)
  | [] => none
  | x :: xs => match youngest xs with
    | some y => if y.2.e.entered < x.2.e.entered then some x else some y
    | none => some x

/-- POOL_GROWTH: a full pool grows by a unit of the overflow area; with none left, the youngest waiting `launch.w` of the
context faults (R239). -/
def execPoolGrowth (s : State) : Res :=
  let ws := s.poolWaiters
  let ctxOf (w : Nat × Started) : Nat := w.2.orphan.getD (s.core w.1).ctx
  match ws.find? fun w => s.ctxStill (ctxOf w) with
  | none => .next s
  | some w =>
    if s.fe.pool.length < s.fe.poolSize then .next s
    else if s.fe.grown < s.fe.overflowUnits then .next { s with fe := { s.fe with grown := s.fe.grown + 1 } }
    else match youngest (ws.filter fun x => ctxOf x == ctxOf w) with
      | some y =>
        .next (s.finish y.1 y.2.id (outcome .faulted Cause.launchPoolExhausted.code 0 (Nat.max y.2.e.time y.2.e.inTime)))
      | none => .next s

end Sys2Proof.Machine
end

