-- ==== Sys2Proof/Machine/Boot.lean ====
section
/-!
DEFINITION. Boot, lease, recovery, scrub, attestation, and the host interface (R336 to R350).
-/
namespace Sys2Proof.Machine

/-! ### Keys and measurements (R339, R340) -/

/-- Extend a measurement register. -/
def extendMr (mr : List (List Byte)) (i : Nat) (digest : List Byte) : List (List Byte) :=
  mr.set i (sha256 (mr.getD i zero32 ++ digest))

/-- The measurement registers after the ROM has measured itself. -/
def romMr : List (List Byte) := extendMr (List.replicate 5 zero32) 0 (sha256 Config.romImage)

/-- CDI0, from which the identity key is derived; it depends only on the ROM. -/
def identitySecret : List Byte := hmac Config.pufSecret (romMr.getD 0 zero32)

/-- CDI1, from which the attestation key is derived. -/
def attestSecret (mr : List (List Byte)) : List Byte := hmac (hmac Config.pufSecret (mr.getD 0 zero32)) (mr.drop 1).flatten

/-- The device identity digest. -/
def identityDigest : List Byte := sha256 (Config.publicKey identitySecret)

/-! ### Records (R337, R338, R345) -/

/-- `n` bytes of a record from offset `o`; missing bytes are 0. -/
def slice (bs : List Byte) (o n : Nat) : List Byte :=
  let x := (bs.drop o).take n
  x ++ List.replicate (n - x.length) 0

/-- Whether a lease record is accepted (R337). -/
def leaseOk (c : Security) (r : List Byte) : Bool :=
  leAt r 0 4 == 0x534C514E && zeroAt r 4 4 && leAt r 80 1 ≤ 4 && zeroAt r 81 47 &&
    zeroAt r (128 + 64 * leAt r 80 1) (256 - 64 * leAt r 80 1) && zeroAt r 384 64 &&
    slice r 16 32 == identityDigest && slice r 48 32 == c.bindNonce && ecdsaVerifies c.ownerKey (slice r 0 448) (slice r 448 64)

/-- The key of a signer, when it exists (R338). -/
def signerKey (c : Security) (n : Nat) : Option (List Byte) :=
  if n = 0 then some c.ownerKey
  else match c.accepted with
    | some r => if n ≤ leAt r 80 1 then some (slice r (128 + 64 * (n - 1)) 64) else none
    | none => none

/-- The body of a firmware image. -/
def imageBody (img : List Byte) : List Byte := slice img 256 (leAt img 16 8)

/-- The verification of a firmware image (R338), with the codes of R341: 0 verified, 1 bad header, 2 unknown signer, 3 bad
signature, 4 bad digest. -/
def checkImage (c : Security) (img : List Byte) : Nat :=
  if leAt img 0 4 ≠ 0x464D514E ∨ !zeroAt img 9 7 ∨ 0x4000000 - 256 < leAt img 16 8 ∨ !zeroAt img 64 128 then 1
  else match signerKey c (leAt img 8 1) with
    | none => 2
    | some k =>
      if !ecdsaVerifies k (slice img 0 192) (slice img 192 64) then 3
      else if sha256 (imageBody img) ≠ slice img 32 32 then 4 else 0

/-- Whether a scrub request is accepted (R345). -/
def scrubOk (c : Security) (r : List Byte) : Bool :=
  leAt r 0 4 == 0x5153514E && zeroAt r 4 4 && zeroAt r 104 24 && slice r 8 32 == identityDigest && slice r 40 32 == c.bindNonce &&
    ecdsaVerifies c.ownerKey (slice r 0 128) (slice r 128 64)

/-! ### The boot sequence (R339) -/

/-- Every declaration at its largest (R59, R137): what a core without a task image may use (log 9). -/
def fullLimits : W64 :=
  BitVec.ofNat 64 (64 + 64 * 2 ^ 7 + 63 * 2 ^ 14 + 16 * 2 ^ 20 + 32 * 2 ^ 25 + 8 * 2 ^ 31 + 192 * 2 ^ 35 + 128 * 2 ^ 43
    + 64 * 2 ^ 51)

/-- Whether a record whose layout the spec does not give is signed by the owner key (R337, R339; log 28). -/
def ownerSigned (c : Security) (r : List Byte) : Bool :=
  ecdsaVerifies c.ownerKey (Config.signedParts r).1 (Config.signedParts r).2

/-- The logical indices of a die that firmware leaves out: one for every good core that it has below 257 (R9). -/
def missingOf (c : Nat) : List Nat :=
  ((List.range (257 - Config.goodCores c)).foldl (fun (x : List Nat × List Nat) n =>
    let j := Config.missing c n % x.2.length
    (x.1 ++ (x.2[j]?).toList, x.2.eraseIdx j)) ([], (List.range 256).map fun i => c * 256 + i)).1

/-- Firmware maps the good cores of each die at boot, and marks the indices that are missing (R9). -/
def State.mapCores (s : State) : State :=
  let gone := ((List.range 8).flatMap missingOf).filter fun i => !s.hub.absent.contains i
  { s with hub := { s.hub with absent := s.hub.absent ++ gone } }

/-- The state that a boot starts from: every item that the state cards reset at boot; DRAM, flash, the record of retired units
and the free counter stand. Lines still held are written back (log 4). -/
def State.fresh (s : State) : State :=
  let ms := (s.ms.lines.map fun e => e.1).foldl MemSys.evict s.ms
  { State.reset with
    agenda := []
    cycle := s.cycle
    free := s.free
    pkg := s.pkg
    ms := { MemSys.init with mem := ms.mem.filter fun e => isDram e.1, faulty := ms.faulty.filter fun l => isDram (64 * l), dead := ms.dead }
    fe := { FrontEnd.init with bootNo := s.fe.bootNo + 1 }
    hub := { Hub.init with absent := s.hub.absent, sparesUsed := s.hub.sparesUsed, retired := s.hub.retired }
    sec := { s.sec with windows := [], bar2Base := 0, bar2Size := 0, msix := [], scrubReq := [] } }

/-- A core after a scrub, which zeroes every register (R135, R149, R345): the CSRs that have a value at boot hold it (R136). -/
def Core.scrubbed : Core := { Core.init with csr := [(0x049, 64), (0x068, 0x01000000)] }

/-- A firmware core starts at word 0 with the image that fits its instruction memory. -/
def bootCore (k : Core) (body : List Byte) : Core :=
  { k with
    run := .running
    csr := kset 0 k.csr 0x060 fullLimits
    imem := textWords (Nat.min 16384 (ceilDiv body.length 4)) 0 body }

/-- The ROM starts an image: MR3 and MR4, the attestation key, the firmware cores. The slot code stands in the first of MR4's 32 bytes:
DESIGN CHOICE (log 28). -/
def State.startImage (s : State) (img : List Byte) (code : Nat) : State :=
  let mr := (extendMr s.sec.mr 3 (sha256 (slice img 0 256 ++ imageBody img))).set 4 (leBytes 32 code)
  let cs := (List.range 8).filter fun c => !s.hub.retired.contains (.firmwareCore c)
  { s with
    sec := { s.sec with mr := mr, phase := .firmware }
    turn := 0xF000
    cores := cs.foldl (fun m c => kput m (0xF000 + c) (bootCore (s.core (0xF000 + c)) (imageBody img))) s.cores }.mapCores

/-- The boot sequence (R339) over the cores as they are found: measurements, a pending scrub, the lease, and the image that boots; or the
recovery stub. MR1 is extended with the configuration blobs that verify. -/
def State.bootWith (s0 : State) (cores : KMap Core) : State :=
  let s := { s0.fresh with cores := cores }
  let c := s.sec
  if c.scrubPending then { s with sec := { c with mr := romMr, phase := .scrubbing } }
  else
    let lease := slice c.lease 0 512
    let ok := leaseOk c lease
    let mr1 := (c.blobs.filter (ownerSigned c)).foldl (fun m b => extendMr m 1 (sha256 b)) romMr
    let mr2 := extendMr mr1 2 (if ok then sha256 lease else zero32)
    let c1 : Security := { c with mr := mr2, accepted := if ok then some lease else none, force := false }
    let a := checkImage c1 c.slotA
    let b := checkImage c1 c.slotB
    let s1 := { s with sec := { c1 with verified := [a, b], phase := .recovery } }
    if c.force then
      if leAt c.recoveryImage 8 1 = 0 ∧ checkImage c1 c.recoveryImage = 0 then s1.startImage c.recoveryImage 3 else s1
    else if a = 0 then s1.startImage c.slotA 1
    else if b = 0 then s1.startImage c.slotB 2
    else s1

/-- The boot sequence over cores whose registers nothing has written (log 1). -/
def State.boot (s : State) : State := s.bootWith []

/-- POWER_ON: the ROM boots the module (R339). -/
def execPowerOn (s : State) : Res :=
  if s.sec.phase = .off then .next s.boot else .next s

/-- SIDEBAND_RESET: the ROM boots the module again (R339); it also ends the halt of R350. The mailbox registers take their reset values. -/
def execSidebandReset (s : State) : Res :=
  if s.sec.phase = .off then .next s
  else .next { s with sec := { s.sec with mailCommand := 0, mailStatus := 0, mailWindow := 0 } }.boot

/-- POWER_LOSS: flash is kept (R344), and so are FORCE_RECOVERY, which waits for the next boot (R349), and the scrub record, which stays until
the next scrub (R346). -/
def execPowerLoss (s : State) : Res :=
  .next { State.reset with
    agenda := []
    cycle := s.cycle
    free := s.free
    pkg := s.pkg
    fe := { FrontEnd.init with bootNo := s.fe.bootNo }
    hub := { Hub.init with absent := s.hub.absent, sparesUsed := s.hub.sparesUsed, retired := s.hub.retired }
    sec := { Security.init with
      ownerKey := s.sec.ownerKey
      blobs := s.sec.blobs
      recoveryImage := s.sec.recoveryImage
      lease := s.sec.lease
      bindNonce := s.sec.bindNonce
      scrubPending := s.sec.scrubPending
      scrubNonce := s.sec.scrubNonce
      slotA := s.sec.slotA
      slotB := s.sec.slotB
      log := s.sec.log
      force := s.sec.force
      scrubRecord := s.sec.scrubRecord
      staging := mwrite [] 0 s.sec.scrubRecord } }

/-- FORCE_RECOVERY: it takes effect at the next boot (R349). -/
def execForceRecovery (s : State) : Res := .next { s with sec := { s.sec with force := true } }

/-! ### Scrub (R344 to R346) -/

/-- An accepted request: the protected area is written, launches and firmware cores end, ports and BAR2 stop. -/
def State.beginScrub (s : State) (r : List Byte) : State :=
  { s with
    agenda := []
    fabricOut := []
    cores := s.cores.map fun e => (e.1, { e.2 with run := .off })
    net := []
    netWait := []
    fe := { s.fe with pool := [], wakes := [] }
    sec := { s.sec with scrubPending := true, scrubNonce := slice r 72 32, phase := .scrubbing, bar2Size := 0, windows := [] } }

/-- What the read-back of a class finds: 0 all zero, 1 a mismatch, 2 not reached (R346). -/
def scrubResult (s : State) (code : Nat) : Nat := Config.freeNat s.free (239 + code) % 3

/-- Bytes that a class entry reports, of a class that was reached: DRAM's and the near tier's are stated (R187, R345), the others' are free (R346). -/
def scrubBytes (s : State) (code : Nat) : Nat :=
  if code = 1 ∧ scrubResult s 1 ≠ 2 then 0x8000000000
  else if code = 2 ∧ scrubResult s 2 ≠ 2 then 0x400000000
  else Config.freeNat s.free (229 + code)

/-- The completion record of a scrub (R346). -/
def scrubRecord (s : State) : List Byte :=
  let head := leBytes 8 0x5253514E ++ identityDigest ++ s.sec.scrubNonce ++ leBytes 8 (Config.freeNat s.free 229) ++
    (List.range 9).flatMap (fun i => leBytes 8 (scrubBytes s (i + 1)) ++ leBytes 8 (scrubResult s (i + 1))) ++ List.replicate 224 0
  head ++ slice (Config.sign (attestSecret s.sec.mr) head) 0 64

/-- Every class that the read-back found wrong is entered in the error log (R346). -/
def State.logMismatches (s : State) : State :=
  ((List.range 9).filter fun i => scrubResult s (i + 1) == 1).foldl (fun s _ => s.logError) s

/-- SCRUB_COMPLETE: storage is zero; the nonce is installed, the record is left, and the module boots again (R344). A mailbox command that a scrub of
another origin cut off counts as refused: DESIGN CHOICE (log 28). -/
def execScrubComplete (s0 : State) : Res :=
  if s0.sec.phase ≠ .scrubbing then .next s0
  else
    let s := s0.logMismatches
    let record := scrubRecord s
    let s1 : State := { State.reset with
      agenda := []
      cycle := s.cycle
      free := s.free
      pkg := s.pkg
      fe := { FrontEnd.init with bootNo := s.fe.bootNo }
      hub := { Hub.init with absent := s.hub.absent, sparesUsed := s.hub.sparesUsed, retired := s.hub.retired }
      sec := { s.sec with
        bindNonce := s.sec.scrubNonce
        scrubPending := false
        scrubRecord := record
        staging := mwrite s.sec.staging 0 record
        mailStatus := if s.sec.mailStatus ≠ 1 then s.sec.mailStatus else if s.sec.mailCommand.toNat = 4 then 2 else 3 } }
    .next (s1.bootWith (allCores.map fun i => (i, Core.scrubbed)))

/-- SCRUB_DOORBELL: firmware runs, and the host submits the request in BAR0 (R344, R345). -/
def execScrubDoorbell (s : State) : Res :=
  let r := mread s.sec.scrubReq 0 192
  match s.sec.phase with
  | .firmware => .next (if scrubOk s.sec r then s.beginScrub r else s.logError)
  | .scrubbing => .next s.logError
  | .off | .recovery | .halted => .next s

/-- Add an answer to the outside. -/
def State.answer (s : State) (a : Answer) : State := { s with sec := { s.sec with answers := s.sec.answers ++ [a] } }

/-- SIDEBAND_SCRUB: the sideband submits a request (R345, R349). -/
def execSidebandScrub (req : List Byte) (s : State) : Res :=
  match s.sec.phase with
  | .firmware | .recovery =>
    .next (if req.length = 192 ∧ scrubOk s.sec req then (s.answer .scrubAccepted).beginScrub req else s.logError.answer .error)
  | .scrubbing => .next (s.logError.answer .error)
  | .off | .halted => .next s

/-! ### The recovery mailbox (R342, R343) -/

/-- Whether the mailbox is busy with a command other than `code`: the host's command word is then refused (R343). -/
def Security.busyWith (c : Security) (code : Nat) : Bool := c.mailStatus == 1 && c.mailCommand.toNat != code

/-- A mailbox command runs in the stub, once the host has written its word, unless another is in progress; it leaves its status. -/
def mailbox (s : State) (code : Nat) (f : Security → Security × Nat) : Res :=
  if s.sec.phase ≠ .recovery ∨ s.sec.busyWith code then .next s
  else
    let (c, st) := f s.sec
    .next { s with sec := { c with mailStatus := st } }

/-- The staged image. -/
def stagedImage (c : Security) : List Byte :=
  mread c.staging 0 (256 + Nat.min (0x4000000 - 256) (leNat (mread c.staging 16 8)))

/-- COMMIT_A: the staged image goes to slot A when it verifies (R343). -/
def execCommitA (s : State) : Res :=
  mailbox s 1 fun c => if checkImage c (stagedImage c) = 0 then ({ c with slotA := stagedImage c }, 2) else (c, 3)

/-- COMMIT_B: the same for slot B. -/
def execCommitB (s : State) : Res :=
  mailbox s 2 fun c => if checkImage c (stagedImage c) = 0 then ({ c with slotB := stagedImage c }, 2) else (c, 3)

/-- WRITE_LEASE: the first 512 staged bytes become the lease record, unchecked (R343). -/
def execWriteLease (s : State) : Res := mailbox s 3 fun c => ({ c with lease := mread c.staging 0 512 }, 2)

/-- READ_LOG: the error log is copied to staging (R343). -/
def execReadLog (s : State) : Res := mailbox s 5 fun c => ({ c with staging := mwrite c.staging 0 c.log.flatten }, 2)

/-- REBOOT: the boot sequence runs again (R343). -/
def execReboot (s : State) : Res :=
  if s.sec.phase ≠ .recovery ∨ s.sec.busyWith 6 then .next s
  else .next { s with sec := { s.sec with mailStatus := 2 } }.boot

/-- SCRUB: the mailbox submits the request at staging offset 0 (R343, R345); while another scrub runs it is refused (R344). -/
def execScrub (s : State) : Res :=
  let r := mread s.sec.staging 0 192
  if s.sec.busyWith 4 ∨ (s.sec.mailStatus = 1 ∧ s.sec.phase = .scrubbing) ∨ !(s.sec.phase = .recovery ∨ s.sec.phase = .scrubbing) then .next s
  else if s.sec.phase = .recovery ∧ scrubOk s.sec r then .next ({ s with sec := { s.sec with mailStatus := 1, mailCommand := 4 } }.beginScrub r)
  else .next { s.logError with sec := { s.logError.sec with mailStatus := 3 } }

/-! ### Attestation (R341) and the sideband (R349) -/

/-- An answer of the security block; none while power is off. -/
def spdm (s : State) (a : Answer) : Res := if s.sec.phase = .off then .next s else .next (s.answer a)

/-- The certificate of the attestation key. -/
def certificateOf (s : State) : List Byte := Config.certificate identitySecret (attestSecret s.sec.mr)

/-- GET_VERSION: 1.3, as SPDM codes it. -/
def execGetVersion (s : State) : Res := spdm s (.version 0x13)
/-- GET_CAPABILITIES: certificates, challenge, measurements; no key exchange, no sessions. -/
def execGetCapabilities (s : State) : Res := spdm s (.capabilities true true true false false)
/-- NEGOTIATE_ALGORITHMS: ECDSA P-256 and SHA-256, of what the requester offers. -/
def execNegotiateAlgorithms (p256 sha : Bool) (s : State) : Res := spdm s (.algorithms p256 sha)
/-- GET_DIGESTS. -/
def execGetDigests (s : State) : Res := spdm s (.digests (sha256 (certificateOf s)))
/-- GET_CERTIFICATE: the module has one chain. -/
def execGetCertificate (slot : Nat) (s : State) : Res :=
  spdm s (if slot = 0 then .certificate 0 (certificateOf s) else .error)
/-- CHALLENGE: a signature by the attestation key over the nonce and the measurements. -/
def execChallenge (nonce : List Byte) (s : State) : Res :=
  spdm s (.challengeAuth (Config.sign (attestSecret s.sec.mr) (nonce ++ s.sec.mr.flatten)))
/-- GET_MEASUREMENTS: blocks 1 to 5 are MR0 to MR4, block 6 the verification results. -/
def execGetMeasurements (block : Nat) (s : State) : Res :=
  spdm s (if 1 ≤ block ∧ block ≤ 5 then .measurement block (s.sec.mr.getD (block - 1) zero32)
    else if block = 6 then .measurement 6 (s.sec.verified.flatMap fun v => leBytes 1 v) else .error)
/-- The positions of the valves of every column (R349, R350). -/
def State.valvePositions (s : State) : List Nat := (List.range 128).map fun i => kget 128 s.sec.valves i

/-- ERROR_LOG_READ: the sideband reads the error log (R349). -/
def execErrorLogRead (s : State) : Res := spdm s (.log s.sec.log)

/-! ### BAR2 (R347) -/

/-- The local address that an access through BAR2 reaches; `none` where the window is closed or shows no memory. -/
def bar2Addr (s : State) (offset n : Nat) : Option Nat :=
  let a := s.sec.bar2Base + offset
  if s.sec.phase = .firmware ∧ offset + n ≤ s.sec.bar2Size ∧ reachable a n then some a else none

/-- HOST_BAR2_WRITE: stores at the home of each line, in a way where a migration has moved it (R208, R330, R347). -/
def execHostBar2Write (offset : Nat) (data : List Byte) (s : State) : Res :=
  match bar2Addr s offset data.length with
  | some a => .next ((linePieces (data.length / 64 + 2) a data.length).foldl (fun s x => (s.engWrite 0 (.phys (s.ms.forward x.1)) ((data.drop (x.1 - a)).take x.2)).1) s)
  | none => .next s

/-- HOST_BAR2_READ: loads at the home of each line (R330, R347). -/
def execHostBar2Read (offset len : Nat) (s : State) : Res :=
  match bar2Addr s offset len with
  | some a =>
    let (bs, s1) := (linePieces (len / 64 + 2) a len).foldl (fun (x : List Byte × State) y =>
      let (b, _, t) := x.2.engRead 0 (.phys (s.ms.forward y.1)) y.2
      (x.1 ++ b, t)) ([], s)
    .next (s1.answer (.read bs))
  | none => .next s

/-! ### Control space and BAR0 (R343, R344, R348) -/

/-- The control-space address that a host access in a control window reaches, when firmware runs and the window is open for it: bit 1 of the
window register permits reads, bit 2 writes (R348). -/
def windowAddr (s : State) (offset len perm : Nat) : Option Nat :=
  let w := (kget 0 s.sec.windows (offset / 0x10000)).toNat
  let p := bits w 16 27 * 0x10000 + offset % 0x10000
  if s.sec.phase ≠ .firmware ∨ !(len = 4 ∨ len = 8) ∨ offset % len ≠ 0 ∨ 0x100000 ≤ offset ∨ bits w 0 1 = 0 ∨ bits w perm 1 = 0 ∨
      !isControl p then none
  else some p

/-- Where a host write in a control window lands: the register (R348). Only firmware reaches the window registers. -/
def windowReg (s : State) (offset len : Nat) : Option CtlReg :=
  (windowAddr s offset len 2).bind fun p => match ctlReg p with
    | some (.window _, _, _) => none
    | some (r, base, _) => if p = base then some r else none
    | none => none

/-- What a host read in a control window returns: zero where the window does not permit it (R348). -/
def windowRead (s : State) (offset len : Nat) : List Byte :=
  match windowAddr s offset len 1 with
  | some p =>
    match ctlReg p with
    | some (.window _, _, _) => List.replicate len 0
    | _ => s.ctlRead p len
  | none => List.replicate len 0

/-- The command that a code of the mailbox names (R343). -/
def mailCommand (code : Nat) : List Instr :=
  match code with
  | 1 => [.commitA] | 2 => [.commitB] | 3 => [.writeLease] | 4 => [.scrub] | 5 => [.readLog] | 6 => [.reboot] | _ => []

/-- The mailbox's registers as the host reads them: command, status, window index (R343). -/
def Security.mailbox (c : Security) : List Byte := leBytes 8 c.mailCommand.toNat ++ leBytes 8 c.mailStatus ++ leBytes 8 c.mailWindow

/-- A host read of BAR0 (R342, R343, R346 to R348). In the stub every range but the recovery window and the scrub record reads zero; the
other ranges without a stated value are free while firmware runs. -/
def State.bar0Read (s : State) (o n : Nat) : List Byte :=
  let c := s.sec
  let unstated : List Byte :=
    if c.phase = .firmware then (List.range n).map fun i => Config.freeByte s.free (251 + i) else List.replicate n 0
  if o < 0x100000 then windowRead s o n
  else if 0x200000 ≤ o ∧ o + n ≤ 0x200018 then (c.mailbox.drop (o - 0x200000)).take n
  else if 0x201000 ≤ o ∧ o + n ≤ 0x201200 then slice c.scrubRecord (o - 0x201000) n
  else if 0x300000 ≤ o ∧ o + n ≤ 0x400000 then mread c.staging (c.mailWindow * 0x100000 + (o - 0x300000)) n
  else unstated

/-- A host write to BAR0 (R342 to R344, R347): control windows, wake pages, mailbox, scrub request and doorbell, staging. During a scrub only
the mailbox and the doorbell take it. What an access asks for is the step that comes next, so that accesses act in the order in which the link
delivers them (R348). The mailbox is busy from a command's word to its end and refuses other words meanwhile (R343). -/
def State.bar0 (s : State) (o : Nat) (data : List Byte) : State :=
  let v := leNat data
  let push (es : List Instr) : State := { s with agenda := es ++ s.agenda }
  let fw := s.sec.phase = .firmware
  let stub := s.sec.phase = .recovery
  let box (c : Security) (st : Nat) : Security := { c with mailCommand := BitVec.ofNat 64 v, mailStatus := st }
  if s.sec.phase = .off ∨ s.sec.phase = .halted then s
  else if o < 0x100000 then
    if fw then push [.controlSpaceWrite (.throughWindow o data.length (BitVec.ofNat 64 v))] else s
  else if o < 0x200000 then
    if fw ∧ data.length = 8 ∧ o % 0x1000 ≤ 32 then push [.wakeWrite ((o - 0x100000) / 0x1000) (o % 0x1000) (BitVec.ofNat 64 v)] else s
  else if o = 0x200000 then
    if s.sec.mailStatus = 1 then s
    else if stub then { push (mailCommand v) with sec := box s.sec (if (mailCommand v).isEmpty then 3 else 1) }
    else if s.sec.phase = .scrubbing ∧ v = 4 then { push (mailCommand v) with sec := box s.sec s.sec.mailStatus }
    else { s with sec := box s.sec s.sec.mailStatus }
  else if o = 0x200010 then { s with sec := { s.sec with mailWindow := v % 64 } }
  else if 0x202000 ≤ o ∧ o + data.length ≤ 0x2020C0 then
    if fw then { s with sec := { s.sec with scrubReq := mwrite s.sec.scrubReq (o - 0x202000) data } } else s
  else if o = 0x2020C0 then (if v = 1 then push [.scrubDoorbell] else s)
  else if 0x300000 ≤ o ∧ o + data.length ≤ 0x400000 then
    if stub then { s with sec := { s.sec with staging := mwrite s.sec.staging (s.sec.mailWindow * 0x100000 + (o - 0x300000)) data } } else s
  else s

/-- A context-table entry is written (R296). A context that is created has the split 0 (R136, R187) and no valid ring (R258). -/
def State.setContext (s : State) (ctx : Nat) (e : CtxEntry) : State :=
  let none_ : CtxEntry := { valid := false, root := 0, group := 0 }
  let ms := { s.ms with contexts := kset none_ s.ms.contexts ctx e }
  if e.valid && !(kget none_ s.ms.contexts ctx).valid then
    { s with
      ms := { ms with nsplit := ms.nsplit.filter fun x => x.1 / 8 != ctx }
      hub := { s.hub with rings := s.hub.rings.filter fun x => x.1 / 64 != ctx } }
  else { s with ms := ms }

/-- Write bytes into a region of flash from an offset; what lies before them and was never written reads as 0. -/
def writeOver (old : List Byte) (o : Nat) (bs : List Byte) : List Byte := slice old 0 o ++ bs ++ old.drop (o + bs.length)

/-- A write of boot flash by firmware (R336): the lease record, the two slots, and the entries of the error log, counted from its oldest.
Flash elsewhere is not firmware's. -/
def Security.writeFlash (c : Security) (o : Nat) (bs : List Byte) : Security :=
  let within (base size : Nat) : Bool := decide (base ≤ o ∧ o + bs.length ≤ base + size)
  if within 0x2000000 0x1000 then { c with lease := writeOver c.lease (o - 0x2000000) bs }
  else if within 0x4000000 0x4000000 then { c with slotA := writeOver c.slotA (o - 0x4000000) bs }
  else if within 0x8000000 0x4000000 then { c with slotB := writeOver c.slotB (o - 0x8000000) bs }
  else if within 0xC000000 0x1000000 && bs.length == 64 && o % 64 == 0 then
    let i := (o - 0xC000000) / 64
    { c with log := if i < c.log.length then c.log.set i bs else c.log ++ [bs] }
  else c

/-- An ownership record: the ROM replaces the owner area only when the current owner key has signed it (R336, R337). -/
def Security.takeOwnership (c : Security) (r : List Byte) : Security :=
  if ownerSigned c r then
    let (key, blobs, img) := Config.ownerArea r
    { c with ownerKey := key, blobs := blobs, recoveryImage := img }
  else c

/-- Whether a window onto local memory has a size that BAR2 may take (R347); 0 closes it. -/
def bar2SizeOk (n : Nat) : Bool := n == 0 || (List.range 10).any fun i => n == 2 ^ (30 + i)

/-- The writes that the host, the sideband and the ROM make; the others are firmware's, and are made while it runs (R342, R350). -/
def outerAccess : ControlWrite → Bool
  | .bar0 .. | .bar0Read .. | .ownership _ | .telemetry => true
  | _ => false

/-- CONTROL_SPACE_WRITE: an access of control space without a row of its own, of BAR0 by the host, of boot flash, or of the PMC's telemetry. -/
def execControlSpaceWrite (w : ControlWrite) (s : State) : Res :=
  let set (f : Security → Security) : Res := .next { s with sec := f s.sec }
  if s.sec.phase = .off ∨ (s.sec.phase = .halted ∧ w ≠ .telemetry) ∨ (!outerAccess w ∧ s.sec.phase ≠ .firmware) then .next s else
  match w with
  | .window i v => if 16 ≤ i then .next s else set fun c => { c with windows := kset 0 c.windows i v }
  | .throughWindow o n v =>
    match windowReg s o n with
    | some r => .next { s with agenda := ctlEvent r v.toNat ++ s.agenda }
    | none => .next s
  | .contextEntry ctx valid root group =>
    .next (s.setContext (ctx % 65536) { valid := valid, root := root, group := group % 65536 })
  | .ring ctx col idx base log2 =>
    if log2 < 4 ∨ 16 < log2 ∨ base.toNat % 16 ≠ 0 ∨ !(field base 57 7 == 0 || field base 57 7 == 0x60) then .next s
    else
      let r : Ring := { base := base, log2 := log2, head := 0, tail := 0, valid := true }
      .next { s with hub := { s.hub with rings := kput s.hub.rings (ringIx ctx col idx) r } }
  | .quant n => .next { s with fe := { s.fe with quant := n } }
  | .overflow base units => .next { s with fe := { s.fe with overflowBase := base, overflowUnits := units } }
  | .errorWindow n => .next { s with hub := { s.hub with errW := n } }
  | .threshold n => if n = 0 ∨ 255 < n then .next s else .next { s with hub := { s.hub with thresh := n } }
  | .perfSelect core i sel =>
    if 8 ≤ i then .next s
    else if core < 65536 then .next (s.modCore core fun k => { k with perfSel := kset 0 k.perfSel i (sel % 256) })
    else .next { s with hub := { s.hub with perfSel := kset 0 s.hub.perfSel ((core - 65536) * 8 + i) (sel % 256) } }
  | .bar2 base size => if bar2SizeOk size then set fun c => { c with bar2Base := base, bar2Size := size } else .next s
  | .msix v t => if 2048 ≤ v then .next s else set fun c => { c with msix := (v, t) :: c.msix.filter fun x => x.1 != v }
  | .queueOwner e owner => .next (s.setQueue e { s.queue e with owner := owner % 65536 })
  | .effectivePriority lid prio =>
    .next (s.setPool (s.fe.pool.map fun l => if l.lid = lid then { l with eff := prio % 8 } else l))
  | .endLaunch lid cause =>
    match s.launch lid with
    | some l => .next (s.failLaunch l .faulted (cause % 256))
    | none => .next s
  | .saveByte core o v =>
    match s.saveBase core with
    | some base =>
      if 0x80000 ≤ o then .next s
      else
        let i := 0xF000 + fwCol s (colOf core)
        let (s1, t) := s.homeStore i (base + o) [v]
        .next (s1.modCore i fun k => k.raise t)
    | none => .next s
  | .mailbox col => .next (s.msix (.mailbox col))
  | .bar0 o data => .next (s.bar0 o data)
  | .bar0Read o n => .next (s.answer (.read (s.bar0Read o n)))
  | .flash o data => set fun c => c.writeFlash o data
  | .ownership r => if s.sec.phase = .scrubbing then .next s else set fun c => c.takeOwnership r
  | .telemetry => .next (s.answer (.telemetry s.valvePositions))

end Sys2Proof.Machine
end

