-- ==== Sys2Proof/Machine/Csr.lean ====
section
/-!
DEFINITION. The four CSR instructions (R138 to R141).
-/
namespace Sys2Proof.Machine

/-- CSRs that no instruction writes (R138). -/
def csrReadOnly (n : Nat) : Bool := decide (n ≤ 0x004) || n == 0x040 || n == 0x048

/-- CSRs that only firmware writes (R138). -/
def csrFwWrite (n : Nat) : Bool :=
  n == 0x049 || (decide (0x050 ≤ n) && decide (n ≤ 0x052)) || n == 0x058 || n == 0x060 || n == 0x068

/-- CSRs that only firmware reads and writes (R138). -/
def csrFwOnly (n : Nat) : Bool := n == 0x053 || n == 0x054

/-- The access check of R138 for a read (`writes` false) or a write; otherwise go on. -/
def csrAccess (s : State) (c : Cursor) (n : Nat) (writes : Bool) (f : Unit → Res) : Res :=
  if writes && csrReadOnly n then takeTrap s c .illegalSlotOp (slotTval c 8)
  else if !isFw c.core && (csrFwOnly n || (writes && csrFwWrite n)) then takeTrap s c .privilege (slotTval c 0)
  else f ()

/-- The sticky flags without the held sets that the cursor's `csr*` has read; they are now part of the old value
(R140). -/
def State.takeFlags (s : State) (c : Cursor) (v : W64) : State :=
  s.modCore c.core fun k =>
    { k with
      writes := k.writes.filter fun w =>
        match w.wr with
        | .flags _ => !seeFlags s c w
        | _ => true
      csr := kset 0 k.csr 0x010 v }

/-- Write a CSR: an S-class write with L = 1 (R139), the status flags at once (R140). -/
def State.putCsr (s : State) (c : Cursor) (n : Nat) (v : W64) : State :=
  if n = 0x010 then s.takeFlags c (csrTrim n v) else s.put c 1 (.csr n (csrTrim n v))

/-- Read a CSR into d with DF 0 and write it with `f` of the old value and the source (R139). The access class is checked before
the source's DF bit: DESIGN CHOICE (log 18). -/
def csrOp (f : W64 → W64 → W64) (always : Bool) (d a : Reg) (csr : Fin 1024) (s : State) : Res :=
  slotOp s [.s d.val, .s a.val] fun c =>
    let writes := always || a.val ≠ 0
    csrAccess s c csr.val writes fun _ => withClean s c [a] fun _ =>
      let old := s.csrv c csr.val
      let s1 := s.put c 1 (.scalar d.val old false)
      .next (if writes then s1.putCsr c csr.val (f old (s.sr c a.val).val) else s1)

/-- `csrr` (R139). -/
def execCsrr (d : Reg) (csr : Fin 1024) (s : State) : Res :=
  slotOp s [.s d.val] fun c => csrAccess s c csr.val false fun _ =>
    .next (s.put c 1 (.scalar d.val (s.csrv c csr.val) false))
/-- `csrw` (R139). -/
def execCsrw (d a : Reg) (csr : Fin 1024) (s : State) : Res := csrOp (fun _ x => x) true d a csr s
/-- `csrs` (R139). -/
def execCsrs (d a : Reg) (csr : Fin 1024) (s : State) : Res := csrOp (fun o x => o ||| x) false d a csr s
/-- `csrc` (R139). -/
def execCsrc (d a : Reg) (csr : Fin 1024) (s : State) : Res := csrOp (fun o x => o &&& ~~~x) false d a csr s

end Sys2Proof.Machine
end

