-- ==== Sys2Proof/Machine/Start.lean ====
section
/-!
DEFINITION. The start and the completion of engine operations (R224, R304 to R307).
-/
namespace Sys2Proof.Machine

/-- An operation starts at its engine: the state after and how far it has come; `none` while the engine does not accept it
(R224). X-slot operations start by MATRIX_OPERATION_START. -/
def startOp (s : State) (core : Nat) (e : EngEntry) : Option (State × Stage) :=
  match e.op with
  | .cpy .. | .cpyB .. | .cpym .. | .cpypl .. | .cpysp .. | .cpyfill .. => startCopy s core e
  | .gath .. => startRows s core e false (wide e.op)
  | .scat .. => startRows s core e true (wide e.op)
  | .bankop _ _ _ op _ => startBankop s core op e
  | .lfence .. => startLfence s core e
  | .fence .. => some (startFence s e)
  | .nflush .. => startNflush s core e
  | .rfence .. => some (startRfence s core e)
  | .slotrel _ ctr _ => some (startSlotrel s core ctr.val e)
  | .bar v r _ _ b _ => some (startBar s core v r b.val e)
  | .vpub .. => some (startVpub s core e)
  | .gstep h _ _ => startGstep s core h.val e
  | .grel h _ _ => startGrel s core h.val e
  | .gbind h _ _ rd _ => some (startGbind s core h.val rd e)
  | .send .. => startSend s core e
  | .rpost .. => startRpost s core e
  | .rcancel d n _ => some (startRcancel s core d.val n.val e)
  | .rprobe d _ _ _ => some (startRprobe s core d.val e)
  | .ringpop d n w _ => startRingpop s core d.val n.val w e
  | .launch d _ w _ => some (startLaunch s core d.val w e)
  | .chunk d _ => some (startChunk s core d.val e)
  | .sealCap .. => some (startSeal s core e)
  | .wake .. => some (startWake s core e)
  | .slotld .. => some (startSlotld s core e)
  | .grpset .. => some (startGrpset s e)
  | .tlbinv .. => startTlbinv s core e
  | op => (seqSlotOp op).map fun x => startSeq s x.1 core e
where
  /-- Whether the indices of `gath` and `scat` have 64 bits (R193). -/
  wide : Instr → Bool
    | .gath _ _ _ _ i64 _ | .scat _ _ _ _ i64 _ => i64
    | _ => false

/-- ENGINE_OPERATION_START: a queued operation starts once its consumed tokens have left pending, the accesses that its start
waits for have ended, and its engine accepts it (R224, R306). -/
def execEngineOperationStart (core queue idx : Nat) (s : State) : Res :=
  let k := s.core core
  match if queue = 1 then none else (k.queue queue)[idx]? with
  | none => .next s
  | some e =>
    if !k.engines || !e.ready || e.waits.any k.pending then .next s
    else
      let started : Option (State × Stage) := match e.cancelled with
        | some o => some (s.cancelGbind core e o.cause, .finished o false)
        | none => startOp s core e
      match started with
      | none => .next s
      | some (s1, st) =>
        -- the entry leaves the queue that holds it now
        let ix := ((s1.core core).queue queue).findIdx fun x => x.serial == e.serial
        .next (((s1.dequeue core queue ix).addStarted core (((s1.core core).queue queue).getD ix e) st).modCore core fun k => { k with idle := 0 })

/-- ENGINE_OPERATION_COMPLETE: a finished operation whose record, if asked for, has been written leaves its token (R304, R307).
A `launch.w` that waits for a pool entry takes one once there is room (R240). -/
def execEngineOperationComplete (core idx : Nat) (s : State) : Res :=
  match (s.core core).started[idx]? with
  | none => .next s
  | some x =>
    match x.stage with
    | .finished o r => if x.e.cr && !r then .next s else .next (s.complete core x o)
    | .pooling .. => .next (s.retryLaunch core x)
    | .waiting | .copying .. | .layer .. | .pulled .. => .next s

/-- COPY_CHUNK: a chunk of a started copy (R198), or a unit of an operation in the memory-layer engines (R193, R194), which goes
on while its core is suspended (R323). -/
def execCopyChunk (core idx chunk : Nat) (data : List Byte) (s : State) : Res :=
  match (s.core core).started[idx]? with
  | none => .next s
  | some x =>
    match x.stage with
    | .layer col ids n time => .next (s.layerUnit core x col ids n time data)
    | _ => copyChunk core idx chunk data s

end Sys2Proof.Machine
end

