-- ==== Sys2Proof/Machine/Elementary.lean ====
section
/-!
DEFINITION. The F-slot functions (R133): the exact value is enclosed in an interval of fixed-point numbers
with 384 fraction bits, narrow enough that both ends round to one fp32 code (log 10). Inputs whose result is
rational are computed exactly.
-/
namespace Sys2Proof.Machine

/-- Fraction bits of the fixed-point numbers. -/
def fxBits : Nat := 384
/-- One in fixed point. -/
def fxOne : Nat := 2 ^ fxBits
/-- A bound of the error of every fixed-point result below, in units of the last fraction bit. -/
def fxError : Nat := 2 ^ 40

/-- Product of two fixed-point numbers, rounded down. -/
def fxMul (x y : Nat) : Nat := x * y / fxOne

/-- `n` terms of Σ p x^(2i) ÷ (k + 2i). -/
def fxAtanhSum : Nat → Nat → Nat → Nat → Nat
  | 0, _, _, _ => 0
  | n + 1, p, x2, k => p / k + fxAtanhSum n (fxMul p x2) x2 (k + 2)

/-- atanh x for x at most 1 ÷ 3. -/
def fxAtanh (x : Nat) : Nat := fxAtanhSum 125 x (fxMul x x) 1

/-- ln 2 = 2 atanh (1 ÷ 3). -/
def fxLn2 : Nat := 2 * fxAtanh (fxOne / 3)

/-- `n` terms of Σ p x^i (k−1)! ÷ (k−1+i)!. -/
def fxExpSum : Nat → Nat → Nat → Nat → Nat
  | 0, _, _, _ => 0
  | n + 1, p, x, k => p + fxExpSum n (fxMul p x / k) x (k + 1)

/-- e^x for 0 ≤ x < 1. -/
def fxExp (x : Nat) : Nat := fxExpSum 90 fxOne x 1

/-- e^−t for t ≥ 0. -/
def fxExpNeg (t : Nat) : Nat := fxOne * fxOne / fxExp (t % fxLn2) / 2 ^ (t / fxLn2)

/-- `n` terms of the alternating series p − p x² ÷ ((k+1)(k+2)) + …, the terms falling. -/
def fxAlternating : Nat → Nat → Nat → Nat → Nat
  | 0, _, _, _ => 0
  | n + 1, p, x2, k => p - fxAlternating n (fxMul p x2 / ((k + 1) * (k + 2))) x2 (k + 2)

/-- sin r for 0 ≤ r < 1. -/
def fxSin (r : Nat) : Nat := fxAlternating 50 r (fxMul r r) 1
/-- cos r for 0 ≤ r < 1. -/
def fxCos (r : Nat) : Nat := fxAlternating 50 fxOne (fxMul r r) 0

/-- Extra fraction bits of π, so that the reduction of arguments up to 2^128 keeps its precision. -/
def piExtra : Nat := 160

/-- `n` terms of Σ (−1)^i p ÷ (d^(2i) (k + 2i)): atan (1 ÷ d) for p = 1 ÷ d. -/
def fxAtanInv : Nat → Nat → Nat → Nat → Nat
  | 0, _, _, _ => 0
  | n + 1, p, d2, k => p / k - fxAtanInv n (p / d2) d2 (k + 2)

/-- π ÷ 2 = 8 atan (1 ÷ 5) − 2 atan (1 ÷ 239), with `piExtra` more fraction bits. -/
def fxHalfPi : Nat :=
  let one := fxOne * 2 ^ piExtra
  8 * fxAtanInv 125 (one / 5) 25 1 - 2 * fxAtanInv 125 (one / 239) 57121 1

/-- Floor of the square root, bit by bit from bit `n − 1`. -/
def isqrtGo : Nat → Nat → Nat → Nat
  | 0, _, r => r
  | n + 1, x, r => if (r + 2 ^ n) * (r + 2 ^ n) ≤ x then isqrtGo n x (r + 2 ^ n) else isqrtGo n x r

/-- Floor of the square root of x. -/
def isqrt (x : Nat) : Nat := isqrtGo (Nat.log2 x / 2 + 1) x 0

/-- m × 2^e, or a value just above it when something was lost: one bit more, set. -/
def sticky (neg : Bool) (m : Nat) (e : Int) (lost : Bool) : FVal :=
  if lost then .fin neg (2 * m + 1) (e - 1) else .fin neg m e

/-- Round to fp32 with RNE (R133). -/
def roundF (x : FVal) : Nat × FlagSet := roundTo fp32 .rne x

/-- The fp32 code of an irrational value within `fxError` of y × 2^e, and the flags of its rounding: the two ends of
the interval round alike; were they not to, either code is possible (log 10). -/
def enclose (neg : Bool) (y : Nat) (e : Int) : Nat × FlagSet :=
  let a := (roundF (.fin neg (y - fxError) e)).1
  let b := (roundF (.fin neg (y + fxError) e)).1
  let code := if a = b ∨ Config.freeBit y 0 then a else b
  let mag := code % 2 ^ 31
  (code, flNX ||| flagIf (decide (mag = 0x7F800000)) flOF ||| flagIf (decide (mag < 2 ^ 23)) flUF)

/-- |x| in fixed point; every fp32 value of magnitude below 2^128 is exact. -/
def fxOf (m : Nat) (e : Int) : Nat := m * 2 ^ (e + (fxBits : Int)).toNat

/-- A value of magnitude at least 2^n. -/
def atLeast (n : Int) (m : Nat) (e : Int) : Bool := decide (n ≤ e + (Nat.log2 m : Int)) && m ≠ 0

/-- NaN by a domain error (R133). -/
def domainError : Nat × FlagSet := (fp32.nan.1, flNV)

/-- `fexp2` (R133). -/
def exp2F : FVal → Nat × FlagSet
  | .nan => fp32.nan
  | .inf s => if s then (0, 0) else fp32.inf false
  | .fin s m e =>
    let x := fxOf m e
    let i : Int := if s then -(x / fxOne : Nat) else (x / fxOne : Nat)
    let frac := x % fxOne
    if atLeast 8 m e then roundF (.fin false 1 (if s then -300 else 300))
    else if frac = 0 then roundF (.fin false 1 i)
    else if s then enclose false (fxExp (fxMul (fxOne - frac) fxLn2)) (i - 1 - fxBits)
    else enclose false (fxExp (fxMul frac fxLn2)) (i - fxBits)

/-- `flog2` (R133). -/
def log2F : FVal → Nat × FlagSet
  | .nan => fp32.nan
  | .inf s => if s then domainError else fp32.inf false
  | .fin s m e =>
    if m = 0 then fp32.inf true
    else if s then domainError
    else
      let b := Nat.log2 m
      let n : Int := e + b
      if m = 2 ^ b then roundF (FVal.ofInt n)
      else
        let z := (m - 2 ^ b) * fxOne / (m + 2 ^ b)
        let y : Int := n * fxOne + (2 * fxAtanh z * fxOne / fxLn2 : Nat)
        enclose (decide (y < 0)) y.natAbs (-(fxBits : Int))

/-- `frcp` (R133). -/
def rcpF : FVal → Nat × FlagSet
  | .nan => fp32.nan
  | .inf s => fp32.signed s 0 0
  | .fin s m e =>
    if m = 0 then fp32.inf s
    else
      let k := Nat.log2 m + 64
      roundF (sticky s (2 ^ k / m) (-(k : Int) - e) (2 ^ k % m ≠ 0))

/-- m × 2^e with an even exponent. -/
def evenExp (m : Nat) (e : Int) : Nat × Int := if e % 2 = 0 then (m, e) else (2 * m, e - 1)

/-- `fsqrt` (R133). -/
def sqrtF : FVal → Nat × FlagSet
  | .nan => fp32.nan
  | .inf s => if s then domainError else fp32.inf false
  | .fin s m e =>
    if m = 0 then fp32.signed s 0 0
    else if s then domainError
    else
      let (n, g) := evenExp m e
      let a := n * 2 ^ 128
      let r := isqrt a
      roundF (sticky false r (g / 2 - 64) (r * r ≠ a))

/-- `frsqrt` (R133). -/
def rsqrtF : FVal → Nat × FlagSet
  | .nan => fp32.nan
  | .inf s => if s then domainError else (0, 0)
  | .fin s m e =>
    if m = 0 then fp32.inf s
    else if s then domainError
    else
      let (n, g) := evenExp m e
      let r := isqrt (2 ^ 256 / n)
      roundF (sticky false r (-(g / 2) - 128) (r * r * n ≠ 2 ^ 256))

/-- `ftanh` (R133). -/
def tanhF : FVal → Nat × FlagSet
  | .nan => fp32.nan
  | .inf s => roundF (.fin s 1 0)
  | .fin s m e =>
    if m = 0 then fp32.signed s 0 0
    else if atLeast 4 m e then roundF (.fin s (2 ^ 60 - 1) (-60))
    else
      let q := fxExpNeg (2 * fxOf m e)
      enclose s ((fxOne - q) * fxOne / (fxOne + q)) (-(fxBits : Int))

/-- `fsigm` (R133). -/
def sigmF : FVal → Nat × FlagSet
  | .nan => fp32.nan
  | .inf s => if s then (0, 0) else roundF (.fin false 1 0)
  | .fin s m e =>
    if m = 0 then roundF (.fin false 1 (-1))
    else if atLeast 7 m e then roundF (if s then .fin false 1 (-300) else .fin false (2 ^ 60 - 1) (-60))
    else
      let q := fxExpNeg (fxOf m e)
      enclose false ((if s then q else fxOne) * fxOne / (fxOne + q)) (-(fxBits : Int))

/-- sin (`isCos` false) or cos of ±m × 2^e: reduced by π ÷ 2 to |r| ≤ π ÷ 4. -/
def trigF (isCos : Bool) (s : Bool) (m : Nat) (e : Int) : Nat × FlagSet :=
  let x := fxOf m e * 2 ^ piExtra
  let k := (x + fxHalfPi / 2) / fxHalfPi
  let r : Int := (x : Int) - (k * fxHalfPi : Nat)
  let a := r.natAbs / 2 ^ piExtra
  let q := (k + if isCos then 1 else 0) % 4
  let useCos := q % 2 = 1
  let negR := decide (r < 0) && !useCos
  let sgn := (decide (2 ≤ q) != negR) != (s && !isCos)
  enclose sgn (if useCos then fxCos a else fxSin a) (-(fxBits : Int))

/-- `fsin` (R133). -/
def sinF : FVal → Nat × FlagSet
  | .nan => fp32.nan
  | .inf _ => domainError
  | .fin s m e => if m = 0 then fp32.signed s 0 0 else trigF false s m e

/-- `fcos` (R133). -/
def cosF : FVal → Nat × FlagSet
  | .nan => fp32.nan
  | .inf _ => domainError
  | .fin s m e => if m = 0 then roundF (.fin false 1 0) else trigF true s m e

end Sys2Proof.Machine
end

