-- ==== Sys2Proof/Machine/VectorFloat.lean ====
section
/-!
DEFINITION. Float operations, conversions, packed codes, lg6, reductions and scans (R125 to R132) and the F slot
(R114, R133, R134).
-/
namespace Sys2Proof.Machine

/-- The format of one value, and whether a lane holds two (R126). -/
def fkFmt : FloatKind → Fmt | .f32 => fp32 | .f16 => fp16 | .b16 => bf16

/-- Each half of a lane on its own, the flags ORed (R126). -/
def perHalf (k : FloatKind) (f : (Nat → Nat) → Nat × FlagSet) (pick : Nat → Nat → Nat) : W32 × FlagSet :=
  match k with
  | .f32 =>
    let r := f fun src => pick src 0
    (BitVec.ofNat 32 r.1, r.2)
  | .f16 | .b16 =>
    let lo := f fun src => pick src 0 % 2 ^ 16
    let hi := f fun src => pick src 16 % 2 ^ 16
    (BitVec.ofNat 32 (lo.1 + hi.1 * 2 ^ 16), lo.2 ||| hi.2)

/-- The part of a lane that starts at bit `lo`. -/
def lanePart (x : W32) (lo : Nat) : Nat := x.toNat / 2 ^ lo

/-- A float lane function of two values, rounded once (R126). -/
def float2 (g : FVal → FVal → FVal × Bool) (r : Rounding) (k : FloatKind) (x y : W32) : W32 × FlagSet :=
  perHalf k (fun v => roundNew (fkFmt k) r (g (decodeFloat (fkFmt k) (v 0)) (decodeFloat (fkFmt k) (v 1))))
    fun src lo => lanePart (if src = 0 then x else y) lo

/-- `vfadd` (R127). -/
def execVfadd (vd va vb : Reg) (r : Rounding) (f : FloatKind) (s : State) : Res :=
  lane2 (float2 (fun x y => sumVal [x, y]) r f) 4 vd va vb s
/-- `vfsub` (R127). -/
def execVfsub (vd va vb : Reg) (r : Rounding) (f : FloatKind) (s : State) : Res :=
  lane2 (float2 (fun x y => sumVal [x, y.negate]) r f) 4 vd va vb s
/-- `vfmul` (R127). -/
def execVfmul (vd va vb : Reg) (r : Rounding) (f : FloatKind) (s : State) : Res :=
  lane2 (float2 mulVal r f) 4 vd va vb s

/-- a × b + d with one rounding; 0 × ∞ sets NV even when d is NaN (R127). -/
def fmaVal (x y z : FVal) : FVal × Bool :=
  let p := mulVal x y
  let t := sumVal [p.1, z]
  (t.1, p.2 || t.2)

/-- A lane of `vfma`. -/
def fmaLane (r : Rounding) (k : FloatKind) (x y z : W32) : W32 × FlagSet :=
  perHalf k (fun v => roundNew (fkFmt k) r
      (fmaVal (decodeFloat (fkFmt k) (v 0)) (decodeFloat (fkFmt k) (v 1)) (decodeFloat (fkFmt k) (v 2))))
    fun src lo => lanePart (if src = 0 then x else if src = 1 then y else z) lo

/-- `vfma` (R127). -/
def execVfma (vd va vb : Reg) (r : Rounding) (f : FloatKind) (s : State) : Res := lane3 (fmaLane r f) 4 vd va vb s

/-- A lane of `vfmin` or `vfmax`. -/
def minMaxLane (isMax : Bool) (k : FloatKind) (x y : W32) : W32 × FlagSet :=
  perHalf k (fun v => (minMaxCode (fkFmt k) isMax (v 0) (v 1), 0)) fun src lo => lanePart (if src = 0 then x else y) lo

/-- `vfmin` (R128). -/
def execVfmin (vd va vb : Reg) (f : FloatKind) (s : State) : Res := lane2 (minMaxLane false f) 4 vd va vb s
/-- `vfmax` (R128). -/
def execVfmax (vd va vb : Reg) (f : FloatKind) (s : State) : Res := lane2 (minMaxLane true f) 4 vd va vb s

/-- A lane comparison; packed lanes take the AND of their halves (R127). -/
def fcmpLane (c : FCond) (k : FloatKind) (x y : W32) : Bool :=
  let one (lo n : Nat) : Bool :=
    fcondHolds c (decodeFloat (fkFmt k) (lanePart x lo % 2 ^ n)) (decodeFloat (fkFmt k) (lanePart y lo % 2 ^ n))
  match k with
  | .f32 => one 0 32
  | .f16 | .b16 => one 0 16 && one 16 16

/-- `vfcmp`, L = 4 (R118, R126, R127). -/
def execVfcmp (cd : FCond) (kd : KReg) (va vb : Reg) (f : FloatKind) (s : State) : Res :=
  slotOp s [.v va.val, .v vb.val] fun c => withCleanV s c [va, vb] fun _ =>
    maskOut s c 4 kd fun cl i => fcmpLane cd f (s.vr c cl va.val i) (s.vr c cl vb.val i)

/-! ### Conversions (R129) -/

/-- The float format of a conversion code; `none` for the integers. -/
def cvtFmt : CvtFormat → Option Fmt
  | .i32 | .i8 => none
  | .f32 => some fp32 | .f16 => some fp16 | .bf16 => some bf16 | .e4 => some fp8e4 | .e5 => some fp8e5

/-- The width of an integer conversion code. -/
def cvtWidth : CvtFormat → Nat | .i8 => 8 | _ => 32

/-- A conversion of a lane (R129, R81 to R84). The two-step conversions of R83 give what one Round gives (R84). -/
def cvtLane (src dst : CvtFormat) (r : Rounding) (x : W32) : W32 × FlagSet :=
  let (code, fl) := match cvtFmt src, cvtFmt dst with
    | some f, some g => roundTo g r (decodeFloat f (x.toNat % 2 ^ f.width))
    | some f, none => floatToInt true (cvtWidth dst) r (decodeFloat f (x.toNat % 2 ^ f.width))
    | none, some g => roundTo g r (FVal.ofInt (signed (cvtWidth src) x.toNat))
    | none, none => clampCode true (cvtWidth dst) (signed (cvtWidth src) x.toNat)
  (BitVec.ofNat 32 code, fl)

/-- `vcvt` (R129). -/
def execVcvt (vd va : Reg) (src dst : CvtFormat) (r : Rounding) (s : State) : Res := lane1 (cvtLane src dst r) 4 vd va s

/-- The nf register that the operation reads at dispatch (R115). -/
def State.nf (s : State) (c : Cursor) (n : Fin 4) : Nat := (s.csrv c (0x020 + n.val)).toNat

/-- Codes per lane of a code width (R78). -/
def codesPerLane (w : Nat) : Nat := 32 / w

/-- The checks of R131 on a descriptor and a code index; `f` gets the code width. -/
def withNf (s : State) (c : Cursor) (d i : Nat) (f : Nat → Res) : Res :=
  match nfWidth d with
  | some w => if nfValid d ∧ i < codesPerLane w then f w else takeTrap s c .illegalSlotOp (slotTval c 5)
  | none => takeTrap s c .illegalSlotOp (slotTval c 5)

/-- A value converted into a descriptor's format (R130), by one rounding of the exact value (R84) even where R83's two steps through bf16
would give another code: DEDUCED (log 29). -/
def packCode (d w : Nat) (int : Bool) (x : W32) : Nat × FlagSet :=
  let sgn := bits d 9 1 == 1
  if bits d 2 3 = 0 then
    if int then clampCode sgn w x.toInt else floatToInt sgn w (nfMode d) (decodeFloat fp32 x.toNat)
  else roundTo (nfFmt d) (nfMode d) (if int then FVal.ofInt x.toInt else decodeFloat fp32 x.toNat)

/-- Code i of a lane replaced; with 6-bit codes bits [31:30] are written as zero (R78, R130). -/
def insertCode (w i : Nat) (old : W32) (code : Nat) : W32 :=
  let o := if w = 6 then old.toNat % 2 ^ 30 else old.toNat
  BitVec.ofNat 32 (o - bits o (w * i) w * 2 ^ (w * i) + code * 2 ^ (w * i))

/-- `vpack` (R130, R131). -/
def execVpack (vd va : Reg) (i : Fin 16) (nf : Fin 4) (int : Bool) (s : State) : Res :=
  slotOp s [.v vd.val, .v va.val] fun c =>
    let d := s.nf c nf
    withNf s c d i.val fun w =>
      vframe s c 4 vd.val (fun cl => s.vf c cl va.val || s.vf c cl vd.val) fun cl l =>
        let (code, fl) := packCode d w int (s.vr c cl va.val l)
        (insertCode w i.val (s.vr c cl vd.val l) code, fl)

/-- The value of a packed code as a whole lane (R77, R131). -/
def unpackCode (d w code : Nat) : W32 × FlagSet :=
  if bits d 2 3 = 0 then (BitVec.ofInt 32 (if bits d 9 1 = 1 then signed w code else code), 0)
  else
    let (x, fl) := roundTo fp32 .rne (decodeFloat (nfFmt d) code)
    (BitVec.ofNat 32 x, fl)

/-- `vunpack` (R131). -/
def execVunpack (vd va : Reg) (i : Fin 16) (nf : Fin 4) (s : State) : Res :=
  slotOp s [.v vd.val, .v va.val] fun c =>
    let d := s.nf c nf
    withNf s c d i.val fun w =>
      vframe s c 4 vd.val (fun cl => s.vf c cl va.val) fun cl l =>
        unpackCode d w (bits (s.vr c cl va.val l).toNat (w * i.val) w)

/-! ### lg6 (R132) -/

/-- Code p of five 6-bit codes. -/
def code6 (x : W32) (p : Nat) : Nat := bits x.toNat (6 * p) 6

/-- `vlgmul` (R132). -/
def lgmulLane (x y : W32) : W32 × FlagSet :=
  (List.range 5).foldl (fun acc p =>
    let (code, fl) := toLg6 (lg6Mul (code6 x p) (code6 y p))
    (acc.1 + BitVec.ofNat 32 (code * 2 ^ (6 * p)), acc.2 ||| fl)) (0, 0)

/-- `vlgmul` (R132). -/
def execVlgmul (vd va vb : Reg) (s : State) : Res := lane2 lgmulLane 2 vd va vb s

/-- `vlgsum` (R132). -/
def lgsumLane (x y z : W32) : W32 × FlagSet :=
  let ps := (List.range 5).map fun p => lg6Mul (code6 x p) (code6 y p)
  let (code, fl) := roundNew fp32 .rne (sumVal (decodeFloat fp32 z.toNat :: ps))
  (BitVec.ofNat 32 code, fl)

/-- `vlgsum` (R132). -/
def execVlgsum (vd va vb : Reg) (s : State) : Res := lane3 lgsumLane 4 vd va vb s

/-! ### Reductions and scans (R125) -/

/-- The combination of lanes, the identity when there is none (R125). A NaN that remains is canonical (R65). -/
def combine (f : RedOp) (xs : List W32) : W32 × FlagSet :=
  match f with
  | .add => plain (xs.foldl (fun a x => a + x) 0)
  | .min => plain (xs.foldl (minLane false) 0x7FFFFFFF)
  | .max => plain (xs.foldl (maxLane false) 0x80000000)
  | .fadd =>
    let (code, fl) := roundNew fp32 .rne (sumVal (xs.map fun x => decodeFloat fp32 x.toNat))
    (BitVec.ofNat 32 code, fl)
  | .fmin => plain (BitVec.ofNat 32 (fold false 0x7F800000))
  | .fmax => plain (BitVec.ofNat 32 (fold true 0xFF800000))
where
  /-- `vfmin` or `vfmax` over the lanes (R128). -/
  fold (isMax : Bool) (unit : Nat) : Nat :=
    match xs with
    | [] => unit
    | x :: ys => ys.foldl (fun a y => minMaxCode fp32 isMax a y.toNat) (minMaxCode fp32 isMax x.toNat x.toNat)

/-- The latency of a reduction (R125). -/
def redLat : RedOp → Nat | .add | .min | .max => 2 | .fadd | .fmin | .fmax => 4

/-- A reduction's value as a scalar: integers sign-extended, fp32 codes zero-extended (R125). -/
def redWiden (f : RedOp) (x : W32) : W64 :=
  match f with
  | .add | .min | .max => x.signExtend 64
  | .fadd | .fmin | .fmax => x.setWidth 64

/-- `vred` (R113, R117, R125). -/
def execVred (sd va : Reg) (f : RedOp) (s : State) : Res :=
  slotOp s [.s sd.val, .v va.val] fun c =>
    let cls := s.enabled c
    let xs := cls.flatMap fun cl => (s.active c cl).map fun i => s.vr c cl va.val i
    let (x, fl) := combine f xs
    .next ((s.put c (redLat f) (.scalar sd.val (redWiden f x) (cls.any fun cl => s.vf c cl va.val))).flag c (redLat f)
      (BitVec.ofNat 64 fl))

/-- `vscan` (R125). -/
def execVscan (vd va : Reg) (f : RedOp) (s : State) : Res :=
  slotOp s [.v vd.val, .v va.val] fun c =>
    vframe s c (redLat f) vd.val (fun cl => s.vf c cl va.val) fun cl i =>
      combine f (((s.active c cl).filter fun j => j ≤ i).map fun j => s.vr c cl va.val j)

/-! ### The F slot (R114, R133, R134) -/

/-- An F-slot function on fp32 lanes, L = 8 (R133). -/
def lane1F (f : FVal → Nat × FlagSet) (vd va : Reg) (s : State) : Res :=
  lane1 (fun x =>
    let (code, fl) := f (decodeFloat fp32 x.toNat)
    (BitVec.ofNat 32 code, fl)) 8 vd va s

/-- `fexp2` (R133). -/
def execFexp2 (vd va : Reg) (s : State) : Res := lane1F exp2F vd va s
/-- `flog2` (R133). -/
def execFlog2 (vd va : Reg) (s : State) : Res := lane1F log2F vd va s
/-- `frcp` (R133). -/
def execFrcp (vd va : Reg) (s : State) : Res := lane1F rcpF vd va s
/-- `frsqrt` (R133). -/
def execFrsqrt (vd va : Reg) (s : State) : Res := lane1F rsqrtF vd va s
/-- `fsqrt` (R133). -/
def execFsqrt (vd va : Reg) (s : State) : Res := lane1F sqrtF vd va s
/-- `ftanh` (R133). -/
def execFtanh (vd va : Reg) (s : State) : Res := lane1F tanhF vd va s
/-- `fsigm` (R133). -/
def execFsigm (vd va : Reg) (s : State) : Res := lane1F sigmF vd va s
/-- `fsin` (R133). -/
def execFsin (vd va : Reg) (s : State) : Res := lane1F sinF vd va s
/-- `fcos` (R133). -/
def execFcos (vd va : Reg) (s : State) : Res := lane1F cosF vd va s

/-- `flut` (R118, R134). -/
def execFlut (vd va vb : Reg) (s : State) : Res :=
  let table := (List.range 16).map fun j => vb.val + j
  slotOp s ([.v vd.val, .v va.val] ++ table.map .v) fun c => withCleanV s c [va] fun _ =>
    vframe s c 8 vd.val (fun cl => s.vf c cl va.val || table.any fun r => s.vf c cl r) fun cl i =>
      let ix := (s.vr c cl va.val i).toNat % 256
      plain (s.vr c cl (vb.val + ix / 16) (ix % 16))

/-- `fcm`, L = 8 (R114). -/
def execFcm (m : BitVec 8) (s : State) : Res :=
  slotOp s [] fun c => .next (s.put c 8 (.csr 0x02B (m.setWidth 64)))

end Sys2Proof.Machine
end

