-- ==== Sys2Proof/Machine/Dispatch.lean ====
section
/-!
DEFINITION. Which meaning belongs to which instruction.
-/
namespace Sys2Proof.Machine

/-- The meaning of an instruction in a state. -/
def exec (i : Instr) (s : State) : Host.Outcome State Fault Refusal :=
  match i with
  | .add d a b => Sys2Proof.Machine.execAdd d a b s
  | .sub d a b => Sys2Proof.Machine.execSub d a b s
  | .addi d a imm => Sys2Proof.Machine.execAddi d a imm s
  | .mul d a b => Sys2Proof.Machine.execMul d a b s
  | .mulh d a b k => Sys2Proof.Machine.execMulh d a b k s
  | .div d a b u => Sys2Proof.Machine.execDiv d a b u s
  | .rem d a b u => Sys2Proof.Machine.execRem d a b u s
  | .and d a b => Sys2Proof.Machine.execAnd d a b s
  | .or d a b => Sys2Proof.Machine.execOr d a b s
  | .xor d a b => Sys2Proof.Machine.execXor d a b s
  | .andi d a imm => Sys2Proof.Machine.execAndi d a imm s
  | .ori d a imm => Sys2Proof.Machine.execOri d a imm s
  | .xori d a imm => Sys2Proof.Machine.execXori d a imm s
  | .sll d a b => Sys2Proof.Machine.execSll d a b s
  | .srl d a b => Sys2Proof.Machine.execSrl d a b s
  | .sra d a b => Sys2Proof.Machine.execSra d a b s
  | .shi d a k n => Sys2Proof.Machine.execShi d a k n s
  | .min d a b u => Sys2Proof.Machine.execMin d a b u s
  | .max d a b u => Sys2Proof.Machine.execMax d a b u s
  | .clz d a => Sys2Proof.Machine.execClz d a s
  | .popc d a => Sys2Proof.Machine.execPopc d a s
  | .cmp d a b c => Sys2Proof.Machine.execCmp d a b c s
  | .cmpi d a c imm => Sys2Proof.Machine.execCmpi d a c imm s
  | .cmpiExt d a c imm => Sys2Proof.Machine.execCmpiExt d a c imm s
  | .sel d a b c => Sys2Proof.Machine.execSel d a b c s
  | .li d imm => Sys2Proof.Machine.execLi d imm s
  | .liExt d imm => Sys2Proof.Machine.execLiExt d imm s
  | .bfx d a pos len1 sa => Sys2Proof.Machine.execBfx d a pos len1 sa s
  | .bfi d a pos len1 => Sys2Proof.Machine.execBfi d a pos len1 s
  | .stag d a tag => Sys2Proof.Machine.execStag d a tag s
  | .br a b c off => Sys2Proof.Machine.execBr a b c off s
  | .bri a imm c off => Sys2Proof.Machine.execBri a imm c off s
  | .j off => Sys2Proof.Machine.execJ off s
  | .jal d off => Sys2Proof.Machine.execJal d off s
  | .jr a => Sys2Proof.Machine.execJr a s
  | .btok t set off => Sys2Proof.Machine.execBtok t set off s
  | .bempty set off => Sys2Proof.Machine.execBempty set off s
  | .chk a off => Sys2Proof.Machine.execChk a off s
  | .loop lv c n1 => Sys2Proof.Machine.execLoop lv c n1 s
  | .lstr lv j x stride => Sys2Proof.Machine.execLstr lv j x stride s
  | .lbrk lv a u => Sys2Proof.Machine.execLbrk lv a u s
  | .wait ld st n => Sys2Proof.Machine.execWait ld st n s
  | .csrr d csr => Sys2Proof.Machine.execCsrr d csr s
  | .csrw d a csr => Sys2Proof.Machine.execCsrw d a csr s
  | .csrs d a csr => Sys2Proof.Machine.execCsrs d a csr s
  | .csrc d a csr => Sys2Proof.Machine.execCsrc d a csr s
  | .trap n => Sys2Proof.Machine.execTrap n s
  | .fset r c f => Sys2Proof.Machine.execFset r c f s
  | .fwait c f => Sys2Proof.Machine.execFwait c f s
  | .fclr f => Sys2Proof.Machine.execFclr f s
  | .vadd vd va vb k => Sys2Proof.Machine.execVadd vd va vb k s
  | .vsub vd va vb k => Sys2Proof.Machine.execVsub vd va vb k s
  | .vmul vd va vb k => Sys2Proof.Machine.execVmul vd va vb k s
  | .vmulh vd va vb k => Sys2Proof.Machine.execVmulh vd va vb k s
  | .vmin vd va vb u => Sys2Proof.Machine.execVmin vd va vb u s
  | .vmax vd va vb u => Sys2Proof.Machine.execVmax vd va vb u s
  | .vabs vd va sa => Sys2Proof.Machine.execVabs vd va sa s
  | .vand vd va vb => Sys2Proof.Machine.execVand vd va vb s
  | .vor vd va vb => Sys2Proof.Machine.execVor vd va vb s
  | .vxor vd va vb => Sys2Proof.Machine.execVxor vd va vb s
  | .vnot vd va => Sys2Proof.Machine.execVnot vd va s
  | .vshl vd va vb => Sys2Proof.Machine.execVshl vd va vb s
  | .vshr vd va vb => Sys2Proof.Machine.execVshr vd va vb s
  | .vsra vd va vb => Sys2Proof.Machine.execVsra vd va vb s
  | .vcmp c kd va vb => Sys2Proof.Machine.execVcmp c kd va vb s
  | .vsel vd va vb k => Sys2Proof.Machine.execVsel vd va vb k s
  | .vfadd vd va vb r f => Sys2Proof.Machine.execVfadd vd va vb r f s
  | .vfsub vd va vb r f => Sys2Proof.Machine.execVfsub vd va vb r f s
  | .vfmul vd va vb r f => Sys2Proof.Machine.execVfmul vd va vb r f s
  | .vfma vd va vb r f => Sys2Proof.Machine.execVfma vd va vb r f s
  | .vfmin vd va vb f => Sys2Proof.Machine.execVfmin vd va vb f s
  | .vfmax vd va vb f => Sys2Proof.Machine.execVfmax vd va vb f s
  | .vfcmp c kd va vb f => Sys2Proof.Machine.execVfcmp c kd va vb f s
  | .vcvt vd va src dst r => Sys2Proof.Machine.execVcvt vd va src dst r s
  | .vpack vd va ix nf int => Sys2Proof.Machine.execVpack vd va ix nf int s
  | .vunpack vd va ix nf => Sys2Proof.Machine.execVunpack vd va ix nf s
  | .vred sd va f => Sys2Proof.Machine.execVred sd va f s
  | .vscan vd va f => Sys2Proof.Machine.execVscan vd va f s
  | .vperm vd va vb => Sys2Proof.Machine.execVperm vd va vb s
  | .vxc vd va n k => Sys2Proof.Machine.execVxc vd va n k s
  | .vbcast vd sa hi => Sys2Proof.Machine.execVbcast vd sa hi s
  | .vext sd va lane sa => Sys2Proof.Machine.execVext sd va lane sa s
  | .viota vd g => Sys2Proof.Machine.execViota vd g s
  | .vli vd imm => Sys2Proof.Machine.execVli vd imm s
  | .vliExt vd imm => Sys2Proof.Machine.execVliExt vd imm s
  | .mpush k => Sys2Proof.Machine.execMpush k s
  | .kmov kd ka kb f => Sys2Proof.Machine.execKmov kd ka kb f s
  | .vcm j m => Sys2Proof.Machine.execVcm j m s
  | .vlgmul vd va vb => Sys2Proof.Machine.execVlgmul vd va vb s
  | .vlgsum vd va vb => Sys2Proof.Machine.execVlgsum vd va vb s
  | .vdot4 vd va vb sat k => Sys2Proof.Machine.execVdot4 vd va vb sat k s
  | .vmov vd va => Sys2Proof.Machine.execVmov vd va s
  | .fexp2 vd va => Sys2Proof.Machine.execFexp2 vd va s
  | .flog2 vd va => Sys2Proof.Machine.execFlog2 vd va s
  | .frcp vd va => Sys2Proof.Machine.execFrcp vd va s
  | .frsqrt vd va => Sys2Proof.Machine.execFrsqrt vd va s
  | .fsqrt vd va => Sys2Proof.Machine.execFsqrt vd va s
  | .ftanh vd va => Sys2Proof.Machine.execFtanh vd va s
  | .fsigm vd va => Sys2Proof.Machine.execFsigm vd va s
  | .fsin vd va => Sys2Proof.Machine.execFsin vd va s
  | .fcos vd va => Sys2Proof.Machine.execFcos vd va s
  | .flut vd va vb => Sys2Proof.Machine.execFlut vd va vb s
  | .fcm m => Sys2Proof.Machine.execFcm m s
  | .ld d a sz => Sys2Proof.Machine.execLd d a sz s
  | .ldExt d a sz off => Sys2Proof.Machine.execLdExt d a sz off s
  | .st d a sz => Sys2Proof.Machine.execSt d a sz s
  | .stExt d a sz off => Sys2Proof.Machine.execStExt d a sz off s
  | .vld vd a => Sys2Proof.Machine.execVld vd a s
  | .vldExt vd a off stride => Sys2Proof.Machine.execVldExt vd a off stride s
  | .vst vd a => Sys2Proof.Machine.execVst vd a s
  | .vstExt vd a off stride => Sys2Proof.Machine.execVstExt vd a off stride s
  | .vldx vd a vb k => Sys2Proof.Machine.execVldx vd a vb k s
  | .vldxExt vd a vb k off => Sys2Proof.Machine.execVldxExt vd a vb k off s
  | .vstx vd a vb k => Sys2Proof.Machine.execVstx vd a vb k s
  | .vstxExt vd a vb k off => Sys2Proof.Machine.execVstxExt vd a vb k off s
  | .lds d a sz => Sys2Proof.Machine.execLds d a sz s
  | .ldsExt d a sz off => Sys2Proof.Machine.execLdsExt d a sz off s
  | .vlds vd a => Sys2Proof.Machine.execVlds vd a s
  | .vldsExt vd a off stride => Sys2Proof.Machine.execVldsExt vd a off stride s
  | .ldAcq d a sz scope => Sys2Proof.Machine.execLdAcq d a sz scope s
  | .ldAcqExt d a sz scope off => Sys2Proof.Machine.execLdAcqExt d a sz scope off s
  | .stRel d a sz scope => Sys2Proof.Machine.execStRel d a sz scope s
  | .stRelExt d a sz scope off => Sys2Proof.Machine.execStRelExt d a sz scope off s
  | .amo d a b f dbl => Sys2Proof.Machine.execAmo d a b f dbl s
  | .cas d a b c dbl => Sys2Proof.Machine.execCas d a b c dbl s
  | .vamo vd a vb f => Sys2Proof.Machine.execVamo vd a vb f s
  | .ldg d x sa h sx => Sys2Proof.Machine.execLdg d x sa h sx s
  | .vldg vd x sa h => Sys2Proof.Machine.execVldg vd x sa h s
  | .vldv vd a v => Sys2Proof.Machine.execVldv vd a v s
  | .vldvExt vd a v off => Sys2Proof.Machine.execVldvExt vd a v off s
  | .pref a xlat => Sys2Proof.Machine.execPref a xlat s
  | .prefExt a xlat off => Sys2Proof.Machine.execPrefExt a xlat off s
  | .mcm j m => Sys2Proof.Machine.execMcm j m s
  | .mma a b acc shape sp ta tb tacc tres planes res md tw => Sys2Proof.Machine.execMma a b acc shape sp ta tb tacc tres planes res md tw s
  | .mmz d tw => Sys2Proof.Machine.execMmz d tw s
  | .mps delay sides => Sys2Proof.Machine.execMps delay sides s
  | .mscl j a n => Sys2Proof.Machine.execMscl j a n s
  | .mcvt d a src dst tw => Sys2Proof.Machine.execMcvt d a src dst tw s
  | .mtr d a shape size tw => Sys2Proof.Machine.execMtr d a shape size tw s
  | .macc d a ty tw => Sys2Proof.Machine.execMacc d a ty tw s
  | .cpy d sa c tw => Sys2Proof.Machine.execCpy d sa c tw s
  | .cpyB d sa c tw => Sys2Proof.Machine.execCpyB d sa c tw s
  | .cpym d sa c n m bar tw => Sys2Proof.Machine.execCpym d sa c n m bar tw s
  | .cpypl d sa c q d2 tw => Sys2Proof.Machine.execCpypl d sa c q d2 tw s
  | .cpysp d sa c tw => Sys2Proof.Machine.execCpysp d sa c tw s
  | .cpyfill d p c sz tw => Sys2Proof.Machine.execCpyfill d p c sz tw s
  | .gath p r ix n i64 tw => Sys2Proof.Machine.execGath p r ix n i64 tw s
  | .scat p r ix n i64 tw => Sys2Proof.Machine.execScat p r ix n i64 tw s
  | .bankop d a n op tw => Sys2Proof.Machine.execBankop d a n op tw s
  | .lfence a n tw => Sys2Proof.Machine.execLfence a n tw s
  | .fence scope tw => Sys2Proof.Machine.execFence scope tw s
  | .nflush a tw => Sys2Proof.Machine.execNflush a tw s
  | .rfence a all tw => Sys2Proof.Machine.execRfence a all tw s
  | .slotrel n ctr tw => Sys2Proof.Machine.execSlotrel n ctr tw s
  | .bar v r c n b tw => Sys2Proof.Machine.execBar v r c n b tw s
  | .barw p b => Sys2Proof.Machine.execBarw p b s
  | .vpub a v tw => Sys2Proof.Machine.execVpub a v tw s
  | .vwait a v => Sys2Proof.Machine.execVwait a v s
  | .gstep h n tw => Sys2Proof.Machine.execGstep h n tw s
  | .grel h sa tw => Sys2Proof.Machine.execGrel h sa tw s
  | .gbind h a p rd tw => Sys2Proof.Machine.execGbind h a p rd tw s
  | .send e sa c b tw => Sys2Proof.Machine.execSend e sa c b tw s
  | .rpost m k r c v tw => Sys2Proof.Machine.execRpost m k r c v tw s
  | .rcancel d n tw => Sys2Proof.Machine.execRcancel d n tw s
  | .rprobe d m k tw => Sys2Proof.Machine.execRprobe d m k tw s
  | .ringpop d n w tw => Sys2Proof.Machine.execRingpop d n w tw s
  | .launch d a w tw => Sys2Proof.Machine.execLaunch d a w tw s
  | .chunk d tw => Sys2Proof.Machine.execChunk d tw s
  | .twait d t => Sys2Proof.Machine.execTwait d t s
  | .sqadm m d a tw => Sys2Proof.Machine.execSqadm m d a tw s
  | .sqtree m d a b tw => Sys2Proof.Machine.execSqtree m d a b tw s
  | .sqvrd m a b tw => Sys2Proof.Machine.execSqvrd m a b tw s
  | .sqacc m d a tw => Sys2Proof.Machine.execSqacc m d a tw s
  | .sqret m d a tw => Sys2Proof.Machine.execSqret m d a tw s
  | .sqpre m d a rel tw => Sys2Proof.Machine.execSqpre m d a rel tw s
  | .sqres m d a tw => Sys2Proof.Machine.execSqres m d a tw s
  | .sqbat m d a b tw => Sys2Proof.Machine.execSqbat m d a b tw s
  | .sqkvAddr m d a b tw => Sys2Proof.Machine.execSqkvAddr m d a b tw s
  | .sqkvAdv m d a b tw => Sys2Proof.Machine.execSqkvAdv m d a b tw s
  | .sealCap a b tw => Sys2Proof.Machine.execSealCap a b tw s
  | .wake a b tw => Sys2Proof.Machine.execWake a b tw s
  | .slotld a b tw => Sys2Proof.Machine.execSlotld a b tw s
  | .grpset a b tw => Sys2Proof.Machine.execGrpset a b tw s
  | .tlbinv a b c tw => Sys2Proof.Machine.execTlbinv a b c tw s
  | .loopIterationClose core => Sys2Proof.Machine.execLoopIterationClose core s
  | .globalLoadReturn core id ans => Sys2Proof.Machine.execGlobalLoadReturn core id ans s
  | .storeAcknowledgement core ack => Sys2Proof.Machine.execStoreAcknowledgement core ack s
  | .clusterRemoteAccess src dst => Sys2Proof.Machine.execClusterRemoteAccess src dst s
  | .fabricAccessArrival src acc => Sys2Proof.Machine.execFabricAccessArrival src acc s
  | .groupPacketReceive port group origin addr data => Sys2Proof.Machine.execGroupPacketReceive port group origin addr data s
  | .engineOperationStart core queue idx => Sys2Proof.Machine.execEngineOperationStart core queue idx s
  | .engineOperationComplete core idx => Sys2Proof.Machine.execEngineOperationComplete core idx s
  | .completionRecordWrite core idx => Sys2Proof.Machine.execCompletionRecordWrite core idx s
  | .matrixOperationStart core => Sys2Proof.Machine.execMatrixOperationStart core s
  | .accumulatorUpdate core => Sys2Proof.Machine.execAccumulatorUpdate core s
  | .mpsLeaveHead core => Sys2Proof.Machine.execMpsLeaveHead core s
  | .operandChunkArrival core operand chunk data => Sys2Proof.Machine.execOperandChunkArrival core operand chunk data s
  | .fetchFault core operand chunk cause => Sys2Proof.Machine.execFetchFault core operand chunk cause s
  | .copyChunk core idx chunk data => Sys2Proof.Machine.execCopyChunk core idx chunk data s
  | .lmodeWrite col mode => Sys2Proof.Machine.execLmodeWrite col mode s
  | .layerModeSwitchDone col => Sys2Proof.Machine.execLayerModeSwitchDone col s
  | .messageArrival col msg => Sys2Proof.Machine.execMessageArrival col msg s
  | .messagePresented col src dst => Sys2Proof.Machine.execMessagePresented col src dst s
  | .rendezvousDataArrival col idx data fault => Sys2Proof.Machine.execRendezvousDataArrival col idx data fault s
  | .landingComplete col idx => Sys2Proof.Machine.execLandingComplete col idx s
  | .sendAcknowledged core idx cause bytes => Sys2Proof.Machine.execSendAcknowledged core idx cause bytes s
  | .stripArrival desc polder region slot => Sys2Proof.Machine.execStripArrival desc polder region slot s
  | .stepStale core => Sys2Proof.Machine.execStepStale core s
  | .flagSetArrival src dst => Sys2Proof.Machine.execFlagSetArrival src dst s
  | .barrierUpdate src dst => Sys2Proof.Machine.execBarrierUpdate src dst s
  | .sqaccCommitEnd m => Sys2Proof.Machine.execSqaccCommitEnd m s
  | .watchdog core => Sys2Proof.Machine.execWatchdog core s
  | .stuckCore core => Sys2Proof.Machine.execStuckCore core s
  | .headWaitTimeout slot => Sys2Proof.Machine.execHeadWaitTimeout slot s
  | .wakeWrite page offset value => Sys2Proof.Machine.execWakeWrite page offset value s
  | .launchRelease lid => Sys2Proof.Machine.execLaunchRelease lid s
  | .launchComplete lid => Sys2Proof.Machine.execLaunchComplete lid s
  | .preemptionRequest lid => Sys2Proof.Machine.execPreemptionRequest lid s
  | .coreHalt core => Sys2Proof.Machine.execCoreHalt core s
  | .saveComplete core => Sys2Proof.Machine.execSaveComplete core s
  | .gangResume lid => Sys2Proof.Machine.execGangResume lid s
  | .tdispResume core => Sys2Proof.Machine.execTdispResume core s
  | .tdispHandler core => Sys2Proof.Machine.execTdispHandler core s
  | .tdispEnd core => Sys2Proof.Machine.execTdispEnd core s
  | .eventTaken col => Sys2Proof.Machine.execEventTaken col s
  | .uncorrectableError core inCore id addr => Sys2Proof.Machine.execUncorrectableError core inCore id addr s
  | .correctableError u => Sys2Proof.Machine.execCorrectableError u s
  | .retirement u => Sys2Proof.Machine.execRetirement u s
  | .thermalMigration ctx col moves => Sys2Proof.Machine.execThermalMigration ctx col moves s
  | .migrationMove col => Sys2Proof.Machine.execMigrationMove col s
  | .zoneTemperature col zone celsius => Sys2Proof.Machine.execZoneTemperature col zone celsius s
  | .endpointBind ep valid ctx col => Sys2Proof.Machine.execEndpointBind ep valid ctx col s
  | .managerConfigure m cfg => Sys2Proof.Machine.execManagerConfigure m cfg s
  | .queueReset entry => Sys2Proof.Machine.execQueueReset entry s
  | .queueLoad entry slot => Sys2Proof.Machine.execQueueLoad entry slot s
  | .queueUnload slot => Sys2Proof.Machine.execQueueUnload slot s
  | .controlSpaceWrite w => Sys2Proof.Machine.execControlSpaceWrite w s
  | .hostBar2Write offset data => Sys2Proof.Machine.execHostBar2Write offset data s
  | .hostBar2Read offset len => Sys2Proof.Machine.execHostBar2Read offset len s
  | .sidebandScrub req => Sys2Proof.Machine.execSidebandScrub req s
  | .negotiateAlgorithms p256 sha256 => Sys2Proof.Machine.execNegotiateAlgorithms p256 sha256 s
  | .getCertificate slot => Sys2Proof.Machine.execGetCertificate slot s
  | .challenge nonce => Sys2Proof.Machine.execChallenge nonce s
  | .getMeasurements block => Sys2Proof.Machine.execGetMeasurements block s
  | .bundleFetch core => Sys2Proof.Machine.execBundleFetch core s
  | .nop => Sys2Proof.Machine.execNop s
  | .eret => Sys2Proof.Machine.execEret s
  | .halt => Sys2Proof.Machine.execHalt s
  | .yield => Sys2Proof.Machine.execYield s
  | .tend => Sys2Proof.Machine.execTend s
  | .minv => Sys2Proof.Machine.execMinv s
  | .mpop => Sys2Proof.Machine.execMpop s
  | .ltimeAdvance => Sys2Proof.Machine.execLtimeAdvance s
  | .poolGrowth => Sys2Proof.Machine.execPoolGrowth s
  | .quantExpiry => Sys2Proof.Machine.execQuantExpiry s
  | .wakeProcess => Sys2Proof.Machine.execWakeProcess s
  | .nopCommand => Sys2Proof.Machine.execNopCommand s
  | .launchCommand => Sys2Proof.Machine.execLaunchCommand s
  | .signal => Sys2Proof.Machine.execSignal s
  | .slotTableInstall => Sys2Proof.Machine.execSlotTableInstall s
  | .powerOn => Sys2Proof.Machine.execPowerOn s
  | .sidebandReset => Sys2Proof.Machine.execSidebandReset s
  | .powerLoss => Sys2Proof.Machine.execPowerLoss s
  | .forceRecovery => Sys2Proof.Machine.execForceRecovery s
  | .commitA => Sys2Proof.Machine.execCommitA s
  | .commitB => Sys2Proof.Machine.execCommitB s
  | .writeLease => Sys2Proof.Machine.execWriteLease s
  | .scrub => Sys2Proof.Machine.execScrub s
  | .readLog => Sys2Proof.Machine.execReadLog s
  | .reboot => Sys2Proof.Machine.execReboot s
  | .scrubDoorbell => Sys2Proof.Machine.execScrubDoorbell s
  | .scrubComplete => Sys2Proof.Machine.execScrubComplete s
  | .getVersion => Sys2Proof.Machine.execGetVersion s
  | .getCapabilities => Sys2Proof.Machine.execGetCapabilities s
  | .getDigests => Sys2Proof.Machine.execGetDigests s
  | .errorLogRead => Sys2Proof.Machine.execErrorLogRead s
  | .commandOfAnotherKind => Sys2Proof.Machine.execCommandOfAnotherKind s

end Sys2Proof.Machine
end

