-- ==== Sys2Proof/Machine/Schedule.lean ====
section
/-!
DEFINITION. Which of the part's own steps and of the inputs from outside may come next. A list may hold a step that is not
enabled: that step changes nothing. Which one comes, if any, is free (log 6).
-/
namespace Sys2Proof.Machine

/-- Free bytes, for what another package or the host sends. -/
def State.freeBytes (s : State) (key n : Nat) : List Byte := (List.range n).map fun i => Config.freeByte s.free (key + i)

/-- A free word. -/
def State.freeWord (s : State) (key : Nat) : W64 := BitVec.ofNat 64 (Config.freeNat s.free key)

/-- The bytes that other packages return for an access: all that its missing parts ask, or fewer when the access fails there
(R204, R297). -/
def farBytes (s : State) (o : Outstanding) : List Byte :=
  let n := ((o.parts.filter fun p => !p.done && p.place.isFar).map fun p => p.n).foldl (· + ·) 0
  s.freeBytes (1000 * o.id + 300) (if Config.freeBit s.free 301 then n else Config.freeNat s.free 303 % (n + 1))

/-- The steps of a core's open accesses (R202, R204). -/
def accessSteps (s : State) (i : Nat) (k : Core) : List Instr :=
  k.outs.flatMap fun o =>
    (if o.ldPend then [.globalLoadReturn i o.id { data := farBytes s o, prot := Config.freeBit s.free 302 }] else []) ++
      (if o.stPend then [.storeAcknowledgement i { id := o.id, failed := Config.freeBit s.free 304, prot := Config.freeBit s.free 306 }] else [])

/-- The steps of a core's queued engine operations (R224). -/
def queueSteps (i : Nat) (k : Core) : List Instr :=
  k.queues.flatMap fun q => (List.range q.2.length).map fun n => .engineOperationStart i q.1 n

/-- The steps of a core's started engine operations (R198, R249, R257, R304). -/
def startedSteps (s : State) (i : Nat) (k : Core) : List Instr :=
  k.started.mapIdx (fun n x => (n, x)) |>.flatMap fun (n, x) =>
    match x.stage with
    | .waiting => [if Config.freeBit s.free 305 then .sendAcknowledged i n Cause.remote.code 0 else .sendAcknowledged i n 0 (streamBytes (sendRuns x.e))]
    | .pulled .. =>
      [.sendAcknowledged i n Cause.remote.code 0,
       .fabricAccessArrival { pkg := field (x.e.vals.getD 0 0) 12 14, ctx := 0 } (.pull i x.id (1 + Config.freeNat s.free 307 % 256))]
    | .copying total done =>
      ((List.range total).filter fun c => !done.contains c).map fun c => .copyChunk i n c (s.freeBytes (5000 * c + 311) 4096)
    | .layer .. => [.copyChunk i n 0 (s.freeBytes 311 64)]
    | .pooling .. => [.engineOperationComplete i n]
    | .finished .. => [.engineOperationComplete i n, .completionRecordWrite i n]

/-- The fetches that a core's matrix queue still asks for (R179, R180). -/
def fetchSteps (s : State) (i : Nat) (k : Core) : List Instr :=
  [0, 1, 2].flatMap fun o => (List.range 256).flatMap fun c =>
    match k.fetcher o c with
    | none => []
    | some e =>
      let why := (fetchCause s i ((e.chunks o).getD c 0)).getD .remote
      [.operandChunkArrival i o c (s.freeBytes (100 * c + 313) 64), .fetchFault i o c why.code]

/-- The steps of a core's matrix engine (R174, R184). -/
def matrixSteps (s : State) (i : Nat) (k : Core) : List Instr :=
  if k.mx.queue.isEmpty && k.mx.blocks.isEmpty then []
  else [.matrixOperationStart i, .accumulatorUpdate i, .mpsLeaveHead i] ++ fetchSteps s i k

/-- What may happen to a core as a whole (R28, R29, R225, R242, R323). -/
def wholeSteps (s : State) (i : Nat) (k : Core) : List Instr :=
  (if k.busy && decide (64 ≤ k.idle) then [.stuckCore i] else []) ++
    (if k.run == .halted || k.run == .trapped then [.saveComplete i] else []) ++
    (if k.busy && (s.launch k.lid).isSome then [.coreHalt i] else [])

/-- The steps of the cores. -/
def State.coreSteps (s : State) : List Instr :=
  s.cores.flatMap fun (i, k) =>
    accessSteps s i k ++ queueSteps i k ++ startedSteps s i k ++ matrixSteps s i k ++ wholeSteps s i k

/-- The arrivals on the cluster network (R158, R310, R314): each pair's oldest packet. -/
def State.netSteps (s : State) : List Instr :=
  s.net.flatMap fun p => match p.item with
    | .flag .. => [.flagSetArrival p.src p.dst]
    | .barrier .. => [.barrierUpdate p.src p.dst]
    | _ => [.clusterRemoteAccess p.src p.dst]

/-- The steps of messages within the package (R250 to R255). -/
def State.messageSteps (s : State) : List Instr :=
  (s.fabricOut.flatMap fun f => match f.item with
    | .message _ _ m => if f.pkg = s.pkg then [.messageArrival (s.endpoint m.dstEp).col m] else []
    | _ => []) ++
  s.hub.parsers.flatMap fun (col, p) =>
    (p.reorder.map fun m => .messagePresented col (srcOf m) m.dstEp) ++
      (List.range p.landing.length).flatMap fun n =>
        [.rendezvousDataArrival col n (s.freeBytes 317 (1 + Config.freeNat s.free 319 % 4096)) (Config.freeBit s.free 321),
         .landingComplete col n]

/-- The deliveries of strips (R217), from this package's suppliers and from others. -/
def State.stripSteps (s : State) : List Instr :=
  (s.hub.strips.map fun y => .stripArrival y.desc y.polder y.region y.slot) ++
    s.hub.polders.map fun x =>
      .stripArrival x.key.2.1 x.key.2.2 (Config.freeNat s.free 323 % 81) (Config.freeNat s.free 325 % 2)

/-- The steps of launches, of the front end and of the units of the hub. -/
def State.hubSteps (s : State) : List Instr :=
  (s.fe.pool.flatMap fun l => [.launchRelease l.lid, .launchComplete l.lid, .gangResume l.lid, .preemptionRequest l.lid]) ++
    ((List.range 64).map fun n => .headWaitTimeout n) ++
    [.wakeProcess, .nopCommand, .launchCommand, .signal, .commandOfAnotherKind, .quantExpiry, .poolGrowth, .slotTableInstall] ++
    ((List.range 8).map fun c => .layerModeSwitchDone c) ++
    (s.hub.managers.map fun m => .sqaccCommitEnd m.1) ++
    (s.ms.migration.toList.map fun m => .migrationMove m.col)

/-- The part's own steps that may come next: nothing but the ROM and the scrub engine acts before firmware has been started, during a scrub,
and once the package is halted (R339, R342, R344, R350). -/
def State.candidates (s : State) : List Instr :=
  match s.sec.phase with
  | .firmware => s.coreSteps ++ s.netSteps ++ s.messageSteps ++ s.stripSteps ++ s.hubSteps
  | .scrubbing => [.scrubComplete]
  | .off => [.powerOn]
  | .recovery | .halted => []

/-! ### Inputs from outside -/

/-- A free access from another package (R204). -/
def State.anyAccess (s : State) : RemoteAccess :=
  let f (k : Nat) : Nat := Config.freeNat s.free k
  let ops : List AmoOp := [.add, .and, .or, .xor, .min, .max, .swap]
  match f 331 % 5 with
  | 0 => .load (f 333) (f 335) (f 337)
  | 1 => .store (f 333) (s.freeBytes 339 (f 335)) (f 337)
  | 2 => .amo (f 333) (ops.getD (f 341 % 7) .add) (Config.freeBit s.free 343) (s.freeWord 345) (f 337)
  | 3 => .merge (f 333) (f 335 % 256) (Config.freeByte s.free 349) (f 337)
  | _ => .cas (f 333) (Config.freeBit s.free 343) (s.freeWord 345) (s.freeWord 347) (f 337)

/-- A free unit (R320). -/
def State.anyUnit (s : State) : UnitId :=
  let f (k : Nat) : Nat := Config.freeNat s.free k
  match f 351 % 8 with
  | 0 => .userCore (f 353 % 2048)
  | 1 => .firmwareCore (f 353 % 8)
  | 2 => .router (f 353)
  | 3 => .nearBank (f 353 % 8) (f 355)
  | 4 => .dramBank (f 353 % 8) (f 355)
  | 5 => .fabricLink (f 353)
  | 6 => .clusterLink (f 353) (f 355)
  | _ => .hubBlock (f 353)

/-- A free message from another package (R248). -/
def State.anyMessage (s : State) : Message :=
  let f (k : Nat) : Nat := Config.freeNat s.free k
  { srcPkg := f 361, srcEp := f 363, dstEp := f 365, tag := f 367, number := f 369, length := f 371
    payload := if Config.freeBit s.free 373 then some (s.freeBytes 375 (f 371)) else none, handle := f 377 }

/-- What other packages, the memory and the heat of the part may do. -/
def State.aroundSteps (s : State) : List Instr :=
  let f (k : Nat) : Nat := Config.freeNat s.free k
  [.fabricAccessArrival { pkg := f 381, ctx := f 382 } s.anyAccess,
   .groupPacketReceive (f 381) (f 383) (f 385) (f 387) (s.freeBytes 389 (f 391)),
   .messageArrival (f 393 % 8) s.anyMessage,
   .correctableError s.anyUnit,
   .uncorrectableError (f 401 % 65536) (Config.freeBit s.free 403) (if Config.freeBit s.free 405 then some (f 407) else none) (f 409)]

/-- The heat of the part (R350). -/
def State.heatSteps (s : State) : List Instr :=
  [.zoneTemperature (Config.freeNat s.free 411 % 8) (Config.freeNat s.free 413 % 16) (Config.freeNat s.free 415)]

/-- What the host may do: its pages, BAR2, the mailbox and the sideband (R231, R336 to R349). -/
def State.hostSteps (s : State) : List Instr :=
  let f (k : Nat) : Nat := Config.freeNat s.free k
  [.wakeWrite (f 421) (f 423) (s.freeWord 425),
   .hostBar2Write (f 427) (s.freeBytes 429 (f 431)), .hostBar2Read (f 427) (f 431),
   .controlSpaceWrite (.throughWindow (f 433) (f 435) (s.freeWord 437)),
   .controlSpaceWrite (.bar0 (f 433) (s.freeBytes 439 (f 435))), .controlSpaceWrite (.bar0Read (f 433) (f 435)),
   .controlSpaceWrite (.ownership (s.freeBytes 441 (f 443))), .controlSpaceWrite .telemetry,
   .sidebandScrub (s.freeBytes 441 (f 443)), .negotiateAlgorithms (Config.freeBit s.free 445) (Config.freeBit s.free 447),
   .getCertificate (f 449), .challenge (s.freeBytes 451 32), .getMeasurements (f 453),
   .getVersion, .getCapabilities, .getDigests, .errorLogRead,
   .sidebandReset, .powerLoss, .forceRecovery, .commitA, .commitB, .writeLease, .scrub, .readLog, .reboot, .scrubDoorbell]

/-- A free move of a way, and a free manager configuration. -/
def State.anyMove (s : State) : Nat × Nat × Nat :=
  (Config.freeNat s.free 461 % 16, Config.freeNat s.free 463 % 8, Config.freeNat s.free 465 % 16)

/-- A free configuration of a sequence manager (R262). -/
def State.anyManager (s : State) : ManagerConfig :=
  let f (k : Nat) : Nat := Config.freeNat s.free k
  { ctx := f 471, nslot := f 472, pt := f 473, e := f 474, pool := f 475, npage := f 476, res := f 477, pta := f 478, tb := f 479
    db := f 480 }

/-- A free write of a control-space register that has no row of its own (R348). -/
def State.anyControl (s : State) : ControlWrite :=
  let f (k : Nat) : Nat := Config.freeNat s.free k
  match f 481 % 16 with
  | 0 => .window (f 483) (s.freeWord 485)
  | 1 => .contextEntry (f 483) (Config.freeBit s.free 484) (f 485) (f 487)
  | 2 => .ring (f 483) (f 485 % 8) (f 487 % 8) (s.freeWord 489) (f 491)
  | 3 => .quant (f 483)
  | 4 => .overflow (f 483) (f 485)
  | 5 => .errorWindow (f 483)
  | 6 => .threshold (f 483)
  | 7 => .perfSelect (f 483) (f 485) (f 487)
  | 8 => .bar2 (f 483) (f 485)
  | 9 => .msix (f 483) (match f 485 % 3 with
    | 0 => .eventRing (f 487)
    | 1 => .queueErrors (f 487)
    | _ => .mailbox (f 487))
  | 10 => .queueOwner (f 483) (f 485)
  | 11 => .effectivePriority (f 483) (f 485)
  | 12 => .endLaunch (f 483) (f 485)
  | 13 => .flash (f 483) (s.freeBytes 487 (f 485))
  | 14 => .mailbox (f 483 % 8)
  | _ => .saveByte (f 483) (f 485) (Config.freeByte s.free 487)

/-- What firmware may do through control space at addresses the spec does not give (log 21). -/
def State.firmwareSteps (s : State) : List Instr :=
  let f (k : Nat) : Nat := Config.freeNat s.free k
  [.endpointBind (f 491) (Config.freeBit s.free 493) (f 495) (f 497), .managerConfigure (f 491) s.anyManager,
   .queueReset (f 491 % 1024), .queueLoad (f 491 % 1024) (f 493 % 64), .queueUnload (f 491 % 64),
   .retirement s.anyUnit, .thermalMigration (f 491) (f 493 % 8) [s.anyMove],
   .lmodeWrite (f 491 % 8) (Config.freeBit s.free 493),
   .tdispResume (f 491), .tdispHandler (f 491), .tdispEnd (f 491), .controlSpaceWrite s.anyControl]

/-- What comes from outside, its parameters free. Other packages reach this one, and firmware acts, only while firmware runs (R339, R342,
R344). -/
def State.outside (s : State) : List Instr :=
  match s.sec.phase with
  | .firmware => s.aroundSteps ++ s.heatSteps ++ s.hostSteps ++ s.firmwareSteps
  | .recovery | .scrubbing => s.heatSteps ++ s.hostSteps
  | .off | .halted => s.hostSteps

/-! ### Time -/

/-- The cores that may run a bundle, or take the end of a `tend`'s final wait, or an event, or make what an access has left. -/
def State.runnable (s : State) : List Nat :=
  (s.cores.filter fun e => decide (e.1 < 65536) &&
    (e.2.busy || (e.2.run == .sleeping && (!e.2.late.isEmpty || s.eventReady (colOf e.1))))).map fun e => e.1

/-- A held near-tier line may be written back and leave the tier at any time (R189). -/
def MemSys.mayEvict (ms : MemSys) (go : Bool) (pick : Nat) : MemSys :=
  match ms.lines[pick % (ms.lines.length + 1)]? with
  | some e => if go then ms.evict e.1 else ms
  | none => ms

/-- The class code of a slot class among the stall counters (R321). -/
def Class.stall : Class → Nat | .s => 3 | .v => 4 | .f => 5 | .m => 6 | .x => 7 | .a => 8

/-- The stall counters of a core (R321): every class that has an operation in a held bundle, or that stays behind the others; and the
held waits (log 31). -/
def Core.countStall (k : Core) (d : Nat) : Core :=
  if k.hold = .none && k.slips.isEmpty then k
  else
    let ops := if k.hold = .none then [] else ((k.fetched.orElse fun _ => k.ending).map fun b => b.ops).getD []
    let k1 := ([.s, .v, .f, .m, .x, .a] : List Class).foldl (fun k y =>
      if k.lags y || ops.any fun o => o.slot.cls == y then k.count (Class.stall y) d else k) k
    let waits := k.slips.any fun x => x.op.isWait
    match k.hold with
    | .wait | .fwait | .twait | .barw | .vwait | .final => k1.count 13 d
    | _ => if waits then k1.count 13 d else k1

/-- `d` cycles from cycle `now` pass for a core (R28, R220, R225, R239, R321); a free core only counts them, and a suspended one
counts no stall and no hold. In the cycles of its latest bundle and of that bundle's padding
it dispatches (R36). -/
def Core.pass (k : Core) (i now d : Nat) : Core :=
  let on := k.run != .trapped && k.run != .halted
  if 65536 ≤ i ∨ k.run = .off ∨ k.run = .saved then k
  else if k.run = .free then k.count 1 d
  else
    let k1 := if on then (k.count 1 d).countStall d else k.count 1 d
    let quiet := d - (k.busyTill - now)
    { k1 with
      wdogCount := if isFw i then k.wdogCount else Nat.min (k.wdogCount + d) (2 ^ 32 - 1)
      holdCount := if on && (k.hold.isStale || k.staleBehind) then k.holdCount + d else k.holdCount
      idle := if k.fullQueues.isEmpty then 0 else k.idle + quiet
      still := k.still + quiet }

/-- `d` cycles pass for the counters of the hub blocks that count cycles (R321); what else a hub block counts is not said. -/
def Hub.pass (h : Hub) (d : Nat) : Hub :=
  { h with perf := h.perfSel.foldl (fun m x => if x.2 = 1 then kset 0 m x.1 ((kget 0 m x.1 + d) % 2 ^ 48) else m) h.perf }

/-- `d` cycles pass in the package; every 1,024 cycles the logical clocks advance (R202). -/
def State.elapse (s : State) (d : Nat) : State :=
  if d = 0 then s
  else
    let n := s.cycle + d
    { s with
      cycle := n
      cores := s.cores.map fun e => (e.1, e.2.pass e.1 s.cycle d)
      hub := s.hub.pass d
      agenda := (if s.cycle / 1024 < n / 1024 then [.ltimeAdvance] else []) ++ s.agenda }

/-- The turn of a core has ended: its next bundle may dispatch `d` cycles later. -/
def Core.turnEnds (k : Core) (now d : Nat) : Core :=
  { k with nextAt := if k.starts && decide (now < k.nextAt) then k.nextAt else now + d, starts := k.starts && decide (now < k.nextAt) }

/-- A core that is to dispatch on a cycle of its own, released or resumed for it (R18, R29, R327), comes before a core that would let that
cycle pass: the next core, when `pick` is the choice. -/
def State.punctual (s : State) (next : List Nat) (pick : Nat) : Nat :=
  let at_ (i : Nat) : Nat := (s.core i).nextAt
  let bound := next.filter fun i => (s.core i).starts && decide (at_ i ≤ Nat.max (at_ pick) s.cycle)
  let first := bound.foldl (fun m i => Nat.min m (at_ i)) (Nat.max (at_ pick) s.cycle)
  let due := bound.filter fun i => decide (at_ i ≤ first)
  due.getD (Config.freeNat s.free 109 % due.length) pick

/-- After a turn of `d` cycles of the core `turn`, or an event (`d` = 0): one free value has been drawn, a near-tier line may be
written back (R189), cached leaves may leave their caches (R298), and what comes next is chosen freely: one of the part's own steps, an input, or neither. After a turn the
next core is chosen, and time passes until its next bundle may dispatch, so cores run side by side (log 6). -/
def State.tick (s : State) (d : Nat) : State :=
  let all := s.candidates ++ s.outside
  let pick := (all[Config.freeNat s.free 101 % (all.length + 1)]?).toList
  let next := s.runnable
  let gone (u : List Leaf) : List Leaf := if Config.freeBit s.free 111 then u.eraseIdx (Config.freeNat s.free 113 % (u.length + 1)) else u
  let s1 := if d = 0 then s
    else { s with cores := s.cores.map fun e => if e.1 = s.turn then (e.1, { e.2.turnEnds s.cycle d with utlb := gone e.2.utlb }) else e }
  let turn := if d = 0 ∨ next.isEmpty then s.turn
    else s1.punctual next (next.getD (Config.freeNat s.free 103 % next.length) s.turn)
  let s2 := s1.elapse (if d = 0 then 0 else if next.isEmpty then d else (s1.core turn).nextAt - s.cycle)
  { s2 with
    free := s.free + 1
    cur := none
    ms := (s2.ms.mayEvict (Config.freeBit s.free 105) (Config.freeNat s.free 107)).dropLeaf (Config.freeNat s.free 115) (Config.freeNat s.free 117)
    agenda := s2.agenda ++ pick
    turn := turn }

end Sys2Proof.Machine
end

