-- ==== Sys2Proof/Machine/Bundle.lean ====
section
/-!
DEFINITION. The dispatch of one bundle: loop-end check (R106), qualifiers (R39), the slots' operations, the choice
among traps (R144), held bundles, and the close (R32, R36, R107).
-/
namespace Sys2Proof.Machine

/-- Whether the iteration qualifier lets an operation execute (R39, R107). -/
def Core.qualifies (k : Core) (q : Qual) : Bool :=
  let l := k.level k.innermost
  match q with
  | .every => true
  | .first => !k.inLoop || l.iter == 0
  | .last => !k.inLoop || l.iter + 1 == l.count

/-- The loop-end check of R106. -/
def Core.loopEndOk (k : Core) (b : Bundle) : Bool :=
  let e := k.innermost
  let l := k.level e
  let atEnd := e != 0 && skipBundles k.fetch (l.len - 1) l.start == k.pc
  if atEnd then b.le == e else b.le == 0

/-- An operation that takes effect after every other slot of its bundle and ends or suspends the stream: it waits for what they leave
behind. -/
def endsBundle : Instr → Bool
  | .trap _ | .eret | .halt | .tend | .yield => true
  | _ => false

/-- The cursor of a core's bundle before its first slot. -/
def State.cursor (s : State) (i : Nat) (b : Bundle) : Cursor :=
  let k := s.core i
  let c : Cursor :=
    { core := i, slot := .s0, word := 0, op := .nop, bn := k.bn, pc := k.pc, len := b.len, pad := b.pad, le := b.le, tok0 := k.tokens,
      status0 := 0, ltime0 := k.ltime, mw := [], split := false, lag := false, whole := false,
      sets := [], fill := 0, target := none, post := .none, trapped := none, held := .none }
  { c with status0 := kget 0 k.csr 0x010 ||| k.flagsSeen (seeFlags s c) }

/-- Whether a slot is a memory slot. -/
def isMemSlot : Slot → Bool | .m0 | .m1 => true | _ => false

/-- The choice by which a class stays behind, one for both memory slots. -/
def lagKey (o : SlotOp) : Nat := if isMemSlot o.slot then 971 else 973 + o.slot.index

/-- Execute one slot operation after those before it. Whether a wide access leaves pieces for later, and whether an operation of the M, X
or A class stays behind the other classes, is free (R95, R170; log 7); with `c0.lag` the M class stays behind. -/
def runOp (c0 : Cursor) (s : State) (o : SlotOp) : Res :=
  let d := s.cur.getD c0
  let late := o.slot.cls == .m || o.slot.cls == .x || o.slot.cls == .a
  exec o.op { s with cur := some { d with
    slot := o.slot, word := o.word, op := o.op, fill := 0, mw := if isMemSlot o.slot then d.mw else []
    split := Config.freeBit s.free (991 + o.slot.index)
    lag := late && !d.whole && !(isFw d.core && o.slot.cls == .m) && ((c0.lag && o.slot.cls == .m) || Config.freeBit s.free (lagKey o)) } }

/-- Whether the slots so far were stopped by a trap or a hold. -/
def State.stopped (s : State) : Bool :=
  match s.cur with
  | some c => c.trapped.isSome || c.held != .none
  | none => false

/-- Execute slot operations in order, until one traps or holds its bundle. -/
def runOps (c0 : Cursor) : List SlotOp → State → Res
  | [], s => .next s
  | o :: os, s =>
    match runOp c0 s o with
    | .next t => if t.stopped then .next t else runOps c0 os t
    | r => r

/-- The order in which the operations other than S0's execute: M0 and M1 in either order (R157). -/
def restOrder (swap : Bool) (ops : List SlotOp) : List SlotOp :=
  let pick (ss : List Slot) : List SlotOp := ss.flatMap fun y => ops.filter fun o => o.slot == y
  let m0 := pick [.m0]
  let m1 := pick [.m1]
  pick [.s1, .v0, .v1, .v2, .f] ++
    (if m0.isEmpty || m1.isEmpty then m0 ++ m1 else if swap then m1 ++ m0 else m0 ++ m1) ++ pick [.x, .a]

/-- What one operation alone does to the bundle's first state: the state it traps to, if it traps. -/
def trapsAlone (c0 : Cursor) (s : State) (o : SlotOp) : Option State :=
  match runOp c0 s o with
  | .next t => if (t.cur.bind fun c => c.trapped).isSome then some { t with cur := none } else none
  | _ => none

/-- The hold of one operation alone, if it holds its bundle. -/
def holdsAlone (c0 : Cursor) (s : State) (o : SlotOp) : Option Hold :=
  match runOp c0 s o with
  | .next t => t.cur.bind fun c => if c.held = .none then none else some c.held
  | _ => none

/-- The hold of one operation alone, when it is a stale grid read in fault mode (R220). -/
def staleAlone (c0 : Cursor) (s : State) (o : SlotOp) : Option Hold :=
  (holdsAlone c0 s o).bind fun h => match h with
    | .staleBy a b l => some (.staleBy a b l)
    | _ => none

/-- The bundle is held undispatched: `s` is the state before it. -/
def State.holdBundle (s : State) (i : Nat) (h : Hold) : State :=
  s.modCore i fun k =>
    { k with hold := h, holdCount := if k.staleBehind || (h.isStale && k.hold.isStale) then k.holdCount else 0 }

/-- Of the bundle's stops the one that counts: a held S slot, with which the bundle dispatches in no class, then the trap of the lowest slot
(R144), once every class has dispatched every earlier bundle (R99), then a hold. `s` is the state before the bundle, `s0` the one its slots
start from. -/
def State.stopBundle (s s0 : State) (c0 : Cursor) (i : Nat) (ops : List SlotOp) (h : Hold) : State :=
  match (ops.filter fun o => o.slot.cls == .s).findSome? (holdsAlone c0 s0) with
  | some w => s.holdBundle i w
  | none => match ops.findSome? (trapsAlone c0 s0) with
    | some t => if (s.core i).slips.isEmpty then t else s.holdBundle i .slip
    | none => s.holdBundle i ((ops.findSome? (staleAlone c0 s0)).getD h)

/-- The close of a dispatched bundle: the pc, the bundle number (R36, R96), and the mark of a loop end (R107). After a bundle that ends at
word 16,383 the pc is 16,384, where no word is: DESIGN CHOICE (log 41). -/
def State.closeBundle (s : State) (i : Nat) (c : Cursor) : State :=
  { s with cur := none }.modCore i fun k =>
    let stays := c.target.isSome || c.post matches .eret | .halt | .tend | .software _
    let ends := c.le != 0 && (k.level c.le).active && !(c.post matches .software _ | .tend)
    { k.count 2 (1 + c.pad) with
      bn := k.bn + 1 + c.pad
      pc := if stays then k.pc else c.after
      closing := if ends then some (c.le, c.after) else k.closing
      hold := .none
      holdCount := if k.slips.any fun x => x.cls == Class.m && x.cur.bn != k.bn then k.holdCount else 0
      idle := 0
      still := 0
      busyTill := s.cycle + 1 + c.pad
      fetched := none }

/-- The operation of S0 in its bundle: `trap` is taken after the close of a loop iteration (R146). -/
def runS0 (c0 : Cursor) (op : Option SlotOp) (s : State) : Res :=
  match op with
  | none => .next s
  | some o =>
    match o.op with
    | .trap _ =>
      let i := c0.core
      if c0.le ≠ 0 && ((s.core i).level c0.le).active then
        let s1 := s.modCore i fun k => k.closeLoop c0.le c0.after
        let c := { s1.cur.getD c0 with pc := (s1.core i).pc, len := 0 }
        runOp c0 { s1 with cur := some c } o
      else runOp c0 s o
    | _ => runOp c0 s o

/-- At a sync bundle the writes of operations whose tokens have been observed are bound to be seen, and with them every older content of
their words is gone (R159). -/
def dropSeen (hs : List OldEng) : List OldEng :=
  match hs with
  | [] => []
  | h :: rest => if h.seen.isSome || rest.any (fun x => x.seen.isSome && x.word.place == h.word.place) then dropSeen rest else h :: dropSeen rest

/-- A core's bundle before dispatch: what it is bound to see has landed, and a sync bundle synchronises what came
before (R35, R97, R159). -/
def State.prepare (s : State) (i : Nat) (b : Bundle) : State :=
  s.modCore i fun k =>
    let k1 := if b.sync then { k.stamp k.bn with recent := [], hist := dropSeen k.hist, lastSync := k.bn } else k
    k1.settle k.bn

/-- Whether a load writes a vector register. -/
def LoadDest.writesVector (d : LoadDest) (r : Nat) : Bool :=
  match d with
  | .vector v .. => v == r
  | .fixed ws => ws.any fun w => match w with
    | .vector _ v .. => v == r
    | _ => false
  | _ => false

/-- Whether an operation names a register that a load writes. -/
def LoadDest.awaitedBy (d : LoadDest) (op : Instr) : Bool :=
  (List.range 64).any fun r => (d.writesScalar r && Instr.names op r) || (d.writesVector r && Instr.namesVector op r)

/-- Whether an operation must see a register that its own class has still to write: of an access or a wait that lags, or of an acquire
(R97, R206). -/
def Core.mustSee (k : Core) (o : SlotOp) : Bool :=
  (k.slips.any fun x => x.cls == o.slot.cls && match x.op with
    | .access _ d => d.awaitedBy o.op
    | .twait d _ => Instr.names o.op d
    | .enter .. | .barw .. | .vwait .. | .defer .. => false) ||
  (o.slot.cls == .m && k.outs.any fun x => x.ldPend && x.acq.isSome && x.dest.awaitedBy o.op)

/-- Whether an access on the core's own typed buffers has pieces left to make. -/
def Core.owesOwn (k : Core) : Bool := k.late.any fun w => !w.o.ldPend && !w.o.stPend

/-- Why a core's next bundle may not enter its queues yet: a sync bundle waits for every class (R35, R206) and for what accesses on own
typed buffers have left (R159), no class runs more than 16
bundles ahead (R95), a bundle waits for a stride add of a register it names (R107), and for a register its own class has still to
write. -/
def Core.mustWait (k : Core) (b : Bundle) : Option Hold :=
  if b.sync && (!k.slips.isEmpty || k.owesOwn) then some .slip
  else if b.sync && k.outs.any (fun o => o.ldPend && o.acq.isSome) then some .acquire
  else if k.oldest k.bn + 16 ≤ k.bn then some .slip
  else if k.due.any fun e => b.ops.any fun o => Instr.names o.op e.1 then some .stride
  else if b.ops.any k.mustSee then some .slip
  else none

/-- The later slot of the first pair that writes one vector-side destination in a cluster that both slots enable (R45, steps 3 and 4),
whatever the slots' qualifiers say (DEDUCED, log 18). -/
def State.vectorClash (s : State) (c : Cursor) (b : Bundle) : Option Slot :=
  (b.pairs.find? fun p =>
    (s.enabled { c with slot := p.1 }).any fun cl => (s.enabled { c with slot := p.2 }).contains cl).map fun p => p.2

/-- The slips of a class of one bundle. -/
def Core.slipsOf (k : Core) (cls : Class) (bn : Nat) : List Slip := k.slips.filter fun x => x.cls == cls && x.cur.bn == bn

/-- What blocks the M class at a bundle is kept with its operations, as `t` found it, when they all stay behind. -/
def State.keepWhy (s t : State) (i bn : Nat) : State :=
  s.modCore i fun k => { k with slips := k.slips.map fun x =>
    match ((t.core i).slipsOf .m bn).find? fun y => y.cls == x.cls && y.cur.bn == x.cur.bn && y.cur.slot == x.cur.slot with
    | some y => { x with why := y.why }
    | none => x }

/-- Execute the operations of a bundle other than S0's. The M class dispatches a bundle in both its slots or in none (R95): where one slot's
access is blocked, the other's stays behind with it. -/
def runRest (c0 : Cursor) (ops : List SlotOp) (s : State) : Res :=
  match runOps c0 ops s with
  | .next t =>
    let n := ((t.core c0.core).slipsOf .m c0.bn).length
    if t.stopped || n = 0 || n == (ops.filter fun o => o.slot.cls == .m).length then .next t
    else match runOps { c0 with lag := true } ops s with
      | .next u => .next (u.keepWhy t c0.core c0.bn)
      | r => r
  | r => r

/-- Every other slot of the bundle has dispatched, but some class has still to dispatch it or an earlier one: what is left of the bundle is its
operation `o` of slot S0, which ends or suspends the stream (R99). -/
def State.waitToEnd (t : State) (i : Nat) (b : Bundle) (o : SlotOp) : State :=
  { t with cur := none }.modCore i fun k => { k with ending := some { b with ops := [o], sync := false, pairs := [] }, fetched := none, hold := .slip }

/-- The operation of slot S0 when it ends or suspends the stream. -/
def lastOp (ops : List SlotOp) : Option SlotOp := ops.find? fun o => o.slot == .s0 && endsBundle o.op

/-- Dispatch a bundle in every slot. -/
def dispatchBundle (s : State) (i : Nat) (b : Bundle) : Res :=
  let k := s.core i
  match k.mustWait b with
  | some h => .next (s.holdBundle i h)
  | none =>
    let s0 := s.prepare i b
    let c0 := s0.cursor i b
    match s0.vectorClash c0 b with
    | some y => .next (if k.slips.isEmpty then s.exception i k.bn k.pc (defectTrap (.bundle 7 y.index b.header.toNat)) else s.holdBundle i .slip)
    | none =>
    if !k.loopEndOk b then
      if k.slips.isEmpty then
        .next (s.exception i k.bn k.pc
          { cause := .loopControl, tval := tvalWord b.header.toNat 3 0, slot := 15, async := false })
      else .next (s.holdBundle i .slip)
    else
      let ops := b.ops.filter fun o => k.qualifies o.qual
      let s1 := { s0 with cur := some c0 }
      match runRest c0 (restOrder (Config.freeBit s.free 97) ops) s1 with
      | .next t =>
        let early := (lastOp ops).bind (trapsAlone c0 s1)
        if t.stopped || early.isSome then .next (s.stopBundle s0 c0 i ops ((t.cur.map fun c => c.held).getD .none))
        else match if (t.core i).slips.isEmpty then none else lastOp ops with
        | some o => .next (t.waitToEnd i b o)
        | none => match runS0 c0 (ops.find? fun o => o.slot == .s0) t with
          | .next u =>
            if u.stopped then .next (s.stopBundle s0 c0 i ops ((u.cur.map fun c => c.held).getD .none))
            else .next (u.closeBundle i (u.cur.getD c0))
          | r => r
      | r => r

/-- The event that a core takes before its next bundle: an enabled event of a firmware core (R144), the watchdog of a
user core (R28). -/
def State.boundary (s : State) (i : Nat) : Option Instr :=
  let k := s.core i
  if isFw i then if s.eventReady (colOf i) && k.slips.isEmpty && k.ending.isNone && (k.run == .running || k.run == .sleeping) then some (.eventTaken (colOf i)) else none
  else
    let lim := (k.csrNow 0x068).toNat
    if (k.run == .running || k.run == .ending) && lim != 0 && k.wdogSeen < lim && lim ≤ k.wdogCount then some (.watchdog i)
    else if k.run == .running && staleDue s i then some (.stepStale i) else none

/-- How the dispatch of an operation that stayed behind ends. -/
inductive Tried
  | gone (t : State)
  | held (h : Hold)
  | trapped (t : State)

/-- Dispatch an access of the M class that lags, beside what the other memory slot of its bundle stored (`mw`): it reads its operands as its
bundle does and is checked now (R155). -/
def State.redo (s : State) (x : Slip) (op : Instr) (mw : List OldWord) : Tried :=
  match exec op { s with cur := some { x.cur with mw := mw, lag := false, whole := true } } with
  | .next t =>
    match t.cur with
    | some d => if d.trapped.isSome then .trapped { t with cur := none } else if d.held = .none then .gone t else .held d.held
    | none => .held .slip
  | _ => .held .slip

/-- Dispatch an engine operation that stayed behind undispatched: it makes the generation that its bundle's fetch made, under its own serial
number, once its checks pass; a trap discards the generation (R304, R305). -/
def State.redoEngine (s : State) (core : Nat) (x : Slip) (op : Instr) (prod serial : Nat) : Tried :=
  let k := s.core core
  let old := x.cur.token prod
  let now := kget Token.init k.tokens prod
  let s0 := s.modCore core fun k => { k with serial := serial, tokens := if prod = 0 then k.tokens else kput k.tokens prod old }
  match s0.redo x op [] with
  | .gone t => .gone (t.modCore core fun j =>
      { j with serial := k.serial, tokens := if prod = 0 ∨ now.gen = old.gen then j.tokens else kput j.tokens prod now })
  | .trapped t => .trapped (t.modCore core fun j => { j with serial := k.serial })
  | .held h => .held h

/-- Dispatch one operation that stayed behind, as far as its class is not blocked. -/
def State.tryOne (s : State) (core : Nat) (x : Slip) (mw : List OldWord) : Tried :=
  match x.op with
  | .access op _ => s.redo x op mw
  | .defer op prod _ serial => s.redoEngine core x op prod serial
  | _ => match State.takeSlip { s with cur := some x.cur } core x with
    | none => .held x.why
    | some t => .gone t

/-- Dispatch the operations of one bundle of a class that lags, slot after slot: the state after, or what blocks which of them. -/
def State.drainEach (core : Nat) : List Slip → List OldWord → State → Except (Slip × Hold) State
  | [], _, s => .ok s
  | x :: xs, mw, s =>
    match s.tryOne core x mw with
    | .gone t =>
      State.drainEach core xs ((t.cur.map fun d => d.mw).getD mw)
        ({ t with cur := none }.modCore core fun k => { k with slips := k.slips.erase x, idle := 0, still := 0 })
    | .held h => .error (x, h)
    | .trapped _ => .error (x, .slip)

/-- Dispatch one bundle of a class that lags, in all its slots or in none (R95): where one of them traps, the trap of the lowest slot is taken
(R144), once every class has dispatched every earlier bundle (R99). -/
def State.drainClass (s : State) (core : Nat) (cls : Class) (bn : Nat) : State :=
  let xs := (s.core core).slipsOf cls bn
  let bySlot := [Slot.m0, .m1, .x, .a].flatMap fun y => xs.filter fun x => x.cur.slot == y
  match bySlot.findSome? fun x => match s.tryOne core x [] with | .trapped t => some t | _ => none with
  | some t => if bn ≤ (s.core core).oldest bn then t else s
  | none =>
    match State.drainEach core xs [] s with
    | .ok t => t
    | .error (x, h) => s.modCore core fun k =>
        { k with
          slips := k.slips.map fun y => if y = x then { y with why := h } else y
          holdCount := if cls != .m || (h.isStale && x.why.isStale) then k.holdCount else 0 }

/-- The classes that lag dispatch what they can, one bundle each, until a trap stops the core; a class that is not asked for may stay behind
(R95). -/
def State.drainSlips (s : State) (core : Nat) (all : Bool) : State :=
  [Class.m, .x, .a].foldl (fun s cls =>
    match (s.core core).slips.find? fun x => x.cls == cls with
    | none => s
    | some x =>
      if (s.core core).run = .running ∧ (all || Config.freeBit s.free (core * 64 + 5 * x.cur.slot.index + 2)) then
        s.drainClass core cls x.cur.bn
      else s) s

/-- What a core does before its next bundle: the pieces that accesses have left are made, the classes that lag dispatch what they can, and
stride adds that waited are made (R95, R107, R170). -/
def State.catchUp (s : State) (i : Nat) : State :=
  let k := s.core i
  let s1 := s.flushLate i
  let s2 := if k.slips.isEmpty then s1 else s1.drainSlips i (k.hold == .slip || k.closing.isSome)
  if (s2.core i).due.isEmpty then s2 else s2.modCore i Core.makeDue

/-- A core's turn: the close of a loop iteration, the boundary's event, or the next bundle, unless that is to dispatch on a later cycle (R327). -/
def runCore (s : State) (i : Nat) : Res :=
  let s := if (s.core i).run == .running || (s.core i).run == .sleeping then s.catchUp i else s
  let k := s.core i
  if k.closing.isSome && k.slips.isEmpty then exec (.loopIterationClose i) s
  else match s.boundary i with
  | some e => exec e s
  | none =>
    if k.closing.isSome then .next s
    else if k.starts ∧ s.cycle < k.nextAt then .next s
    else if k.run = .ending then .next (s.endWait i)
    else if k.run ≠ .running then .next s
    else
      match k.ending with
      | some b => if k.slips.isEmpty then dispatchBundle (s.modCore i fun k => { k with ending := none }) i b else .next (s.holdBundle i .slip)
      | none =>
        if isFw i && s.eventReady (colOf i) && !k.slips.isEmpty then .next (s.holdBundle i .slip)
        else
          let s1 := if k.fetched.isSome then s else s.fetchBundle i
          match (s1.core i).fetched with
          | some b => if (s1.core i).run = .running then dispatchBundle s1 i b else .next s1
          | none => .next s1

/-- The cycles that a core's turn took: none for the close of a loop iteration (R107), else one and the padding (R36, R95). -/
def turnCycles (s t : State) (i : Nat) : Nat :=
  if (s.core i).closing.isSome && (t.core i).closing.isNone then 0 else Nat.max 1 ((t.core i).bn - (s.core i).bn)

/-- One step: the head of the agenda, or a turn of the current core, and then the passing of time. -/
def runStep (s : State) : Res :=
  match s.agenda with
  | e :: rest =>
    match exec e { s with agenda := rest, cur := none } with
    | .next t => .next (t.tick 0)
    | r => r
  | [] =>
    match runCore { s with cur := none } s.turn with
    | .next t => .next (t.tick (turnCycles s t s.turn))
    | r => r

/-! ### The host's probe -/

/-- `s` with a bundle of one slot word, its extension words zero, at word 0 of the core that may run it: firmware core
0 for a privileged operation, user core 0 for any other (log 8). -/
def State.probe (s : State) (w : Nat) : State :=
  let slot := ((probeSlot w).map fun h => h.1).getD .s0
  let i := if privileged slot.cls (bits w 22 6) then 0xF000 else 0
  let h := 0xD0000000 + 2 ^ (18 + slot.index)
  let k := s.core i
  let k1 : Core :=
    { k with
      run := .running, hold := .none, pc := 0, fetched := none, ending := none, closing := none, outs := [], due := [], slips := [], late := []
      starts := false
      wdogCount := 0, wdogSeen := 0
      csr := kset 0 k.csr 0x060 fullLimits
      imem := [(0, BitVec.ofNat 32 h), (1, BitVec.ofNat 32 w)] }
  { s.setCore i k1 with agenda := [], turn := i, cur := none }

end Sys2Proof.Machine
end

