-- ==== Sys2Proof/Machine/Step.lean ====
section
/-!
DEFINITION. One step of the machine, and where the host's probe stores an instruction.
-/
namespace Sys2Proof.Machine

/-- One step (Machine/Bundle.lean): the head of the agenda, or one bundle of the core whose turn it is. -/
def step (s : State) : Host.Outcome State Fault Refusal := runStep s

/-- `s` with the instruction whose bits are `w` stored where `step` fetches next (log 8). -/
def State.withFetchWord (s : State) (nbits w : Nat) : State := s.probe (w % 2 ^ nbits)

end Sys2Proof.Machine
end

