-- ==== Sys2Proof/Safety.lean ====
section
/-!
DEFINITION. What a safe run is: one whose next step answers a next state, and which keeps the structural
invariant of the state.
-/
namespace Sys2Proof.Machine

/-- The step answers a next state: it neither faults nor meets something the model has no meaning for. -/
def State.safe (s : State) : Prop := ∃ t, step s = .next t

end Sys2Proof.Machine
end

