-- ==== Sys2Proof/Certificates/Slice0/Obligations.lean ====
section
/-!
DEFINITION. The statements for the provers: what the instructions and the machine do, from the rules of the spec.
-/
namespace Sys2Proof.Claims

open Sys2Proof.Machine

/-! ### Premises -/

/-- A bundle executes the slot operation at cursor `c`, and the uses `us` keep within the task's declarations (R61). -/
def Acts (s : State) (c : Cursor) (us : List Use) : Prop := s.cur = some c ∧ ∀ u ∈ us, u.over (s.hlim c) = false

/-- No register of `rs` carries a deferred fault (R100). -/
def Clean (s : State) (c : Cursor) (rs : List Reg) : Prop := ∀ r ∈ rs, (s.sr c r.val).df = false

/-- The value of a scalar register as the operation at the cursor reads it. -/
def val (s : State) (c : Cursor) (r : Reg) : W64 := (s.sr c r.val).val

/-- Declarations of scalar registers. -/
def sUses (rs : List Reg) : List Use := rs.map fun r => .s r.val

/-- Declarations of vector registers. -/
def vUses (rs : List Reg) : List Use := rs.map fun r => .v r.val

/-! ### Scalar results (R102, R103) -/

/-- Destination, sources, result and latency of the arithmetic operations, from the values of the registers. -/
def arithmetic (i : Instr) (v : Reg → W64) : Option (Reg × List Reg × W64 × Nat) :=
  let u (r : Reg) : Nat := (v r).toNat
  let z (r : Reg) : Int := (v r).toInt
  match i with
  | .add d a b => some (d, [a, b], BitVec.ofNat 64 (u a + u b), 1)
  | .sub d a b => some (d, [a, b], BitVec.ofInt 64 (z a - z b), 1)
  | .addi d a imm => some (d, [a], BitVec.ofInt 64 (z a + imm.toInt), 1)
  | .mul d a b => some (d, [a, b], BitVec.ofNat 64 (u a * u b), 3)
  | .mulh d a b .ss => some (d, [a, b], BitVec.ofInt 64 (z a * z b / 2 ^ 64), 3)
  | .mulh d a b .uu => some (d, [a, b], BitVec.ofNat 64 (u a * u b / 2 ^ 64), 3)
  | .mulh d a b .su => some (d, [a, b], BitVec.ofInt 64 (z a * u b / 2 ^ 64), 3)
  | .div d a b true => some (d, [a, b], if u b = 0 then BitVec.ofNat 64 (2 ^ 64 - 1) else BitVec.ofNat 64 (u a / u b), 20)
  | .div d a b false => some (d, [a, b], if u b = 0 then BitVec.ofNat 64 (2 ^ 64 - 1) else BitVec.ofInt 64 ((z a).tdiv (z b)), 20)
  | .rem d a b true => some (d, [a, b], if u b = 0 then v a else BitVec.ofNat 64 (u a % u b), 20)
  | .rem d a b false => some (d, [a, b], if u b = 0 then v a else BitVec.ofInt 64 ((z a).tmod (z b)), 20)
  | .min d a b true => some (d, [a, b], BitVec.ofNat 64 (Nat.min (u a) (u b)), 1)
  | .min d a b false => some (d, [a, b], BitVec.ofInt 64 (Min.min (z a) (z b)), 1)
  | .max d a b true => some (d, [a, b], BitVec.ofNat 64 (Nat.max (u a) (u b)), 1)
  | .max d a b false => some (d, [a, b], BitVec.ofInt 64 (Max.max (z a) (z b)), 1)
  | .clz d a => some (d, [a], BitVec.ofNat 64 (if u a = 0 then 64 else 63 - Nat.log2 (u a)), 1)
  | .popc d a => some (d, [a], BitVec.ofNat 64 ((List.range 64).filter fun j => (u a).testBit j).length, 1)
  | _ => none

/-- The same of the logic operations and shifts; shift amounts are taken modulo 64. -/
def logic (i : Instr) (v : Reg → W64) : Option (Reg × List Reg × W64 × Nat) :=
  let u (r : Reg) : Nat := (v r).toNat
  match i with
  | .and d a b => some (d, [a, b], BitVec.ofNat 64 (u a &&& u b), 1)
  | .or d a b => some (d, [a, b], BitVec.ofNat 64 (u a ||| u b), 1)
  | .xor d a b => some (d, [a, b], BitVec.ofNat 64 (u a ^^^ u b), 1)
  | .andi d a imm => some (d, [a], v a &&& BitVec.ofInt 64 imm.toInt, 1)
  | .ori d a imm => some (d, [a], v a ||| BitVec.ofInt 64 imm.toInt, 1)
  | .xori d a imm => some (d, [a], v a ^^^ BitVec.ofInt 64 imm.toInt, 1)
  | .sll d a b => some (d, [a, b], BitVec.ofNat 64 (u a * 2 ^ (u b % 64)), 1)
  | .srl d a b => some (d, [a, b], BitVec.ofNat 64 (u a / 2 ^ (u b % 64)), 1)
  | .sra d a b => some (d, [a, b], BitVec.ofInt 64 ((v a).toInt / 2 ^ (u b % 64)), 1)
  | .shi d a .left n => some (d, [a], BitVec.ofNat 64 (u a * 2 ^ n.val), 1)
  | .shi d a .right n => some (d, [a], BitVec.ofNat 64 (u a / 2 ^ n.val), 1)
  | .shi d a .arith n => some (d, [a], BitVec.ofInt 64 ((v a).toInt / 2 ^ n.val), 1)
  | .shi d a .rotate n => some (d, [a], BitVec.ofNat 64 (u a / 2 ^ n.val + u a % 2 ^ n.val * 2 ^ (64 - n.val)), 1)
  | _ => none

/-- A condition between two values (R48). -/
def holds (c : Cond) (x y : W64) : Bool :=
  match c with
  | .eq => decide (x.toNat = y.toNat)
  | .ne => decide (x.toNat ≠ y.toNat)
  | .lt => decide (x.toInt < y.toInt)
  | .ge => decide (y.toInt ≤ x.toInt)
  | .ltu => decide (x.toNat < y.toNat)
  | .geu => decide (y.toNat ≤ x.toNat)

/-- The same of compares, selection, constants and bit fields. -/
def selection (i : Instr) (v : Reg → W64) : Option (Reg × List Reg × W64 × Nat) :=
  let u (r : Reg) : Nat := (v r).toNat
  let bit (b : Bool) : W64 := if b then 1 else 0
  match i with
  | .cmp d a b c => some (d, [a, b], bit (holds c (v a) (v b)), 1)
  | .cmpi d a c imm => some (d, [a], bit (holds c (v a) (BitVec.ofInt 64 imm.toInt)), 1)
  | .cmpiExt d a c imm => some (d, [a], bit (holds c (v a) (BitVec.ofInt 64 imm.toInt)), 1)
  | .sel d a b c => some (d, [a, b, c], if v c = 0 then v b else v a, 1)
  | .li d imm => some (d, [], BitVec.ofInt 64 imm.toInt, 1)
  | .liExt d imm => some (d, [], imm, 1)
  | .bfx d a pos len1 false => some (d, [a], BitVec.ofNat 64 (u a / 2 ^ pos.val % 2 ^ (len1.val + 1)), 1)
  | .bfx d a pos len1 true =>
    let f := u a / 2 ^ pos.val % 2 ^ (len1.val + 1)
    some (d, [a], BitVec.ofInt 64 (if 2 ^ len1.val ≤ f then (f : Int) - 2 ^ (len1.val + 1) else f), 1)
  | .bfi d a pos len1 =>
    let n := len1.val + 1
    some (d, [a, d], BitVec.ofNat 64
      (u d / 2 ^ (pos.val + n) * 2 ^ (pos.val + n) + u a % 2 ^ n * 2 ^ pos.val + u d % 2 ^ pos.val), 1)
  | .stag d a tag => some (d, [a], BitVec.ofNat 64 (u a % 2 ^ 60 + tag.val * 2 ^ 60), 1)
  | _ => none

/-- An operation with a scalar result leaves exactly the held write of its result, its DF bit the OR of its sources'. -/
def ScalarResult (f : Instr → (Reg → W64) → Option (Reg × List Reg × W64 × Nat)) : Prop :=
  ∀ (i : Instr) (s : State) (c : Cursor) (d : Reg) (rs : List Reg) (x : W64) (lat : Nat),
    i.wf = true → f i (val s c) = some (d, rs, x, lat) → Acts s c (sUses (d :: rs)) →
      exec i s = .next (s.put c lat (.scalar d.val x (rs.any fun r => (s.sr c r.val).df)))

end Sys2Proof.Claims

open Sys2Proof Sys2Proof.Machine Sys2Proof.Claims

/-- R102: the scalar arithmetic operations write their result, with the latency of R96 and the DF bit of R100. -/
def Obligations.ScalarArithmeticResults : Prop := ScalarResult arithmetic

/-- R102, R103: the scalar logic operations and shifts, and compares, selection, constants and bit fields, write their result. -/
def Obligations.ScalarLogicAndSelectionResults : Prop := ScalarResult logic ∧ ScalarResult selection

namespace Sys2Proof.Claims

/-! ### Registers with their held writes (R94 to R98) -/

/-- Whether a held write changes scalar register `r`. -/
def writesScalar (r : Nat) (w : HeldWrite) : Bool := match w.wr with | .scalar q _ _ => q == r | _ => false

/-! ### Control transfers (R104) -/

/-- The bit of a token's state in the set of `btok`. -/
def stateBit : TokState → Nat
  | .pending => 0
  | .done => 1
  | .faulted => 2
  | .cancelled => 3

/-- A control transfer: declarations, registers that must be clean, target, and the state apart from the transfer. -/
def transfer (i : Instr) (s : State) (c : Cursor) : Option (List Use × List Reg × Int × State) :=
  let goal (taken : Bool) (off : BitVec 32) : Int := if taken then (c.pc : Int) + off.toInt else (c.pc : Int) + c.len
  match i with
  | .br a b cd off => some (sUses [a, b], [a, b], goal (holds cd (val s c a) (val s c b)) off, s)
  | .bri a imm cd off => some (sUses [a], [a], goal (holds cd (val s c a) (BitVec.ofInt 64 imm.toInt)) off, s)
  | .j off => some ([], [], goal true off, s)
  | .jal d off => some (sUses [d], [], goal true off, s.put c 1 (.scalar d.val (BitVec.ofNat 64 (c.pc + c.len)) false))
  | .jr a => some (sUses [a], [a], (val s c a).toNat, s)
  | .btok t set off => some ([.tok t.val], [], goal (set.val.testBit (stateBit (c.token t.val).state)) off, s.observe c t.val)
  | .bempty set off =>
    some ([], [], goal ((List.range 8).all fun cl => !set.toNat.testBit cl || s.top c cl == 0) off, s)
  | .chk a off => some (sUses [a], [], goal ((s.sr c a.val).df) off, s)
  | _ => none

/-! ### Exceptions (R143 to R147) -/

/-- The word of `tstate` after an exception: slot, EE 0, PEE, HW, LA. -/
def trapState (k : Core) (m slot : Nat) : W64 :=
  BitVec.ofNat 64 (slot + (if k.ee then 32 else 0) + (if k.heldAt m then 64 else 0) + (if k.inLoop then 128 else 0))

/-- What a precise trap at the cursor leaves. -/
def trapped (s : State) (c : Cursor) (cause : Cause) (tval : W64) : State :=
  s.trapAt c { cause := cause, tval := tval, slot := c.slot.index, async := false }

/-- The CSR numbers whose write a core may make: none that is read-only, and of firmware's only on a firmware core (R138). -/
def mayWrite (core n : Nat) : Prop :=
  ¬(n ≤ 0x004 ∨ n = 0x040 ∨ n = 0x048) ∧
    (isFw core = false → ¬(n = 0x049 ∨ (0x050 ≤ n ∧ n ≤ 0x054) ∨ n = 0x058 ∨ n = 0x060 ∨ n = 0x068))

end Sys2Proof.Claims

/-- R96, R97: a scalar write is seen by its own class once L bundles have passed, and not before; the other registers read
as before. -/
def Obligations.HeldWriteBecomesVisible : Prop :=
  ∀ (s : State) (c : Cursor) (lat r : Nat) (v : W64) (df : Bool),
    r ≠ 0 → (∀ w ∈ (s.core c.core).writes, writesScalar r w = false) →
      let k := (s.put c lat (.scalar r v df)).core c.core
      (∀ m bit, k.sread (fun w => w.seen c.slot.cls m bit) r =
        if c.bn < m ∧ lat ≤ m - c.bn then ⟨v, df⟩ else (s.core c.core).sbase r) ∧
      ∀ q see, q ≠ r → k.sread see q = (s.core c.core).sread see q

/-- R94: s0 reads as 0 with DF 0; a write to it, held or landed from an engine or a load, is discarded, and a stride add on it
changes nothing; the entries of a level whose register field is 0 add nothing at its close. -/
def Obligations.ScalarZeroIsConstant : Prop :=
  (∀ (k : Core) (see : HeldWrite → Bool), k.sread see 0 = ⟨0, false⟩) ∧
  (∀ (s : State) (c : Cursor) (lat : Nat) (v : W64) (df : Bool), s.put c lat (.scalar 0 v df) = s) ∧
  (∀ (s : State) (core n : Nat) (cls : Sys2Proof.Class) (tok : Option Nat) (v : W64) (df : Bool),
    s.land core cls n tok (.scalar 0 v df) = s) ∧
  (∀ (s : State) (c : Cursor) (a b : Reg), Acts s c (sUses [0, a, b]) → exec (.add 0 a b) s = .next s) ∧
  (∀ (k : Core) (x : W32), k.addStride 0 x = k) ∧
  ∀ (k : Core) (lv : Nat), k.addStrides lv =
    (((List.range 4).map fun j => kget ⟨0, 0⟩ k.strides ((lv - 1) * 4 + j)).filter fun e => decide (e.reg ≠ 0)).foldl
      (fun k e => if k.writing e.reg then { k with due := k.due ++ [(e.reg, e.stride)] } else k.addStride e.reg e.stride) k

/-- R104, R110: outside an active loop, with clean sources and a target that is a word address, a transfer sets the pc to its
target; `jal` also writes the link, `btok` observes the token. In an active loop body it traps with LOOP_CONTROL, defect 1; else a
target that is no word address traps with ADDRESS_SPACE, tval the target; a source with a deferred fault traps with DF_CONSUMED. -/
def Obligations.TransfersSetThePcOrTrap : Prop :=
  ∀ (i : Instr) (s t : State) (c : Cursor) (us : List Use) (rs : List Reg) (target : Int),
    transfer i s c = some (us, rs, target, t) → Acts s c us →
      ((s.core c.core).inLoop = false → Clean s c rs → 0 ≤ target → target ≤ 16383 →
        exec i s = .next (t.goto c target.toNat) ∧ ((t.goto c target.toNat).core c.core).pc = target.toNat) ∧
      ((s.core c.core).inLoop = true → exec i s = .next (trapped s c .loopControl (slotTval c 1))) ∧
      (∀ r, (s.core c.core).inLoop = false → rs.find? (fun r => (s.sr c r.val).df) = some r →
        exec i s = .next (trapped s c .dfConsumed (dfTval c r.val false 0))) ∧
      ((s.core c.core).inLoop = false → Clean s c rs → (target < 0 ∨ 16383 < target) →
        exec i s = .next (trapped s c .addressSpace (BitVec.ofInt 64 target)))

/-- R48: the condition codes 0 to 5 of `cmp`, `br`, `cmpi` and `bri` are eq, ne, lt, ge, ltu and geu, the first four on signed
values and the last two on unsigned ones; codes 6 to 15 fail check 9. -/
def Obligations.ConditionCodesCompare : Prop :=
  (∀ (d a b : Reg) (imm : BitVec 6) (off fn : Nat), off < 2 ^ 32 → fn < 16 →
    let codes : List Cond := [.eq, .ne, .lt, .ge, .ltu, .geu]
    let read (f : Cond → Instr) : OpDecode := match codes[fn]? with | some c => .ok (f c) | none => .badOperand
    decodeOp .s (0x16 * 2 ^ 22 + d.val * 2 ^ 16 + a.val * 2 ^ 10 + b.val * 2 ^ 4 + fn) 0 0 = read (.cmp d a b) ∧
    decodeOp .s (2 ^ 30 + 0x20 * 2 ^ 22 + a.val * 2 ^ 10 + b.val * 2 ^ 4 + fn) off 0 =
      read (fun c => .br a b c (BitVec.ofNat 32 off)) ∧
    decodeOp .s (0x17 * 2 ^ 22 + d.val * 2 ^ 16 + a.val * 2 ^ 10 + fn * 2 ^ 6 + imm.toNat) 0 0 = read (fun c => .cmpi d a c imm) ∧
    decodeOp .s (2 ^ 30 + 0x17 * 2 ^ 22 + d.val * 2 ^ 16 + a.val * 2 ^ 10 + fn * 2 ^ 6) off 0 =
      read (fun c => .cmpiExt d a c (BitVec.ofNat 32 off)) ∧
    decodeOp .s (2 ^ 30 + 0x21 * 2 ^ 22 + imm.toNat * 2 ^ 16 + a.val * 2 ^ 10 + fn) off 0 =
      read (fun c => .bri a imm c (BitVec.ofNat 32 off))) ∧
  (∀ (s : State) (c : Cursor) (d a b : Reg) (cd : Cond), Acts s c (sUses [d, a, b]) →
    exec (.cmp d a b cd) s = .next (s.put c 1 (.scalar d.val (if holds cd (val s c a) (val s c b) then 1 else 0)
      ((s.sr c a.val).df || (s.sr c b.val).df)))) ∧
  (∀ (s : State) (c : Cursor) (d a : Reg) (cd : Cond) (imm : BitVec 6), Acts s c (sUses [d, a]) →
    exec (.cmpi d a cd imm) s = .next (s.put c 1 (.scalar d.val
      (if holds cd (val s c a) (BitVec.ofInt 64 imm.toInt) then 1 else 0) (s.sr c a.val).df))) ∧
  (∀ (s : State) (c : Cursor) (d a : Reg) (cd : Cond) (imm : BitVec 32), Acts s c (sUses [d, a]) →
    exec (.cmpiExt d a cd imm) s = .next (s.put c 1 (.scalar d.val
      (if holds cd (val s c a) (BitVec.ofInt 64 imm.toInt) then 1 else 0) (s.sr c a.val).df))) ∧
  ∀ (s : State) (c : Cursor) (a b : Reg) (cd : Cond) (imm : BitVec 6) (off : BitVec 32), (s.core c.core).inLoop = false →
    0 ≤ (c.pc : Int) + off.toInt → (c.pc : Int) + off.toInt ≤ 16383 → c.pc + c.len ≤ 16383 →
      (Acts s c (sUses [a, b]) → Clean s c [a, b] → exec (.br a b cd off) s = .next (s.goto c
        (if holds cd (val s c a) (val s c b) then ((c.pc : Int) + off.toInt).toNat else c.pc + c.len))) ∧
      (Acts s c (sUses [a]) → Clean s c [a] → exec (.bri a imm cd off) s = .next (s.goto c
        (if holds cd (val s c a) (BitVec.ofInt 64 imm.toInt) then ((c.pc : Int) + off.toInt).toNat else c.pc + c.len)))

namespace Sys2Proof.Claims

/-- The stride entries of a level that name a register, in order (R107, R108). -/
def strideEntries (k : Core) (lv : Nat) : List Stride :=
  ((List.range 4).map fun j => kget ⟨0, 0⟩ k.strides ((lv - 1) * 4 + j)).filter fun e => decide (e.reg ≠ 0)

/-- A register after the stride adds of some entries: each that names it adds its sign-extended stride (R107). -/
def strided (es : List Stride) (r : Nat) (x : W64) : W64 :=
  (es.filter fun e => e.reg == r).foldl (fun x e => x + e.stride.signExtend 64) x

end Sys2Proof.Claims

/-- R105, R107 to R109: `loop` starts the next level or skips a body of count 0, `lstr` sets a stride entry, `lbrk` leaves its
level when its register is not 0, and a loop-end bundle closes the iteration, once every class has dispatched it: the next one
starts, or the level ends, and the level's stride entries add their strides to their registers, with every earlier write landed and the
DF bit kept; an add whose register an earlier operation has still to write is made later. -/
def Obligations.LoopsStartIterateAndEnd : Prop :=
  (∀ (s : State) (c : Cursor) (lv : Fin 8) (r : Reg) (n1 : Fin 64),
    Acts s c (sUses [r]) → lv.val = (s.core c.core).innermost + 1 → c.le = 0 → Clean s c [r] →
      (val s c r ≠ 0 → exec (.loop lv r n1) s = .next ((s.modCore c.core fun k => k.setLevel lv.val
        { active := true, count := val s c r, iter := 0, start := c.pc + c.len, len := n1.val + 1 }).goto c (c.pc + c.len))) ∧
      (val s c r = 0 → exec (.loop lv r n1) s =
        .next (s.goto c (skipBundles (s.core c.core).fetch (n1.val + 1) (c.pc + c.len))))) ∧
  (∀ (s : State) (c : Cursor) (lv : Fin 8) (j : Fin 4) (x : Reg) (stride : BitVec 32), Acts s c (sUses [x]) →
    ∃ t, exec (.lstr lv j x stride) s = .next t ∧
      kget ⟨0, 0⟩ (t.core c.core).strides ((lv.val - 1) * 4 + j.val) = ⟨x.val, stride⟩) ∧
  (∀ (s : State) (c : Cursor) (lv : Fin 8) (a : Reg) (u : Bool),
    Acts s c (sUses [a]) → ((s.core c.core).level lv.val).active = true → (u = false → Clean s c [a]) →
      ((u = true ∨ val s c a ≠ 0) → exec (.lbrk lv a u) s = .next ((s.modCore c.core fun k => k.leaveLoops lv.val).goto c
        (skipBundles (s.core c.core).fetch ((s.core c.core).level lv.val).len ((s.core c.core).level lv.val).start))) ∧
      (u = false → val s c a = 0 → exec (.lbrk lv a u) s = .next s)) ∧
  ∀ (s : State) (core lv after : Nat),
    let l := ((s.core core).level lv)
    ((s.core core).slips ≠ [] → exec (.loopIterationClose core) s = .next s) ∧
    let es := strideEntries (s.core core) lv
    ((s.core core).closing = some (lv, after) → (s.core core).slips = [] →
      ∃ t, exec (.loopIterationClose core) s = .next t ∧ (t.core core).closing = none ∧
        (t.core core).due = (s.core core).due ++ ((es.filter fun e => (s.core core).writing e.reg).map fun e => (e.reg, e.stride)) ∧
        (∀ r see, (∀ e ∈ es, e.reg = r → (s.core core).writing r = true) →
          (t.core core).sread see r = (s.core core).sread see r) ∧
        (∀ r see, (∃ e ∈ es, e.reg = r) → (s.core core).writing r = false →
          (t.core core).sread see r =
            ⟨strided es r ((s.core core).sread (fun _ => true) r).val, ((s.core core).sread (fun _ => true) r).df⟩) ∧
        (l.iter + 1 < l.count → (t.core core).pc = l.start ∧ (t.core core).level lv = { l with iter := l.iter + 1 }) ∧
        (¬ l.iter + 1 < l.count → (t.core core).pc = after ∧
          (t.core core).level lv = { l with iter := l.iter + 1, active := false }))

/-- R138, R139: `csrr`, `csrw`, `csrs` and `csrc` read the old value into d, with DF 0, and write the new one. -/
def Obligations.CsrReadsAndWrites : Prop :=
  (∀ (s : State) (c : Cursor) (d : Reg) (n : Fin 1024),
    Acts s c (sUses [d]) → (isFw c.core = false → n.val ≠ 0x053 ∧ n.val ≠ 0x054) →
      exec (.csrr d n) s = .next (s.put c 1 (.scalar d.val (s.csrv c n.val) false))) ∧
  (∀ (s : State) (c : Cursor) (d a : Reg) (n : Fin 1024),
    Acts s c (sUses [d, a]) → mayWrite c.core n.val → Clean s c [a] →
      let old := s.csrv c n.val
      let t := s.put c 1 (.scalar d.val old false)
      exec (.csrw d a n) s = .next (t.putCsr c n.val (val s c a)) ∧
      (a.val ≠ 0 → exec (.csrs d a n) s = .next (t.putCsr c n.val (old ||| val s c a))) ∧
      (a.val ≠ 0 → exec (.csrc d a n) s = .next (t.putCsr c n.val (old &&& ~~~ val s c a)))) ∧
  ∀ (s : State) (c : Cursor) (d : Reg) (n : Fin 1024),
    Acts s c (sUses [d, 0]) → (isFw c.core = false → n.val ≠ 0x053 ∧ n.val ≠ 0x054) →
      exec (.csrs d 0 n) s = .next (s.put c 1 (.scalar d.val (s.csrv c n.val) false)) ∧
      exec (.csrc d 0 n) s = .next (s.put c 1 (.scalar d.val (s.csrv c n.val) false))

/-- R138: on a user core an access to a register that is firmware's traps with PRIVILEGE, the read alone of `csrs` and `csrc` with s0 too;
a write to a read-only register traps on any core with ILLEGAL_SLOT_OP, defect 8. That these traps come before DF_CONSUMED for the source
register is the model's choice (log 18). -/
def Obligations.CsrRightsTrap : Prop :=
  (∀ (s : State) (c : Cursor) (d : Reg) (n : Fin 1024),
    Acts s c (sUses [d]) → isFw c.core = false → n.val = 0x053 ∨ n.val = 0x054 →
      exec (.csrr d n) s = .next (trapped s c .privilege (slotTval c 0))) ∧
  (∀ (s : State) (c : Cursor) (d : Reg) (n : Fin 1024),
    Acts s c (sUses [d, 0]) → isFw c.core = false → n.val = 0x053 ∨ n.val = 0x054 →
      exec (.csrs d 0 n) s = .next (trapped s c .privilege (slotTval c 0)) ∧
      exec (.csrc d 0 n) s = .next (trapped s c .privilege (slotTval c 0))) ∧
  (∀ (s : State) (c : Cursor) (d a : Reg) (n : Fin 1024),
    Acts s c (sUses [d, a]) → isFw c.core = false →
      n.val = 0x049 ∨ (0x050 ≤ n.val ∧ n.val ≤ 0x054) ∨ n.val = 0x058 ∨ n.val = 0x060 ∨ n.val = 0x068 →
      exec (.csrw d a n) s = .next (trapped s c .privilege (slotTval c 0)) ∧
      (a.val ≠ 0 → exec (.csrs d a n) s = .next (trapped s c .privilege (slotTval c 0)) ∧
        exec (.csrc d a n) s = .next (trapped s c .privilege (slotTval c 0)))) ∧
  ∀ (s : State) (c : Cursor) (d a : Reg) (n : Fin 1024),
    Acts s c (sUses [d, a]) → n.val ≤ 0x004 ∨ n.val = 0x040 ∨ n.val = 0x048 →
      exec (.csrw d a n) s = .next (trapped s c .illegalSlotOp (slotTval c 8)) ∧
      (a.val ≠ 0 → exec (.csrs d a n) s = .next (trapped s c .illegalSlotOp (slotTval c 8)) ∧
        exec (.csrc d a n) s = .next (trapped s c .illegalSlotOp (slotTval c 8)))

/-- R143, R144: an exception saves the address in `tepc`, the cause in `tcause`, the value in `tval`, moves EE to PEE and
clears it; a user core is suspended at that address and reported to the firmware of its die (where classes ran ahead of a blocked one the
pc stays where they stand, the model's choice: log 7), a firmware core continues at `tvec`. Nothing else of the core changes: no register, held
write of another destination, other CSR, buffer, barrier, handle, queue or access; and no other core and no byte of memory changes. -/
def Obligations.ExceptionEntrySavesState : Prop :=
  ∀ (s : State) (core m tepc : Nat) (t : Trap),
    let k := s.core core
    let u := s.exception core m tepc t
    let k' := u.core core
    k'.csrNow 0x050 = BitVec.ofNat 64 (t.cause.code + if t.async then 256 else 0) ∧
    k'.csrNow 0x051 = BitVec.ofNat 64 (tepc % 16384) ∧ k'.csrNow 0x052 = t.tval ∧
    k'.csrNow 0x053 = trapState k m t.slot ∧ k'.csrNow 0x054 = k.csrNow 0x054 ∧
    (isFw core = false → k'.run = .trapped ∧ k'.pc = if k.slips = [] then tepc % 16384 else k.pc) ∧
    (isFw core = true → k'.run = .running ∧ k'.pc = (k.csrNow 0x054).toNat % 16384 ∧ u.hub = s.hub) ∧
    k'.sregs = k.sregs ∧ k'.loops = k.loops ∧ k'.tokens = k.tokens ∧ k'.flags = k.flags ∧ k'.outs = k.outs ∧
    k' = { k with
      run := k'.run, pc := k'.pc, hold := k'.hold, holdCount := k'.holdCount, fetched := none, haltCycle := k'.haltCycle
      starts := k'.starts, csr := k'.csr
      writes := k.writes.filter fun w => match w.wr with | .csr n _ => !(decide (0x050 ≤ n) && decide (n ≤ 0x053)) | _ => true } ∧
    (∀ n, (n < 0x050 ∨ 0x053 < n) → k'.csrNow n = k.csrNow n) ∧
    (isFw core = false →
      kget [] u.hub.fwEvents (fwCol s (colOf core)) = kget [] s.hub.fwEvents (fwCol s (colOf core)) ++
        [{ source := 0, cause := t.cause.code + if t.async then 256 else 0, tval := BitVec.ofNat 64 core }] ∧
      (∀ f, f ≠ fwCol s (colOf core) → kget [] u.hub.fwEvents f = kget [] s.hub.fwEvents f) ∧
      u.hub = { s.hub with fwEvents := u.hub.fwEvents }) ∧
    (∀ j, j ≠ core → u.core j = s.core j) ∧ u.ms = s.ms

/-- R146 to R148: the effect of `trap n` is to take SOFTWARE with tval n at the next bundle's address, on every core and in every
state: that exception is the instruction's own completion. `eret` restores EE from PEE and goes on at `tepc`; `halt` sleeps, or
takes a pending enabled event at once. In an active loop body `eret` and `halt` trap with LOOP_CONTROL, defect 1 (R110). -/
def Obligations.TrapReturnAndHalt : Prop :=
  (∀ (s : State) (c : Cursor) (n : Fin 1024), Acts s c [] →
    ∃ t, exec (.trap n) s = .next t ∧
      t = { s.exception c.core (c.bn + 1 + c.pad) (c.pc + c.len)
              { cause := .software, tval := BitVec.ofNat 64 n.val, slot := 0, async := false } with
            cur := some { c with post := .software n.val } } ∧
      (t.core c.core).csrNow 0x050 = 0x15 ∧ (t.core c.core).csrNow 0x051 = BitVec.ofNat 64 ((c.pc + c.len) % 16384) ∧
      (t.core c.core).csrNow 0x052 = BitVec.ofNat 64 n.val ∧
      (t.core c.core).csrNow 0x053 = trapState (s.core c.core) (c.bn + 1 + c.pad) 0 ∧
      (isFw c.core = false → (t.core c.core).run = .trapped ∧
        ((s.core c.core).slips = [] → (t.core c.core).pc = (c.pc + c.len) % 16384)) ∧
      (isFw c.core = true → (t.core c.core).run = .running ∧
        (t.core c.core).pc = ((s.core c.core).csrNow 0x054).toNat % 16384) ∧
      (t.core c.core).sregs = (s.core c.core).sregs ∧ t.ms = s.ms) ∧
  (∀ (s : State) (c : Cursor), Acts s c [] → (s.core c.core).inLoop = false →
    ∃ t, exec .eret s = .next t ∧ (t.core c.core).pc = ((s.core c.core).csrNow 0x051).toNat % 16384 ∧
      ((t.core c.core).csrNow 0x053).toNat.testBit 4 = ((s.core c.core).csrNow 0x053).toNat.testBit 5 ∧
      (t.core c.core).sregs = (s.core c.core).sregs ∧ t.ms = s.ms) ∧
  (∀ (s : State) (c : Cursor), Acts s c [] → (s.core c.core).inLoop = true →
    exec .eret s = .next (trapped s c .loopControl (slotTval c 1)) ∧
    exec .halt s = .next (trapped s c .loopControl (slotTval c 1))) ∧
  ∀ (s : State) (c : Cursor), Acts s c [] → (s.core c.core).inLoop = false →
    (s.eventReady (colOf c.core) = false →
      ∃ t, exec .halt s = .next t ∧ (t.core c.core).run = .sleeping ∧ (t.core c.core).pc = c.pc + c.len) ∧
    (c.core = 0xF000 + colOf c.core → s.eventReady (colOf c.core) = true →
      ∃ t, exec .halt s = .next t ∧ (t.core c.core).run = .running ∧
        (t.core c.core).csrNow 0x051 = BitVec.ofNat 64 ((c.pc + c.len) % 16384) ∧
        (t.core c.core).pc = ((s.core c.core).csrNow 0x054).toNat % 16384)

/-- R142, R144, R148: a firmware core with EE takes an event at a bundle boundary: `tepc` is its pc, `tcause` says
asynchronous, source and cause, EE is cleared, and it continues at `tvec`. Without EE nothing happens. That the event is the oldest one
(R144 says only that one is taken) is the model's choice (log 37); that it waits until every class has dispatched every earlier bundle is
its reading of R99 (log 7). -/
def Obligations.FirmwareTakesEvents : Prop :=
  ∀ (s : State) (col : Nat) (e : FwEvent) (es : List FwEvent),
    let k := s.core (0xF000 + col)
    kget [] s.hub.fwEvents col = e :: es → k.closing = none → (k.slips ≠ [] ∨ k.ending ≠ none → exec (.eventTaken col) s = .next s) ∧
      (k.slips = [] → k.ending = none → (k.run = .running ∨ k.run = .sleeping) →
      (k.ee = true → ∃ t, exec (.eventTaken col) s = .next t ∧ kget [] t.hub.fwEvents col = es ∧
        (t.core (0xF000 + col)).csrNow 0x050 = BitVec.ofNat 64 (e.cause % 256 + 256 + e.source * 512) ∧
        (t.core (0xF000 + col)).csrNow 0x051 = BitVec.ofNat 64 (k.pc % 16384) ∧
        (t.core (0xF000 + col)).ee = false ∧ (t.core (0xF000 + col)).run = .running ∧
        (t.core (0xF000 + col)).pc = (k.csrNow 0x054).toNat % 16384) ∧
      (k.ee = false → exec (.eventTaken col) s = .next s))

namespace Sys2Proof.Claims

/-- The bundle of the cursor's operation is held undispatched. -/
def heldBy (s : State) (c : Cursor) (h : Hold) : State := { s with cur := some { c with held := h } }

/-- The class of the cursor's operation is blocked: the operation stays behind the other classes (R95), or its bundle is held where the
memory slot of a firmware core, or an operation tried again, dispatches at once or not at all: DESIGN CHOICE (log 7). -/
def blockedBy (s : State) (c : Cursor) (h : Hold) (op : Slipped) : State :=
  if c.atOnce = true then heldBy s c h else s.slip c op (if (s.core c.core).lags c.slot.cls = true then .none else h)

/-- What a core keeps when its held writes land: its registers are those of `u`, except the coordinate's CSR, and no write is held (R242). -/
def WritesLanded (k u : Core) : Prop :=
  k.writes = [] ∧ k.loops = [] ∧ k.sregs = u.sregs ∧ k.vlanes = u.vlanes ∧ k.vdf = u.vdf ∧ k.kregs = u.kregs ∧
    (∀ n, n ≠ 0 → kget 0 k.csr n = kget 0 u.csr n) ∧ ∀ see r, r ≠ 0 → k.sread see r = u.sbase r

/-! ### Vector results (R113, R116 to R119) -/

/-- The state after a vector operation: in each enabled cluster the active lanes of vd get `op`, the DF bit is the sources' OR
with the old one unless every lane is active, and the flags of all active lanes are set. -/
def vectorNext (s : State) (c : Cursor) (lat vd : Nat) (df : Nat → Bool) (op : Nat → Nat → W32 × Nat) : State :=
  let lanes (cl : Nat) : List (Nat × W32 × Nat) := (s.active c cl).map fun i => (i, op cl i)
  let write (cl : Nat) : WriteTo :=
    .vector cl vd ((lanes cl).map fun e => (e.1, e.2.1)) (df cl || (s.top c cl != 0xFFFF && s.vf c cl vd))
  ((s.puts c lat ((s.enabled c).map write)).flag c lat
    (BitVec.ofNat 64 (orFlags ((s.enabled c).flatMap fun cl => (lanes cl).map fun e => e.2.2))))

/-- A signed value clamped to 32 bits, with SAT when it did not fit. -/
def clampS (x : Int) : W32 × Nat :=
  if x < -2147483648 then (0x80000000, 16) else if 2147483647 < x then (0x7FFFFFFF, 16) else (BitVec.ofInt 32 x, 0)

/-- An unsigned value clamped to 32 bits, with SAT when it did not fit. -/
def clampU (x : Int) : W32 × Nat :=
  if x < 0 then (0, 16) else if 4294967295 < x then (0xFFFFFFFF, 16) else (BitVec.ofInt 32 x, 0)

/-- A lane's arithmetic under a saturation variant. -/
def saturate (k : SatKind) (f : Int → Int → Int) (x y : W32) : W32 × Nat :=
  match k with
  | .wrap => (BitVec.ofInt 32 (f x.toInt y.toInt), 0)
  | .ss => clampS (f x.toInt y.toInt)
  | .us => clampU (f x.toNat y.toNat)

/-- Byte p of a lane as a number of the given signedness. -/
def byteOf (sgn : Bool) (x : W32) (p : Nat) : Int :=
  let b := x.toNat / 2 ^ (8 * p) % 256
  if sgn && decide (128 ≤ b) then (b : Int) - 256 else b

/-- The sum of a lane's four byte products and vd's lane. -/
def dot4 (k : DotKind) (x y z : W32) : Int :=
  z.toInt + byteOf (k != .uu) x 0 * byteOf (k == .ss) y 0 + byteOf (k != .uu) x 1 * byteOf (k == .ss) y 1 +
    byteOf (k != .uu) x 2 * byteOf (k == .ss) y 2 + byteOf (k != .uu) x 3 * byteOf (k == .ss) y 3

/-- Integer lane operations (R123, R124, R132): vd, the vector sources, and a lane's result from its source lanes. -/
def laneInteger (i : Instr) : Option (Reg × List Reg × (List W32 → W32 × Nat)) :=
  let two (d a b : Reg) (f : W32 → W32 → W32 × Nat) : Option (Reg × List Reg × (List W32 → W32 × Nat)) :=
    some (d, [a, b], fun xs => match xs with | [x, y] => f x y | _ => (0, 0))
  let one (d a : Reg) (f : W32 → W32 × Nat) : Option (Reg × List Reg × (List W32 → W32 × Nat)) :=
    some (d, [a], fun xs => match xs with | [x] => f x | _ => (0, 0))
  match i with
  | .vadd d a b k => two d a b (saturate k fun x y => x + y)
  | .vsub d a b k => two d a b (saturate k fun x y => x - y)
  | .vmul d a b k => two d a b (saturate k fun x y => x * y)
  | .vmulh d a b .ss => two d a b fun x y => (BitVec.ofInt 32 (x.toInt * y.toInt / 2 ^ 32), 0)
  | .vmulh d a b .uu => two d a b fun x y => (BitVec.ofNat 32 (x.toNat * y.toNat / 2 ^ 32), 0)
  | .vmulh d a b .su => two d a b fun x y => (BitVec.ofInt 32 (x.toInt * y.toNat / 2 ^ 32), 0)
  | .vmin d a b true => two d a b fun x y => (BitVec.ofNat 32 (Nat.min x.toNat y.toNat), 0)
  | .vmin d a b false => two d a b fun x y => (BitVec.ofInt 32 (Min.min x.toInt y.toInt), 0)
  | .vmax d a b true => two d a b fun x y => (BitVec.ofNat 32 (Nat.max x.toNat y.toNat), 0)
  | .vmax d a b false => two d a b fun x y => (BitVec.ofInt 32 (Max.max x.toInt y.toInt), 0)
  | .vabs d a true => one d a fun x => clampS x.toInt.natAbs
  | .vabs d a false => one d a fun x => (BitVec.ofNat 32 x.toInt.natAbs, 0)
  | .vand d a b => two d a b fun x y => (x &&& y, 0)
  | .vor d a b => two d a b fun x y => (x ||| y, 0)
  | .vxor d a b => two d a b fun x y => (x ^^^ y, 0)
  | .vnot d a => one d a fun x => (~~~x, 0)
  | .vshl d a b => two d a b fun x y => (BitVec.ofNat 32 (x.toNat * 2 ^ (y.toNat % 32)), 0)
  | .vshr d a b => two d a b fun x y => (BitVec.ofNat 32 (x.toNat / 2 ^ (y.toNat % 32)), 0)
  | .vsra d a b => two d a b fun x y => (BitVec.ofInt 32 (x.toInt / 2 ^ (y.toNat % 32)), 0)
  | .vmov d a => one d a fun x => (x, 0)
  | .vdot4 d a b sat k => some (d, [a, b, d], fun xs => match xs with
    | [x, y, z] => if sat then clampS (dot4 k x y z) else (BitVec.ofInt 32 (dot4 k x y z), 0)
    | _ => (0, 0))
  | _ => none

/-- Float lane operations (R126 to R129, R132, R133): vd, the vector sources, the latency, and a lane's result. -/
def laneFloat (i : Instr) : Option (Reg × List Reg × Nat × (List W32 → W32 × Nat)) :=
  let two (lat : Nat) (d a b : Reg) (f : W32 → W32 → W32 × Nat) : Option (Reg × List Reg × Nat × (List W32 → W32 × Nat)) :=
    some (d, [a, b], lat, fun xs => match xs with | [x, y] => f x y | _ => (0, 0))
  let one (lat : Nat) (d a : Reg) (f : W32 → W32 × Nat) : Option (Reg × List Reg × Nat × (List W32 → W32 × Nat)) :=
    some (d, [a], lat, fun xs => match xs with | [x] => f x | _ => (0, 0))
  let three (d a b : Reg) (f : W32 → W32 → W32 → W32 × Nat) : Option (Reg × List Reg × Nat × (List W32 → W32 × Nat)) :=
    some (d, [a, b, d], 4, fun xs => match xs with | [x, y, z] => f x y z | _ => (0, 0))
  let elementary (d a : Reg) (f : FVal → Nat × Nat) : Option (Reg × List Reg × Nat × (List W32 → W32 × Nat)) :=
    one 8 d a fun x => (BitVec.ofNat 32 (f (decodeFloat fp32 x.toNat)).1, (f (decodeFloat fp32 x.toNat)).2)
  match i with
  | .vfadd d a b r k => two 4 d a b (float2 (fun x y => sumVal [x, y]) r k)
  | .vfsub d a b r k => two 4 d a b (float2 (fun x y => sumVal [x, y.negate]) r k)
  | .vfmul d a b r k => two 4 d a b (float2 mulVal r k)
  | .vfma d a b r k => three d a b (fmaLane r k)
  | .vfmin d a b k => two 4 d a b (minMaxLane false k)
  | .vfmax d a b k => two 4 d a b (minMaxLane true k)
  | .vcvt d a src dst r => one 4 d a (cvtLane src dst r)
  | .vlgmul d a b => two 2 d a b lgmulLane
  | .vlgsum d a b => three d a b lgsumLane
  | .fexp2 d a => elementary d a exp2F
  | .flog2 d a => elementary d a log2F
  | .frcp d a => elementary d a rcpF
  | .frsqrt d a => elementary d a rsqrtF
  | .fsqrt d a => elementary d a sqrtF
  | .ftanh d a => elementary d a tanhF
  | .fsigm d a => elementary d a sigmF
  | .fsin d a => elementary d a sinF
  | .fcos d a => elementary d a cosF
  | _ => none

/-- Moves, constants and permutes (R124, R134): declarations, vd, latency, the DF bits of the sources and the lane values. -/
def laneMove (i : Instr) (s : State) (c : Cursor) : Option (List Use × Reg × Nat × (Nat → Bool) × (Nat → Nat → W32)) :=
  match i with
  | .vli d imm => some (vUses [d], d, 2, fun _ => false, fun _ _ => BitVec.ofInt 32 imm.toInt)
  | .vliExt d imm => some (vUses [d], d, 2, fun _ => false, fun _ _ => imm)
  | .viota d g => some (vUses [d], d, 2, fun _ => false, fun cl j => BitVec.ofNat 32 (if g then 16 * cl + j else j))
  | .vbcast d a hi => some (.v d.val :: sUses [a], d, 2, fun _ => (s.sr c a.val).df,
      fun _ _ => BitVec.ofNat 32 (if hi then (val s c a).toNat / 2 ^ 32 else (val s c a).toNat))
  | .vsel d a b k => some (vUses [d, a, b], d, 2, fun cl => s.vf c cl a.val || s.vf c cl b.val,
      fun cl j => if (s.kr c cl k.val).toNat.testBit j then s.vr c cl a.val j else s.vr c cl b.val j)
  | .vperm d a b => some (vUses [d, a, b], d, 2, fun cl => s.vf c cl a.val || s.vf c cl b.val,
      fun cl j => s.vr c cl a.val ((s.vr c cl b.val j).toNat % 16))
  | .vxc d a n .rot => some (vUses [d, a], d, 6, fun cl => s.vf c ((cl + n.val) % 8) a.val,
      fun cl j => s.vr c ((cl + n.val) % 8) a.val j)
  | .vxc d a n .bc => some (vUses [d, a], d, 6, fun _ => s.vf c n.val a.val, fun _ j => s.vr c n.val a.val j)
  | .vxc d a n .xor => some (vUses [d, a], d, 6, fun cl => s.vf c (cl ^^^ n.val) a.val,
      fun cl j => s.vr c (cl ^^^ n.val) a.val j)
  | _ => none

/-- A mask whose bit j is `f j` in the active lanes of a cluster, and 0 in the others. -/
def maskOf (s : State) (c : Cursor) (cl : Nat) (f : Nat → Bool) : BitVec 16 :=
  BitVec.ofNat 16 ((s.active c cl).foldl (fun n j => if f j then n + 2 ^ j else n) 0)

/-- `kmov`'s value. -/
def maskMove (f : KOp) (a b top : BitVec 16) : BitVec 16 :=
  match f with
  | .mov => a
  | .and => a &&& b
  | .or => a ||| b
  | .xor => a ^^^ b
  | .andn => a &&& ~~~b
  | .not => ~~~a
  | .top => top

end Sys2Proof.Claims

/-- R302, R303: `wait` passes, without effect, once the counters it names are no higher than n and the accesses it covers have
completed without a cause; while a counter is higher it is held; a covered access that left a cause traps with it. -/
def Obligations.WaitHoldsForCounters : Prop :=
  ∀ (s : State) (c : Cursor) (ld st : Bool) (n : Fin 256), Acts s c [] →
    let k := s.core c.core
    let loads := (k.outs.filter fun o => decide (o.bundle < c.bn) && o.ldPend).length
    let stores := (k.outs.filter fun o => decide (o.bundle < c.bn) && o.stPend).length
    let covered := k.outs.filter (k.covers c.bn ld st n.val)
    ((ld = true → loads ≤ n.val) → (st = true → stores ≤ n.val) →
      (∀ o ∈ covered, (ld = true → o.ldPend = false) ∧ (st = true → o.stPend = false)) →
      ((∀ o ∈ covered, o.trap = none) → exec (.wait ld st n) s = .next s) ∧
      ∀ o cause v, covered.find? (fun o => o.trap.isSome) = some o → o.trap = some (cause, v) →
        exec (.wait ld st n) s = .next (trapped
          (s.modCore c.core fun k => { k with outs := k.outs.filter fun x => x.id ≠ o.id }) c cause v)) ∧
    ((ld = true ∧ n.val < loads) ∨ (st = true ∧ n.val < stores) →
      exec (.wait ld st n) s = .next (heldBy s c .wait))

/-- R95, R308, R310, R315, R317, R333: `fwait`, `twait`, `barw` and `vwait` block their class until the flag is 1, the token has left pending,
the phase has changed, the version is reached; then they raise `ltime` to the time they observe, and `twait` writes d. A blocked
`twait`, `barw` or `vwait` stays behind while the other classes go on, and returns in the same way later; a `vwait` on a package that
does not answer traps with REMOTE (R297), and one on a word that cannot be read with UNCORRECTABLE (R333). That a class stays behind by free choice, and that an operation which is tried again is held, are
the model's choices (log 7). -/
def Obligations.WaitsObserve : Prop :=
  (∀ (s : State) (c : Cursor) (clear : Bool) (f : Fin 32), Acts s c [.flag f.val] →
    let x := c.flag0 (s.core c.core) f.val
    (x.set = false → exec (.fwait clear f) s = .next (heldBy s c .fwait)) ∧
    (x.set = true → ∃ t, exec (.fwait clear f) s = .next t ∧ (t.core c.core).ltime = Nat.max (s.core c.core).ltime x.time % 2 ^ 64 ∧
      (clear = true → c.sets = [] → ((t.core c.core).flag f.val).set = false) ∧
      (clear = false → (t.core c.core).flags = (s.core c.core).flags))) ∧
  (∀ (s : State) (c : Cursor) (d : Reg) (t : Tok), Acts s c [.s d.val, .tok t.val] →
    let back (x : Token) : State :=
      (s.modCore c.core fun k => k.observeTok (Nat.max c.bn (k.bn - 1)) t.val x).put c 1 (.scalar d.val (twaitValue t.val x) false)
    (staysBehind s c = true → exec (.twait d t) s = .next (s.slip c (.twait d.val (c.ref t.val)))) ∧
    (staysBehind s c = false → (c.token t.val).state = .pending →
      exec (.twait d t) s = .next (blockedBy s c .twait (.twait d.val (c.ref t.val)))) ∧
    (staysBehind s c = false → (c.token t.val).state ≠ .pending → exec (.twait d t) s = .next (back (c.token t.val))) ∧
    ∀ (r : TokRef) (x : Token), r.tok = t.val → r.st = some x →
      s.takeSlip c.core { cls := .a, cur := c, op := .twait d.val r } = some (back x)) ∧
  (∀ (s : State) (c : Cursor) (p : Reg) (b : Fin 16), Acts s c [.s p.val, .bar b.val] → Clean s c [p] →
    let x := kget Barrier.none (s.core c.core).barriers b.val
    let phase := (val s c p).toNat % 2 ^ 32
    (staysBehind s c = true → exec (.barw p b) s = .next (s.slip c (.barw b.val phase))) ∧
    (staysBehind s c = false → x.phase = phase → exec (.barw p b) s = .next (blockedBy s c .barw (.barw b.val phase))) ∧
    let back := s.modCore c.core fun k => (k.raise x.doneT).seenPhase b.val x.phase
    (staysBehind s c = false → x.phase ≠ phase → exec (.barw p b) s = .next back ∧
      (back.core c.core).ltime = Nat.max (s.core c.core).ltime x.doneT % 2 ^ 64) ∧
    (x.phase ≠ phase → s.takeSlip c.core { cls := .a, cur := c, op := .barw b.val phase } = some back)) ∧
  (∀ (s : State) (c : Cursor) (a v : Reg) (k p : Nat), Acts s c (sUses [a, v]) → Clean s c [a, v] →
    ((val s c a).toNat / 2 ^ 60 = 0 ∨ (val s c a).toNat / 2 ^ 60 = 0xC) →
    checkEach s c.core c.slot.index .slots .read [(val s c a, 8, 64)] = none → s.oddPhys c.core 8 [val s c a] = none →
    (s.placeOf c.core .read (val s c a) 8).1 = .far k p → s.lost k = true →
      exec (.vwait a v) s = .next (trapped s c .remote (BitVec.ofNat 64 k))) ∧
  ∀ (s : State) (c : Cursor) (a v : Reg) (p : Nat), Acts s c (sUses [a, v]) → Clean s c [a, v] →
    ((val s c a).toNat / 2 ^ 60 = 0 ∨ (val s c a).toNat / 2 ^ 60 = 0xC) →
    checkEach s c.core c.slot.index .slots .read [(val s c a, 8, 64)] = none → s.oddPhys c.core 8 [val s c a] = none →
    (s.placeOf c.core .read (val s c a) 8).1 = .phys p →
      let x := (val s c v).toNat % 2 ^ 48
      let now := leNat (s.ms.read p 8) % 2 ^ 48
      let back := s.modCore c.core fun k => k.raise (s.ms.time (p / 64)).1
      let sound : Prop := s.ms.spoiltAt (.phys p) 8 = none
      (∀ q, s.ms.spoiltAt (.phys p) 8 = some q → exec (.vwait a v) s = .next (trapped s c .uncorrectable (BitVec.ofNat 64 q))) ∧
      (sound → staysBehind s c = true → exec (.vwait a v) s = .next (s.slip c (.vwait (.phys p) x))) ∧
      (sound → staysBehind s c = false → now < x → exec (.vwait a v) s = .next (blockedBy s c .vwait (.vwait (.phys p) x))) ∧
      (sound → staysBehind s c = false → x ≤ now → exec (.vwait a v) s = .next back) ∧
      (x ≤ leNat (s.ms.read (s.ms.forward p) 8) % 2 ^ 48 →
        s.takeSlip c.core { cls := .a, cur := c, op := .vwait (.phys p) x } =
          some (s.modCore c.core fun k => k.raise (s.ms.time (s.ms.forward p / 64)).1))

/-- R309 to R311: `fset` sets an own flag at once, with the clock's time, or sends a set to another core of the cluster that
runs a task of the context; `fclr` clears a flag that its bundle does not set. -/
def Obligations.FlagsSetAndClear : Prop :=
  (∀ (s : State) (c : Cursor) (x : Reg) (f : Fin 32), Acts s c [.flag f.val] →
    ∃ t, exec (.fset false x f) s = .next t ∧ ((t.core c.core).flag f.val).set = true ∧
      ((t.core c.core).flag f.val).time = Nat.max ((s.core c.core).flag f.val).time (s.core c.core).ltime) ∧
  (∀ (s : State) (c : Cursor) (x : Reg) (f : Fin 32), Acts s c [.s x.val, .flag f.val] → Clean s c [x] →
    let dst := peer c.core (val s c x).toNat
    isFw c.core = false → s.runsTask dst (s.core c.core).ctx = true →
      (Use.flag f.val).over ((s.core dst).csrNow 0x060) = false →
      exec (.fset true x f) s = .next (s.sendAfter c.core dst ((s.core c.core).beforeSync (s.core c.core).lastSync) (.flag f.val 0))) ∧
  ∀ (s : State) (c : Cursor) (f : Fin 32), Acts s c [.flag f.val] → c.sets = [] →
    ∃ t, exec (.fclr f) s = .next t ∧ ((t.core c.core).flag f.val).set = false ∧
      ∀ g, g ≠ f.val → (t.core c.core).flag g = (s.core c.core).flag g

/-- R36, R102, R242, R243: `nop` changes nothing; `tend` makes what accesses have left, ends the loops and lands the held writes, and
the core takes its next coordinate, with its mask stacks, sequencer and watchdog as at a task's start, or waits to leave its gang; `yield`
clears the watchdog and ends at once, the task going on at the next bundle, unless a waiting launch that outranks the running one needs the
core: then the core halts and the launch is being pre-empted. -/
def Obligations.TasksEndAndYield : Prop :=
  (∀ s : State, exec .nop s = .next s) ∧
  (∀ (s : State) (c : Cursor), Acts s c [] →
    let s1 := (s.flushLate c.core).modCore c.core fun k => ({ k with loops := [] }).landAll.markTend
    let landed := ((s.flushLate c.core).core c.core).landAll
    (∀ r, r ≠ 0 → landed.sbase r = ((s.flushLate c.core).core c.core).sread (fun _ => true) r) ∧
    (s1.launch (s1.core c.core).lid = none → ∃ t, exec .tend s = .next t ∧ (t.core c.core).run = .ending ∧
      (t.core c.core).finalWait = true ∧ WritesLanded (t.core c.core) landed) ∧
    (∀ l s2, s1.launch (s1.core c.core).lid = some l → s1.nextCoord l c.core = (none, s2) →
      ∃ t, exec .tend s = .next t ∧ (t.core c.core).run = .ending ∧ (t.core c.core).finalWait = true ∧
        WritesLanded (t.core c.core) landed) ∧
    ∀ l n s2, s1.launch (s1.core c.core).lid = some l → s1.nextCoord l c.core = (some n, s2) →
      ∃ t, exec .tend s = .next t ∧ (t.core c.core).run = .running ∧ (t.core c.core).pc = l.desc.entry ∧
        kget 0 (t.core c.core).csr 0 = l.coord n ∧ WritesLanded (t.core c.core) landed ∧ (t.core c.core).strides = [] ∧
        (t.core c.core).mdepth = [] ∧ (t.core c.core).mstack = [] ∧ (t.core c.core).wdogCount = 0 ∧
        (t.core c.core).wdogSeen = 0 ∧ (t.core c.core).hold = .none ∧ (t.core c.core).closing = none) ∧
  ∀ (s : State) (c : Cursor), Acts s c [] →
    let goesOn : State := { s.modCore c.core fun k => { k with wdogCount := 0, wdogSeen := 0 } with cur := some { c with post := .yield } }
    (s.launch (s.core c.core).lid = none → exec .yield s = .next goesOn) ∧
    ∀ l, s.launch (s.core c.core).lid = some l →
      (l.state ≠ .running → exec .yield s = .next goesOn) ∧
      (l.state = .running → (s.modCore c.core fun k => { k with wdogCount := 0, wdogSeen := 0 }).wanted c.core l = false →
        exec .yield s = .next goesOn) ∧
      (l.state = .running → (s.modCore c.core fun k => { k with wdogCount := 0, wdogSeen := 0 }).wanted c.core l = true →
        ∃ t, exec .yield s = .next t ∧ (t.core c.core).run = .halted ∧ (t.core c.core).haltCycle = s.cycle ∧
          (t.core c.core).wdogCount = 0 ∧ t.launch l.lid = some { l with state := .preempting })

/-- R116, R119, R123, R124, R132: the integer lane operations. -/
def Obligations.VectorIntegerLanes : Prop :=
  ∀ (i : Instr) (s : State) (c : Cursor) (d : Reg) (rs : List Reg) (f : List W32 → W32 × Nat),
    laneInteger i = some (d, rs, f) → Acts s c (vUses (d :: rs)) →
      exec i s = .next (vectorNext s c 2 d.val (fun cl => rs.any fun r => s.vf c cl r.val)
        fun cl j => f (rs.map fun r => s.vr c cl r.val j))

/-- R116, R119, R126 to R129, R132, R133: the float lane operations of the V slots and the functions of the F slot. -/
def Obligations.VectorFloatLanes : Prop :=
  ∀ (i : Instr) (s : State) (c : Cursor) (d : Reg) (rs : List Reg) (lat : Nat) (f : List W32 → W32 × Nat),
    laneFloat i = some (d, rs, lat, f) → Acts s c (vUses (d :: rs)) →
      exec i s = .next (vectorNext s c lat d.val (fun cl => rs.any fun r => s.vf c cl r.val)
        fun cl j => f (rs.map fun r => s.vr c cl r.val j))

/-- R116, R124, R134: constants, broadcasts, selections, permutes and table lookups; `vext` reads one lane of the lowest enabled
cluster into a scalar. -/
def Obligations.VectorMovesAndPermutes : Prop :=
  (∀ (i : Instr) (s : State) (c : Cursor) (us : List Use) (d : Reg) (lat : Nat) (df : Nat → Bool) (op : Nat → Nat → W32),
    laneMove i s c = some (us, d, lat, df, op) → Acts s c us →
      exec i s = .next (vectorNext s c lat d.val df fun cl j => (op cl j, 0))) ∧
  (∀ (s : State) (c : Cursor) (d a : Reg) (lane : Fin 16) (sgn : Bool), Acts s c [.s d.val, .v a.val] →
    (s.enabled c = [] → exec (.vext d a lane sgn) s = .next (s.put c 2 (.scalar d.val 0 false))) ∧
    ∀ cl cls, s.enabled c = cl :: cls →
      exec (.vext d a lane sgn) s = .next (s.put c 2 (.scalar d.val
        (if sgn then BitVec.ofInt 64 (s.vr c cl a.val lane.val).toInt else BitVec.ofNat 64 (s.vr c cl a.val lane.val).toNat)
        (s.vf c cl a.val)))) ∧
  ∀ (s : State) (c : Cursor) (d a b : Reg),
    let table := (List.range 16).map fun j => b.val + j
    Acts s c (vUses [d, a] ++ table.map .v) → (∀ cl ∈ s.enabled c, s.vf c cl a.val = false) →
      exec (.flut d a b) s = .next (vectorNext s c 8 d.val (fun cl => s.vf c cl a.val || table.any fun r => s.vf c cl r)
        fun cl j => (s.vr c cl (b.val + (s.vr c cl a.val j).toNat % 256 / 16) ((s.vr c cl a.val j).toNat % 256 % 16), 0))

/-- R125, R130, R131: packing and unpacking under a valid descriptor, reductions and scans; an invalid descriptor or code
position traps with ILLEGAL_SLOT_OP, defect 5. -/
def Obligations.VectorPackAndReduce : Prop :=
  (∀ (s : State) (c : Cursor) (d a : Reg) (i : Fin 16) (nf : Fin 4) (int : Bool) (w : Nat), Acts s c (vUses [d, a]) →
    nfWidth (s.nf c nf) = some w →
      (nfValid (s.nf c nf) = true → i.val < 32 / w →
        exec (.vpack d a i nf int) s = .next (vectorNext s c 4 d.val (fun cl => s.vf c cl a.val || s.vf c cl d.val) fun cl l =>
          (insertCode w i.val (s.vr c cl d.val l) (packCode (s.nf c nf) w int (s.vr c cl a.val l)).1,
            (packCode (s.nf c nf) w int (s.vr c cl a.val l)).2)) ∧
        exec (.vunpack d a i nf) s = .next (vectorNext s c 4 d.val (fun cl => s.vf c cl a.val) fun cl l =>
          unpackCode (s.nf c nf) w ((s.vr c cl a.val l).toNat / 2 ^ (w * i.val) % 2 ^ w))) ∧
      (¬(nfValid (s.nf c nf) = true ∧ i.val < 32 / w) →
        exec (.vpack d a i nf int) s = .next (trapped s c .illegalSlotOp (slotTval c 5)) ∧
        exec (.vunpack d a i nf) s = .next (trapped s c .illegalSlotOp (slotTval c 5)))) ∧
  (∀ (s : State) (c : Cursor) (d a : Reg) (f : RedOp), Acts s c [.s d.val, .v a.val] →
    let xs := (s.enabled c).flatMap fun cl => (s.active c cl).map fun j => s.vr c cl a.val j
    exec (.vred d a f) s = .next ((s.put c (redLat f) (.scalar d.val (redWiden f (combine f xs).1)
      ((s.enabled c).any fun cl => s.vf c cl a.val))).flag c (redLat f) (BitVec.ofNat 64 (combine f xs).2))) ∧
  ∀ (s : State) (c : Cursor) (d a : Reg) (f : RedOp), Acts s c (vUses [d, a]) →
    exec (.vscan d a f) s = .next (vectorNext s c (redLat f) d.val (fun cl => s.vf c cl a.val) fun cl j =>
      combine f (((s.active c cl).filter fun l => decide (l ≤ j)).map fun l => s.vr c cl a.val l))

/-- R114, R118, R120 to R122, R168: compares write masks, 0 in inactive lanes; `kmov` on all lanes; the mask stack pushes,
inverts and pops, and traps with defect 6 when full and 7 when empty; `vcm`, `fcm` and `mcm` write a cluster mask. -/
def Obligations.MasksAndMaskStack : Prop :=
  (∀ (s : State) (c : Cursor) (a b : Reg) (kd : KReg), Acts s c (vUses [a, b]) →
    (∀ r ∈ [a, b], ∀ cl ∈ s.enabled c, s.vf c cl r.val = false) →
      (∀ cd, exec (.vcmp cd kd a b) s = .next (s.puts c 2 ((s.enabled c).map fun cl =>
        .mask cl kd.val (maskOf s c cl fun j => condHolds32 cd (s.vr c cl a.val j) (s.vr c cl b.val j))))) ∧
      ∀ cd k, exec (.vfcmp cd kd a b k) s = .next (s.puts c 4 ((s.enabled c).map fun cl =>
        .mask cl kd.val (maskOf s c cl fun j => fcmpLane cd k (s.vr c cl a.val j) (s.vr c cl b.val j))))) ∧
  (∀ (s : State) (c : Cursor) (kd ka kb : KReg) (f : KOp), Acts s c [] →
    exec (.kmov kd ka kb f) s = .next (s.puts c 2 ((s.enabled c).map fun cl =>
      .mask cl kd.val (maskMove f (s.kr c cl ka.val) (s.kr c cl kb.val) (s.top c cl))))) ∧
  (∀ (s : State) (c : Cursor) (k : KReg), Acts s c [] →
    ((∀ cl ∈ s.enabled c, (s.stack c cl).1 ≠ 15) → exec (.mpush k) s = .next (s.puts c 2 ((s.enabled c).map fun cl =>
      .mstack cl ((s.stack c cl).1 + 1) (kput (s.stack c cl).2 ((s.stack c cl).1 + 1) (s.kr c cl k.val &&& s.top c cl))))) ∧
    ((∃ cl ∈ s.enabled c, (s.stack c cl).1 = 15) →
      exec (.mpush k) s = .next (trapped s c .illegalSlotOp (slotTval c 6)))) ∧
  (∀ (s : State) (c : Cursor), Acts s c [] →
    ((∀ cl ∈ s.enabled c, (s.stack c cl).1 ≠ 0) →
      exec .minv s = .next (s.puts c 2 ((s.enabled c).map fun cl => .mstack cl (s.stack c cl).1 (kput (s.stack c cl).2
        (s.stack c cl).1 (stackEntry (s.stack c cl) ((s.stack c cl).1 - 1) &&& ~~~(s.top c cl))))) ∧
      exec .mpop s = .next (s.puts c 2 ((s.enabled c).map fun cl =>
        .mstack cl ((s.stack c cl).1 - 1) (s.stack c cl).2))) ∧
    ((∃ cl ∈ s.enabled c, (s.stack c cl).1 = 0) →
      exec .minv s = .next (trapped s c .illegalSlotOp (slotTval c 7)) ∧
      exec .mpop s = .next (trapped s c .illegalSlotOp (slotTval c 7)))) ∧
  ∀ (s : State) (c : Cursor) (m : BitVec 8), Acts s c [] →
    (∀ j : Fin 4, exec (.vcm j m) s = .next (s.put c 2 (.csr (0x028 + j.val) (BitVec.ofNat 64 m.toNat)))) ∧
    exec (.fcm m) s = .next (s.put c 8 (.csr 0x02B (BitVec.ofNat 64 m.toNat))) ∧
    ∀ j : Fin 4, exec (.mcm j m) s = .next (s.put c 1 (.csr (0x02C + j.val) (BitVec.ofNat 64 m.toNat)))

namespace Sys2Proof.Claims

/-! ### Memory slots (R155 to R166, R301) -/

/-- A load: declarations, registers and vector registers that must be clean, the size of each item, the addresses, and what the
access is besides its parts. -/
def loadForm (i : Instr) (s : State) (c : Cursor) : Option (List Use × List Reg × List Reg × Nat × List W64 × Outstanding) :=
  let scalar (d a : Reg) (sz : MemSize) (off : BitVec 32) (f : Outstanding → Outstanding) :=
    some (sUses [d, a], [a], ([] : List Reg), szBytes sz, [baseAddr s c a off], f { newOut s c with dest := .scalar d.val (szSigned sz) })
  let vector (vd a : Reg) (idx : List Reg) (addr : Nat × Nat → W64) (f : Outstanding → Outstanding) :=
    some ([Use.v vd.val, .s a.val] ++ vUses idx, [a], idx, 4, (laneList s c).map addr, f { newOut s c with dest := vecDest s c vd })
  let acq (a : W64) (n : Nat) (sc : Scope) (o : Outstanding) : Outstanding :=
    { o with acq := if inOrder s c a n then some (scopeEmpties sc) else none }
  let spec (o : Outstanding) : Outstanding := { o with spec := true }
  match i with
  | .ld d a sz => scalar d a sz 0 id
  | .ldExt d a sz off => scalar d a sz off id
  | .lds d a sz => scalar d a sz 0 spec
  | .ldsExt d a sz off => scalar d a sz off spec
  | .ldAcq d a sz sc => scalar d a sz 0 (acq (baseAddr s c a 0) (szBytes sz) sc)
  | .ldAcqExt d a sz sc off => scalar d a sz off (acq (baseAddr s c a off) (szBytes sz) sc)
  | .vld vd a => vector vd a [] (laneAddr s c a 0 64) id
  | .vldExt vd a off stride => vector vd a [] (laneAddr s c a off (stride.getD 64)) id
  | .vldx vd a vb k => vector vd a [vb] (indexAddr s c a vb k.val 0) id
  | .vldxExt vd a vb k off => vector vd a [vb] (indexAddr s c a vb k.val off) id
  | .vlds vd a => vector vd a [] (laneAddr s c a 0 64) spec
  | .vldsExt vd a off stride => vector vd a [] (laneAddr s c a off (stride.getD 64)) spec
  | _ => none

/-- A store: the same, with the bytes stored at each address; `row` is the scope of a release. -/
def storeForm (i : Instr) (s : State) (c : Cursor) :
    Option (List Use × List Reg × List Reg × Nat × List (W64 × List Byte) × Option Scope) :=
  let scalar (d a : Reg) (sz : MemSize) (off : BitVec 32) (row : Option Scope) :=
    some (sUses [d, a], [a, d], ([] : List Reg), szBytes sz,
      [(baseAddr s c a off, leBytes (szBytes sz) (val s c d).toNat)], row)
  let vector (vd a : Reg) (idx : List Reg) (addr : Nat × Nat → W64) :=
    some ([Use.v vd.val, .s a.val] ++ vUses idx, [a], idx ++ [vd], 4,
      (laneList s c).map fun l => (addr l, leBytes 4 (s.vr c l.1 vd.val l.2).toNat), (none : Option Scope))
  match i with
  | .st d a sz => scalar d a sz 0 none
  | .stExt d a sz off => scalar d a sz off none
  | .stRel d a sz sc => scalar d a sz 0 (some sc)
  | .stRelExt d a sz sc off => scalar d a sz off (some sc)
  | .vst vd a => vector vd a [] (laneAddr s c a 0 64)
  | .vstExt vd a off stride => vector vd a [] (laneAddr s c a off (stride.getD 64))
  | .vstx vd a vb k => vector vd a [vb] (indexAddr s c a vb k.val 0)
  | .vstxExt vd a vb k off => vector vd a [vb] (indexAddr s c a vb k.val off)
  | _ => none

/-- An atomic: declarations, clean registers, clean vector registers, size, each address with its read-modify-write, and the
destination. -/
def atomicForm (i : Instr) (s : State) (c : Cursor) :
    Option (List Use × List Reg × List Reg × Nat × List (W64 × Rmw) × LoadDest) :=
  let size (dbl : Bool) : Nat := if dbl then 8 else 4
  match i with
  | .amo d a b f dbl => some (sUses [d, a, b], [a, b], [], size dbl, [(val s c a, .amo f (val s c b))], .scalar d.val true)
  | .cas d a b r dbl =>
    some (sUses [d, a, b, r], [a, b, r], [], size dbl, [(val s c a, .cas (val s c b) (val s c r))], .scalar d.val true)
  | .vamo vd a vb f => some ([.v vd.val, .s a.val, .v vb.val], [a], [vb, vd], 4,
      (laneList s c).map fun l => (indexAddr s c a vb 2 0 l, .amo f (BitVec.ofNat 64 (s.vr c l.1 vd.val l.2).toNat)), vecDest s c vd)
  | _ => none

/-- The vector registers carry no deferred fault in the enabled clusters. -/
def CleanV (s : State) (c : Cursor) (rs : List Reg) : Prop := ∀ r ∈ rs, ∀ cl ∈ s.enabled c, s.vf c cl r.val = false

/-- Ordinary addresses: every one passes the checks of R155, and none names a missing address. -/
def Reaches (s : State) (c : Cursor) (acc : Access) (n : Nat) (as : List W64) : Prop :=
  checkEach s c.core c.slot.index .slots acc (as.map fun a => (a, n, n)) = none ∧ s.oddPhys c.core n as = none

/-- The M class has still to dispatch an earlier access, or its scheduler leaves this one behind the other classes (R95). -/
def Lags (s : State) (c : Cursor) : Prop := c.atOnce = false ∧ (c.lag = true ∨ (s.core c.core).lags .m = true)

/-- The M class dispatches now and makes every piece at once: nothing of it lags, no piece of an access is left for later, no scratch way
moves, and no acquire of an earlier bundle is open (R95, R166, R170, R206, R330). -/
def Prompt (s : State) (c : Cursor) : Prop :=
  (c.atOnce = true ∨ (c.lag = false ∧ (s.core c.core).lags .m = false)) ∧ c.split = false ∧ (s.core c.core).late = [] ∧
    s.ms.migration = none ∧ ∀ o ∈ (s.core c.core).outs, o.ldPend = true → o.acq.isSome = true → c.bn ≤ o.bundle

/-- An access stays behind the other classes, to be checked and made when its class comes to it; its destination is noted (R95, R155). -/
def lagging (s : State) (c : Cursor) (n : Nat) (as : List W64) (dest : LoadDest) : State :=
  (s.fillFor c.core n as).slip c (.access c.op dest)

/-- Every address lies in a typed buffer of the core itself. -/
def AllOwn (s : State) (c : Cursor) (acc : Access) (n : Nat) (as : List W64) : Prop :=
  ∀ a ∈ as, (s.piece c.core acc n a).isOwn = true

/-- The place of an address's piece, where a migration has put it. -/
def placeOf (s : State) (c : Cursor) (acc : Access) (n : Nat) (a : W64) : Place := ((s.piece c.core acc n a).forward s.ms).place

/-- The core reaches the address's piece itself, at its own buffer port or at the home in this package's DRAM or scratch: not through the
cluster network, the fabric or control space. -/
def Local (s : State) (c : Cursor) (acc : Access) (n : Nat) (a : W64) : Prop :=
  match viaOf (s.piece c.core acc n a).sp (placeOf s c acc n a), placeOf s c acc n a with
  | .own, _ => True
  | .home, .phys p => isControl p = false ∧ p % 64 + n ≤ 64
  | _, _ => False

/-- One byte at a place reads as in another state. -/
def SameByte (s t : State) (p : Place) : Prop := t.readPlace p 1 = s.readPlace p 1

/-- Memory in its canonical form: the home's, whose lines have 64 bytes, and the core's typed buffers. -/
def TidyMemory (s : State) (core : Nat) : Prop :=
  Memory.wf s.ms.mem ∧ (∀ e ∈ s.ms.lines, e.2.data.length = 64) ∧
    Memory.wf (s.core core).wbuf ∧ Memory.wf (s.core core).abuf ∧ Memory.wf (s.core core).rbuf

/-- The byte at a place after stores in order: the last store that covers it prevails (R163). -/
def byteAfter (s : State) (ps : List (Place × List Byte)) (x : Place) : Byte :=
  (ps.reverse.findSome? fun e => match x.minus e.1 with
    | some d => if 0 ≤ d then e.2[d.toNat]? else none
    | none => none).getD ((s.readPlace x 1).headD 0)

/-- Read-modify-writes of `n` bytes one after another: the old value of each, and the state with what they leave (R165, R166). -/
def rmwAll (n : Nat) : List (Place × Rmw) → State → List (List Byte) × State
  | [], s => ([], s)
  | (p, m) :: rest, s =>
    let old := s.readPlace p n
    let after := rmwAll n rest (match m.apply n old with | some new => s.writePlace p new | none => s)
    (old :: after.1, after.2)

/-- The pieces of a store. -/
def storePieces (s : State) (c : Cursor) (n : Nat) (as : List (W64 × List Byte)) : List Todo :=
  as.mapIdx fun i a => { ix := i, n := n, piece := s.piece c.core .write n a.1, op := .store a.2 }

/-- The scope under which a store waits: on global memory and scratch that of a release (R206). -/
def scopeOf (s : State) (c : Cursor) (n : Nat) (as : List (W64 × List Byte)) (row : Option Scope) : Option Scope :=
  if as.all fun a => inOrder s c a.1 n then row else none

/-- The accesses that a store waits for. -/
def waitsFor (s : State) (c : Cursor) (sc : Option Scope) : List Nat :=
  match sc with
  | some x => s.rowOf c.core c.bn x
  | none => []

/-- The causes that a speculative load defers (R164). -/
def defers : List Cause := [.addressSpace, .bufferRight, .protection, .alignment, .translation, .remote]

/-- A deferred result: it returns as a load does where the address names global memory, a remote buffer or scratch, else it is written
with L = 6 (R164). -/
def deferred (s : State) (c : Cursor) (ad : W64) (ws : List WriteTo) : State :=
  if ad.toNat / 2 ^ 60 = 0 ∨ ad.toNat / 2 ^ 60 = 0xB ∨ ad.toNat / 2 ^ 60 = 0xC then
    s.addOut c.core { newOut s c with ldPend := true, dest := .fixed ws, spec := true }
  else s.puts c 6 ws

/-- R164 of `lds`: 0 with DF 1 where the base carries a deferred fault or a check fails; a failing check that is not deferred traps. -/
def ScalarDefers : Prop :=
  ∀ (s : State) (c : Cursor) (d a : Reg) (sz : MemSize) (off : BitVec 32), Acts s c (sUses [d, a]) →
    let ad := baseAddr s c a off
    let check := checkEach s c.core c.slot.index .slots .read [(ad, szBytes sz, szBytes sz)]
    let both (x : State) : Prop := exec (.ldsExt d a sz off) s = .next x ∧ (off = 0 → exec (.lds d a sz) s = .next x)
    (Prompt s c → (s.core c.core).ld < 256 → ((s.sr c a.val).df = true ∨ ∃ e, check = some e ∧ e.1 ∈ defers) →
      both (deferred s c ad [.scalar d.val 0 true])) ∧
    ∀ e, (s.sr c a.val).df = false → check = some e → e.1 ∉ defers → both (trapped s c e.1 e.2)

/-- R164 of `vlds`: each enabled cluster with active lanes that would fault gets 0 with DF 1, the others load. -/
def VectorDefers : Prop :=
  ∀ (s : State) (c : Cursor) (vd a : Reg) (off : BitVec 32) (stride : Option (BitVec 32)) (bad : Nat → Bool),
    let lanes (cl : Nat) : List W64 := (s.active c cl).map fun i => laneAddr s c a off (stride.getD 64) (cl, i)
    let check (cl : Nat) : Option Failed := checkEach s c.core c.slot.index .slots .read ((lanes cl).map fun x => (x, 4, 4))
    let good := (s.enabled c).filter fun cl => !bad cl
    let zeros := (s.enabled c).filter bad
    let as := good.flatMap lanes
    let dest : LoadDest := .vector vd.val (good.map fun cl => (cl, s.active c cl, s.top c cl != 0xFFFF && s.vf c cl vd.val))
      (zeros.map fun cl => (cl, s.active c cl))
    let both (x : State) : Prop :=
      exec (.vldsExt vd a off stride) s = .next x ∧ (off = 0 → stride = none → exec (.vlds vd a) s = .next x)
    Acts s c [.v vd.val, .s a.val] → Prompt s c →
    (∀ cl ∈ s.enabled c, bad cl = true ↔ (s.active c cl ≠ [] ∧
      ((s.sr c a.val).df = true ∨ ∃ e, check cl = some e ∧ e.1 ∈ defers))) →
    (∀ cl ∈ s.enabled c, bad cl = false → check cl = none) →
      (∀ cl ∈ zeros, ∀ ds, .vector cl vd.val ((s.active c cl).map fun i => (i, 0)) true ∈ dest.writes ds) ∧
      (as = [] → zeros ≠ [] → (s.core c.core).ld < 256 →
        both (deferred s c ((zeros.flatMap lanes).headD 0) (dest.writes []))) ∧
      (as ≠ [] → s.oddPhys c.core 4 as = none →
        (AllOwn s c .read 4 as → both (s.puts c 6 (dest.writes (as.map fun x =>
          s.loadOwn c (oneUnit (s.loads c.core 4 false as)) (placeOf s c .read 4 x) 4)))) ∧
        (¬AllOwn s c .read 4 as → (s.core c.core).ld < 256 → (s.core c.core).storesOpen c.bn = false →
          ∃ (t : State) (parts : List Part), parts.length = as.length ∧
            both (t.addOut c.core { newOut s c with ldPend := true, dest := dest, spec := true, parts := parts })))

end Sys2Proof.Claims

/-- R95, R156, R160 to R164, R206, R301: a load that passes its checks reads its own buffers at once, with L = 6: its registers get the
bytes that stand there, extended or lane by lane. With any other address it raises ld by one and leaves an outstanding access with a
part for each item; the parts in the core's own buffers and in this package's memory hold the bytes that stand there. A load
whose class lags stays behind. A speculative load whose base carries a deferred fault, or whose address fails a check that R164 names,
leaves 0 with DF 1: that it then returns as a load does, L = 6 for an address of no such space, and that the first faulting lane's address
decides for `vlds`, is the model's reading (log 19). That a class lags by free choice is the model's choice (log 7). The choices of R157
and R159, and a copy in the load buffer, are left out of the values of the parts. -/
def Obligations.LoadsComplete : Prop :=
  ScalarDefers ∧ VectorDefers ∧ ∀ (i : Instr) (s : State) (c : Cursor) (us : List Use) (rs vs : List Reg) (n : Nat) (as : List W64) (o : Outstanding),
    loadForm i s c = some (us, rs, vs, n, as, o) → Acts s c us → Clean s c rs → CleanV s c vs → Reaches s c .read n as →
      (Lags s c → exec i s = .next (lagging s c n as o.dest)) ∧
      (Prompt s c → AllOwn s c .read n as →
        exec i s = .next (s.puts c 6 (o.dest.writes (as.map fun a =>
          s.loadOwn c (oneUnit (s.loads c.core n false as)) (placeOf s c .read n a) n))) ∧
        (c.mw = [] → (s.core c.core).hist = [] →
          exec i s = .next (s.puts c 6 (o.dest.writes (as.map fun a => s.readPlace (placeOf s c .read n a) n))))) ∧
      (Prompt s c → ¬AllOwn s c .read n as → (s.core c.core).ld < 256 → (s.core c.core).storesOpen c.bn = false →
        ∃ (t : State) (parts : List Part), exec i s = .next (t.addOut c.core { o with ldPend := true, parts := parts }) ∧
          parts.length = as.length ∧ (t.core c.core).writes = (s.core c.core).writes ∧
          (t.core c.core).sregs = (s.core c.core).sregs ∧ (t.core c.core).outs = (s.core c.core).outs ∧
          (Memory.wf s.ms.mem → ∀ p, SameByte s t p) ∧
          ∀ (j : Nat) (a : W64), as[j]? = some a → ∃ p, parts[j]? = some p ∧ p.place = placeOf s c .read n a ∧ p.n = n ∧
            (Local s c .read n a → c.mw = [] → (s.core c.core).hist = [] → (s.core c.core).loadBuf = [] → Memory.wf s.ms.mem →
              p.done = true ∧ p.data = s.readPlace p.place n))

/-- R95, R156, R160, R162, R163, R204 to R206: a store that passes its checks leaves its bytes, lane by lane, at the addresses it names in the
core's own buffers and in this package's memory, a higher lane prevailing over a lower one (for `vstx` by R163; for `vst` with
overlapping lanes the model's choice, log 17), and every other byte as before; other places get theirs by packets. With an address outside the own buffers it raises st by one. A release whose scope's row names
unacknowledged accesses stores nothing yet: it is kept, unsent, with its bytes. A store whose class lags stays behind, by free choice as the
model has it (log 7). -/
def Obligations.StoresComplete : Prop :=
  ∀ (i : Instr) (s : State) (c : Cursor) (us : List Use) (rs vs : List Reg) (n : Nat) (as : List (W64 × List Byte))
    (row : Option Scope),
    storeForm i s c = some (us, rs, vs, n, as, row) → Acts s c us → Clean s c rs → CleanV s c vs →
      Reaches s c .write n (as.map fun a => a.1) →
      let sc := scopeOf s c n as row
      let o : Outstanding := { newOut s c with stPend := true, scope := sc }
      (Lags s c → exec i s = .next (lagging s c n (as.map fun a => a.1) .none)) ∧
      (Prompt s c → (s.core c.core).st < 256 → waitsFor s c sc ≠ [] →
        let ts := (storePieces s c n as).map fun t => { t with piece := t.piece.forward s.ms }
        let o1 : Outstanding := { o with rel := waitsFor s c sc, parts := ts.map Todo.part }
        exec i s = .next (((s.fillFor c.core n (as.map fun a => a.1)).addOut c.core o1).modCore c.core fun k =>
          { k with late := k.late ++ [{ cur := { c with mw := [] }, o := o1, todo := ts }] })) ∧
      (Prompt s c → waitsFor s c sc = [] → (AllOwn s c .write n (as.map fun a => a.1) ∨ (s.core c.core).st < 256) →
        ∃ u : State, exec i s = .next u ∧
          (u.core c.core).writes = (s.core c.core).writes ∧ (u.core c.core).sregs = (s.core c.core).sregs ∧
          (AllOwn s c .write n (as.map fun a => a.1) → (u.core c.core).outs = (s.core c.core).outs) ∧
          (¬AllOwn s c .write n (as.map fun a => a.1) → ∃ (t : State) (parts : List Part) (time : Nat),
            u = t.addOut c.core { o with parts := parts, time := time } ∧ (t.core c.core).outs = (s.core c.core).outs ∧
            ∀ (j : Nat) (a : W64 × List Byte), as[j]? = some a → ∃ p, parts[j]? = some p ∧
              p.place = placeOf s c .write n a.1 ∧ p.n = n ∧ p.data = a.2 ∧ (Local s c .write n a.1 → p.done = true)) ∧
          (c.mw = [] → TidyMemory s c.core → (∀ a ∈ as, Local s c .write n a.1) →
            ∀ x, u.readPlace x 1 = [byteAfter s (as.map fun a => (placeOf s c .write n a.1, a.2)) x]))

/-- R157, R162, R187, R202: a scalar store, alone in its bundle, leaves its bytes at the address it names, in an own typed buffer
or in memory of the package, and every byte outside them, in every memory of the part, as before. -/
def Obligations.ScalarStoreWritesItsBytesOnly : Prop :=
  ∀ (s : State) (c : Cursor) (d a : Reg) (sz : MemSize) (off : BitVec 32), Acts s c (sUses [d, a]) → Clean s c [a, d] →
    c.mw = [] → Prompt s c → Reaches s c .write (szBytes sz) [baseAddr s c a off] →
      (∀ (b : Buf) (x : Nat), Memory.wf (s.core c.core).wbuf → Memory.wf (s.core c.core).abuf → Memory.wf (s.core c.core).rbuf →
        s.space c.core (baseAddr s c a off) (szBytes sz) = .own b x →
          ∃ t : State, exec (.stExt d a sz off) s = .next t ∧ (off = 0 → exec (.st d a sz) s = .next t) ∧
            t.readPlace (.buf c.core b x) (szBytes sz) = leBytes (szBytes sz) (val s c d).toNat ∧
            ∀ p, (∀ j < szBytes sz, p ≠ .buf c.core b (x + j)) → SameByte s t p) ∧
      ∀ p : Nat, Memory.wf s.ms.mem → (∀ e ∈ s.ms.lines, e.2.data.length = 64) →
        placeOf s c .write (szBytes sz) (baseAddr s c a off) = .phys p → isControl p = false → (s.core c.core).st < 256 →
          ∃ t : State, exec (.stExt d a sz off) s = .next t ∧ (off = 0 → exec (.st d a sz) s = .next t) ∧
            (∀ j < szBytes sz, t.ms.byte (p + j) = BitVec.ofNat 8 ((val s c d).toNat / 2 ^ (8 * j))) ∧
            (∀ q, (q < p ∨ p + szBytes sz ≤ q) → t.ms.byte q = s.ms.byte q) ∧
            ∀ i b x, SameByte s t (.buf i b x)

/-- R95, R165, R166: an atomic that passes its checks acts on its own buffers at once and writes the old values with L = 6; with any other
address it raises both counters. In the core's own buffers and in this package's memory the lanes act one after another, in global lane
order: each reads its old value and leaves F of it and its operand. An atomic whose class lags stays behind. -/
def Obligations.AtomicsComplete : Prop :=
  ∀ (i : Instr) (s : State) (c : Cursor) (us : List Use) (rs vs : List Reg) (n : Nat) (as : List (W64 × Rmw)) (d : LoadDest),
    atomicForm i s c = some (us, rs, vs, n, as, d) → Acts s c us → Clean s c rs → CleanV s c vs →
      Reaches s c .atomic n (as.map fun a => a.1) →
      let ps := as.map fun a => (placeOf s c .atomic n a.1, a.2)
      let o : Outstanding := { newOut s c with dest := d, ldPend := true, stPend := true }
      (Lags s c → exec i s = .next (lagging s c n (as.map fun a => a.1) d)) ∧
      (Prompt s c → AllOwn s c .atomic n (as.map fun a => a.1) →
        ∃ (t : State) (olds : List (List Byte)), exec i s = .next (t.puts c 6 (d.writes olds)) ∧
          olds.length = as.length ∧ (t.core c.core).writes = (s.core c.core).writes ∧
          (t.core c.core).outs = (s.core c.core).outs ∧
          (c.mw = [] → olds = (rmwAll n ps s).1 ∧ ∀ x m, t.readPlace x m = (rmwAll n ps s).2.readPlace x m)) ∧
      (Prompt s c → ¬AllOwn s c .atomic n (as.map fun a => a.1) → (s.core c.core).ld < 256 → (s.core c.core).st < 256 →
        ∃ (t : State) (parts : List Part) (time : Nat),
          exec i s = .next (t.addOut c.core { o with parts := parts, time := time }) ∧
          parts.length = as.length ∧ (t.core c.core).writes = (s.core c.core).writes ∧
          (t.core c.core).outs = (s.core c.core).outs ∧
          (c.mw = [] → TidyMemory s c.core → (∀ a ∈ as, Local s c .atomic n a.1) →
            (parts.map fun p => p.data) = (rmwAll n ps s).1 ∧ (∀ p ∈ parts, p.done = true) ∧
            ∀ x, t.readPlace x 1 = (rmwAll n ps s).2.readPlace x 1))

/-- R165: `amo` and `cas` on an own typed buffer, alone in the bundle: memory gets F of the old value and the operand, or the
new value where the old one is as expected, and d the old value sign-extended. -/
def Obligations.AtomicResults : Prop :=
  (∀ (s : State) (c : Cursor) (d a b : Reg) (f : AmoOp) (dbl : Bool) (buf : Buf) (x : Nat),
    let n := if dbl then 8 else 4
    Acts s c (sUses [d, a, b]) → Clean s c [a, b] → c.mw = [] → Prompt s c → Reaches s c .atomic n [val s c a] →
      s.space c.core (val s c a) n = .own buf x →
      Memory.wf (s.core c.core).wbuf → Memory.wf (s.core c.core).abuf → Memory.wf (s.core c.core).rbuf →
        let old := s.readPlace (.buf c.core buf x) n
        ∃ t : State, exec (.amo d a b f dbl) s = .next (t.put c 6 (.scalar d.val (sext64 (8 * n) (leNat old)) false)) ∧
          t.readPlace (.buf c.core buf x) n = leBytes n (amoValue f (8 * n) (leNat old) ((val s c b).toNat % 2 ^ (8 * n)))) ∧
  ∀ (s : State) (c : Cursor) (d a b r : Reg) (dbl : Bool) (buf : Buf) (x : Nat),
    let n := if dbl then 8 else 4
    Acts s c (sUses [d, a, b, r]) → Clean s c [a, b, r] → c.mw = [] → Prompt s c → Reaches s c .atomic n [val s c a] →
      s.space c.core (val s c a) n = .own buf x →
      Memory.wf (s.core c.core).wbuf → Memory.wf (s.core c.core).abuf → Memory.wf (s.core c.core).rbuf →
        let old := s.readPlace (.buf c.core buf x) n
        ∃ t : State, exec (.cas d a b r dbl) s = .next (t.put c 6 (.scalar d.val (sext64 (8 * n) (leNat old)) false)) ∧
          t.readPlace (.buf c.core buf x) n =
            if leNat old = (val s c b).toNat % 2 ^ (8 * n) then leBytes n ((val s c r).toNat % 2 ^ (8 * n)) else old

namespace Sys2Proof.Claims

/-- A grid read: coordinate register, step register, handle, declarations, the local coordinates of its cells, its destination, and whether
it is the vector form. -/
def gridForm (i : Instr) (s : State) (c : Cursor) : Option (Reg × Reg × Fin 8 × List Use × List (List Int) × LoadDest × Bool) :=
  match i with
  | .ldg d x r h sx => some (x, r, h, [.s d.val, .s x.val, .s r.val, .grid h.val], [coordsOf (val s c x)], .scalar d.val sx, false)
  | .vldg d x r h => some (x, r, h, [.v d.val, .s x.val, .s r.val, .grid h.val],
      (laneList s c).map (laneCoords (val s c x)), vecDest s c d, true)
  | _ => none

/-- R219, R220 of a read through any handle: a pending handle blocks the M class, a cell outside the forelands traps with ADDRESS_SPACE, the
vector form asks for elements of 4 bytes. -/
def GridReadsChecked : Prop :=
  ∀ (i : Instr) (s : State) (c : Cursor) (x r : Reg) (h : Fin 8) (us : List Use) (cells : List (List Int)) (dest : LoadDest) (vec : Bool),
    gridForm i s c = some (x, r, h, us, cells, dest, vec) → Acts s c us → Clean s c [x, r] → (vec = true → s.enabled c ≠ []) →
      let hd := (s.core c.core).handle h.val
      let step := (val s c r).toNat % 2 ^ 48
      (hd.pending = true → exec i s = .next (blockedBy s c .handlePending (.access c.op dest))) ∧
      ∀ g : Grid, hd.pending = false → hd.valid = true → hd.grid = some g →
        (vec = true → g.esize ≠ 2 → exec i s = .next (trapped s c .record (BitVec.ofNat 64 hd.desc))) ∧
        ((vec = true → g.esize = 2) → cells.mapM (cellRef g hd.polder step) = none →
          exec i s = .next (trapped s c .addressSpace (val s c x)))

/-- R220, items 4 to 7: a tag above the step's traps with STEP_OVERRUN, an invalid tag or one below it blocks the M class, and once every
foreland cell has the tag of the step the cells are read as a load reads; a foreland in scratch or in an own buffer raises the clock to
the time of its strips. -/
def ForelandReads : Prop :=
  ∀ (i : Instr) (s : State) (c : Cursor) (x r : Reg) (h : Fin 8) (us : List Use) (cells : List (List Int)) (dest : LoadDest) (vec : Bool)
    (g : Grid) (refs : List CellRef),
    gridForm i s c = some (x, r, h, us, cells, dest, vec) → Acts s c us → Clean s c [x, r] →
    (vec = true → s.enabled c ≠ [] ∧ g.esize = 2) →
    let hd := (s.core c.core).handle h.val
    let step := (val s c r).toNat % 2 ^ 48
    let due := g.berm * (step / g.berm)
    let slot := step / g.berm % 2
    let own := s.polder (s.core c.core).ctx hd.desc hd.polder
    let tags := (own.map fun y => y.tags).getD []
    let times := (own.map fun y => y.times).getD []
    let ahead (ref : CellRef) : Prop := ∃ y m, ref.region = some y ∧ stepAt tags (2 * y + slot) = some m ∧ due < m
    let stale (ref : CellRef) : Prop := ∃ y, ref.region = some y ∧ stepAt tags (2 * y + slot) ≠ some due
    hd.pending = false → hd.valid = true → hd.grid = some g → cells.mapM (cellRef g hd.polder step) = some refs →
      ((∃ ref ∈ refs, ahead ref) → exec i s = .next (trapped s c .stepOverrun (BitVec.ofNat 64 step))) ∧
      ((∀ ref ∈ refs, ¬ahead ref) → (∃ ref ∈ refs, stale ref) →
        exec i s = .next (blockedBy s c (if g.faultMode = true then .staleBy c.slot.index step g.limit else .stale) (.access c.op dest))) ∧
      ((∀ ref ∈ refs, ¬stale ref) → refs ≠ [] → Prompt s c → (s.core c.core).ld < 256 → (s.core c.core).storesOpen c.bn = false →
        checkEach s c.core c.slot.index .slots .read (refs.map fun ref => (ref.addr, g.elem, g.elem)) = none →
          ∃ (t : State) (parts : List Part), exec i s = .next (t.addOut c.core { newOut s c with
              ldPend := true, parts := parts, dest := dest, handle := some h.val }) ∧
            (parts.map fun p => p.place) = refs.map (fun ref => placeOf s c .read g.elem ref.addr) ∧
            ∀ (ref : CellRef) (y : Nat), refs = [ref] → ref.region = some y →
              let raised := Nat.max (s.core c.core).ltime (kget 0 times (2 * y + slot)) % 2 ^ 64
              match viaOf (s.piece c.core .read g.elem ref.addr).sp (placeOf s c .read g.elem ref.addr),
                placeOf s c .read g.elem ref.addr with
              | .own, _ => (t.core c.core).ltime = raised
              | .home, .phys p => isControl p = false → ∃ u ∈ [(s.ms.time (p / 64)).1, ((s.ms.hold (p / 64)).time (p / 64)).1],
                  (t.core c.core).ltime = Nat.max raised u % 2 ^ 64
              | _, _ => True)

end Sys2Proof.Claims

/-- R113, R167, R219, R220, R318: `pref` changes no register and no counter; `vldv` and the grid reads that pass their checks raise ld, with a
part for each item; without an enabled cluster the vector forms do nothing, and an `ldg` or `vldg` through a handle that is not
bound traps with RECORD, one through a pending handle blocks the M class. A foreland is read under its tag: one of a later step traps with
STEP_OVERRUN, a stale one blocks the M class, one of the step itself is read, with the time of its strips. -/
def Obligations.PrefetchVersionAndGridReads : Prop :=
  GridReadsChecked ∧ ForelandReads ∧
  (∀ (s : State) (c : Cursor) (a : Reg) (xlat : Bool) (off : BitVec 32), Acts s c (sUses [a]) →
    ∃ t : State, exec (.prefExt a xlat off) s = .next t ∧ (off = 0 → exec (.pref a xlat) s = .next t) ∧
      (t.core c.core).sregs = (s.core c.core).sregs ∧ (t.core c.core).writes = (s.core c.core).writes ∧
      (t.core c.core).outs = (s.core c.core).outs ∧ t.ms.mem = s.ms.mem) ∧
  (∀ (s : State) (c : Cursor) (vd a v : Reg) (off : BitVec 32), Acts s c [.v vd.val, .s a.val, .s v.val] → Clean s c [a, v] →
    let as := (laneList s c).map fun l => laneAddr s c a off 64 l
    (off = 64 → exec (.vldv vd a v) s = exec (.vldvExt vd a v off) s) ∧
    (s.enabled c = [] → exec (.vldvExt vd a v off) s = .next s) ∧
    (s.enabled c ≠ [] → (bits (val s c a).toNat 60 4 = 0 ∨ bits (val s c a).toNat 60 4 = 0xC) →
      checkEach s c.core c.slot.index .slots .read ((val s c a, 8, 64) :: as.map fun x => (x, 4, 4)) = none →
      s.oddPhys c.core 8 [val s c a] = none → s.oddPhys c.core 4 as = none → Prompt s c →
      (s.core c.core).ld < 256 → (s.core c.core).storesOpen c.bn = false →
        ∃ (t : State) (parts : List Part), exec (.vldvExt vd a v off) s = .next (t.addOut c.core { newOut s c with
            ldPend := true, parts := parts, dest := vecDest s c vd
            ver := some (BitVec.ofNat 64 ((val s c v).toNat % 2 ^ 48)) }) ∧
          (parts.map fun p => p.place) = placeOf s c .read 8 (val s c a) :: as.map (placeOf s c .read 4))) ∧
  ∀ (s : State) (c : Cursor) (d x r : Reg) (h : Fin 8),
    let hd := (s.core c.core).handle h.val
    let step := (val s c r).toNat % 2 ^ 48
    Clean s c [x, r] →
    (∀ sx : Bool, Acts s c [.grid h.val, .s d.val, .s x.val, .s r.val] → hd.pending = false → hd.valid = false →
      exec (.ldg d x r h sx) s = .next (trapped s c .record 0)) ∧
    (Acts s c [.grid h.val, .v d.val, .s x.val, .s r.val] →
      (s.enabled c = [] → exec (.vldg d x r h) s = .next s) ∧
      (s.enabled c ≠ [] → hd.pending = false → hd.valid = false →
        exec (.vldg d x r h) s = .next (trapped s c .record 0))) ∧
    ∀ g : Grid, hd.pending = false → hd.valid = true → hd.grid = some g → Prompt s c →
      (s.core c.core).ld < 256 → (s.core c.core).storesOpen c.bn = false →
      (∀ (sx : Bool) (ref : CellRef), Acts s c [.grid h.val, .s d.val, .s x.val, .s r.val] →
        cellRef g hd.polder step (coordsOf (val s c x)) = some ref → ref.region = none →
        checkEach s c.core c.slot.index .slots .read [(ref.addr, g.elem, g.elem)] = none →
          ∃ (t : State) (parts : List Part), exec (.ldg d x r h sx) s = .next (t.addOut c.core { newOut s c with
            ldPend := true, parts := parts, dest := .scalar d.val sx, handle := some h.val }) ∧
            (parts.map fun p => p.place) = [placeOf s c .read g.elem ref.addr]) ∧
      ∀ (refs : List CellRef), Acts s c [.grid h.val, .v d.val, .s x.val, .s r.val] → g.esize = 2 → refs ≠ [] →
        ((laneList s c).map (laneCoords (val s c x))).mapM (cellRef g hd.polder step) = some refs →
        (∀ ref ∈ refs, ref.region = none) →
        checkEach s c.core c.slot.index .slots .read (refs.map fun ref => (ref.addr, g.elem, g.elem)) = none →
          ∃ (t : State) (parts : List Part), exec (.vldg d x r h) s = .next (t.addOut c.core { newOut s c with
            ldPend := true, parts := parts, dest := vecDest s c d, handle := some h.val }) ∧
            (parts.map fun p => p.place) = refs.map fun ref => placeOf s c .read g.elem ref.addr

namespace Sys2Proof.Claims

/-- The checks of a memory access in order (R61, R155, R171): the first use beyond the declarations traps with HEADER_LIMIT, the first scalar
register, then the first vector register, with a deferred fault traps with DF_CONSUMED, the vector forms only where a cluster is enabled,
and a failed check of the addresses with its cause and value. -/
def ChecksTrap (i : Instr) (s : State) (c : Cursor) (us : List Use) (rs vs : List Reg) (acc : Access) (n : Nat) (as : List W64) : Prop :=
  let lanes : Bool := us.any fun u => match u with | .v _ => true | _ => false
  let bad (r : Reg) : List Nat := (s.enabled c).filter fun cl => s.vf c cl r.val
  (∀ u, s.cur = some c → us.find? (fun u => u.over (s.hlim c)) = some u →
    exec i s = .next (trapped s c .headerLimit (limitTval u.code.1 u.code.2 c.slot.index))) ∧
  (∀ r, Acts s c us → (lanes = true → s.enabled c ≠ []) → rs.find? (fun r => (s.sr c r.val).df) = some r →
    exec i s = .next (trapped s c .dfConsumed (dfTval c r.val false 0))) ∧
  (∀ r, Acts s c us → Clean s c rs → vs.find? (fun r => !(bad r).isEmpty) = some r →
    exec i s = .next (trapped s c .dfConsumed (dfTval c r.val true (clusterBits (bad r))))) ∧
  ∀ cause v, Acts s c us → Clean s c rs → CleanV s c vs →
    checkEach s c.core c.slot.index .slots acc (as.map fun a => (a, n, n)) = some (cause, v) → exec i s = .next (trapped s c cause v)

end Sys2Proof.Claims

/-- R61, R101, R113, R155, R166, R171, R220, R318: of every load but the speculative ones (whose checks the statement on loads gives), every
store and every atomic, scalar and vector: a use beyond the declarations traps with HEADER_LIMIT, a source with a deferred fault, base,
index and data alike, with DF_CONSUMED, the vector forms only where a cluster is enabled, and an access that fails a check of R155 with
that check's cause and value; nothing is loaded or stored. The same of `vldv`, whose version word needs a global or scratch address, and of
the registers of grid reads. -/
def Obligations.MemoryChecksTrap : Prop :=
  (∀ (i : Instr) (s : State) (c : Cursor) (us : List Use) (rs vs : List Reg) (n : Nat) (as : List W64) (o : Outstanding),
    loadForm i s c = some (us, rs, vs, n, as, o) → o.spec = false → ChecksTrap i s c us rs vs .read n as) ∧
  (∀ (i : Instr) (s : State) (c : Cursor) (us : List Use) (rs vs : List Reg) (n : Nat) (as : List (W64 × List Byte)) (row : Option Scope),
    storeForm i s c = some (us, rs, vs, n, as, row) → ChecksTrap i s c us rs vs .write n (as.map fun a => a.1)) ∧
  (∀ (i : Instr) (s : State) (c : Cursor) (us : List Use) (rs vs : List Reg) (n : Nat) (as : List (W64 × Rmw)) (d : LoadDest),
    atomicForm i s c = some (us, rs, vs, n, as, d) → ChecksTrap i s c us rs vs .atomic n (as.map fun a => a.1)) ∧
  (∀ (s : State) (c : Cursor) (vd a v : Reg) (off : BitVec 32), Acts s c [.v vd.val, .s a.val, .s v.val] → s.enabled c ≠ [] →
    (∀ r, [a, v].find? (fun r => (s.sr c r.val).df) = some r →
      exec (.vldvExt vd a v off) s = .next (trapped s c .dfConsumed (dfTval c r.val false 0))) ∧
    (Clean s c [a, v] → bits (val s c a).toNat 60 4 ≠ 0 → bits (val s c a).toNat 60 4 ≠ 0xC →
      exec (.vldvExt vd a v off) s = .next (trapped s c .addressSpace (val s c a))) ∧
    ∀ cause w, Clean s c [a, v] → (bits (val s c a).toNat 60 4 = 0 ∨ bits (val s c a).toNat 60 4 = 0xC) →
      checkEach s c.core c.slot.index .slots .read
        ((val s c a, 8, 64) :: ((laneList s c).map fun l => laneAddr s c a off 64 l).map fun x => (x, 4, 4)) = some (cause, w) →
      exec (.vldvExt vd a v off) s = .next (trapped s c cause w)) ∧
  (∀ (s : State) (c : Cursor) (d x r q : Reg) (h : Fin 8), [x, r].find? (fun r => (s.sr c r.val).df) = some q →
    (∀ sx : Bool, Acts s c [.s d.val, .s x.val, .s r.val, .grid h.val] →
      exec (.ldg d x r h sx) s = .next (trapped s c .dfConsumed (dfTval c q.val false 0))) ∧
    (Acts s c [.v d.val, .s x.val, .s r.val, .grid h.val] → s.enabled c ≠ [] →
      exec (.vldg d x r h) s = .next (trapped s c .dfConsumed (dfTval c q.val false 0)))) ∧
  (∀ (s : State) (c : Cursor) (d a : Reg) (sz : MemSize) (off : BitVec 32), s.cur = some c →
    (Use.s d.val).over (s.hlim c) = true →
      exec (.ldExt d a sz off) s = .next (trapped s c .headerLimit (limitTval 1 d.val c.slot.index)) ∧
      exec (.stExt d a sz off) s = .next (trapped s c .headerLimit (limitTval 1 d.val c.slot.index))) ∧
  (∀ (s : State) (c : Cursor) (d a : Reg) (sz : MemSize) (off : BitVec 32), Acts s c (sUses [d, a]) →
    (s.sr c a.val).df = true →
      exec (.ldExt d a sz off) s = .next (trapped s c .dfConsumed (dfTval c a.val false 0)) ∧
      exec (.stExt d a sz off) s = .next (trapped s c .dfConsumed (dfTval c a.val false 0))) ∧
  ∀ (s : State) (c : Cursor) (d a : Reg) (sz : MemSize) (off : BitVec 32) (cause : Cause) (v : W64),
    Acts s c (sUses [d, a]) → Clean s c [a, d] →
      (checkEach s c.core c.slot.index .slots .read [(baseAddr s c a off, szBytes sz, szBytes sz)] = some (cause, v) →
        exec (.ldExt d a sz off) s = .next (trapped s c cause v)) ∧
      (checkEach s c.core c.slot.index .slots .write [(baseAddr s c a off, szBytes sz, szBytes sz)] = some (cause, v) →
        exec (.stExt d a sz off) s = .next (trapped s c cause v))

/-- R188, R190, R192, R327, R348: a context 0 access to an address with neither memory nor control space stops by name, the model's choice where
no rule gives a cause (log 34); one to control space completes: a load of a register reads its value, a store that covers a register makes
its write the part's next step, and neither changes memory. Which addresses of control space hold registers besides those that the spec
names is the model's choice (log 21). -/
def Obligations.AddressesWithoutMemoryStop : Prop :=
  ∀ (s : State) (c : Cursor) (d a : Reg) (sz : MemSize) (off : BitVec 32), Acts s c (sUses [d, a]) → Clean s c [a, d] →
    (∀ p : Nat, s.oddPhys c.core (szBytes sz) [baseAddr s c a off] = some p →
      (checkEach s c.core c.slot.index .slots .read [(baseAddr s c a off, szBytes sz, szBytes sz)] = none →
        exec (.ldExt d a sz off) s = .fault (.noSuchAddress p)) ∧
      (checkEach s c.core c.slot.index .slots .write [(baseAddr s c a off, szBytes sz, szBytes sz)] = none →
        exec (.stExt d a sz off) s = .fault (.noSuchAddress p))) ∧
    ∀ (p : Nat) (r : CtlReg), Prompt s c → placeOf s c .read (szBytes sz) (baseAddr s c a off) = .phys p →
      placeOf s c .write (szBytes sz) (baseAddr s c a off) = .phys p → (s.core c.core).ctx = 0 → isControl p = true →
      ctlReg p = some (r, p, szBytes sz) →
      (Reaches s c .read (szBytes sz) [baseAddr s c a off] → (s.core c.core).ld < 256 →
        ∃ part : Part, exec (.ldExt d a sz off) s = .next ((s.fillFor c.core (szBytes sz) [baseAddr s c a off]).addOut c.core
          { newOut s c with ldPend := true, parts := [part], dest := .scalar d.val (szSigned sz) }) ∧
          part.done = true ∧ part.data = leBytes (szBytes sz) (s.ctlValue r)) ∧
      (Reaches s c .write (szBytes sz) [baseAddr s c a off] → (s.core c.core).st < 256 →
        ∃ part : Part, exec (.stExt d a sz off) s = .next ({ s.fillFor c.core (szBytes sz) [baseAddr s c a off] with
          agenda := s.agenda ++ ctlEvent r ((val s c d).toNat % 2 ^ (8 * szBytes sz)) }.addOut c.core
          { newOut s c with stPend := true, parts := [part] }) ∧ part.done = true)

/-- R187, R189, R201: bringing a line into the near tier, and writing it back, change no byte that the home serves; a store at
the home leaves its bytes at its addresses and every other byte as it was. -/
def Obligations.HomeServesEveryByteOnce : Prop :=
  (∀ (ms : MemSys) (l p : Nat), Memory.wf ms.mem →
    (ms.hold l).byte p = ms.byte p ∧
    ((∀ e ∈ ms.lines, e.2.data.length = 64 ∧ (e.2.dirty = false → e.2.data = mread ms.mem (e.1 * 64) 64)) →
      (ms.evict l).byte p = ms.byte p)) ∧
  ∀ (ms : MemSys) (p : Nat) (bs : List Byte), Memory.wf ms.mem → (∀ e ∈ ms.lines, e.2.data.length = 64) →
      (∀ (j : Nat) (h : j < bs.length), (ms.write p bs).byte (p + j) = bs[j]) ∧
      ∀ q, (q < p ∨ p + bs.length ≤ q) → (ms.write p bs).byte q = ms.byte q

namespace Sys2Proof.Claims

/-! ### Engine operations at dispatch (R173, R223, R305) -/

/-- The operation may enter engine queue `q`: its declarations hold, the queue has room or the operation may stay behind until it has, no
token that it names is beyond the declarations, its produced token is not pending (or its class has first to dispatch a `twait` on
it), and its registers carry no deferred fault. -/
def Enters (s : State) (c : Cursor) (us : List Use) (rs : List Reg) (q : Nat) (tw : TokenWord) : Prop :=
  Acts s c us ∧ (c.whole = true → (s.core c.core).queueFull q = false) ∧
    (∀ n ∈ tokNames tw, (Use.tok n).over (s.hlim c) = false) ∧
    (tw.prod.val = 0 ∨ (c.token tw.prod.val).state ≠ .pending ∨ c.awaitsToken (s.core c.core) tw.prod.val = true) ∧ Clean s c rs

/-- An engine operation at dispatch: declarations, clean registers, queue, token word, the checks that it must pass, the values
that it carries, and the accesses that its start waits for. -/
structure Op where
  us : List Use
  rs : List Reg
  q : Nat
  tw : TokenWord
  ok : Prop
  vals : List W64
  waits : List Nat

/-- The operation enters its queue, or stays behind the other classes until it can, and nothing else changes. -/
def Dispatches (f : Instr → State → Cursor → Option Op) : Prop :=
  ∀ (i : Instr) (s : State) (c : Cursor) (o : Op), f i s c = some o → Enters s c o.us o.rs o.q o.tw → o.ok →
    exec i s = .next (s.enqueue c o.q { newEntry s c i o.tw o.vals with waits := o.waits })

/-- No check of R155 steps 1 to 6 fails on a range. -/
def Open (s : State) (c : Cursor) (g : Agent) (acc : Access) (as : List (W64 × Nat × Nat)) : Prop :=
  checkHere s c.core c.slot.index g acc as = none

/-- Unacknowledged stores and atomics before the bundle's last sync bundle, of those that a filter names. -/
def storesBefore (s : State) (c : Cursor) (f : Outstanding → Bool) : List Nat :=
  ((s.core c.core).outs.filter fun o => decide (o.bundle < (s.core c.core).lastSync) && f o).map fun o => o.id

/-- Whether an access has a part outside the typed buffers. -/
def leaves (o : Outstanding) : Bool := o.stPend && o.parts.any fun p => match p.place with | .buf .. => false | _ => true

/-- The X slot (R174 to R185): shapes and types must be a legal combination, tiles must pass their checks. -/
def matrixOp (i : Instr) (s : State) (c : Cursor) : Option Op :=
  let v (r : Reg) : W64 := val s c r
  let kib4 (g : Agent) (acc : Access) (r : Reg) : Prop := Open s c g acc [(v r, 4096, 64)]
  match i with
  | .mmz d tw => some ⟨sUses [d], [d], 1, tw, kib4 .matAcc .write d, [v d], []⟩
  | .mcvt d a src dst tw => some ⟨sUses [d, a], [a, d], 1, tw,
      (src.val = 9 ∨ src.val = 10) ∧ dst.val ∈ [0, 1, 3, 4, 5, 6, 9, 10] ∧
        (v d = v a ∨ overlaps (v d) (tileSize dst.val 1024) (v a) 4096 = false) ∧
        kib4 .matAcc .read a ∧ Open s c .matAcc .write [(v d, tileSize dst.val 1024, 64)], [v d, v a], []⟩
  | .mtr d a shape size tw =>
    let n := mtrSize shape.val size.val
    some ⟨sUses [d, a], [a, d], 1, tw,
      size.val ≠ 3 ∧ ((v d = v a ∧ shape.val = 0) ∨ overlaps (v d) n (v a) n = false) ∧
        Open s c .matMove .read [(v a, n, 64)] ∧ Open s c .matAcc .write [(v d, n, 64)], [v d, v a], []⟩
  | .macc d a ty tw => some ⟨sUses [d, a], [a, d], 1, tw,
      (ty.val = 9 ∨ ty.val = 10) ∧ overlaps (v d) 4096 (v a) 4096 = false ∧
        kib4 .matAdd .read a ∧ kib4 .matAcc .write d, [v d, v a], []⟩
  | .mma a b acc shape sp ta tb tacc tres planes res md tw =>
    let extra : List Reg := (if res.val ≠ 0 then [res] else []) ++ (if md.val ≠ 0 then [md] else [])
    some ⟨sUses ([a, b, acc] ++ extra), [a, b, acc] ++ extra, 1, tw,
      legalMma shape.val ta.val tb.val tacc.val tres.val planes.val sp = true ∧ (res.val ≠ 0 ∨ tres = tacc) ∧
        (sp = true ↔ md.val ≠ 0) ∧ (res.val ≠ 0 → overlaps (v acc) 4096 (v res) (tileSize tres.val 1024) = false) ∧
        Open s c .matA .read [(v a, aSize ta.val shape.val, 64)] ∧
        Open s c .matB .read ((bParts (v b) tb.val shape.val planes.val sp).map fun p => (p.1, p.2, 64)) ∧
        (md.val ≠ 0 → Open s c .matB .read [(v md, mdSize shape.val, 64)]) ∧ kib4 .matAcc .write acc ∧
        (res.val ≠ 0 → Open s c .matAcc .write [(v res, tileSize tres.val 1024, 64)]), [v a, v b, v md, v acc, v res], []⟩
  | .mps _ _ => some ⟨[], [], 1, noTokens, True, [], []⟩
  | .mscl _ a _ => some ⟨sUses [a], [a], 1, noTokens, True, [v a], []⟩
  | _ => none

/-- Byte ranges, fences and the memory layer (R191, R194, R196, R199, R207, R193 with a count of 0). -/
def layerOp (i : Instr) (s : State) (c : Cursor) : Option Op :=
  let v (r : Reg) : W64 := val s c r
  match i with
  | .gath p r x n _ tw => some ⟨sUses [p, r, x, n], [p, r, x, n], 2, tw, (v n).toNat = 0, [v p, v r, v x, v n], []⟩
  | .scat p r x n _ tw => some ⟨sUses [p, r, x, n], [p, r, x, n], 2, tw, (v n).toNat = 0, [v p, v r, v x, v n], []⟩
  | .bankop d a n op tw => some ⟨sUses [d, a, n], [d, a, n], 2, tw,
      (v d).toNat % 4096 = 0 ∧ (op = .zero ∨ (v a).toNat % 4096 = 0) ∧ (v n).toNat % 4096 = 0 ∧ (v n).toNat < 2 ^ 32,
      [v d, v a, v n], []⟩
  | .lfence a n tw => some ⟨sUses [a, n], [a, n], 2, tw, True, [v a, v n], storesBefore s c leaves⟩
  | .fence scope tw => some ⟨[], [], 0, tw, True, [], s.rowOf c.core (s.core c.core).lastSync scope⟩
  | .nflush a tw => some ⟨sUses [a], [a], 0, tw, True, [v a], []⟩
  | .cpyB d r x tw => some ⟨sUses [d, r, x], [d, r, x], 0, tw,
      (v x).toNat < 2 ^ 32 ∧ ((v x).toNat = 0 ∨
        ((v d = v r ∨ (v r).toNat + (v x).toNat ≤ (v d).toNat ∨ (v d).toNat + (v x).toNat ≤ (v r).toNat) ∧
          Open s c .copy .write [(v d, (v x).toNat, 1)] ∧ Open s c .copy .read [(v r, (v x).toNat, 1)])),
      [v d, v r, v x], storesBefore s c leaves⟩
  | _ => none

/-- Synchronization and system operations (R218, R244, R245, R299, R312, R313, R316). -/
def syncOp (i : Instr) (s : State) (c : Cursor) : Option Op :=
  let v (r : Reg) : W64 := val s c r
  let capability (r : Reg) : Prop :=
    (v r).toNat / 2 ^ 60 ∈ [0x0, 0x9, 0xC] ∧ Open s c .copy .read [(v r, 32, 1)]
  match i with
  | .slotrel n _ tw => some ⟨sUses [n], [n], 0, tw, True, [v n], storesBefore s c fun _ => true⟩
  | .bar vt false x n b tw => some ⟨if vt = .arr then [] else sUses [n], if vt = .arr then [] else [n], 0, tw,
      (Use.bar b.val).over (s.hlim c) = false ∧ (vt = .init → 1 ≤ (v n).toNat ∧ (v n).toNat ≤ 65535),
      [v x, v n], (s.core c.core).beforeSync (s.core c.core).lastSync⟩
  | .bar vt true x n b tw =>
    let dst := peer c.core (v x).toNat
    let regs := if vt = .arr then [x] else [x, n]
    some ⟨sUses regs, regs, 0, tw,
      (Use.bar b.val).over (s.hlim c) = false ∧ isFw c.core = false ∧ s.runsTask dst (s.core c.core).ctx = true ∧
        (Use.bar b.val).over ((s.core dst).csrNow 0x060) = false ∧ (vt = .init → 1 ≤ (v n).toNat ∧ (v n).toNat ≤ 65535),
      [v x, v n], (s.core c.core).beforeSync (s.core c.core).lastSync⟩
  | .vpub a x tw => some ⟨sUses [a, x], [a, x], 0, tw,
      ((v a).toNat / 2 ^ 60 = 0 ∨ (v a).toNat / 2 ^ 60 = 0xC) ∧
        checkEach s c.core c.slot.index .slots .write [(v a, 8, 64)] = none ∧ s.oddPhys c.core 8 [v a] = none,
      [v a, v x], storesBefore s c leaves⟩
  | .grel h r tw =>
    let x := (s.core c.core).handle h.val
    some ⟨[.grid h.val, .s r.val], [r], 4, tw, (x.valid = true ∨ x.pending = true) ∧ x.reader = false,
      [BitVec.ofNat 64 h.val, BitVec.ofNat 64 ((v r).toNat % 2 ^ 48), BitVec.ofNat 64 x.desc, BitVec.ofNat 64 x.polder, 0],
      storesBefore s c fun o => o.ldPend && o.handle == some h.val⟩
  | .sealCap a b tw => some ⟨sUses [a, b], [a, b], 0, tw, capability a, [v a, v b], []⟩
  | .wake a b tw => some ⟨sUses [a, b], [a, b], 3, tw, capability a, [v a, v b], []⟩
  | .slotld a b tw => some ⟨sUses [a, b], [a, b], 0, tw,
      routerPorts (v a).toNat ≠ 0 ∧ (v b).toNat % 64 = 0 ∧ reachable (v b).toNat (256 * routerPorts (v a).toNat) = true,
      [v a, v b], []⟩
  | .grpset a b tw => some ⟨sUses [a, b], [a, b], 0, tw,
      (v a).toNat < 0x20000 ∧ (0x10000 ≤ (v a).toNat → (v a).toNat % 65536 ≤ 52), [v a, v b], []⟩
  | .tlbinv a b x tw => some ⟨sUses [a, b, x], [a, b, x], 0, tw, (v a).toNat < 0x30000, [v a, v b, v x], []⟩
  | _ => none

/-- Whether the endpoint of an envelope register or a match word belongs to the issuing context. -/
def endpointOf (s : State) (c : Cursor) (x : W64) : Prop :=
  let e := s.endpoint (x.toNat / 2 ^ 48 % 4096)
  e.valid = true ∧ e.ctx = (s.core c.core).ctx

/-- Bits 31:26 and 63:60 are zero (R248, R251). -/
def wellFormedMatch (x : W64) : Prop := x.toNat / 2 ^ 26 % 2 ^ 6 = 0 ∧ x.toNat / 2 ^ 60 = 0

/-- Bits 31:26 and 63:48 are zero (R251). -/
def wellFormedMask (x : W64) : Prop := x.toNat / 2 ^ 26 % 2 ^ 6 = 0 ∧ x.toNat / 2 ^ 48 = 0

/-- Messages, launches and chunks (R240, R248, R256, R259, R319). -/
def messageOp (i : Instr) (s : State) (c : Cursor) : Option Op :=
  let v (r : Reg) : W64 := val s c r
  match i with
  | .send e r x true tw => some ⟨sUses [e, r, x], [e, r, x], 3, tw,
      wellFormedMatch (v e) ∧ (v x).toNat ≤ 2 ^ 24 ∧ endpointOf s c (v e) ∧
        ((v x).toNat ≠ 0 → Open s c .copy .read [(v r, (v x).toNat, 1)]), [v e, v r, v x], storesBefore s c leaves⟩
  | .rcancel d n tw => some ⟨[.s d.val, .tok n.val], [], 3, tw, True, [], []⟩
  | .rprobe d m k tw => some ⟨.s (pairReg d) :: sUses [d, m, k], [m, k], 3, tw,
      wellFormedMatch (v m) ∧ wellFormedMask (v k) ∧ endpointOf s c (v m) ∧
        (s.endpoint ((v m).toNat / 2 ^ 48 % 4096)).col = colOf c.core, [v m, v k], []⟩
  | .ringpop d _ _ tw => some ⟨[.s d.val, .s (pairReg d)], [], 3, tw, True, [], []⟩
  | .launch d a _ tw => some ⟨sUses [d, a], [a], 3, tw, True, [v a], []⟩
  | .chunk d tw => some ⟨[.s d.val, .s (pairReg d)], [], 0, tw, True, [], []⟩
  | _ => none

/-- Sequence operations (R262 to R278). -/
def sequenceOp (i : Instr) (s : State) (c : Cursor) : Option Op :=
  let v (r : Reg) : W64 := val s c r
  let two (d a b : Reg) (tw : TokenWord) : Option Op := some ⟨sUses [d, a, b], [a, b], 5, tw, True, [v a, v b], []⟩
  let one (d a : Reg) (tw : TokenWord) : Option Op := some ⟨sUses [d, a], [a], 5, tw, True, [v a], []⟩
  match i with
  | .sqadm _ d a tw => one d a tw
  | .sqtree _ d a b tw => two d a b tw
  | .sqvrd _ a b tw => some ⟨sUses [a, b], [a, b], 5, tw, True, [v a, v b], []⟩
  | .sqacc _ d a tw => one d a tw
  | .sqret _ d a tw => one d a tw
  | .sqpre _ d a _ tw => one d a tw
  | .sqres _ d a tw => one d a tw
  | .sqkvAddr _ d a b tw => two d a b tw
  | .sqkvAdv _ d a b tw => two d a b tw
  | .sqbat _ d a b tw => some ⟨sUses [d, a, b], [a, b], 5, tw,
      Open s c .parser .write [(v a, (v b).toNat / 2 ^ 32, 64)], [v a, v b], []⟩
  | _ => none

/-- The operations that read shape records, with the registers of the records (R197 to R200, R193, R248, R251). -/
structure RecordOp where
  us : List Use
  rs : List Reg
  q : Nat
  tw : TokenWord
  recs : List W64
  vals : List W64
  waits : List Nat
  ok : List Shape → Prop

/-- Two tiles of a copy lie in their grids, with the same extents and type, and the layouts agree. -/
def pairOk (d r : Shape) (x : W64) (layouts : Prop) : Prop :=
  x.toNat / 2 ^ 32 < d.gridSize ∧ x.toNat % 2 ^ 32 < r.gridSize ∧ d.tile = r.tile ∧ d.ty = r.ty ∧ layouts

/-- A tile's bytes pass the checks of the copy engine, over the counts that two tiles share. -/
def tileOk (s : State) (c : Cursor) (acc : Access) (y : Shape) (t : Nat) (cnt : List Nat) (planes : List Nat) : Prop :=
  checkTile s c .copy acc (y.runs t cnt planes) = none

/-- A copy of a tile whose planes are `ps`; `whole` are the counts that it reads. -/
def copyOk (s : State) (c : Cursor) (d r : Shape) (x : W64) (ps : List Nat) (layouts : Prop) (whole : List Nat → List Nat := id) : Prop :=
  let cnt := sharedCounts d (x.toNat / 2 ^ 32) r (x.toNat % 2 ^ 32)
  pairOk d r x layouts ∧ tileOk s c .write d (x.toNat / 2 ^ 32) cnt ps ∧ tileOk s c .read r (x.toNat % 2 ^ 32) (whole cnt) ps

/-- Counts whose rows are whole groups of four, as a 2:4 sparse tile is read (R199, R281). -/
def inGroups (cnt : List Nat) : List Nat := match cnt with | n :: ns => (n + 3) / 4 * 4 :: ns | [] => []

/-- A table of `gath` and `scat` and its ranges. -/
def rowsOk (s : State) (c : Cursor) (acc : Access) (x : Shape) (p i n : W64) (i64 : Bool) : Prop :=
  0 < n.toNat ∧ n.toNat ≤ 65536 ∧ x.isTable = true ∧
    Open s c .copy acc (rangePart p (n.toNat * x.rowBytes)) ∧ Open s c .copy .read [(i, n.toNat * (if i64 then 8 else 4), 1)]

/-- The operations with shape records. -/
def recordOp (i : Instr) (s : State) (c : Cursor) : Option RecordOp :=
  let v (r : Reg) : W64 := val s c r
  let all : List Nat := [0, 1, 2, 3]
  let two (d r x : Reg) (tw : TokenWord) (ok : Shape → Shape → Prop) : Option RecordOp :=
    some ⟨sUses [d, r, x], [d, r, x], 0, tw, [v d, v r], [v d, v r, v x], storesBefore s c leaves,
      fun ys => match ys with | [y, z] => ok y z | _ => False⟩
  let rows (acc : Access) (p r x n : Reg) (i64 : Bool) (tw : TokenWord) : Option RecordOp :=
    some ⟨sUses [p, r, x, n], [p, r, x, n], 2, tw, [v r], [v p, v r, v x, v n], [],
      fun ys => match ys with | [y] => rowsOk s c acc y (v p) (v x) (v n) i64 | _ => False⟩
  match i with
  | .cpy d r x tw => two d r x tw fun y z => copyOk s c y z (v x) all (y.layout = z.layout)
  | .cpysp d r x tw => two d r x tw fun y z => copyOk s c y z (v x) all (y.layout = 0 ∧ z.layout = 2) inGroups
  | .cpypl d r x q none tw => two d r x tw fun y z => copyOk s c y z (v x) (planesOf q.val) (y.layout = 1 ∧ z.layout = 1)
  | .cpypl d r x q (some d2) tw =>
    some ⟨sUses [d, r, x, d2], [d, r, x, d2], 0, tw, [v d, v r, v d2], [v d, v r, v x], storesBefore s c leaves,
      fun ys => match ys with
        | [y, z, y2] => copyOk s c y z (v x) (planesOf q.val) (y.layout = 1 ∧ z.layout = 1) ∧
            pairOk y2 z (v x) (y2.layout = 1) ∧
            tileOk s c .write y2 ((v x).toNat / 2 ^ 32) (sharedCounts y2 ((v x).toNat / 2 ^ 32) z ((v x).toNat % 2 ^ 32)) (planesOf q.val)
        | _ => False⟩
  | .cpyfill d p x sz tw =>
    some ⟨sUses [d, p, x], [d, p, x], 0, tw, [v d], [v d, v p, v x], storesBefore s c leaves,
      fun ys => match ys with
        | [y] => (v x).toNat / 2 ^ 32 < y.gridSize ∧ elemSize y.ty ≠ 0 ∧ 8 * elemSize y.ty % unitBits sz = 0 ∧
            checkTile s c .copy .write ((y.runs ((v x).toNat / 2 ^ 32) (y.counts ((v x).toNat / 2 ^ 32)) all).take 1) = none
        | _ => False⟩
  | .cpym d r x _ m bar tw =>
    let m1 : Reg := Fin.ofNat 64 (m.val + 1)
    let set := coreSet c.core (v m).toNat (v m1).toNat
    some ⟨sUses [d, r, x, m, m1], [d, r, x, m, m1], 0, tw, [v d, v r], [v d, v r, v x, v m, v m1], storesBefore s c leaves,
      fun ys => match ys with
        | [y, z] =>
          let td := (v x).toNat / 2 ^ 32
          let cnt := sharedCounts y td z ((v x).toNat % 2 ^ 32)
          (bar.val ≠ 0 → (Use.bar (bar.val - 1)).over (s.hlim c) = false) ∧ pairOk y z (v x) (y.layout = z.layout) ∧
            (y.base.toNat / 2 ^ 60 = 8 ∨ y.base.toNat / 2 ^ 60 = 9) ∧
            (set = [] ∨ ((runParts (y.runs td cnt all)).findSome? (fun p => checkSpace s c.core p.1 p.2.1) = none ∧
              (∀ p ∈ set, checkReceiver s c p y.base (y.runs td cnt all) = none) ∧
              tileOk s c .read z ((v x).toNat % 2 ^ 32) cnt all))
        | _ => False⟩
  | .gath p r x n i64 tw => rows .write p r x n i64 tw
  | .scat p r x n i64 tw => rows .read p r x n i64 tw
  | .send e r x false tw =>
    some ⟨sUses [e, r, x], [e, r, x], 3, tw, [v r], [v e, v r, v x], storesBefore s c leaves,
      fun ys => match ys with
        | [y] => wellFormedMatch (v e) ∧ endpointOf s c (v e) ∧ (v x).toNat < y.gridSize ∧ (v x).toNat < 2 ^ 32 ∧
            checkTile s c .copy .read (y.tileRuns (v x).toNat) = none ∧ streamBytes (y.tileRuns (v x).toNat) ≤ 2 ^ 24
        | _ => False⟩
  | .rpost m k r x e tw =>
    let env : List Reg := if e.val = 0 then [] else [e]
    some ⟨sUses ([m, k, r, x] ++ env), [m, k, r, x] ++ env, 3, tw, [v r], [v m, v k, v r, v x, v e], [],
      fun ys => match ys with
        | [y] => wellFormedMatch (v m) ∧ wellFormedMask (v k) ∧ endpointOf s c (v m) ∧
            (s.endpoint ((v m).toNat / 2 ^ 48 % 4096)).col = colOf c.core ∧ (v x).toNat < y.gridSize ∧ (v x).toNat < 2 ^ 32 ∧
            checkTile s c .parser .write (y.tileRuns (v x).toNat) = none ∧
            (e.val ≠ 0 → Open s c .parser .write [(v e, 8, 8)])
        | _ => False⟩
  | _ => none

end Sys2Proof.Claims

/-- R173 to R185: an X-slot operation whose shapes, types and tiles pass enters the matrix queue. -/
def Obligations.MatrixOperationsDispatch : Prop := Dispatches matrixOp

/-- R191, R193, R194, R196, R199, R207: the memory-layer operations, fences and byte copies that pass their checks enter
their queues. -/
def Obligations.LayerOperationsDispatch : Prop := Dispatches layerOp

/-- R218, R244, R245, R299, R312, R313, R316: synchronization and system operations that pass their checks enter their
queues. -/
def Obligations.SyncOperationsDispatch : Prop := Dispatches syncOp

/-- R240, R248, R251, R256, R259, R262 to R278, R319: byte sends, cancels, probes, ring reads, launches and chunks enter their
queues, and sequence operations the sequence queue. -/
def Obligations.MessageAndSequenceOperationsDispatch : Prop := Dispatches messageOp ∧ Dispatches sequenceOp

/-- R193, R197 to R200, R248, R251: an operation whose shape records are read and whose tiles pass their checks enters its
queue with the records. -/
def Obligations.RecordOperationsDispatch : Prop :=
  ∀ (i : Instr) (s t : State) (c : Cursor) (o : RecordOp) (bss : List (List Byte)), recordOp i s c = some o →
    Enters s c o.us o.rs o.q o.tw → lookRecords s c o.recs s = .ok (some (t, bss)) → o.ok (bss.map readShape) →
      exec i s = .next (t.enqueue c o.q { newEntry s c i o.tw o.vals with recs := o.recs.zip bss, waits := o.waits })

/-- R214, R215, R286: `rfence` drops records at once, `gbind` makes its handle pending, `gstep` the step of its handle; each
enters its queue. -/
def Obligations.RecordFenceBindAndStepDispatch : Prop :=
  (∀ (s : State) (c : Cursor) (a : Reg) (all : Bool) (tw : TokenWord),
    let rs := if all then [] else [a]
    Enters s c (sUses rs) rs 0 tw →
      exec (.rfence a all tw) s = .next ((s.modCore c.core fun k =>
        { k with records := if all then [] else k.records.filter fun e => e.1 ≠ val s c a }).enqueue c 0
          (newEntry s c (.rfence a all tw) tw []))) ∧
  (∀ (s : State) (c : Cursor) (h : Fin 8) (a p : Reg) (rd : Bool) (tw : TokenWord),
    Enters s c [.grid h.val, .s a.val, .s p.val] [a, p] 4 tw →
      ∃ t : State, exec (.gbind h a p rd tw) s = .next (t.enqueue c 4 (newEntry s c (.gbind h a p rd tw) tw
          [val s c a, BitVec.ofNat 64 ((val s c p).toNat % 4096)])) ∧
        (t.core c.core).handle h.val = { Handle.none with
          pending := true, reader := rd, desc := (val s c a).toNat, polder := (val s c p).toNat % 4096 } ∧
        t.ms = s.ms ∧ ∀ j, j ≠ c.core → t.core j = s.core j) ∧
  ∀ (s : State) (c : Cursor) (h : Fin 8) (n : Reg) (tw : TokenWord),
    let x := (s.core c.core).handle h.val
    let v := (val s c n).toNat % 2 ^ 48
    Enters s c [.grid h.val, .s n.val] [n] 4 tw →
      ((x.valid = true ∨ x.pending = true) → x.reader = false → (∀ l, x.last = some l → v = l + 1) →
        exec (.gstep h n tw) s = .next ((s.modCore c.core fun k =>
          { k with handles := kput k.handles h.val { x with last := some v } }).enqueue c 4
            { newEntry s c (.gstep h n tw) tw [BitVec.ofNat 64 h.val, BitVec.ofNat 64 v, BitVec.ofNat 64 x.desc,
                BitVec.ofNat 64 x.polder, 0] with waits := storesBefore s c fun o => o.stPend })) ∧
      ((x.valid = true ∨ x.pending = true) → x.reader = false → (∃ l, x.last = some l ∧ v ≠ l + 1) →
        exec (.gstep h n tw) s = .next (trapped s c .stepOverrun (BitVec.ofNat 64 v))) ∧
      (((x.valid = false ∧ x.pending = false) ∨ x.reader = true) →
        exec (.gstep h n tw) s = .next (trapped s c .record 0))

/-- R95, R223, R285, R304, R305: a dispatched operation is the newest of its queue, with the time at which its bundle has filled records, and its
produced token is pending, of the next generation; while its queue is full, or its class lags, it stays behind the other classes and
enters later. A produced token that is pending traps with TOKEN_BUSY once the class has dispatched every earlier bundle; until then the
operation stays behind, undispatched, with its generation made. Registers, memory and the other cores stay. That a class lags by free
choice, that an operation which is tried again holds its bundle instead, and that one of a firmware core whose token is busy does, are the
model's choices (log 7): R95 and R223 do not say them. -/
def Obligations.DispatchMakesAGeneration : Prop :=
  (∀ (s : State) (c : Cursor) (q : Nat) (e : EngEntry), e.prod ≠ 0 →
    let t := s.enqueue c q e
    let e := { e with time := Nat.max e.time ((s.cur.map fun d => d.fill).getD 0) }
    (staysBehind s c = false → (s.core c.core).queueFull q = false →
      (t.core c.core).queue q = (s.core c.core).queue q ++ [e] ∧ (t.core c.core).slips = (s.core c.core).slips) ∧
    (staysBehind s c = true ∨ (s.core c.core).queueFull q = true →
      (t.core c.core).queue q = (s.core c.core).queue q ∧
      (t.core c.core).slips = (s.core c.core).slips ++ [{ cls := c.slot.cls, cur := c, op := .enter q e }]) ∧
    (kget Token.init (t.core c.core).tokens e.prod).state = TokState.pending ∧
    (kget Token.init (t.core c.core).tokens e.prod).gen = ((kget Token.init (s.core c.core).tokens e.prod).gen + 1) % 65536 ∧
    (∀ n, n ≠ e.prod → kget Token.init (t.core c.core).tokens n = kget Token.init (s.core c.core).tokens n) ∧
    (t.core c.core).sregs = (s.core c.core).sregs ∧ (t.core c.core).writes = (s.core c.core).writes ∧
    t.ms = s.ms ∧ ∀ j, j ≠ c.core → t.core j = s.core j) ∧
  (∀ (s : State) (c : Cursor) (a : Reg) (tw : TokenWord), Acts s c (sUses [a]) →
    (c.whole = true → (s.core c.core).queueFull 0 = true → exec (.nflush a tw) s = .next (heldBy s c .queueFull)) ∧
    ((c.whole = true → (s.core c.core).queueFull 0 = false) → (∀ n ∈ tokNames tw, (Use.tok n).over (s.hlim c) = false) → tw.prod.val ≠ 0 →
      (c.token tw.prod.val).state = .pending → c.awaitsToken (s.core c.core) tw.prod.val = false →
      ((s.core c.core).lagsBefore c = false → exec (.nflush a tw) s =
        .next (trapped s c .tokenBusy (BitVec.ofNat 64 (tw.prod.val + c.slot.index * 2 ^ 40)))) ∧
      ((s.core c.core).lagsBefore c = true → (c.whole = true ∨ isFw c.core = true) → exec (.nflush a tw) s = .next (heldBy s c .slip)) ∧
      ((s.core c.core).lagsBefore c = true → c.whole = false → isFw c.core = false →
        let gen := ((kget Token.init (s.core c.core).tokens tw.prod.val).gen + 1) % 65536
        ∃ t, exec (.nflush a tw) s = .next t ∧ (t.core c.core).slips = (s.core c.core).slips ++
            [{ cls := c.slot.cls, cur := c, op := .defer c.op tw.prod.val gen (s.core c.core).serial }] ∧
          (kget Token.init (t.core c.core).tokens tw.prod.val).state = TokState.pending ∧
          (kget Token.init (t.core c.core).tokens tw.prod.val).gen = gen ∧
          (t.core c.core).queues = (s.core c.core).queues ∧ (t.core c.core).sregs = (s.core c.core).sregs ∧ t.ms = s.ms))) ∧
  (∀ (s : State) (core q : Nat) (c : Cursor) (e : EngEntry), (s.core core).queueFull q = false →
    ∃ t : State, s.takeSlip core { cls := c.slot.cls, cur := c, op := .enter q e } = some t ∧
      (t.core core).queue q = (s.core core).queue q ++
        [{ e with time := Nat.max e.time (s.core core).ltime, entered := s.cycle }]) ∧
  ∀ (k : Core) (q : Nat), k.queueFull q = true ↔
    (if q = 0 then 32 else 16) + kget 0 k.extensions q ≤ (k.queue q).length

namespace Sys2Proof.Claims

/-! ### Engines after dispatch (R174, R198, R224, R304 to R307) -/

/-- An operation of a queue may start: its engines run, its consumed tokens have left pending, and no access that its start
waits for is open. -/
def MayStart (s : State) (core q idx : Nat) (e : EngEntry) : Prop :=
  q ≠ 1 ∧ ((s.core core).queue q)[idx]? = some e ∧ (s.core core).engines = true ∧ e.ready = true ∧
    ∀ w ∈ e.waits, (s.core core).pending w = false

/-- Operation `e` has left its queue and counts as started, at stage `st`, in `t`. -/
def HasStarted (s t : State) (core q : Nat) (e : EngEntry) (st : Stage) : Prop :=
  (t.core core).started = (s.core core).started ++ [{ id := e.serial, e := e, stage := st, orphan := none }] ∧
    ((t.core core).queue q).length + 1 = ((s.core core).queue q).length

/-- The barrier that an update leaves: arrivals, expected items, and the completion of its phase (R313, R314); `none` where the
update faults. -/
def barrierAfter (b : Barrier) (v : BarVariant) (n time : Nat) : Option Barrier :=
  let finish (b : Barrier) : Barrier :=
    if b.c ≠ 0 ∧ b.pending = 0 ∧ b.arrived = b.expected then
      { b with phase := (b.phase + 1) % 2 ^ 32, pending := b.c, expected := 0, arrived := 0, doneT := b.tmax }
    else b
  let late : Nat := Nat.max b.tmax time
  let more : Nat := (b.expected + n % 2 ^ 48) % 2 ^ 48
  match v with
  | .init => some (finish { c := n, pending := n, expected := 0, arrived := 0, phase := 0, tmax := time, doneT := 0 })
  | .exp => some (finish { b with expected := more, tmax := late })
  | .arr => if b.c = 0 ∨ b.pending = 0 then none else some (finish { b with pending := b.pending - 1, tmax := late })
  | .arrexp =>
    if b.c = 0 ∨ b.pending = 0 then none
    else some (finish { b with pending := b.pending - 1, expected := more, tmax := late })

/-- The first item of the network queue from `src` to `dst` that the destination has not received (R158). -/
def NextItem (s : State) (src dst ix : Nat) (p : NetPacket) : Prop :=
  s.net.findIdx? (fun p => p.src == src && p.dst == dst && !p.held) = some ix ∧ s.net[ix]? = some p ∧ p.src = src ∧ p.dst = dst

/-- The event that delivers an item. -/
def deliveryOf (p : NetPacket) : Instr :=
  match p.item with
  | .flag .. => .flagSetArrival p.src p.dst
  | .barrier .. => .barrierUpdate p.src p.dst
  | _ => .clusterRemoteAccess p.src p.dst

end Sys2Proof.Claims

/-- R224, R306: ENGINE_OPERATION_START: an operation starts once its consumed tokens have left pending and its engine accepts it, and leaves
its queue; with a consumed token faulted or cancelled it takes no effect and ends cancelled. That a `gbind` so cancelled leaves its handle
invalid is the model's reading (log 30): R214 says so of one that faults, R224 and R306 of none. -/
def Obligations.EngineOperationsStart : Prop :=
  ∀ (s : State) (core q idx : Nat) (e : EngEntry), MayStart s core q idx e →
    (∀ o, e.cancelled = some o → ∃ t, exec (.engineOperationStart core q idx) s = .next t ∧
      HasStarted s t core q e (.finished o false) ∧ t.ms = s.ms ∧ t.net = s.net ∧
      ((∀ h d p rd tw, e.op ≠ .gbind h d p rd tw) → (t.core core).handles = (s.core core).handles) ∧
      ∀ h d p rd tw, e.op = .gbind h d p rd tw → (s.core core).awaits h.val rd e = true →
        kget Handle.none (t.core core).handles h.val = Handle.none) ∧
    (e.cancelled = none → startOp s core e = none → exec (.engineOperationStart core q idx) s = .next s) ∧
    (∀ s1 st, e.cancelled = none → startOp s core e = some (s1, st) → (∃ y ∈ (s1.core core).queue q, y.serial = e.serial) →
      ∃ t, exec (.engineOperationStart core q idx) s = .next t ∧ HasStarted s1 t core q e st ∧ t.ms = s1.ms ∧ t.hub = s1.hub ∧
        t.net = s1.net)

/-- R11, R192, R194, R207, R312 to R314: what the starts of `slotrel`, `fence`, a local `bar` and `bankop` do, and what a `bankop.zero`
of one bank row leaves. A `fence` does nothing at its start: it acts on completion, as the statement on completions says. That a bank row
is written whole in one step is the model's reading (log 15): R194 states no unit. -/
def Obligations.OperationStartsHaveTheirEffect : Prop :=
  (∀ (s : State) (core : Nat) (e : EngEntry) (n : Reg) (ctr : Fin 16) (tw : TokenWord), e.op = .slotrel n ctr tw →
    ∃ (s1 : State) (o : Outcome), startOp s core e = some (s1, .finished o false) ∧ o.st = .done ∧
      kget 0 (s1.core core).freeSlots ctr.val =
        Nat.min 255 (kget 0 (s.core core).freeSlots ctr.val + (e.vals.headD 0).toNat)) ∧
  (∀ (s : State) (core : Nat) (e : EngEntry) (scope : Scope) (tw : TokenWord), e.op = .fence scope tw →
    ∃ o : Outcome, startOp s core e = some (s, .finished o false) ∧ o.st = .done ∧ o.t = e.inTime) ∧
  (∀ (s : State) (core : Nat) (e : EngEntry) (v : BarVariant) (x n : Reg) (b : Fin 16) (tw : TokenWord),
    e.op = .bar v false x n b tw →
      ∃ (s1 : State) (o : Outcome), startOp s core e = some (s1, .finished o false) ∧
        match barrierAfter (kget Barrier.none (s.core core).barriers b.val) v (e.vals.getD 1 0).toNat
            (Nat.max (s.core core).ltime e.inTime) with
        | some y => o.st = .done ∧ o.t = Nat.max (s.core core).ltime e.inTime ∧ kget Barrier.none (s1.core core).barriers b.val = y
        | none => o.st = .faulted ∧ o.cause = 0x19 ∧ s1 = s) ∧
  (∀ (s : State) (core : Nat) (e : EngEntry) (d a n : Reg) (f : BankOp) (tw : TokenWord) (p : Nat), e.op = .bankop d a n f tw →
    (s.core core).lfenceBefore e.serial = false → (e.vals.getD 2 0) = 0 →
      dramOf s core (if f = .cmp then .read else .write) (e.vals.getD 0 0) = .ok p →
        (s.layerMode (homeCol p) = none → startOp s core e = none) ∧
        ∀ b, s.layerMode (homeCol p) = some b → ∃ (o : Outcome), startOp s core e = some (s, .finished o false) ∧ o.bytes = 0 ∧
          if b = true then o.st = .done else o.st = .faulted ∧ o.cause = 0x02) ∧
  (∀ (s : State) (core : Nat) (e : EngEntry) (d a n : Reg) (tw : TokenWord) (p : Nat), e.op = .bankop d a n .zero tw →
    (s.core core).lfenceBefore e.serial = false → (e.vals.getD 2 0) = 4096 →
      dramOf s core .write (e.vals.getD 0 0) = .ok p → (e.vals.getD 0 0).toNat % 4096 = 0 →
        (s.layerMode (homeCol p) = none → startOp s core e = none) ∧
        (s.layerMode (homeCol p) = some false → ∃ (o : Outcome), startOp s core e = some (s, .finished o false) ∧
          o.st = .faulted ∧ o.cause = 0x02) ∧
        (s.layerMode (homeCol p) = some true →
          startOp s core e = some (s, .layer (homeCol p) [] 0 (Nat.max e.time e.inTime)))) ∧
  ∀ (s : State) (core idx chunk time : Nat) (data : List Byte) (x : Started) (d a n : Reg) (tw : TokenWord) (p : Nat),
    (s.core core).started[idx]? = some x → x.orphan = none → x.stage = .layer (homeCol p) [] 0 time → x.e.op = .bankop d a n .zero tw →
      (x.e.vals.getD 2 0) = 4096 → dramOf s core .write (x.e.vals.getD 0 0) = .ok p →
        ∃ t, exec (.copyChunk core idx chunk data) s = .next t ∧
          if s.ms.deadAt (.phys p) 4096 = none then
            t.ms.mem = mwrite s.ms.mem p (List.replicate 4096 0) ∧
              ∀ y ∈ (t.core core).started, y.id = x.id → y.stage = .finished (outcome .done 0 4096 time) false
          else t.ms = s.ms ∧ ∀ y ∈ (t.core core).started, y.id = x.id →
            y.stage = .finished (outcome .faulted Cause.uncorrectable.code 0 time) false

/-- R26, R207, R257, R258, R304, R307, R324: COMPLETION_RECORD_WRITE and ENGINE_OPERATION_COMPLETE: a finished operation writes its record, if it
asks for one and the ring has room, then its registers, and its token leaves pending with its outcome, in the saved token table too when its
task has been saved. A `fence` completes with its record: the clock rises to what its tokens carry, its T is the clock, and at scopes grp
and dom the load buffer is emptied. One whose task was ended only leaves. -/
def Obligations.EngineOperationsComplete : Prop :=
  (∀ (s : State) (core idx : Nat) (x : Started) (o : Outcome) (r : Bool),
    (s.core core).started[idx]? = some x → x.stage = .finished o r → (x.e.cr = true → r = true) →
      let time := match x.e.op with | .fence .. => Nat.max (s.core core).ltime o.t % 2 ^ 64 | _ => o.t
      ∃ t, exec (.engineOperationComplete core idx) s = .next t ∧ (∀ y ∈ (t.core core).started, y.id ≠ x.id) ∧
        ((s.core core).isSaved = false → t.ms = s.ms) ∧
        (∀ base, (s.core core).isSaved = true → s.saveBase core = some base → x.orphan = none → x.e.prod ≠ 0 →
          (kget Token.init (s.core core).tokens x.e.prod).gen = x.e.gen →
            t.ms = { s.ms with mem := (mwrite s.ms.mem (base + 0x70800 + 16 * x.e.prod)
              (leBytes 1 o.st.status ++ leBytes 1 o.cause ++ leBytes 2 x.e.gen ++ leBytes 4 o.bytes ++ leBytes 8 time)) }) ∧
        (∀ scope tw, x.orphan = none → x.e.op = .fence scope tw → (t.core core).ltime = time ∧
          (t.core core).loadBuf = if scope = .grp ∨ scope = .dom then [] else (s.core core).loadBuf) ∧
        (x.orphan.isSome = true → (t.core core).tokens = (s.core core).tokens ∧ (t.core core).writes = (s.core core).writes) ∧
        (∀ v q, x.orphan = none → o.regs = [(v, q)] → v ≠ 0 → (∀ w ∈ (s.core core).writes, writesScalar v w = false) →
          ∀ see : HeldWrite → Bool, (∀ w, w.cls = .a → w.n = x.e.bundle → w.wr = .scalar v q false → see w = true) →
            (t.core core).sread see v = { val := q, df := false }) ∧
        (x.orphan = none → x.e.prod ≠ 0 → (kget Token.init (s.core core).tokens x.e.prod).gen = x.e.gen →
          kget Token.init (t.core core).tokens x.e.prod =
            { state := o.st, cause := o.cause, gen := x.e.gen, bytes := o.bytes, t := time, cycle := s.cycle }) ∧
        (x.orphan = none → x.e.prod ≠ 0 → (kget Token.init (s.core core).tokens x.e.prod).gen ≠ x.e.gen →
          (t.core core).tokens = (s.core core).tokens)) ∧
  ∀ (s : State) (core idx : Nat) (x : Started) (o : Outcome),
    let ctx := x.orphan.getD (s.core core).ctx
    let ix := (ctx * 8 + colOf core) * 8 + x.e.ring
    let ring := kget Ring.unset s.hub.rings ix
    let fence : Bool := match x.e.op with | .fence .. => true | _ => false
    let o1 : Outcome := if fence = true ∧ x.orphan = none then { o with t := Nat.max (s.core core).ltime o.t % 2 ^ 64 } else o
    (s.core core).started[idx]? = some x → x.stage = .finished o false → x.e.cr = true →
      (ring.valid = false → ∃ t, exec (.completionRecordWrite core idx) s = .next t ∧ t.ms = s.ms ∧
        ∀ y ∈ (t.core core).started, y.id = x.id → y.stage = .finished { o1 with st := .faulted, cause := 0x19 } true) ∧
      (ring.valid = true → 2 ^ ring.log2 ≤ ring.tail - ring.head → exec (.completionRecordWrite core idx) s = .next s) ∧
      ∀ p, ring.valid = true → ring.tail - ring.head < 2 ^ ring.log2 →
        hubPlace s ctx (colOf core) (ring.base + BitVec.ofNat 64 (16 * (ring.tail % 2 ^ ring.log2))) 16 .write =
          .ok p →
        ∃ t u, exec (.completionRecordWrite core idx) s = .next t ∧ kget Ring.unset t.hub.rings ix = { ring with tail := ring.tail + 1 } ∧
          (∀ y ∈ (t.core core).started, y.id = x.id → fence = false ∧ y.stage = .finished { o with t := u } true) ∧
          (fence = true → x.orphan = none → x.e.prod ≠ 0 → (kget Token.init (s.core core).tokens x.e.prod).gen = x.e.gen →
            (kget Token.init (t.core core).tokens x.e.prod).state = o.st) ∧
          ∀ a, (fence = false ∨ (s.core core).isSaved = false) → p = .phys a → isControl a = false → a % 64 + 16 ≤ 64 → TidyMemory s core →
            t.ms.read a 16 = leBytes 8 (x.e.prod + o.st.status * 64 + o.cause * 256 + o.tag % 65536 * 65536 + o.bytes % 2 ^ 32 * 2 ^ 32) ++
              leBytes 8 u

/-- R158, R310, R311, R314, R369: FLAG_SET_ARRIVAL, BARRIER_UPDATE and CLUSTER_REMOTE_ACCESS: the next item of a queue of the cluster network
takes effect at its destination: a load reads, a store stores, an atomic does both, a flag is set with its time, a barrier is updated and
the token of its `bar` gets its outcome. A suspended destination holds it. -/
def Obligations.ClusterNetworkDelivers : Prop :=
  ∀ (s : State) (src dst ix : Nat) (p : NetPacket), NextItem s src dst ix p →
    (s.suspended dst = true → exec (deliveryOf p) s = .next { s with net := s.net.set ix { p with held := true } }) ∧
    (s.suspended dst = false →
      (∀ f time, p.item = .flag f time → ∃ t, exec (.flagSetArrival src dst) s = .next t ∧ t.net = s.net.eraseIdx ix ∧
        ((t.core dst).flag f).set = true ∧ ((t.core dst).flag f).time = Nat.max ((s.core dst).flag f).time time ∧
        ∀ g, g ≠ f → (t.core dst).flag g = (s.core dst).flag g) ∧
      (∀ id v b n time, p.item = .barrier id v b n time → ∃ t, exec (.barrierUpdate src dst) s = .next t ∧
        t.net = s.net.eraseIdx ix ∧
        kget Barrier.none (t.core dst).barriers b =
          (barrierAfter (kget Barrier.none (s.core dst).barriers b) v n.toNat time).getD
            (kget Barrier.none (s.core dst).barriers b) ∧
        ∀ y ∈ (t.core src).started, y.id = id → y.stage = .finished
          (if (barrierAfter (kget Barrier.none (s.core dst).barriers b) v n.toNat time).isSome = true then outcome .done 0 0 time
            else outcome .faulted 0x19 0 time) false) ∧
      ∀ id i o q,
        let wrote (q : Part) (bs : List Byte) (f : Outstanding → Outstanding) : State :=
          (({ s with net := s.net.eraseIdx ix }.writePlace q.place bs).forget q.place bs).modOut src id f
        (s.core src).out id = some o → o.parts[i]? = some q →
        let old := s.readPlace q.place q.n
        (p.item = .load id i → exec (.clusterRemoteAccess src dst) s =
          .next ({ s with net := s.net.eraseIdx ix }.modOut src id fun o => o.perform i old)) ∧
        (p.item = .store id i → exec (.clusterRemoteAccess src dst) s =
          .next (wrote q q.data (fun o => o.perform i q.data))) ∧
        (∀ f dbl x, p.item = .amo id i dbl f x → exec (.clusterRemoteAccess src dst) s =
          .next (wrote q (leBytes q.n (amoValue f (8 * q.n) (leNat old) (x.toNat % 2 ^ (8 * q.n)))) fun o => o.perform i old)) ∧
        ∀ dbl e v, p.item = .cas id i dbl e v → exec (.clusterRemoteAccess src dst) s =
          if leNat old = e.toNat % 2 ^ (8 * q.n) then .next (wrote q (leBytes q.n (v.toNat % 2 ^ (8 * q.n))) fun o => o.perform i old)
          else .next ({ s with net := s.net.eraseIdx ix }.modOut src id fun o => o.perform i old))

namespace Sys2Proof.Claims

/-- The register writes `ws` of a load of bundle `n` have come into force at a core for its M class, and no other write (R160, R301). -/
def Landed (s t : State) (core n : Nat) (ws : List WriteTo) : Prop :=
  (∀ h ∈ (s.core core).writes, h ∈ (t.core core).writes) ∧
    (∀ w ∈ ws, (∀ v df, w ≠ .scalar 0 v df) →
      { cls := .m, n := n, lat := 0, sync := none, tok := none, wr := w } ∈ (t.core core).writes) ∧
    ∀ h ∈ (t.core core).writes, h ∈ (s.core core).writes ∨ h.wr ∈ ws

/-- The access records the cause that the first covering `wait` takes, and no register changes (R160, R303). -/
def Records (s t : State) (core id : Nat) (x : Cause × W64) : Prop :=
  (t.core core).writes = (s.core core).writes ∧ ∃ o, (t.core core).out id = some o ∧ o.trap = some x

/-- The address, the length and the identifier of another package's access, and the address that serves it here. -/
def spanOf (s : State) (acc : RemoteAccess) : Option (Nat × Nat × Nat × Nat) :=
  match acc with
  | .load a n id => some (a, n, id, s.ms.forward a)
  | .store a bs id => some (a, bs.length, id, s.ms.forward a)
  | .amo a _ dbl _ id | .cas a dbl _ _ id => some (a, if dbl then 8 else 4, id, s.ms.forward a)
  | .merge a _ _ id => some (a, 1, id, s.ms.forward a)
  | .pull .. => none

/-- What another package's access is answered, and the bytes that it leaves, where it writes (R165, R204). -/
def servedBy (acc : RemoteAccess) (id : Nat) (old : List Byte) : FabricItem × Option (List Byte) :=
  match acc with
  | .load .. | .pull .. => (.reply id old, none)
  | .store _ bs _ => (.ack id, some bs)
  | .amo _ f _ b _ => (.reply id old, (Rmw.amo f b).apply old.length old)
  | .cas _ _ e v _ => (.reply id old, (Rmw.cas e v).apply old.length old)
  | .merge _ mask v _ =>
    (.ack id, some [BitVec.ofNat 8 ((leNat old &&& (255 - mask)) ||| (v.toNat &&& mask))])

end Sys2Proof.Claims

/-- R145, R160 to R164, R190, R202, R204, R249, R295, R297, R301, R303, R318, R333, R334: GLOBAL_LOAD_RETURN lowers ld and writes the load's
destination from the bytes of its parts: a scalar extended and without deferred fault, a vector register lane by lane. A version that
differs is recorded, spoilt data are with their address, and bytes that do not come as PROTECTION with the address of the first of them
or REMOTE with its package; a speculative load defers these and what has been discarded. STORE_ACKNOWLEDGEMENT lowers st and raises
`ltime`, and records a fault elsewhere in the same way, or UNCORRECTABLE with the address in a DRAM bank that is gone (R334). FABRIC_ACCESS_ARRIVAL serves or refuses an access of another package, and sends a
payload that it pulls. GROUP_PACKET_RECEIVE forwards a replicated write and performs it. -/
def Obligations.AccessesReturn : Prop :=
  (∀ (s : State) (core id : Nat) (data : List Byte) (prot : Bool) (o : Outstanding),
    (s.core core).out id = some o → o.ldPend = true → (s.core core).late = [] → (∀ p ∈ o.parts, p.done = true ∨ p.place.isFar = true) →
      let ps := fillFar o.parts data
      let bytes (ps : List Part) : List (List Byte) := ps.map fun p => p.data
      let sound : Prop := s.spoiltPart o = none
      let whole : Prop := (∀ p ∈ ps, p.done = true) ∧ (o.spec = true → ∀ p ∈ ps, p.n ≠ 0)
      let deferred (ps : List Part) : List WriteTo := (o.dest.deferred ps).1.writes (bytes (o.dest.deferred ps).2)
      ∃ t, exec (.globalLoadReturn core id ⟨data, prot⟩) s = .next t ∧ (t.core core).ld < (s.core core).ld ∧ t.ms = s.ms ∧
        (∀ a, s.spoiltPart o = some a → Records s t core id (.uncorrectable, BitVec.ofNat 64 a)) ∧
        (sound → whole → o.ver = none → Landed s t core o.bundle (o.dest.writes (bytes ps)) ∧
          ∀ d sx, o.dest = .scalar d sx → d ≠ 0 → (∀ w ∈ (s.core core).writes, writesScalar d w = false) →
            ∀ see : HeldWrite → Bool, (∀ h, h.cls = .m → see h = true) →
              let bs := (bytes ps).headD []
              (t.core core).sread see d =
                { val := if sx = true then BitVec.signExtend 64 (BitVec.ofNat (8 * bs.length) (leNat bs)) else BitVec.ofNat 64 (leNat bs)
                  df := false } ∧
              ∀ q, q ≠ d → (t.core core).sread see q = (s.core core).sread see q) ∧
        (∀ v p rest, sound → whole → o.ver = some v → ps = p :: rest →
          (leNat p.data % 2 ^ 48 = v.toNat → Landed s t core o.bundle (o.dest.writes (bytes rest))) ∧
          (leNat p.data % 2 ^ 48 ≠ v.toNat → Records s t core id (.version, BitVec.ofNat 64 (leNat p.data % 2 ^ 48)))) ∧
        (∀ p, sound → ps.find? (fun p => !p.done) = some p → o.spec = false → ∃ k a, p.place = .far k a ∧
          Records s t core id (if prot = true then (.protection, p.addr) else (.remote, BitVec.ofNat 64 k))) ∧
        (sound → (∃ p ∈ ps, p.done = false) → o.spec = true → Landed s t core o.bundle (deferred ps)) ∧
        (sound → (∀ p ∈ ps, p.done = true) → o.spec = true → (∃ p ∈ ps, p.n = 0) →
          Landed s t core o.bundle (deferred (ps.map fun p => { p with done := decide (p.n ≠ 0) }))) ∧
        ∀ d sx ps, o.dest = .scalar d sx → deferred ps = [.scalar d 0 true]) ∧
  (∀ (vd cl : Nat) (is : List Nat) (df : Bool) (rest : List (Nat × List Nat × Bool)) (ds : List (List Byte)), is.length ≤ ds.length →
    LoadDest.writes (.vector vd ((cl, is, df) :: rest) []) ds =
      .vector cl vd (List.zipWith (fun i bs => (i, BitVec.ofNat 32 (leNat bs))) is ds) df ::
        LoadDest.writes (.vector vd rest []) (ds.drop is.length)) ∧
  (∀ (s : State) (core id : Nat) (failed prot : Bool) (o : Outstanding), (s.core core).out id = some o → o.stPend = true →
    (s.core core).late = [] → (∀ p ∈ o.parts, p.done = true ∨ p.place.isFar = true) →
      let gone : Prop := s.deadPart o ≠ none
      let bad := failed = true ∧ ∃ p ∈ o.parts, p.done = false
      ∃ t, exec (.storeAcknowledgement core ⟨id, failed, prot⟩) s = .next t ∧ (t.core core).st < (s.core core).st ∧ t.ms = s.ms ∧
        (t.core core).ltime = Nat.max (s.core core).ltime o.time % 2 ^ 64 ∧ (t.core core).writes = (s.core core).writes ∧
        (∀ a, s.deadPart o = some a → Records s t core id (.uncorrectable, BitVec.ofNat 64 a)) ∧
        (¬gone → bad → ∃ p k a, o.parts.find? (fun p => !p.done) = some p ∧ p.place = .far k a ∧
          Records s t core id (if prot = true then (.protection, p.addr) else (.remote, BitVec.ofNat 64 k))) ∧
        (¬gone → ¬bad → ∀ x ∈ (t.core core).outs, ∃ y ∈ (s.core core).outs, y.id = x.id ∧ y.trap = x.trap)) ∧
  (∀ (s : State) (pkg ctx : Nat) (acc : RemoteAccess) (a n id q : Nat), spanOf s acc = some (a, n, id, q) →
    (s.serves ctx a n = false → exec (.fabricAccessArrival ⟨pkg, ctx⟩ acc) s =
      .next { s with fabricOut := s.fabricOut ++ [{ pkg := pkg, channel := 1, item := .refusal id 0x0B }] }) ∧
    (s.serves ctx a n = true → isControl q = false →
      ∃ t, exec (.fabricAccessArrival ⟨pkg, ctx⟩ acc) s = .next t ∧ t.cores = s.cores ∧
        (q % 64 + n ≤ 64 → Memory.wf s.ms.mem → (∀ e ∈ s.ms.lines, e.2.data.length = 64) →
          let r := servedBy acc id (s.ms.read q n)
          t.fabricOut = s.fabricOut ++ [{ pkg := pkg, channel := 1, item := r.1 }] ∧ t.ms.read q n = r.2.getD (s.ms.read q n) ∧
            ∀ x, (x < q ∨ q + n ≤ x) → t.ms.byte x = s.ms.byte x))) ∧
  (∀ (s : State) (pkg ctx core id len n : Nat) (ahead : List Byte) (x : Started), (s.core core).started.find? (fun y => y.id == id) = some x →
    x.orphan = none → x.stage = .pulled n ahead → (x.e.vals.getD 0 0).toNat / 2 ^ 12 % 2 ^ 14 = pkg → 0 < len →
      let total := streamBytes (sendRuns x.e)
      let got := pullBytes s core x n len ahead
      let sent := got.1.1
      ∃ t, exec (.fabricAccessArrival ⟨pkg, ctx⟩ (.pull core id len)) s = .next t ∧
        match got.2.bad with
        | some c => { pkg := pkg, channel := 1, item := .refusal (core * 2 ^ 32 + id) 0x17 } ∈ t.fabricOut ∧
            ∀ y ∈ (t.core core).started, y.id = id → y.stage = .finished (outcome .faulted c.code 0 got.2.time) false
        | none => { pkg := pkg, channel := 1, item := .pullData (core * 2 ^ 32 + id) sent } ∈ t.fabricOut ∧
            ∀ y ∈ (t.core core).started, y.id = id → y.stage = if n + sent.length < total then .pulled (n + sent.length) got.1.2
              else .finished (outcome .done 0 total got.2.time) false) ∧
  ∀ (s : State) (port group origin addr : Nat) (data : List Byte),
    let e := (kget 0 s.rt.groupTable group).toNat
    let q := s.ms.forward addr
    let ours := e.testBit 36 = true ∧ origin ≠ s.pkg ∧ reachable addr data.length = true
    ∃ t, exec (.groupPacketReceive port group origin addr data) s = .next t ∧
      (∀ p < 36, ∀ k, e.testBit p = true → p ≠ port → s.portTo p = some k →
        { pkg := k, channel := 0, item := .group group p origin addr data } ∈ t.fabricOut) ∧
      (¬ours → t.ms = s.ms ∧ t.cores = s.cores) ∧
      (ours → isControl q = false → t.cores = s.cores ∧ { pkg := origin, channel := 1, item := .ack 0 } ∈ t.fabricOut ∧
        (q % 64 + data.length ≤ 64 → Memory.wf s.ms.mem → (∀ e ∈ s.ms.lines, e.2.data.length = 64) →
          t.ms.read q data.length = data ∧ ∀ x, (x < q ∨ q + data.length ≤ x) → t.ms.byte x = s.ms.byte x))

namespace Sys2Proof.Claims

/-- A Parser has credit for a message (R253, R260): an unexpected entry and eager storage are free, and the message is the next of its
pair or fewer than 64 early ones of the pair wait. -/
def Credit (p : Parser) (m : Message) : Prop :=
  let next (x : Message) : Prop := x.number = kget 0 p.expected (pairKey x.dstEp (srcOf x))
  p.unexpected.length < 2048 ∧ p.stored + (m.payload.map List.length).getD 0 ≤ 4194304 ∧
    (next m ∨ (p.reorder.filter fun x => srcOf x == srcOf m && x.dstEp == m.dstEp &&
      x.number != kget 0 p.expected (pairKey x.dstEp (srcOf x))).length < 64)

/-- A receive's operation has the outcome `st` with the message's tag (R257). -/
def Received (t : State) (x : Posted) (m : Message) (st : TokState) (cause bytes : Nat) : Prop :=
  ∀ z ∈ (t.core x.core).started, z.id = x.startedId → ∃ time, z.stage = .finished { outcome st cause bytes time with tag := m.tag } false

end Sys2Proof.Claims

/-- R216, R217, R247, R249, R250, R252 to R254, R260: MESSAGE_ARRIVAL: a message reaches its Parser while that has credit; MESSAGE_PRESENTED: the
next of a pair takes the first receive that matches, or waits among the unexpected ones while there is room; RENDEZVOUS_DATA_ARRIVAL and
LANDING_COMPLETE: it lands, and its receive ends; SEND_ACKNOWLEDGED ends a send to another package; ENDPOINT_BIND replaces an endpoint's
entry, and no receive that is posted on it and no early message from it stays; STRIP_ARRIVAL: a strip reaches its slot. That a strip into a
polder beyond its context's scratch faults with ADDRESS_SPACE is the model's reading (log 34). -/
def Obligations.MessagesAndStripsArrive : Prop :=
  (∀ (s u : State) (col : Nat) (m : Message), (if m.srcPkg = s.pkg then takeLocal s m else some s) = some u →
    ((u.endpoint m.dstEp).valid = true → (u.endpoint m.dstEp).col = col →
      (Credit (u.parser col) m → exec (.messageArrival col m) s =
        .next (u.setParser col { u.parser col with reorder := (u.parser col).reorder ++ [m] })) ∧
      (¬Credit (u.parser col) m → exec (.messageArrival col m) s = .next s)) ∧
    ((u.endpoint m.dstEp).valid = false → exec (.messageArrival col m) s = .next (u.ackSender m 0x17 0))) ∧
  (∀ (s : State) (col src dst i : Nat) (m : Message), (s.parser col).nextOf src dst = some i →
    (s.parser col).reorder[i]? = some m →
      let size := (s.parser col).stored + (m.payload.map List.length).getD 0
      let counts := kset 0 (s.parser col).expected (pairKey dst src) (m.number + 1)
      ((s.parser col).takes m = none → (s.parser col).unexpected.length < 2048 → size ≤ 4194304 →
          ∃ t, exec (.messagePresented col src dst) s = .next t ∧
            (t.parser col).unexpected = (s.parser col).unexpected ++ [m] ∧ (t.parser col).expected = counts ∧
            (t.parser col).reorder = (s.parser col).reorder.eraseIdx i ∧
            (m.payload.isSome = true → m.srcPkg ≠ s.pkg →
              t.fabricOut = s.fabricOut ++ [{ pkg := m.srcPkg, channel := 1, item := .messageAck m 0 }])) ∧
      ((s.parser col).takes m = none → (2048 ≤ (s.parser col).unexpected.length ∨ 4194304 < size) →
        exec (.messagePresented col src dst) s = .next s) ∧
      ∀ j x, (s.parser col).takes m = some j → (s.parser col).posted[j]? = some x →
        ∃ t, exec (.messagePresented col src dst) s = .next t ∧ (t.parser col).posted = (s.parser col).posted.eraseIdx j ∧
          (t.parser col).reorder = (s.parser col).reorder.eraseIdx i ∧ (t.parser col).expected = counts ∧
          (t.parser col).landing = (s.parser col).landing ++
            [{ x with landing := some m, landed := 0, ack := m.payload.isSome }] ∧
          t.fabricOut = if m.payload = none ∧ m.srcPkg ≠ s.pkg
            then s.fabricOut ++ [{ pkg := m.srcPkg, channel := 0, item := .pull m }] else s.fabricOut) ∧
  (∀ (s : State) (col idx : Nat) (x : Posted) (m : Message) (y : Started), (s.parser col).landing[idx]? = some x →
    x.landing = some m → postedOp s x = some y → y.orphan = none → heldLanding s x = false →
      let room := streamBytes x.runs
      ((m.payload.isSome = true ∨ m.length ≤ x.landed) → ∃ t, exec (.landingComplete col idx) s = .next t ∧
        (t.parser col).landing = (s.parser col).landing.eraseIdx idx ∧
        ((landBytes x (m.payload.getD []) (s.flow x.core y.e (landTime s x) [])).1.bad = none → x.env = none →
          Received t x m (if m.length ≤ room then .done else .faulted) (if m.length ≤ room then 0 else 0x19) (Nat.min m.length room))) ∧
      (m.payload = none → x.landed < m.length → ∀ data fault,
        let got := if m.srcPkg = s.pkg then pullLocal s x m
          else if fault = true then .error .remote else .ok (data.take (m.length - x.landed), 0, s)
        (∀ c, got = .error c → ∃ t, exec (.rendezvousDataArrival col idx data fault) s = .next t ∧
          (t.parser col).landing = (s.parser col).landing.eraseIdx idx ∧ Received t x m .faulted 0x17 (Nat.min x.landed room)) ∧
        ∀ bs rt u, got = .ok (bs, rt, u) → (u.parser col).landing = (s.parser col).landing →
          (landBytes x bs (u.flow x.core y.e (Nat.max rt (landTime u x)) [])).1.bad = none →
            ∃ t, exec (.rendezvousDataArrival col idx data fault) s = .next t ∧
              (t.parser col).landing[idx]? = some { x with landed := x.landed + bs.length })) ∧
  (∀ (s : State) (core idx : Nat) (failed : Bool) (x : Started) (e r n : Reg) (b : Bool) (tw : TokenWord),
    (s.core core).started[idx]? = some x → x.e.op = .send e r n b tw → (x.e.vals.getD 0 0).toNat / 2 ^ 12 % 2 ^ 14 ≠ s.pkg →
      let total := streamBytes (sendRuns x.e)
      let cause := if failed = true then 0x17 else 0
      let bytes := if failed = true then 0 else total
      let out := outcome (if failed = true then .faulted else .done) cause bytes (Nat.max x.e.time x.e.inTime)
      ((x.stage = .waiting ∨ (failed = true ∧ ∃ ahead, x.stage = .pulled 0 ahead)) →
        ∃ t, exec (.sendAcknowledged core idx cause bytes) s = .next t ∧ t.ms = s.ms ∧
          ∀ y ∈ (t.core core).started, y.id = x.id → y.stage = .finished out false) ∧
      (∀ k ahead, x.stage = .pulled k ahead → (k ≠ 0 ∨ failed = false) → exec (.sendAcknowledged core idx cause bytes) s = .next s) ∧
      ∀ c b, (c ≠ 0x17 ∨ b ≠ 0) → (c ≠ 0 ∨ b ≠ total) → exec (.sendAcknowledged core idx c b) s = .next s) ∧
  (∀ (s : State) (ep ctx col : Nat) (valid : Bool), ep < 4096 → ∃ t, exec (.endpointBind ep valid ctx col) s = .next t ∧
    t.endpoint ep = (if valid = true then { valid := true, ctx := ctx % 65536, col := col % 8 }
      else { valid := false, ctx := 0, col := 0 }) ∧ (∀ q, q ≠ ep → t.endpoint q = s.endpoint q) ∧
    (∀ k, k / 2 ^ 26 = ep → kget 0 t.hub.sendNo k = 0) ∧ (∀ x ∈ (t.parser (s.endpoint ep).col).posted, x.ep ≠ ep) ∧
    ∀ x ∈ t.hub.parsers, ∀ m ∈ x.2.reorder, srcOf m ≠ s.pkg * 4096 + ep) ∧
  ∀ (s : State) (desc polder region slot : Nat) (y : Strip),
    let mine := s.hub.strips.filter fun y => y.desc == desc && y.polder == polder && y.region == region && y.slot == slot
    (mine.find? (fun z => stripPkg s z != s.pkg) = some y →
      ∃ t, exec (.stripArrival desc polder region slot) s = .next t ∧ y ∉ t.hub.strips ∧ t.ms = s.ms ∧
        ((∃ z ∈ (s.core y.core).started, z.id = y.startedId ∧ z.stage = .waiting) →
          ∀ z ∈ (t.core y.core).started, z.id = y.startedId →
            if s.lost (stripPkg s y) = true then ∃ time, z.stage = .finished (outcome .faulted 0x17 0 time) false
            else (∀ x ∈ t.hub.strips, x.core = y.core → x.startedId = y.startedId → x.cells = []) →
              ∃ o, z.stage = .finished o false ∧ o.st = .done)) ∧
    ∀ x, mine.find? (fun z => stripPkg s z != s.pkg) = none → mine.find? (deliverable s) = some y →
      s.polder y.ctx desc polder = some x →
        (s.shrunk y.ctx x.grid polder = true → ∃ t, exec (.stripArrival desc polder region slot) s = .next t ∧ y ∉ t.hub.strips ∧ t.ms = s.ms ∧
          ((∃ z ∈ (s.core y.core).started, z.id = y.startedId ∧ z.stage = .waiting) →
            ∀ z ∈ (t.core y.core).started, z.id = y.startedId → ∃ time, z.stage = .finished (outcome .faulted 0x08 0 time) false)) ∧
        (s.shrunk y.ctx x.grid polder = false → ∃ t x', exec (.stripArrival desc polder region slot) s = .next t ∧ y ∉ t.hub.strips ∧ t.polder y.ctx desc polder = some x' ∧
          (stepAt x'.tags (2 * region + slot) = some y.step ∨ (2 * region + slot, y.step, y.src) ∈ x'.wrote))

namespace Sys2Proof.Claims

/-- What a block of an `mma` leaves in word `q` of its accumulator tile that held `old`, and the flags (R88 to R91): the exact sum of the
block's 32 products of the word's row and column, scaled, added once. -/
def blockElement (ta tb sh tacc planes : Nat) (sp : Bool) (b : Block) (q old : Nat) : Nat × FlagSet :=
  let (_, n, k) := mmaDims sh
  let cut (xs : List Elem) : List Elem := (xs.drop (32 * b.idx)).take 32
  let sum := blockSum (ta == 7) (cut ((aRows ta (mmaDims sh).1 k b.a).getD (q / n) []))
    (cut ((bCols tb n k planes sp b.b b.md).getD (q % n) []))
  if tacc = 10 then accumInt old (scaled 0 sum.1)
  else
    let y := scaleSum sum (b.ea.bind fun e => e[q / n]?) (b.eb.bind fun e => e[q % n]?)
    ((accumFloat old y.1).1, (accumFloat old y.1).2 ||| flagIf y.2 flNV)

/-- Bytes of a core's R-buffer from an address on. -/
def rBytes (s : State) (core : Nat) (a : W64) (at_ n : Nat) : List Byte := s.readPlace (.buf core .r (a.toNat % 2 ^ 18 + at_)) n

/-- Word `q` of a tile in a core's R-buffer. -/
def rWord (s : State) (core : Nat) (a : W64) (q : Nat) : Nat := leNat (rBytes s core a (4 * q) 4)

/-- Flags of a block are held for `status`, where there are any (R80, R140). -/
def HoldsFlags (t : State) (core : Nat) (e : EngEntry) (fl : FlagSet) : Prop :=
  fl ≠ 0 → { cls := .x, n := e.bundle, lat := 0, sync := none, tok := tokOf e.prod, wr := .flags (BitVec.ofNat 64 fl) } ∈ (t.core core).writes

/-- The update of the oldest block `b` of a core when its time has come and nothing may still scale it (R174). -/
def Updated (s t : State) (core : Nat) (b : Block) : Prop :=
  let v (i : Nat) : W64 := b.e.vals.getD i 0
  let time := Nat.max b.e.time b.e.inTime
  let ends (n : Nat) : Prop := b.last = true → ∀ y ∈ (t.core core).started, y.id = b.e.serial → y.stage = .finished (outcome .done 0 n time) false
  (∀ d tw, b.e.op = .mmz d tw → rBytes t core (v 0) 0 4096 = List.replicate 4096 0 ∧ (t.core core).writes = (s.core core).writes ∧ ends 4096) ∧
  ((s.core core).hist = [] → b.e.stale = [] →
    (∀ x y z sh sp ta tb tacc tres planes res md tw, b.e.op = .mma x y z sh sp ta tb tacc tres planes res md tw →
      let new (q : Nat) : Nat × FlagSet := blockElement ta.val tb.val sh.val tacc.val planes.val sp b q (rWord s core (v 3) q)
      let fl := orFlags ((List.range 1024).map fun q => (new q).2)
      let converts : Prop := b.last = true ∧ res ≠ 0
      let apart : Prop := (v 4).toNat % 2 ^ 18 + 4096 ≤ (v 3).toNat % 2 ^ 18 ∨ (v 3).toNat % 2 ^ 18 + 4096 ≤ (v 4).toNat % 2 ^ 18
      (¬converts ∨ apart → ∀ q < 1024, rWord t core (v 3) q = (new q).1 % 2 ^ 32) ∧ (¬converts → HoldsFlags t core b.e fl) ∧
      (converts → ∃ cs, cs = convertWords tacc.val tres.val ((List.range 1024).map fun q => (new q).1) ∧
        rBytes t core (v 4) 0 cs.1.length = cs.1 ∧ HoldsFlags t core b.e (fl ||| cs.2)) ∧
      (b.last = true → ∀ y ∈ (t.core core).started, y.id = b.e.serial → ∃ n, y.stage = .finished (outcome .done 0 n time) false)) ∧
    (∀ x y src dst tw, b.e.op = .mcvt x y src dst tw →
      let new (q : Nat) : Nat × FlagSet := convertTo dst.val (codeVal src.val (rWord s core (v 1) q))
      let n := 1024 * (typeBits dst.val / 8)
      (∀ q < 1024, leNat (rBytes t core (v 0) (q * (typeBits dst.val / 8)) (typeBits dst.val / 8)) =
        (new q).1 % 2 ^ (8 * (typeBits dst.val / 8))) ∧
      HoldsFlags t core b.e (orFlags ((List.range 1024).map fun q => (new q).2)) ∧ (8 ∣ typeBits dst.val → ends n)) ∧
    (∀ x y sh size tw, b.e.op = .mtr x y sh size tw → (v 1).toNat / 2 ^ 60 = 0xA →
      let rows := (aShape sh.val).1
      let cols := (aShape sh.val).2
      let z := 2 ^ size.val
      (∀ i < rows, ∀ k < cols, rBytes t core (v 0) ((k * rows + i) * z) z = rBytes s core (v 1) ((i * cols + k) * z) z) ∧
      (t.core core).writes = (s.core core).writes ∧ ends (rows * cols * z)) ∧
    ∀ x y ty tw, b.e.op = .macc x y ty tw →
      let add (q : Nat) : Nat := if (v 1).toNat / 2 ^ 60 = 0xA then rWord s core (v 1) q else leAt b.a (4 * q) 4
      let new (q : Nat) : Nat × FlagSet := if ty = 10 then accumInt (rWord s core (v 0) q) (signed 32 (add q))
        else accumFloat (rWord s core (v 0) q) (decodeFloat fp32 (add q))
      (∀ q < 1024, rWord t core (v 0) q = (new q).1 % 2 ^ 32) ∧
      HoldsFlags t core b.e (orFlags ((List.range 1024).map fun q => (new q).2)) ∧ ends 4096)

end Sys2Proof.Claims

/-- R88 to R92, R174, R178 to R180, R182 to R185, R198, R257, R333: OPERAND_CHUNK_ARRIVAL: chunks are fetched, and spoilt data end the
operation; MATRIX_OPERATION_START: the head of the matrix queue starts its blocks at its cycle, an `mscl` sets its CSRs and empties its
cache; MPS_LEAVE_HEAD: an `mps` leaves the head, and misses where no block is due; ACCUMULATOR_UPDATE: at I + D + 20 the oldest block of an
`mma`, `mmz`, `mcvt`, `mtr` or `macc` writes its elements and its flags; FETCH_FAULT traps its core; COPY_CHUNK: a copy goes on chunk by
chunk. That a record of an X-slot operation other than `mma` counts the bytes of its destination tile is the model's reading of R257
(log 14); so is the tval of a FETCH_FAULT (log 39). -/
def Obligations.MatrixAndCopyProgress : Prop :=
  (∀ (s : State) (core q : Nat) (e : EngEntry) (es : List EngEntry), (s.core core).mx.queue = e :: es →
    (s.core core).leaveCycle e = some q → q ≤ s.cycle → (s.core core).engines = true →
      ((∀ d sides, e.op ≠ .mps d sides) → (∀ j a n, e.op ≠ .mscl j a n) → e.cancelled = none →
        ∃ t, exec (.matrixOperationStart core) s = .next t ∧ (t.core core).mx.queue = es ∧
          (t.core core).mx.blocks = (s.core core).mx.blocks ++ newBlocks s core e q ∧
          (t.core core).mx.freeAt = q + e.blocks.2 * e.blocks.1 ∧ t.ms = s.ms) ∧
      (∀ j a n, e.op = .mscl j a n → ∃ t, exec (.matrixOperationStart core) s = .next t ∧ (t.core core).mx.queue = es ∧
        (if j.val = 0 then (t.core core).scale0 else (t.core core).scale1) = [] ∧
        ∀ w ∈ [(0x030 + 2 * j.val, e.vals.getD 0 0), (0x031 + 2 * j.val, BitVec.ofNat 64 n.val)],
          { cls := .x, n := e.bundle, lat := 0, sync := none, tok := none, wr := .csr w.1 w.2 } ∈ (t.core core).writes) ∧
      ∀ d sides, e.op = .mps d sides → ∃ t, exec (.mpsLeaveHead core) s = .next t ∧ (t.core core).mx.queue = es ∧
        ((∀ b ∈ (s.core core).mx.blocks, b.start + 12 ≠ q) →
          { cls := .x, n := e.bundle, lat := 0, sync := none, tok := none, wr := .flags (BitVec.ofNat 64 flMPS) } ∈ (t.core core).writes)) ∧
  (∀ (s : State) (core : Nat) (b : Block) (bs : List Block), (s.core core).mx.blocks = b :: bs →
    (s.cycle < b.start + b.dur + 20 → exec (.accumulatorUpdate core) s = .next s) ∧
    (b.start + b.dur + 20 ≤ s.cycle → ((s.core core).scaleOpen b = false ∨ (s.core core).engines = false) → Memory.wf (s.core core).rbuf →
      ∃ t, exec (.accumulatorUpdate core) s = .next t ∧ (t.core core).mx.blocks = bs ∧ t.ms = s.ms ∧ Updated s t core b)) ∧
  (∀ (s : State) (core operand chunk : Nat) (data : List Byte) (e : EngEntry), (s.core core).fetcher operand chunk = some e →
    (s.core core).engines = true →
      let a := (e.chunks operand).getD chunk 0
      let f := Flow.read { s.flow core e e.time data with matrix := true } a 64
      (fetchCause s core a = none → Sys2Proof.Machine.heldBy s core a = false → f.2.bad = none →
        ∃ t, exec (.operandChunkArrival core operand chunk data) s = .next t ∧
          kget [] (t.core core).mx.staging (stageKey e.serial operand chunk) = f.1) ∧
      (fetchCause s core a = none → Sys2Proof.Machine.heldBy s core a = false → f.2.bad = some .uncorrectable →
        ∃ t, exec (.operandChunkArrival core operand chunk data) s = .next t ∧
          ∃ y ∈ (t.core core).started, y.id = e.serial ∧ y.stage = .finished (outcome .faulted Cause.uncorrectable.code 0 0) false) ∧
      ∀ w, fetchCause s core a = some w → isFw core = false →
        ∃ t, exec (.fetchFault core operand chunk w.code) s = .next t ∧ (t.core core).run = .trapped ∧
          (t.core core).csrNow 0x050 = BitVec.ofNat 64 (w.code + 256) ∧ (t.core core).csrNow 0x052 = a) ∧
  ∀ (s : State) (core idx chunk : Nat) (data : List Byte) (x : Started) (total : Nat) (done : List Nat),
    (s.core core).started[idx]? = some x → x.stage = .copying total done →
      (chunk ∈ done → exec (.copyChunk core idx chunk data) s = .next s) ∧
      (chunk ∉ done → (s.core core).engines = true → (findChunk (copyPlan core x.e).segs chunk).isSome = true →
        ∃ t, exec (.copyChunk core idx chunk data) s = .next t ∧
          ∀ y ∈ (t.core core).started, y.id = x.id → y.stage = .copying total (chunk :: done) ∨ ∃ o, y.stage = .finished o false) ∧
      ∀ g i, chunk ∉ done → (s.core core).engines = true → findChunk (copyPlan core x.e).segs chunk = some (g, i) →
        let got := Flow.readAll g (g.range i) (s.flow core x.e (Nat.max x.e.time x.e.inTime) data)
        got.2.bad = none → ((copyPlan core x.e).receivers = none → writeFault s core (g.byteMoves got.1 ++ g.secondMoves got.1) = none) →
          ∃ t time, exec (.copyChunk core idx chunk data) s = .next t ∧
            ∀ y ∈ (t.core core).started, y.id = x.id → y.stage = if done.length + 1 = total
              then .finished (outcome .done 0 (copyPlan core x.e).bytes time) false else .copying total (chunk :: done)

/-- R9, R11, R192, R299, R320, R330 to R334, R350: LMODE_WRITE and LAYER_MODE_SWITCH_DONE: a layer mode switches when its operations have
completed; THERMAL_MIGRATION and MIGRATION_MOVE: scratch ways move with their bytes, once the copies that write them and the accesses that
memory slots owe them are over; SLOT_TABLE_INSTALL: slot tables are installed on their cycle; ZONE_TEMPERATURE: an over-hot zone halts the
package; CORRECTABLE_ERROR: error windows count; UNCORRECTABLE_ERROR: a load records it, and the line stays spoilt; RETIREMENT: retired units
are replaced or leave use, a scratch bank after a migration under way; a DRAM bank gets spare rows, and with none left no access to it
succeeds. How many spare rows there are and which lines a bank holds is left open (log 34). -/
def Obligations.MemoryHeatAndErrorEvents : Prop :=
  (∀ (s : State) (col : Nat) (mode old : Bool), s.layerMode col = some old →
    (∃ t, exec (.lmodeWrite col mode) s = .next t ∧ t.layerMode col = none ∧ t.ms.mem = s.ms.mem ∧
      (s.layerBusy col = true → exec (.layerModeSwitchDone col) t = .next t) ∧
      (s.layerBusy col = false → ∃ u, exec (.layerModeSwitchDone col) t = .next u ∧ u.layerMode col = some mode)) ∧
    exec (.layerModeSwitchDone col) s = .next s) ∧
  (∀ (s : State) (col : Nat) (mode : Bool), s.layerMode col = none → exec (.lmodeWrite col mode) s = .next s) ∧
  (∀ (s : State) (ctx col : Nat) (moves : List (Nat × Nat × Nat)),
    (s.ms.migration.isSome = true → exec (.thermalMigration ctx col moves) s = .next s) ∧
    (s.ms.migration = none → ∃ t m, exec (.thermalMigration ctx col moves) s = .next t ∧ t.ms.migration = some m ∧
      m.ctx = ctx ∧ m.col = col ∧ m.bank = none ∧ m.after = [] ∧ t.ms.mem = s.ms.mem ∧ t.cores = s.cores ∧
      ∀ x, x ∈ m.moves ↔ x ∈ moves ∧ x.1 ∈ s.ms.ways ctx col ∧ x.2.1 < 8 ∧ x.2.2 < 16 ∧ x.2.1 ≠ col ∧
        (s.ms.owner x.2.1 x.2.2).scratch = false)) ∧
  (∀ (s : State) (m : Migration), s.ms.migration = some m →
    let going := ∃ x ∈ m.copies, (s.core x.1).engines = true ∧
      ∃ y ∈ (s.core x.1).started, y.id = x.2 ∧ ∃ total done, y.stage = .copying total done
    let owed := s.owesTo fun w => m.moves.any fun x => decide (s.ms.served m.ctx m.col x.1 = w)
    (∀ col, (col ≠ m.col ∨ going ∨ owed = true) → exec (.migrationMove col) s = .next s) ∧
    (∀ c w, (s.ms.owner c (w % 16)).scratch = true → exec (.retirement (.nearBank c w)) s =
      .next { s with ms := { s.ms with migration := some { m with after := m.after ++ [(c, w)] } } }) ∧
    (¬going → owed = false → ∃ t, exec (.migrationMove m.col) s = .next t ∧ t.ms.migration = none ∧
      t.agenda = s.agenda ++ m.after.map (fun x => .retirement (.nearBank x.1 x.2)) ∧
      ∀ w d v, m.moves = [(w, d, v)] → w ∈ s.ms.ways m.ctx m.col → (s.ms.owner d v).scratch = false →
        t.ms.owner d v = { scratch := true, ctx := m.ctx, origin := m.col } ∧ t.ms.served m.ctx m.col w = (d, v) ∧
        (s.ms.lines = [] → Memory.wf s.ms.mem → ∀ off < 0x8000000,
          mread t.ms.mem (wayBase d v + off) 1 =
            mread s.ms.mem (wayBase (s.ms.served m.ctx m.col w).1 (s.ms.served m.ctx m.col w).2 + off) 1))) ∧
  (∀ s : State, ∃ t, exec .slotTableInstall s = .next t ∧
    t.rt.installs = (s.rt.installs.filter fun x => !decide (x.due ≤ s.cycle)) ∧
    ∀ x ∈ s.rt.installs, x.due ≤ s.cycle →
      (∀ y ∈ (t.core x.core).started, y.id = x.startedId → ∃ o, y.stage = .finished o false ∧ o.st = .done) ∧
      ((∀ y ∈ s.rt.installs, y.router = x.router → y = x) → kget [] t.rt.slotTables x.router = x.table)) ∧
  (∀ (s : State) (col zone celsius : Nat), col < 8 → zone < 16 → ∃ t, exec (.zoneTemperature col zone celsius) s = .next t ∧
    t.ms = s.ms ∧ (celsius < 95 → t.hub = s.hub ∧ t.cores = s.cores) ∧
    (95 ≤ celsius → celsius < 105 → t.cores = s.cores ∧ ∃ f, kget [] t.hub.fwEvents f =
      kget [] s.hub.fwEvents f ++ [{ source := 2, cause := 0, tval := 0 }]) ∧
    (105 ≤ celsius → t.sec.phase = .halted ∧ t.fe.pool = [] ∧ ∀ e ∈ t.cores, e.2.run = .off)) ∧
  (∀ (s : State) (u : UnitId) (w : ErrWindow), s.hub.windows.find? (fun w => w.u == u) = some w →
    let n := if s.cycle - w.start ≤ s.hub.errW then w.count + 1 else 1
    let start := if s.cycle - w.start ≤ s.hub.errW then w.start else s.cycle
    (n < s.hub.thresh → ∃ t, exec (.correctableError u) s = .next t ∧
      t.hub.windows.head? = some { w with start := start, count := n } ∧ t.hub.fwEvents = s.hub.fwEvents) ∧
    (s.hub.thresh ≤ n → ∃ t, exec (.correctableError u) s = .next t ∧
      t.hub.windows.head? = some { w with start := start, count := 0 } ∧ ∃ f, kget [] t.hub.fwEvents f =
        kget [] s.hub.fwEvents f ++ [{ source := 3, cause := 0, tval := 0 }])) ∧
  (∀ (s : State) (core n addr : Nat) (o : Outstanding) (b : Bool), (s.core core).out n = some o → o.ldPend = true →
    (s.core core).late = [] →
      ∃ t o', exec (.uncorrectableError core b (some n) addr) s = .next t ∧ (t.core core).out n = some o' ∧
        o'.trap = some (.uncorrectable, BitVec.ofNat 64 addr) ∧ o'.ldPend = false ∧ (t.core core).writes = (s.core core).writes ∧
        (isDram addr = true ∨ isScratch addr = true → addr / 64 ∈ t.ms.faulty)) ∧
  (∀ (s : State) (core addr : Nat), isFw core = false → s.launch (s.core core).lid = none →
    exec (.uncorrectableError core false none addr) s = .next s ∧
    exec (.uncorrectableError core true none addr) s = exec (.retirement (.userCore core)) s) ∧
  (∀ (s : State) (n : Nat), s.launch (s.core n).lid = none → ∃ t, exec (.retirement (.userCore n)) s = .next t ∧
    let spare := Nat.min 3 (Config.goodCores (colOf n) - 257)
    if kget 0 s.hub.sparesUsed (colOf n) < spare then
      kget 0 t.hub.sparesUsed (colOf n) = kget 0 s.hub.sparesUsed (colOf n) + 1 ∧ t.hub.absent = s.hub.absent
    else n ∈ t.hub.absent) ∧
  ∀ s : State,
    (∀ n, ∃ t, exec (.retirement (.router n)) s = .next t ∧ UnitId.router n ∈ t.hub.retired) ∧
    (∀ c < 8, ∃ t, exec (.retirement (.firmwareCore c)) s = .next t ∧ UnitId.firmwareCore c ∈ t.hub.retired ∧
      kget [] t.hub.fwEvents ((c + 1) % 8) = kget [] s.hub.fwEvents ((c + 1) % 8) ++ kget [] s.hub.fwEvents c ∧
      (t.core (0xF000 + c)).run = .off) ∧
    (∀ c w, (s.ms.owner c (w % 16)).scratch = false → ∃ t, exec (.retirement (.nearBank c w)) s = .next t ∧
      t.ms.owner c (w % 16) = .outOfUse ∧ UnitId.nearBank c w ∈ t.hub.retired) ∧
    (∀ c w, UnitId.dramBank c w ∉ s.hub.retired → ∃ t, exec (.retirement (.dramBank c w)) s = .next t ∧ UnitId.dramBank c w ∈ t.hub.retired ∧
      ((s.hub.retired.filter fun u => match u with | .dramBank d _ => d == c | _ => false).length < Config.spareBanks c → t.ms = s.ms) ∧
      (Config.spareBanks c ≤ (s.hub.retired.filter fun u => match u with | .dramBank d _ => d == c | _ => false).length →
        ∀ l, isDram (64 * l) = true → homeCol (64 * l) = c → Config.dramBank l = w → t.ms.deadAt (.phys (64 * l)) 64 = some (64 * l))) ∧
    ∀ p, ∃ t, exec (.retirement (.fabricLink p)) s = .next t ∧ UnitId.fabricLink p ∈ t.hub.retired ∧
      (kget 0 t.rt.groupRegs (17 + p)).toNat % 4 = 0

/-- R28, R44, R46, R95, R99, R202, R220, R225, R226: BUNDLE_FETCH decodes the bundle at the pc; one that breaks a rule traps once every class
has dispatched the earlier ones; WATCHDOG, STEP_STALE (a stale read at its limit, in the bundle that the M class has next) and STUCK_CORE
with an exhausted spill pool trap; a stuck core's queue grows; LTIME_ADVANCE advances every clock. That `tepc` of the watchdog is the oldest
bundle that a class has still to dispatch, and that of a stuck core the one where the class of the full queue waits, is the model's
choice where classes lag (log 7). -/
def Obligations.CoreEvents : Prop :=
  (∀ (s : State) (core : Nat), (s.core core).run = .running → (s.core core).fetched = none → (s.core core).closing = none →
    (s.core core).ending = none →
    let k := s.core core
    (∀ b, decodeBundle k.fetch k.pc (isFw core) = .ok b →
      exec (.bundleFetch core) s = .next (s.setCore core { k with fetched := some b })) ∧
    (∀ d, decodeBundle k.fetch k.pc (isFw core) = .error d → k.slips ≠ [] →
      exec (.bundleFetch core) s = .next (s.setCore core { k with hold := .slip })) ∧
    ∀ d, decodeBundle k.fetch k.pc (isFw core) = .error d → k.slips = [] → isFw core = false →
      ∃ t, exec (.bundleFetch core) s = .next t ∧ (t.core core).run = .trapped ∧
        (t.core core).csrNow 0x050 = BitVec.ofNat 64 (defectTrap d).cause.code ∧
        (t.core core).csrNow 0x051 = BitVec.ofNat 64 (k.pc % 16384)) ∧
  (∀ (s : State) (core : Nat), isFw core = false → (s.core core).busy = true →
    let k := s.core core
    let lim := (k.csrNow 0x068).toNat
    ((lim = 0 ∨ k.wdogCount < lim) → exec (.watchdog core) s = .next s) ∧
    (lim ≠ 0 → lim ≤ k.wdogCount → k.wdogSeen < lim → ∃ t, exec (.watchdog core) s = .next t ∧ (t.core core).run = .trapped ∧
      (t.core core).csrNow 0x050 = 0x13 ∧ (t.core core).csrNow 0x051 = BitVec.ofNat 64 (k.stopPc % 16384) ∧
      (t.core core).csrNow 0x052 = BitVec.ofNat 64 lim)) ∧
  (∀ (s : State) (core slot step limit : Nat), (s.core core).hold = .staleBy slot step limit → isFw core = false →
    (s.core core).run = .running → (s.core core).slips = [] →
      ((s.core core).holdCount < limit → exec (.stepStale core) s = .next s) ∧
      (limit ≤ (s.core core).holdCount → ∃ t, exec (.stepStale core) s = .next t ∧ (t.core core).run = .trapped ∧
        (t.core core).csrNow 0x050 = 0x0D ∧ (t.core core).csrNow 0x051 = BitVec.ofNat 64 ((s.core core).pc % 16384) ∧
        (t.core core).csrNow 0x052 = BitVec.ofNat 64 step)) ∧
  (∀ (s : State) (core slot step limit : Nat) (x : Slip), (s.core core).slips.find? (fun x => x.cls == .m) = some x →
    x.why = .staleBy slot step limit → isFw core = false → (s.core core).run = .running →
      (((s.core core).holdCount < limit ∨ ∃ y ∈ (s.core core).slips, y.cur.bn < x.cur.bn) → exec (.stepStale core) s = .next s) ∧
      (limit ≤ (s.core core).holdCount → x.cur.bn ≤ (s.core core).bn → (∀ y ∈ (s.core core).slips, x.cur.bn ≤ y.cur.bn) →
        ∃ t, exec (.stepStale core) s = .next t ∧ (t.core core).run = .trapped ∧ (t.core core).csrNow 0x050 = 0x0D ∧
          (t.core core).csrNow 0x051 = BitVec.ofNat 64 (x.cur.pc % 16384) ∧ (t.core core).csrNow 0x052 = BitVec.ofNat 64 step)) ∧
  (∀ (s : State) (core q : Nat), isFw core = false → (s.core core).busy = true → 64 ≤ (s.core core).idle →
    (s.core core).smallestFull = some q →
      (kget 0 s.spill (clusterOf core) + 16 ≤ 1024 → ∃ t, exec (.stuckCore core) s = .next t ∧
        kget 0 (t.core core).extensions q = kget 0 (s.core core).extensions q + 16 ∧
        kget 0 t.spill (clusterOf core) = kget 0 s.spill (clusterOf core) + 16 ∧ (t.core core).run = (s.core core).run) ∧
      (1024 < kget 0 s.spill (clusterOf core) + 16 → ∃ t, exec (.stuckCore core) s = .next t ∧ (t.core core).run = .trapped ∧
        (t.core core).csrNow 0x050 = 0x11 ∧ (t.core core).csrNow 0x052 = BitVec.ofNat 64 q ∧
        (t.core core).csrNow 0x051 = BitVec.ofNat 64 ((s.core core).lagsAt (if q = 1 then .x else .a) % 16384))) ∧
  ∀ s : State, ∃ t, exec .ltimeAdvance s = .next t ∧
    (∀ i, (i < 2048 ∨ (0xF000 ≤ i ∧ i < 0xF008)) → (t.core i).ltime = ((s.core i).ltime + 1) % 2 ^ 64) ∧
    (∀ i, (t.core i).sregs = (s.core i).sregs) ∧ t.ms = s.ms

namespace Sys2Proof.Claims

/-- The front end has raised a firmware event with source 1 (R142, R233). -/
def RaisesEvent (s t : State) : Prop :=
  ∃ f, kget [] t.hub.fwEvents f = kget [] s.hub.fwEvents f ++ [{ source := 1, cause := 0, tval := 0 }]

/-- The context of a started operation's task. -/
def taskCtx (s : State) (w : Nat × Started) : Nat := w.2.orphan.getD (s.core w.1).ctx

end Sys2Proof.Claims

/-- R229 to R233, R239: WAKE_WRITE commits a wake and WAKE_PROCESS checks it and takes its tail; NOP_COMMAND, LAUNCH_COMMAND and SIGNAL take
commands from their queues in order, COMMAND_OF_ANOTHER_KIND puts its queue in ERROR; QUANT_EXPIRY, every QUANT cycles, HEAD_WAIT_TIMEOUT,
for a head command that has waited 4,096 cycles, and a refused wake raise firmware events with source 1;
QUEUE_RESET, QUEUE_LOAD and QUEUE_UNLOAD change a queue's entry; POOL_GROWTH: a full pool grows, or faults the youngest waiting launch. -/
def Obligations.FrontEndEvents : Prop :=
  (∀ (s : State) (page o : Nat) (v : W64), page < 256 → o ≤ 32 → o % 8 = 0 → s.sec.phase = .firmware →
    ∃ t, exec (.wakeWrite page o v) s = .next t ∧ kget 0 t.fe.wakeRegs (page * 8 + o / 8) = v ∧
      t.fe.wakes.length = s.fe.wakes.length + (if o = 32 then 1 else 0)) ∧
  (∀ (s : State) (w : Wake) (ws : List Wake), s.fe.wakes = w :: ws → capMac s w.words ≠ w.words.getD 3 0 →
    ∃ t, exec .wakeProcess s = .next t ∧ t.fe.wakes = ws ∧ t.fe.rejects = s.fe.rejects + 1 ∧ RaisesEvent s t) ∧
  (∀ (s : State) (w : Wake) (ws : List Wake) (e : Nat) (q : QueueEntry), s.fe.wakes = w :: ws → w.device = none →
    capMac s w.words = w.words.getD 3 0 → s.queue e = q →
    (s.fe.queues.find? fun x => x.2.state != .free && x.2.base == w.words.getD 0 0 && x.2.nonce == (w.words.getD 2 0).toNat) = some (e, q) →
    q.state ≠ .error → (w.words.getD 1 0).toNat.testBit 8 = true → q.tail ≤ w.tail.toNat → w.tail.toNat - q.head ≤ 2 ^ q.size →
      ∃ t, exec .wakeProcess s = .next t ∧ t.fe.wakes = ws ∧ t.fe.rejects = s.fe.rejects ∧ (t.queue e).tail = w.tail.toNat ∧
        (t.queue e).head = q.head ∧ (q.head < w.tail.toNat → (t.queue e).state = .active)) ∧
  (∀ (s : State) (e : Nat) (k : CommandKind) (x : HubFlow), s.arbiter = some (e, k, x) →
    (k = .nop → ∃ t, exec .nopCommand s = .next t ∧ (t.queue e).head = (x.st.queue e).head + 1) ∧
    (k = .launch → ∃ t, exec .launchCommand s = .next t ∧ (t.queue e).head = (x.st.queue e).head + 1) ∧
    (k = .signal → ∃ t, exec .signal s = .next t ∧ (t.queue e).head = (x.st.queue e).head + 1) ∧
    (k = .bad → ∃ t, exec .commandOfAnotherKind s = .next t ∧ (t.queue e).state = .error)) ∧
  (∀ s : State, (s.fe.quant ≤ s.cycle - s.fe.quantAt → s.sec.phase = .firmware →
      ∃ t, exec .quantExpiry s = .next t ∧ t.fe = { s.fe with quantAt := s.cycle } ∧ RaisesEvent s t) ∧
    (s.cycle - s.fe.quantAt < s.fe.quant → exec .quantExpiry s = .next s)) ∧
  (∀ (s : State) (slot e c : Nat) (q : QueueEntry),
    s.fe.queues.find? (fun x => x.2.resident == slot && decide (slot < 64 ∧ x.2.head < x.2.tail)) = some (e, q) →
      q.waited = some c →
      (4096 ≤ s.cycle - c → ∃ t, exec (.headWaitTimeout slot) s = .next t ∧ t.queue e = { q with waited := none } ∧ RaisesEvent s t) ∧
      (s.cycle - c < 4096 → exec (.headWaitTimeout slot) s = .next s)) ∧
  (∀ (s : State) (e : Nat), (s.queue e).state ≠ .free → ∃ t, exec (.queueReset e) s = .next t ∧
    (t.queue e).head = (s.queue e).tail ∧ (t.queue e).state = .idle) ∧
  (∀ (s : State) (e slot : Nat), slot < 64 → e < 1024 → ∃ t, exec (.queueLoad e slot) s = .next t ∧
    (t.queue e).resident = slot ∧ (∀ d, d ≠ e → (t.queue d).resident ≠ slot) ∧ t.ms = s.ms) ∧
  (∀ (s : State) (slot : Nat), slot < 64 → ∃ t, exec (.queueUnload slot) s = .next t ∧
    (∀ d, (t.queue d).resident ≠ slot) ∧ t.ms = s.ms) ∧
  ∀ (s : State) (w : Nat × Started), s.poolWaiters.find? (fun w => s.ctxStill (taskCtx s w)) = some w →
    s.fe.poolSize ≤ s.fe.pool.length →
      (s.fe.grown < s.fe.overflowUnits → exec .poolGrowth s = .next { s with fe := { s.fe with grown := s.fe.grown + 1 } }) ∧
      (s.fe.overflowUnits ≤ s.fe.grown → ∃ y ∈ s.poolWaiters, taskCtx s y = taskCtx s w ∧
        (∀ z ∈ s.poolWaiters, taskCtx s z = taskCtx s w → z.2.e.entered ≤ y.2.e.entered) ∧
        ∃ t, exec .poolGrowth s = .next t ∧ ∀ z ∈ (t.core y.1).started, z.id = y.2.id →
          z.stage = .finished (outcome .faulted 0x12 0 (Nat.max y.2.e.time y.2.e.inTime)) false)

/-- R18, R19, R21, R25, R29, R235, R238, R262, R275, R323, R327 to R329: LAUNCH_RELEASE: launches are released when their predecessors have
completed and their cores are free, on one common cycle; LAUNCH_COMPLETE: they complete when their cores have left; PREEMPTION_REQUEST,
CORE_HALT, SAVE_COMPLETE and GANG_RESUME: they halt, are saved and go on; TDISP_RESUME, TDISP_HANDLER and TDISP_END: a trapped task is
disposed of, and one whose launch runs resumes alone at `tepc` on a cycle of its slot; SQACC_COMMIT_END ends a commit; MANAGER_CONFIGURE binds
a manager. That a resumed core whose classes lag goes on where each of them stands, and drops its waits when `tepc` has been changed, is the
model's choice (log 7); the key under which a saved task stands and the fields that a save area gives back are its choice (log 20), and so
are the status and the cause of a launch that TDISP ends (log 24). -/
def Obligations.LaunchesRunAndSuspend : Prop :=
  (∀ (s : State) (lid : Nat) (l : Launch), s.launch lid = some l →
    (l.state ≠ .pending ∨ s.mayRun l = false → exec (.launchRelease lid) s = .next s) ∧
    (l.state = .pending → s.mayRun l = true → ∃ t, exec (.launchRelease lid) s = .next t ∧
      (∀ l', t.launch lid = some l' → l'.state ≠ .pending ∧ l'.release = s.cycle) ∧
      ((hubRead s l.ctx (BitVec.ofNat 64 (l.desc.image + 64)) (4 * l.desc.hdr.text + l.desc.hdr.data + l.desc.hdr.routes)).bad = none →
        lid ≠ 0 → ∀ i ∈ l.desc.gang, (t.core i).lid = lid → (t.core i).starts = true ∧ (t.core i).nextAt = s.cycle)) ∧
    (l.state = .completing → ∃ t, exec (.launchComplete lid) s = .next t ∧ t.launch lid = none) ∧
    (l.state ≠ .completing → exec (.launchComplete lid) s = .next s) ∧
    (l.state = .running → ∃ t l', exec (.preemptionRequest lid) s = .next t ∧ t.launch lid = some l' ∧
      l' = { l with state := .preempting } ∧ t.cores = s.cores) ∧
    (l.state ≠ .running → l.waits = true → (∀ g ∈ s.holders l, l.eff < g.eff) →
      ∃ t, exec (.preemptionRequest lid) s = .next t ∧ t.cores = s.cores ∧
        ∀ g ∈ s.holders l, ∀ g', t.launch g.lid = some g' → g'.state = .preempting) ∧
    (l.state ≠ .running → (l.waits = false ∨ ∃ g ∈ s.holders l, g.eff ≤ l.eff) → exec (.preemptionRequest lid) s = .next s) ∧
    (l.state = .preempted → s.mayRun l = true → ∃ t, exec (.gangResume lid) s = .next t ∧
      ∀ l', t.launch lid = some l' → l'.state ≠ .preempted) ∧
    (∀ i, l.state = .preempted → s.mayRun l = true → l.desc.gang = [i] → i < 65536 → 0 < lid →
      let k := s.core (lid * 65536 + i)
      k.lid = lid → k.run = .saved → k.finalWait = false → s.reload (lid * 65536 + i) = some s → l.desc.slotFlag = false →
        ∃ t l', exec (.gangResume lid) s = .next t ∧ t.launch lid = some l' ∧ l'.state = .running ∧ (t.core i).run = .running ∧
          (t.core i).pc = k.pc ∧ (t.core i).sregs = k.sregs ∧ (t.core i).starts = true ∧ (t.core i).nextAt = s.cycle) ∧
    (l.state ≠ .preempted → exec (.gangResume lid) s = .next s)) ∧
  (∀ (s : State) (core : Nat) (l : Launch), s.launch (s.core core).lid = some l → l.state = .preempting →
    (s.core core).run = .running → ((s.core core).closing = none ∨ (s.core core).slips ≠ []) → (s.core core).late = [] →
    ∃ t, exec (.coreHalt core) s = .next t ∧
      (t.core core).run = .halted ∧ (t.core core).pc = (s.core core).pc ∧ (t.core core).sregs = (s.core core).sregs ∧
      (t.core core).haltCycle = s.cycle ∧
      (t.core core).closing = (s.core core).closing ∧ (t.core core).loops = (s.core core).loops ∧ (t.core core).slips = (s.core core).slips ∧
      t.ms = s.ms) ∧
  (∀ (s : State) (core : Nat), (s.core core).run = .halted → (s.core core).isSaved = false → core < 65536 → s.drained core = true →
    (s.launch (s.core core).lid = none → ∃ t, exec (.saveComplete core) s = .next t ∧
      (t.core core).isSaved = true ∧ (t.core core).run = .halted) ∧
    ∀ l, s.launch (s.core core).lid = some l → l.state = .preempting → l.fate = none → l.desc.gang = [core] → 0 < l.lid →
      ∃ t l', exec (.saveComplete core) s = .next t ∧ t.launch l.lid = some l' ∧ l'.state = .preempted ∧
        l'.haltAt = (s.core core).haltCycle ∧ (t.core core).run = .free ∧ (t.core (l.lid * 65536 + core)).run = .saved ∧
        (t.core (l.lid * 65536 + core)).sregs = (s.core core).sregs ∧ (t.core (l.lid * 65536 + core)).pc = (s.core core).pc) ∧
  (∀ (s : State) (core : Nat), (s.core core).run = .trapped →
    let k := s.core core
    let tepc := (k.csrNow 0x051).toNat
    let resumes : Prop := ∃ t, exec (.tdispResume core) s = .next t ∧ (t.core core).run = .running ∧ (t.core core).tdisp = none ∧
      (t.core core).sregs = k.sregs ∧ (t.core core).writes = k.writes ∧ (t.core core).loops = k.loops ∧
      (k.slips = [] → k.ending = none → (t.core core).pc = tepc) ∧
      ((k.slips ≠ [] ∨ k.ending ≠ none) → k.stopsAt tepc = true →
        (t.core core).pc = k.pc ∧ (t.core core).slips = k.slips ∧ (t.core core).ending = k.ending) ∧
      ((k.slips ≠ [] ∨ k.ending ≠ none) → k.stopsAt tepc = false →
        (t.core core).pc = tepc ∧ (t.core core).slips = k.slips.filter (fun x => !x.op.isWait) ∧ (t.core core).ending = none) ∧
      (t.core core).starts = true ∧ s.cycle ≤ (t.core core).nextAt ∧ (t.core core).nextAt < s.cycle + 256 ∧
      (t.core core).nextAt % 256 = k.haltCycle % 256
    (∀ l, s.launch k.lid = some l → l.state = .running → k.isSaved = true → s.reload core = some s → k.finalWait = false → resumes) ∧
    (∀ l, s.launch k.lid = some l → l.state = .running → k.isSaved = false →
      ∃ t, exec (.tdispResume core) s = .next t ∧ (t.core core).tdisp = some 0 ∧ (t.core core).run = .trapped) ∧
    (∀ l, s.launch k.lid = some l → l.state = .running → k.isSaved = true → l.desc.handlerValid = true → s.reload core = some s →
      ∃ t, exec (.tdispHandler core) s = .next t ∧ (t.core core).run = .running ∧ (t.core core).pc = l.desc.handler ∧
        (t.core core).loops = [] ∧ (t.core core).mdepth = [] ∧ ∀ q, (t.core core).queue q = []) ∧
    (∀ l, s.launch k.lid = some l → l.state = .running → ∃ t, exec (.tdispEnd core) s = .next t ∧
      t.launch k.lid = some { l with state := .preempting, fate := some (.faulted, (k.csrNow 0x050).toNat % 256, 0) }) ∧
    (s.launch k.lid = none → k.isSaved = true →
      (s.reload core = some s → k.finalWait = false → resumes) ∧
      (∃ t, exec (.tdispHandler core) s = .next t ∧ (t.core core).run = .free) ∧
      ∃ t, exec (.tdispEnd core) s = .next t ∧ (t.core core).run = .free)) ∧
  (∀ (s : State) (m : Nat), (s.manager m).commits = [] → exec (.sqaccCommitEnd m) s = .next s) ∧
  (∀ (s : State) (m : Nat) (c : Commit), (s.manager m).commits = [c] → (s.manager m).waiting = [] →
    let x := s.manager m
    let r := x.slot c.slot
    ∃ t, exec (.sqaccCommitEnd m) s = .next t ∧ (t.manager m).commits = [] ∧
      ∀ e, s.commitEntry c = some e →
        (HubFlow.copyOut { st := s, time := Nat.max e.time e.inTime, data := [], bad := none } x.cfg r c).bad = none →
          ((t.manager m).slot c.slot).state = (if c.done = true then .done else .active) ∧
          ((t.manager m).slot c.slot).lc = r.lc + c.out.length ∧ ((t.manager m).slot c.slot).g = r.g + c.out.length ∧
          ((t.manager m).slot c.slot).round = (r.round + 1) % 2 ^ 64 ∧
          ∀ y ∈ (t.core c.core).started, y.id = c.startedId → ∃ o, y.stage = .finished o false ∧ o.st = .done) ∧
  ∀ (s : State) (m : Nat) (cfg : ManagerConfig), m < 8 →
    (configOk cfg = true → (s.manager m).waiting = [] → ∃ t, exec (.managerConfigure m cfg) s = .next t ∧ t.manager m = Manager.fresh cfg) ∧
    (configOk cfg = false → exec (.managerConfigure m cfg) s = .next s)

/-- R135, R208, R336 to R349: POWER_ON and SIDEBAND_RESET: the ROM boots the first image that verifies, or stops in recovery; POWER_LOSS: only
flash, and what waits for the next boot, outlives power; FORCE_RECOVERY waits for a boot; COMMIT_A, COMMIT_B, WRITE_LEASE, READ_LOG, REBOOT
and SCRUB: the mailbox commits verified images and submits requests; SCRUB_DOORBELL and SIDEBAND_SCRUB: an accepted scrub ends
everything; SCRUB_COMPLETE installs its nonce over zeroed storage; HOST_BAR2_WRITE, HOST_BAR2_READ and CONTROL_SPACE_WRITE: BAR2
and control space act as their registers say. The model's choices: DRAM and scratch read as zeros after POWER_LOSS (logs 2 and 4), an access
beyond the size of BAR2 does nothing (log 16), the mailbox shows status done after REBOOT and zeros after a sideband reset, and a mailbox
that is busy keeps its status from the command's word on (log 28). -/
def Obligations.BootRecoveryAndScrub : Prop :=
  (∀ s : State, (s.sec.phase = .off → exec .powerOn s = .next s.boot) ∧ (s.sec.phase ≠ .off → exec .powerOn s = .next s) ∧
    (s.sec.phase = .off → exec .sidebandReset s = .next s) ∧
    (s.sec.phase ≠ .off → exec .sidebandReset s =
      .next { s with sec := { s.sec with mailCommand := 0, mailStatus := 0, mailWindow := 0 } }.boot)) ∧
  (∀ s : State, (s.sec.scrubPending = true → s.boot.sec.phase = .scrubbing) ∧
    (s.sec.scrubPending = false → s.boot.sec.phase = .firmware ∨ s.boot.sec.phase = .recovery) ∧
    s.boot.sec.slotA = s.sec.slotA ∧ s.boot.sec.slotB = s.sec.slotB ∧ s.boot.sec.lease = s.sec.lease) ∧
  (∀ s : State, ∃ t, exec .powerLoss s = .next t ∧ t.sec.phase = .off ∧ t.ms = MemSys.init ∧ t.cores = State.reset.cores ∧
    t.sec.slotA = s.sec.slotA ∧ t.sec.slotB = s.sec.slotB ∧ t.sec.lease = s.sec.lease ∧ t.sec.log = s.sec.log ∧
    t.sec.force = s.sec.force ∧ t.sec.scrubRecord = s.sec.scrubRecord) ∧
  (∀ s : State, exec .forceRecovery s = .next { s with sec := { s.sec with force := true } }) ∧
  (∀ s : State, s.sec.phase = .recovery →
    let img := stagedImage s.sec
    let mayRun (code : Nat) : Prop := s.sec.mailStatus ≠ 1 ∨ s.sec.mailCommand.toNat = code
    (∀ x ∈ [(1, Instr.commitA), (2, .commitB), (3, .writeLease), (4, .scrub), (5, .readLog), (6, .reboot)], ¬mayRun x.1 →
      exec x.2 s = .next s) ∧
    (mayRun 1 → exec .commitA s = .next { s with sec :=
      (if checkImage s.sec img = 0 then { s.sec with slotA := img, mailStatus := 2 } else { s.sec with mailStatus := 3 }) }) ∧
    (mayRun 2 → exec .commitB s = .next { s with sec :=
      (if checkImage s.sec img = 0 then { s.sec with slotB := img, mailStatus := 2 } else { s.sec with mailStatus := 3 }) }) ∧
    (mayRun 3 → exec .writeLease s = .next { s with sec := { s.sec with lease := mread s.sec.staging 0 512, mailStatus := 2 } }) ∧
    (mayRun 5 → ∃ t, exec .readLog s = .next t ∧ t.sec.mailStatus = 2 ∧ t.sec.staging = mwrite s.sec.staging 0 s.sec.log.flatten) ∧
    (mayRun 6 → exec .reboot s = .next { s with sec := { s.sec with mailStatus := 2 } }.boot) ∧
    (mayRun 4 → ∃ t, exec .scrub s = .next t ∧
      if scrubOk s.sec (mread s.sec.staging 0 192) = true then t.sec.phase = .scrubbing
      else t.sec.phase = .recovery ∧ t.sec.mailStatus = 3)) ∧
  (∀ s : State, s.sec.phase = .firmware →
    (∃ t, exec .scrubDoorbell s = .next t ∧
      if scrubOk s.sec (mread s.sec.scrubReq 0 192) = true then
        t.sec.phase = .scrubbing ∧ t.fe.pool = [] ∧ ∀ e ∈ t.cores, e.2.run = .off
      else t.sec.phase = .firmware ∧ t.cores = s.cores) ∧
    ∀ req, req.length = 192 → ∃ t, exec (.sidebandScrub req) s = .next t ∧
      if scrubOk s.sec req = true then t.sec.phase = .scrubbing else t.sec.phase = .firmware ∧ t.cores = s.cores) ∧
  (∀ s : State, s.sec.phase = .scrubbing → ∃ t, exec .scrubComplete s = .next t ∧ t.sec.bindNonce = s.sec.scrubNonce ∧
    t.sec.scrubPending = false ∧ t.ms.mem = [] ∧
    ∀ i < 2048, (t.core i).sregs = [] ∧ ∀ n ∈ [0x020, 0x021, 0x022, 0x023, 0x028, 0x02B, 0x02C], (t.core i).csrNow n = 0) ∧
  (∀ s : State, s.sec.phase = .scrubbing → s.sec.mailStatus ≠ 1 → ∃ t, exec .scrub s = .next t ∧ t.sec.phase = .scrubbing ∧
    t.sec.mailStatus = 3) ∧
  (∀ (s : State) (o n a : Nat) (data : List Byte), a = s.sec.bar2Base + o → s.sec.phase = .firmware →
    (o + n ≤ s.sec.bar2Size → reachable a n = true → ∃ t bs, exec (.hostBar2Read o n) s = .next t ∧
      t.sec.answers = s.sec.answers ++ [.read bs] ∧ t.ms.mem = s.ms.mem ∧
      (a % 64 + n ≤ 64 → bs = s.ms.read (s.ms.forward a) n)) ∧
    (s.sec.bar2Size < o + data.length → exec (.hostBar2Write o data) s = .next s) ∧
    (o + data.length ≤ s.sec.bar2Size → reachable a data.length = true →
      (a % 64 + data.length ≤ 64 →
        exec (.hostBar2Write o data) s = .next (s.engWrite 0 (.phys (s.ms.forward a)) data).1) ∧
      ∀ k, k = 64 - a % 64 → k < data.length → ∃ u, exec (.hostBar2Write o (data.take k)) s = .next u ∧
        exec (.hostBar2Write (o + k) (data.drop k)) u = exec (.hostBar2Write o data) s)) ∧
  (∀ (s : State) (i n : Nat) (v : W64), s.sec.phase = .firmware →
    (i < 16 → exec (.controlSpaceWrite (.window i v)) s =
      .next { s with sec := { s.sec with windows := kset 0 s.sec.windows i v } }) ∧
    exec (.controlSpaceWrite (.quant n)) s = .next { s with fe := { s.fe with quant := n } } ∧
    exec (.controlSpaceWrite (.errorWindow n)) s = .next { s with hub := { s.hub with errW := n } } ∧
    (1 ≤ n → n ≤ 255 → exec (.controlSpaceWrite (.threshold n)) s = .next { s with hub := { s.hub with thresh := n } })) ∧
  ∀ (s : State) (o : Nat) (data : List Byte), s.sec.phase = .recovery →
    (∀ i v, exec (.controlSpaceWrite (.window i v)) s = .next s) ∧
    (s.sec.mailStatus = 1 → exec (.controlSpaceWrite (.bar0 0x200000 data)) s = .next s) ∧
    (s.sec.mailStatus ≠ 1 → ∀ e code, mailCommand code = [e] → leNat data = code → ∃ t,
      exec (.controlSpaceWrite (.bar0 0x200000 data)) s = .next t ∧ t.sec.mailStatus = 1 ∧ t.agenda = e :: s.agenda) ∧
    exec (.controlSpaceWrite (.bar0Read 0x200008 8)) s = .next (s.answer (.read (leBytes 8 s.sec.mailStatus))) ∧
    (0x300000 ≤ o → o + data.length ≤ 0x400000 → exec (.controlSpaceWrite (.bar0 o data)) s =
      .next { s with sec := { s.sec with staging := mwrite s.sec.staging (s.sec.mailWindow * 0x100000 + (o - 0x300000)) data } })

/-- R340, R341, R349: the security block answers while there is power: GET_VERSION 1.3, GET_CAPABILITIES and NEGOTIATE_ALGORITHMS, GET_DIGESTS and
GET_CERTIFICATE of its chain, a signed CHALLENGE, GET_MEASUREMENTS by block, and ERROR_LOG_READ. That the signature is over the nonce and
then MR0 to MR4 is the model's choice, and the error answer for another certificate slot its reading (log 28): R341 says neither. -/
def Obligations.SecurityBlockAnswers : Prop :=
  (∀ (s : State) (a b : Bool) (nonce : List Byte) (slot block : Nat), s.sec.phase ≠ .off →
    exec .getVersion s = .next (s.answer (.version 0x13)) ∧
    exec .getCapabilities s = .next (s.answer (.capabilities true true true false false)) ∧
    exec (.negotiateAlgorithms a b) s = .next (s.answer (.algorithms a b)) ∧
    exec .getDigests s = .next (s.answer (.digests (sha256 (certificateOf s)))) ∧
    exec (.getCertificate 0) s = .next (s.answer (.certificate 0 (certificateOf s))) ∧
    (slot ≠ 0 → exec (.getCertificate slot) s = .next (s.answer .error)) ∧
    exec (.challenge nonce) s =
      .next (s.answer (.challengeAuth (Config.sign (attestSecret s.sec.mr) (nonce ++ s.sec.mr.flatten)))) ∧
    (1 ≤ block → block ≤ 5 → exec (.getMeasurements block) s =
      .next (s.answer (.measurement block (s.sec.mr.getD (block - 1) zero32)))) ∧
    exec (.getMeasurements 6) s = .next (s.answer (.measurement 6 (s.sec.verified.flatMap fun v => leBytes 1 v))) ∧
    exec .errorLogRead s = .next (s.answer (.log s.sec.log))) ∧
  ∀ s : State, s.sec.phase = .off → exec .getVersion s = .next s ∧ exec .errorLogRead s = .next s

namespace Sys2Proof.Claims

/-- An operation that only writes registers: S-slot arithmetic, logic and moves, `csrr`, the V slots, the F slot, `mcm`. -/
def registerOnly (i : Instr) : Bool :=
  match i with
  | .add .. | .sub .. | .addi .. | .mul .. | .mulh .. | .div .. | .rem .. | .and .. | .or .. | .xor .. | .andi .. | .ori ..
  | .xori .. | .sll .. | .srl .. | .sra .. | .shi .. | .min .. | .max .. | .clz .. | .popc .. | .cmp .. | .cmpi .. | .cmpiExt ..
  | .sel .. | .li .. | .liExt .. | .bfx .. | .bfi .. | .stag .. | .nop | .csrr .. => true
  | .vadd .. | .vsub .. | .vmul .. | .vmulh .. | .vmin .. | .vmax .. | .vabs .. | .vand .. | .vor .. | .vxor .. | .vnot ..
  | .vshl .. | .vshr .. | .vsra .. | .vmov .. | .vli .. | .vliExt .. | .viota .. | .vbcast .. | .vext .. | .vsel .. | .vperm ..
  | .vxc .. | .vcmp .. | .vfcmp .. | .kmov .. | .mpush .. | .minv .. | .mpop .. | .vcm .. | .vdot4 .. | .vfadd .. | .vfsub ..
  | .vfmul .. | .vfma .. | .vfmin .. | .vfmax .. | .vcvt .. | .vpack .. | .vunpack .. | .vred .. | .vscan .. | .vlgmul ..
  | .vlgsum .. => true
  | .fexp2 .. | .flog2 .. | .frcp .. | .frsqrt .. | .fsqrt .. | .ftanh .. | .fsigm .. | .fsin .. | .fcos .. | .flut .. | .fcm ..
  | .mcm .. => true
  | _ => false

/-- Instruction memory with given words from word 0 on. -/
def words (ws : List Nat) (p : Nat) : Nat := ws.getD p 0

/-- The cursor with which the operation of a slot executes after others of its bundle that left the cursor `d`: whether the M, X or A class
stays behind is a free choice, one for both memory slots, which `lag` makes for the M class; a firmware core's M class never does (log 7). -/
def slotCursor (s : State) (lag : Bool) (d : Cursor) (o : SlotOp) : Cursor :=
  let m := o.slot == .m0 || o.slot == .m1
  let late := m || o.slot == .x || o.slot == .a
  { d with
    slot := o.slot, word := o.word, op := o.op, fill := 0, mw := if m = true then d.mw else []
    split := Config.freeBit s.free (991 + o.slot.index)
    lag := late && !d.whole && !(isFw d.core && m) && ((lag && m) || Config.freeBit s.free (if m = true then 971 else 973 + o.slot.index)) }

/-- Operations that execute one after the other, none of which traps or holds the bundle: from `s` to `t`. -/
def Chain (c0 : Cursor) (lag : Bool) : List SlotOp → State → State → Prop
  | [], s, t => t = s
  | o :: os, s, t =>
    ∃ (u : State) (e : Cursor), exec o.op { s with cur := some (slotCursor s lag (s.cur.getD c0) o) } = .next u ∧
      u.cur = some e ∧ e.trapped = none ∧ e.held = .none ∧ Chain c0 lag os u t

/-- The M class has dispatched bundle `n` of a core in all its slots, of which `m` operations are memory operations, or in none (R95). -/
def Even (t : State) (core n m : Nat) : Prop := (t.core core).slipsOf .m n = [] ∨ ((t.core core).slipsOf .m n).length = m

end Sys2Proof.Claims

/-- R94 to R98, R156: a register-only operation that neither traps nor is held changes nothing but the held writes of its own
core, to which it only adds: no register of another core, no memory, no queue, no counter. -/
def Obligations.RegisterOperationsFrame : Prop :=
  ∀ (i : Instr) (s t : State) (c : Cursor), registerOnly i = true → s.cur = some c → c.trapped = none → exec i s = .next t →
    t.cur = some c →
      t = { s with cores := t.cores } ∧ (∀ j, j ≠ c.core → t.core j = s.core j) ∧
      (∃ ws, t.core c.core = { s.core c.core with writes := ws } ∧ ∀ w ∈ (s.core c.core).writes, w ∈ ws) ∧
      ∀ p, SameByte s t p

/-- R38 to R47, R55: slot words written out from the encodings of the spec decode to the operations they stand for, and the bundle
of the worked example under R55 decodes as a whole. -/
def Obligations.WordsDecode : Prop :=
  decodeOp .s 0x00430420 0 0 = .ok (.add 3 1 2) ∧ decodeOp .s 0x20C413FF 0 0 = .ok (.addi 4 4 (-1)) ∧
  decodeOp .s 0x4A481000 5 0 = .ok (.lstr 1 0 2 5) ∧ decodeOp .s 0x0A082080 0 0 = .ok (.loop 1 1 1) ∧
  decodeOp .s 0x0BC20C10 0 0 = .ok (.csrc 2 3 0x010) ∧ decodeOp .s 0x0CE38003 0 0 = .ok (.fset true 7 3) ∧
  decodeOp .s 0x0DC00000 0 0 = .ok .tend ∧ decodeOp .s 0x0D800000 0 0 = .ok .yield ∧
  decodeOp .v 0x03910430 0 0 = .ok (.vcmp .lt 1 1 3) ∧ decodeOp .v 0x09801000 0 0 = .ok (.vcm 0 1) ∧
  decodeOp .m 0x03441463 0 0 = .ok (.ldg 4 5 6 1 true) ∧
  decodeOp .x 0x800A2CC0 0x08991000 0x14200000 =
    .ok (.mma 10 11 12 0 false 0 8 9 9 1 0 0 { prod := 5, c1 := 2, c2 := 0, c3 := 0, cr := false, ring := 0 }) ∧
  decodeOp .a 0x42C03000 0x24000000 0 =
    .ok (.rfence 12 false { prod := 9, c1 := 0, c2 := 0, c3 := 0, cr := false, ring := 0 }) ∧
  decodeOp .a 0x46451A00 0x1C000090 0 =
    .ok (.launch 5 6 true { prod := 7, c1 := 0, c2 := 0, c3 := 0, cr := true, ring := 1 }) ∧
  (∃ b, decodeBundle (words [0xD00E4800, 0x00430420, 0x20C413FF]) 0 false = .ok b ∧ b.len = 3 ∧ b.sync = true ∧ b.pad = 1 ∧
    b.le = 1 ∧ b.ops.map (fun o => (o.slot, o.qual, o.op)) =
      [(.s0, .every, .add 3 1 2), (.s1, .last, .addi 4 4 (-1))])

/-- R38, R40 to R43: an operation that is encoded from the tables of the spec decodes to itself, with every operand at every
value that its encoding admits, under every qualifier. -/
def Obligations.EncodedOperationsDecode : Prop :=
  ∀ (i : Instr) (m : OpMap) (op f : Nat) (ext : List Nat) (q : Qual), i.wf = true → i.fields = some (m, op, f, ext) →
    decodeOp m (slotWord q op f ext) (ext.getD 0 0) (ext.getD 1 0) = .ok i

/-- R38, R43, R44: what the decoder accepts is well formed, and its encoding is the word that was read: every bit of the opcode,
the operand field and the extension words counts. -/
def Obligations.DecodedWordsEncode : Prop :=
  ∀ (m : OpMap) (w e1 e2 : Nat) (i : Instr), w < 2 ^ 32 → e1 < 2 ^ 32 → e2 < 2 ^ 32 → decodeOp m w e1 e2 = .ok i →
    i.wf = true ∧ i.fields = some (m, w / 2 ^ 22 % 64, w % 2 ^ 22, [e1, e2].take (w / 2 ^ 30)) ∧ w / 2 ^ 30 ≤ 2

namespace Sys2Proof.Claims

/-- The twelve checks of R44 on the bundle at a pc, in their order, each with the defect it finds: the first offending slot in slot order, and
for check 7 the later of the two slots that write one destination. -/
def decodeChecks (fetch : Nat → Nat) (pc : Nat) (fw : Bool) : List (Option Defect) :=
  let h := fetch pc
  let rs := (gather fetch (maskSlots h) (pc + 1)).1
  let when (b : Bool) (code : Nat) : Option Defect := if b = true then some (.bundle code 0 h) else none
  let find (p : RawSlot → Bool) (d : Nat → Nat → Defect) : Option Defect := (rs.find? p).map fun r => d r.slot.index r.w
  let op (r : RawSlot) : Nat := r.w / 2 ^ 22 % 64
  [when (h / 2 ^ 28 % 16 != 0xD) 1,
   when (h % 2 ^ 11 != 0) 2,
   when (h / 2 ^ 11 % 8 == 7) 3,
   when (decide (16384 < (gather fetch (maskSlots h) (pc + 1)).2)) 4,
   find (fun r => r.w / 2 ^ 30 % 4 == 3) (fun i _ => .bundle 5 i h),
   find (fun r => r.w / 2 ^ 28 % 4 == 3) (fun i _ => .bundle 6 i h),
   (firstConflict [] rs).map fun r => .bundle 7 r.slot.index h,
   find (fun r => r.dec == .unassigned) (.slotOp 1),
   find (fun r => r.dec == .badOperand) (.slotOp 2),
   find (fun r => r.slot == .s1 && s0Only (op r)) (.slotOp 3),
   find (fun r => r.dec == .badLn) (.slotOp 4),
   find (fun r => !fw && privileged r.slot.cls (op r)) .privilege]

end Sys2Proof.Claims

/-- R44, R46: the twelve checks of a bundle, in their order, each with its defect code: the first that fails decides the trap, and a bundle that
passes them all is decoded; a privileged operation on a user core is PRIVILEGE, after every other check. -/
def Obligations.BundleDefectsTrapInOrder : Prop :=
  ∀ (fetch : Nat → Nat) (pc : Nat) (fw : Bool),
    let h := fetch pc
    (h / 2 ^ 28 % 16 ≠ 0xD → decodeBundle fetch pc fw = .error (.bundle 1 0 h)) ∧
    (h / 2 ^ 28 % 16 = 0xD → h % 2 ^ 11 ≠ 0 → decodeBundle fetch pc fw = .error (.bundle 2 0 h)) ∧
    (h / 2 ^ 28 % 16 = 0xD → h % 2 ^ 11 = 0 → h / 2 ^ 11 % 8 = 7 → decodeBundle fetch pc fw = .error (.bundle 3 0 h)) ∧
    (∀ d, decodeBundle fetch pc fw = .error d ↔ (decodeChecks fetch pc fw).findSome? id = some d) ∧
    ((∃ b, decodeBundle fetch pc fw = .ok b) ↔ ∀ x ∈ decodeChecks fetch pc fw, x = none) ∧
    (∀ b, decodeBundle fetch pc fw = .ok b → pc + b.len ≤ 16384 ∧ b.len ≤ 1 + 3 * 10 ∧ h / 2 ^ 28 % 16 = 0xD ∧
      (∀ o ∈ b.ops, o.op.wf = true) ∧ (fw = false → ∀ o ∈ b.ops, privileged o.slot.cls (o.word.toNat / 2 ^ 22 % 64) = false))

/-- R46: `tval` of a bundle that fails a check: the header word with the code and, from code 5 on, the slot of the first offending
slot, which for code 7 is the later of the two slots that write one destination; or the slot word with the code, or with no code for
PRIVILEGE, and the slot. -/
def Obligations.DecodeTrapValues : Prop :=
  ∀ (fetch : Nat → Nat) (pc : Nat) (fw : Bool) (d : Defect), decodeBundle fetch pc fw = .error d →
    let h := fetch pc
    let rs := (gather fetch (maskSlots h) (pc + 1)).1
    let first (p : RawSlot → Bool) (r : RawSlot) : Prop := rs.find? p = some r
    match d with
    | .bundle code slot w => w = h ∧ 1 ≤ code ∧ code ≤ 7 ∧
        (defectTrap d).cause = .illegalBundle ∧ (defectTrap d).tval = BitVec.ofNat 64 (h + code * 2 ^ 32 + slot * 2 ^ 40) ∧
        (code ≤ 4 → slot = 0) ∧
        (code = 5 → ∃ r, first (fun r => decide (r.w / 2 ^ 30 % 4 = 3)) r ∧ slot = r.slot.index) ∧
        (code = 6 → ∃ r, first (fun r => decide (r.w / 2 ^ 28 % 4 = 3)) r ∧ slot = r.slot.index) ∧
        (code = 7 → ∃ before r after, rs = before ++ r :: after ∧ slot = r.slot.index ∧
          ∃ q ∈ before, q.laidOut = true ∧ r.laidOut = true ∧
            ∃ x ∈ destsOf q.slot.cls q.w q.e1 q.e2, ∃ y ∈ destsOf r.slot.cls r.w r.e1 r.e2, destConflict x y = true)
    | .slotOp code slot w =>
        (defectTrap d).cause = .illegalSlotOp ∧ (defectTrap d).tval = BitVec.ofNat 64 (w + code * 2 ^ 32 + slot * 2 ^ 40) ∧
        ∃ r ∈ rs, w = r.w ∧ slot = r.slot.index
    | .privilege slot w =>
        (defectTrap d).cause = .privilege ∧ (defectTrap d).tval = BitVec.ofNat 64 (w + slot * 2 ^ 40) ∧
        ∃ r ∈ rs, w = r.w ∧ slot = r.slot.index ∧ privileged r.slot.cls (r.w / 2 ^ 22 % 64) = true ∧ fw = false

/-- R338, R339, R344 and the choices of logs 1, 2 and 6: before power, no core runs, memory reads as zero, registers are zero but
for `nf0` to `nf3`, `lease`, `wdog` and the full cluster masks; the first step is the boot, which without an image stops in
recovery. -/
def Obligations.ResetState : Prop :=
  State.reset.sec.phase = .off ∧ State.reset.agenda = [.powerOn] ∧ Memory.wf State.reset.ms.mem ∧
  (∀ p, State.reset.ms.byte p = 0) ∧
  (∀ i, (State.reset.core i).run ≠ .running ∧ (State.reset.core i).pc = 0 ∧ (∀ r, (State.reset.core i).sbase r = ⟨0, false⟩) ∧
    (State.reset.core i).csrNow 0x020 = 0x00141E72 ∧ (State.reset.core i).csrNow 0x021 = 0x00103E56 ∧
    (State.reset.core i).csrNow 0x022 = 0x00180628 ∧ (State.reset.core i).csrNow 0x023 = 0x000802E2 ∧
    (State.reset.core i).csrNow 0x028 = 0xFF ∧ (State.reset.core i).csrNow 0x049 = 64 ∧
    (State.reset.core i).csrNow 0x068 = 0x01000000 ∧ (State.reset.core i).ltime = 0) ∧
  ∃ t, step State.reset = .next t ∧ t.sec.phase = .recovery ∧ t.cores = []

/-- R32, R33, R36, R45, R95, R99 and the scheduling of logs 6 and 7: with nothing on the agenda, a running core first makes what its classes
still owed (`s1`), and then runs exactly the operations of its next bundle, when that decodes and need not wait. For a bundle of one
operation: in the state in which its slots start; the bundle closes and its cycles pass; a trap, where every class has dispatched
every earlier bundle, or a hold is what the operation says; a fault or a refusal is the step's. A bundle of several operations that
neither trap nor hold it runs each in the state that those before it left, S0 last; where the M class would dispatch in one of its slots
alone, both stay behind. An operation of S0 that ends or suspends the stream waits until every class has dispatched all before it. Two slots
that write one vector-side destination in one cluster trap, once every class has dispatched the earlier bundles. -/
def Obligations.StepRunsTheDecodedInstruction : Prop :=
  ∀ (s : State) (i : Nat) (b : Bundle), s.agenda = [] → s.turn = i → (s.core i).run = .running →
    let s1 := ({ s with cur := none } : State).catchUp i
    let k := s1.core i
    k.run = .running → k.closing = none → k.ending = none → s1.boundary i = none → (isFw i = true → s1.eventReady (colOf i) = false) →
    (k.starts = false ∨ k.nextAt ≤ s1.cycle) → k.fetched = none →
    decodeBundle k.fetch k.pc (isFw i) = .ok b → k.mustWait b = none →
    let s2 := s1.setCore i { k with fetched := some b }
    let s0 := s2.prepare i b
    let c0 := s0.cursor i b
    let start : State := { s0 with cur := some c0 }
    let passed (t : State) : State := t.tick (turnCycles s t i)
    let done (t : State) : State := passed (t.closeBundle i (t.cur.getD c0))
    let held (h : Hold) : Prop := ∃ u : State, step s = .next (passed u) ∧ (u.core i).hold = h ∧ (u.core i).pc = k.pc ∧
      (u.core i).bn = k.bn ∧ (u.core i).sregs = k.sregs ∧ u.ms = s1.ms
    (∀ y, s0.vectorClash c0 b = some y →
      (k.slips = [] → step s = .next (passed (s2.exception i k.bn k.pc (defectTrap (.bundle 7 y.index b.header.toNat))))) ∧
      (k.slips ≠ [] → held .slip)) ∧
    (s0.vectorClash c0 b = none → k.loopEndOk b = true →
      (∀ o : SlotOp, b.ops = [o] → (∀ n, o.op ≠ .trap n) →
        let c := slotCursor s0 false c0 o
        let ends : Prop := o.slot = .s0 ∧ endsBundle o.op = true
        (k.qualifies o.qual = true →
          (∀ t d, exec o.op { s0 with cur := some c } = .next t → t.cur = some d → d.trapped = none → d.held = .none →
            (o.slot ≠ .s0 → Even t i k.bn (if o.slot.cls = .m then 1 else 0) → step s = .next (done t)) ∧
            (o.slot = .s0 → k.slipsOf .m k.bn = [] → (ends → k.slips = []) → step s = .next (done t))) ∧
          (∀ t d x, exec o.op { s0 with cur := some c } = .next t → t.cur = some d → d.trapped = some x → d.held = .none →
            (k.slips = [] → step s = .next (passed { t with cur := none })) ∧ (k.slips ≠ [] → k.slipsOf .m k.bn = [] → held .slip)) ∧
          (∀ t d, exec o.op { s0 with cur := some c } = .next t → t.cur = some d → d.trapped = none → d.held ≠ .none →
            (ends → k.slips = []) → k.slipsOf .m k.bn = [] → held d.held) ∧
          ((ends → k.slips = []) → k.slipsOf .m k.bn = [] →
            (∀ x, exec o.op { s0 with cur := some c } = .fault x → step s = .fault x) ∧
            ∀ x, exec o.op { s0 with cur := some c } = .refused x → step s = .refused x)) ∧
        (k.qualifies o.qual = false → k.slipsOf .m k.bn = [] → step s = .next (done start))) ∧
      ∀ r t1 t : State, (∀ o ∈ b.ops, ∀ n, o.op ≠ .trap n) →
        let ops := b.ops.filter fun o => k.qualifies o.qual
        let rest := restOrder (Config.freeBit s2.free 97) ops
        let m := (ops.filter fun o => o.slot.cls == .m).length
        (∀ o t d, lastOp ops = some o → exec o.op { s0 with cur := some (slotCursor s0 false c0 o) } = .next t → t.cur = some d →
          d.trapped = none) →
        Chain c0 false rest start r →
        ((Even r i k.bn m ∧ t1 = r) ∨ (¬Even r i k.bn m ∧ ∃ u, Chain c0 true rest start u ∧ t1 = u.keepWhy r i k.bn)) →
          (((t1.core i).slips = [] ∨ lastOp ops = none) → Chain c0 false (ops.find? fun o => o.slot == .s0).toList t1 t →
            step s = .next (done t)) ∧
          ∀ o, (t1.core i).slips ≠ [] → lastOp ops = some o → step s = .next (passed (t1.waitToEnd i b o)))

/-- The scheduling of log 6: a step takes the event at the head of the agenda, and the clock does not move with it. -/
def Obligations.StepTakesTheAgenda : Prop :=
  ∀ (s : State) (e : Instr) (rest : List Instr), s.agenda = e :: rest →
    let s1 : State := { s with agenda := rest, cur := none }
    (∀ t, exec e s1 = .next t → step s = .next (t.tick 0) ∧ (t.tick 0).cycle = t.cycle ∧ (t.tick 0).cores = t.cores ∧
      ∀ p, Memory.wf t.ms.mem → (∀ x ∈ t.ms.lines, x.2.data.length = 64 ∧
        (x.2.dirty = false → x.2.data = mread t.ms.mem (x.1 * 64) 64)) → (t.tick 0).ms.byte p = t.ms.byte p) ∧
    (∀ x, exec e s1 = .fault x → step s = .fault x) ∧ ∀ x, exec e s1 = .refused x → step s = .refused x

/-- R187: every step keeps the canonical form of memory: the listed addresses rise strictly, and no listed byte is zero. -/
def Obligations.StepKeepsMemoryForm : Prop :=
  ∀ s t : State, Memory.wf s.ms.mem → step s = .next t → Memory.wf t.ms.mem
end

