-- ==== Sys2Proof/Laws/State.lean ====
section
/-!
SUPPORT. What the updates of a state leave of each field, and what reading a core after an update gives.
-/
namespace Sys2Proof.Machine

/-! ### Sparse arrays -/

@[simp] theorem kget_nil {α : Type} (d : α) (i : Nat) : kget d [] i = d := rfl

@[simp] theorem kget_kput_same {α : Type} (d : α) (m : KMap α) (i : Nat) (v : α) : kget d (kput m i v) i = v := by
  induction m with
  | nil => simp [kput, kget]
  | cons e m ih =>
    obtain ⟨k, w⟩ := e
    unfold kput
    split
    · simp [kget]
    · split
      · simp [kget]
      · have : k ≠ i := fun h => by simp_all
        simp [kget, this, ih]

theorem kget_kput_other {α : Type} (d : α) (m : KMap α) {i j : Nat} (v : α) (h : j ≠ i) :
    kget d (kput m i v) j = kget d m j := by
  induction m with
  | nil => simp [kput, kget, h.symm]
  | cons e m ih =>
    obtain ⟨k, w⟩ := e
    unfold kput
    split
    · simp [kget, h.symm]
    · split
      · rename_i h2
        subst h2
        simp [kget, h.symm]
      · simp [kget, ih]

theorem kget_filter {α : Type} (d : α) (p : Nat → Bool) (m : KMap α) (i : Nat) :
    kget d (m.filter fun e => p e.1) i = if p i then kget d m i else d := by
  induction m with
  | nil => simp
  | cons e m ih =>
    obtain ⟨k, w⟩ := e
    by_cases hk : p k
    · simp only [List.filter_cons, hk, if_true, kget, ih]
      by_cases hi : k = i
      · subst hi; simp [hk]
      · simp [hi]
    · rw [List.filter_cons_of_neg (by simpa using hk), ih]
      by_cases hi : k = i
      · subst hi; simp [hk]
      · simp [kget, hi]

theorem kget_kdel {α : Type} (d : α) (m : KMap α) (i j : Nat) :
    kget d (kdel m i) j = if j = i then d else kget d m j := by
  have := kget_filter d (fun k => decide (k ≠ i)) m j
  simp only [kdel]
  rw [this]
  by_cases h : j = i <;> simp [h]

theorem kget_kset {α : Type} [DecidableEq α] (d : α) (m : KMap α) (i j : Nat) (v : α) :
    kget d (kset d m i v) j = if j = i then v else kget d m j := by
  unfold kset
  split
  · rename_i h
    subst h
    exact kget_kdel v m i j
  · by_cases h : j = i
    · subst h; simp
    · simp [h, kget_kput_other d m v h]

theorem kget_append {α : Type} (d : α) (m n : KMap α) (i : Nat) (h : ∀ e ∈ m, e.1 ≠ i) :
    kget d (m ++ n) i = kget d n i := by
  induction m with
  | nil => rfl
  | cons e m ih =>
    obtain ⟨k, w⟩ := e
    have hk : k ≠ i := h (k, w) (by simp)
    simp only [List.cons_append, kget, hk, if_false]
    exact ih fun e he => h e (by simp [he])

/-! ### Cores -/

@[simp] theorem State.core_setCore (s : State) (i : Nat) (k : Core) : (s.setCore i k).core i = k := by
  simp [State.core, State.setCore]

theorem State.core_setCore_other (s : State) {i j : Nat} (k : Core) (h : j ≠ i) : (s.setCore i k).core j = s.core j := by
  simp [State.core, State.setCore, kget_kput_other _ _ _ h]

@[simp] theorem State.core_modCore (s : State) (i : Nat) (f : Core → Core) : (s.modCore i f).core i = f (s.core i) := by
  simp [State.modCore]

theorem State.core_modCore_other (s : State) {i j : Nat} (f : Core → Core) (h : j ≠ i) :
    (s.modCore i f).core j = s.core j := by
  simp [State.modCore, State.core_setCore_other _ _ h]

/-! ### Fields -/

@[simp] theorem State.setCore_agenda (s : State) (i : Nat) (k : Core) : (s.setCore i k).agenda = s.agenda := rfl
@[simp] theorem State.modCore_agenda (s : State) (i : Nat) (f : Core → Core) : (s.modCore i f).agenda = s.agenda := rfl
@[simp] theorem State.setCore_turn (s : State) (i : Nat) (k : Core) : (s.setCore i k).turn = s.turn := rfl
@[simp] theorem State.modCore_turn (s : State) (i : Nat) (f : Core → Core) : (s.modCore i f).turn = s.turn := rfl
@[simp] theorem State.setCore_cycle (s : State) (i : Nat) (k : Core) : (s.setCore i k).cycle = s.cycle := rfl
@[simp] theorem State.modCore_cycle (s : State) (i : Nat) (f : Core → Core) : (s.modCore i f).cycle = s.cycle := rfl
@[simp] theorem State.setCore_free (s : State) (i : Nat) (k : Core) : (s.setCore i k).free = s.free := rfl
@[simp] theorem State.modCore_free (s : State) (i : Nat) (f : Core → Core) : (s.modCore i f).free = s.free := rfl
@[simp] theorem State.setCore_pkg (s : State) (i : Nat) (k : Core) : (s.setCore i k).pkg = s.pkg := rfl
@[simp] theorem State.modCore_pkg (s : State) (i : Nat) (f : Core → Core) : (s.modCore i f).pkg = s.pkg := rfl
@[simp] theorem State.setCore_cur (s : State) (i : Nat) (k : Core) : (s.setCore i k).cur = s.cur := rfl
@[simp] theorem State.modCore_cur (s : State) (i : Nat) (f : Core → Core) : (s.modCore i f).cur = s.cur := rfl
@[simp] theorem State.setCore_ms (s : State) (i : Nat) (k : Core) : (s.setCore i k).ms = s.ms := rfl
@[simp] theorem State.modCore_ms (s : State) (i : Nat) (f : Core → Core) : (s.modCore i f).ms = s.ms := rfl
@[simp] theorem State.setCore_net (s : State) (i : Nat) (k : Core) : (s.setCore i k).net = s.net := rfl
@[simp] theorem State.modCore_net (s : State) (i : Nat) (f : Core → Core) : (s.modCore i f).net = s.net := rfl
@[simp] theorem State.setCore_netWait (s : State) (i : Nat) (k : Core) : (s.setCore i k).netWait = s.netWait := rfl
@[simp] theorem State.modCore_netWait (s : State) (i : Nat) (f : Core → Core) : (s.modCore i f).netWait = s.netWait := rfl
@[simp] theorem State.setCore_fabricOut (s : State) (i : Nat) (k : Core) : (s.setCore i k).fabricOut = s.fabricOut := rfl
@[simp] theorem State.modCore_fabricOut (s : State) (i : Nat) (f : Core → Core) : (s.modCore i f).fabricOut = s.fabricOut := rfl
@[simp] theorem State.setCore_fe (s : State) (i : Nat) (k : Core) : (s.setCore i k).fe = s.fe := rfl
@[simp] theorem State.modCore_fe (s : State) (i : Nat) (f : Core → Core) : (s.modCore i f).fe = s.fe := rfl
@[simp] theorem State.setCore_rt (s : State) (i : Nat) (k : Core) : (s.setCore i k).rt = s.rt := rfl
@[simp] theorem State.modCore_rt (s : State) (i : Nat) (f : Core → Core) : (s.modCore i f).rt = s.rt := rfl
@[simp] theorem State.setCore_hub (s : State) (i : Nat) (k : Core) : (s.setCore i k).hub = s.hub := rfl
@[simp] theorem State.modCore_hub (s : State) (i : Nat) (f : Core → Core) : (s.modCore i f).hub = s.hub := rfl
@[simp] theorem State.setCore_sec (s : State) (i : Nat) (k : Core) : (s.setCore i k).sec = s.sec := rfl
@[simp] theorem State.modCore_sec (s : State) (i : Nat) (f : Core → Core) : (s.modCore i f).sec = s.sec := rfl
@[simp] theorem State.setCore_spill (s : State) (i : Nat) (k : Core) : (s.setCore i k).spill = s.spill := rfl
@[simp] theorem State.modCore_spill (s : State) (i : Nat) (f : Core → Core) : (s.modCore i f).spill = s.spill := rfl

/-- A write of a slot operation changes its core only, and of that core only the held writes. -/
theorem State.put_frame (s : State) (c : Cursor) (lat : Nat) (w : WriteTo) :
    ∃ ws, s.put c lat w = s ∨ s.put c lat w = s.modCore c.core fun k => { k with writes := ws } := by
  unfold State.put
  split
  · exact ⟨[], .inl rfl⟩
  · exact ⟨_, .inr rfl⟩

@[simp] theorem State.put_agenda (s : State) (c : Cursor) (lat : Nat) (w : WriteTo) : (s.put c lat w).agenda = s.agenda := by
  unfold State.put; split <;> rfl
@[simp] theorem State.put_turn (s : State) (c : Cursor) (lat : Nat) (w : WriteTo) : (s.put c lat w).turn = s.turn := by
  unfold State.put; split <;> rfl
@[simp] theorem State.put_cycle (s : State) (c : Cursor) (lat : Nat) (w : WriteTo) : (s.put c lat w).cycle = s.cycle := by
  unfold State.put; split <;> rfl
@[simp] theorem State.put_free (s : State) (c : Cursor) (lat : Nat) (w : WriteTo) : (s.put c lat w).free = s.free := by
  unfold State.put; split <;> rfl
@[simp] theorem State.put_pkg (s : State) (c : Cursor) (lat : Nat) (w : WriteTo) : (s.put c lat w).pkg = s.pkg := by
  unfold State.put; split <;> rfl
@[simp] theorem State.put_cur (s : State) (c : Cursor) (lat : Nat) (w : WriteTo) : (s.put c lat w).cur = s.cur := by
  unfold State.put; split <;> rfl
@[simp] theorem State.put_ms (s : State) (c : Cursor) (lat : Nat) (w : WriteTo) : (s.put c lat w).ms = s.ms := by
  unfold State.put; split <;> rfl
@[simp] theorem State.put_net (s : State) (c : Cursor) (lat : Nat) (w : WriteTo) : (s.put c lat w).net = s.net := by
  unfold State.put; split <;> rfl
@[simp] theorem State.put_netWait (s : State) (c : Cursor) (lat : Nat) (w : WriteTo) : (s.put c lat w).netWait = s.netWait := by
  unfold State.put; split <;> rfl
@[simp] theorem State.put_fabricOut (s : State) (c : Cursor) (lat : Nat) (w : WriteTo) : (s.put c lat w).fabricOut = s.fabricOut := by
  unfold State.put; split <;> rfl
@[simp] theorem State.put_fe (s : State) (c : Cursor) (lat : Nat) (w : WriteTo) : (s.put c lat w).fe = s.fe := by
  unfold State.put; split <;> rfl
@[simp] theorem State.put_rt (s : State) (c : Cursor) (lat : Nat) (w : WriteTo) : (s.put c lat w).rt = s.rt := by
  unfold State.put; split <;> rfl
@[simp] theorem State.put_hub (s : State) (c : Cursor) (lat : Nat) (w : WriteTo) : (s.put c lat w).hub = s.hub := by
  unfold State.put; split <;> rfl
@[simp] theorem State.put_sec (s : State) (c : Cursor) (lat : Nat) (w : WriteTo) : (s.put c lat w).sec = s.sec := by
  unfold State.put; split <;> rfl
@[simp] theorem State.put_spill (s : State) (c : Cursor) (lat : Nat) (w : WriteTo) : (s.put c lat w).spill = s.spill := by
  unfold State.put; split <;> rfl

theorem State.core_put_other (s : State) (c : Cursor) (lat : Nat) (w : WriteTo) {j : Nat} (h : j ≠ c.core) :
    (s.put c lat w).core j = s.core j := by
  unfold State.put
  split
  · rfl
  · exact State.core_modCore_other _ _ h

end Sys2Proof.Machine
end

