-- ==== Sys2Proof/Laws/Access.lean ====
section
/-!
SUPPORT. What an access of a memory slot can do at its dispatch: it is performed, or it stays behind the other classes, or it holds its
bundle; and what the queues to other cores and packages leave of the state.
-/
namespace Sys2Proof.Machine

/-- What a blocked operation keeps as its reason: the one that blocks its class, unless that lags already. -/
def whyOf (s : State) (c : Cursor) (h : Hold) : Hold := if (s.core c.core).lags c.slot.cls then .none else h

/-- A blocked operation stays behind, or holds a bundle that dispatches at once. -/
theorem slipOr_cases (s : State) (c : Cursor) (h : Hold) (op : Slipped) :
    (c.atOnce = true ∧ slipOr s c h op = holdAt s c h) ∨
    (c.atOnce = false ∧ slipOr s c h op = .next (s.slip c op (whyOf s c h))) := by
  unfold slipOr whyOf
  cases c.atOnce <;> simp

/-- An access is dispatched, or it is left as a slip or a hold: it never faults and is never refused. -/
theorem accessOp_cases (s : State) (c : Cursor) (o : Outstanding) (ts : List Todo) :
    (∃ t, s.dispatchAccess c o ts = (.none, t) ∧ accessOp s c o ts = .next t) ∨
    (∃ h, accessOp s c o ts = .next (s.slip c (.access c.op o.dest) h)) ∨
    ∃ h, c.atOnce = true ∧ accessOp s c o ts = holdAt s c h := by
  unfold accessOp
  split
  · exact .inr (.inl ⟨_, rfl⟩)
  · split
    · rename_i t ht
      exact .inl ⟨t, ht, rfl⟩
    · rename_i h t _ _
      obtain ⟨hw, he⟩ | ⟨_, he⟩ := slipOr_cases s c h (.access c.op o.dest)
      · exact .inr (.inr ⟨h, hw, he⟩)
      · exact .inr (.inl ⟨_, he⟩)

@[simp] theorem State.slip_ms (s : State) (c : Cursor) (op : Slipped) (h : Hold) : (s.slip c op h).ms = s.ms := rfl
@[simp] theorem State.slip_cur (s : State) (c : Cursor) (op : Slipped) (h : Hold) : (s.slip c op h).cur = s.cur := rfl
@[simp] theorem State.slip_fabricOut (s : State) (c : Cursor) (op : Slipped) (h : Hold) :
    (s.slip c op h).fabricOut = s.fabricOut := rfl

@[simp] theorem State.core_slip (s : State) (c : Cursor) (op : Slipped) (h : Hold) :
    (s.slip c op h).core c.core =
      { s.core c.core with slips := (s.core c.core).slips ++ [{ cls := c.slot.cls, cur := c, op := op, why := h }] } := by
  simp [State.slip]

theorem State.core_slip_other (s : State) (c : Cursor) (op : Slipped) (h : Hold) {j : Nat} (hj : j ≠ c.core) :
    (s.slip c op h).core j = s.core j := State.core_modCore_other _ _ hj

@[simp] theorem State.core_sendNet (s : State) (i j : Nat) (x : NetItem) (n : Nat) : (s.sendNet i j x).core n = s.core n := rfl
@[simp] theorem State.ms_sendNet (s : State) (i j : Nat) (x : NetItem) : (s.sendNet i j x).ms = s.ms := rfl
@[simp] theorem State.core_sendFabric (s : State) (k ch : Nat) (x : FabricItem) (n : Nat) : (s.sendFabric k ch x).core n = s.core n := rfl
@[simp] theorem State.ms_sendFabric (s : State) (k ch : Nat) (x : FabricItem) : (s.sendFabric k ch x).ms = s.ms := rfl

end Sys2Proof.Machine
end

