-- ==== Sys2Proof/Laws/Gate.lean ====
section
/-!
SUPPORT. What the gates in front of a slot operation's effect do: declarations, DF bits, room in a queue, token words.
-/
namespace Sys2Proof.Machine

theorem withUses_pass {s : State} {c : Cursor} {us : List Use} (h : ∀ u ∈ us, u.over (s.hlim c) = false) (f : Unit → Res) :
    withUses s c us f = f () := by
  have : us.find? (fun u => u.over (s.hlim c)) = none := by
    rw [List.find?_eq_none]
    intro u hu
    simp [h u hu]
  simp [withUses, this]

/-- Inside a bundle, with its declarations kept, a slot operation acts. -/
theorem slotOp_act {s : State} {c : Cursor} {us : List Use} (hc : s.cur = some c)
    (h : ∀ u ∈ us, u.over (s.hlim c) = false) (f : Cursor → Res) : slotOp s us f = f c := by
  simp only [slotOp, hc]
  exact withUses_pass h _

/-- Outside a bundle a slot operation changes nothing. -/
theorem slotOp_outside {s : State} (us : List Use) (hc : s.cur = none) (f : Cursor → Res) : slotOp s us f = .next s := by
  simp [slotOp, hc]

theorem withClean_pass {s : State} {c : Cursor} {rs : List Reg} (h : ∀ r ∈ rs, (s.sr c r.val).df = false)
    (f : Unit → Res) : withClean s c rs f = f () := by
  have : rs.find? (fun r => (s.sr c r.val).df) = none := by
    rw [List.find?_eq_none]
    intro r hr
    simp [h r hr]
  simp [withClean, this]

theorem withCleanV_pass {s : State} {c : Cursor} {rs : List Reg}
    (h : ∀ r ∈ rs, ∀ cl ∈ s.enabled c, s.vf c cl r.val = false) (f : Unit → Res) : withCleanV s c rs f = f () := by
  have : rs.find? (fun r => !((s.enabled c).filter fun cl => s.vf c cl r.val).isEmpty) = none := by
    rw [List.find?_eq_none]
    intro r hr
    have : (s.enabled c).filter (fun cl => s.vf c cl r.val) = [] := by
      rw [List.filter_eq_nil_iff]
      intro cl hcl
      simp [h r hr cl hcl]
    simp [this]
  simp [withCleanV, this]

theorem withRoom_pass {s : State} {c : Cursor} {q : Nat} (h : (s.core c.core).queueFull q = false) (f : Unit → Res) :
    withRoom s c q f = f () := by
  simp [withRoom, h]

theorem withTokens_pass {s : State} {c : Cursor} {t : TokenWord}
    (hu : ∀ n ∈ tokNames t, (Use.tok n).over (s.hlim c) = false)
    (hp : t.prod.val = 0 ∨ (c.token t.prod.val).state ≠ .pending) (f : Unit → Res) : withTokens s c t f = f () := by
  unfold withTokens
  rw [withUses_pass]
  · rw [if_pos]
    exact hp.imp_right Or.inl
  · intro u hm
    obtain ⟨n, hn, rfl⟩ := List.mem_map.mp hm
    exact hu n hn

/-- An A-slot engine operation with its gates passed acts. -/
theorem engineOp_act {s : State} {c : Cursor} {us : List Use} {q : Nat} {t : TokenWord} (hc : s.cur = some c)
    (h : ∀ u ∈ us, u.over (s.hlim c) = false) (hq : (s.core c.core).queueFull q = false)
    (hu : ∀ n ∈ tokNames t, (Use.tok n).over (s.hlim c) = false)
    (hp : t.prod.val = 0 ∨ (c.token t.prod.val).state ≠ .pending) (f : Cursor → Res) : engineOp s us q t f = f c := by
  unfold engineOp
  rw [slotOp_act hc h, withRoom_pass hq, withTokens_pass hu hp]

@[simp] theorem orTrap_none (s : State) (c : Cursor) (f : Unit → Res) : orTrap s c none f = f () := rfl

end Sys2Proof.Machine
end

