-- ==== Sys2Proof/Laws/Memory.lean ====
section
/-!
SUPPORT. Byte memories: what a read gives after a write, and that a write keeps the canonical form.
-/
namespace Sys2Proof.Machine

theorem cells_bounds (a : Nat) (bs : List Byte) : ∀ e ∈ cells a bs, a ≤ e.1 ∧ e.1 < a + bs.length ∧ e.2 ≠ 0 := by
  induction bs generalizing a with
  | nil => simp [cells]
  | cons b bs ih =>
    intro e he
    have step : ∀ e ∈ cells (a + 1) bs, a ≤ e.1 ∧ e.1 < a + (b :: bs).length ∧ e.2 ≠ 0 := fun e he => by
      have := ih (a + 1) e he
      simp only [List.length_cons]
      exact ⟨by omega, by omega, this.2.2⟩
    unfold cells at he
    split at he
    · exact step e he
    · rcases List.mem_cons.mp he with rfl | h
      · simp_all
      · exact step e h

theorem cells_pairwise (a : Nat) (bs : List Byte) : (cells a bs).Pairwise fun x y => x.1 < y.1 := by
  induction bs generalizing a with
  | nil => simp [cells]
  | cons b bs ih =>
    unfold cells
    split
    · exact ih (a + 1)
    · refine List.pairwise_cons.mpr ⟨fun e he => ?_, ih (a + 1)⟩
      have := (cells_bounds (a + 1) bs e he).1
      simp only
      omega

/-- A write keeps the canonical form. -/
theorem mwrite_wf (m : Memory) (a : Nat) (bs : List Byte) (h : Memory.wf m) : Memory.wf (mwrite m a bs) := by
  obtain ⟨hp, hz⟩ := h
  refine ⟨?_, ?_⟩
  · unfold mwrite
    refine List.pairwise_append.mpr ⟨List.pairwise_append.mpr ⟨hp.filter _, cells_pairwise a bs, ?_⟩, hp.filter _, ?_⟩
    · intro x hx y hy
      have h1 : x.1 < a := by simpa using (List.mem_filter.mp hx).2
      have := (cells_bounds a bs y hy).1
      omega
    · intro x hx y hy
      have h2 : a + bs.length ≤ y.1 := by simpa using (List.mem_filter.mp hy).2
      rcases List.mem_append.mp hx with hx | hx
      · have h1 : x.1 < a := by simpa using (List.mem_filter.mp hx).2
        omega
      · have := (cells_bounds a bs x hx).2.1
        omega
  · intro e he
    unfold mwrite at he
    rcases List.mem_append.mp he with he | he
    · rcases List.mem_append.mp he with he | he
      · exact hz e (List.mem_filter.mp he).1
      · exact (cells_bounds a bs e he).2.2
    · exact hz e (List.mem_filter.mp he).1

theorem kget_cells (a : Nat) (bs : List Byte) (i : Nat) (h : i < bs.length) : kget 0 (cells a bs) (a + i) = bs[i] := by
  induction bs generalizing a i with
  | nil => simp at h
  | cons b bs ih =>
    cases i with
    | zero =>
      unfold cells
      split
      · rename_i hb
        have none_ := kget_append (0 : Byte) (cells (a + 1) bs) [] (a + 0) fun e he => by
          have := (cells_bounds (a + 1) bs e he).1
          omega
        simp only [List.append_nil] at none_
        rw [none_]
        simp [hb]
      · simp [kget]
    | succ i =>
      have hi : i < bs.length := by simpa using h
      have := ih (a + 1) i hi
      rw [show a + 1 + i = a + (i + 1) by omega] at this
      unfold cells
      split
      · simpa using this
      · simp only [kget]
        rw [if_neg (by omega)]
        simpa using this

/-- A byte that was written reads as written. -/
theorem mget_mwrite_in (m : Memory) (a : Nat) (bs : List Byte) (i : Nat) (h : i < bs.length) :
    mget (mwrite m a bs) (a + i) = bs[i] := by
  unfold mget mwrite
  rw [List.append_assoc, kget_append]
  · by_cases hx : ∃ e ∈ cells a bs, e.1 = a + i
    · have aux : ∀ (l r : Memory), (∃ e ∈ l, e.1 = a + i) → kget 0 (l ++ r) (a + i) = kget (0 : Byte) l (a + i) := by
        intro l r hl
        induction l with
        | nil => simp at hl
        | cons e l ih =>
          obtain ⟨k, w⟩ := e
          simp only [List.cons_append, kget]
          split
          · rfl
          · rename_i hk
            refine ih ?_
            obtain ⟨e, he, hi⟩ := hl
            rcases List.mem_cons.mp he with rfl | he
            · exact absurd hi hk
            · exact ⟨e, he, hi⟩
      rw [aux _ _ hx, kget_cells a bs i h]
    · have hne : ∀ e ∈ cells a bs, e.1 ≠ a + i := fun e he hi => hx ⟨e, he, hi⟩
      have hz := kget_cells a bs i h
      have hnil := kget_append (0 : Byte) (cells a bs) [] (a + i) hne
      simp only [List.append_nil] at hnil
      rw [kget_append _ _ _ _ hne]
      have hr := kget_append (0 : Byte) (m.filter fun e => a + bs.length ≤ e.1) [] (a + i) fun e he => by
        have : a + bs.length ≤ e.1 := by simpa using (List.mem_filter.mp he).2
        omega
      simp only [List.append_nil] at hr
      rw [hr, ← hz, hnil]
  · intro e he
    have : e.1 < a := by simpa using (List.mem_filter.mp he).2
    omega

/-- A write leaves every other byte alone. -/
theorem mget_mwrite_out (m : Memory) (a : Nat) (bs : List Byte) (j : Nat) (h : j < a ∨ a + bs.length ≤ j) :
    mget (mwrite m a bs) j = mget m j := by
  have hc : ∀ e ∈ cells a bs, e.1 ≠ j := fun e he => by
    have := cells_bounds a bs e he
    omega
  unfold mget mwrite
  rcases h with h | h
  · have h3 : ∀ (l : Memory), (∀ e ∈ l, e.1 ≠ j) → ∀ k : Memory, kget 0 (k ++ l) j = kget (0 : Byte) k j := by
      intro l hl k
      induction k with
      | nil =>
        have := kget_append (0 : Byte) l [] j hl
        simpa using this
      | cons e k ih =>
        obtain ⟨x, w⟩ := e
        simp only [List.cons_append, kget]
        split
        · rfl
        · exact ih
    rw [h3 _ (fun e he => by
      have : a + bs.length ≤ e.1 := by simpa using (List.mem_filter.mp he).2
      omega), h3 _ hc]
    have := kget_filter (0 : Byte) (fun k => decide (k < a)) m j
    simpa [h] using this
  · rw [List.append_assoc, kget_append _ _ _ _ (fun e he => by
      have : e.1 < a := by simpa using (List.mem_filter.mp he).2
      omega), kget_append _ _ _ _ hc]
    have := kget_filter (0 : Byte) (fun k => decide (a + bs.length ≤ k)) m j
    simpa [h] using this

/-- Dropping cells keeps the canonical form. -/
theorem filter_wf (m : Memory) (p : Host.Cell → Bool) (h : Memory.wf m) : Memory.wf (m.filter p) :=
  ⟨h.1.filter _, fun e he => h.2 e (List.mem_filter.mp he).1⟩

/-- Reset memory has the canonical form. -/
theorem reset_memory_wf : Memory.wf State.reset.ms.mem := by
  refine ⟨?_, ?_⟩ <;> simp [State.reset, MemSys.init]

end Sys2Proof.Machine
end

