-- ==== Sys2Proof/Laws/PerInstr.lean ====
section
/-!
SUPPORT. Statements about each instruction as syntax. Family `Fits`: what the encoder makes fits the fields of a slot word
(R38, R40).
-/
namespace Sys2Proof.Laws

set_option linter.unusedSimpArgs false
set_option linter.unnecessarySeqFocus false

theorem MulKind.code_lt (x : MulKind) : x.code < 3 := by cases x <;> decide
theorem ShiftKind.code_lt (x : ShiftKind) : x.code < 4 := by cases x <;> decide
theorem Cond.code_lt (x : Cond) : x.code < 6 := by cases x <;> decide
theorem SatKind.code_lt (x : SatKind) : x.code < 3 := by cases x <;> decide
theorem Rounding.code_lt (x : Rounding) : x.code < 3 := by cases x <;> decide
theorem FloatKind.code_lt (x : FloatKind) : x.code < 3 := by cases x <;> decide
theorem FCond.code_lt (x : FCond) : x.code < 6 := by cases x <;> decide
theorem CvtFormat.code_lt (x : CvtFormat) : x.code < 8 := by cases x <;> decide
theorem RedOp.code_lt (x : RedOp) : x.code < 7 := by cases x <;> decide
theorem XcKind.code_lt (x : XcKind) : x.code < 3 := by cases x <;> decide
theorem KOp.code_lt (x : KOp) : x.code < 7 := by cases x <;> decide
theorem DotKind.code_lt (x : DotKind) : x.code < 3 := by cases x <;> decide
theorem MemSize.code_lt (x : MemSize) : x.code < 7 := by cases x <;> decide
theorem Scope.code_lt (x : Scope) : x.code < 6 := by cases x <;> decide
theorem AmoOp.code_lt (x : AmoOp) : x.code < 7 := by cases x <;> decide
theorem MpsSides.code_lt (x : MpsSides) : x.code < 4 := by cases x <;> decide
theorem UnitSize.code_lt (x : UnitSize) : x.code < 3 := by cases x <;> decide
theorem BankOp.code_lt (x : BankOp) : x.code < 3 := by cases x <;> decide
theorem BarVariant.code_lt (x : BarVariant) : x.code < 4 := by cases x <;> decide

theorem flagCode_lt (b : Bool) : flagCode b < 2 := by cases b <;> decide

theorem tokenWord_lt (t : TokenWord) : t.encode < 2 ^ 32 := by
  have h1 := t.prod.isLt
  have h2 := t.c1.isLt
  have h3 := t.c2.isLt
  have h4 := t.c3.isLt
  have h5 := t.ring.isLt
  unfold TokenWord.encode
  have h6 := flagCode_lt t.cr
  omega

/-- What a slot operation encodes to fits its fields. -/
def Fits.Statement (i : Instr) : Prop :=
  ∀ mp op f ext, i.fields = some (mp, op, f, ext) → op < 64 ∧ f < 2 ^ 22 ∧ ext.length ≤ 2 ∧ ∀ e ∈ ext, e < 2 ^ 32

theorem Fits.add (d : Reg) (a : Reg) (b : Reg) : Fits.Statement (.add d a b) := by
  intro _ _ _ _ h
  cases h
  have := d.isLt
  have := a.isLt
  have := b.isLt
  refine ⟨by decide, ?_, by simp, ?_⟩ <;> simp [rrr, rr] <;> omega
theorem Fits.sub (d : Reg) (a : Reg) (b : Reg) : Fits.Statement (.sub d a b) := by
  intro _ _ _ _ h
  cases h
  have := d.isLt
  have := a.isLt
  have := b.isLt
  refine ⟨by decide, ?_, by simp, ?_⟩ <;> simp [rrr, rr] <;> omega
theorem Fits.addi (d : Reg) (a : Reg) (imm : BitVec 10) : Fits.Statement (.addi d a imm) := by
  intro _ _ _ _ h
  cases h
  have := d.isLt
  have := a.isLt
  have := imm.isLt
  refine ⟨by decide, ?_, by simp, ?_⟩ <;> simp [rrr, rr] <;> omega
theorem Fits.mul (d : Reg) (a : Reg) (b : Reg) : Fits.Statement (.mul d a b) := by
  intro _ _ _ _ h
  cases h
  have := d.isLt
  have := a.isLt
  have := b.isLt
  refine ⟨by decide, ?_, by simp, ?_⟩ <;> simp [rrr, rr] <;> omega
theorem Fits.mulh (d : Reg) (a : Reg) (b : Reg) (k : MulKind) : Fits.Statement (.mulh d a b k) := by
  intro _ _ _ _ h
  cases h
  have := d.isLt
  have := a.isLt
  have := b.isLt
  have := MulKind.code_lt k
  refine ⟨by decide, ?_, by simp, ?_⟩ <;> simp [rrr, rr] <;> omega
theorem Fits.div (d : Reg) (a : Reg) (b : Reg) (u : Bool) : Fits.Statement (.div d a b u) := by
  intro _ _ _ _ h
  cases h
  have := d.isLt
  have := a.isLt
  have := b.isLt
  have := flagCode_lt u
  refine ⟨by decide, ?_, by simp, ?_⟩ <;> simp [rrr, rr] <;> omega
theorem Fits.rem (d : Reg) (a : Reg) (b : Reg) (u : Bool) : Fits.Statement (.rem d a b u) := by
  intro _ _ _ _ h
  cases h
  have := d.isLt
  have := a.isLt
  have := b.isLt
  have := flagCode_lt u
  refine ⟨by decide, ?_, by simp, ?_⟩ <;> simp [rrr, rr] <;> omega
theorem Fits.and (d : Reg) (a : Reg) (b : Reg) : Fits.Statement (.and d a b) := by
  intro _ _ _ _ h
  cases h
  have := d.isLt
  have := a.isLt
  have := b.isLt
  refine ⟨by decide, ?_, by simp, ?_⟩ <;> simp [rrr, rr] <;> omega
theorem Fits.or (d : Reg) (a : Reg) (b : Reg) : Fits.Statement (.or d a b) := by
  intro _ _ _ _ h
  cases h
  have := d.isLt
  have := a.isLt
  have := b.isLt
  refine ⟨by decide, ?_, by simp, ?_⟩ <;> simp [rrr, rr] <;> omega
theorem Fits.xor (d : Reg) (a : Reg) (b : Reg) : Fits.Statement (.xor d a b) := by
  intro _ _ _ _ h
  cases h
  have := d.isLt
  have := a.isLt
  have := b.isLt
  refine ⟨by decide, ?_, by simp, ?_⟩ <;> simp [rrr, rr] <;> omega
theorem Fits.andi (d : Reg) (a : Reg) (imm : BitVec 10) : Fits.Statement (.andi d a imm) := by
  intro _ _ _ _ h
  cases h
  have := d.isLt
  have := a.isLt
  have := imm.isLt
  refine ⟨by decide, ?_, by simp, ?_⟩ <;> simp [rrr, rr] <;> omega
theorem Fits.ori (d : Reg) (a : Reg) (imm : BitVec 10) : Fits.Statement (.ori d a imm) := by
  intro _ _ _ _ h
  cases h
  have := d.isLt
  have := a.isLt
  have := imm.isLt
  refine ⟨by decide, ?_, by simp, ?_⟩ <;> simp [rrr, rr] <;> omega
theorem Fits.xori (d : Reg) (a : Reg) (imm : BitVec 10) : Fits.Statement (.xori d a imm) := by
  intro _ _ _ _ h
  cases h
  have := d.isLt
  have := a.isLt
  have := imm.isLt
  refine ⟨by decide, ?_, by simp, ?_⟩ <;> simp [rrr, rr] <;> omega
theorem Fits.sll (d : Reg) (a : Reg) (b : Reg) : Fits.Statement (.sll d a b) := by
  intro _ _ _ _ h
  cases h
  have := d.isLt
  have := a.isLt
  have := b.isLt
  refine ⟨by decide, ?_, by simp, ?_⟩ <;> simp [rrr, rr] <;> omega
theorem Fits.srl (d : Reg) (a : Reg) (b : Reg) : Fits.Statement (.srl d a b) := by
  intro _ _ _ _ h
  cases h
  have := d.isLt
  have := a.isLt
  have := b.isLt
  refine ⟨by decide, ?_, by simp, ?_⟩ <;> simp [rrr, rr] <;> omega
theorem Fits.sra (d : Reg) (a : Reg) (b : Reg) : Fits.Statement (.sra d a b) := by
  intro _ _ _ _ h
  cases h
  have := d.isLt
  have := a.isLt
  have := b.isLt
  refine ⟨by decide, ?_, by simp, ?_⟩ <;> simp [rrr, rr] <;> omega
theorem Fits.shi (d : Reg) (a : Reg) (k : ShiftKind) (n : Fin 64) : Fits.Statement (.shi d a k n) := by
  intro _ _ _ _ h
  cases h
  have := d.isLt
  have := a.isLt
  have := ShiftKind.code_lt k
  have := n.isLt
  refine ⟨by decide, ?_, by simp, ?_⟩ <;> simp [rrr, rr] <;> omega
theorem Fits.min (d : Reg) (a : Reg) (b : Reg) (u : Bool) : Fits.Statement (.min d a b u) := by
  intro _ _ _ _ h
  cases h
  have := d.isLt
  have := a.isLt
  have := b.isLt
  have := flagCode_lt u
  refine ⟨by decide, ?_, by simp, ?_⟩ <;> simp [rrr, rr] <;> omega
theorem Fits.max (d : Reg) (a : Reg) (b : Reg) (u : Bool) : Fits.Statement (.max d a b u) := by
  intro _ _ _ _ h
  cases h
  have := d.isLt
  have := a.isLt
  have := b.isLt
  have := flagCode_lt u
  refine ⟨by decide, ?_, by simp, ?_⟩ <;> simp [rrr, rr] <;> omega
theorem Fits.clz (d : Reg) (a : Reg) : Fits.Statement (.clz d a) := by
  intro _ _ _ _ h
  cases h
  have := d.isLt
  have := a.isLt
  refine ⟨by decide, ?_, by simp, ?_⟩ <;> simp [rrr, rr] <;> omega
theorem Fits.popc (d : Reg) (a : Reg) : Fits.Statement (.popc d a) := by
  intro _ _ _ _ h
  cases h
  have := d.isLt
  have := a.isLt
  refine ⟨by decide, ?_, by simp, ?_⟩ <;> simp [rrr, rr] <;> omega
theorem Fits.cmp (d : Reg) (a : Reg) (b : Reg) (c : Cond) : Fits.Statement (.cmp d a b c) := by
  intro _ _ _ _ h
  cases h
  have := d.isLt
  have := a.isLt
  have := b.isLt
  have := Cond.code_lt c
  refine ⟨by decide, ?_, by simp, ?_⟩ <;> simp [rrr, rr] <;> omega
theorem Fits.cmpi (d : Reg) (a : Reg) (c : Cond) (imm : BitVec 6) : Fits.Statement (.cmpi d a c imm) := by
  intro _ _ _ _ h
  cases h
  have := d.isLt
  have := a.isLt
  have := Cond.code_lt c
  have := imm.isLt
  refine ⟨by decide, ?_, by simp, ?_⟩ <;> simp [rrr, rr] <;> omega
theorem Fits.cmpiExt (d : Reg) (a : Reg) (c : Cond) (imm : BitVec 32) : Fits.Statement (.cmpiExt d a c imm) := by
  intro _ _ _ _ h
  cases h
  have := d.isLt
  have := a.isLt
  have := Cond.code_lt c
  have := imm.isLt
  refine ⟨by decide, ?_, by simp, ?_⟩ <;> simp [rrr, rr] <;> omega
theorem Fits.sel (d : Reg) (a : Reg) (b : Reg) (c : Reg) : Fits.Statement (.sel d a b c) := by
  intro _ _ _ _ h
  cases h
  have := d.isLt
  have := a.isLt
  have := b.isLt
  have := c.isLt
  refine ⟨by decide, ?_, by simp, ?_⟩ <;> simp [rrr, rr] <;> omega
theorem Fits.li (d : Reg) (imm : BitVec 10) : Fits.Statement (.li d imm) := by
  intro _ _ _ _ h
  cases h
  have := d.isLt
  have := imm.isLt
  refine ⟨by decide, ?_, by simp, ?_⟩ <;> simp [rrr, rr] <;> omega
theorem Fits.liExt (d : Reg) (imm : BitVec 64) : Fits.Statement (.liExt d imm) := by
  intro _ _ _ _ h
  cases h
  have := d.isLt
  have := imm.isLt
  refine ⟨by decide, ?_, by simp, ?_⟩ <;> simp [rrr, rr] <;> omega
theorem Fits.bfx (d : Reg) (a : Reg) (pos : Fin 64) (len1 : Fin 64) (s : Bool) : Fits.Statement (.bfx d a pos len1 s) := by
  intro _ _ _ _ h
  cases h
  have := d.isLt
  have := a.isLt
  have := pos.isLt
  have := len1.isLt
  have := flagCode_lt s
  refine ⟨by decide, ?_, by simp, ?_⟩ <;> simp [rrr, rr] <;> omega
theorem Fits.bfi (d : Reg) (a : Reg) (pos : Fin 64) (len1 : Fin 64) : Fits.Statement (.bfi d a pos len1) := by
  intro _ _ _ _ h
  cases h
  have := d.isLt
  have := a.isLt
  have := pos.isLt
  have := len1.isLt
  refine ⟨by decide, ?_, by simp, ?_⟩ <;> simp [rrr, rr] <;> omega
theorem Fits.stag (d : Reg) (a : Reg) (tag : Fin 16) : Fits.Statement (.stag d a tag) := by
  intro _ _ _ _ h
  cases h
  have := d.isLt
  have := a.isLt
  have := tag.isLt
  refine ⟨by decide, ?_, by simp, ?_⟩ <;> simp [rrr, rr] <;> omega
theorem Fits.br (a : Reg) (b : Reg) (c : Cond) (off : BitVec 32) : Fits.Statement (.br a b c off) := by
  intro _ _ _ _ h
  cases h
  have := a.isLt
  have := b.isLt
  have := Cond.code_lt c
  have := off.isLt
  refine ⟨by decide, ?_, by simp, ?_⟩ <;> simp [rrr, rr] <;> omega
theorem Fits.bri (a : Reg) (imm : BitVec 6) (c : Cond) (off : BitVec 32) : Fits.Statement (.bri a imm c off) := by
  intro _ _ _ _ h
  cases h
  have := a.isLt
  have := imm.isLt
  have := Cond.code_lt c
  have := off.isLt
  refine ⟨by decide, ?_, by simp, ?_⟩ <;> simp [rrr, rr] <;> omega
theorem Fits.j (off : BitVec 32) : Fits.Statement (.j off) := by
  intro _ _ _ _ h
  cases h
  have := off.isLt
  refine ⟨by decide, ?_, by simp, ?_⟩ <;> simp [rrr, rr] <;> omega
theorem Fits.jal (d : Reg) (off : BitVec 32) : Fits.Statement (.jal d off) := by
  intro _ _ _ _ h
  cases h
  have := d.isLt
  have := off.isLt
  refine ⟨by decide, ?_, by simp, ?_⟩ <;> simp [rrr, rr] <;> omega
theorem Fits.jr (a : Reg) : Fits.Statement (.jr a) := by
  intro _ _ _ _ h
  cases h
  have := a.isLt
  refine ⟨by decide, ?_, by simp, ?_⟩ <;> simp [rrr, rr] <;> omega
theorem Fits.btok (t : Tok) (set : Fin 16) (off : BitVec 32) : Fits.Statement (.btok t set off) := by
  intro _ _ _ _ h
  cases h
  have := t.isLt
  have := set.isLt
  have := off.isLt
  refine ⟨by decide, ?_, by simp, ?_⟩ <;> simp [rrr, rr] <;> omega
theorem Fits.bempty (set : BitVec 8) (off : BitVec 32) : Fits.Statement (.bempty set off) := by
  intro _ _ _ _ h
  cases h
  have := set.isLt
  have := off.isLt
  refine ⟨by decide, ?_, by simp, ?_⟩ <;> simp [rrr, rr] <;> omega
theorem Fits.chk (a : Reg) (off : BitVec 32) : Fits.Statement (.chk a off) := by
  intro _ _ _ _ h
  cases h
  have := a.isLt
  have := off.isLt
  refine ⟨by decide, ?_, by simp, ?_⟩ <;> simp [rrr, rr] <;> omega
theorem Fits.loop (lv : Fin 8) (c : Reg) (n1 : Fin 64) : Fits.Statement (.loop lv c n1) := by
  intro _ _ _ _ h
  cases h
  have := lv.isLt
  have := c.isLt
  have := n1.isLt
  refine ⟨by decide, ?_, by simp, ?_⟩ <;> simp [rrr, rr] <;> omega
theorem Fits.lstr (lv : Fin 8) (j : Fin 4) (x : Reg) (stride : BitVec 32) : Fits.Statement (.lstr lv j x stride) := by
  intro _ _ _ _ h
  cases h
  have := lv.isLt
  have := j.isLt
  have := x.isLt
  have := stride.isLt
  refine ⟨by decide, ?_, by simp, ?_⟩ <;> simp [rrr, rr] <;> omega
theorem Fits.lbrk (lv : Fin 8) (a : Reg) (u : Bool) : Fits.Statement (.lbrk lv a u) := by
  intro _ _ _ _ h
  cases h
  have := lv.isLt
  have := a.isLt
  have := flagCode_lt u
  refine ⟨by decide, ?_, by simp, ?_⟩ <;> simp [rrr, rr] <;> omega
theorem Fits.wait (ld : Bool) (st : Bool) (n : Fin 256) : Fits.Statement (.wait ld st n) := by
  intro _ _ _ _ h
  cases h
  have := flagCode_lt ld
  have := flagCode_lt st
  have := n.isLt
  refine ⟨by decide, ?_, by simp, ?_⟩ <;> simp [rrr, rr] <;> omega
theorem Fits.csrr (d : Reg) (csr : Fin 1024) : Fits.Statement (.csrr d csr) := by
  intro _ _ _ _ h
  cases h
  have := d.isLt
  have := csr.isLt
  refine ⟨by decide, ?_, by simp, ?_⟩ <;> simp [rrr, rr] <;> omega
theorem Fits.csrw (d : Reg) (a : Reg) (csr : Fin 1024) : Fits.Statement (.csrw d a csr) := by
  intro _ _ _ _ h
  cases h
  have := d.isLt
  have := a.isLt
  have := csr.isLt
  refine ⟨by decide, ?_, by simp, ?_⟩ <;> simp [rrr, rr] <;> omega
theorem Fits.csrs (d : Reg) (a : Reg) (csr : Fin 1024) : Fits.Statement (.csrs d a csr) := by
  intro _ _ _ _ h
  cases h
  have := d.isLt
  have := a.isLt
  have := csr.isLt
  refine ⟨by decide, ?_, by simp, ?_⟩ <;> simp [rrr, rr] <;> omega
theorem Fits.csrc (d : Reg) (a : Reg) (csr : Fin 1024) : Fits.Statement (.csrc d a csr) := by
  intro _ _ _ _ h
  cases h
  have := d.isLt
  have := a.isLt
  have := csr.isLt
  refine ⟨by decide, ?_, by simp, ?_⟩ <;> simp [rrr, rr] <;> omega
theorem Fits.trap (n : Fin 1024) : Fits.Statement (.trap n) := by
  intro _ _ _ _ h
  cases h
  have := n.isLt
  refine ⟨by decide, ?_, by simp, ?_⟩ <;> simp [rrr, rr] <;> omega
theorem Fits.fset (r : Bool) (c : Reg) (f : Fin 32) : Fits.Statement (.fset r c f) := by
  intro _ _ _ _ h
  cases h
  have := flagCode_lt r
  have := c.isLt
  have := f.isLt
  refine ⟨by decide, ?_, by simp, ?_⟩ <;> simp [rrr, rr] <;> omega
theorem Fits.fwait (c : Bool) (f : Fin 32) : Fits.Statement (.fwait c f) := by
  intro _ _ _ _ h
  cases h
  have := flagCode_lt c
  have := f.isLt
  refine ⟨by decide, ?_, by simp, ?_⟩ <;> simp [rrr, rr] <;> omega
theorem Fits.fclr (f : Fin 32) : Fits.Statement (.fclr f) := by
  intro _ _ _ _ h
  cases h
  have := f.isLt
  refine ⟨by decide, ?_, by simp, ?_⟩ <;> simp [rrr, rr] <;> omega
theorem Fits.vadd (vd : Reg) (va : Reg) (vb : Reg) (k : SatKind) : Fits.Statement (.vadd vd va vb k) := by
  intro _ _ _ _ h
  cases h
  have := vd.isLt
  have := va.isLt
  have := vb.isLt
  have := SatKind.code_lt k
  refine ⟨by decide, ?_, by simp, ?_⟩ <;> simp [rrr, rr] <;> omega
theorem Fits.vsub (vd : Reg) (va : Reg) (vb : Reg) (k : SatKind) : Fits.Statement (.vsub vd va vb k) := by
  intro _ _ _ _ h
  cases h
  have := vd.isLt
  have := va.isLt
  have := vb.isLt
  have := SatKind.code_lt k
  refine ⟨by decide, ?_, by simp, ?_⟩ <;> simp [rrr, rr] <;> omega
theorem Fits.vmul (vd : Reg) (va : Reg) (vb : Reg) (k : SatKind) : Fits.Statement (.vmul vd va vb k) := by
  intro _ _ _ _ h
  cases h
  have := vd.isLt
  have := va.isLt
  have := vb.isLt
  have := SatKind.code_lt k
  refine ⟨by decide, ?_, by simp, ?_⟩ <;> simp [rrr, rr] <;> omega
theorem Fits.vmulh (vd : Reg) (va : Reg) (vb : Reg) (k : MulKind) : Fits.Statement (.vmulh vd va vb k) := by
  intro _ _ _ _ h
  cases h
  have := vd.isLt
  have := va.isLt
  have := vb.isLt
  have := MulKind.code_lt k
  refine ⟨by decide, ?_, by simp, ?_⟩ <;> simp [rrr, rr] <;> omega
theorem Fits.vmin (vd : Reg) (va : Reg) (vb : Reg) (u : Bool) : Fits.Statement (.vmin vd va vb u) := by
  intro _ _ _ _ h
  cases h
  have := vd.isLt
  have := va.isLt
  have := vb.isLt
  have := flagCode_lt u
  refine ⟨by decide, ?_, by simp, ?_⟩ <;> simp [rrr, rr] <;> omega
theorem Fits.vmax (vd : Reg) (va : Reg) (vb : Reg) (u : Bool) : Fits.Statement (.vmax vd va vb u) := by
  intro _ _ _ _ h
  cases h
  have := vd.isLt
  have := va.isLt
  have := vb.isLt
  have := flagCode_lt u
  refine ⟨by decide, ?_, by simp, ?_⟩ <;> simp [rrr, rr] <;> omega
theorem Fits.vabs (vd : Reg) (va : Reg) (s : Bool) : Fits.Statement (.vabs vd va s) := by
  intro _ _ _ _ h
  cases h
  have := vd.isLt
  have := va.isLt
  have := flagCode_lt s
  refine ⟨by decide, ?_, by simp, ?_⟩ <;> simp [rrr, rr] <;> omega
theorem Fits.vand (vd : Reg) (va : Reg) (vb : Reg) : Fits.Statement (.vand vd va vb) := by
  intro _ _ _ _ h
  cases h
  have := vd.isLt
  have := va.isLt
  have := vb.isLt
  refine ⟨by decide, ?_, by simp, ?_⟩ <;> simp [rrr, rr] <;> omega
theorem Fits.vor (vd : Reg) (va : Reg) (vb : Reg) : Fits.Statement (.vor vd va vb) := by
  intro _ _ _ _ h
  cases h
  have := vd.isLt
  have := va.isLt
  have := vb.isLt
  refine ⟨by decide, ?_, by simp, ?_⟩ <;> simp [rrr, rr] <;> omega
theorem Fits.vxor (vd : Reg) (va : Reg) (vb : Reg) : Fits.Statement (.vxor vd va vb) := by
  intro _ _ _ _ h
  cases h
  have := vd.isLt
  have := va.isLt
  have := vb.isLt
  refine ⟨by decide, ?_, by simp, ?_⟩ <;> simp [rrr, rr] <;> omega
theorem Fits.vnot (vd : Reg) (va : Reg) : Fits.Statement (.vnot vd va) := by
  intro _ _ _ _ h
  cases h
  have := vd.isLt
  have := va.isLt
  refine ⟨by decide, ?_, by simp, ?_⟩ <;> simp [rrr, rr] <;> omega
theorem Fits.vshl (vd : Reg) (va : Reg) (vb : Reg) : Fits.Statement (.vshl vd va vb) := by
  intro _ _ _ _ h
  cases h
  have := vd.isLt
  have := va.isLt
  have := vb.isLt
  refine ⟨by decide, ?_, by simp, ?_⟩ <;> simp [rrr, rr] <;> omega
theorem Fits.vshr (vd : Reg) (va : Reg) (vb : Reg) : Fits.Statement (.vshr vd va vb) := by
  intro _ _ _ _ h
  cases h
  have := vd.isLt
  have := va.isLt
  have := vb.isLt
  refine ⟨by decide, ?_, by simp, ?_⟩ <;> simp [rrr, rr] <;> omega
theorem Fits.vsra (vd : Reg) (va : Reg) (vb : Reg) : Fits.Statement (.vsra vd va vb) := by
  intro _ _ _ _ h
  cases h
  have := vd.isLt
  have := va.isLt
  have := vb.isLt
  refine ⟨by decide, ?_, by simp, ?_⟩ <;> simp [rrr, rr] <;> omega
theorem Fits.vcmp (c : Cond) (kd : KReg) (va : Reg) (vb : Reg) : Fits.Statement (.vcmp c kd va vb) := by
  intro _ _ _ _ h
  cases h
  have := Cond.code_lt c
  have := kd.isLt
  have := va.isLt
  have := vb.isLt
  refine ⟨by decide, ?_, by simp, ?_⟩ <;> simp [rrr, rr] <;> omega
theorem Fits.vsel (vd : Reg) (va : Reg) (vb : Reg) (k : KReg) : Fits.Statement (.vsel vd va vb k) := by
  intro _ _ _ _ h
  cases h
  have := vd.isLt
  have := va.isLt
  have := vb.isLt
  have := k.isLt
  refine ⟨by decide, ?_, by simp, ?_⟩ <;> simp [rrr, rr] <;> omega
theorem Fits.vfadd (vd : Reg) (va : Reg) (vb : Reg) (r : Rounding) (f : FloatKind) : Fits.Statement (.vfadd vd va vb r f) := by
  intro _ _ _ _ h
  cases h
  have := vd.isLt
  have := va.isLt
  have := vb.isLt
  have := Rounding.code_lt r
  have := FloatKind.code_lt f
  refine ⟨by decide, ?_, by simp, ?_⟩ <;> simp [rrr, rr] <;> omega
theorem Fits.vfsub (vd : Reg) (va : Reg) (vb : Reg) (r : Rounding) (f : FloatKind) : Fits.Statement (.vfsub vd va vb r f) := by
  intro _ _ _ _ h
  cases h
  have := vd.isLt
  have := va.isLt
  have := vb.isLt
  have := Rounding.code_lt r
  have := FloatKind.code_lt f
  refine ⟨by decide, ?_, by simp, ?_⟩ <;> simp [rrr, rr] <;> omega
theorem Fits.vfmul (vd : Reg) (va : Reg) (vb : Reg) (r : Rounding) (f : FloatKind) : Fits.Statement (.vfmul vd va vb r f) := by
  intro _ _ _ _ h
  cases h
  have := vd.isLt
  have := va.isLt
  have := vb.isLt
  have := Rounding.code_lt r
  have := FloatKind.code_lt f
  refine ⟨by decide, ?_, by simp, ?_⟩ <;> simp [rrr, rr] <;> omega
theorem Fits.vfma (vd : Reg) (va : Reg) (vb : Reg) (r : Rounding) (f : FloatKind) : Fits.Statement (.vfma vd va vb r f) := by
  intro _ _ _ _ h
  cases h
  have := vd.isLt
  have := va.isLt
  have := vb.isLt
  have := Rounding.code_lt r
  have := FloatKind.code_lt f
  refine ⟨by decide, ?_, by simp, ?_⟩ <;> simp [rrr, rr] <;> omega
theorem Fits.vfmin (vd : Reg) (va : Reg) (vb : Reg) (f : FloatKind) : Fits.Statement (.vfmin vd va vb f) := by
  intro _ _ _ _ h
  cases h
  have := vd.isLt
  have := va.isLt
  have := vb.isLt
  have := FloatKind.code_lt f
  refine ⟨by decide, ?_, by simp, ?_⟩ <;> simp [rrr, rr] <;> omega
theorem Fits.vfmax (vd : Reg) (va : Reg) (vb : Reg) (f : FloatKind) : Fits.Statement (.vfmax vd va vb f) := by
  intro _ _ _ _ h
  cases h
  have := vd.isLt
  have := va.isLt
  have := vb.isLt
  have := FloatKind.code_lt f
  refine ⟨by decide, ?_, by simp, ?_⟩ <;> simp [rrr, rr] <;> omega
theorem Fits.vfcmp (c : FCond) (kd : KReg) (va : Reg) (vb : Reg) (f : FloatKind) : Fits.Statement (.vfcmp c kd va vb f) := by
  intro _ _ _ _ h
  cases h
  have := FCond.code_lt c
  have := kd.isLt
  have := va.isLt
  have := vb.isLt
  have := FloatKind.code_lt f
  refine ⟨by decide, ?_, by simp, ?_⟩ <;> simp [rrr, rr] <;> omega
theorem Fits.vcvt (vd : Reg) (va : Reg) (src : CvtFormat) (dst : CvtFormat) (r : Rounding) : Fits.Statement (.vcvt vd va src dst r) := by
  intro _ _ _ _ h
  cases h
  have := vd.isLt
  have := va.isLt
  have := CvtFormat.code_lt src
  have := CvtFormat.code_lt dst
  have := Rounding.code_lt r
  refine ⟨by decide, ?_, by simp, ?_⟩ <;> simp [rrr, rr] <;> omega
theorem Fits.vpack (vd : Reg) (va : Reg) (ix : Fin 16) (nf : Fin 4) (int : Bool) : Fits.Statement (.vpack vd va ix nf int) := by
  intro _ _ _ _ h
  cases h
  have := vd.isLt
  have := va.isLt
  have := ix.isLt
  have := nf.isLt
  have := flagCode_lt int
  refine ⟨by decide, ?_, by simp, ?_⟩ <;> simp [rrr, rr] <;> omega
theorem Fits.vunpack (vd : Reg) (va : Reg) (ix : Fin 16) (nf : Fin 4) : Fits.Statement (.vunpack vd va ix nf) := by
  intro _ _ _ _ h
  cases h
  have := vd.isLt
  have := va.isLt
  have := ix.isLt
  have := nf.isLt
  refine ⟨by decide, ?_, by simp, ?_⟩ <;> simp [rrr, rr] <;> omega
theorem Fits.vred (sd : Reg) (va : Reg) (f : RedOp) : Fits.Statement (.vred sd va f) := by
  intro _ _ _ _ h
  cases h
  have := sd.isLt
  have := va.isLt
  have := RedOp.code_lt f
  refine ⟨by decide, ?_, by simp, ?_⟩ <;> simp [rrr, rr] <;> omega
theorem Fits.vscan (vd : Reg) (va : Reg) (f : RedOp) : Fits.Statement (.vscan vd va f) := by
  intro _ _ _ _ h
  cases h
  have := vd.isLt
  have := va.isLt
  have := RedOp.code_lt f
  refine ⟨by decide, ?_, by simp, ?_⟩ <;> simp [rrr, rr] <;> omega
theorem Fits.vperm (vd : Reg) (va : Reg) (vb : Reg) : Fits.Statement (.vperm vd va vb) := by
  intro _ _ _ _ h
  cases h
  have := vd.isLt
  have := va.isLt
  have := vb.isLt
  refine ⟨by decide, ?_, by simp, ?_⟩ <;> simp [rrr, rr] <;> omega
theorem Fits.vxc (vd : Reg) (va : Reg) (n : Fin 8) (k : XcKind) : Fits.Statement (.vxc vd va n k) := by
  intro _ _ _ _ h
  cases h
  have := vd.isLt
  have := va.isLt
  have := n.isLt
  have := XcKind.code_lt k
  refine ⟨by decide, ?_, by simp, ?_⟩ <;> simp [rrr, rr] <;> omega
theorem Fits.vbcast (vd : Reg) (sa : Reg) (hi : Bool) : Fits.Statement (.vbcast vd sa hi) := by
  intro _ _ _ _ h
  cases h
  have := vd.isLt
  have := sa.isLt
  have := flagCode_lt hi
  refine ⟨by decide, ?_, by simp, ?_⟩ <;> simp [rrr, rr] <;> omega
theorem Fits.vext (sd : Reg) (va : Reg) (lane : Fin 16) (s : Bool) : Fits.Statement (.vext sd va lane s) := by
  intro _ _ _ _ h
  cases h
  have := sd.isLt
  have := va.isLt
  have := lane.isLt
  have := flagCode_lt s
  refine ⟨by decide, ?_, by simp, ?_⟩ <;> simp [rrr, rr] <;> omega
theorem Fits.viota (vd : Reg) (g : Bool) : Fits.Statement (.viota vd g) := by
  intro _ _ _ _ h
  cases h
  have := vd.isLt
  have := flagCode_lt g
  refine ⟨by decide, ?_, by simp, ?_⟩ <;> simp [rrr, rr] <;> omega
theorem Fits.vli (vd : Reg) (imm : BitVec 16) : Fits.Statement (.vli vd imm) := by
  intro _ _ _ _ h
  cases h
  have := vd.isLt
  have := imm.isLt
  refine ⟨by decide, ?_, by simp, ?_⟩ <;> simp [rrr, rr] <;> omega
theorem Fits.vliExt (vd : Reg) (imm : BitVec 32) : Fits.Statement (.vliExt vd imm) := by
  intro _ _ _ _ h
  cases h
  have := vd.isLt
  have := imm.isLt
  refine ⟨by decide, ?_, by simp, ?_⟩ <;> simp [rrr, rr] <;> omega
theorem Fits.mpush (k : KReg) : Fits.Statement (.mpush k) := by
  intro _ _ _ _ h
  cases h
  have := k.isLt
  refine ⟨by decide, ?_, by simp, ?_⟩ <;> simp [rrr, rr] <;> omega
theorem Fits.kmov (kd : KReg) (ka : KReg) (kb : KReg) (f : KOp) : Fits.Statement (.kmov kd ka kb f) := by
  intro _ _ _ _ h
  cases h
  have := kd.isLt
  have := ka.isLt
  have := kb.isLt
  have := KOp.code_lt f
  refine ⟨by decide, ?_, by simp, ?_⟩ <;> simp [rrr, rr] <;> omega
theorem Fits.vcm (j : Fin 4) (m : BitVec 8) : Fits.Statement (.vcm j m) := by
  intro _ _ _ _ h
  cases h
  have := j.isLt
  have := m.isLt
  refine ⟨by decide, ?_, by simp, ?_⟩ <;> simp [rrr, rr] <;> omega
theorem Fits.vlgmul (vd : Reg) (va : Reg) (vb : Reg) : Fits.Statement (.vlgmul vd va vb) := by
  intro _ _ _ _ h
  cases h
  have := vd.isLt
  have := va.isLt
  have := vb.isLt
  refine ⟨by decide, ?_, by simp, ?_⟩ <;> simp [rrr, rr] <;> omega
theorem Fits.vlgsum (vd : Reg) (va : Reg) (vb : Reg) : Fits.Statement (.vlgsum vd va vb) := by
  intro _ _ _ _ h
  cases h
  have := vd.isLt
  have := va.isLt
  have := vb.isLt
  refine ⟨by decide, ?_, by simp, ?_⟩ <;> simp [rrr, rr] <;> omega
theorem Fits.vdot4 (vd : Reg) (va : Reg) (vb : Reg) (sat : Bool) (k : DotKind) : Fits.Statement (.vdot4 vd va vb sat k) := by
  intro _ _ _ _ h
  cases h
  have := vd.isLt
  have := va.isLt
  have := vb.isLt
  have := flagCode_lt sat
  have := DotKind.code_lt k
  refine ⟨by decide, ?_, by simp, ?_⟩ <;> simp [rrr, rr] <;> omega
theorem Fits.vmov (vd : Reg) (va : Reg) : Fits.Statement (.vmov vd va) := by
  intro _ _ _ _ h
  cases h
  have := vd.isLt
  have := va.isLt
  refine ⟨by decide, ?_, by simp, ?_⟩ <;> simp [rrr, rr] <;> omega
theorem Fits.fexp2 (vd : Reg) (va : Reg) : Fits.Statement (.fexp2 vd va) := by
  intro _ _ _ _ h
  cases h
  have := vd.isLt
  have := va.isLt
  refine ⟨by decide, ?_, by simp, ?_⟩ <;> simp [rrr, rr] <;> omega
theorem Fits.flog2 (vd : Reg) (va : Reg) : Fits.Statement (.flog2 vd va) := by
  intro _ _ _ _ h
  cases h
  have := vd.isLt
  have := va.isLt
  refine ⟨by decide, ?_, by simp, ?_⟩ <;> simp [rrr, rr] <;> omega
theorem Fits.frcp (vd : Reg) (va : Reg) : Fits.Statement (.frcp vd va) := by
  intro _ _ _ _ h
  cases h
  have := vd.isLt
  have := va.isLt
  refine ⟨by decide, ?_, by simp, ?_⟩ <;> simp [rrr, rr] <;> omega
theorem Fits.frsqrt (vd : Reg) (va : Reg) : Fits.Statement (.frsqrt vd va) := by
  intro _ _ _ _ h
  cases h
  have := vd.isLt
  have := va.isLt
  refine ⟨by decide, ?_, by simp, ?_⟩ <;> simp [rrr, rr] <;> omega
theorem Fits.fsqrt (vd : Reg) (va : Reg) : Fits.Statement (.fsqrt vd va) := by
  intro _ _ _ _ h
  cases h
  have := vd.isLt
  have := va.isLt
  refine ⟨by decide, ?_, by simp, ?_⟩ <;> simp [rrr, rr] <;> omega
theorem Fits.ftanh (vd : Reg) (va : Reg) : Fits.Statement (.ftanh vd va) := by
  intro _ _ _ _ h
  cases h
  have := vd.isLt
  have := va.isLt
  refine ⟨by decide, ?_, by simp, ?_⟩ <;> simp [rrr, rr] <;> omega
theorem Fits.fsigm (vd : Reg) (va : Reg) : Fits.Statement (.fsigm vd va) := by
  intro _ _ _ _ h
  cases h
  have := vd.isLt
  have := va.isLt
  refine ⟨by decide, ?_, by simp, ?_⟩ <;> simp [rrr, rr] <;> omega
theorem Fits.fsin (vd : Reg) (va : Reg) : Fits.Statement (.fsin vd va) := by
  intro _ _ _ _ h
  cases h
  have := vd.isLt
  have := va.isLt
  refine ⟨by decide, ?_, by simp, ?_⟩ <;> simp [rrr, rr] <;> omega
theorem Fits.fcos (vd : Reg) (va : Reg) : Fits.Statement (.fcos vd va) := by
  intro _ _ _ _ h
  cases h
  have := vd.isLt
  have := va.isLt
  refine ⟨by decide, ?_, by simp, ?_⟩ <;> simp [rrr, rr] <;> omega
theorem Fits.flut (vd : Reg) (va : Reg) (vb : Reg) : Fits.Statement (.flut vd va vb) := by
  intro _ _ _ _ h
  cases h
  have := vd.isLt
  have := va.isLt
  have := vb.isLt
  refine ⟨by decide, ?_, by simp, ?_⟩ <;> simp [rrr, rr] <;> omega
theorem Fits.fcm (m : BitVec 8) : Fits.Statement (.fcm m) := by
  intro _ _ _ _ h
  cases h
  have := m.isLt
  refine ⟨by decide, ?_, by simp, ?_⟩ <;> simp [rrr, rr] <;> omega
theorem Fits.ld (d : Reg) (a : Reg) (sz : MemSize) : Fits.Statement (.ld d a sz) := by
  intro _ _ _ _ h
  cases h
  have := d.isLt
  have := a.isLt
  have := MemSize.code_lt sz
  refine ⟨by decide, ?_, by simp, ?_⟩ <;> simp [rrr, rr] <;> omega
theorem Fits.ldExt (d : Reg) (a : Reg) (sz : MemSize) (off : BitVec 32) : Fits.Statement (.ldExt d a sz off) := by
  intro _ _ _ _ h
  cases h
  have := d.isLt
  have := a.isLt
  have := MemSize.code_lt sz
  have := off.isLt
  refine ⟨by decide, ?_, by simp, ?_⟩ <;> simp [rrr, rr] <;> omega
theorem Fits.st (d : Reg) (a : Reg) (sz : MemSize) : Fits.Statement (.st d a sz) := by
  intro _ _ _ _ h
  cases h
  have := d.isLt
  have := a.isLt
  have := MemSize.code_lt sz
  refine ⟨by decide, ?_, by simp, ?_⟩ <;> simp [rrr, rr] <;> omega
theorem Fits.stExt (d : Reg) (a : Reg) (sz : MemSize) (off : BitVec 32) : Fits.Statement (.stExt d a sz off) := by
  intro _ _ _ _ h
  cases h
  have := d.isLt
  have := a.isLt
  have := MemSize.code_lt sz
  have := off.isLt
  refine ⟨by decide, ?_, by simp, ?_⟩ <;> simp [rrr, rr] <;> omega
theorem Fits.vld (vd : Reg) (a : Reg) : Fits.Statement (.vld vd a) := by
  intro _ _ _ _ h
  cases h
  have := vd.isLt
  have := a.isLt
  refine ⟨by decide, ?_, by simp, ?_⟩ <;> simp [rrr, rr] <;> omega
theorem Fits.vldExt (vd : Reg) (a : Reg) (off : BitVec 32) (stride : Option (BitVec 32)) : Fits.Statement (.vldExt vd a off stride) := by
  intro _ _ _ _ h
  cases stride <;> cases h <;>
    (have := vd.isLt; have := a.isLt; have := off.isLt
     refine ⟨by decide, ?_, by simp, ?_⟩ <;> simp [rrr, rr] <;> omega)
theorem Fits.vst (vd : Reg) (a : Reg) : Fits.Statement (.vst vd a) := by
  intro _ _ _ _ h
  cases h
  have := vd.isLt
  have := a.isLt
  refine ⟨by decide, ?_, by simp, ?_⟩ <;> simp [rrr, rr] <;> omega
theorem Fits.vstExt (vd : Reg) (a : Reg) (off : BitVec 32) (stride : Option (BitVec 32)) : Fits.Statement (.vstExt vd a off stride) := by
  intro _ _ _ _ h
  cases stride <;> cases h <;>
    (have := vd.isLt; have := a.isLt; have := off.isLt
     refine ⟨by decide, ?_, by simp, ?_⟩ <;> simp [rrr, rr] <;> omega)
theorem Fits.vldx (vd : Reg) (a : Reg) (vb : Reg) (k : Fin 4) : Fits.Statement (.vldx vd a vb k) := by
  intro _ _ _ _ h
  cases h
  have := vd.isLt
  have := a.isLt
  have := vb.isLt
  have := k.isLt
  refine ⟨by decide, ?_, by simp, ?_⟩ <;> simp [rrr, rr] <;> omega
theorem Fits.vldxExt (vd : Reg) (a : Reg) (vb : Reg) (k : Fin 4) (off : BitVec 32) : Fits.Statement (.vldxExt vd a vb k off) := by
  intro _ _ _ _ h
  cases h
  have := vd.isLt
  have := a.isLt
  have := vb.isLt
  have := k.isLt
  have := off.isLt
  refine ⟨by decide, ?_, by simp, ?_⟩ <;> simp [rrr, rr] <;> omega
theorem Fits.vstx (vd : Reg) (a : Reg) (vb : Reg) (k : Fin 4) : Fits.Statement (.vstx vd a vb k) := by
  intro _ _ _ _ h
  cases h
  have := vd.isLt
  have := a.isLt
  have := vb.isLt
  have := k.isLt
  refine ⟨by decide, ?_, by simp, ?_⟩ <;> simp [rrr, rr] <;> omega
theorem Fits.vstxExt (vd : Reg) (a : Reg) (vb : Reg) (k : Fin 4) (off : BitVec 32) : Fits.Statement (.vstxExt vd a vb k off) := by
  intro _ _ _ _ h
  cases h
  have := vd.isLt
  have := a.isLt
  have := vb.isLt
  have := k.isLt
  have := off.isLt
  refine ⟨by decide, ?_, by simp, ?_⟩ <;> simp [rrr, rr] <;> omega
theorem Fits.lds (d : Reg) (a : Reg) (sz : MemSize) : Fits.Statement (.lds d a sz) := by
  intro _ _ _ _ h
  cases h
  have := d.isLt
  have := a.isLt
  have := MemSize.code_lt sz
  refine ⟨by decide, ?_, by simp, ?_⟩ <;> simp [rrr, rr] <;> omega
theorem Fits.ldsExt (d : Reg) (a : Reg) (sz : MemSize) (off : BitVec 32) : Fits.Statement (.ldsExt d a sz off) := by
  intro _ _ _ _ h
  cases h
  have := d.isLt
  have := a.isLt
  have := MemSize.code_lt sz
  have := off.isLt
  refine ⟨by decide, ?_, by simp, ?_⟩ <;> simp [rrr, rr] <;> omega
theorem Fits.vlds (vd : Reg) (a : Reg) : Fits.Statement (.vlds vd a) := by
  intro _ _ _ _ h
  cases h
  have := vd.isLt
  have := a.isLt
  refine ⟨by decide, ?_, by simp, ?_⟩ <;> simp [rrr, rr] <;> omega
theorem Fits.vldsExt (vd : Reg) (a : Reg) (off : BitVec 32) (stride : Option (BitVec 32)) : Fits.Statement (.vldsExt vd a off stride) := by
  intro _ _ _ _ h
  cases stride <;> cases h <;>
    (have := vd.isLt; have := a.isLt; have := off.isLt
     refine ⟨by decide, ?_, by simp, ?_⟩ <;> simp [rrr, rr] <;> omega)
theorem Fits.ldAcq (d : Reg) (a : Reg) (sz : MemSize) (scope : Scope) : Fits.Statement (.ldAcq d a sz scope) := by
  intro _ _ _ _ h
  cases h
  have := d.isLt
  have := a.isLt
  have := MemSize.code_lt sz
  have := Scope.code_lt scope
  refine ⟨by decide, ?_, by simp, ?_⟩ <;> simp [rrr, rr] <;> omega
theorem Fits.ldAcqExt (d : Reg) (a : Reg) (sz : MemSize) (scope : Scope) (off : BitVec 32) : Fits.Statement (.ldAcqExt d a sz scope off) := by
  intro _ _ _ _ h
  cases h
  have := d.isLt
  have := a.isLt
  have := MemSize.code_lt sz
  have := Scope.code_lt scope
  have := off.isLt
  refine ⟨by decide, ?_, by simp, ?_⟩ <;> simp [rrr, rr] <;> omega
theorem Fits.stRel (d : Reg) (a : Reg) (sz : MemSize) (scope : Scope) : Fits.Statement (.stRel d a sz scope) := by
  intro _ _ _ _ h
  cases h
  have := d.isLt
  have := a.isLt
  have := MemSize.code_lt sz
  have := Scope.code_lt scope
  refine ⟨by decide, ?_, by simp, ?_⟩ <;> simp [rrr, rr] <;> omega
theorem Fits.stRelExt (d : Reg) (a : Reg) (sz : MemSize) (scope : Scope) (off : BitVec 32) : Fits.Statement (.stRelExt d a sz scope off) := by
  intro _ _ _ _ h
  cases h
  have := d.isLt
  have := a.isLt
  have := MemSize.code_lt sz
  have := Scope.code_lt scope
  have := off.isLt
  refine ⟨by decide, ?_, by simp, ?_⟩ <;> simp [rrr, rr] <;> omega
theorem Fits.amo (d : Reg) (a : Reg) (b : Reg) (f : AmoOp) (dbl : Bool) : Fits.Statement (.amo d a b f dbl) := by
  intro _ _ _ _ h
  cases h
  have := d.isLt
  have := a.isLt
  have := b.isLt
  have := AmoOp.code_lt f
  have := flagCode_lt dbl
  refine ⟨by decide, ?_, by simp, ?_⟩ <;> simp [rrr, rr] <;> omega
theorem Fits.cas (d : Reg) (a : Reg) (b : Reg) (c : Reg) (dbl : Bool) : Fits.Statement (.cas d a b c dbl) := by
  intro _ _ _ _ h
  cases h
  have := d.isLt
  have := a.isLt
  have := b.isLt
  have := c.isLt
  have := flagCode_lt dbl
  refine ⟨by decide, ?_, by simp, ?_⟩ <;> simp [rrr, rr] <;> omega
theorem Fits.vamo (vd : Reg) (a : Reg) (vb : Reg) (f : AmoOp) : Fits.Statement (.vamo vd a vb f) := by
  intro _ _ _ _ h
  cases h
  have := vd.isLt
  have := a.isLt
  have := vb.isLt
  have := AmoOp.code_lt f
  refine ⟨by decide, ?_, by simp, ?_⟩ <;> simp [rrr, rr] <;> omega
theorem Fits.ldg (d : Reg) (x : Reg) (s : Reg) (h : Fin 8) (sx : Bool) : Fits.Statement (.ldg d x s h sx) := by
  intro _ _ _ _ h
  cases h
  have := d.isLt
  have := x.isLt
  have := s.isLt
  have := h.isLt
  have := flagCode_lt sx
  refine ⟨by decide, ?_, by simp, ?_⟩ <;> simp [rrr, rr] <;> omega
theorem Fits.vldg (vd : Reg) (x : Reg) (s : Reg) (h : Fin 8) : Fits.Statement (.vldg vd x s h) := by
  intro _ _ _ _ h
  cases h
  have := vd.isLt
  have := x.isLt
  have := s.isLt
  have := h.isLt
  refine ⟨by decide, ?_, by simp, ?_⟩ <;> simp [rrr, rr] <;> omega
theorem Fits.vldv (vd : Reg) (a : Reg) (v : Reg) : Fits.Statement (.vldv vd a v) := by
  intro _ _ _ _ h
  cases h
  have := vd.isLt
  have := a.isLt
  have := v.isLt
  refine ⟨by decide, ?_, by simp, ?_⟩ <;> simp [rrr, rr] <;> omega
theorem Fits.vldvExt (vd : Reg) (a : Reg) (v : Reg) (off : BitVec 32) : Fits.Statement (.vldvExt vd a v off) := by
  intro _ _ _ _ h
  cases h
  have := vd.isLt
  have := a.isLt
  have := v.isLt
  have := off.isLt
  refine ⟨by decide, ?_, by simp, ?_⟩ <;> simp [rrr, rr] <;> omega
theorem Fits.pref (a : Reg) (xlat : Bool) : Fits.Statement (.pref a xlat) := by
  intro _ _ _ _ h
  cases h
  have := a.isLt
  have := flagCode_lt xlat
  refine ⟨by decide, ?_, by simp, ?_⟩ <;> simp [rrr, rr] <;> omega
theorem Fits.prefExt (a : Reg) (xlat : Bool) (off : BitVec 32) : Fits.Statement (.prefExt a xlat off) := by
  intro _ _ _ _ h
  cases h
  have := a.isLt
  have := flagCode_lt xlat
  have := off.isLt
  refine ⟨by decide, ?_, by simp, ?_⟩ <;> simp [rrr, rr] <;> omega
theorem Fits.mcm (j : Fin 4) (m : BitVec 8) : Fits.Statement (.mcm j m) := by
  intro _ _ _ _ h
  cases h
  have := j.isLt
  have := m.isLt
  refine ⟨by decide, ?_, by simp, ?_⟩ <;> simp [rrr, rr] <;> omega
theorem Fits.mma (a : Reg) (b : Reg) (acc : Reg) (shape : Fin 4) (sp : Bool) (ta : Fin 16) (tb : Fin 16) (tacc : Fin 16) (tres : Fin 16) (planes : Fin 16) (res : Reg) (md : Reg) (tw : TokenWord) : Fits.Statement (.mma a b acc shape sp ta tb tacc tres planes res md tw) := by
  intro _ _ _ _ h
  cases h
  have := a.isLt
  have := b.isLt
  have := acc.isLt
  have := shape.isLt
  have := flagCode_lt sp
  have := ta.isLt
  have := tb.isLt
  have := tacc.isLt
  have := tres.isLt
  have := planes.isLt
  have := res.isLt
  have := md.isLt
  have := tokenWord_lt tw
  refine ⟨by decide, ?_, by simp, ?_⟩ <;> simp [rrr, rr] <;> omega
theorem Fits.mmz (d : Reg) (tw : TokenWord) : Fits.Statement (.mmz d tw) := by
  intro _ _ _ _ h
  cases h
  have := d.isLt
  have := tokenWord_lt tw
  refine ⟨by decide, ?_, by simp, ?_⟩ <;> simp [rrr, rr] <;> omega
theorem Fits.mps (delay : Fin 64) (sides : MpsSides) : Fits.Statement (.mps delay sides) := by
  intro _ _ _ _ h
  cases h
  have := delay.isLt
  have := MpsSides.code_lt sides
  refine ⟨by decide, ?_, by simp, ?_⟩ <;> simp [rrr, rr] <;> omega
theorem Fits.mscl (j : Fin 4) (a : Reg) (n : Fin 64) : Fits.Statement (.mscl j a n) := by
  intro _ _ _ _ h
  cases h
  have := j.isLt
  have := a.isLt
  have := n.isLt
  refine ⟨by decide, ?_, by simp, ?_⟩ <;> simp [rrr, rr] <;> omega
theorem Fits.mcvt (d : Reg) (a : Reg) (src : Fin 16) (dst : Fin 16) (tw : TokenWord) : Fits.Statement (.mcvt d a src dst tw) := by
  intro _ _ _ _ h
  cases h
  have := d.isLt
  have := a.isLt
  have := src.isLt
  have := dst.isLt
  have := tokenWord_lt tw
  refine ⟨by decide, ?_, by simp, ?_⟩ <;> simp [rrr, rr] <;> omega
theorem Fits.mtr (d : Reg) (a : Reg) (shape : Fin 4) (size : Fin 4) (tw : TokenWord) : Fits.Statement (.mtr d a shape size tw) := by
  intro _ _ _ _ h
  cases h
  have := d.isLt
  have := a.isLt
  have := shape.isLt
  have := size.isLt
  have := tokenWord_lt tw
  refine ⟨by decide, ?_, by simp, ?_⟩ <;> simp [rrr, rr] <;> omega
theorem Fits.macc (d : Reg) (a : Reg) (ty : Fin 16) (tw : TokenWord) : Fits.Statement (.macc d a ty tw) := by
  intro _ _ _ _ h
  cases h
  have := d.isLt
  have := a.isLt
  have := ty.isLt
  have := tokenWord_lt tw
  refine ⟨by decide, ?_, by simp, ?_⟩ <;> simp [rrr, rr] <;> omega
theorem Fits.cpy (d : Reg) (s : Reg) (c : Reg) (tw : TokenWord) : Fits.Statement (.cpy d s c tw) := by
  intro _ _ _ _ h
  cases h
  have := d.isLt
  have := s.isLt
  have := c.isLt
  have := tokenWord_lt tw
  refine ⟨by decide, ?_, by simp, ?_⟩ <;> simp [rrr, rr] <;> omega
theorem Fits.cpyB (d : Reg) (s : Reg) (c : Reg) (tw : TokenWord) : Fits.Statement (.cpyB d s c tw) := by
  intro _ _ _ _ h
  cases h
  have := d.isLt
  have := s.isLt
  have := c.isLt
  have := tokenWord_lt tw
  refine ⟨by decide, ?_, by simp, ?_⟩ <;> simp [rrr, rr] <;> omega
theorem Fits.cpym (d : Reg) (s : Reg) (c : Reg) (n : Fin 16) (m : Reg) (bar : Fin 32) (tw : TokenWord) : Fits.Statement (.cpym d s c n m bar tw) := by
  intro _ _ _ _ h
  cases h
  have := d.isLt
  have := s.isLt
  have := c.isLt
  have := n.isLt
  have := m.isLt
  have := bar.isLt
  have := tokenWord_lt tw
  refine ⟨by decide, ?_, by simp, ?_⟩ <;> simp [rrr, rr] <;> omega
theorem Fits.cpypl (d : Reg) (s : Reg) (c : Reg) (q : Fin 16) (d2 : Option Reg) (tw : TokenWord) : Fits.Statement (.cpypl d s c q d2 tw) := by
  intro _ _ _ _ h
  cases d2 <;> cases h <;>
    (have := d.isLt; have := s.isLt; have := c.isLt; have := q.isLt; have := tokenWord_lt tw
     refine ⟨by decide, ?_, by simp, ?_⟩ <;> simp [rrr, rr] <;> omega)
theorem Fits.cpysp (d : Reg) (s : Reg) (c : Reg) (tw : TokenWord) : Fits.Statement (.cpysp d s c tw) := by
  intro _ _ _ _ h
  cases h
  have := d.isLt
  have := s.isLt
  have := c.isLt
  have := tokenWord_lt tw
  refine ⟨by decide, ?_, by simp, ?_⟩ <;> simp [rrr, rr] <;> omega
theorem Fits.cpyfill (d : Reg) (p : Reg) (c : Reg) (sz : UnitSize) (tw : TokenWord) : Fits.Statement (.cpyfill d p c sz tw) := by
  intro _ _ _ _ h
  cases h
  have := d.isLt
  have := p.isLt
  have := c.isLt
  have := UnitSize.code_lt sz
  have := tokenWord_lt tw
  refine ⟨by decide, ?_, by simp, ?_⟩ <;> simp [rrr, rr] <;> omega
theorem Fits.gath (p : Reg) (r : Reg) (ix : Reg) (n : Reg) (i64 : Bool) (tw : TokenWord) : Fits.Statement (.gath p r ix n i64 tw) := by
  intro _ _ _ _ h
  cases h
  have := p.isLt
  have := r.isLt
  have := ix.isLt
  have := n.isLt
  have := flagCode_lt i64
  have := tokenWord_lt tw
  refine ⟨by decide, ?_, by simp, ?_⟩ <;> simp [rrr, rr] <;> omega
theorem Fits.scat (p : Reg) (r : Reg) (ix : Reg) (n : Reg) (i64 : Bool) (tw : TokenWord) : Fits.Statement (.scat p r ix n i64 tw) := by
  intro _ _ _ _ h
  cases h
  have := p.isLt
  have := r.isLt
  have := ix.isLt
  have := n.isLt
  have := flagCode_lt i64
  have := tokenWord_lt tw
  refine ⟨by decide, ?_, by simp, ?_⟩ <;> simp [rrr, rr] <;> omega
theorem Fits.bankop (d : Reg) (a : Reg) (n : Reg) (op : BankOp) (tw : TokenWord) : Fits.Statement (.bankop d a n op tw) := by
  intro _ _ _ _ h
  cases h
  have := d.isLt
  have := a.isLt
  have := n.isLt
  have := BankOp.code_lt op
  have := tokenWord_lt tw
  refine ⟨by decide, ?_, by simp, ?_⟩ <;> simp [rrr, rr] <;> omega
theorem Fits.lfence (a : Reg) (n : Reg) (tw : TokenWord) : Fits.Statement (.lfence a n tw) := by
  intro _ _ _ _ h
  cases h
  have := a.isLt
  have := n.isLt
  have := tokenWord_lt tw
  refine ⟨by decide, ?_, by simp, ?_⟩ <;> simp [rrr, rr] <;> omega
theorem Fits.fence (scope : Scope) (tw : TokenWord) : Fits.Statement (.fence scope tw) := by
  intro _ _ _ _ h
  cases h
  have := Scope.code_lt scope
  have := tokenWord_lt tw
  refine ⟨by decide, ?_, by simp, ?_⟩ <;> simp [rrr, rr] <;> omega
theorem Fits.nflush (a : Reg) (tw : TokenWord) : Fits.Statement (.nflush a tw) := by
  intro _ _ _ _ h
  cases h
  have := a.isLt
  have := tokenWord_lt tw
  refine ⟨by decide, ?_, by simp, ?_⟩ <;> simp [rrr, rr] <;> omega
theorem Fits.rfence (a : Reg) (all : Bool) (tw : TokenWord) : Fits.Statement (.rfence a all tw) := by
  intro _ _ _ _ h
  cases h
  have := a.isLt
  have := flagCode_lt all
  have := tokenWord_lt tw
  refine ⟨by decide, ?_, by simp, ?_⟩ <;> simp [rrr, rr] <;> omega
theorem Fits.slotrel (n : Reg) (ctr : Fin 16) (tw : TokenWord) : Fits.Statement (.slotrel n ctr tw) := by
  intro _ _ _ _ h
  cases h
  have := n.isLt
  have := ctr.isLt
  have := tokenWord_lt tw
  refine ⟨by decide, ?_, by simp, ?_⟩ <;> simp [rrr, rr] <;> omega
theorem Fits.bar (v : BarVariant) (r : Bool) (c : Reg) (n : Reg) (b : Fin 16) (tw : TokenWord) : Fits.Statement (.bar v r c n b tw) := by
  intro _ _ _ _ h
  cases h
  have := BarVariant.code_lt v
  have := flagCode_lt r
  have := c.isLt
  have := n.isLt
  have := b.isLt
  have := tokenWord_lt tw
  refine ⟨by decide, ?_, by simp, ?_⟩ <;> simp [rrr, rr] <;> omega
theorem Fits.barw (p : Reg) (b : Fin 16) : Fits.Statement (.barw p b) := by
  intro _ _ _ _ h
  cases h
  have := p.isLt
  have := b.isLt
  refine ⟨by decide, ?_, by simp, ?_⟩ <;> simp [rrr, rr] <;> omega
theorem Fits.vpub (a : Reg) (v : Reg) (tw : TokenWord) : Fits.Statement (.vpub a v tw) := by
  intro _ _ _ _ h
  cases h
  have := a.isLt
  have := v.isLt
  have := tokenWord_lt tw
  refine ⟨by decide, ?_, by simp, ?_⟩ <;> simp [rrr, rr] <;> omega
theorem Fits.vwait (a : Reg) (v : Reg) : Fits.Statement (.vwait a v) := by
  intro _ _ _ _ h
  cases h
  have := a.isLt
  have := v.isLt
  refine ⟨by decide, ?_, by simp, ?_⟩ <;> simp [rrr, rr] <;> omega
theorem Fits.gstep (h : Fin 8) (n : Reg) (tw : TokenWord) : Fits.Statement (.gstep h n tw) := by
  intro _ _ _ _ h
  cases h
  have := h.isLt
  have := n.isLt
  have := tokenWord_lt tw
  refine ⟨by decide, ?_, by simp, ?_⟩ <;> simp [rrr, rr] <;> omega
theorem Fits.grel (h : Fin 8) (s : Reg) (tw : TokenWord) : Fits.Statement (.grel h s tw) := by
  intro _ _ _ _ h
  cases h
  have := h.isLt
  have := s.isLt
  have := tokenWord_lt tw
  refine ⟨by decide, ?_, by simp, ?_⟩ <;> simp [rrr, rr] <;> omega
theorem Fits.gbind (h : Fin 8) (a : Reg) (p : Reg) (rd : Bool) (tw : TokenWord) : Fits.Statement (.gbind h a p rd tw) := by
  intro _ _ _ _ h
  cases h
  have := h.isLt
  have := a.isLt
  have := p.isLt
  have := flagCode_lt rd
  have := tokenWord_lt tw
  refine ⟨by decide, ?_, by simp, ?_⟩ <;> simp [rrr, rr] <;> omega
theorem Fits.send (e : Reg) (s : Reg) (c : Reg) (b : Bool) (tw : TokenWord) : Fits.Statement (.send e s c b tw) := by
  intro _ _ _ _ h
  cases h
  have := e.isLt
  have := s.isLt
  have := c.isLt
  have := flagCode_lt b
  have := tokenWord_lt tw
  refine ⟨by decide, ?_, by simp, ?_⟩ <;> simp [rrr, rr] <;> omega
theorem Fits.rpost (m : Reg) (k : Reg) (r : Reg) (c : Reg) (v : Reg) (tw : TokenWord) : Fits.Statement (.rpost m k r c v tw) := by
  intro _ _ _ _ h
  cases h
  have := m.isLt
  have := k.isLt
  have := r.isLt
  have := c.isLt
  have := v.isLt
  have := tokenWord_lt tw
  refine ⟨by decide, ?_, by simp, ?_⟩ <;> simp [rrr, rr] <;> omega
theorem Fits.rcancel (d : Reg) (n : Tok) (tw : TokenWord) : Fits.Statement (.rcancel d n tw) := by
  intro _ _ _ _ h
  cases h
  have := d.isLt
  have := n.isLt
  have := tokenWord_lt tw
  refine ⟨by decide, ?_, by simp, ?_⟩ <;> simp [rrr, rr] <;> omega
theorem Fits.rprobe (d : Reg) (m : Reg) (k : Reg) (tw : TokenWord) : Fits.Statement (.rprobe d m k tw) := by
  intro _ _ _ _ h
  cases h
  have := d.isLt
  have := m.isLt
  have := k.isLt
  have := tokenWord_lt tw
  refine ⟨by decide, ?_, by simp, ?_⟩ <;> simp [rrr, rr] <;> omega
theorem Fits.ringpop (d : Reg) (n : Fin 8) (w : Bool) (tw : TokenWord) : Fits.Statement (.ringpop d n w tw) := by
  intro _ _ _ _ h
  cases h
  have := d.isLt
  have := n.isLt
  have := flagCode_lt w
  have := tokenWord_lt tw
  refine ⟨by decide, ?_, by simp, ?_⟩ <;> simp [rrr, rr] <;> omega
theorem Fits.launch (d : Reg) (a : Reg) (w : Bool) (tw : TokenWord) : Fits.Statement (.launch d a w tw) := by
  intro _ _ _ _ h
  cases h
  have := d.isLt
  have := a.isLt
  have := flagCode_lt w
  have := tokenWord_lt tw
  refine ⟨by decide, ?_, by simp, ?_⟩ <;> simp [rrr, rr] <;> omega
theorem Fits.chunk (d : Reg) (tw : TokenWord) : Fits.Statement (.chunk d tw) := by
  intro _ _ _ _ h
  cases h
  have := d.isLt
  have := tokenWord_lt tw
  refine ⟨by decide, ?_, by simp, ?_⟩ <;> simp [rrr, rr] <;> omega
theorem Fits.twait (d : Reg) (t : Tok) : Fits.Statement (.twait d t) := by
  intro _ _ _ _ h
  cases h
  have := d.isLt
  have := t.isLt
  refine ⟨by decide, ?_, by simp, ?_⟩ <;> simp [rrr, rr] <;> omega
theorem Fits.sqadm (m : Fin 8) (d : Reg) (a : Reg) (tw : TokenWord) : Fits.Statement (.sqadm m d a tw) := by
  intro _ _ _ _ h
  cases h
  have := m.isLt
  have := d.isLt
  have := a.isLt
  have := tokenWord_lt tw
  refine ⟨by decide, ?_, by simp, ?_⟩ <;> simp [rrr, rr] <;> omega
theorem Fits.sqtree (m : Fin 8) (d : Reg) (a : Reg) (b : Reg) (tw : TokenWord) : Fits.Statement (.sqtree m d a b tw) := by
  intro _ _ _ _ h
  cases h
  have := m.isLt
  have := d.isLt
  have := a.isLt
  have := b.isLt
  have := tokenWord_lt tw
  refine ⟨by decide, ?_, by simp, ?_⟩ <;> simp [rrr, rr] <;> omega
theorem Fits.sqvrd (m : Fin 8) (a : Reg) (b : Reg) (tw : TokenWord) : Fits.Statement (.sqvrd m a b tw) := by
  intro _ _ _ _ h
  cases h
  have := m.isLt
  have := a.isLt
  have := b.isLt
  have := tokenWord_lt tw
  refine ⟨by decide, ?_, by simp, ?_⟩ <;> simp [rrr, rr] <;> omega
theorem Fits.sqacc (m : Fin 8) (d : Reg) (a : Reg) (tw : TokenWord) : Fits.Statement (.sqacc m d a tw) := by
  intro _ _ _ _ h
  cases h
  have := m.isLt
  have := d.isLt
  have := a.isLt
  have := tokenWord_lt tw
  refine ⟨by decide, ?_, by simp, ?_⟩ <;> simp [rrr, rr] <;> omega
theorem Fits.sqret (m : Fin 8) (d : Reg) (a : Reg) (tw : TokenWord) : Fits.Statement (.sqret m d a tw) := by
  intro _ _ _ _ h
  cases h
  have := m.isLt
  have := d.isLt
  have := a.isLt
  have := tokenWord_lt tw
  refine ⟨by decide, ?_, by simp, ?_⟩ <;> simp [rrr, rr] <;> omega
theorem Fits.sqpre (m : Fin 8) (d : Reg) (a : Reg) (rel : Bool) (tw : TokenWord) : Fits.Statement (.sqpre m d a rel tw) := by
  intro _ _ _ _ h
  cases h
  have := m.isLt
  have := d.isLt
  have := a.isLt
  have := flagCode_lt rel
  have := tokenWord_lt tw
  refine ⟨by decide, ?_, by simp, ?_⟩ <;> simp [rrr, rr] <;> omega
theorem Fits.sqres (m : Fin 8) (d : Reg) (a : Reg) (tw : TokenWord) : Fits.Statement (.sqres m d a tw) := by
  intro _ _ _ _ h
  cases h
  have := m.isLt
  have := d.isLt
  have := a.isLt
  have := tokenWord_lt tw
  refine ⟨by decide, ?_, by simp, ?_⟩ <;> simp [rrr, rr] <;> omega
theorem Fits.sqbat (m : Fin 8) (d : Reg) (a : Reg) (b : Reg) (tw : TokenWord) : Fits.Statement (.sqbat m d a b tw) := by
  intro _ _ _ _ h
  cases h
  have := m.isLt
  have := d.isLt
  have := a.isLt
  have := b.isLt
  have := tokenWord_lt tw
  refine ⟨by decide, ?_, by simp, ?_⟩ <;> simp [rrr, rr] <;> omega
theorem Fits.sqkvAddr (m : Fin 8) (d : Reg) (a : Reg) (b : Reg) (tw : TokenWord) : Fits.Statement (.sqkvAddr m d a b tw) := by
  intro _ _ _ _ h
  cases h
  have := m.isLt
  have := d.isLt
  have := a.isLt
  have := b.isLt
  have := tokenWord_lt tw
  refine ⟨by decide, ?_, by simp, ?_⟩ <;> simp [rrr, rr] <;> omega
theorem Fits.sqkvAdv (m : Fin 8) (d : Reg) (a : Reg) (b : Reg) (tw : TokenWord) : Fits.Statement (.sqkvAdv m d a b tw) := by
  intro _ _ _ _ h
  cases h
  have := m.isLt
  have := d.isLt
  have := a.isLt
  have := b.isLt
  have := tokenWord_lt tw
  refine ⟨by decide, ?_, by simp, ?_⟩ <;> simp [rrr, rr] <;> omega
theorem Fits.sealCap (a : Reg) (b : Reg) (tw : TokenWord) : Fits.Statement (.sealCap a b tw) := by
  intro _ _ _ _ h
  cases h
  have := a.isLt
  have := b.isLt
  have := tokenWord_lt tw
  refine ⟨by decide, ?_, by simp, ?_⟩ <;> simp [rrr, rr] <;> omega
theorem Fits.wake (a : Reg) (b : Reg) (tw : TokenWord) : Fits.Statement (.wake a b tw) := by
  intro _ _ _ _ h
  cases h
  have := a.isLt
  have := b.isLt
  have := tokenWord_lt tw
  refine ⟨by decide, ?_, by simp, ?_⟩ <;> simp [rrr, rr] <;> omega
theorem Fits.slotld (a : Reg) (b : Reg) (tw : TokenWord) : Fits.Statement (.slotld a b tw) := by
  intro _ _ _ _ h
  cases h
  have := a.isLt
  have := b.isLt
  have := tokenWord_lt tw
  refine ⟨by decide, ?_, by simp, ?_⟩ <;> simp [rrr, rr] <;> omega
theorem Fits.grpset (a : Reg) (b : Reg) (tw : TokenWord) : Fits.Statement (.grpset a b tw) := by
  intro _ _ _ _ h
  cases h
  have := a.isLt
  have := b.isLt
  have := tokenWord_lt tw
  refine ⟨by decide, ?_, by simp, ?_⟩ <;> simp [rrr, rr] <;> omega
theorem Fits.tlbinv (a : Reg) (b : Reg) (c : Reg) (tw : TokenWord) : Fits.Statement (.tlbinv a b c tw) := by
  intro _ _ _ _ h
  cases h
  have := a.isLt
  have := b.isLt
  have := c.isLt
  have := tokenWord_lt tw
  refine ⟨by decide, ?_, by simp, ?_⟩ <;> simp [rrr, rr] <;> omega
theorem Fits.loopIterationClose (core : Nat) : Fits.Statement (.loopIterationClose core) := by
  intro _ _ _ _ h
  cases h
theorem Fits.globalLoadReturn (core id : Nat) (ans : LoadAnswer) : Fits.Statement (.globalLoadReturn core id ans) := by
  intro _ _ _ _ h
  cases h
theorem Fits.storeAcknowledgement (core : Nat) (ack : StoreAck) : Fits.Statement (.storeAcknowledgement core ack) := by
  intro _ _ _ _ h
  cases h
theorem Fits.clusterRemoteAccess (src : Nat) (dst : Nat) : Fits.Statement (.clusterRemoteAccess src dst) := by
  intro _ _ _ _ h
  cases h
theorem Fits.fabricAccessArrival (src : Requester) (acc : RemoteAccess) : Fits.Statement (.fabricAccessArrival src acc) := by
  intro _ _ _ _ h
  cases h
theorem Fits.groupPacketReceive (port : Nat) (group : Nat) (origin : Nat) (addr : Nat) (data : List Byte) : Fits.Statement (.groupPacketReceive port group origin addr data) := by
  intro _ _ _ _ h
  cases h
theorem Fits.engineOperationStart (core : Nat) (queue : Nat) (idx : Nat) : Fits.Statement (.engineOperationStart core queue idx) := by
  intro _ _ _ _ h
  cases h
theorem Fits.engineOperationComplete (core : Nat) (idx : Nat) : Fits.Statement (.engineOperationComplete core idx) := by
  intro _ _ _ _ h
  cases h
theorem Fits.completionRecordWrite (core : Nat) (idx : Nat) : Fits.Statement (.completionRecordWrite core idx) := by
  intro _ _ _ _ h
  cases h
theorem Fits.matrixOperationStart (core : Nat) : Fits.Statement (.matrixOperationStart core) := by
  intro _ _ _ _ h
  cases h
theorem Fits.accumulatorUpdate (core : Nat) : Fits.Statement (.accumulatorUpdate core) := by
  intro _ _ _ _ h
  cases h
theorem Fits.mpsLeaveHead (core : Nat) : Fits.Statement (.mpsLeaveHead core) := by
  intro _ _ _ _ h
  cases h
theorem Fits.operandChunkArrival (core : Nat) (operand : Nat) (chunk : Nat) (data : List Byte) : Fits.Statement (.operandChunkArrival core operand chunk data) := by
  intro _ _ _ _ h
  cases h
theorem Fits.fetchFault (core : Nat) (operand : Nat) (chunk : Nat) (cause : Nat) : Fits.Statement (.fetchFault core operand chunk cause) := by
  intro _ _ _ _ h
  cases h
theorem Fits.copyChunk (core : Nat) (idx : Nat) (chunk : Nat) (data : List Byte) : Fits.Statement (.copyChunk core idx chunk data) := by
  intro _ _ _ _ h
  cases h
theorem Fits.lmodeWrite (col : Nat) (mode : Bool) : Fits.Statement (.lmodeWrite col mode) := by
  intro _ _ _ _ h
  cases h
theorem Fits.layerModeSwitchDone (col : Nat) : Fits.Statement (.layerModeSwitchDone col) := by
  intro _ _ _ _ h
  cases h
theorem Fits.messageArrival (col : Nat) (msg : Message) : Fits.Statement (.messageArrival col msg) := by
  intro _ _ _ _ h
  cases h
theorem Fits.messagePresented (col : Nat) (src : Nat) (dst : Nat) : Fits.Statement (.messagePresented col src dst) := by
  intro _ _ _ _ h
  cases h
theorem Fits.rendezvousDataArrival (col : Nat) (idx : Nat) (data : List Byte) (fault : Bool) : Fits.Statement (.rendezvousDataArrival col idx data fault) := by
  intro _ _ _ _ h
  cases h
theorem Fits.landingComplete (col : Nat) (idx : Nat) : Fits.Statement (.landingComplete col idx) := by
  intro _ _ _ _ h
  cases h
theorem Fits.sendAcknowledged (core idx cause bytes : Nat) : Fits.Statement (.sendAcknowledged core idx cause bytes) := by
  intro _ _ _ _ h
  cases h
theorem Fits.stripArrival (desc : Nat) (polder : Nat) (region : Nat) (slot : Nat) : Fits.Statement (.stripArrival desc polder region slot) := by
  intro _ _ _ _ h
  cases h
theorem Fits.stepStale (core : Nat) : Fits.Statement (.stepStale core) := by
  intro _ _ _ _ h
  cases h
theorem Fits.flagSetArrival (src : Nat) (dst : Nat) : Fits.Statement (.flagSetArrival src dst) := by
  intro _ _ _ _ h
  cases h
theorem Fits.barrierUpdate (src : Nat) (dst : Nat) : Fits.Statement (.barrierUpdate src dst) := by
  intro _ _ _ _ h
  cases h
theorem Fits.sqaccCommitEnd (m : Nat) : Fits.Statement (.sqaccCommitEnd m) := by
  intro _ _ _ _ h
  cases h
theorem Fits.watchdog (core : Nat) : Fits.Statement (.watchdog core) := by
  intro _ _ _ _ h
  cases h
theorem Fits.stuckCore (core : Nat) : Fits.Statement (.stuckCore core) := by
  intro _ _ _ _ h
  cases h
theorem Fits.headWaitTimeout (slot : Nat) : Fits.Statement (.headWaitTimeout slot) := by
  intro _ _ _ _ h
  cases h
theorem Fits.wakeWrite (page : Nat) (offset : Nat) (value : W64) : Fits.Statement (.wakeWrite page offset value) := by
  intro _ _ _ _ h
  cases h
theorem Fits.launchRelease (lid : Nat) : Fits.Statement (.launchRelease lid) := by
  intro _ _ _ _ h
  cases h
theorem Fits.launchComplete (lid : Nat) : Fits.Statement (.launchComplete lid) := by
  intro _ _ _ _ h
  cases h
theorem Fits.preemptionRequest (lid : Nat) : Fits.Statement (.preemptionRequest lid) := by
  intro _ _ _ _ h
  cases h
theorem Fits.coreHalt (core : Nat) : Fits.Statement (.coreHalt core) := by
  intro _ _ _ _ h
  cases h
theorem Fits.saveComplete (core : Nat) : Fits.Statement (.saveComplete core) := by
  intro _ _ _ _ h
  cases h
theorem Fits.gangResume (lid : Nat) : Fits.Statement (.gangResume lid) := by
  intro _ _ _ _ h
  cases h
theorem Fits.tdispResume (core : Nat) : Fits.Statement (.tdispResume core) := by
  intro _ _ _ _ h
  cases h
theorem Fits.tdispHandler (core : Nat) : Fits.Statement (.tdispHandler core) := by
  intro _ _ _ _ h
  cases h
theorem Fits.tdispEnd (core : Nat) : Fits.Statement (.tdispEnd core) := by
  intro _ _ _ _ h
  cases h
theorem Fits.eventTaken (col : Nat) : Fits.Statement (.eventTaken col) := by
  intro _ _ _ _ h
  cases h
theorem Fits.uncorrectableError (core : Nat) (inCore : Bool) (id : Option Nat) (addr : Nat) : Fits.Statement (.uncorrectableError core inCore id addr) := by
  intro _ _ _ _ h
  cases h
theorem Fits.correctableError (u : UnitId) : Fits.Statement (.correctableError u) := by
  intro _ _ _ _ h
  cases h
theorem Fits.retirement (u : UnitId) : Fits.Statement (.retirement u) := by
  intro _ _ _ _ h
  cases h
theorem Fits.thermalMigration (ctx : Nat) (col : Nat) (moves : List (Nat × Nat × Nat)) : Fits.Statement (.thermalMigration ctx col moves) := by
  intro _ _ _ _ h
  cases h
theorem Fits.migrationMove (col : Nat) : Fits.Statement (.migrationMove col) := by
  intro _ _ _ _ h
  cases h
theorem Fits.zoneTemperature (col : Nat) (zone : Nat) (celsius : Nat) : Fits.Statement (.zoneTemperature col zone celsius) := by
  intro _ _ _ _ h
  cases h
theorem Fits.endpointBind (ep : Nat) (valid : Bool) (ctx : Nat) (col : Nat) : Fits.Statement (.endpointBind ep valid ctx col) := by
  intro _ _ _ _ h
  cases h
theorem Fits.managerConfigure (m : Nat) (cfg : ManagerConfig) : Fits.Statement (.managerConfigure m cfg) := by
  intro _ _ _ _ h
  cases h
theorem Fits.queueReset (entry : Nat) : Fits.Statement (.queueReset entry) := by
  intro _ _ _ _ h
  cases h
theorem Fits.queueLoad (entry : Nat) (slot : Nat) : Fits.Statement (.queueLoad entry slot) := by
  intro _ _ _ _ h
  cases h
theorem Fits.queueUnload (slot : Nat) : Fits.Statement (.queueUnload slot) := by
  intro _ _ _ _ h
  cases h
theorem Fits.controlSpaceWrite (w : ControlWrite) : Fits.Statement (.controlSpaceWrite w) := by
  intro _ _ _ _ h
  cases h
theorem Fits.hostBar2Write (offset : Nat) (data : List Byte) : Fits.Statement (.hostBar2Write offset data) := by
  intro _ _ _ _ h
  cases h
theorem Fits.hostBar2Read (offset : Nat) (len : Nat) : Fits.Statement (.hostBar2Read offset len) := by
  intro _ _ _ _ h
  cases h
theorem Fits.sidebandScrub (req : List Byte) : Fits.Statement (.sidebandScrub req) := by
  intro _ _ _ _ h
  cases h
theorem Fits.negotiateAlgorithms (p256 : Bool) (sha256 : Bool) : Fits.Statement (.negotiateAlgorithms p256 sha256) := by
  intro _ _ _ _ h
  cases h
theorem Fits.getCertificate (slot : Nat) : Fits.Statement (.getCertificate slot) := by
  intro _ _ _ _ h
  cases h
theorem Fits.challenge (nonce : List Byte) : Fits.Statement (.challenge nonce) := by
  intro _ _ _ _ h
  cases h
theorem Fits.getMeasurements (block : Nat) : Fits.Statement (.getMeasurements block) := by
  intro _ _ _ _ h
  cases h
theorem Fits.bundleFetch (core : Nat) : Fits.Statement (.bundleFetch core) := by
  intro _ _ _ _ h
  cases h
theorem Fits.nop  : Fits.Statement (.nop) := by
  intro _ _ _ _ h
  cases h
  refine ⟨by decide, by decide, by simp, by simp⟩
theorem Fits.eret  : Fits.Statement (.eret) := by
  intro _ _ _ _ h
  cases h
  refine ⟨by decide, by decide, by simp, by simp⟩
theorem Fits.halt  : Fits.Statement (.halt) := by
  intro _ _ _ _ h
  cases h
  refine ⟨by decide, by decide, by simp, by simp⟩
theorem Fits.yield  : Fits.Statement (.yield) := by
  intro _ _ _ _ h
  cases h
  refine ⟨by decide, by decide, by simp, by simp⟩
theorem Fits.tend  : Fits.Statement (.tend) := by
  intro _ _ _ _ h
  cases h
  refine ⟨by decide, by decide, by simp, by simp⟩
theorem Fits.minv  : Fits.Statement (.minv) := by
  intro _ _ _ _ h
  cases h
  refine ⟨by decide, by decide, by simp, by simp⟩
theorem Fits.mpop  : Fits.Statement (.mpop) := by
  intro _ _ _ _ h
  cases h
  refine ⟨by decide, by decide, by simp, by simp⟩
theorem Fits.ltimeAdvance  : Fits.Statement (.ltimeAdvance) := by
  intro _ _ _ _ h
  cases h
theorem Fits.poolGrowth  : Fits.Statement (.poolGrowth) := by
  intro _ _ _ _ h
  cases h
theorem Fits.quantExpiry  : Fits.Statement (.quantExpiry) := by
  intro _ _ _ _ h
  cases h
theorem Fits.wakeProcess  : Fits.Statement (.wakeProcess) := by
  intro _ _ _ _ h
  cases h
theorem Fits.nopCommand  : Fits.Statement (.nopCommand) := by
  intro _ _ _ _ h
  cases h
theorem Fits.launchCommand  : Fits.Statement (.launchCommand) := by
  intro _ _ _ _ h
  cases h
theorem Fits.signal  : Fits.Statement (.signal) := by
  intro _ _ _ _ h
  cases h
theorem Fits.slotTableInstall  : Fits.Statement (.slotTableInstall) := by
  intro _ _ _ _ h
  cases h
theorem Fits.powerOn  : Fits.Statement (.powerOn) := by
  intro _ _ _ _ h
  cases h
theorem Fits.sidebandReset  : Fits.Statement (.sidebandReset) := by
  intro _ _ _ _ h
  cases h
theorem Fits.powerLoss  : Fits.Statement (.powerLoss) := by
  intro _ _ _ _ h
  cases h
theorem Fits.forceRecovery  : Fits.Statement (.forceRecovery) := by
  intro _ _ _ _ h
  cases h
theorem Fits.commitA  : Fits.Statement (.commitA) := by
  intro _ _ _ _ h
  cases h
theorem Fits.commitB  : Fits.Statement (.commitB) := by
  intro _ _ _ _ h
  cases h
theorem Fits.writeLease  : Fits.Statement (.writeLease) := by
  intro _ _ _ _ h
  cases h
theorem Fits.scrub  : Fits.Statement (.scrub) := by
  intro _ _ _ _ h
  cases h
theorem Fits.readLog  : Fits.Statement (.readLog) := by
  intro _ _ _ _ h
  cases h
theorem Fits.reboot  : Fits.Statement (.reboot) := by
  intro _ _ _ _ h
  cases h
theorem Fits.scrubDoorbell  : Fits.Statement (.scrubDoorbell) := by
  intro _ _ _ _ h
  cases h
theorem Fits.scrubComplete  : Fits.Statement (.scrubComplete) := by
  intro _ _ _ _ h
  cases h
theorem Fits.getVersion  : Fits.Statement (.getVersion) := by
  intro _ _ _ _ h
  cases h
theorem Fits.getCapabilities  : Fits.Statement (.getCapabilities) := by
  intro _ _ _ _ h
  cases h
theorem Fits.getDigests  : Fits.Statement (.getDigests) := by
  intro _ _ _ _ h
  cases h
theorem Fits.errorLogRead  : Fits.Statement (.errorLogRead) := by
  intro _ _ _ _ h
  cases h
theorem Fits.commandOfAnotherKind  : Fits.Statement (.commandOfAnotherKind) := by
  intro _ _ _ _ h
  cases h

end Sys2Proof.Laws
end

