-- ==== Sys2Proof/Tests/Slice0.lean ====
section
/-!
SUPPORT. Tests: words of the spec decode to their operations, ill-formed words are refused, and every statement's hypotheses are
met by a concrete state.
-/
namespace Sys2Proof.Tests

open Sys2Proof Sys2Proof.Machine Sys2Proof.Claims


/-! ### Decoding: one word per slot operation, written out from the encoding tables (R38 to R43, R102 to R319) -/

/-- The token word of R42's worked example: produces t4, consumes t1 and t2, asks for a record on ring 3. -/
def exTok : TokenWord := { prod := 4, c1 := 1, c2 := 2, c3 := 0, cr := true, ring := 3 }

/-- Words of one map and the operations they stand for. -/
def Decodes (m : OpMap) (rows : List (Nat × Nat × Nat × Instr)) : Prop :=
  ∀ r ∈ rows, decodeOp m r.1 r.2.1 r.2.2.1 = .ok r.2.2.2

theorem test_decode_s0 : Decodes .s [
  (0, 0, 0, .nop),
  (0x00430420, 0, 0, .add 3 1 2),
  (0x00BF0420, 0, 0, .sub 63 1 2),
  (0x00C413FF, 0, 0, .addi 4 4 (-1)),
  (0x01051870, 0, 0, .mul 5 6 7),
  (0x01451872, 0, 0, .mulh 5 6 7 .su),
  (0x018824A1, 0, 0, .div 8 9 10 true),
  (0x01C824A0, 0, 0, .rem 8 9 10 false),
  (0x02010830, 0, 0, .and 1 2 3),
  (0x02410830, 0, 0, .or 1 2 3),
  (0x02810830, 0, 0, .xor 1 2 3),
  (0x02C108F0, 0, 0, .andi 1 2 0x0F0),
  (0x03010805, 0, 0, .ori 1 2 5),
  (0x03410BFE, 0, 0, .xori 1 2 (-2)),
  (0x03810830, 0, 0, .sll 1 2 3),
  (0x03C10830, 0, 0, .srl 1 2 3)] := by
  unfold Decodes; decide

theorem test_decode_s1 : Decodes .s [
  (0x04010830, 0, 0, .sra 1 2 3),
  (0x04410A28, 0, 0, .shi 1 2 .arith 40),
  (0x04810831, 0, 0, .min 1 2 3 true),
  (0x04C10830, 0, 0, .max 1 2 3 false),
  (0x05010800, 0, 0, .clz 1 2),
  (0x05410800, 0, 0, .popc 1 2),
  (0x05810835, 0, 0, .cmp 1 2 3 .geu),
  (0x05C108FE, 0, 0, .cmpi 1 2 .ge (-2)),
  (0x45C10880, 0xFFFFFFF9, 0, .cmpiExt 1 2 .lt (-7)),
  (0x46010830, 0x00000028, 0, .sel 1 2 3 40),
  (0x064103FB, 0, 0, .li 1 (-5)),
  (0x86490000, 0x9ABCDEF0, 0x12345678, .liExt 9 0x123456789ABCDEF0),
  (0x46810800, 0x000013C8, 0, .bfx 1 2 8 15 true),
  (0x46C10800, 0x000003C8, 0, .bfi 1 2 8 15),
  (0x07010809, 0, 0, .stag 1 2 9),
  (0x48000831, 0xFFFFFFFC, 0, .br 2 3 .ne (-4))] := by
  unfold Decodes; decide

theorem test_decode_s2 : Decodes .s [
  (0x487F0804, 0x00000006, 0, .bri 2 (-1) .ltu 6),
  (0x48800000, 0x0000000C, 0, .j 12),
  (0x48DF0000, 0xFFFFFFFF, 0, .jal 31 (-1)),
  (0x09007C00, 0, 0, .jr 31),
  (0x49470006, 0x00000003, 0, .btok 7 6 3),
  (0x49A04000, 0x00000003, 0, .bempty 0x81 3),
  (0x49C02000, 0x00000003, 0, .chk 8 3),
  (0x0A082080, 0, 0, .loop 1 1 1),
  (0x4A481000, 0x00000005, 0, .lstr 1 0 2 5),
  (0x0AB0A000, 0, 0, .lbrk 6 5 false),
  (0x0AB01000, 0, 0, .lbrk 6 0 true),
  (0x0AD000C8, 0, 0, .wait true false 200),
  (0x0B020010, 0, 0, .csrr 2 0x010),
  (0x0B420C04, 0, 0, .csrw 2 3 0x004),
  (0x0B820C28, 0, 0, .csrs 2 3 0x028),
  (0x0BC20C10, 0, 0, .csrc 2 3 0x010)] := by
  unfold Decodes; decide

theorem test_decode_s3 : Decodes .s [
  (0x0C0003FF, 0, 0, .trap 1023),
  (0x0C400000, 0, 0, .eret),
  (0x0C800000, 0, 0, .halt),
  (0x0CE38003, 0, 0, .fset true 7 3),
  (0x0D00003F, 0, 0, .fwait true 31),
  (0x0D400004, 0, 0, .fclr 4),
  (0x0D800000, 0, 0, .yield),
  (0x0DC00000, 0, 0, .tend)] := by
  unfold Decodes; decide

theorem test_decode_v0 : Decodes .v [
  (0x00010831, 0, 0, .vadd 1 2 3 .ss),
  (0x00410832, 0, 0, .vsub 1 2 3 .us),
  (0x00810830, 0, 0, .vmul 1 2 3 .wrap),
  (0x00C10831, 0, 0, .vmulh 1 2 3 .uu),
  (0x01010831, 0, 0, .vmin 1 2 3 true),
  (0x01410830, 0, 0, .vmax 1 2 3 false),
  (0x01810801, 0, 0, .vabs 1 2 true),
  (0x01C10830, 0, 0, .vand 1 2 3),
  (0x02010830, 0, 0, .vor 1 2 3),
  (0x02410830, 0, 0, .vxor 1 2 3),
  (0x02810800, 0, 0, .vnot 1 2),
  (0x02C10830, 0, 0, .vshl 1 2 3),
  (0x03010830, 0, 0, .vshr 1 2 3),
  (0x03410830, 0, 0, .vsra 1 2 3),
  (0x03910430, 0, 0, .vcmp .lt 1 1 3),
  (0x03C10835, 0, 0, .vsel 1 2 3 5)] := by
  unfold Decodes; decide

theorem test_decode_v1 : Decodes .v [
  (0x04010839, 0, 0, .vfadd 1 2 3 .rtz .f16),
  (0x04410834, 0, 0, .vfsub 1 2 3 .rto .f32),
  (0x04810832, 0, 0, .vfmul 1 2 3 .rne .b16),
  (0x04C10830, 0, 0, .vfma 1 2 3 .rne .f32),
  (0x05010831, 0, 0, .vfmin 1 2 3 .f16),
  (0x05410832, 0, 0, .vfmax 1 2 3 .b16),
  (0x05A70831, 0, 0, .vfcmp .un 7 2 3 .f16),
  (0x05C108C0, 0, 0, .vcvt 1 2 .f32 .e4 .rne),
  (0x06010839, 0, 0, .vpack 1 2 3 2 true),
  (0x064108FC, 0, 0, .vunpack 1 2 15 3),
  (0x06890806, 0, 0, .vred 9 2 .fmax),
  (0x06C90801, 0, 0, .vscan 9 2 .min),
  (0x07010830, 0, 0, .vperm 1 2 3),
  (0x07410A82, 0, 0, .vxc 1 2 5 .xor),
  (0x07810801, 0, 0, .vbcast 1 2 true),
  (0x07C108E1, 0, 0, .vext 1 2 14 true)] := by
  unfold Decodes; decide

theorem test_decode_v2 : Decodes .v [
  (0x08010001, 0, 0, .viota 1 true),
  (0x0841FFFE, 0, 0, .vli 1 (-2)),
  (0x48410000, 0xDEADBEEF, 0, .vliExt 1 0xDEADBEEF),
  (0x08801800, 0, 0, .mpush 6),
  (0x08C00000, 0, 0, .minv),
  (0x09000000, 0, 0, .mpop),
  (0x09410834, 0, 0, .kmov 1 2 3 .andn),
  (0x09801000, 0, 0, .vcm 0 1),
  (0x09C10830, 0, 0, .vlgmul 1 2 3),
  (0x0A010830, 0, 0, .vlgsum 1 2 3),
  (0x0A450C66, 0, 0, .vdot4 5 3 6 true .su),
  (0x0A810800, 0, 0, .vmov 1 2)] := by
  unfold Decodes; decide

theorem test_decode_f0 : Decodes .f [
  (0x00051800, 0, 0, .fexp2 5 6),
  (0x00451800, 0, 0, .flog2 5 6),
  (0x00851800, 0, 0, .frcp 5 6),
  (0x00C51800, 0, 0, .frsqrt 5 6),
  (0x01051800, 0, 0, .fsqrt 5 6),
  (0x01451800, 0, 0, .ftanh 5 6),
  (0x01851800, 0, 0, .fsigm 5 6),
  (0x01C51800, 0, 0, .fsin 5 6),
  (0x02051800, 0, 0, .fcos 5 6),
  (0x02451A00, 0, 0, .flut 5 6 32),
  (0x028F0000, 0, 0, .fcm 0xF0)] := by
  unfold Decodes; decide

theorem test_decode_m0 : Decodes .m [
  (0x00010980, 0, 0, .ld 1 2 .hu),
  (0x40010B00, 0xFFFFFFF8, 0, .ldExt 1 2 .d (-8)),
  (0x00410A00, 0, 0, .st 1 2 .w),
  (0x40410800, 0x00000010, 0, .stExt 1 2 .b 16),
  (0x00810800, 0, 0, .vld 1 2),
  (0x40810800, 0x00000040, 0, .vldExt 1 2 64 none),
  (0x80810800, 0x00000040, 0xFFFFFF80, .vldExt 1 2 64 (some (-128))),
  (0x00C10800, 0, 0, .vst 1 2),
  (0x80C10800, 0x00000040, 0x00000080, .vstExt 1 2 64 (some 128)),
  (0x01010838, 0, 0, .vldx 1 2 3 2),
  (0x4101083C, 0x00000004, 0, .vldxExt 1 2 3 3 4),
  (0x01410834, 0, 0, .vstx 1 2 3 1),
  (0x41410830, 0x00000004, 0, .vstxExt 1 2 3 0 4),
  (0x01810A80, 0, 0, .lds 1 2 .wu),
  (0x41810880, 0x00000001, 0, .ldsExt 1 2 .bu 1),
  (0x01C10800, 0, 0, .vlds 1 2)] := by
  unfold Decodes; decide

theorem test_decode_m1 : Decodes .m [
  (0x41C10800, 0x00000004, 0, .vldsExt 1 2 4 none),
  (0x02040F50, 0, 0, .ldAcq 4 3 .d .dom),
  (0x42040D10, 0x00000002, 0, .ldAcqExt 4 3 .h .clu 2),
  (0x02440E30, 0, 0, .stRel 4 3 .w .pkg),
  (0x42440F40, 0x00000008, 0, .stRelExt 4 3 .d .grp 8),
  (0x028C2C01, 0, 0, .amo 12 11 0 .add true),
  (0x028C2C5C, 0, 0, .amo 12 11 5 .swap false),
  (0x42C10831, 0x00000004, 0, .cas 1 2 3 4 true),
  (0x0301083A, 0, 0, .vamo 1 2 3 .max),
  (0x03441463, 0, 0, .ldg 4 5 6 1 true),
  (0x03810C40, 0, 0, .vldg 1 3 4 0),
  (0x03C10830, 0, 0, .vldv 1 2 3),
  (0x43C10830, 0x00000080, 0, .vldvExt 1 2 3 128),
  (0x04000900, 0, 0, .pref 2 true),
  (0x44000800, 0x00000040, 0, .prefExt 2 false 64),
  (0x0450F000, 0, 0, .mcm 1 0x0F)] := by
  unfold Decodes; decide

theorem test_decode_x0 : Decodes .x [
  (0x800A2CCE, 0x089A11C6, 0x101080B0, .mma 10 11 12 3 true 0 8 9 10 1 7 6 exTok),
  (0x40401400, 0x101080B0, 0, .mmz 5 exTok),
  (0x008002C3, 0, 0, .mps 11 .ab),
  (0x00D26100, 0, 0, .mscl 1 9 33),
  (0x41010A4C, 0x101080B0, 0, .mcvt 1 2 9 3 exTok),
  (0x4141080E, 0x101080B0, 0, .mtr 1 2 3 2 exTok),
  (0x41810A80, 0x101080B0, 0, .macc 1 2 10 exTok)] := by
  unfold Decodes; decide

theorem test_decode_a0 : Decodes .a [
  (0x40010830, 0x101080B0, 0, .cpy 1 2 3 exTok),
  (0x40010831, 0x101080B0, 0, .cpyB 1 2 3 exTok),
  (0x80410839, 0xA0A00000, 0x101080B0, .cpym 1 2 3 9 40 5 exTok),
  (0x80945561, 0x5C000000, 0x101080B0, .cpypl 20 21 22 1 (some 23) exTok),
  (0x40945566, 0x101080B0, 0, .cpypl 20 21 22 6 none exTok),
  (0x40C10830, 0x101080B0, 0, .cpysp 1 2 3 exTok),
  (0x41010831, 0x101080B0, 0, .cpyfill 1 2 3 .h exTok),
  (0x81410831, 0x10000000, 0x101080B0, .gath 1 2 3 4 true exTok),
  (0x81810830, 0x10000000, 0x101080B0, .scat 1 2 3 4 false exTok),
  (0x41C10831, 0x101080B0, 0, .bankop 1 2 3 .copy exTok),
  (0x42000830, 0x101080B0, 0, .lfence 2 3 exTok),
  (0x42400004, 0x101080B0, 0, .fence .grp exTok),
  (0x42800800, 0x101080B0, 0, .nflush 2 exTok),
  (0x42C03000, 0x101080B0, 0, .rfence 12 false exTok),
  (0x42C00001, 0x101080B0, 0, .rfence 0 true exTok),
  (0x43000809, 0x101080B0, 0, .slotrel 2 9 exTok)] := by
  unfold Decodes; decide

theorem test_decode_a1 : Decodes .a [
  (0x435C824F, 0x101080B0, 0, .bar .arrexp true 8 9 15 exTok),
  (0x03800803, 0, 0, .barw 2 3),
  (0x43C00830, 0x101080B0, 0, .vpub 2 3 exTok),
  (0x04001CC0, 0, 0, .vwait 7 12),
  (0x4448E000, 0x101080B0, 0, .gstep 1 7 exTok),
  (0x4490E000, 0x101080B0, 0, .grel 2 7 exTok),
  (0x44D8E440, 0x101080B0, 0, .gbind 3 7 8 true exTok),
  (0x45010831, 0x101080B0, 0, .send 1 2 3 true exTok),
  (0x854A2CC0, 0x34E00000, 0x101080B0, .rpost 10 11 12 13 14 exTok),
  (0x45810090, 0x101080B0, 0, .rcancel 1 9 exTok),
  (0x45C20C40, 0x101080B0, 0, .rprobe 2 3 4 exTok),
  (0x463E02C0, 0x101080B0, 0, .ringpop 62 5 true exTok),
  (0x46451A00, 0x101080B0, 0, .launch 5 6 true exTok),
  (0x46820000, 0x101080B0, 0, .chunk 2 exTok),
  (0x06C12400, 0, 0, .twait 1 9),
  (0x47382100, 0x101080B0, 0, .sqadm 7 1 2 exTok)] := by
  unfold Decodes; decide

theorem test_decode_a2 : Decodes .a [
  (0x47482106, 0x101080B0, 0, .sqtree 1 1 2 3 exTok),
  (0x47880106, 0x101080B0, 0, .sqvrd 1 2 3 exTok),
  (0x47C90480, 0x101080B0, 0, .sqacc 1 8 9 exTok),
  (0x48090480, 0x101080B0, 0, .sqret 1 8 9 exTok),
  (0x48490481, 0x101080B0, 0, .sqpre 1 8 9 true exTok),
  (0x48890480, 0x101080B0, 0, .sqres 1 8 9 exTok),
  (0x48C90494, 0x101080B0, 0, .sqbat 1 8 9 10 exTok),
  (0x49090494, 0x101080B0, 0, .sqkvAddr 1 8 9 10 exTok),
  (0x49090495, 0x101080B0, 0, .sqkvAdv 1 8 9 10 exTok),
  (0x49400830, 0x101080B0, 0, .sealCap 2 3 exTok),
  (0x49800830, 0x101080B0, 0, .wake 2 3 exTok),
  (0x49C00830, 0x101080B0, 0, .slotld 2 3 exTok),
  (0x4A000830, 0x101080B0, 0, .grpset 2 3 exTok),
  (0x4A440830, 0x101080B0, 0, .tlbinv 4 2 3 exTok)] := by
  unfold Decodes; decide


/-! ### Ill-formed operations: each check refuses a term, and the decoder refuses its word (R44, check 9) -/

/-- Every operation of the list is ill formed, and the word its fields give is refused as a reserved operand value. -/
def Refused (l : List Instr) : Prop :=
  ∀ i ∈ l, i.wf = false ∧ ∃ m op f ext, i.fields = some (m, op, f, ext) ∧
    decodeOp m (slotWord .every op f ext) (ext.getD 0 0) (ext.getD 1 0) = .badOperand

/-- What `Refused` asks of one operation, as a computation. -/
def refuses (i : Instr) : Bool :=
  !i.wf && match i.fields with
    | some (m, op, f, ext) => decodeOp m (slotWord .every op f ext) (ext.getD 0 0) (ext.getD 1 0) == .badOperand
    | none => false

theorem refused_of_refuses {l : List Instr} (h : l.all refuses = true) : Refused l := by
  intro i hi
  have hr := List.all_eq_true.mp h i hi
  simp only [refuses, Bool.and_eq_true, Bool.not_eq_true'] at hr
  obtain ⟨hw, hm⟩ := hr
  refine ⟨hw, ?_⟩
  split at hm
  · exact ⟨_, _, _, _, by assumption, by simpa using hm⟩
  · exact absurd hm (by decide)

theorem test_illformed_0 : Refused [
  .bfx 1 2 60 4 false, .bfi 1 2 63 1, .btok 0 1 3, .btok 1 0 3, .bempty 0 3, .loop 0 1 1, .loop 7 1 1, .lstr 0 0 1 1, .lstr 7 0 1 1, .lbrk 0 1 false, .lbrk 7 1 false, .lbrk 1 1 true, .wait false false 0] :=
  refused_of_refuses (by decide)

theorem test_illformed_1 : Refused [
  .csrr 1 0x005, .csrw 1 2 0x011, .csrs 1 2 0x069, .csrc 1 2 0x3FF, .fset false 1 3, .vcmp .eq 0 1 2, .vfcmp .eq 0 1 2 .f32, .kmov 0 1 2 .and, .kmov 1 2 3 .mov, .kmov 1 2 3 .not, .kmov 1 2 0 .top, .kmov 1 0 2 .top, .vcm 3 1] :=
  refused_of_refuses (by decide)

theorem test_illformed_2 : Refused [
  .flut 1 2 17, .st 1 2 .bu, .st 1 2 .hu, .stExt 1 2 .wu 0, .stRel 1 2 .bu .dom, .stRelExt 1 2 .hu .dom 8, .mcm 2 1, .mscl 2 1 0, .mscl 3 1 0, .cpym 1 2 3 0 5 0 exTok, .cpym 1 2 3 0 0 0 exTok, .cpym 1 2 3 0 4 17 exTok, .cpypl 1 2 3 0 none exTok] :=
  refused_of_refuses (by decide)

theorem test_illformed_3 : Refused [
  .bankop 1 2 3 .zero exTok, .bankop 1 2 3 .cmp { exTok with cr := false }, .rfence 1 true exTok, .bar .init true 1 2 3 exTok, .bar .exp false 1 2 3 exTok, .bar .arr false 0 2 3 exTok, .rcancel 1 0 exTok, .rprobe 3 1 2 exTok, .rprobe 0 1 2 exTok, .ringpop 5 0 false exTok, .chunk 7 exTok, .twait 1 0] :=
  refused_of_refuses (by decide)


/-- Unassigned opcodes, a wrong extension count and non-zero must-be-zero fields are refused, each in its own way (R44, R47). -/
theorem test_refusals : decodeOp .s 0x07400000 0 0 = .unassigned ∧ decodeOp .v 0x0AC00000 0 0 = .unassigned ∧
    decodeOp .f 0x02C00000 0 0 = .unassigned ∧ decodeOp .m 0x04800000 0 0 = .unassigned ∧
    decodeOp .x 0x01C00000 0 0 = .unassigned ∧ decodeOp .a 0x0A800000 0 0 = .unassigned ∧
    decodeOp .s 0x40430420 0 0 = .badLn ∧ decodeOp .s 0x00430421 0 0 = .badOperand ∧ decodeOp .a 0x40010830 0x101080B1 0 = .badOperand := by
  decide
/-! ### Small states -/

/-- A running core with the largest declarations, in bundle 8 at word 100. -/
def core8 : Core := { Core.init with run := .running, csr := kset 0 Core.init.csr 0x060 fullLimits, bn := 8, pc := 100 }

/-- Scalar registers 1, 2, … with given values. -/
def withRegs (xs : List Nat) : Core :=
  { core8 with sregs := (xs.mapIdx fun j x => (j + 1, (⟨BitVec.ofNat 64 x, false⟩ : SReg))).filter fun e => e.2.val ≠ 0 }

/-- The cursor of a slot of the bundle. -/
def cursorAt (i : Nat) (slot : Slot) : Cursor :=
  { core := i, slot := slot, word := 0, op := .nop, bn := 8, pc := 100, len := 2, pad := 0, le := 0, tok0 := [], status0 := 0, ltime0 := 0, mw := []
    split := false, lag := false, whole := true, sets := [], fill := 0, target := none, post := .none, trapped := none, held := .none }

/-- A cursor whose class stays behind. -/
def laggingAt (i : Nat) (slot : Slot) : Cursor := { cursorAt i slot with whole := false, lag := true }

/-- A module on which only core `i` works, between bundles. -/
def idle (i : Nat) (k : Core) : State := { State.reset with agenda := [], turn := i, cores := [(i, k)] }

/-- The same, executing an operation of a slot. -/
def inSlot (i : Nat) (k : Core) (slot : Slot) : State := { idle i k with cur := some (cursorAt i slot) }

/-- A token word that produces t1 and consumes nothing. -/
def tok1 : TokenWord := { prod := 1, c1 := 0, c2 := 0, c3 := 0, cr := false, ring := 0 }

/-- A `barw` of the bundle at word 99 that its class has not dispatched. -/
def slipped : Slip := { cls := .a, cur := { cursorAt 0 .a with pc := 99, bn := 7 }, op := .barw 0 0, why := .slip }

/-- An entry of an engine queue. -/
def entryOf (i : Instr) (vals : List W64) : EngEntry :=
  { op := i, vals := vals, recs := [], slot := .a, bundle := 3, prod := 1, gen := 1, consumed := [], cr := false, ring := 0
    stale := [], time := 0, serial := 7, entered := 0, waits := [] }

/-! ### Scalar operations -/

theorem witness_ScalarArithmeticResults : ∃ (i : Instr) (s : State) (c : Cursor) (d : Reg) (rs : List Reg) (x : W64) (lat : Nat),
    i.wf = true ∧ arithmetic i (val s c) = some (d, rs, x, lat) ∧ Acts s c (sUses (d :: rs)) :=
  ⟨.div 3 1 2 false, inSlot 0 (withRegs [2 ^ 63, 2 ^ 64 - 1]) .s0, cursorAt 0 .s0, _, _, _, _, rfl, rfl, by unfold Acts; decide⟩

theorem witness_ScalarLogicResults : ∃ (i : Instr) (s : State) (c : Cursor) (d : Reg) (rs : List Reg) (x : W64) (lat : Nat),
    i.wf = true ∧ logic i (val s c) = some (d, rs, x, lat) ∧ Acts s c (sUses (d :: rs)) :=
  ⟨.shi 3 1 .rotate 63, inSlot 0 (withRegs [5]) .s0, cursorAt 0 .s0, _, _, _, _, rfl, rfl, by unfold Acts; decide⟩

theorem witness_ScalarSelectionResults : ∃ (i : Instr) (s : State) (c : Cursor) (d : Reg) (rs : List Reg) (x : W64) (lat : Nat),
    i.wf = true ∧ selection i (val s c) = some (d, rs, x, lat) ∧ Acts s c (sUses (d :: rs)) :=
  ⟨.bfi 3 1 60 3, inSlot 0 (withRegs [5]) .s0, cursorAt 0 .s0, _, _, _, _, rfl, rfl, by unfold Acts; decide⟩

/-- R102's example values: 2^63 divided by -1 wraps, and a division by 0 gives all ones. -/
theorem test_div_corners : arithmetic (.div 3 1 2 false) (val (inSlot 0 (withRegs [2 ^ 63, 2 ^ 64 - 1]) .s0) (cursorAt 0 .s0)) =
    some (3, [1, 2], 0x8000000000000000, 20) ∧
    arithmetic (.div 3 1 2 true) (val (inSlot 0 (withRegs [5, 0]) .s0) (cursorAt 0 .s0)) =
      some (3, [1, 2], 0xFFFFFFFFFFFFFFFF, 20) := by decide

theorem witness_HeldWriteBecomesVisible : ∃ (s : State) (c : Cursor) (r : Nat),
    r ≠ 0 ∧ ∀ w ∈ (s.core c.core).writes, writesScalar r w = false :=
  ⟨inSlot 0 core8 .s0, cursorAt 0 .s0, 5, by decide, by decide⟩

theorem witness_ScalarZeroIsConstant : ∃ (s : State) (c : Cursor) (a b : Reg), Acts s c (sUses [0, a, b]) :=
  ⟨inSlot 0 core8 .s0, cursorAt 0 .s0, 1, 2, by unfold Acts; decide⟩

theorem witness_TransfersSetThePcOrTrap_pc : ∀ off ∈ ([-100, 0, 16283] : List (BitVec 32)), ∃ (s t : State) (c : Cursor) (us : List Use)
    (rs : List Reg) (target : Int), transfer (.jal 1 off) s c = some (us, rs, target, t) ∧ Acts s c us ∧
      (s.core c.core).inLoop = false ∧ Clean s c rs ∧ 0 ≤ target ∧ target ≤ 16383 := by
  intro off h
  simp only [List.mem_cons, List.not_mem_nil, or_false] at h
  refine ⟨inSlot 0 core8 .s0, _, cursorAt 0 .s0, _, _, _, rfl, by unfold Acts; decide, by decide, by unfold Clean; decide, ?_⟩
  obtain rfl | rfl | rfl := h <;> simp [cursorAt, BitVec.toInt]

/-- A core in a loop at level 1. -/
def looping : Core := { withRegs [3] with loops := [(1, { active := true, count := 3, iter := 0, start := 98, len := 2 })] }

theorem witness_TransfersSetThePcOrTrap_loop : ∃ (s t : State) (c : Cursor) (us : List Use) (rs : List Reg) (target : Int),
    transfer (.br 1 2 .ne 7) s c = some (us, rs, target, t) ∧ Acts s c us ∧ (s.core c.core).inLoop = true :=
  ⟨inSlot 0 looping .s0, _, cursorAt 0 .s0, _, _, _, rfl, by unfold Acts; decide, by decide⟩

theorem witness_TransfersSetThePcOrTrap_target : ∀ off ∈ ([-101, 16284] : List (BitVec 32)), ∃ (s t : State) (c : Cursor) (us : List Use)
    (rs : List Reg) (target : Int), transfer (.j off) s c = some (us, rs, target, t) ∧ Acts s c us ∧
      (s.core c.core).inLoop = false ∧ Clean s c rs ∧ (target < 0 ∨ 16383 < target) := by
  intro off h
  simp only [List.mem_cons, List.not_mem_nil, or_false] at h
  refine ⟨inSlot 0 core8 .s0, _, cursorAt 0 .s0, _, _, _, rfl, by unfold Acts; decide, by decide, by unfold Clean; decide, ?_⟩
  obtain rfl | rfl := h <;> simp [cursorAt, BitVec.toInt]

/-- Register 2 with a deferred fault. -/
def deferred : Core := { core8 with sregs := [(2, ⟨5, true⟩)] }

theorem witness_TransfersSetThePcOrTrap_df : ∃ (s t : State) (c : Cursor) (us : List Use) (rs : List Reg) (target : Int) (r : Reg),
    transfer (.br 1 2 .ne 7) s c = some (us, rs, target, t) ∧ Acts s c us ∧ (s.core c.core).inLoop = false ∧
      rs.find? (fun r => (s.sr c r.val).df) = some r :=
  ⟨inSlot 0 deferred .s0, _, cursorAt 0 .s0, _, _, _, 2, rfl, by unfold Acts; decide, by decide, by decide⟩

theorem witness_ConditionCodesCompare : ∀ off ∈ ([-100, 16283] : List (BitVec 32)), ∃ (s : State) (c : Cursor) (a b : Reg),
    Acts s c (sUses [3, a, b]) ∧ Acts s c (sUses [a]) ∧ (s.core c.core).inLoop = false ∧ Clean s c [a, b] ∧
      0 ≤ (c.pc : Int) + off.toInt ∧ (c.pc : Int) + off.toInt ≤ 16383 ∧ c.pc + c.len ≤ 16383 := by
  intro off h
  simp only [List.mem_cons, List.not_mem_nil, or_false] at h
  refine ⟨inSlot 0 core8 .s0, cursorAt 0 .s0, 1, 2, by unfold Acts; decide, by unfold Acts; decide, by decide,
    by unfold Clean; decide, ?_⟩
  obtain rfl | rfl := h <;> simp [cursorAt, BitVec.toInt]

/-- A defect of each kind: header bits, an LE of 7, a bundle beyond the last word, LN and IQ of 3, two writers of s3, an unassigned
opcode, a reserved operand, `j` in S1, an `add` with an extension word, `halt` on a user core. -/
theorem witness_DecodeTrapValues :
    decodeBundle (words [0]) 0 false = .error (.bundle 1 0 0) ∧
    decodeBundle (words [0xD0040001]) 0 false = .error (.bundle 2 0 0xD0040001) ∧
    decodeBundle (words [0xD0043800]) 0 false = .error (.bundle 3 0 0xD0043800) ∧
    decodeBundle (fun p => if p = 16383 then 0xD0040000 else 0) 16383 false = .error (.bundle 4 0 0xD0040000) ∧
    decodeBundle (words [0xD00C0000, 0, 0xC0000000]) 0 false = .error (.bundle 5 1 0xD00C0000) ∧
    decodeBundle (words [0xD00C0000, 0, 0x30000000]) 0 false = .error (.bundle 6 1 0xD00C0000) ∧
    decodeBundle (words [0xD00C0000, 0x00430420, 0x00430420]) 0 false = .error (.bundle 7 1 0xD00C0000) ∧
    decodeBundle (words [0xD0040000, 0x07400000]) 0 false = .error (.slotOp 1 0 0x07400000) ∧
    decodeBundle (words [0xD0040000, 0x00430421]) 0 false = .error (.slotOp 2 0 0x00430421) ∧
    decodeBundle (words [0xD0080000, 0x48800000, 0]) 0 false = .error (.slotOp 3 1 0x48800000) ∧
    decodeBundle (words [0xD0040000, 0x40430420, 0]) 0 false = .error (.slotOp 4 0 0x40430420) ∧
    decodeBundle (words [0xD0040000, 0x0C800000]) 0 false = .error (.privilege 0 0x0C800000) := by decide

theorem witness_Loops_start : ∀ x ∈ [0, 3], ∃ (s : State) (c : Cursor) (lv : Fin 8) (r : Reg), Acts s c (sUses [r]) ∧
    lv.val = (s.core c.core).innermost + 1 ∧ c.le = 0 ∧ Clean s c [r] ∧ val s c r = BitVec.ofNat 64 x := by
  intro x h
  refine ⟨inSlot 0 (withRegs [x]) .s0, cursorAt 0 .s0, 1, 1, by unfold Acts; revert h x; decide, by revert h x; decide, rfl, ?_⟩
  unfold Clean
  revert h x
  decide

theorem witness_Loops_stride : ∃ (s : State) (c : Cursor) (x : Reg), Acts s c (sUses [x]) :=
  ⟨inSlot 0 core8 .s0, cursorAt 0 .s0, 63, by unfold Acts; decide⟩

theorem witness_Loops_break : ∃ (s : State) (c : Cursor), Acts s c (sUses [1]) ∧ ((s.core c.core).level 1).active = true ∧
    Clean s c [1] ∧ val s c 1 ≠ 0 ∧ val s c 2 = 0 ∧ Clean s c [2] ∧ Acts s c (sUses [2]) :=
  ⟨inSlot 0 looping .s0, cursorAt 0 .s0, by unfold Acts Clean; decide⟩

theorem witness_Loops_close : ∀ count ∈ [1, 2], ∃ (s : State), (s.core 0).closing = some (1, 102) ∧
    (∀ j < 4, (kget ⟨0, 0⟩ (s.core 0).strides (0 + j)).reg = 0) ∧ ((s.core 0).level 1).count = BitVec.ofNat 64 count := by
  intro count _
  exact ⟨idle 0 { core8 with
    closing := some (1, 102), loops := [(1, { active := true, count := BitVec.ofNat 64 count, iter := 0, start := 98, len := 2 })] },
    rfl, fun j _ => rfl, rfl⟩

theorem witness_Loops_close_waits : ((idle 0 { core8 with closing := some (1, 102), slips := [slipped] }).core 0).slips ≠ [] := by decide

/-! ### CSRs and exceptions -/

theorem witness_CsrReadsAndWrites : ∃ (s : State) (c : Cursor), Acts s c (sUses [1, 2]) ∧ Clean s c [2] ∧ isFw c.core = false ∧
    mayWrite c.core 0x010 ∧ Acts s c (sUses [1, 0]) :=
  ⟨inSlot 0 (withRegs [1, 2]) .s0, cursorAt 0 .s0, by unfold Acts Clean mayWrite; decide⟩

theorem witness_CsrReadsAndWrites_firmware : ∃ (s : State) (c : Cursor), Acts s c (sUses [1, 2]) ∧ Clean s c [2] ∧
    mayWrite c.core 0x050 ∧ mayWrite c.core 0x068 :=
  ⟨inSlot 0xF000 (withRegs [1, 2]) .s0, cursorAt 0xF000 .s0, by unfold Acts Clean mayWrite; decide⟩

theorem witness_CsrRightsTrap : ∃ (s : State) (c : Cursor), Acts s c (sUses [1, 2]) ∧ isFw c.core = false :=
  ⟨inSlot 2047 core8 .s0, cursorAt 2047 .s0, by unfold Acts; decide⟩

theorem witness_TrapReturnAndHalt_user : ∃ (s : State) (c : Cursor), Acts s c [] ∧ isFw c.core = false :=
  ⟨inSlot 0 core8 .s0, cursorAt 0 .s0, by unfold Acts; decide⟩

theorem witness_TrapReturnAndHalt_firmware : ∃ (s : State) (c : Cursor), Acts s c [] ∧ isFw c.core = true ∧
    (s.core c.core).inLoop = false ∧ s.eventReady (colOf c.core) = false :=
  ⟨inSlot 0xF007 core8 .s0, cursorAt 0xF007 .s0, by unfold Acts; decide⟩

/-- Firmware core 0 with one event queued; EE of `tstate` as given. -/
def eventState (ee : Bool) : State :=
  let k : Core := { core8 with csr := kset 0 (kset 0 core8.csr 0x053 (if ee then 16 else 0)) 0x054 40 }
  let s := idle 0xF000 k
  { s with hub := { s.hub with fwEvents := [(0, [{ source := 2, cause := 0x11, tval := 9 }])] } }

theorem witness_FirmwareTakesEvents : ∀ ee, ∃ (s : State) (e : FwEvent) (es : List FwEvent),
    kget [] s.hub.fwEvents 0 = e :: es ∧ (s.core 0xF000).closing = none ∧ (s.core 0xF000).run = .running ∧
      (s.core 0xF000).slips = [] ∧ (s.core 0xF000).ending = none ∧ (s.core 0xF000).ee = ee := by
  intro ee
  refine ⟨eventState ee, _, _, rfl, ?_⟩
  cases ee <;> decide

theorem witness_TrapReturnAndHalt_event : ∃ (s : State) (c : Cursor), Acts s c [] ∧ c.core = 0xF000 + colOf c.core ∧
    (s.core c.core).inLoop = false ∧ s.eventReady (colOf c.core) = true :=
  ⟨{ eventState true with cur := some (cursorAt 0xF000 .s0) }, cursorAt 0xF000 .s0, by unfold Acts; decide⟩

theorem witness_CsrRightsTrap_s0 : ∃ (s : State) (c : Cursor), Acts s c (sUses [1, 0]) ∧ isFw c.core = false :=
  ⟨inSlot 2047 core8 .s0, cursorAt 2047 .s0, by unfold Acts; decide⟩

theorem witness_TrapReturnAndHalt_loop : ∃ (s : State) (c : Cursor), Acts s c [] ∧ (s.core c.core).inLoop = true :=
  ⟨inSlot 0xF007 looping .s0, cursorAt 0xF007 .s0, by unfold Acts; decide⟩

/-- The event waits behind a class that lags, or behind an operation that ends the stream. -/
theorem witness_FirmwareTakesEvents_waits : ∀ b : Bool, ∃ (s : State) (e : FwEvent) (es : List FwEvent),
    kget [] s.hub.fwEvents 0 = e :: es ∧ (s.core 0xF000).closing = none ∧
      (if b then (s.core 0xF000).slips ≠ [] else (s.core 0xF000).ending ≠ none) := by
  intro b
  refine ⟨(eventState true).modCore 0xF000 fun k => { k with
    slips := if b then [slipped] else []
    ending := if b then none else some { len := 1, header := 0, sync := false, pad := 0, le := 0, ops := [], pairs := [] } }, _, _, rfl, ?_⟩
  cases b <;> decide

/-! ### Waits, flags, tasks -/

/-- A load of bundle 3 that is still open or has left a cause. -/
def someLoad (pend : Bool) (trap : Option (Cause × W64)) : Outstanding :=
  { id := 1, no := 0, ldNo := some 0, stNo := none, bundle := 3, slot := .m0, ldPend := pend, stPend := false, parts := []
    dest := .none, ver := none, spec := false, acq := none, trap := trap, time := 0, handle := none, scope := none, rel := [] }

/-- The close of an iteration with two stride entries: s4 is still to be written by a load, so that its add waits (R107). -/
theorem witness_Loops_close_strides : ∃ s : State, (s.core 0).closing = some (1, 102) ∧ (s.core 0).slips = [] ∧
    strideEntries (s.core 0) 1 = [⟨3, 5⟩, ⟨4, 0xFFFFFFFF⟩] ∧ (s.core 0).writing 3 = false ∧ (s.core 0).writing 4 = true :=
  ⟨idle 0 { looping with
      closing := some (1, 102), strides := [(0, ⟨3, 5⟩), (2, ⟨4, 0xFFFFFFFF⟩)]
      outs := [{ someLoad true none with dest := .scalar 4 false }] }, by decide⟩

theorem witness_WaitHoldsForCounters_passes : ∃ (s : State) (c : Cursor), Acts s c [] ∧ (s.core c.core).outs = [] :=
  ⟨inSlot 0 core8 .s0, cursorAt 0 .s0, by unfold Acts; decide⟩

theorem witness_WaitHoldsForCounters_traps : ∃ (s : State) (c : Cursor) (o : Outstanding), Acts s c [] ∧
    ((s.core c.core).outs.filter fun o => decide (o.bundle < c.bn) && o.ldPend).length ≤ 0 ∧
    (∀ o ∈ (s.core c.core).outs.filter ((s.core c.core).covers c.bn true false 0), o.ldPend = false) ∧
    ((s.core c.core).outs.filter ((s.core c.core).covers c.bn true false 0)).find? (fun o => o.trap.isSome) = some o ∧
    o.trap = some (.remote, 5) :=
  ⟨inSlot 0 { core8 with outs := [someLoad false (some (.remote, 5))], ldNext := 1 } .s0, cursorAt 0 .s0,
    someLoad false (some (.remote, 5)), by unfold Acts; decide⟩

theorem witness_WaitHoldsForCounters_holds : ∃ (s : State) (c : Cursor), Acts s c [] ∧
    0 < ((s.core c.core).outs.filter fun o => decide (o.bundle < c.bn) && o.ldPend).length :=
  ⟨inSlot 0 { core8 with outs := [someLoad true none], ldNext := 1 } .s0, cursorAt 0 .s0, by unfold Acts; decide⟩

theorem witness_WaitsObserve_fwait : ∀ b, ∃ (s : State) (c : Cursor), Acts s c [.flag 31] ∧
    (c.flag0 (s.core c.core) 31).set = b ∧ c.sets = [] := by
  intro b
  refine ⟨inSlot 0 { core8 with flags := if b then [(31, ⟨true, 9⟩)] else [] } .s0, cursorAt 0 .s0, ?_⟩
  unfold Acts
  cases b <;> decide

theorem witness_WaitsObserve_twait : ∀ st, ∃ (s : State) (c : Cursor), Acts s c [.s 3, .tok 63] ∧ (c.token 63).state = st := by
  intro st
  refine ⟨{ inSlot 0 core8 .s0 with cur := some { cursorAt 0 .s0 with tok0 := [(63, { Token.init with state := st })] } },
    { cursorAt 0 .s0 with tok0 := [(63, { Token.init with state := st })] }, ?_⟩
  unfold Acts
  cases st <;> decide

theorem witness_WaitsObserve_barw : ∃ (s : State) (c : Cursor), Acts s c [.s 1, .bar 15] ∧ Acts s c [.s 2, .bar 15] ∧
    Clean s c [1, 2] ∧ (kget Barrier.none (s.core c.core).barriers 15).phase = (val s c 1).toNat % 2 ^ 32 ∧
    (kget Barrier.none (s.core c.core).barriers 15).phase ≠ (val s c 2).toNat % 2 ^ 32 :=
  ⟨inSlot 0 { withRegs [2 ^ 32 + 4, 3] with barriers := [(15, { Barrier.none with phase := 4 })] } .s0, cursorAt 0 .s0,
    by unfold Acts Clean; decide⟩

/-- A version word that can be read, and one whose line is spoilt. -/
theorem witness_WaitsObserve_vwait : ∀ x ∈ [([], none), ([64], some 4096)], ∃ (s : State) (c : Cursor), Acts s c (sUses [1, 2]) ∧ Acts s c (sUses [1, 3]) ∧
    Clean s c [1, 2, 3] ∧ (val s c 1).toNat / 2 ^ 60 = 0 ∧
    checkEach s c.core c.slot.index .slots .read [(val s c 1, 8, 64)] = none ∧ s.oddPhys c.core 8 [val s c 1] = none ∧
    (s.placeOf c.core .read (val s c 1) 8).1 = .phys 4096 ∧
    leNat (s.ms.read 4096 8) % 2 ^ 48 < (val s c 2).toNat % 2 ^ 48 ∧
    (val s c 3).toNat % 2 ^ 48 ≤ leNat (s.ms.read 4096 8) % 2 ^ 48 ∧ s.ms.spoiltAt (.phys 4096) 8 = x.2 := by
  intro x h
  refine ⟨{ inSlot 0 (withRegs [4096, 1, 0]) .s0 with ms := { MemSys.init with faulty := x.1 } }, cursorAt 0 .s0, ?_⟩
  simp only [List.mem_cons, List.not_mem_nil, or_false] at h
  unfold Acts Clean
  obtain rfl | rfl := h <;> decide

theorem witness_WaitsObserve_behind : ∃ (s : State) (c : Cursor), Acts s c [.s 3, .tok 63, .bar 15] ∧ staysBehind s c = true :=
  ⟨{ inSlot 0 core8 .a with cur := some (laggingAt 0 .a) }, laggingAt 0 .a, by unfold Acts; decide⟩

/-- A launch on one core, in a given state. -/
def launchOf (st : LaunchState) (remaining : Nat) : Launch :=
  { lid := 1, ctx := 0
    desc := { image := 0, entry := 12, x := 4, y := 1, z := 1, dist := 1, slotFlag := false, handlerValid := false, minchunk := 1
              prio := 5, gang := [0], flagWord := 0, handler := 0, preds := [], doneWord := 0
              hdr := { text := 1, data := 0, sregs := 64, vregs := 64, tokens := 63, barriers := 16, flags := 32, grids := 8
                       wbuf := 0, abuf := 0, rbuf := 0, routes := 0, replay := true } }
    state := st, own := 5, eff := 5, queue := none, remaining := remaining, next := 4 - remaining, redo := [], ranges := []
    drawn := [], replays := 0, release := 0, haltAt := 0, time := 0, fate := none }

/-- A core of that launch. -/
def inLaunch (l : Launch) (s : State) : State :=
  { s.modCore 0 fun k => { k with lid := 1 } with fe := { s.fe with pool := [l], nextLid := 2 } }

theorem witness_FlagsSetAndClear_remote : ∃ (s : State) (c : Cursor), Acts s c [.s 1, .flag 31] ∧ Clean s c [1] ∧
    isFw c.core = false ∧ s.runsTask (peer c.core (val s c 1).toNat) (s.core c.core).ctx = true ∧
    (Use.flag 31).over ((s.core (peer c.core (val s c 1).toNat)).csrNow 0x060) = false :=
  ⟨{ inSlot 0 (withRegs [127]) .s0 with cores := [(0, withRegs [127]), (127, core8)] }, cursorAt 0 .s0, by unfold Acts Clean; decide⟩

theorem witness_FlagsSetAndClear_own : ∃ (s : State) (c : Cursor), Acts s c [.flag 0] ∧ Acts s c [.flag 31] ∧ c.sets = [] :=
  ⟨inSlot 0 core8 .s0, cursorAt 0 .s0, by unfold Acts; decide⟩

theorem witness_TasksEndAndYield_alone : ∃ (s : State) (c : Cursor), Acts s c [] ∧
    (s.modCore c.core fun k => ({ k with loops := [] }).landAll.markTend).launch
      ((s.modCore c.core fun k => ({ k with loops := [] }).landAll.markTend).core c.core).lid = none ∧
    s.launch (s.core c.core).lid = none :=
  ⟨inSlot 0 core8 .s0, cursorAt 0 .s0, by unfold Acts; decide⟩

/-- What `tend` starts from. -/
def atTend (s : State) : State := s.modCore 0 fun k => ({ k with loops := [] }).landAll.markTend

theorem witness_TasksEndAndYield_last : ∃ (s s2 : State) (l : Launch), Acts s (cursorAt 0 .s0) [] ∧
    (atTend s).launch ((atTend s).core 0).lid = some l ∧ (atTend s).nextCoord l 0 = (none, s2) :=
  ⟨inLaunch (launchOf .running 0) (inSlot 0 core8 .s0), _, launchOf .running 0, by unfold Acts; decide, rfl, rfl⟩

theorem witness_TasksEndAndYield_more : ∃ (s s2 : State) (l : Launch) (n : Nat), Acts s (cursorAt 0 .s0) [] ∧
    (atTend s).launch ((atTend s).core 0).lid = some l ∧ (atTend s).nextCoord l 0 = (some n, s2) :=
  ⟨inLaunch (launchOf .running 2) (inSlot 0 core8 .s0), _, launchOf .running 2, _, by unfold Acts; decide, rfl, rfl⟩

theorem witness_TasksEndAndYield_preempting : ∃ (s : State) (l : Launch), Acts s (cursorAt 0 .s0) [] ∧
    s.launch (s.core 0).lid = some l ∧ l.state ≠ .running :=
  ⟨inLaunch (launchOf .preempting 2) (inSlot 0 core8 .s0), launchOf .preempting 2, by unfold Acts; decide, rfl, by decide⟩

theorem witness_TasksEndAndYield_wanted : ∃ (s : State) (l : Launch), Acts s (cursorAt 0 .s0) [] ∧
    s.launch (s.core 0).lid = some l ∧ l.state = .running ∧
    (s.modCore 0 fun k => { k with wdogCount := 0, wdogSeen := 0 }).wanted 0 l = true :=
  let s := inLaunch (launchOf .running 2) (inSlot 0 core8 .s0)
  ⟨{ s with fe := { s.fe with pool := [launchOf .running 2, { launchOf .pending 4 with lid := 2 }] } }, launchOf .running 2,
    by unfold Acts; decide, rfl, rfl, by decide⟩

/-- A core that holds a slipped wait: the token has left pending, the phase has changed, the version has come. -/
theorem witness_WaitsObserve_slipped : ∃ (s : State) (c : Cursor), Acts s c [.s 1, .bar 15] ∧ Clean s c [1] ∧
    (∃ (r : TokRef) (x : Token), r.tok = 63 ∧ r.st = some x) ∧
    (kget Barrier.none (s.core c.core).barriers 15).phase ≠ (val s c 1).toNat % 2 ^ 32 ∧
    (val s c 1).toNat % 2 ^ 48 ≤ leNat (s.ms.read (s.ms.forward 4096) 8) % 2 ^ 48 :=
  ⟨inSlot 0 { withRegs [0] with barriers := [(15, { Barrier.none with phase := 4 })] } .a, cursorAt 0 .a, by
    refine ⟨by unfold Acts; decide, by unfold Clean; decide, ⟨{ tok := 63, gen := 1, st := some Token.init }, Token.init, rfl, rfl⟩, ?_⟩
    decide⟩

/-- A blocked `barw` of a firmware core stays behind too; an operation that is tried again does not. -/
theorem witness_WaitsObserve_blocked : ∀ whole, ∃ (s : State) (c : Cursor), Acts s c [.s 1, .bar 15] ∧ Clean s c [1] ∧
    staysBehind s c = false ∧ c.atOnce = whole ∧
    (kget Barrier.none (s.core c.core).barriers 15).phase = (val s c 1).toNat % 2 ^ 32 := by
  intro whole
  refine ⟨{ inSlot 0xF000 (withRegs [0]) .a with cur := some { cursorAt 0xF000 .a with whole := whole } },
    { cursorAt 0xF000 .a with whole := whole }, ?_⟩
  unfold Acts Clean
  cases whole <;> decide

/-- `yield` in a running launch that no other outranks, and in one that is being pre-empted. -/
theorem witness_TasksEndAndYield_goesOn : ∀ st ∈ [LaunchState.running, .preempting], ∃ (s : State) (l : Launch),
    Acts s (cursorAt 0 .s0) [] ∧ s.launch (s.core 0).lid = some l ∧ l.state = st ∧
    (s.modCore 0 fun k => { k with wdogCount := 0, wdogSeen := 0 }).wanted 0 l = false := by
  intro st h
  refine ⟨inLaunch (launchOf st 2) (inSlot 0 core8 .s0), launchOf st 2, ?_⟩
  unfold Acts
  revert h st
  decide

/-! ### Vector operations -/

/-- Core 8 with one enabled cluster in every slot and some lanes of v1 and v2. -/
def oneCluster (k : Core) : Core :=
  { k with
    csr := [0x028, 0x029, 0x02A, 0x02B, 0x02C, 0x02D].foldl (fun m n => kset 0 m n 1) k.csr
    vlanes := [(16, 0x7FFFFFFF), (17, 0x80000000), (32, 1), (33, 0xFFFFFFFF)] }

theorem witness_VectorIntegerLanes : ∃ (s : State) (c : Cursor) (d : Reg) (rs : List Reg) (f : List W32 → W32 × Nat),
    laneInteger (.vadd 63 1 2 .ss) = some (d, rs, f) ∧ Acts s c (vUses (d :: rs)) :=
  ⟨inSlot 0 (oneCluster core8) .v0, cursorAt 0 .v0, _, _, _, rfl, by unfold Acts; decide⟩

theorem witness_VectorFloatLanes : ∃ (s : State) (c : Cursor) (d : Reg) (rs : List Reg) (lat : Nat) (f : List W32 → W32 × Nat),
    laneFloat (.fexp2 63 1) = some (d, rs, lat, f) ∧ Acts s c (vUses (d :: rs)) :=
  ⟨inSlot 0 (oneCluster core8) .f, cursorAt 0 .f, _, _, _, _, rfl, by unfold Acts; decide⟩

theorem witness_VectorMovesAndPermutes_lanes : ∃ (s : State) (c : Cursor) (us : List Use) (d : Reg) (lat : Nat) (df : Nat → Bool)
    (op : Nat → Nat → W32), laneMove (.vxc 63 1 7 .xor) s c = some (us, d, lat, df, op) ∧ Acts s c us :=
  ⟨inSlot 0 (oneCluster core8) .v0, cursorAt 0 .v0, _, _, _, _, _, rfl, by unfold Acts; decide⟩

theorem witness_VectorMovesAndPermutes_vext : ∃ (s t : State) (c : Cursor), Acts s c [.s 63, .v 1] ∧ s.enabled c = [0] ∧
    Acts t c [.s 63, .v 1] ∧ t.enabled c = [] :=
  ⟨inSlot 0 (oneCluster core8) .v0, inSlot 0 { core8 with csr := kset 0 core8.csr 0x028 0 } .v0, cursorAt 0 .v0,
    by unfold Acts; decide⟩

theorem witness_VectorMovesAndPermutes_flut : ∃ (s : State) (c : Cursor),
    Acts s c (vUses [3, 1] ++ ((List.range 16).map fun j => 48 + j).map .v) ∧ ∀ cl ∈ s.enabled c, s.vf c cl 1 = false :=
  ⟨inSlot 0 (oneCluster core8) .f, cursorAt 0 .f, by unfold Acts; decide⟩

theorem witness_VectorPackAndReduce_valid : ∃ (s : State) (c : Cursor) (w : Nat), Acts s c (vUses [1, 2]) ∧
    nfWidth (s.nf c 0) = some w ∧ nfValid (s.nf c 0) = true ∧ 3 < 32 / w ∧ ¬(nfValid (s.nf c 0) = true ∧ 4 < 32 / w) ∧
    Acts s c [.s 63, .v 1] :=
  ⟨inSlot 0 (oneCluster core8) .v0, cursorAt 0 .v0, 8, by unfold Acts; decide⟩

theorem witness_MasksAndMaskStack : ∃ (s : State) (c : Cursor), Acts s c (vUses [1, 2]) ∧ Acts s c [] ∧
    (∀ r ∈ [1, 2], ∀ cl ∈ s.enabled c, s.vf c cl r = false) ∧ (∀ cl ∈ s.enabled c, (s.stack c cl).1 ≠ 15) ∧
    (∀ cl ∈ s.enabled c, (s.stack c cl).1 ≠ 0) :=
  ⟨inSlot 0 { oneCluster core8 with mdepth := [(0, 14)] } .v0, cursorAt 0 .v0, by unfold Acts; decide⟩

theorem witness_MasksAndMaskStack_full : ∃ (s : State) (c : Cursor), Acts s c [] ∧ ∃ cl ∈ s.enabled c, (s.stack c cl).1 = 15 :=
  ⟨inSlot 0 { oneCluster core8 with mdepth := [(0, 15)] } .v0, cursorAt 0 .v0, by unfold Acts; decide⟩

theorem witness_MasksAndMaskStack_empty : ∃ (s : State) (c : Cursor), Acts s c [] ∧ ∃ cl ∈ s.enabled c, (s.stack c cl).1 = 0 :=
  ⟨inSlot 0 (oneCluster core8) .v0, cursorAt 0 .v0, by unfold Acts; decide⟩

/-! ### Memory slots -/

/-- The first byte of the A buffer of the core itself. -/
def ownA : Nat := 0x9000000000000000

/-- Core 0 with s1 the base `a`, s2 and s3 two operands, in slot M0. -/
def memState (a : Nat) : State := inSlot 0 (oneCluster (withRegs [a, 0x1122334455667788, 5])) .m0

/-- `Local` as a computation. -/
def isLocal (s : State) (c : Cursor) (acc : Access) (n : Nat) (a : W64) : Bool :=
  match viaOf (s.piece c.core acc n a).sp (placeOf s c acc n a), placeOf s c acc n a with
  | .own, _ => true
  | .home, .phys p => !isControl p && decide (p % 64 + n ≤ 64)
  | _, _ => false

theorem local_of {s : State} {c : Cursor} {acc : Access} {n : Nat} {a : W64} (h : isLocal s c acc n a = true) : Local s c acc n a := by
  unfold isLocal at h
  unfold Local
  split at h <;> simp_all

/-- The base address of a witness: in the own A buffer, or in this package's memory. -/
def baseAt (own : Bool) : Nat := if own then ownA else 0x7FFFFF0000

/-- What the statements on memory slots ask of an access that acts now, in its own buffers or at the home. -/
def Ready (s : State) (c : Cursor) (acc : Access) (own : Bool) (us : List Use) (rs vs : List Reg) (n : Nat) (as : List W64) : Prop :=
  Acts s c us ∧ Clean s c rs ∧ CleanV s c vs ∧ Reaches s c acc n as ∧
    if own = true then AllOwn s c acc n as else ¬AllOwn s c acc n as ∧ ∀ a ∈ as, Local s c acc n a

/-- The same as a computation. -/
def isReady (s : State) (c : Cursor) (acc : Access) (own : Bool) (us : List Use) (rs vs : List Reg) (n : Nat) (as : List W64) : Bool :=
  decide (s.cur = some c) && us.all (fun u => !u.over (s.hlim c)) && rs.all (fun r => !(s.sr c r.val).df) &&
    vs.all (fun r => (s.enabled c).all fun cl => !s.vf c cl r.val) &&
    (checkEach s c.core c.slot.index .slots acc (as.map fun a => (a, n, n))).isNone && (s.oddPhys c.core n as).isNone &&
    if own then as.all fun a => (s.piece c.core acc n a).isOwn
    else !(as.all fun a => (s.piece c.core acc n a).isOwn) && as.all (isLocal s c acc n)

theorem ready_of {s : State} {c : Cursor} {acc : Access} {own : Bool} {us : List Use} {rs vs : List Reg} {n : Nat} {as : List W64}
    (h : isReady s c acc own us rs vs n as = true) : Ready s c acc own us rs vs n as := by
  simp only [isReady, Bool.and_eq_true, decide_eq_true_eq, List.all_eq_true, Bool.not_eq_true', Option.isNone_iff_eq_none] at h
  obtain ⟨⟨⟨⟨⟨⟨h1, h2⟩, h3⟩, h4⟩, h5⟩, h6⟩, h7⟩ := h
  refine ⟨⟨h1, h2⟩, h3, h4, ⟨h5, h6⟩, ?_⟩
  cases own
  · simp only [Bool.false_eq_true, if_false, Bool.and_eq_true, Bool.not_eq_true'] at h7 ⊢
    refine ⟨fun g => ?_, fun a ha => local_of (List.all_eq_true.mp h7.2 a ha)⟩
    simp [List.all_eq_true.mpr g] at h7
  · simpa [AllOwn] using h7

theorem some_of_any {α : Type} {f : Option α} {g : α → Bool} (h : f.any g = true) : ∃ x, f = some x ∧ g x = true := by
  cases f with
  | none => exact absurd h (by simp)
  | some x => exact ⟨x, rfl, h⟩

/-- The state of the witnesses has nothing under way. -/
theorem witness_Memory_quiet : ∀ own, let s := memState (baseAt own)
    Prompt s (cursorAt 0 .m0) ∧ (s.core 0).ld < 256 ∧ (s.core 0).st < 256 ∧ (s.core 0).storesOpen 8 = false ∧ (s.core 0).hist = [] ∧
      (s.core 0).loadBuf = [] ∧ TidyMemory s 0 ∧ (∀ sc, s.rowOf 0 8 sc = []) := by
  intro own
  refine ⟨?_, ?_, ?_, ?_, ?_, ?_, ?_, fun sc => ?_⟩
  all_goals cases own
  all_goals first | decide +kernel | (unfold Prompt; decide +kernel) | (unfold TidyMemory; decide +kernel) | (cases sc <;> decide +kernel)

theorem witness_Loads : ∀ own, ∀ i ∈ [Instr.ld 4 1 .d, .ldExt 4 1 .b 7, .lds 4 1 .wu, .ldsExt 4 1 .hu 2, .ldAcq 4 1 .d .pkg,
    .ldAcqExt 4 1 .w .dom 8, .vld 4 1, .vldExt 4 1 4 (some 128), .vldx 4 1 5 2, .vldxExt 4 1 5 0 64, .vlds 4 1, .vldsExt 4 1 4 none],
    ∃ us rs vs n as o, loadForm i (memState (baseAt own)) (cursorAt 0 .m0) = some (us, rs, vs, n, as, o) ∧
      Ready (memState (baseAt own)) (cursorAt 0 .m0) .read own us rs vs n as := by
  intro own i h
  have h : ((loadForm i (memState (baseAt own)) (cursorAt 0 .m0)).any fun x =>
      isReady (memState (baseAt own)) (cursorAt 0 .m0) .read own x.1 x.2.1 x.2.2.1 x.2.2.2.1 x.2.2.2.2.1) = true := by
    revert h i
    cases own <;> exact List.all_eq_true.mp (by decide +kernel)
  obtain ⟨x, hx, h⟩ := some_of_any h
  exact ⟨_, _, _, _, _, _, hx, ready_of h⟩

theorem witness_Memory_lags : Lags (memState ownA) (laggingAt 0 .m0) ∧ Acts { memState ownA with cur := some (laggingAt 0 .m0) }
    (laggingAt 0 .m0) (sUses [4, 1]) := by
  unfold Lags Acts; decide

/-- `lds`: a base with a deferred fault, a check that is deferred, and one that is not. -/
theorem witness_ScalarDefers : ∀ x ∈ [(memState ownA, true, none), (memState (2 ^ 63 + 196608), false, some (Cause.addressSpace, true)),
    (memState 4, false, some (.alignment, true)),
    ((memState ownA).modCore 0 fun k => { k with csr := kset 0 k.csr 0x060 63 }, false, some (.headerLimit, false))],
    ∃ (s : State) (c : Cursor), Acts s c (sUses [4, 1]) ∧ Prompt s c ∧ (s.core c.core).ld < 256 ∧
      (x.2.1 = true → (s.sr c 1).df = true) ∧ (x.2.1 = false → (s.sr c 1).df = false ∧
        (checkEach s c.core c.slot.index .slots .read [(baseAddr s c 1 0, 8, 8)]).map
          (fun e => (e.1, decide (e.1 ∈ defers))) = x.2.2) := by
  intro x h
  refine ⟨if x.2.1 then (memState ownA).modCore 0 fun k => { k with sregs := [(1, ⟨64, true⟩)] } else x.1, cursorAt 0 .m0, ?_⟩
  revert h x
  unfold Acts Prompt
  decide +kernel

/-- `vlds`: the state of a base address with clusters 0 and 1 enabled. -/
def twoClusters (a : Nat) : State :=
  (memState a).modCore 0 fun k => { k with csr := [0x028, 0x02C].foldl (fun m n => kset 0 m n 3) k.csr }

/-- The lanes of a cluster, with the given stride, and whether a check of theirs is deferred. -/
def vldsLanes (s : State) (st : BitVec 32) (cl : Nat) : List W64 :=
  (s.active (cursorAt 0 .m0) cl).map fun i => laneAddr s (cursorAt 0 .m0) 1 0 st (cl, i)

/-- The check of a cluster's lanes. -/
def vldsCheck (s : State) (st : BitVec 32) (cl : Nat) : Option Failed :=
  checkEach s 0 Slot.m0.index .slots .read ((vldsLanes s st cl).map fun x => (x, 4, 4))

/-- Whether a cluster's result is deferred. -/
def vldsBad (s : State) (st : BitVec 32) (cl : Nat) : Bool :=
  decide (s.active (cursorAt 0 .m0) cl ≠ []) && ((s.sr (cursorAt 0 .m0) 1).df || (vldsCheck s st cl).any fun e => decide (e.1 ∈ defers))

theorem vldsBad_iff (s : State) (st : BitVec 32) (cl : Nat) : vldsBad s st cl = true ↔ (s.active (cursorAt 0 .m0) cl ≠ [] ∧
    ((s.sr (cursorAt 0 .m0) 1).df = true ∨ ∃ e, vldsCheck s st cl = some e ∧ e.1 ∈ defers)) := by
  simp only [vldsBad, Bool.and_eq_true, Bool.or_eq_true, decide_eq_true_eq]
  cases vldsCheck s st cl <;> simp

/-- Cluster 1 beyond an own buffer, misaligned at the home, both misaligned, none. -/
theorem witness_VectorDefers : ∀ x ∈ [(ownA + 131008, (64 : BitVec 32), ([1] : List Nat)), (0x7FFFFF0000, 66, [1]), (0x7FFFFF0002, 64, [0, 1]),
    (ownA, 64, [])],
    let s := twoClusters x.1
    Acts s (cursorAt 0 .m0) [.v 4, .s 1] ∧ Prompt s (cursorAt 0 .m0) ∧ s.enabled (cursorAt 0 .m0) = [0, 1] ∧
      [0, 1].filter (vldsBad s x.2.1) = x.2.2 ∧ (∀ cl ∈ [0, 1], vldsBad s x.2.1 cl = false → vldsCheck s x.2.1 cl = none) ∧
      s.oddPhys 0 4 (([0, 1].filter fun cl => !vldsBad s x.2.1 cl).flatMap (vldsLanes s x.2.1)) = none ∧ (s.core 0).ld < 256 ∧
      (s.core 0).storesOpen 8 = false := by
  intro x h
  simp only [List.mem_cons, List.not_mem_nil, or_false] at h
  unfold Acts Prompt
  obtain rfl | rfl | rfl | rfl := h <;> decide +kernel

theorem witness_Stores : ∀ own, ∀ i ∈ [Instr.st 4 1 .d, .stExt 4 1 .b 7, .stRel 4 1 .d .pkg, .stRelExt 4 1 .w .dom 8, .vst 4 1,
    .vstExt 4 1 4 (some 128), .vstx 4 1 5 2, .vstxExt 4 1 5 0 64],
    ∃ us rs vs n as row, storeForm i (memState (baseAt own)) (cursorAt 0 .m0) = some (us, rs, vs, n, as, row) ∧
      Ready (memState (baseAt own)) (cursorAt 0 .m0) .write own us rs vs n (as.map fun a => a.1) := by
  intro own i h
  have h : ((storeForm i (memState (baseAt own)) (cursorAt 0 .m0)).any fun x =>
      isReady (memState (baseAt own)) (cursorAt 0 .m0) .write own x.1 x.2.1 x.2.2.1 x.2.2.2.1 (x.2.2.2.2.1.map fun a => a.1)) = true := by
    revert h i
    cases own <;> exact List.all_eq_true.mp (by decide +kernel)
  obtain ⟨x, hx, h⟩ := some_of_any h
  exact ⟨_, _, _, _, _, _, hx, ready_of h⟩

/-- The same state with an unacknowledged store of bundle 3 to core 5's A buffer. -/
def memWaiting (a : Nat) : State :=
  (memState a).modCore 0 fun k => { k with
    outs := [{ someLoad false none with stPend := true, parts := [{ place := .buf 5 .a 0, addr := 0, g := false, n := 8, done := false, data := [] }] }]
    stNext := 1, outNext := 2 }

theorem witness_Stores_waits : ∃ s c, Acts s c (sUses [4, 1]) ∧ Clean s c [1, 4] ∧ Reaches s c .write 8 [baseAddr s c 1 0] ∧ Prompt s c ∧
    (s.core c.core).st < 256 ∧ waitsFor s c (scopeOf s c 8 [(baseAddr s c 1 0, [])] (some .pkg)) ≠ [] :=
  ⟨memWaiting 4096, cursorAt 0 .m0, by unfold Acts Clean Reaches Prompt; decide +kernel⟩

theorem witness_ScalarStoreWritesItsBytesOnly_own : ∃ (s : State) (c : Cursor) (b : Buf) (x : Nat), Acts s c (sUses [2, 1]) ∧
    Clean s c [1, 2] ∧ c.mw = [] ∧ Prompt s c ∧ Reaches s c .write 8 [baseAddr s c 1 0] ∧ TidyMemory s 0 ∧
    s.space c.core (baseAddr s c 1 0) 8 = .own b x :=
  ⟨memState (ownA + 131064), cursorAt 0 .m0, .a, 131064, by unfold Acts Clean Reaches Prompt TidyMemory; decide +kernel⟩

theorem witness_ScalarStoreWritesItsBytesOnly_home : ∃ (s : State) (c : Cursor) (p : Nat), Acts s c (sUses [2, 1]) ∧
    Clean s c [1, 2] ∧ c.mw = [] ∧ Prompt s c ∧ Reaches s c .write 8 [baseAddr s c 1 0] ∧ TidyMemory s 0 ∧
    placeOf s c .write 8 (baseAddr s c 1 0) = .phys p ∧ isControl p = false ∧ (s.core c.core).st < 256 :=
  ⟨memState 0x7FFFFFFFF8, cursorAt 0 .m0, 0x7FFFFFFFF8, by unfold Acts Clean Reaches Prompt TidyMemory; decide +kernel⟩

theorem witness_Atomics : ∀ own, ∀ i ∈ [Instr.amo 4 1 2 .min true, .cas 4 1 2 3 false, .vamo 4 1 5 .add],
    ∃ us rs vs n as d, atomicForm i (memState (baseAt own)) (cursorAt 0 .m0) = some (us, rs, vs, n, as, d) ∧
      Ready (memState (baseAt own)) (cursorAt 0 .m0) .atomic own us rs vs n (as.map fun a => a.1) := by
  intro own i h
  have h : ((atomicForm i (memState (baseAt own)) (cursorAt 0 .m0)).any fun x =>
      isReady (memState (baseAt own)) (cursorAt 0 .m0) .atomic own x.1 x.2.1 x.2.2.1 x.2.2.2.1 (x.2.2.2.2.1.map fun a => a.1)) = true := by
    revert h i
    cases own <;> exact List.all_eq_true.mp (by decide +kernel)
  obtain ⟨x, hx, h⟩ := some_of_any h
  exact ⟨_, _, _, _, _, _, hx, ready_of h⟩

theorem witness_AtomicResults : ∃ (s : State) (c : Cursor) (b : Buf) (x : Nat), Acts s c (sUses [4, 1, 2, 3]) ∧
    Clean s c [1, 2, 3] ∧ c.mw = [] ∧ Prompt s c ∧ Reaches s c .atomic 8 [val s c 1] ∧ s.space c.core (val s c 1) 8 = .own b x ∧
    TidyMemory s 0 :=
  ⟨memState (0xA000000000000000 + 65528), cursorAt 0 .m0, .r, 65528, by unfold Acts Clean Reaches Prompt TidyMemory; decide +kernel⟩

theorem witness_PrefetchVersionAndGridReads_pref : ∃ (s : State) (c : Cursor), Acts s c (sUses [1]) :=
  ⟨memState 5, cursorAt 0 .m0, by unfold Acts; decide⟩

theorem witness_PrefetchVersionAndGridReads_vldv : ∃ (s : State) (c : Cursor), Acts s c [.v 4, .s 1, .s 2] ∧ Clean s c [1, 2] ∧
    bits (val s c 1).toNat 60 4 = 0 ∧
    checkEach s c.core c.slot.index .slots .read ((val s c 1, 8, 64) ::
      ((laneList s c).map fun l => laneAddr s c 1 64 64 l).map fun x => (x, 4, 4)) = none ∧
    s.oddPhys c.core 8 [val s c 1] = none ∧ s.oddPhys c.core 4 ((laneList s c).map fun l => laneAddr s c 1 64 64 l) = none ∧
    s.enabled c ≠ [] ∧ Prompt s c ∧ (s.core c.core).ld < 256 ∧ (s.core c.core).storesOpen c.bn = false :=
  ⟨memState 4096, cursorAt 0 .m0, by unfold Acts Clean Prompt; decide⟩

theorem witness_PrefetchVersionAndGridReads_disabled : ∃ (s : State) (c : Cursor), Acts s c [.v 4, .s 1, .s 2] ∧ Clean s c [1, 2] ∧
    Acts s c [.grid 7, .v 4, .s 1, .s 2] ∧ s.enabled c = [] :=
  ⟨inSlot 0 { withRegs [4096, 1] with csr := kset 0 core8.csr 0x02C 0 } .m0, cursorAt 0 .m0, by unfold Acts Clean; decide⟩

theorem witness_PrefetchVersionAndGridReads_unbound : ∃ (s : State) (c : Cursor), Clean s c [1, 2] ∧ Acts s c [.grid 7, .s 4, .s 1, .s 2] ∧
    Acts s c [.grid 7, .v 4, .s 1, .s 2] ∧ s.enabled c ≠ [] ∧ ((s.core c.core).handle 7).pending = false ∧
    ((s.core c.core).handle 7).valid = false :=
  ⟨memState 0, cursorAt 0 .m0, by unfold Acts Clean; decide⟩

/-- A grid of one dimension and 16 cells of 4 bytes in one polder at 4096 of core 0's A buffer, without radii. -/
def someGrid : Grid :=
  { rank := 1, esize := 2, faultMode := false, berm := 4, sides := [0, 0, 0, 0], limit := 3, extents := [16, 1, 1, 1]
    counts := [1, 1, 1, 1], radii := [0, 0, 0, 0], dikes := [], const := 0, cuts := [[0, 16], [0, 1], [0, 1], [0, 1]]
    polders := [{ scratch := false, pkg := 0, unit := 0, base := 4096, fbase0 := 8192, fbase1 := 12288 }] }

/-- Core 0 with that grid bound to handle 7, and the coordinate of s1. -/
def gridState (x step : Nat) : State :=
  inSlot 0 { oneCluster (withRegs [x, step]) with
    handles := [(7, { Handle.none with valid := true, grid := some someGrid, polder := 0 })] } .m0

theorem witness_PrefetchVersionAndGridReads_ldg : ∃ (s : State) (c : Cursor) (g : Grid) (ref : CellRef),
    let hd := (s.core c.core).handle 7
    hd.pending = false ∧ hd.valid = true ∧ hd.grid = some g ∧ Clean s c [1, 2] ∧ (s.core c.core).ld < 256 ∧
    (s.core c.core).storesOpen c.bn = false ∧ Prompt s c ∧
    Acts s c [.grid 7, .s 4, .s 1, .s 2] ∧
    cellRef g hd.polder ((val s c 2).toNat % 2 ^ 48) (coordsOf (val s c 1)) = some ref ∧ ref.region = none ∧
    checkEach s c.core c.slot.index .slots .read [(ref.addr, g.elem, g.elem)] = none :=
  ⟨gridState 15 1, cursorAt 0 .m0, someGrid, ⟨0x900000000000103C, none⟩, rfl, rfl, rfl, by unfold Clean; decide, by decide, by decide,
    by unfold Prompt; decide, by unfold Acts; decide, rfl, by decide, by decide⟩

theorem witness_PrefetchVersionAndGridReads_vldg : ∃ (s : State) (c : Cursor) (g : Grid) (refs : List CellRef),
    let hd := (s.core c.core).handle 7
    hd.pending = false ∧ hd.valid = true ∧ hd.grid = some g ∧ Clean s c [1, 2] ∧
    Acts s c [.grid 7, .v 4, .s 1, .s 2] ∧ g.esize = 2 ∧ refs ≠ [] ∧ Prompt s c ∧
    ((laneList s c).map (laneCoords (val s c 1))).mapM (cellRef g hd.polder ((val s c 2).toNat % 2 ^ 48)) = some refs ∧
    (∀ ref ∈ refs, ref.region = none) ∧
    checkEach s c.core c.slot.index .slots .read (refs.map fun ref => (ref.addr, g.elem, g.elem)) = none :=
  ⟨gridState 0 1, cursorAt 0 .m0, someGrid, (List.range 16).map fun l => ⟨BitVec.ofNat 64 (ownA + 4096 + 4 * l), none⟩, rfl, rfl, rfl,
    by unfold Clean; decide, by unfold Acts; decide, rfl, by decide, by unfold Prompt; decide, by decide, by decide, by decide⟩

theorem witness_MemoryChecksTrap_limit : ∃ (s : State) (c : Cursor), s.cur = some c ∧ (Use.s 32).over (s.hlim c) = true :=
  ⟨inSlot 0 { core8 with csr := kset 0 core8.csr 0x060 32 } .m0, cursorAt 0 .m0, by decide⟩

theorem witness_MemoryChecksTrap_fault : ∃ (s : State) (c : Cursor), Acts s c (sUses [4, 1]) ∧ (s.sr c 1).df = true :=
  ⟨inSlot 0 { core8 with sregs := [(1, ⟨64, true⟩)] } .m0, cursorAt 0 .m0, by unfold Acts; decide⟩

theorem witness_MemoryChecksTrap_checks : ∀ x ∈ [(2 ^ 63 + 196608, Cause.addressSpace), (2 ^ 63, .bufferRight), (ownA + 4, .alignment)],
    ∃ (s : State) (c : Cursor) (v : W64), Acts s c (sUses [4, 1]) ∧ Clean s c [1, 4] ∧
      checkEach s c.core c.slot.index .slots .write [(baseAddr s c 1 0, szBytes .d, szBytes .d)] = some (x.2, v) := by
  intro x h
  simp only [List.mem_cons, List.not_mem_nil, or_false] at h
  obtain rfl | rfl | rfl := h
  · exact ⟨memState (2 ^ 63 + 196608), cursorAt 0 .m0, _, by unfold Acts; decide, by unfold Clean; decide, rfl⟩
  · exact ⟨memState (2 ^ 63), cursorAt 0 .m0, _, by unfold Acts; decide, by unfold Clean; decide, rfl⟩
  · exact ⟨memState (ownA + 4), cursorAt 0 .m0, _, by unfold Acts; decide, by unfold Clean; decide, rfl⟩

/-- A grid of 32 cells in two polders with forelands of radius 1. -/
def ringGrid : Grid :=
  { someGrid with
    extents := [32, 1, 1, 1], counts := [2, 1, 1, 1], radii := [1, 0, 0, 0], cuts := [[0, 16, 32], [0, 1], [0, 1], [0, 1]]
    polders := someGrid.polders ++ [{ scratch := false, pkg := 0, unit := 1, base := 4096, fbase0 := 8192, fbase1 := 12288 }] }

/-- Core 0 with that grid bound to handle 7 as its polder 0, the coordinate `x` in s1 and the step 5 in s2; the tag of the foreland's slot. -/
def foreState (x : Nat) (tag : Option Nat) : State :=
  let k : Core := { oneCluster (withRegs [x, 5]) with
    handles := [(7, { Handle.none with valid := true, grid := some ringGrid, polder := 0, desc := 64 })] }
  let s := inSlot 0 k .m0
  { s with hub := { s.hub with polders := [{ key := (0, 64, 0), owner := some 0, grid := ringGrid, published := none
                                             tags := (tag.map fun m => (5, m)).toList, times := [(5, 9)], marks := []
                                             wrote := [], leaving := false }] } }

/-- The foreland cells of a read (lane 0 alone of `ldg`; lanes 12 to 15 of `vldg`), with a tag of the step, of a later one, of an earlier one,
and none: all may be read, one is ahead, or one is stale. -/
theorem witness_ForelandReads : ∀ x ∈ [(some 4, some 4), (some 8, some 8), (some 0, some 0), (none, none)],
    ∀ i ∈ [(Instr.ldg 4 1 2 7 true, 16), (.vldg 4 1 2 7, 4)],
    let s := foreState i.2 x.1
    let c := cursorAt 0 .m0
    ∃ y refs, gridForm i.1 s c = some y ∧ (∀ u ∈ y.2.2.2.1, u.over (s.hlim c) = false) ∧ s.cur = some c ∧
    (∀ r ∈ ([1, 2] : List Reg), (s.sr c r.val).df = false) ∧ s.enabled c ≠ [] ∧ ringGrid.esize = 2 ∧
    ((s.core 0).handle 7).pending = false ∧ ((s.core 0).handle 7).valid = true ∧ ((s.core 0).handle 7).grid = some ringGrid ∧
    y.2.2.2.2.1.mapM (cellRef ringGrid 0 5) = some refs ∧ (refs.filterMap fun r => r.region).eraseDups = [2] ∧
    stepAt (((s.polder 0 64 0).map fun y => y.tags).getD []) 5 = x.2 ∧
    checkEach s 0 c.slot.index .slots .read (refs.map fun ref => (ref.addr, 4, 4)) = none := by
  intro x h i h1
  simp only [List.mem_cons, List.not_mem_nil, or_false] at h h1
  obtain rfl | rfl | rfl | rfl := h <;> obtain rfl | rfl := h1 <;> exact ⟨_, _, rfl, by decide, rfl, by decide, by decide, rfl, rfl, rfl, rfl, rfl, by decide, by decide, by decide⟩

/-- A pending handle, a handle whose elements have 8 bytes, and a cell outside the forelands. -/
theorem witness_GridReadsChecked : ∀ x ∈ [(true, 2, 16), (false, 3, 16), (false, 2, 20)],
    let s := (foreState x.2.2 none).modCore 0 fun k => { k with
      handles := [(7, { Handle.none with pending := x.1, valid := !x.1, grid := some { ringGrid with esize := x.2.1 }, polder := 0, desc := 64 })] }
    let c := cursorAt 0 .m0
    Acts s c [.s 4, .s 1, .s 2, .grid 7] ∧ Acts s c [.v 4, .s 1, .s 2, .grid 7] ∧ Clean s c [1, 2] ∧ s.enabled c ≠ [] ∧
    ((s.core 0).handle 7).pending = x.1 ∧ ((s.core 0).handle 7).valid = !x.1 ∧
    ((x.2.2 = 20) ↔ ([coordsOf (val s c 1)].mapM (cellRef { ringGrid with esize := x.2.1 } 0 5)).isNone = true) := by
  unfold Acts Clean
  decide

/-- The state of the checks' witnesses: s1 and the lanes of v4 and v5 as given, with the declarations of 64 registers of each kind. -/
def checkState (a : Nat) (df vdf : Bool) (lim : Option Nat) : State :=
  (memState a).modCore 0 fun k => { k with
    sregs := if df then [(1, ⟨BitVec.ofNat 64 a, true⟩)] else k.sregs
    vdf := if vdf then [(4, true), (5, true)] else []
    csr := (lim.map fun n => kset 0 k.csr 0x060 (BitVec.ofNat 64 n)).getD k.csr }

/-- What the checks of a memory form look at. -/
def formOf (i : Instr) (s : State) (c : Cursor) : Option (List Use × List Reg × List Reg × Nat × List W64 × Access) :=
  ((loadForm i s c).map fun x => (x.1, x.2.1, x.2.2.1, x.2.2.2.1, x.2.2.2.2.1, .read)).orElse fun _ =>
    ((storeForm i s c).map fun x => (x.1, x.2.1, x.2.2.1, x.2.2.2.1, x.2.2.2.2.1.map fun a => a.1, .write)).orElse fun _ =>
      (atomicForm i s c).map fun x => (x.1, x.2.1, x.2.2.1, x.2.2.2.1, x.2.2.2.2.1.map fun a => a.1, .atomic)

/-- The memory forms whose checks trap. -/
def checkedForms : List Instr :=
  [.ld 4 1 .d, .ldExt 4 1 .b 7, .ldAcq 4 1 .d .pkg, .ldAcqExt 4 1 .w .dom 8, .vld 4 1, .vldExt 4 1 4 (some 128), .vldx 4 1 5 2,
    .vldxExt 4 1 5 0 64, .st 4 1 .d, .stExt 4 1 .b 7, .stRel 4 1 .d .pkg, .stRelExt 4 1 .w .dom 8, .vst 4 1, .vstExt 4 1 4 (some 128),
    .vstx 4 1 5 2, .vstxExt 4 1 5 0 64, .amo 4 1 2 .min true, .cas 4 1 2 3 false, .vamo 4 1 5 .add]

theorem witness_MemoryChecksTrap_limits : ∀ i ∈ checkedForms, let s := checkState ownA false false (some 0)
    s.cur = some (cursorAt 0 .m0) ∧ (formOf i s (cursorAt 0 .m0)).any fun x => (x.1.find? fun u => u.over (s.hlim (cursorAt 0 .m0))).isSome := by
  intro i h
  refine ⟨rfl, ?_⟩
  revert h i
  exact List.all_eq_true.mp (by decide +kernel)

theorem witness_MemoryChecksTrap_df : ∀ i ∈ checkedForms, let s := checkState ownA true false none
    s.cur = some (cursorAt 0 .m0) ∧ s.enabled (cursorAt 0 .m0) ≠ [] ∧ (formOf i s (cursorAt 0 .m0)).any fun x =>
      x.1.all (fun u => !u.over (s.hlim (cursorAt 0 .m0))) && (x.2.1.find? fun r => (s.sr (cursorAt 0 .m0) r.val).df) == some 1 := by
  intro i h
  refine ⟨rfl, by decide, ?_⟩
  revert h i
  exact List.all_eq_true.mp (by decide +kernel)

theorem witness_MemoryChecksTrap_vdf : ∀ i ∈ [Instr.vldx 4 1 5 2, .vldxExt 4 1 5 0 64, .vst 4 1, .vstExt 4 1 4 (some 128), .vstx 4 1 5 2,
    .vstxExt 4 1 5 0 64, .vamo 4 1 5 .add], let s := checkState ownA false true none
    s.cur = some (cursorAt 0 .m0) ∧ (formOf i s (cursorAt 0 .m0)).any fun x =>
      x.1.all (fun u => !u.over (s.hlim (cursorAt 0 .m0))) && x.2.1.all (fun r => !(s.sr (cursorAt 0 .m0) r.val).df) &&
      (x.2.2.1.find? fun r => !((s.enabled (cursorAt 0 .m0)).filter fun cl => s.vf (cursorAt 0 .m0) cl r.val).isEmpty).isSome := by
  intro i h
  refine ⟨rfl, ?_⟩
  revert h i
  exact List.all_eq_true.mp (by decide +kernel)

theorem witness_MemoryChecksTrap_address : ∀ i ∈ checkedForms, let s := checkState (ownA + 131072) false false none
    s.cur = some (cursorAt 0 .m0) ∧ (formOf i s (cursorAt 0 .m0)).any fun x =>
      x.1.all (fun u => !u.over (s.hlim (cursorAt 0 .m0))) && x.2.1.all (fun r => !(s.sr (cursorAt 0 .m0) r.val).df) &&
      x.2.2.1.all (fun r => (s.enabled (cursorAt 0 .m0)).all fun cl => !s.vf (cursorAt 0 .m0) cl r.val) &&
      (checkEach s 0 Slot.m0.index .slots x.2.2.2.2.2 (x.2.2.2.2.1.map fun a => (a, x.2.2.2.1, x.2.2.2.1))).isSome := by
  intro i h
  refine ⟨rfl, ?_⟩
  revert h i
  exact List.all_eq_true.mp (by decide +kernel)

/-- `vldv` with a deferred fault, a version word in a buffer, and a misaligned one; a grid read with a deferred fault. -/
theorem witness_MemoryChecksTrap_vldv : ∀ x ∈ [(ownA, true), (ownA, false), (4097, false)],
    let s := checkState x.1 x.2 false none
    let c := cursorAt 0 .m0
    Acts s c [.v 4, .s 1, .s 2] ∧ s.enabled c ≠ [] ∧ Acts s c [.s 4, .s 1, .s 2, .grid 7] ∧ Acts s c [.v 4, .s 1, .s 2, .grid 7] ∧
    (([1, 2] : List Reg).find? fun r => (s.sr c r.val).df) = (if x.2 then some 1 else none) ∧
    (x.1 = 4097 → bits (val s c 1).toNat 60 4 = 0 ∧ (checkEach s 0 c.slot.index .slots .read
      ((val s c 1, 8, 64) :: ((laneList s c).map fun l => laneAddr s c 1 64 64 l).map fun x => (x, 4, 4))).isSome = true) := by
  unfold Acts
  decide +kernel

theorem witness_AddressesWithoutMemoryStop : ∃ (s : State) (c : Cursor) (p : Nat), Acts s c (sUses [4, 1]) ∧ Clean s c [1, 4] ∧
    s.oddPhys c.core 8 [baseAddr s c 1 0] = some p ∧
    checkEach s c.core c.slot.index .slots .read [(baseAddr s c 1 0, 8, 8)] = none ∧
    checkEach s c.core c.slot.index .slots .write [(baseAddr s c 1 0, 8, 8)] = none :=
  ⟨memState 0x50000000000, cursorAt 0 .m0, 0x50000000000, by unfold Acts Clean; decide⟩

/-- LMODE of column 7, the last TDISP word and the last window register (R192, R327, R348). -/
theorem witness_AddressesWithoutMemoryStop_control : ∀ x ∈ [(0x60000700100, CtlReg.lmode 7, MemSize.w), (0x6004001FFC0, .tdisp 2047, .d),
    (0x60080000078, .window 15, .d)],
    ∃ (s : State) (c : Cursor), Acts s c (sUses [4, 1]) ∧ Clean s c [1, 4] ∧ Prompt s c ∧
      placeOf s c .read (szBytes x.2.2) (baseAddr s c 1 0) = .phys x.1 ∧ placeOf s c .write (szBytes x.2.2) (baseAddr s c 1 0) = .phys x.1 ∧
      (s.core c.core).ctx = 0 ∧ isControl x.1 = true ∧ ctlReg x.1 = some (x.2.1, x.1, szBytes x.2.2) ∧
      Reaches s c .read (szBytes x.2.2) [baseAddr s c 1 0] ∧ Reaches s c .write (szBytes x.2.2) [baseAddr s c 1 0] ∧
      (s.core c.core).ld < 256 ∧ (s.core c.core).st < 256 := by
  intro x h
  refine ⟨memState x.1, cursorAt 0 .m0, ?_⟩
  unfold Acts Clean Prompt Reaches
  simp only [List.mem_cons, List.not_mem_nil, or_false] at h
  obtain rfl | rfl | rfl := h <;> decide +kernel

/-- A near tier with one dirty line and one clean line. -/
def someTier : MemSys :=
  { MemSys.init with
    mem := [(128, 7)]
    lines := [(1, { dirty := true, data := List.replicate 64 9 }), (2, { dirty := false, data := 7 :: List.replicate 63 0 })] }

theorem witness_HomeServesEveryByteOnce : ∃ (ms : MemSys), Memory.wf ms.mem ∧ ms.lines ≠ [] ∧
    ∀ e ∈ ms.lines, e.2.data.length = 64 ∧ (e.2.dirty = false → e.2.data = mread ms.mem (e.1 * 64) 64) :=
  ⟨someTier, by decide⟩
set_option linter.unusedSimpArgs false

/-! ### Engine operations at dispatch -/

/-- 128 bytes of a shape record: 64 elements in tiles of 16, the rest as given (R280). -/
def recordBytes (base ty layout rank str ext1 mbase : Nat) : List Byte :=
  leBytes 8 base ++ leBytes 8 (ty + rank * 16 + layout * 256) ++ leBytes 4 64 ++ leBytes 4 ext1 ++
    (List.range 3).flatMap (fun _ => leBytes 4 1) ++ leBytes 4 0 ++ leBytes 8 str ++ leBytes 8 (if rank = 1 then 0 else 64) ++
    leBytes 24 0 ++ leBytes 2 16 ++ (List.range 4).flatMap (fun _ => leBytes 2 1) ++ leBytes 6 0 ++ leBytes 8 (if layout = 1 then 4096 else 0) ++
    leBytes 8 mbase ++ leBytes 8 (if layout = 2 then 64 else 0) ++ leBytes 8 0

/-- Records in the record cache of the core, by their addresses: dense, sparse, in planes, a table, in the A buffer. -/
def someRecords : List (W64 × List Byte) :=
  [(0x1000, recordBytes 0x10000 0 0 1 1 1 0), (0x1080, recordBytes 0x20000 0 0 1 1 1 0), (0x1100, recordBytes 0x30000 0 2 1 1 1 0x40000),
    (0x1180, recordBytes 0x50000 8 1 1 0 1 0), (0x1200, recordBytes 0x60000 8 1 1 0 1 0), (0x1280, recordBytes 0x70000 8 1 1 0 1 0),
    (0x1300, recordBytes 0x80000 0 0 2 1 4 0), (0x1380, recordBytes ownA 0 0 1 1 1 0)]

/-- Core 0 with registers, those records and endpoint 5 of its context, executing slot A or X. -/
def engState (slot : Slot) (rs : List Nat) : State :=
  let k : Core := { withRegs rs with records := someRecords, handles := [(7, { Handle.none with valid := true, grid := some someGrid })] }
  let s := inSlot 0 k slot
  { s with
    cores := [(0, k), (1, core8)]
    hub := { s.hub with endpoints := [(5, { valid := true, ctx := 0, col := 0 })] } }

/-- What the hypotheses of a dispatch ask. -/
def OpReady (f : Instr → State → Cursor → Option Op) (i : Instr) (slot : Slot) (rs : List Nat) : Prop :=
  ∃ o, f i (engState slot rs) (cursorAt 0 slot) = some o ∧ Enters (engState slot rs) (cursorAt 0 slot) o.us o.rs o.q o.tw ∧ o.ok

/-- The same of an operation with shape records. -/
def RecordReady (i : Instr) (rs : List Nat) : Prop :=
  ∃ (o : RecordOp) (t : State) (bss : List (List Byte)), recordOp i (engState .a rs) (cursorAt 0 .a) = some o ∧
    Enters (engState .a rs) (cursorAt 0 .a) o.us o.rs o.q o.tw ∧
    lookRecords (engState .a rs) (cursorAt 0 .a) o.recs (engState .a rs) = .ok (some (t, bss)) ∧ o.ok (bss.map readShape)

theorem witness_Matrix_mmz : OpReady matrixOp (.mmz 1 tok1) .x [0xa00000000000f000] :=
  ⟨_, rfl, by unfold Enters Acts Clean; decide, by first | trivial | (unfold Open; decide) | decide | (simp only [Open, endpointOf, wellFormedMatch, wellFormedMask]; decide)⟩

theorem witness_Matrix_mcvt : OpReady matrixOp (.mcvt 1 2 9 0 tok1) .x [0xa000000000002000, 0xa000000000000000] :=
  ⟨_, rfl, by unfold Enters Acts Clean; decide, by first | trivial | (unfold Open; decide) | decide | (simp only [Open, endpointOf, wellFormedMatch, wellFormedMask]; decide)⟩

theorem witness_Matrix_mtr : OpReady matrixOp (.mtr 1 2 0 0 tok1) .x [0xa000000000002000, 0x9000000000000000] :=
  ⟨_, rfl, by unfold Enters Acts Clean; decide, by first | trivial | (unfold Open; decide) | decide | (simp only [Open, endpointOf, wellFormedMatch, wellFormedMask]; decide)⟩

theorem witness_Matrix_macc : OpReady matrixOp (.macc 1 2 9 tok1) .x [0xa000000000000000, 0x9000000000000000] :=
  ⟨_, rfl, by unfold Enters Acts Clean; decide, by first | trivial | (unfold Open; decide) | decide | (simp only [Open, endpointOf, wellFormedMatch, wellFormedMask]; decide)⟩

theorem witness_Matrix_mma : OpReady matrixOp (.mma 1 2 3 0 false 0 8 9 9 1 0 0 tok1) .x [0x9000000000000000, 0x8000000000000000, 0xa000000000000000] :=
  ⟨_, rfl, by unfold Enters Acts Clean; decide, by first | trivial | (unfold Open; decide) | decide | (simp only [Open, endpointOf, wellFormedMatch, wellFormedMask]; decide)⟩

theorem witness_Matrix_mma_sparse : OpReady matrixOp (.mma 1 2 3 0 true 0 0 10 10 0 4 5 tok1) .x [0x9000000000000000, 0x8000000000000000, 0xa000000000000000, 0xa000000000002000, 0x8000000000010000] :=
  ⟨_, rfl, by unfold Enters Acts Clean; decide, by first | trivial | (unfold Open; decide) | decide | (simp only [Open, endpointOf, wellFormedMatch, wellFormedMask]; decide)⟩

theorem witness_Matrix_mps : OpReady matrixOp (.mps 63 .ab) .x [] :=
  ⟨_, rfl, by unfold Enters Acts Clean; decide, by first | trivial | (unfold Open; decide) | decide | (simp only [Open, endpointOf, wellFormedMatch, wellFormedMask]; decide)⟩

theorem witness_Matrix_mscl : OpReady matrixOp (.mscl 1 1 63) .x [0x1000] :=
  ⟨_, rfl, by unfold Enters Acts Clean; decide, by first | trivial | (unfold Open; decide) | decide | (simp only [Open, endpointOf, wellFormedMatch, wellFormedMask]; decide)⟩

theorem witness_Layer_gath : OpReady layerOp (.gath 1 2 3 4 false tok1) .a [0, 0x1300, 0, 0] :=
  ⟨_, rfl, by unfold Enters Acts Clean; decide, by first | trivial | (unfold Open; decide) | decide | (simp only [Open, endpointOf, wellFormedMatch, wellFormedMask]; decide)⟩

theorem witness_Layer_scat : OpReady layerOp (.scat 1 2 3 4 true tok1) .a [0, 0x1300, 0, 0] :=
  ⟨_, rfl, by unfold Enters Acts Clean; decide, by first | trivial | (unfold Open; decide) | decide | (simp only [Open, endpointOf, wellFormedMatch, wellFormedMask]; decide)⟩

theorem witness_Layer_bankop_zero : OpReady layerOp (.bankop 1 2 3 .zero tok1) .a [0x7ffffff000, 1, 0x1000] :=
  ⟨_, rfl, by unfold Enters Acts Clean; decide, by first | trivial | (unfold Open; decide) | decide | (simp only [Open, endpointOf, wellFormedMatch, wellFormedMask]; decide)⟩

theorem witness_Layer_bankop_copy : OpReady layerOp (.bankop 1 2 3 .copy tok1) .a [0x10000, 0x20000, 0xfffff000] :=
  ⟨_, rfl, by unfold Enters Acts Clean; decide, by first | trivial | (unfold Open; decide) | decide | (simp only [Open, endpointOf, wellFormedMatch, wellFormedMask]; decide)⟩

theorem witness_Layer_lfence : OpReady layerOp (.lfence 1 2 tok1) .a [0, 0x40] :=
  ⟨_, rfl, by unfold Enters Acts Clean; decide, by first | trivial | (unfold Open; decide) | decide | (simp only [Open, endpointOf, wellFormedMatch, wellFormedMask]; decide)⟩

theorem witness_Layer_fence : OpReady layerOp (.fence .dom tok1) .a [] :=
  ⟨_, rfl, by unfold Enters Acts Clean; decide, by first | trivial | (unfold Open; decide) | decide | (simp only [Open, endpointOf, wellFormedMatch, wellFormedMask]; decide)⟩

theorem witness_Layer_nflush : OpReady layerOp (.nflush 1 tok1) .a [0xffff] :=
  ⟨_, rfl, by unfold Enters Acts Clean; decide, by first | trivial | (unfold Open; decide) | decide | (simp only [Open, endpointOf, wellFormedMatch, wellFormedMask]; decide)⟩

theorem witness_Layer_cpyB : OpReady layerOp (.cpyB 1 2 3 tok1) .a [0x10000, 0x11000, 0x1000] :=
  ⟨_, rfl, by unfold Enters Acts Clean; decide, by first | trivial | (unfold Open; decide) | decide | (simp only [Open, endpointOf, wellFormedMatch, wellFormedMask]; decide)⟩

theorem witness_Layer_cpyB_none : OpReady layerOp (.cpyB 1 2 3 tok1) .a [5, 6, 0] :=
  ⟨_, rfl, by unfold Enters Acts Clean; decide, by first | trivial | (unfold Open; decide) | decide | (simp only [Open, endpointOf, wellFormedMatch, wellFormedMask]; decide)⟩

theorem witness_Sync_slotrel : OpReady syncOp (.slotrel 1 15 tok1) .a [0xff] :=
  ⟨_, rfl, by unfold Enters Acts Clean; decide, by first | trivial | (unfold Open; decide) | decide | (simp only [Open, endpointOf, wellFormedMatch, wellFormedMask]; decide)⟩

theorem witness_Sync_bar_init : OpReady syncOp (.bar .init false 0 2 15 tok1) .a [0, 0xffff] :=
  ⟨_, rfl, by unfold Enters Acts Clean; decide, by first | trivial | (unfold Open; decide) | decide | (simp only [Open, endpointOf, wellFormedMatch, wellFormedMask]; decide)⟩

theorem witness_Sync_bar_arr : OpReady syncOp (.bar .arr false 0 0 0 tok1) .a [] :=
  ⟨_, rfl, by unfold Enters Acts Clean; decide, by first | trivial | (unfold Open; decide) | decide | (simp only [Open, endpointOf, wellFormedMatch, wellFormedMask]; decide)⟩

theorem witness_Sync_bar_remote : OpReady syncOp (.bar .arrexp true 1 2 15 tok1) .a [1, 3] :=
  ⟨_, rfl, by unfold Enters Acts Clean; decide, by first | trivial | (unfold Open; decide) | decide | (simp only [Open, endpointOf, wellFormedMatch, wellFormedMask]; decide)⟩

theorem witness_Sync_vpub : OpReady syncOp (.vpub 1 2 tok1) .a [0x40, 1] :=
  ⟨_, rfl, by unfold Enters Acts Clean; decide, by first | trivial | (unfold Open; decide) | decide | (simp only [Open, endpointOf, wellFormedMatch, wellFormedMask]; decide)⟩

theorem witness_Sync_grel : OpReady syncOp (.grel 7 1 tok1) .a [2] :=
  ⟨_, rfl, by unfold Enters Acts Clean; decide, by first | trivial | (unfold Open; decide) | decide | (simp only [Open, endpointOf, wellFormedMatch, wellFormedMask]; decide)⟩

theorem witness_Sync_sealCap : OpReady syncOp (.sealCap 1 2 tok1) .a [0x9000000000000020, 0] :=
  ⟨_, rfl, by unfold Enters Acts Clean; decide, by first | trivial | (unfold Open; decide) | decide | (simp only [Open, endpointOf, wellFormedMatch, wellFormedMask]; decide)⟩

theorem witness_Sync_wake : OpReady syncOp (.wake 1 2 tok1) .a [0x10000, 1] :=
  ⟨_, rfl, by unfold Enters Acts Clean; decide, by first | trivial | (unfold Open; decide) | decide | (simp only [Open, endpointOf, wellFormedMatch, wellFormedMask]; decide)⟩

theorem witness_Sync_slotld : OpReady syncOp (.slotld 1 2 tok1) .a [0x810, 0x4000] :=
  ⟨_, rfl, by unfold Enters Acts Clean; decide, by first | trivial | (unfold Open; decide) | decide | (simp only [Open, endpointOf, wellFormedMatch, wellFormedMask]; decide)⟩

theorem witness_Sync_grpset : OpReady syncOp (.grpset 1 2 tok1) .a [0x10034, 0] :=
  ⟨_, rfl, by unfold Enters Acts Clean; decide, by first | trivial | (unfold Open; decide) | decide | (simp only [Open, endpointOf, wellFormedMatch, wellFormedMask]; decide)⟩

theorem witness_Sync_tlbinv : OpReady syncOp (.tlbinv 1 2 3 tok1) .a [0x2ffff, 0, 0] :=
  ⟨_, rfl, by unfold Enters Acts Clean; decide, by first | trivial | (unfold Open; decide) | decide | (simp only [Open, endpointOf, wellFormedMatch, wellFormedMask]; decide)⟩

theorem witness_Message_send : OpReady messageOp (.send 1 2 3 true tok1) .a [0x5000000000000, 0x10000, 0x1000000] :=
  ⟨_, rfl, by unfold Enters Acts Clean; decide, by first | trivial | (unfold Open; decide) | decide | (simp only [Open, endpointOf, wellFormedMatch, wellFormedMask]; decide)⟩

theorem witness_Message_send_empty : OpReady messageOp (.send 1 2 3 true tok1) .a [0x5000000000000, 0, 0] :=
  ⟨_, rfl, by unfold Enters Acts Clean; decide, by first | trivial | (unfold Open; decide) | decide | (simp only [Open, endpointOf, wellFormedMatch, wellFormedMask]; decide)⟩

theorem witness_Message_rcancel : OpReady messageOp (.rcancel 3 1 tok1) .a [] :=
  ⟨_, rfl, by unfold Enters Acts Clean; decide, by first | trivial | (unfold Open; decide) | decide | (simp only [Open, endpointOf, wellFormedMatch, wellFormedMask]; decide)⟩

theorem witness_Message_rprobe : OpReady messageOp (.rprobe 62 1 2 tok1) .a [0x5000000000000, 0] :=
  ⟨_, rfl, by unfold Enters Acts Clean; decide, by first | trivial | (unfold Open; decide) | decide | (simp only [Open, endpointOf, wellFormedMatch, wellFormedMask]; decide)⟩

theorem witness_Message_ringpop : OpReady messageOp (.ringpop 62 7 true tok1) .a [] :=
  ⟨_, rfl, by unfold Enters Acts Clean; decide, by first | trivial | (unfold Open; decide) | decide | (simp only [Open, endpointOf, wellFormedMatch, wellFormedMask]; decide)⟩

theorem witness_Message_launch : OpReady messageOp (.launch 3 1 true tok1) .a [0x4000] :=
  ⟨_, rfl, by unfold Enters Acts Clean; decide, by first | trivial | (unfold Open; decide) | decide | (simp only [Open, endpointOf, wellFormedMatch, wellFormedMask]; decide)⟩

theorem witness_Message_chunk : OpReady messageOp (.chunk 62 tok1) .a [] :=
  ⟨_, rfl, by unfold Enters Acts Clean; decide, by first | trivial | (unfold Open; decide) | decide | (simp only [Open, endpointOf, wellFormedMatch, wellFormedMask]; decide)⟩

theorem witness_Sequence_sqadm : OpReady sequenceOp (.sqadm 7 3 1 tok1) .a [1] :=
  ⟨_, rfl, by unfold Enters Acts Clean; decide, by first | trivial | (unfold Open; decide) | decide | (simp only [Open, endpointOf, wellFormedMatch, wellFormedMask]; decide)⟩

theorem witness_Sequence_sqtree : OpReady sequenceOp (.sqtree 7 3 1 2 tok1) .a [1, 2] :=
  ⟨_, rfl, by unfold Enters Acts Clean; decide, by first | trivial | (unfold Open; decide) | decide | (simp only [Open, endpointOf, wellFormedMatch, wellFormedMask]; decide)⟩

theorem witness_Sequence_sqvrd : OpReady sequenceOp (.sqvrd 0 1 2 tok1) .a [1, 2] :=
  ⟨_, rfl, by unfold Enters Acts Clean; decide, by first | trivial | (unfold Open; decide) | decide | (simp only [Open, endpointOf, wellFormedMatch, wellFormedMask]; decide)⟩

theorem witness_Sequence_sqacc : OpReady sequenceOp (.sqacc 0 3 1 tok1) .a [1] :=
  ⟨_, rfl, by unfold Enters Acts Clean; decide, by first | trivial | (unfold Open; decide) | decide | (simp only [Open, endpointOf, wellFormedMatch, wellFormedMask]; decide)⟩

theorem witness_Sequence_sqret : OpReady sequenceOp (.sqret 0 3 1 tok1) .a [1] :=
  ⟨_, rfl, by unfold Enters Acts Clean; decide, by first | trivial | (unfold Open; decide) | decide | (simp only [Open, endpointOf, wellFormedMatch, wellFormedMask]; decide)⟩

theorem witness_Sequence_sqpre : OpReady sequenceOp (.sqpre 0 3 1 true tok1) .a [1] :=
  ⟨_, rfl, by unfold Enters Acts Clean; decide, by first | trivial | (unfold Open; decide) | decide | (simp only [Open, endpointOf, wellFormedMatch, wellFormedMask]; decide)⟩

theorem witness_Sequence_sqres : OpReady sequenceOp (.sqres 0 3 1 tok1) .a [1] :=
  ⟨_, rfl, by unfold Enters Acts Clean; decide, by first | trivial | (unfold Open; decide) | decide | (simp only [Open, endpointOf, wellFormedMatch, wellFormedMask]; decide)⟩

theorem witness_Sequence_sqkvAddr : OpReady sequenceOp (.sqkvAddr 0 3 1 2 tok1) .a [1, 2] :=
  ⟨_, rfl, by unfold Enters Acts Clean; decide, by first | trivial | (unfold Open; decide) | decide | (simp only [Open, endpointOf, wellFormedMatch, wellFormedMask]; decide)⟩

theorem witness_Sequence_sqkvAdv : OpReady sequenceOp (.sqkvAdv 0 3 1 2 tok1) .a [1, 2] :=
  ⟨_, rfl, by unfold Enters Acts Clean; decide, by first | trivial | (unfold Open; decide) | decide | (simp only [Open, endpointOf, wellFormedMatch, wellFormedMask]; decide)⟩

theorem witness_Sequence_sqbat : OpReady sequenceOp (.sqbat 0 3 1 2 tok1) .a [0x9000000000000040, 0x4000000000] :=
  ⟨_, rfl, by unfold Enters Acts Clean; decide, by first | trivial | (unfold Open; decide) | decide | (simp only [Open, endpointOf, wellFormedMatch, wellFormedMask]; decide)⟩

theorem witness_Record_cpy : RecordReady (.cpy 1 2 3 tok1) [0x1000, 0x1080, 3] :=
  ⟨_, _, _, rfl, by unfold Enters Acts Clean; decide, rfl, by simp only [List.map, copyOk, Claims.pairOk, tileOk, rowsOk, Open, endpointOf, wellFormedMatch, wellFormedMask]; decide⟩

theorem witness_Record_cpysp : RecordReady (.cpysp 1 2 3 tok1) [0x1000, 0x1100, 3] :=
  ⟨_, _, _, rfl, by unfold Enters Acts Clean; decide, rfl, by simp only [List.map, copyOk, Claims.pairOk, tileOk, rowsOk, Open, endpointOf, wellFormedMatch, wellFormedMask]; decide⟩

theorem witness_Record_cpypl : RecordReady (.cpypl 1 2 3 15 none tok1) [0x1180, 0x1200, 0x300000000] :=
  ⟨_, _, _, rfl, by unfold Enters Acts Clean; decide, rfl, by simp only [List.map, copyOk, Claims.pairOk, tileOk, rowsOk, Open, endpointOf, wellFormedMatch, wellFormedMask]; decide⟩

theorem witness_Record_cpypl_second : RecordReady (.cpypl 1 2 3 1 (some 4) tok1) [0x1180, 0x1200, 0x300000000, 0x1280] :=
  ⟨_, _, _, rfl, by unfold Enters Acts Clean; decide, rfl, by simp only [List.map, copyOk, Claims.pairOk, tileOk, rowsOk, Open, endpointOf, wellFormedMatch, wellFormedMask]; decide⟩

theorem witness_Record_cpyfill : RecordReady (.cpyfill 1 2 3 .b tok1) [0x1000, 7, 0x300000000] :=
  ⟨_, _, _, rfl, by unfold Enters Acts Clean; decide, rfl, by simp only [List.map, copyOk, Claims.pairOk, tileOk, rowsOk, Open, endpointOf, wellFormedMatch, wellFormedMask]; decide⟩

theorem witness_Record_cpym : RecordReady (.cpym 1 2 3 0 4 16 tok1) [0x1380, 0x1000, 0x300000000, 2, 0] :=
  ⟨_, _, _, rfl, by unfold Enters Acts Clean; decide, rfl, by simp only [List.map, copyOk, Claims.pairOk, tileOk, rowsOk, Open, endpointOf, wellFormedMatch, wellFormedMask]; decide⟩

theorem witness_Record_cpym_nobody : RecordReady (.cpym 1 2 3 0 4 0 tok1) [0x1380, 0x1000, 0x300000000, 0, 0] :=
  ⟨_, _, _, rfl, by unfold Enters Acts Clean; decide, rfl, by simp only [List.map, copyOk, Claims.pairOk, tileOk, rowsOk, Open, endpointOf, wellFormedMatch, wellFormedMask]; decide⟩

theorem witness_Record_gath : RecordReady (.gath 1 2 3 4 false tok1) [0x90000, 0x1300, 0xa0000, 0x10000] :=
  ⟨_, _, _, rfl, by unfold Enters Acts Clean; decide, rfl, by simp only [List.map, copyOk, Claims.pairOk, tileOk, rowsOk, Open, endpointOf, wellFormedMatch, wellFormedMask]; decide⟩

theorem witness_Record_scat : RecordReady (.scat 1 2 3 4 true tok1) [0x90000, 0x1300, 0xa0000, 1] :=
  ⟨_, _, _, rfl, by unfold Enters Acts Clean; decide, rfl, by simp only [List.map, copyOk, Claims.pairOk, tileOk, rowsOk, Open, endpointOf, wellFormedMatch, wellFormedMask]; decide⟩

theorem witness_Record_send : RecordReady (.send 1 2 3 false tok1) [0x5000000000000, 0x1000, 3] :=
  ⟨_, _, _, rfl, by unfold Enters Acts Clean; decide, rfl, by simp only [List.map, copyOk, Claims.pairOk, tileOk, rowsOk, Open, endpointOf, wellFormedMatch, wellFormedMask]; decide⟩

theorem witness_Record_rpost : RecordReady (.rpost 1 2 3 4 5 tok1) [0x5000000000000, 0, 0x1000, 3, 0xb0000] :=
  ⟨_, _, _, rfl, by unfold Enters Acts Clean; decide, rfl, by simp only [List.map, copyOk, Claims.pairOk, tileOk, rowsOk, Open, endpointOf, wellFormedMatch, wellFormedMask]; decide⟩


theorem witness_RecordFence : ∃ s c, Enters s c (sUses [1]) [1] 0 tok1 ∧ Enters s c (sUses []) [] 0 tok1 :=
  ⟨engState .a [0x1000], cursorAt 0 .a, by unfold Enters Acts Clean; decide⟩

theorem witness_Gbind : ∃ s c, Enters s c [.grid 7, .s 1, .s 2] [1, 2] 4 tok1 :=
  ⟨engState .a [0x1000, 4095], cursorAt 0 .a, by unfold Enters Acts Clean; decide⟩

/-- A core whose handle 7 is bound, with the step of its last `gstep`. -/
def steppedState (valid : Bool) (last : Option Nat) : State :=
  inSlot 0 { withRegs [5] with handles := [(7, { Handle.none with valid := valid, last := last })] } .a

theorem witness_Gstep : ∀ last ∈ [none, some 4, some 5], ∃ s c, Enters s c [.grid 7, .s 1] [1] 4 tok1 ∧
    ((s.core c.core).handle 7).valid = true ∧ ((s.core c.core).handle 7).reader = false ∧
    ((s.core c.core).handle 7).last = last ∧ (val s c 1).toNat % 2 ^ 48 = 5 := by
  intro last h
  refine ⟨steppedState true last, cursorAt 0 .a, ?_, rfl, rfl, rfl, by rfl⟩
  simp only [List.mem_cons, List.not_mem_nil, or_false] at h
  unfold Enters Acts Clean
  obtain rfl | rfl | rfl := h <;> decide

theorem witness_Gstep_unbound : ∃ s c, Enters s c [.grid 7, .s 1] [1] 4 tok1 ∧ ((s.core c.core).handle 7).valid = false ∧
    ((s.core c.core).handle 7).pending = false :=
  ⟨steppedState false none, cursorAt 0 .a, by unfold Enters Acts Clean; decide⟩

theorem witness_Dispatch_full : ∃ s c, Acts s c (sUses [1]) ∧ (s.core c.core).queueFull 0 = true :=
  ⟨inSlot 0 { withRegs [1] with queues := [(0, List.replicate 32 (entryOf .nop []))] } .a, cursorAt 0 .a, by unfold Acts; decide⟩

/-- The class lags behind an open `barw`, or the cursor stays behind by itself. -/
theorem witness_Dispatch_behind : ∀ slips ∈ [[], [slipped]], ∃ s c, Acts s c (sUses [1]) ∧ staysBehind s c = true ∧ (s.core c.core).slips = slips ∧
    (s.core c.core).queueFull 0 = false ∧ (s.core c.core).lags c.slot.cls = !slips.isEmpty ∧ c.awaitsToken (s.core c.core) 1 = false := by
  intro slips h
  refine ⟨{ inSlot 0 { withRegs [1] with slips := slips } .a with cur := some (laggingAt 0 .a) }, laggingAt 0 .a, ?_⟩
  unfold Acts
  revert h slips
  decide

theorem witness_Dispatch_busy : ∃ s c, Acts s c (sUses [1]) ∧ (s.core c.core).queueFull 0 = false ∧
    (∀ n ∈ tokNames tok1, (Use.tok n).over (s.hlim c) = false) ∧ tok1.prod.val ≠ 0 ∧ (c.token tok1.prod.val).state = .pending :=
  ⟨{ inSlot 0 core8 .a with cur := some { cursorAt 0 .a with tok0 := [(1, { Token.init with state := .pending })] } },
    { cursorAt 0 .a with tok0 := [(1, { Token.init with state := .pending })] }, by unfold Acts; decide⟩

/-- The produced token is pending and the class has an earlier bundle to dispatch: the operation is tried again, is of a firmware core, or
stays behind. -/
theorem witness_Dispatch_defer : ∀ x ∈ [(0, true), (0xF000, false), (0, false)], ∃ s c, Acts s c (sUses [1]) ∧
    (s.core c.core).queueFull 0 = false ∧ (∀ n ∈ tokNames tok1, (Use.tok n).over (s.hlim c) = false) ∧
    (c.token tok1.prod.val).state = .pending ∧ c.awaitsToken (s.core c.core) 1 = false ∧ (s.core c.core).lagsBefore c = true ∧
    c.whole = x.2 ∧ isFw c.core = (x.1 != 0) := by
  intro x h
  let c : Cursor := { cursorAt x.1 .a with tok0 := [(1, { Token.init with state := .pending })], whole := x.2 }
  refine ⟨{ idle x.1 { withRegs [1] with slips := [slipped] } with cur := some c }, c, ?_⟩
  unfold Acts
  revert h x
  decide

/-- An operation that a full queue has kept behind enters it, once there is room. -/
theorem witness_Dispatch_later : ((idle 0 core8).core 0).queueFull 0 = false := by decide

/-! ### Engines, the cluster network, returns -/

/-- Core 0 with one operation at the head of a queue. -/
def queued (q : Nat) (e : EngEntry) : State := idle 0 { core8 with queues := [(q, [e])] }

/-- A token that has left pending faulted. -/
def faultedTok : Token := { Token.init with state := .faulted, cause := 0x0A }

theorem witness_EngineStart_cancelled : ∃ s e o, MayStart s 0 0 0 e ∧ e.cancelled = some o ∧ ∀ h d p rd tw, e.op ≠ .gbind h d p rd tw :=
  let e := { entryOf (.slotrel 1 2 tok1) [3] with consumed := [{ tok := 2, gen := 1, st := some faultedTok }] }
  ⟨queued 0 e, e, _, ⟨by decide, rfl, by decide, by decide, by decide⟩, rfl, fun _ _ _ _ _ h => nomatch h⟩

theorem witness_EngineStart_gbind : ∃ s e o, MayStart s 0 4 0 e ∧ e.cancelled = some o ∧ e.op = .gbind 7 1 2 false tok1 ∧
    (s.core 0).awaits 7 false e = true :=
  let e := { entryOf (.gbind 7 1 2 false tok1) [0x40, 3] with consumed := [{ tok := 2, gen := 1, st := some faultedTok }] }
  ⟨idle 0 { core8 with queues := [(4, [e])], handles := [(7, { Handle.none with pending := true, desc := 0x40, polder := 3 })] }, e, _,
    ⟨by decide, rfl, by decide, by decide, by decide⟩, rfl, rfl, by decide⟩

theorem witness_EngineStart_waits : ∃ s e, MayStart s 0 2 0 e ∧ e.cancelled = none ∧ startOp s 0 e = none :=
  let e := entryOf (.bankop 1 2 3 .zero tok1) [4096, 0, 4096]
  ⟨{ queued 2 e with ms := { MemSys.init with lmode := [(0, 2)] } }, e, ⟨by decide, rfl, by decide, by decide, by decide⟩, rfl, by decide⟩

theorem witness_EngineStart_starts : ∃ s e s1 st, MayStart s 0 0 0 e ∧ e.cancelled = none ∧ startOp s 0 e = some (s1, st) ∧
    ∃ y ∈ (s1.core 0).queue 0, y.serial = e.serial :=
  let e := entryOf (.slotrel 1 2 tok1) [3]
  ⟨queued 0 e, e, _, _, ⟨by decide, rfl, by decide, by decide, by decide⟩, rfl, rfl, e, .head _, rfl⟩

/-- Column 0 in a layer mode. -/
def layerState (m : Nat) : State := { idle 0 core8 with ms := { MemSys.init with lmode := [(0, m)] } }

theorem witness_Starts_bankop : ∀ m ∈ [0, 1, 2], ((layerState m).core 0).lfenceBefore 7 = false ∧
    dramOf (layerState m) 0 .write 4096 = .ok 4096 ∧ dramOf (layerState m) 0 .read 4096 = .ok 4096 ∧ homeCol 4096 = 0 ∧
    kget 0 (layerState m).ms.lmode 0 = m := by decide +kernel

/-- R192: LMODE 0 and 1 are the two modes, and a switch is neither. -/
theorem witness_LayerMode : ∀ x ∈ [(0, some false), (1, some true), (2, none)],
    State.layerMode { idle 0 core8 with ms := { MemSys.init with lmode := [(7, x.1)] } } 7 = x.2 := by decide

/-- A started operation at a stage. -/
def startedAt (e : EngEntry) (st : Stage) : Started := { id := 7, e := e, stage := st, orphan := none }

/-- An outcome. -/
def okOutcome : Outcome := { st := .done, cause := 0, bytes := 0, t := 9, tag := 0, regs := [] }

/-- Core 0 with one started operation. -/
def withStarted (x : Started) : State := idle 0 { core8 with started := [x] }

theorem witness_Bank_row : ∃ (s : State) (x : Started) (p : Nat), (s.core 0).started[0]? = some x ∧
    x.stage = .layer (homeCol p) [] 0 5 ∧ x.e.op = .bankop 1 2 3 .zero tok1 ∧ (x.e.vals.getD 2 0) = 4096 ∧
    dramOf s 0 .write (x.e.vals.getD 0 0) = .ok p :=
  ⟨withStarted (startedAt (entryOf (.bankop 1 2 3 .zero tok1) [4096, 0, 4096]) (.layer (homeCol 4096) [] 0 5)),
    startedAt (entryOf (.bankop 1 2 3 .zero tok1) [4096, 0, 4096]) (.layer (homeCol 4096) [] 0 5), 4096, rfl, rfl, rfl, rfl, by decide⟩

/-- A finished operation, of its task or of one that was ended, whose token has the generation 1 or has gone on. -/
theorem witness_EngineComplete : ∀ g ∈ [1, 2], ∀ orphan ∈ [none, some 0], ∃ (s : State) (x : Started), (s.core 0).started[0]? = some x ∧
    x.stage = .finished { okOutcome with regs := [(5, 6)] } false ∧ (x.e.cr = true → false = true) ∧ x.orphan = orphan ∧ x.e.prod ≠ 0 ∧
    x.e.gen = 1 ∧ (kget Token.init (s.core 0).tokens x.e.prod).gen = g ∧ ∀ w ∈ (s.core 0).writes, writesScalar 5 w = false := by
  intro g _ o _
  exact ⟨idle 0 { core8 with
      started := [{ startedAt (entryOf .nop []) (.finished { okOutcome with regs := [(5, 6)] } false) with orphan := o }]
      tokens := [(1, { Token.init with state := .pending, gen := g })] },
    { startedAt (entryOf .nop []) (.finished { okOutcome with regs := [(5, 6)] } false) with orphan := o },
    rfl, rfl, nofun, rfl, by show 1 ≠ 0; decide, rfl, rfl, nofun⟩

theorem wf_nil : Memory.wf [] := by decide

/-- A ring of four records with a tail, for the operation that asks for a record. -/
def ringState (valid : Bool) (tail : Nat) : State :=
  let s := withStarted (startedAt { entryOf .nop [] with cr := true } (.finished okOutcome false))
  { s with hub := { s.hub with rings := [(0, { base := 0x10000, log2 := 2, head := 0, tail := tail, valid := valid })] } }

theorem witness_RecordWrite : ∀ x ∈ [(false, 0), (true, 3), (true, 4)], ∃ s y, (s.core 0).started[0]? = some y ∧
    y.stage = .finished okOutcome false ∧ y.e.cr = true ∧ (kget Ring.unset s.hub.rings 0).valid = x.1 ∧
    (kget Ring.unset s.hub.rings 0).tail = x.2 ∧ hubPlace s 0 0 (0x10000 + 16 * 3) 16 .write = .ok (.phys 0x10030) ∧
    isControl 0x10030 = false ∧ 0x10030 % 64 + 16 ≤ 64 ∧ TidyMemory s 0 := by
  intro x _
  exact ⟨ringState x.1 x.2, startedAt { entryOf .nop [] with cr := true } (.finished okOutcome false), rfl, rfl, rfl, rfl, rfl, rfl,
    by decide, by decide, ⟨wf_nil, nofun, wf_nil, wf_nil, wf_nil⟩⟩

/-- A finished operation of a saved task. -/
theorem witness_EngineComplete_saved : ∃ (s : State) (x : Started) (base : Nat), (s.core 0).started[0]? = some x ∧
    x.stage = .finished okOutcome false ∧ x.e.cr = false ∧ (s.core 0).isSaved = true ∧ s.saveBase 0 = some base ∧ x.orphan = none ∧
    x.e.prod ≠ 0 ∧ (kget Token.init (s.core 0).tokens x.e.prod).gen = x.e.gen := by
  let s : State := idle 0 { core8 with
    isSaved := true, started := [startedAt (entryOf .nop []) (.finished okOutcome false)]
    tokens := [(1, { Token.init with state := .pending, gen := 1 })] }
  have h : ∃ base, ({ s with ms := { s.ms with owners := [(Config.saveWay 0 % 16, { scratch := true, ctx := 0, origin := 0 })] } } : State).saveBase 0 =
      some base := by
    refine ⟨_, if_pos ?_⟩
    simp [MemSys.owner, kget, colOf]
  obtain ⟨base, h⟩ := h
  exact ⟨_, startedAt (entryOf .nop []) (.finished okOutcome false), base, rfl, rfl, rfl, rfl, h, rfl, by show 1 ≠ 0; decide, rfl⟩

/-- A finished `fence` with and without a record. -/
theorem witness_FenceCompletes : ∀ cr, ∃ (s : State) (x : Started) (tw : TokenWord), (s.core 0).started[0]? = some x ∧
    x.e.op = .fence .dom tw ∧ x.stage = .finished okOutcome false ∧ x.e.cr = cr ∧ x.orphan = none :=
  fun cr => ⟨withStarted (startedAt { entryOf (.fence .dom tok1) [] with cr := cr } (.finished okOutcome false)), _, tok1, rfl, rfl, rfl, rfl, rfl⟩

/-- One item on its way from core 0 to core 1, with the access it belongs to. -/
def netState (i : NetItem) (run : Run) : State :=
  let o : Outstanding := { someLoad true none with parts := [{ place := .buf 1 .a 64, addr := 0, g := false, n := 8, done := false, data := leBytes 8 5 }] }
  { idle 0 { core8 with outs := [o] } with
    cores := [(0, { core8 with outs := [o] }), (1, { core8 with run := run })]
    net := [{ src := 0, dst := 1, item := i, after := [], held := false }] }

theorem witness_NetworkDelivers : ∀ i ∈ [NetItem.flag 31 9, .barrier 7 .arr 3 0 9, .load 1 0, .store 1 0, .amo 1 0 true .add 2,
    .cas 1 0 true 5 6],
    ∀ r ∈ [Run.running, .trapped], ∃ s p, NextItem s 0 1 0 p ∧ p.item = i ∧ s.suspended 1 = (r == .trapped) ∧
      (∃ o, (s.core 0).out 1 = some o ∧ (o.parts[0]?).isSome = true) := by
  intro i _ r hr
  refine ⟨netState i r, { src := 0, dst := 1, item := i, after := [], held := false }, ⟨rfl, rfl, rfl, rfl⟩, rfl, ?_, _, rfl, rfl⟩
  simp only [List.mem_cons, List.not_mem_nil, or_false] at hr
  obtain rfl | rfl := hr <;> rfl

/-- A load whose part is performed or lies in another package, of a version or none, speculative or not. -/
def returning (place : Place) (done : Bool) (ver : Option W64) (spec : Bool) : Outstanding :=
  { someLoad true none with
    parts := [{ place := place, addr := 77, g := false, n := 8, done := done, data := if done then leBytes 8 5 else [] }], ver := ver, spec := spec
    dest := .scalar 4 true }

/-- The bytes come, or none do; a version is the one asked for, or another. -/
theorem witness_AccessesReturn_load : ∀ spec, ∀ x ∈ [(Place.phys 64, true, ([] : List Byte), true), (.far 2 64, false, leBytes 8 5, true),
    (.far 2 64, false, [], false)], ∀ ver ∈ [none, some (5 : W64), some 6], ∃ (s : State) (o : Outstanding), (s.core 0).out 1 = some o ∧ o.ldPend = true ∧
      (s.core 0).late = [] ∧ (∀ p ∈ o.parts, p.done = true ∨ p.place.isFar = true) ∧ o.ver = ver ∧ o.spec = spec ∧
      o.dest = .scalar 4 true ∧ (∀ w ∈ (s.core 0).writes, writesScalar 4 w = false) ∧ s.spoiltPart o = none ∧
      ((∀ p ∈ fillFar o.parts x.2.2.1, p.done = true) ↔ x.2.2.2 = true) := by
  intro spec x h ver _
  refine ⟨idle 0 { core8 with outs := [returning x.1 x.2.1 ver spec] }, returning x.1 x.2.1 ver spec, rfl, rfl, rfl, ?_, rfl, rfl, rfl,
    nofun, ?_, ?_⟩
  all_goals
    simp only [List.mem_cons, List.not_mem_nil, or_false] at h
    obtain rfl | rfl | rfl := h
  any_goals rfl
  all_goals simp only [returning, List.mem_singleton, forall_eq, fillFar, Place.isFar] <;> decide

theorem witness_AccessesReturn_version : (fillFar (returning (.phys 64) true (some 5) false).parts []).map (fun p => leNat p.data % 2 ^ 48) = [5] := by
  decide

theorem witness_AccessesReturn_vector : ([3, 15] : List Nat).length ≤ [leBytes 4 5, leBytes 4 6].length := by decide

theorem witness_AccessesReturn_store : ∀ failed : Bool, ∃ (s : State) (o : Outstanding), (s.core 0).out 1 = some o ∧ o.stPend = true ∧
    (s.core 0).late = [] ∧ (∀ p ∈ o.parts, p.done = true ∨ p.place.isFar = true) ∧
    (failed = true ∧ (∃ p ∈ o.parts, p.done = false) ↔ failed = true) :=
  fun failed => ⟨idle 0 { core8 with outs := [{ returning (.far 2 64) false none false with stPend := true }] },
    { returning (.far 2 64) false none false with stPend := true }, rfl, rfl, rfl, by decide, by cases failed <;> decide⟩

/-- The last bytes of DRAM are served; a caching way is not. -/
theorem witness_AccessesReturn_fabric : ∀ x ∈ [(0x7FFFFFFFF8, true), (0x40000000000, false)], ∃ s : State,
    spanOf s (.load x.1 8 3) = some (x.1, 8, 3, x.1) ∧ s.serves 0 x.1 8 = x.2 ∧ isControl x.1 = false ∧ x.1 % 64 + 8 ≤ 64 ∧ Memory.wf s.ms.mem ∧
      ∀ e ∈ s.ms.lines, e.2.data.length = 64 := by
  intro x h
  refine ⟨idle 0 core8, ?_⟩
  simp only [List.mem_cons, List.not_mem_nil, or_false] at h
  obtain rfl | rfl := h <;> exact ⟨rfl, by decide +kernel, by decide, by decide, wf_nil, nofun⟩

theorem witness_AccessesReturn_pull : ∃ (s : State) (x : Started), (s.core 0).started.find? (fun y => y.id == 7) = some x ∧ x.stage = .pulled 0 [] ∧ x.orphan = none ∧
    (x.e.vals.getD 0 0).toNat / 2 ^ 12 % 2 ^ 14 = 3 :=
  ⟨withStarted (startedAt (entryOf (.send 1 2 3 true tok1) [0x3000, 0x10000, 16]) (.pulled 0 [])),
    startedAt (entryOf (.send 1 2 3 true tok1) [0x3000, 0x10000, 16]) (.pulled 0 []), rfl, rfl, rfl, by decide⟩

/-- A package whose group 9 has port 1 and itself, with a context of that group; port 1 leads to the peer of its number. -/
def groupState : State :=
  let s := idle 0 core8
  { s with
    ms := { s.ms with contexts := [(0, { valid := true, root := 0, group := 9 })] }
    rt := { s.rt with groupTable := [(9, BitVec.ofNat 64 (2 ^ 36 + 2))], groupRegs := [(18, 2)] } }

theorem witness_AccessesReturn_group : (kget 0 groupState.rt.groupTable 9).toNat.testBit 36 = true ∧
    (kget 0 groupState.rt.groupTable 9).toNat.testBit 1 = true ∧ (groupState.portTo 1).isSome = true ∧ 5 ≠ groupState.pkg ∧
    (∃ x ∈ groupState.ms.contexts, x.2.group = 9 ∧ groupState.serves x.1 4096 8 = true) ∧ reachable 4096 8 = true ∧ isControl 4096 = false ∧ 4096 % 64 + 8 ≤ 64 ∧
    Memory.wf groupState.ms.mem := by decide +kernel

/-- A load, speculative or not, of a line whose data are spoilt; one of sound data, whose parts have come, and one that has been discarded. -/
theorem witness_AccessesReturn_spoilt : ∀ spec, ∀ x ∈ [([1], 8, some 64), ([2], 8, none), ([], 0, none)], ∃ (s : State) (o : Outstanding),
    (s.core 0).out 1 = some o ∧ o.ldPend = true ∧ (s.core 0).late = [] ∧ o.spec = spec ∧ s.spoiltPart o = x.2.2 ∧
    (∀ p ∈ fillFar o.parts [], p.done = true) ∧ ((∃ p ∈ fillFar o.parts [], p.n = 0) ↔ x.2.1 = 0) := by
  intro spec x h
  let o : Outstanding := { someLoad true none with
    parts := [{ place := .phys 64, addr := 77, g := false, n := x.2.1, done := true, data := leBytes x.2.1 5 }], spec := spec }
  refine ⟨{ idle 0 { core8 with outs := [o] } with ms := { MemSys.init with faulty := x.1 } }, o, ?_⟩
  simp only [List.mem_cons, List.not_mem_nil, or_false] at h
  cases spec <;> obtain rfl | rfl | rfl := h <;> decide

/-- The DRAM bank of address 4096 has been retired with no spare rows left, of a stack that has `n` such banks already (R334). -/
def goneState (n : Nat) : State :=
  { idle 0 core8 with
    ms := { MemSys.init with dead := [(0, Config.dramBank 64)] }
    hub := { State.reset.hub with retired := List.replicate n (.dramBank 0 (Config.dramBank 64 + 1)) } }

/-- A store there, a bank row that is to be zeroed there, and a version word there. -/
theorem witness_DeadBank : (goneState 0).ms.deadAt (.phys 4096) 4096 = some 4096 ∧ (goneState 0).ms.spoiltAt (.phys 4096) 8 = some 4096 ∧
    isDram (64 * 64) = true ∧ homeCol (64 * 64) = 0 := by
  refine ⟨?_, ?_, by decide, by decide⟩ <;>
    simp [MemSys.deadAt, MemSys.spoiltAt, MemSys.deadLine, Place.firstLine, goneState, isDram, homeCol, List.range_succ_eq_map, MemSys.init]

/-- A stack whose spare rows are used up, and one that has some left or has none at all. -/
theorem witness_DramRetirement : UnitId.dramBank 0 (Config.dramBank 64) ∉ (goneState (Config.spareBanks 0)).hub.retired ∧
    ((goneState (Config.spareBanks 0)).hub.retired.filter fun u => match u with | .dramBank d _ => d == 0 | _ => false).length =
      Config.spareBanks 0 ∧
    (0 < Config.spareBanks 0 → ((goneState 0).hub.retired.filter fun u => match u with | .dramBank d _ => d == 0 | _ => false).length <
      Config.spareBanks 0) := by
  simp [goneState, List.filter_replicate]

/-- The first byte that does not come is of package 2, at the address 77. -/
theorem witness_AccessesReturn_missing : ∃ p, (fillFar (returning (.far 2 64) false none false).parts []).find? (fun p => !p.done) = some p ∧
    p.place = .far 2 64 ∧ p.addr = 77 := ⟨_, rfl, rfl, rfl⟩

/-- A rendezvous payload of this package's memory, of which a packet has been read ahead of what has been sent. -/
theorem witness_AccessesReturn_pulled : ∃ (s : State) (x : Started), (s.core 0).started.find? (fun y => y.id == 7) = some x ∧ x.orphan = none ∧
    x.stage = .pulled 16 [1, 2] ∧ (x.e.vals.getD 0 0).toNat / 2 ^ 12 % 2 ^ 14 = 3 ∧ (pullBytes s 0 x 16 2 [1, 2]).2.bad = none :=
  ⟨withStarted (startedAt (entryOf (.send 1 2 3 true tok1) [0x3000, 0x10000, 18]) (.pulled 16 [1, 2])),
    startedAt (entryOf (.send 1 2 3 true tok1) [0x3000, 0x10000, 18]) (.pulled 16 [1, 2]), rfl, rfl, rfl, by decide, by rfl⟩

/-! ### Messages, strips, matrix and copies -/

/-- A message from endpoint 3 of package 1 to endpoint 5 of this one. -/
def someMessage (p : Option (List Byte)) (len : Nat) : Message :=
  { srcPkg := 1, srcEp := 3, dstEp := 5, tag := 9, number := 0, length := len, payload := p, handle := 0 }

/-- A receive at endpoint 5 that any message matches, into the A buffer's record above. -/
def someReceive (m : Option Message) : Posted :=
  { ep := 5, matchW := 0, maskW := 0, shape := recordBytes 0x10000 0 0 1 1 1 0, tile := 3, env := none, core := 0, startedId := 7
    landing := m, landed := 0, ack := false }

/-- A module whose column 0 has endpoint 5 and a Parser. -/
def parserState (p : Parser) : State :=
  let s := idle 0 core8
  { s with hub := { s.hub with parsers := [(0, p)], endpoints := [(5, { valid := true, ctx := 0, col := 0 })] } }

/-- A Parser with `n` early messages of the pair, and one that is the pair's next or a later one. -/
def earlyParser (n : Nat) : Parser := { Parser.init with reorder := List.replicate n { someMessage none 1 with number := 1 } }

theorem earlyParser_early (n : Nat) : ((earlyParser n).reorder.filter fun x => srcOf x == srcOf (someMessage none 1) &&
    x.dstEp == (someMessage none 1).dstEp && x.number != kget 0 (earlyParser n).expected (pairKey x.dstEp (srcOf x))).length = n := by
  simp only [earlyParser, List.filter_replicate]
  rw [if_pos (by decide), List.length_replicate]

/-- With 64 early messages, the next of the pair has credit and a later one has none; with 63 both have. -/
theorem witness_MessageArrival : Credit (earlyParser 64) (someMessage none 1) ∧
    ¬Credit (earlyParser 64) { someMessage none 1 with number := 2 } ∧ Credit (earlyParser 63) { someMessage none 1 with number := 2 } := by
  have e (n : Nat) : (earlyParser n).unexpected = [] ∧ (earlyParser n).stored = 0 := ⟨rfl, rfl⟩
  refine ⟨⟨by rw [(e _).1]; decide, by rw [(e _).2]; decide, .inl rfl⟩, fun h => ?_,
    ⟨by rw [(e _).1]; decide, by rw [(e _).2]; decide, .inr ?_⟩⟩
  · refine h.2.2.elim (fun h => absurd h (by show ¬(2 : Nat) = 0; decide)) fun h => ?_
    have h1 := earlyParser_early 64
    exact absurd (h1 ▸ h : (64 : Nat) < 64) (by decide)
  · have h1 := earlyParser_early 63
    exact h1 ▸ (by decide : (63 : Nat) < 64)

theorem witness_MessageArrival_endpoint : ∀ b, ∃ (s : State) (m : Message), m.srcPkg ≠ s.pkg ∧ (s.endpoint m.dstEp).valid = b ∧
    (b = true → (s.endpoint m.dstEp).col = 0) := by
  intro b
  exact ⟨if b then parserState Parser.init else idle 0 core8, someMessage none 64, by cases b <;> decide⟩

theorem witness_MessagePresented_waits : ∃ (s : State) (m : Message),
    (s.parser 0).nextOf (srcOf (someMessage none 64)) 5 = some 0 ∧ (s.parser 0).reorder[0]? = some m ∧ (s.parser 0).takes m = none ∧
    (s.parser 0).unexpected.length < 2048 ∧ (s.parser 0).stored + (m.payload.map List.length).getD 0 ≤ 4194304 ∧ m.payload = none :=
  ⟨parserState { Parser.init with reorder := [someMessage none 64] }, someMessage none 64, by decide⟩

/-- A Parser with `n` unexpected messages and one in its reorder buffer. -/
def crowded (n : Nat) : Parser :=
  { Parser.init with reorder := [someMessage none 64], unexpected := List.replicate n (someMessage none 1) }

theorem crowded_spec (n : Nat) : ∃ (s : State) (m : Message),
    (s.parser 0).nextOf (srcOf (someMessage none 64)) 5 = some 0 ∧ (s.parser 0).reorder[0]? = some m ∧
    (s.parser 0).takes m = none ∧ n ≤ (s.parser 0).unexpected.length := by
  refine ⟨parserState (crowded n), someMessage none 64, ?_, ?_, ?_, ?_⟩
  · show Parser.nextOf { Parser.init with reorder := [someMessage none 64] } (srcOf (someMessage none 64)) 5 = some 0
    decide
  · rfl
  · rfl
  · show n ≤ (List.replicate n (someMessage none 1)).length
    rw [List.length_replicate]

theorem witness_MessagePresented_full : ∃ (s : State) (m : Message),
    (s.parser 0).nextOf (srcOf (someMessage none 64)) 5 = some 0 ∧ (s.parser 0).reorder[0]? = some m ∧
    (s.parser 0).takes m = none ∧ 2048 ≤ (s.parser 0).unexpected.length := crowded_spec 2048

theorem witness_MessagePresented_taken : ∃ (s : State) (m : Message) (x : Posted),
    (s.parser 0).nextOf (srcOf (someMessage none 64)) 5 = some 0 ∧ (s.parser 0).reorder[0]? = some m ∧
    (s.parser 0).takes m = some 0 ∧ (s.parser 0).posted[0]? = some x :=
  ⟨parserState { Parser.init with reorder := [someMessage none 64], posted := [someReceive none] }, someMessage none 64,
    someReceive none, by decide, rfl, by decide, rfl⟩

/-- The receive above, whose operation waits, with a message of some bytes. -/
def landingState (m : Message) : State :=
  let s := parserState { Parser.init with landing := [someReceive (some m)] }
  { s with cores := [(0, { core8 with started := [startedAt (entryOf .nop []) .waiting] })] }

/-- A message of no bytes has landed; one of 16 lands from another package or fails. -/
theorem witness_Landing : ∀ len ∈ [0, 16], ∀ fault : Bool, ∃ (s : State) (x : Posted) (m : Message) (y : Started),
    (s.parser 0).landing[0]? = some x ∧ x.landing = some m ∧ postedOp s x = some y ∧ y.orphan = none ∧ heldLanding s x = false ∧ m.length = len ∧
    m.payload = none ∧ x.landed = 0 ∧ x.env = none ∧ m.srcPkg ≠ s.pkg ∧
    (landBytes x (List.replicate m.length 3) (s.flow x.core y.e (landTime s x) [])).1.bad = none := by
  intro len h fault
  simp only [List.mem_cons, List.not_mem_nil, or_false] at h
  obtain rfl | rfl := h
  all_goals exact ⟨landingState (someMessage none _), someReceive (some (someMessage none _)), someMessage none _,
    startedAt (entryOf .nop []) .waiting, rfl, rfl, rfl, rfl, by decide +kernel, rfl, rfl, rfl, rfl, by decide, by rfl⟩

theorem witness_SendAcknowledged : ∀ st ∈ [Stage.waiting, .pulled 0 [], .pulled 256 []], ∃ (s : State) (x : Started), (s.core 0).started[0]? = some x ∧
    x.e.op = .send 1 2 3 true tok1 ∧ x.stage = st ∧ (x.e.vals.getD 0 0).toNat / 2 ^ 12 % 2 ^ 14 ≠ s.pkg :=
  fun st _ => ⟨withStarted (startedAt (entryOf (.send 1 2 3 true tok1) [4096, 0, 0]) st),
    startedAt (entryOf (.send 1 2 3 true tok1) [4096, 0, 0]) st, rfl, rfl, rfl, by show (4096 : W64).toNat / 2 ^ 12 % 2 ^ 14 ≠ 0; decide⟩

/-- A strip for region 0 of the polder of a grid whose destination lies in package `pkg`; its supplier's operation waits. -/
def stripState (pkg : Nat) : State :=
  let g : Grid := { someGrid with polders := [{ scratch := false, pkg := pkg, unit := 0, base := 4096, fbase0 := 8192, fbase1 := 12288 }] }
  let y : Strip := { ctx := 0, desc := 64, polder := 0, src := 0, region := 0, slot := 0, step := 1, cells := [], core := 0, startedId := 7, time := 0 }
  let p : PolderState := { key := (0, 64, 0), owner := some 0, grid := g, published := none, tags := [], times := [], marks := [], wrote := []
                           leaving := false }
  let s := withStarted (startedAt (entryOf .nop []) .waiting)
  { s with hub := { s.hub with strips := [y], polders := [p] } }

/-- The strips for region 0, slot 0 of that polder. -/
def stripsFor (s : State) : List Strip := s.hub.strips.filter fun y => y.desc == 64 && y.polder == 0 && y.region == 0 && y.slot == 0

theorem witness_StripArrival_leaves : ∃ y, (stripsFor (stripState 3)).find? (fun z => stripPkg (stripState 3) z != 0) = some y ∧
    ∃ z ∈ ((stripState 3).core y.core).started, z.id = y.startedId ∧ z.stage = .waiting :=
  ⟨_, rfl, _, .head _, rfl, rfl⟩

theorem witness_StripArrival_lands : ∃ y, (stripsFor (stripState 0)).find? (fun z => stripPkg (stripState 0) z != 0) = none ∧
    (stripsFor (stripState 0)).find? (deliverable (stripState 0)) = some y ∧ ((stripState 0).polder y.ctx 64 0).isSome = true :=
  ⟨_, by decide, rfl, by decide⟩

/-- A polder in scratch that its context has given up. -/
def shrunkState : State :=
  let s := stripState 0
  { s with hub := { s.hub with polders := s.hub.polders.map fun p => { p with grid := { p.grid with
    polders := [{ scratch := true, pkg := 0, unit := 0, base := 4096, fbase0 := 8192, fbase1 := 12288 }] } } } }

theorem witness_StripArrival_shrunk : ∃ y x, (stripsFor shrunkState).find? (fun z => stripPkg shrunkState z != 0) = none ∧
    (stripsFor shrunkState).find? (deliverable shrunkState) = some y ∧ shrunkState.polder y.ctx 64 0 = some x ∧
    shrunkState.shrunk y.ctx x.grid 0 = true ∧ ∃ z ∈ (shrunkState.core y.core).started, z.id = y.startedId ∧ z.stage = .waiting :=
  ⟨_, _, by decide, rfl, rfl, by decide, _, .head _, rfl, rfl⟩

/-- Core 0 with an operation at the head of the matrix queue. -/
def matrixState (e : EngEntry) : State := idle 0 { core8 with mx := { core8.mx with queue := [e] } }

theorem witness_MatrixStart : ∃ e q, (matrixState e).cycle = 0 ∧ ((matrixState e).core 0).leaveCycle e = some q ∧ q ≤ 0 ∧
    ((matrixState e).core 0).engines = true ∧ e.op = .mmz 1 tok1 ∧ e.cancelled = none :=
  ⟨entryOf (.mmz 1 tok1) [0xA000000000000000], 0, by decide⟩

theorem witness_MatrixStart_scales : ∃ e q, ((matrixState e).core 0).leaveCycle e = some q ∧ q ≤ 0 ∧ e.op = .mscl 0 1 63 :=
  ⟨entryOf (.mscl 0 1 63) [4096], 0, by decide⟩

theorem witness_MatrixStart_mps : ∃ e q, ((matrixState e).core 0).leaveCycle e = some q ∧ q ≤ 0 ∧ e.op = .mps 0 .ab :=
  ⟨entryOf (.mps 0 .ab) [], 0, by decide⟩

/-- Core 0 with one started block of an `mmz`, at a cycle. -/
def blockState (cycle : Nat) : State :=
  let e := entryOf (.mmz 1 tok1) [0xA000000000000000]
  let b : Block := { start := 0, dur := 1, e := e, idx := 0, last := true, a := [], b := [], md := [], ea := none, eb := none }
  { idle 0 { core8 with mx := { core8.mx with blocks := [b] } } with cycle := cycle }

theorem witness_AccumulatorUpdate : ∀ n ∈ [20, 21], ∃ b, ((blockState n).core 0).mx.blocks = [b] ∧ b.start + b.dur + 20 = 21 ∧
    ((blockState n).core 0).scaleOpen b = false ∧ b.e.op = .mmz 1 tok1 ∧ Memory.wf ((blockState n).core 0).rbuf := by
  intro n _
  exact ⟨_, rfl, rfl, rfl, rfl, List.Pairwise.nil, fun e he => nomatch he⟩

/-- Core 0 with one started block of an operation, the last or not, whose time has come. -/
def blockOf (i : Instr) (vals : List W64) (last : Bool) : Block × State :=
  let b : Block := { start := 0, dur := 1, e := entryOf i vals, idx := 0, last := last, a := [], b := [], md := [], ea := none, eb := none }
  (b, { idle 0 { core8 with mx := { core8.mx with blocks := [b] } } with cycle := 21 })

/-- An `mma` of more blocks, one that ends without a result tile, with one apart from its accumulators and with one that is theirs; then
`mcvt`, `mtr` and `macc`. -/
theorem witness_AccumulatorUpdate_forms : ∀ x ∈ [
    (Instr.mma 1 2 3 0 false 0 0 9 9 0 0 0 tok1, [0, 0, 0, 0xA000000000000000, 0], false),
    (.mma 1 2 3 0 false 0 0 9 9 0 0 0 tok1, [0, 0, 0, 0xA000000000000000, 0], true),
    (.mma 1 2 3 0 false 0 0 9 9 0 4 0 tok1, [0, 0, 0, 0xA000000000000000, 0xA000000000001000], true),
    (.mma 1 2 3 0 false 0 0 9 9 0 3 0 tok1, [0, 0, 0, 0xA000000000000000, 0xA000000000000000], true),
    (.mcvt 1 2 9 0 tok1, [0xA000000000000000, 0xA000000000001000], true),
    (.mtr 1 2 0 0 tok1, [0xA000000000000000, 0xA000000000001000], true),
    (.macc 1 2 9 tok1, [0xA000000000000000, 0xA000000000001000], true)],
    let b := (blockOf x.1 x.2.1 x.2.2).1
    let s := (blockOf x.1 x.2.1 x.2.2).2
    (s.core 0).mx.blocks = [b] ∧ b.e.op = x.1 ∧ b.last = x.2.2 ∧ b.start + b.dur + 20 ≤ s.cycle ∧ (s.core 0).scaleOpen b = false ∧
      Memory.wf (s.core 0).rbuf ∧ (s.core 0).hist = [] ∧ b.e.stale = [] := by
  intro x _
  exact ⟨rfl, rfl, rfl, by show 0 + 1 + 20 ≤ 21; decide, rfl, ⟨List.Pairwise.nil, fun e he => nomatch he⟩, rfl, rfl⟩

/-- An `mma` whose operand A lies at an address. -/
def fetchEntry (a : W64) : EngEntry :=
  entryOf (.mma 1 2 3 0 false 0 0 10 10 0 0 0 tok1) [a, 0x8000000000000000, 0, 0xA000000000000000, 0]

theorem witness_OperandChunkArrival : ∃ s e, (s.core 0).fetcher 0 15 = some e ∧ (s.core 0).engines = true ∧
    fetchCause s 0 ((e.chunks 0).getD 15 0) = none ∧ Sys2Proof.Machine.heldBy s 0 ((e.chunks 0).getD 15 0) = false ∧
    (Flow.read { s.flow 0 e e.time [] with matrix := true } ((e.chunks 0).getD 15 0) 64).2.bad = none :=
  ⟨matrixState (fetchEntry 0x10000), fetchEntry 0x10000, rfl, by decide, by decide, by decide, by rfl⟩

theorem witness_FetchFault : ∃ s e, (s.core 0).fetcher 0 15 = some e ∧ (s.core 0).engines = true ∧
    fetchCause s 0 ((e.chunks 0).getD 15 0) = some .protection ∧ isFw 0 = false :=
  ⟨matrixState (fetchEntry 0xB408000000000000), fetchEntry 0xB408000000000000, rfl, by decide, by decide, by decide⟩

/-- The data of a chunk are spoilt. -/
theorem witness_OperandChunkArrival_spoilt : ∃ s e, (s.core 0).fetcher 0 15 = some e ∧ (s.core 0).engines = true ∧
    fetchCause s 0 ((e.chunks 0).getD 15 0) = none ∧ Sys2Proof.Machine.heldBy s 0 ((e.chunks 0).getD 15 0) = false ∧
    (Flow.read { s.flow 0 e e.time [] with matrix := true } ((e.chunks 0).getD 15 0) 64).2.bad = some .uncorrectable :=
  ⟨{ matrixState (fetchEntry 0x10000) with ms := { MemSys.init with faulty := [0x10000 / 64 + 15] } }, fetchEntry 0x10000, rfl, by decide, by decide,
    by decide, by rfl⟩

/-- A copy of 4,097 bytes, in two chunks, some of which are done. -/
def copying (done : List Nat) : Started := startedAt (entryOf (.cpyB 1 2 3 tok1) [0x10000, 0x20000, 4097]) (.copying 2 done)

/-- Core 0 with that copy. -/
def copyState (done : List Nat) : State := withStarted (copying done)

/-- The second chunk, of a copy that has none or only the first: nothing stops its read or its write. -/
theorem witness_CopyChunk : ∀ done ∈ [([] : List Nat), [0]], ((copyState done).core 0).started[0]? = some (copying done) ∧ 1 ∉ done ∧
    ((copyState done).core 0).engines = true ∧ (findChunk (copyPlan 0 (copying done).e).segs 1).map (fun c =>
      let got := Flow.readAll c.1 (c.1.range c.2) ((copyState done).flow 0 (copying done).e 0 [])
      (got.2.bad, writeFault (copyState done) 0 (c.1.byteMoves got.1 ++ c.1.secondMoves got.1))) = some (none, none) := by decide +kernel

/-! ### Memory, heat and errors -/

theorem witness_LayerBusy : ∃ s : State, s.layerMode 7 = some true ∧ s.layerBusy 7 = true :=
  ⟨{ withStarted (startedAt (entryOf .nop []) (.layer 7 [] 0 5)) with ms := { MemSys.init with lmode := [(7, 1)] } }, by decide⟩

/-- A migration of way 0 of column 0 to way 2 of column 1, with a copy under way to the moving ways or none. -/
def migrating (copies : List (Nat × Nat)) : State :=
  { copyState [] with ms := { MemSys.init with nsplit := [(0, 1)], migration := some { ctx := 0, col := 0, moves := [(0, 1, 2)], copies := copies, bank := none, after := [] } } }

theorem witness_Migration : (copyState []).ms.migration = none ∧
    (∀ copies ∈ [[], [(0, 7)]], (∃ x ∈ copies, ((migrating copies).core x.1).engines = true ∧
      ∃ y ∈ ((migrating copies).core x.1).started, y.id = x.2 ∧ ∃ total done, y.stage = .copying total done) ↔ copies ≠ []) ∧
    0 ∈ (migrating []).ms.ways 0 0 ∧ ((migrating []).ms.owner 1 2).scratch = false ∧ (migrating []).ms.lines = [] ∧
    Memory.wf (migrating []).ms.mem := by
  refine ⟨rfl, fun copies h => ?_, by decide, by decide, rfl, wf_nil⟩
  simp only [List.mem_cons, List.not_mem_nil, or_false] at h
  obtain rfl | rfl := h
  · exact ⟨nofun, fun h => absurd rfl h⟩
  · exact ⟨fun _ => nofun, fun _ => ⟨_, .head _, rfl, _, .head _, rfl, _, _, rfl⟩⟩

/-- The migration of way 0 of column 0, with a piece of an access of core 0 left for later in that way, or in none. -/
def owing (b : Bool) : State :=
  let t : Todo := { ix := 0, n := 8, piece := { sp := .scratch 0, place := .phys (wayBase 0 0), g := false }, op := .store (leBytes 8 5) }
  if b then (migrating []).modCore 0 fun k => { k with late := [{ cur := cursorAt 0 .m0, o := someLoad false none, todo := [t] }] } else migrating []

theorem witness_Migration_owed : ∀ b, (owing b).owesTo (fun w => decide ((owing b).ms.served 0 0 0 = w)) = b ∧
    (b = true → (owing b).ms.migration.isSome = true) := by
  intro b
  cases b <;> decide

/-- A scratch bank that is to leave use during that migration. -/
theorem witness_Migration_bank : ∃ s : State, s.ms.migration.isSome = true ∧ (s.ms.owner 0 (16 % 16)).scratch = true :=
  ⟨{ migrating [] with ms := { (migrating []).ms with owners := [(0, { scratch := true, ctx := 0, origin := 0 })] } }, by decide⟩

theorem witness_SlotTableInstall : ∃ (s : State) (x : Install), x ∈ s.rt.installs ∧ x.due ≤ s.cycle ∧
    ∀ y ∈ s.rt.installs, y.router = x.router → y = x :=
  let x : Install := { router := 0x810, table := [1], core := 0, startedId := 7, due := 0, time := 0 }
  ⟨{ idle 0 core8 with rt := { Routing.init with installs := [x] } }, x, by decide⟩

/-- A module with an error window that has counted `n`, `late` cycles after its end. -/
def windowState (n late : Nat) : State :=
  let s := idle 0 core8
  { s with hub := { s.hub with windows := [{ u := .router 0x810, count := n, start := 0 }] }, cycle := s.hub.errW + late }

theorem witness_CorrectableError : ∀ n ∈ [1, 2], ∀ late ∈ [0, 1],
    ∃ w, (windowState n late).hub.windows.find? (fun w => w.u == .router 0x810) = some w ∧ w.count = n ∧ (windowState n late).hub.thresh = 3 ∧
    ((windowState n late).cycle - w.start ≤ (windowState n late).hub.errW ↔ late = 0) := by
  intro n _ late _
  refine ⟨{ u := .router 0x810, count := n, start := 0 }, rfl, rfl, rfl, ?_⟩
  show (windowState n late).hub.errW + late - 0 ≤ (windowState n late).hub.errW ↔ late = 0
  omega

theorem witness_UncorrectableError : ∃ (s : State) (o : Outstanding), (s.core 0).out 1 = some o ∧ o.ldPend = true ∧ (s.core 0).late = [] ∧
    isFw 0 = false ∧ s.launch (s.core 0).lid = none :=
  ⟨idle 0 { core8 with outs := [someLoad true none] }, someLoad true none, by decide⟩

theorem witness_Retirement_bank : ((idle 0 core8).ms.owner 7 (15 % 16)).scratch = false := by decide

theorem witness_Retirement : (idle 0 core8).launch ((idle 0 core8).core 9).lid = none := by decide

/-! ### Cores -/

/-- Core 0 with a bundle at word 100. -/
def coded (ws : List (Nat × W32)) : State := idle 0 { core8 with imem := ws }

/-- An `add` (the first word of R55's example), alone in a bundle at word 100. -/
def addBundle : List (Nat × W32) := [(100, 0xD0040000), (101, 0x00430420)]

theorem witness_BundleFetch : ∃ b, ((coded addBundle).core 0).run = .running ∧ ((coded addBundle).core 0).fetched = none ∧
    ((coded addBundle).core 0).closing = none ∧ ((coded addBundle).core 0).ending = none ∧
    decodeBundle ((coded addBundle).core 0).fetch 100 false = .ok b := ⟨_, rfl, rfl, rfl, rfl, rfl⟩

theorem witness_BundleFetch_defect : ∀ slips ∈ [[], [slipped]], ∃ d, let s := idle 0 { core8 with slips := slips }
    (s.core 0).run = .running ∧ (s.core 0).fetched = none ∧ (s.core 0).closing = none ∧ (s.core 0).ending = none ∧ (s.core 0).slips = slips ∧
      decodeBundle (s.core 0).fetch 100 false = .error d := by
  intro slips h
  simp only [List.mem_cons, List.not_mem_nil, or_false] at h
  obtain rfl | rfl := h <;> exact ⟨_, rfl, rfl, rfl, rfl, rfl, rfl⟩

theorem witness_Watchdog : ∀ n ∈ [0xFFFFFF, 0x1000000], ∃ s : State, isFw 0 = false ∧ (s.core 0).busy = true ∧
    ((s.core 0).csrNow 0x068).toNat = 0x1000000 ∧ (s.core 0).wdogCount = n ∧ (s.core 0).wdogSeen < 0x1000000 := by
  intro n _
  exact ⟨idle 0 { core8 with wdogCount := n }, rfl, by rfl, by rfl, rfl, by
    show 0 < 0x1000000
    decide⟩

/-- Core 0 held by a read of a stale foreland, after `n` attempts. -/
def staleState (n : Nat) : State := idle 0 { core8 with hold := .staleBy 6 5 3, holdCount := n }

theorem witness_StepStale : ∀ n ∈ [2, 3], ((staleState n).core 0).hold = .staleBy 6 5 3 ∧ isFw 0 = false ∧
    ((staleState n).core 0).run = .running ∧ ((staleState n).core 0).slips = [] ∧ ((staleState n).core 0).holdCount = n := by decide

/-- A grid read that has stayed behind its bundle, 3 cycles or 2 at its limit of 3, alone or behind an older operation. -/
def staleSlip (older : Bool) (n : Nat) : State :=
  let x : Slip := { cls := .m, cur := cursorAt 0 .m0, op := .access (.ldg 4 1 2 7 false) .none, why := .staleBy 6 5 3 }
  idle 0 { core8 with slips := (if older then [slipped] else []) ++ [x], holdCount := n }

theorem witness_StepStale_slipped : ∀ n ∈ [2, 3], ∀ older : Bool, ∃ x : Slip, let k := (staleSlip older n).core 0
    k.slips.find? (fun x => x.cls == .m) = some x ∧ x.why = .staleBy 6 5 3 ∧ k.run = .running ∧ k.holdCount = n ∧ x.cur.bn ≤ k.bn ∧
    ((∃ y ∈ k.slips, y.cur.bn < x.cur.bn) ↔ older = true) := by
  intro n h older
  simp only [List.mem_cons, List.not_mem_nil, or_false] at h
  obtain rfl | rfl := h <;> cases older <;> exact ⟨_, rfl, rfl, rfl, rfl, by decide, by decide⟩

/-- Core 0 held by its full memory-layer queue, in a cluster that has given out `n` extension entries. -/
def stuckState (n : Nat) : State :=
  { idle 0 { core8 with hold := .queueFull, idle := 64, queues := [(2, List.replicate 16 (entryOf .nop []))] } with spill := [(0, n)] }

theorem witness_StuckCore : ∀ n ∈ [1008, 1009], isFw 0 = false ∧ ((stuckState n).core 0).busy = true ∧
    64 ≤ ((stuckState n).core 0).idle ∧ kget 0 (stuckState n).spill 0 = n := by
  intro n _
  exact ⟨rfl, by rfl, by rfl, rfl⟩

theorem witness_StuckCore_queue : ((stuckState 1008).core 0).smallestFull = some 2 := by decide

/-! ### The front end -/

/-- A module in service. -/
def service (s : State) : State := { s with sec := { s.sec with phase := .firmware } }

theorem witness_WakeWrite : (service (idle 0 core8)).sec.phase = .firmware ∧ 255 < 256 ∧ 32 ≤ 32 ∧ 32 % 8 = 0 := by decide

theorem witness_WakeProcess : ∃ (s : State) (w : Wake), s.fe.wakes = [w] ∧ capMac s w.words ≠ w.words.getD 3 0 := by
  let s0 := idle 0 core8
  let w : Wake := { words := [0, 0, 0, capMac s0 [0, 0, 0] + 1], tail := 0, device := none, ctx := 0 }
  refine ⟨{ s0 with fe := { s0.fe with wakes := [w] } }, w, rfl, fun h => ?_⟩
  have h1 : capMac s0 [0, 0, 0] = capMac s0 [0, 0, 0] + 1 := h
  have h2 := congrArg (fun x => x - capMac s0 [0, 0, 0]) h1
  simp at h2

/-- A queue, its capability's words, and a wake of tail `n` with them. -/
def acceptedState (n : Nat) : State :=
  let q : QueueEntry := { base := 0x1000, nonce := 1, size := 3, prio := 7, owner := 0, rights := 255, state := .idle, tail := 2
                          head := 2, resident := 64, ringBase := 0x2000, evBase := 0, evLog := 0, events := 0, waited := none
                          done := 0, launches := [] }
  let s := service (idle 0 core8)
  { s with fe := { s.fe with
    queues := [(5, q)], wakes := [{ words := [0x1000, 0x1FF, 1, capMac s [0x1000, 0x1FF, 1]], tail := BitVec.ofNat 64 n, device := none, ctx := 0 }] } }

/-- An unchanged tail, and a full queue. -/
theorem witness_WakeProcess_accepted : ∀ n ∈ [2, 10], ∃ (w : Wake) (q : QueueEntry), let s := acceptedState n
    s.fe.wakes = [w] ∧ w.device = none ∧ capMac s w.words = w.words.getD 3 0 ∧ s.queue 5 = q ∧
    (s.fe.queues.find? fun x => x.2.state != .free && x.2.base == w.words.getD 0 0 && x.2.nonce == (w.words.getD 2 0).toNat) = some (5, q) ∧
    q.state ≠ .error ∧ (w.words.getD 1 0).toNat.testBit 8 = true ∧ q.tail ≤ w.tail.toNat ∧ w.tail.toNat - q.head ≤ 2 ^ q.size := by
  intro n h
  simp only [List.mem_cons, List.not_mem_nil, or_false] at h
  obtain rfl | rfl := h
  all_goals exact ⟨_, _, rfl, rfl, rfl, rfl, rfl, nofun, by decide, by decide, by decide⟩

/-- A resident queue with one command, whose first eight bytes are given. -/
def commandState (first : Nat) : State :=
  let q : QueueEntry := { base := 0x1000, nonce := 1, size := 0, prio := 7, owner := 0, rights := 255, state := .active, tail := 1
                          head := 0, resident := 63, ringBase := 0x2000, evBase := 0, evLog := 0, events := 0, waited := none
                          done := 0, launches := [] }
  let s := service (idle 0 core8)
  { s with
    fe := { s.fe with queues := [(5, q)] }
    ms := { s.ms with mem := if first = 0 then [] else [(0x2000, BitVec.ofNat 8 first)] } }

theorem witness_Commands : ∀ x ∈ [(0, CommandKind.nop), (1, .launch), (2, .signal), (3, .bad)],
    ((commandState x.1).arbiter.map fun y => (y.1, y.2.1)) = some (5, x.2) := by
  decide +kernel

theorem witness_QuantExpiry : ∃ s t : State, s.fe.quant ≤ s.cycle - s.fe.quantAt ∧ s.sec.phase = .firmware ∧
    t.cycle - t.fe.quantAt < t.fe.quant :=
  ⟨{ service (idle 0 core8) with cycle := 3200000 }, service (idle 0 core8), by decide, rfl, by decide⟩

theorem witness_HeadWaitTimeout : ∀ n ∈ [4095, 4096], ∃ (s : State) (e c : Nat) (q : QueueEntry),
    s.fe.queues.find? (fun x => x.2.resident == 63 && decide (63 < 64 ∧ x.2.head < x.2.tail)) = some (e, q) ∧ q.waited = some c ∧
      s.cycle - c = n := by
  intro n _
  let s := commandState 0
  let q : QueueEntry := { s.queue 5 with waited := some 0 }
  exact ⟨{ s with fe := { s.fe with queues := [(5, q)] }, cycle := n }, 5, 0, q, rfl, rfl, rfl⟩

theorem witness_QueueReset : ((commandState 0).queue 5).state ≠ .free := by decide

/-- A launch that waits for a pool entry. -/
def pooling : Started := startedAt (entryOf (.launch 1 2 false tok1) [0]) (.pooling (launchOf .pending 4).desc false)

/-- A full pool, with `units` pages to grow by, and a waiting launch of a context whose cores stand still. -/
def fullPool (units : Nat) : State :=
  let s : State := idle 0 { core8 with started := [pooling], still := 1024 }
  { s with cycle := 1024, fe := { s.fe with pool := List.replicate 4096 (launchOf .pending 4), overflowUnits := units } }

theorem witness_PoolGrowth : ∀ units ∈ [0, 1], let s := fullPool units
    s.poolWaiters.find? (fun w => s.ctxStill (taskCtx s w)) = some (0, pooling) ∧ s.fe.poolSize ≤ s.fe.pool.length ∧
    (s.fe.grown < s.fe.overflowUnits ↔ units = 1) := by
  intro units h
  simp only [List.mem_cons, List.not_mem_nil, or_false] at h
  refine ⟨by obtain rfl | rfl := h <;> decide +kernel, ?_, by obtain rfl | rfl := h <;> decide⟩
  show 4096 ≤ (List.replicate 4096 (launchOf .pending 4)).length
  rw [List.length_replicate]

/-! ### Launches, suspension, managers -/

/-- A module with one launch on core 0, whose core is in a run state. -/
def launchState (st : LaunchState) (r : Run) : State :=
  let s := service (idle 0 { core8 with run := r, lid := 1 })
  { s with fe := { s.fe with pool := [launchOf st 2], nextLid := 2 } }

theorem witness_LaunchRelease : ∃ l, (launchState .pending .free).launch 1 = some l ∧ l.state = .pending ∧
    (launchState .pending .free).mayRun l = true ∧ (hubRead (launchState .pending .free) l.ctx (BitVec.ofNat 64 (l.desc.image + 64))
      (4 * l.desc.hdr.text + l.desc.hdr.data + l.desc.hdr.routes)).bad = none := ⟨launchOf .pending 2, by decide +kernel⟩

theorem witness_LaunchRelease_waits : ∃ l, (launchState .pending .running).launch 1 = some l ∧
    (launchState .pending .running).mayRun l = false := ⟨launchOf .pending 2, by decide⟩

theorem witness_LaunchComplete : ∃ l, (launchState .completing .free).launch 1 = some l ∧ l.state = .completing :=
  ⟨launchOf .completing 2, by decide⟩

theorem witness_PreemptionRequest : ∃ l, (launchState .running .running).launch 1 = some l ∧ l.state = .running :=
  ⟨launchOf .running 2, by decide⟩

/-- A waiting launch of a higher or of the same effective priority as the gang that holds its core. -/
def wanting (eff : Nat) : State :=
  let s := launchState .running .running
  { s with fe := { s.fe with pool := [launchOf .running 2, { launchOf .pending 4 with lid := 2, eff := eff }] } }

theorem witness_PreemptionRequest_waiting : ∀ eff ∈ [4, 5], ∃ l, (wanting eff).launch 2 = some l ∧ l.state ≠ .running ∧ l.waits = true ∧
    (wanting eff).holders l ≠ [] ∧ ((∀ g ∈ (wanting eff).holders l, l.eff < g.eff) ↔ eff = 4) := by
  intro eff h
  simp only [List.mem_cons, List.not_mem_nil, or_false] at h
  obtain rfl | rfl := h
  all_goals exact ⟨_, rfl, by decide, rfl, by decide, by decide⟩

/-- A pre-empted launch whose task is saved. -/
def savedState : State :=
  let s := launchState .preempted .free
  { s with cores := [(0, { core8 with run := .free }), (65536, { core8 with run := .saved, lid := 1 })] }

theorem witness_GangResume : ∃ l, savedState.launch 1 = some l ∧ l.state = .preempted ∧ savedState.mayRun l = true ∧ l.desc.gang = [0] ∧
    (savedState.core 65536).lid = 1 ∧ (savedState.core 65536).run = .saved ∧ (savedState.core 65536).finalWait = false ∧
    savedState.reload 65536 = some savedState ∧ l.desc.slotFlag = false :=
  ⟨launchOf .preempted 2, rfl, rfl, by decide, rfl, rfl, rfl, rfl, rfl, rfl⟩

theorem witness_CoreHalt : ∃ l, (launchState .preempting .running).launch ((launchState .preempting .running).core 0).lid = some l ∧
    l.state = .preempting ∧ ((launchState .preempting .running).core 0).run = .running ∧
    ((launchState .preempting .running).core 0).closing = none ∧ ((launchState .preempting .running).core 0).late = [] :=
  ⟨launchOf .preempting 2, by decide⟩

theorem witness_SaveComplete : ∃ s : State, (s.core 0).run = .halted ∧ (s.core 0).isSaved = false ∧ s.drained 0 = true ∧
    s.launch (s.core 0).lid = none := ⟨idle 0 { core8 with run := .halted }, by decide⟩

theorem witness_SaveComplete_gang : ∃ l, let s := launchState .preempting .halted
    (s.core 0).run = .halted ∧ (s.core 0).isSaved = false ∧ s.drained 0 = true ∧ s.launch (s.core 0).lid = some l ∧
    l.state = .preempting ∧ l.fate = none ∧ l.desc.gang = [0] ∧ 0 < l.lid := ⟨launchOf .preempting 2, by decide⟩

/-- A trapped core of a running launch with a handler, saved or not. -/
def trappedState (isSaved : Bool) : State :=
  let s := service (idle 0 { core8 with run := .trapped, lid := 1, isSaved := isSaved })
  let l := launchOf .running 2
  { s with fe := { s.fe with pool := [{ l with desc := { l.desc with handlerValid := true, handler := 12 } }], nextLid := 2 } }

theorem witness_Tdisp : ∀ b, ∃ l, ((trappedState b).core 0).run = .trapped ∧ (trappedState b).launch ((trappedState b).core 0).lid = some l ∧
    l.state = .running ∧ ((trappedState b).core 0).isSaved = b ∧ l.desc.handlerValid = true ∧ (trappedState b).reload 0 = some (trappedState b) :=
  fun b => ⟨_, rfl, rfl, rfl, rfl, rfl, by cases b <;> rfl⟩

/-- Core 0 without a launch, saved after a trap at word 99, behind which some operations stay. -/
def stoppedState (slips : List Slip) : State :=
  idle 0 { core8 with run := .trapped, isSaved := true, slips := slips, csr := kset 0 core8.csr 0x051 99 }

theorem witness_Tdisp_alone : ∀ slips ∈ [[], [slipped]],
    let s := stoppedState slips
    (s.core 0).run = .trapped ∧ s.launch (s.core 0).lid = none ∧ (s.core 0).isSaved = true ∧ s.reload 0 = some s ∧
      (s.core 0).finalWait = false ∧ (s.core 0).slips = slips ∧
      (slips ≠ [] → ((s.core 0).csrNow 0x051).toNat = (s.core 0).stopPc % 16384) := by
  intro slips h
  simp only [List.mem_cons, List.not_mem_nil, or_false] at h
  obtain rfl | rfl := h
  · exact ⟨rfl, rfl, rfl, rfl, rfl, rfl, fun h => absurd rfl h⟩
  · exact ⟨rfl, rfl, rfl, rfl, rfl, rfl, fun _ => by decide⟩

/-- A trapped core of a running launch, saved; its classes stand where it stopped, or firmware has moved `tepc`, or its bundle has still to end. -/
theorem witness_Tdisp_running : ∀ x ∈ [([], none, 99), ([slipped], none, 99), ([slipped], none, 50),
    ([], some { len := 1, header := (0 : W32), sync := false, pad := 0, le := 0, ops := [], pairs := [] }, 100)],
    let s := (trappedState true).modCore 0 fun k => { k with slips := x.1, ending := x.2.1, csr := kset 0 k.csr 0x051 (BitVec.ofNat 64 x.2.2) }
    (s.core 0).run = .trapped ∧ (∃ l, s.launch (s.core 0).lid = some l ∧ l.state = .running) ∧ (s.core 0).isSaved = true ∧
      s.reload 0 = some s ∧ (s.core 0).finalWait = false ∧
      ((x.1 ≠ [] ∨ x.2.1 ≠ none) → (s.core 0).stopsAt ((s.core 0).csrNow 0x051).toNat = decide (x.2.2 ≠ 50)) := by
  intro x h
  simp only [List.mem_cons, List.not_mem_nil, or_false] at h
  obtain rfl | rfl | rfl | rfl := h <;> exact ⟨rfl, ⟨_, rfl, rfl⟩, rfl, rfl, rfl, by decide⟩

/-- A core that halts while a class lags behind the loop-end bundle. -/
theorem witness_CoreHalt_behind : ∃ l, let s := (launchState .preempting .running).modCore 0 fun k => { k with closing := some (1, 102), slips := [slipped] }
    s.launch (s.core 0).lid = some l ∧ l.state = .preempting ∧ (s.core 0).run = .running ∧ (s.core 0).slips ≠ [] ∧ (s.core 0).late = [] :=
  ⟨launchOf .preempting 2, by decide⟩

/-- Sequence manager 7 commits a token or none, for an operation of core 0. -/
def commitState (cs : List Commit) : State :=
  let s := service (withStarted (startedAt (entryOf .nop []) .waiting))
  { s with hub := { s.hub with managers := [(7, { Manager.fresh bootConfig with commits := cs })] } }

theorem witness_CommitEnd : ∀ done : Bool, ∃ (c : Commit) (e : EngEntry), c.done = done ∧ ((commitState []).manager 7).commits = [] ∧
    ((commitState [c]).manager 7).commits = [c] ∧ ((commitState [c]).manager 7).waiting = [] ∧
    (commitState [c]).commitEntry c = some e ∧ (HubFlow.copyOut { st := commitState [c], time := Nat.max e.time e.inTime, data := [], bad := none }
      ((commitState [c]).manager 7).cfg (((commitState [c]).manager 7).slot c.slot) c).bad = none :=
  fun done => ⟨{ slot := 0, out := [], path := [], a := 0, done := done, took := [], core := 0, startedId := 7 }, _, rfl, rfl, rfl, rfl, rfl, by rfl⟩

/-- The smallest configuration of the card's ranges, and one without slots. -/
theorem witness_ManagerConfigure : ∀ n ∈ [0, 1], configOk { bootConfig with ctx := 65535, nslot := n, pt := 16, e := 64, npage := 1, res := 1 } =
    decide (n = 1) := by decide

/-! ### Boot, mailbox, BAR2 -/

/-- A module in a phase. -/
def phased (p : Phase) : State := { State.reset with agenda := [], sec := { State.reset.sec with phase := p } }

theorem witness_Phases : ∀ p, ∃ s : State, s.sec.phase = p ∧ s.sec.mailStatus ≠ 1 ∧ s.sec.scrubPending = false ∧ s.agenda = [] := by
  intro p
  exact ⟨phased p, rfl, by show 0 ≠ 1; decide, rfl, rfl⟩

theorem witness_Phases_scrub : ∃ s : State, s.sec.scrubPending = true :=
  ⟨{ phased .off with sec := { (phased .off).sec with scrubPending := true } }, rfl⟩

theorem witness_Bar2 : ∃ s : State, s.sec.phase = .firmware ∧ 8 + 8 ≤ s.sec.bar2Size ∧ reachable (s.sec.bar2Base + 8) 8 = true ∧
    s.sec.bar2Size < 8 + 9 :=
  ⟨{ phased .firmware with sec := { (phased .firmware).sec with bar2Base := 0x10000, bar2Size := 16 } }, by decide⟩

theorem witness_Bar0 : 0x300000 ≤ 0x3FFFF8 ∧ 0x3FFFF8 + (leBytes 8 5).length ≤ 0x400000 := by decide

/-- A mailbox that works on the command of a code. -/
theorem witness_Mailbox : ∀ code ∈ [0, 1, 2, 3, 4, 5, 6], ∃ s : State, s.sec.phase = .recovery ∧ s.sec.mailStatus = 1 ∧
    s.sec.mailCommand.toNat = code := by
  intro code h
  refine ⟨{ phased .recovery with sec := { (phased .recovery).sec with mailStatus := 1, mailCommand := BitVec.ofNat 64 code } }, rfl, rfl, ?_⟩
  revert h code
  decide

/-- A command's word. -/
theorem witness_Mailbox_command : ∀ code ∈ [1, 2, 3, 4, 5, 6], ∃ e, mailCommand code = [e] ∧ leNat (leBytes 8 code) = code := by
  intro code h
  simp only [List.mem_cons, List.not_mem_nil, or_false] at h
  obtain rfl | rfl | rfl | rfl | rfl | rfl := h <;> exact ⟨_, rfl, by decide⟩

/-- A write through BAR2 that crosses a line. -/
theorem witness_Bar2_lines : ∃ s : State, s.sec.phase = .firmware ∧ 0 + 16 ≤ s.sec.bar2Size ∧ reachable (s.sec.bar2Base + 0) 16 = true ∧
    64 - (s.sec.bar2Base + 0) % 64 = 8 :=
  ⟨{ phased .firmware with sec := { (phased .firmware).sec with bar2Base := 0x10038, bar2Size := 16 } }, by decide⟩

/-! ### Frames, decoding, steps -/

theorem witness_RegisterOperationsFrame : ∃ (s t : State) (c : Cursor), registerOnly (.add 3 1 2) = true ∧ s.cur = some c ∧
    c.trapped = none ∧ exec (.add 3 1 2) s = .next t ∧ t.cur = some c :=
  ⟨inSlot 0 (withRegs [1, 2]) .s0, _, cursorAt 0 .s0, rfl, rfl, rfl, rfl, rfl⟩

theorem witness_EncodedOperationsDecode : ∃ (m : OpMap) (op f : Nat) (ext : List Nat),
    (Instr.cpym 1 2 3 15 62 16 tok1).wf = true ∧ (Instr.cpym 1 2 3 15 62 16 tok1).fields = some (m, op, f, ext) :=
  ⟨_, _, _, _, rfl, rfl⟩

theorem witness_DecodedWordsEncode : decodeOp .x 0x800A2CC0 0x08991000 0x14200000 =
    .ok (.mma 10 11 12 0 false 0 8 9 9 1 0 0 { prod := 5, c1 := 2, c2 := 0, c3 := 0, cr := false, ring := 0 }) := by decide

/-- Core 0 about to run the words from word 100 on. -/
def ready (ws : List Nat) : State := coded (ws.mapIdx fun i w => (100 + i, BitVec.ofNat 32 w))

theorem witness_BundleDefects : (coded []).agenda = [] ∧
    decodeBundle (fun p => if p = 16383 then 0xD0000000 else 0) 16383 false =
      .ok { len := 1, header := 0xD0000000, sync := false, pad := 0, le := 0, ops := [], pairs := [] } := ⟨rfl, by rfl⟩

/-- The `add` of R55's example, alone in its bundle. -/
theorem witness_StepRuns : ∃ (b : Bundle) (o : SlotOp), let s := ready [0xD0040000, 0x00430420]
    let s1 := ({ s with cur := none } : State).catchUp 0
    s.agenda = [] ∧ s.turn = 0 ∧ (s.core 0).run = .running ∧ (s1.core 0).run = .running ∧ (s1.core 0).closing = none ∧
    (s1.core 0).ending = none ∧ s1.boundary 0 = none ∧ (s1.core 0).starts = false ∧ (s1.core 0).fetched = none ∧ (s1.core 0).slips = [] ∧
    decodeBundle (s1.core 0).fetch (s1.core 0).pc (isFw 0) = .ok b ∧ (s1.core 0).mustWait b = none ∧
    (let s0 := (s1.setCore 0 { s1.core 0 with fetched := some b }).prepare 0 b
     s0.vectorClash (s0.cursor 0 b) b = none) ∧ (s1.core 0).loopEndOk b = true ∧ b.ops = [o] ∧ o.op = .add 3 1 2 ∧
    (s1.core 0).qualifies o.qual = true :=
  ⟨_, _, rfl, rfl, rfl, rfl, rfl, rfl, by rfl, rfl, rfl, rfl, rfl, by rfl, by rfl, by rfl, rfl, rfl, rfl⟩

/-- Two operations, one after the other: `nop` in S1 and then the `add`. -/
theorem witness_StepRuns_chain : ∃ t, Chain (cursorAt 0 .s0) false
    [{ slot := .s1, qual := .every, word := 0, op := .nop }, { slot := .s0, qual := .every, word := 0x00430420, op := .add 3 1 2 }]
    (inSlot 0 core8 .s0) t :=
  ⟨_, _, _, rfl, rfl, rfl, rfl, _, _, rfl, rfl, rfl, rfl, rfl⟩

/-- The cursor of a bundle that is not tried again, as slot A has it. -/
def slotA (split lag : Bool) : Cursor :=
  { cursorAt 0 .a with word := 0x03800803, op := .barw 2 3, whole := false, split := split, lag := lag }

/-- A `barw` of a bundle whose S0 ends the stream: it blocks, or stays behind by free choice, and the `tend` waits for it. -/
theorem witness_StepRuns_ends : ∃ t, Chain { cursorAt 0 .s0 with whole := false } false
    [{ slot := .a, qual := .every, word := 0x03800803, op := .barw 2 3 }] { inSlot 0 core8 .s0 with cur := none } t ∧
    Even t 0 8 0 ∧ (t.core 0).slips ≠ [] ∧
    lastOp [{ slot := .a, qual := .every, word := 0x03800803, op := .barw 2 3 }, { slot := .s0, qual := .every, word := 0x0DC00000, op := .tend }] =
      some { slot := .s0, qual := .every, word := 0x0DC00000, op := .tend } := by
  have key (split lag : Bool) : ∃ u e, exec (.barw 2 3) { inSlot 0 core8 .s0 with cur := some (slotA split lag) } = .next u ∧ u.cur = some e ∧
      e.trapped = none ∧ e.held = .none ∧ Even u 0 8 0 ∧ (u.core 0).slips ≠ [] := by
    cases split <;> cases lag <;> exact ⟨_, _, rfl, rfl, rfl, rfl, .inl rfl, nofun⟩
  obtain ⟨u, e, h1, h2, h3, h4, h5, h6⟩ := key (Config.freeBit 0 (991 + Slot.a.index)) (Config.freeBit 0 (973 + Slot.a.index))
  exact ⟨u, ⟨u, e, h1, h2, h3, h4, rfl⟩, h5, h6, rfl⟩

/-- Core 0 with a pending handle, before a bundle's slots. -/
def pendingState : State := { inSlot 0 { withRegs [0, 0, ownA] with handles := [(7, { Handle.none with pending := true })] } .s0 with cur := none }

/-- The cursor of a memory slot of a bundle that is not tried again. -/
def slotM (sl : Slot) (op : Instr) (split lag : Bool) : Cursor :=
  { cursorAt 0 sl with op := op, whole := false, split := split, lag := lag }

/-- A load from the own buffer in M0 beside a grid read that blocks in M1: unless both stay behind by free choice, the M class has dispatched one alone. -/
theorem witness_StepRuns_uneven : ∀ lag : Bool, ∃ t, Chain { cursorAt 0 .s0 with whole := false } lag
    [{ slot := .m0, qual := .every, word := 0, op := .ld 5 3 .d }, { slot := .m1, qual := .every, word := 0, op := .ldg 4 1 2 7 true }]
    pendingState t ∧ (Even t 0 8 2 ↔ (lag || Config.freeBit 0 971) = true) := by
  intro lag
  have one (x late : Bool) : ∃ u, exec (.ld 5 3 .d) { pendingState with cur := some (slotM .m0 (.ld 5 3 .d) x late) } = .next u ∧
      u.cur = some (slotM .m0 (.ld 5 3 .d) x late) ∧ u.free = 0 ∧ ∀ y : Bool,
      ∃ v, exec (.ldg 4 1 2 7 true) { u with cur := some (slotM .m1 (.ldg 4 1 2 7 true) y late) } = .next v ∧
        v.cur = some (slotM .m1 (.ldg 4 1 2 7 true) y late) ∧ (Even v 0 8 2 ↔ late = true) := by
    cases x <;> cases late
    all_goals refine ⟨_, rfl, rfl, rfl, fun y => ?_⟩
    all_goals cases y
    all_goals refine ⟨_, rfl, rfl, ?_⟩
    all_goals unfold Claims.Even; decide
  obtain ⟨u, h1, h2, h3, h4⟩ := one (Config.freeBit 0 (991 + Slot.m0.index)) (lag || Config.freeBit 0 971)
  obtain ⟨v, h5, h6, h7⟩ := h4 (Config.freeBit 0 (991 + Slot.m1.index))
  have hc (x : Bool) (op : Instr) : slotCursor u lag (slotM .m0 op x (lag || Config.freeBit 0 971))
      { slot := .m1, qual := .every, word := 0, op := .ldg 4 1 2 7 true } =
      slotM .m1 (.ldg 4 1 2 7 true) (Config.freeBit 0 (991 + Slot.m1.index)) (lag || Config.freeBit 0 971) := by
    have hf : isFw 0 = false := rfl
    simp [slotCursor, h3, slotM, cursorAt, hf]
  refine ⟨v, ⟨u, _, ?_, h2, rfl, rfl, v, _, ?_, h6, rfl, rfl, rfl⟩, h7⟩
  · cases lag <;> exact h1
  · rw [h2, Option.getD_some, hc]
    exact h5

/-- `viota v1` in V0 and V1, both with their clusters enabled. -/
theorem witness_StepRuns_clash : ∃ (b : Bundle) (y : Slot), let s := ready [0xD0300000, 0x08010001, 0x08010001]
    let s1 := ({ s with cur := none } : State).catchUp 0
    decodeBundle (s1.core 0).fetch (s1.core 0).pc (isFw 0) = .ok b ∧ (s1.core 0).mustWait b = none ∧
    (let s0 := (s1.setCore 0 { s1.core 0 with fetched := some b }).prepare 0 b
     s0.vectorClash (s0.cursor 0 b) b = some y) := ⟨_, _, rfl, by rfl, by rfl⟩

theorem witness_StepTakesTheAgenda : ∃ (s t : State), s.agenda = [.powerOn] ∧ exec .powerOn { s with agenda := [], cur := none } = .next t :=
  ⟨State.reset, _, rfl, rfl⟩

theorem witness_StepKeepsMemoryForm : ∃ s t : State, Memory.wf s.ms.mem ∧ step s = .next t :=
  ⟨State.reset, _, by decide, rfl⟩
end Sys2Proof.Tests
end

section
/-!
What shared operations of the model leave: sparse arrays, memories, started operations, outstanding accesses, packets, barriers, events, and
the hub where a saved task is dropped.
-/
namespace Sys2Proof.Machine

open Sys2Proof.Claims

/-! ### Sparse arrays and memories -/

theorem kget_of_absent {α : Type} (d : α) {m : KMap α} {i : Nat} (h : ∀ e ∈ m, e.1 ≠ i) : kget d m i = d := by
  simpa using kget_append d m [] i h

theorem kget_append_of_absent {α : Type} (d : α) (m : KMap α) {n : KMap α} {i : Nat} (h : ∀ e ∈ n, e.1 ≠ i) :
    kget d (m ++ n) i = kget d m i := by
  induction m with
  | nil => exact kget_of_absent d h
  | cons e m ih => simp only [List.cons_append, kget, ih]

/-- Where the values put at an index one after another agree, their value stands there in the end. -/
theorem kget_foldl_kput {α β : Type} (d : α) (key : β → Nat) (val : β → α) (xs : List β) (m : KMap α) {i : Nat} {v : α}
    (hv : ∀ y ∈ xs, key y = i → val y = v) (hm : kget d m i = v ∨ ∃ y ∈ xs, key y = i) :
    kget d (xs.foldl (fun m x => kput m (key x) (val x)) m) i = v := by
  induction xs generalizing m with
  | nil => exact hm.resolve_right nofun
  | cons x xs ih =>
    refine ih _ (fun y hy => hv y (.tail _ hy)) ?_
    by_cases hx : key x = i
    · exact .inl (by rw [← hx, kget_kput_same, hv x (.head _) hx])
    · rw [kget_kput_other d m (val x) (Ne.symm hx)]
      refine hm.imp_right fun ⟨y, hy, hk⟩ => ⟨y, ?_, hk⟩
      obtain rfl | hy := List.mem_cons.mp hy
      · exact absurd hk hx
      · exact hy

/-- In a memory in canonical form a read of one byte gives the byte. -/
theorem mread_one {m : Memory} (h : m.Pairwise fun a b => a.1 < b.1) (a : Nat) : mread m a 1 = [mget m a] := by
  induction m with
  | nil => rfl
  | cons e m ih =>
    obtain ⟨k, b⟩ := e
    obtain ⟨hk, hm⟩ := List.pairwise_cons.mp h
    by_cases hlt : k < a
    · have : mread ((k, b) :: m) a 1 = mread m a 1 := by simp [mread, hlt]
      rw [this, ih hm, mget, mget, kget, if_neg (by omega)]
    · by_cases heq : k = a
      · simp [mread, mget, window, kget, heq]
      · have absent : mget m a = 0 := kget_of_absent 0 fun e he => by
          have : k < e.1 := hk e he
          omega
        rw [show mget ((k, b) :: m) a = mget m a from if_neg heq, absent]
        simp [mread, window, heq, hlt]

/-! ### Started operations -/

/-- A member of a list in which every entry with identifier `id` got stage `st`. -/
theorem stage_of_mem_restaged {xs : List Started} {id : Nat} {st : Stage} {y : Started}
    (hy : y ∈ xs.map fun x => if x.id = id then { x with stage := st } else x) (hid : y.id = id) : y.stage = st := by
  obtain ⟨x, -, rfl⟩ := List.mem_map.mp hy
  by_cases hx : x.id = id
  · simp [hx]
  · simp [hx] at hid

theorem State.stage_of_mem_setStage {s : State} {core id : Nat} {st : Stage} {y : Started}
    (hy : y ∈ ((s.setStage core id st).core core).started) (hid : y.id = id) : y.stage = st := by
  rw [State.setStage, State.core_modCore] at hy
  exact stage_of_mem_restaged hy hid

/-- Operation `id` of a core, where it has started, is done and waits for its completion only. -/
def State.finishedAt (s : State) (core id : Nat) : Prop :=
  ∀ y ∈ (s.core core).started, y.id = id → ∃ o, y.stage = .finished o false ∧ o.st = .done

theorem State.finishedAt_finish (s : State) (core id : Nat) {o : Outcome} (ho : o.st = .done) : (s.finish core id o).finishedAt core id := by
  intro y hy hid
  rw [State.finish, State.core_modCore] at hy
  exact ⟨o, stage_of_mem_restaged hy hid, ho⟩

theorem State.finishedAt.finish {s : State} {core id : Nat} (h : s.finishedAt core id) (c i : Nat) {o : Outcome} (ho : o.st = .done) :
    (s.finish c i o).finishedAt core id := by
  intro y hy hid
  by_cases hc : core = c
  · subst hc
    rw [State.finish, State.core_modCore] at hy
    obtain ⟨x, hx, rfl⟩ := List.mem_map.mp hy
    by_cases hi : x.id = i
    · simp only [hi, if_true]
      exact ⟨o, rfl, ho⟩
    · rw [if_neg hi] at hid ⊢
      exact h x hx hid
  · rw [State.finish, State.core_modCore_other _ _ hc] at hy
    exact h y hy hid

/-! ### Outstanding accesses -/

/-- A change of a core's accesses that keeps their identifiers. -/
theorem Core.out_map {k k' : Core} {f : Outstanding → Outstanding} (hk : k'.outs = k.outs.map f) (hf : ∀ o, (f o).id = o.id) (n : Nat) :
    k'.out n = (k.out n).map f := by
  have : (fun o : Outstanding => o.id == n) ∘ f = fun o => o.id == n := funext fun o => by simp [hf]
  rw [Core.out, hk, List.find?_map, this, Core.out]

/-- Where a core's memory slots have left nothing for later, the end of an access changes, of the core, only what its releases wait for. -/
theorem State.drainCore_of_late_nil {s : State} {core : Nat} (h : (s.core core).late = []) :
    (s.drainCore core).ms = s.ms ∧ (s.drainCore core).core core =
      { s.core core with outs := (s.core core).outs.map fun o => { o with rel := o.rel.filter (s.core core).unacked } } := by
  have flush {t : State} (ht : (t.core core).late = []) : t.flushLate core = t := by
    simp [State.flushLate, ht]
  constructor
  · show ((s.modCore core _).flushLate core).ms = s.ms
    rw [flush (by rw [State.core_modCore]; exact h), State.modCore_ms]
  · show ((s.modCore core _).flushLate core).core core = _
    rw [flush (by rw [State.core_modCore]; exact h), State.core_modCore]

/-! ### Packets that leave the package -/

@[simp] theorem State.forward_ms (s : State) (group : Nat) (came : Option Nat) (origin addr : Nat) (bs : List Byte) :
    (s.forward group came origin addr bs).ms = s.ms := by
  unfold State.forward
  refine List.foldlRecOn _ _ (motive := fun t : State => t.ms = s.ms) rfl fun t ht p _ => ?_
  split <;> exact ht

@[simp] theorem State.replicate_ms (s : State) (ctx addr : Nat) (bs : List Byte) : (s.replicate ctx addr bs).ms = s.ms :=
  State.forward_ms ..

/-! ### Barriers -/

/-- A barrier update with its completion test is what R313 and R314 say. -/
theorem Barrier.update_complete (b : Barrier) (v : BarVariant) (n : W64) (time : Nat) :
    (b.update v n time).map Barrier.complete = barrierAfter b v n.toNat time := by
  cases v with
  | init => rfl
  | exp => rfl
  | arr =>
    unfold Barrier.update barrierAfter
    by_cases h : b.c = 0 ∨ b.pending = 0
    · simp [h]
    · simp [h, Barrier.complete]
  | arrexp =>
    unfold Barrier.update barrierAfter
    by_cases h : b.c = 0 ∨ b.pending = 0
    · simp [h]
    · simp [h, Barrier.complete]

@[simp] theorem State.barriers_putBarrier (s : State) (core b : Nat) (x : Barrier) :
    kget Barrier.none ((s.putBarrier core b x).core core).barriers b = x.complete := by
  simp [State.putBarrier, kget_kset]

/-! ### The near tier, events and the error log -/

theorem MemSys.evict_migration (ms : MemSys) (l : Nat) : (ms.evict l).migration = ms.migration := by
  unfold MemSys.evict
  split <;> rfl

theorem MemSys.foldl_evict_migration (ls : List Nat) (ms : MemSys) : (ls.foldl MemSys.evict ms).migration = ms.migration :=
  List.foldlRecOn ls _ (motive := fun m : MemSys => m.migration = ms.migration) rfl fun m hm l _ => (m.evict_migration l).trans hm

theorem State.report_fwEvents (s : State) (col source cause : Nat) (tval : W64) :
    ∃ f, kget [] (s.report col source cause tval).hub.fwEvents f =
      kget [] s.hub.fwEvents f ++ [{ source := source, cause := cause, tval := tval }] :=
  ⟨fwCol s col, kget_kput_same ..⟩

theorem State.logError_ms (s : State) : s.logError.ms = s.ms := by
  unfold State.logError
  rfl

/-! ### What dropping a saved task leaves of the hub (R26, R369) -/

theorem State.discardPart_hub (s : State) (src id i : Nat) : (s.discardPart src id i).hub = s.hub := by
  unfold State.discardPart
  split
  · split
    · split <;> rfl
    · rfl
  · rfl

theorem State.discardPacket_hub (s : State) (p : NetPacket) : (s.discardPacket p).hub = s.hub := by
  unfold State.discardPacket
  split
  · exact s.discardPart_hub ..
  · exact s.discardPart_hub ..
  · exact s.discardPart_hub ..
  · exact s.discardPart_hub ..
  · rfl
  · rfl

theorem State.foldl_discardPacket_hub (ps : List NetPacket) (s : State) : (ps.foldl State.discardPacket s).hub = s.hub :=
  List.foldlRecOn ps _ (motive := fun t : State => t.hub = s.hub) rfl fun t ht p _ => (t.discardPacket_hub p).trans ht

theorem State.discardHeld_hub (s : State) (dst : Nat) : (s.discardHeld dst).hub = s.hub :=
  State.foldl_discardPacket_hub ..

theorem State.discardLate_hub (s : State) (dst : Nat) : (s.discardLate dst).hub = s.hub :=
  List.foldlRecOn _ _ (motive := fun t : State => t.hub = s.hub) (State.foldl_discardPacket_hub ..)
    fun t ht _ _ => (t.discardPart_hub ..).trans ht

theorem State.saveToken_hub (s : State) (core n : Nat) (t : Token) : (s.saveToken core n t).hub = s.hub := by
  unfold State.saveToken
  split
  · split <;> rfl
  · rfl

theorem State.retire_hub (s : State) (core n gen : Nat) (o : Outcome) : (s.retire core n gen o).hub = s.hub := by
  unfold State.retire
  split
  · rfl
  · exact s.saveToken_hub ..

theorem State.endMatrix_hub (s : State) (core cause : Nat) : (s.endMatrix core cause).hub = s.hub := by
  simp only [State.endMatrix]
  split
  · rfl
  · exact List.foldlRecOn _ _ (motive := fun t : State => t.hub = s.hub) rfl fun t ht _ _ => (State.retire_hub ..).trans ht

theorem State.returnAll_hub (s : State) (core : Nat) : (s.returnAll core).hub = s.hub := rfl

theorem State.absent_disown (s : State) (cores : List Nat) : (s.disown cores).hub.absent = s.hub.absent := rfl

theorem State.absent_rename (s : State) (i j : Nat) : (s.rename i j).hub.absent = s.hub.absent := rfl

theorem State.absent_dropSaved (s : State) (l : Launch) (cause : Option Nat) : (s.dropSaved l cause).hub.absent = s.hub.absent := by
  refine List.foldlRecOn _ _ (motive := fun t : State => t.hub.absent = s.hub.absent) rfl fun t ht e _ => ?_
  show (((((_ : State).discardHeld e.1).discardLate e.1).returnAll e.1).disown [e.1] |>.rename e.1 _).hub.absent = _
  rw [State.absent_rename, State.absent_disown, State.returnAll_hub, State.discardLate_hub, State.discardHeld_hub]
  cases cause with
  | none => exact ht
  | some c => rwa [State.endMatrix_hub]

/-- A launch that is saved and fails is dropped. -/
theorem State.absent_failLaunch_of_preempted {s : State} {l : Launch} (h : l.state = .preempted) (st : TokState) (cause : Nat) :
    (s.failLaunch l st cause).hub.absent = s.hub.absent := by
  simp only [State.failLaunch, h, State.modLaunch]
  exact s.absent_dropSaved l (some cause)

end Sys2Proof.Machine
end

section
/-!
The starts of `slotrel`, `fence`, `bar` and `bankop`, and a row of `bankop.zero` (R11, R192, R194, R207, R312 to R314).
-/
namespace Sys2Proof.Machine

open Sys2Proof.Claims

/-! ### `bar` -/

/-- A local `bar` updates its barrier, or faults and leaves the state as it is (R314). -/
theorem startBar_local (s : State) (core : Nat) (v : BarVariant) (b : Nat) (e : EngEntry) :
    ∃ (s1 : State) (o : Outcome), startBar s core v false b e = (s1, .finished o false) ∧
      match barrierAfter (kget Barrier.none (s.core core).barriers b) v (e.vals.getD 1 0).toNat
          (Nat.max (s.core core).ltime e.inTime) with
      | some y => o.st = .done ∧ o.t = Nat.max (s.core core).ltime e.inTime ∧ kget Barrier.none (s1.core core).barriers b = y
      | none => o.st = .faulted ∧ o.cause = 0x19 ∧ s1 = s := by
  rw [← Barrier.update_complete]
  cases h : (kget Barrier.none (s.core core).barriers b).update v (e.vals.getD 1 0) (Nat.max (s.core core).ltime e.inTime) with
  | some x =>
    refine ⟨s.putBarrier core b x, outcome .done 0 0 (Nat.max (s.core core).ltime e.inTime), ?_, rfl, rfl,
      State.barriers_putBarrier s core b x⟩
    simp only [startBar, h, Bool.false_eq_true, if_false]
  | none =>
    refine ⟨s, outcome .faulted Cause.record.code 0 (Nat.max (s.core core).ltime e.inTime), ?_, rfl, rfl, rfl⟩
    simp only [startBar, h, Bool.false_eq_true, if_false]

/-! ### `slotrel` -/

/-- `slotrel` raises its counter, clamped at 255 (R312). -/
theorem startSlotrel_freeSlots (s : State) (core ctr : Nat) (e : EngEntry) :
    kget 0 ((startSlotrel s core ctr e).1.core core).freeSlots ctr =
      Nat.min 255 (kget 0 (s.core core).freeSlots ctr + (e.vals.headD 0).toNat) := by
  simp [startSlotrel, kget_kset]

/-! ### `bankop` -/

/-- One unit that starts at a multiple of the unit is one piece. -/
theorem piecesOf_aligned {u : Nat} {a : W64} (hu : 0 < u) (ha : a.toNat % u = 0) : piecesOf u a u = [(a, u)] := by
  simp [piecesOf, cutRange, ha, hu.ne']

theorem dramPieces_row {s : State} {core : Nat} {acc : Access} {a : W64} {p : Nat} (ha : a.toNat % 4096 = 0)
    (hp : dramOf s core acc a = .ok p) : dramPieces s core (homeCol p) acc a 4096 = .ok [(p, 4096)] := by
  simp [dramPieces, piecesOf_aligned (by decide) ha, hp]

/-- What the start of a bank operation whose destination lies in DRAM does: it waits for a mode switch, and is illegal in row mode (R11, R192). -/
theorem startBankop_mode {s : State} {core : Nat} {op : BankOp} {e : EngEntry} {p : Nat}
    (hf : (s.core core).lfenceBefore e.serial = false)
    (hp : dramOf s core (if op = .cmp then .read else .write) (e.vals.getD 0 0) = .ok p) :
    (s.layerMode (homeCol p) = none → startBankop s core op e = none) ∧
      (s.layerMode (homeCol p) = some false → startBankop s core op e = some (layerFault s e .illegalSlotOp)) := by
  refine ⟨fun hm => ?_, fun hm => ?_⟩ <;> simp only [startBankop, hf, hp, hm, Bool.false_eq_true, if_false]

/-- In bank mode a bank operation of length 0 is done at once. -/
theorem startBankop_empty {s : State} {core : Nat} {op : BankOp} {e : EngEntry} {p : Nat}
    (hf : (s.core core).lfenceBefore e.serial = false) (hn : e.vals.getD 2 0 = 0)
    (hp : dramOf s core (if op = .cmp then .read else .write) (e.vals.getD 0 0) = .ok p)
    (hm : s.layerMode (homeCol p) = some true) : startBankop s core op e = some (doneNow s e 0) := by
  have hv : e.val 2 = 0 := by rw [EngEntry.val, hn]; rfl
  simp only [startBankop, hf, hp, hm, hv, Bool.false_eq_true, if_false, if_true]

/-- In bank mode a `bankop.zero` of one row is accepted by the engines of its column (R194). -/
theorem startBankop_zero_row {s : State} {core : Nat} {e : EngEntry} {p : Nat}
    (hf : (s.core core).lfenceBefore e.serial = false) (hn : e.vals.getD 2 0 = 4096)
    (hp : dramOf s core .write (e.vals.getD 0 0) = .ok p) (ha : (e.vals.getD 0 0).toNat % 4096 = 0)
    (hm : s.layerMode (homeCol p) = some true) :
    startBankop s core .zero e = some (s, .layer (homeCol p) [] 0 (Nat.max e.time e.inTime)) := by
  have hv : e.val 2 = 4096 := by rw [EngEntry.val, hn]; rfl
  simp only [startBankop, hf, reduceCtorEq, if_false, hp, hm, hv, Bool.false_eq_true, if_true, dramPieces_row ha hp, false_and,
    OfNat.ofNat_ne_zero]

/-- The only row of a `bankop.zero` of 4 KiB: it is written with zeros, or, in a bank that is gone, faults (R194, R334). -/
theorem bankUnit_zero_row {s : State} {core time p : Nat} {x : Started} (hn : x.e.vals.getD 2 0 = 4096)
    (hp : dramOf s core .write (x.e.vals.getD 0 0) = .ok p) :
    if s.ms.deadAt (.phys p) 4096 = none then
      ∃ u : State, u.ms.mem = mwrite s.ms.mem p (List.replicate 4096 0) ∧
        bankUnit s core x .zero (homeCol p) 0 time = u.setStage core x.id (.finished (outcome .done 0 4096 time) false)
    else bankUnit s core x .zero (homeCol p) 0 time =
      s.setStage core x.id (.finished (outcome .faulted Cause.uncorrectable.code 0 time) false) := by
  have hv : x.e.val 2 = 4096 := by rw [EngEntry.val, hn]; rfl
  have ha : x.e.vals.getD 0 0 + BitVec.ofNat 64 (4096 * 0) = x.e.vals.getD 0 0 := by simp
  split
  · rename_i hd
    simp only [bankUnit, ha, reduceCtorEq, if_false, if_true, hp, hv, hd]
    refine ⟨_, ?_, rfl⟩
    split
    · exact congrArg MemSys.mem (State.replicate_ms ..)
    · rfl
  · rename_i hd
    have hd : (s.ms.deadAt (.phys p) 4096).isSome = true := Option.isSome_iff_ne_none.mpr hd
    simp only [bankUnit, ha, reduceCtorEq, if_false, if_true, hp, hd, Bool.or_true, Nat.mul_zero]

/-- A unit of an operation in the memory-layer engines (R193, R194). -/
theorem exec_copyChunk_layer {s : State} {core idx chunk col n time : Nat} {data : List Byte} {x : Started} {ids : List Nat}
    (hx : (s.core core).started[idx]? = some x) (hst : x.stage = .layer col ids n time) :
    exec (.copyChunk core idx chunk data) s = .next (s.layerUnit core x col ids n time data) := by
  show execCopyChunk core idx chunk data s = _
  simp [execCopyChunk, hx, hst]

theorem layerUnit_bankop {s : State} {core col n time : Nat} {idx : List Nat} {data : List Byte} {x : Started}
    {d a m : Reg} {op : BankOp} {tw : TokenWord} (ho : x.orphan = none) (hop : x.e.op = .bankop d a m op tw) :
    s.layerUnit core x col idx n time data = bankUnit s core x op col n time := by
  simp [State.layerUnit, State.forTask, ho, hop]

/-! ### O39 -/

/-- Settles O39: each clause is the lemma above about the start of its operation. -/
theorem operationStartsHaveTheirEffect : Obligations.OperationStartsHaveTheirEffect := by
  unfold Obligations.OperationStartsHaveTheirEffect
  refine ⟨?slotrel, ?fence, ?bar, ?empty, ?row, ?unit⟩
  case slotrel =>
    intro s core e n ctr tw hop
    refine ⟨(startSlotrel s core ctr.val e).1, outcome .done 0 0 (Nat.max e.time e.inTime), ?_, rfl, startSlotrel_freeSlots s core ctr.val e⟩
    simp only [startOp, hop]
    rfl
  case fence =>
    intro s core e scope tw hop
    refine ⟨outcome .done 0 0 _, ?_, rfl, rfl⟩
    simp only [startOp, hop]
    rfl
  case bar =>
    intro s core e v x n b tw hop
    obtain ⟨s1, o, hs, ho⟩ := startBar_local s core v b.val e
    refine ⟨s1, o, ?_, ho⟩
    simp only [startOp, hop, hs]
  case empty =>
    intro s core e d a n f tw p hop hf hn hp
    have hs : startOp s core e = startBankop s core f e := by simp only [startOp, hop]
    obtain ⟨hnone, hrow⟩ := startBankop_mode hf hp
    refine ⟨fun hm => hs.trans (hnone hm), fun b hm => ?_⟩
    cases b with
    | true => exact ⟨_, hs.trans (startBankop_empty hf hn hp hm), rfl, rfl⟩
    | false => exact ⟨_, hs.trans (hrow hm), rfl, rfl, rfl⟩
  case row =>
    intro s core e d a n tw p hop hf hn hp ha
    have hs : startOp s core e = startBankop s core .zero e := by simp only [startOp, hop]
    obtain ⟨hnone, hrow⟩ := startBankop_mode (op := .zero) hf hp
    exact ⟨fun hm => hs.trans (hnone hm), fun hm => ⟨_, hs.trans (hrow hm), rfl, rfl⟩,
      fun hm => hs.trans (startBankop_zero_row hf hn hp ha hm)⟩
  case unit =>
    intro s core idx chunk time data x d a n tw p hx ho hst hop hn hp
    refine ⟨_, (exec_copyChunk_layer hx hst).trans (congrArg _ (layerUnit_bankop ho hop)), ?_⟩
    have hu := bankUnit_zero_row (time := time) hn hp
    split at hu
    · rename_i hd
      obtain ⟨u, hmem, hu⟩ := hu
      rw [if_pos hd, hu]
      exact ⟨hmem, fun y hy hid => State.stage_of_mem_setStage hy hid⟩
    · rename_i hd
      rw [if_neg hd, hu]
      exact ⟨rfl, fun y hy hid => State.stage_of_mem_setStage hy hid⟩

end Sys2Proof.Machine
end

section
/-!
The layer mode and the migration of scratch ways (R11, R192, R330).
-/
namespace Sys2Proof.Machine

/-! ### The layer mode (R11, R192) -/

/-- The state with LMODE of a column set. -/
def State.withLmode (s : State) (col m : Nat) : State := { s with ms := { s.ms with lmode := kset 0 s.ms.lmode col m } }

theorem State.layerMode_withLmode (s : State) (col m : Nat) :
    (s.withLmode col m).layerMode col = if bits m 1 1 = 1 then none else some (bits m 0 1 == 1) := by
  simp only [State.withLmode, State.layerMode, kget_kset, if_true]

theorem exec_lmodeWrite_of_mode {s : State} {col : Nat} {old : Bool} (mode : Bool) (h : s.layerMode col = some old) :
    exec (.lmodeWrite col mode) s = .next (s.withLmode col ((if mode then 1 else 0) + 2)) := by
  show execLmodeWrite col mode s = _
  simp only [execLmodeWrite, h, State.withLmode]

theorem exec_lmodeWrite_of_switch {s : State} {col : Nat} (mode : Bool) (h : s.layerMode col = none) :
    exec (.lmodeWrite col mode) s = .next s := by
  show execLmodeWrite col mode s = _
  simp only [execLmodeWrite, h]

theorem exec_layerModeSwitchDone_of_mode {s : State} {col : Nat} {old : Bool} (h : s.layerMode col = some old) :
    exec (.layerModeSwitchDone col) s = .next s := by
  show execLayerModeSwitchDone col s = _
  simp only [execLayerModeSwitchDone, h]

theorem exec_layerModeSwitchDone_of_switch {s : State} {col : Nat} (h : s.layerMode col = none) :
    exec (.layerModeSwitchDone col) s =
      if s.layerBusy col then .next s else .next (s.withLmode col (kget 0 s.ms.lmode col % 2)) := by
  show execLayerModeSwitchDone col s = _
  simp only [execLayerModeSwitchDone, h, State.withLmode]

/-- LMODE_WRITE begins a switch, which ends with the new mode once the column's engines are idle. -/
theorem lmodeWrite_switches {s : State} {col : Nat} {old : Bool} (mode : Bool) (h : s.layerMode col = some old) :
    ∃ t, exec (.lmodeWrite col mode) s = .next t ∧ t.layerMode col = none ∧ t.ms.mem = s.ms.mem ∧
      (s.layerBusy col = true → exec (.layerModeSwitchDone col) t = .next t) ∧
      (s.layerBusy col = false → ∃ u, exec (.layerModeSwitchDone col) t = .next u ∧ u.layerMode col = some mode) := by
  have switching : (s.withLmode col ((if mode then 1 else 0) + 2)).layerMode col = none := by
    rw [State.layerMode_withLmode]
    cases mode <;> rfl
  have done := exec_layerModeSwitchDone_of_switch switching
  refine ⟨_, exec_lmodeWrite_of_mode mode h, switching, rfl, fun hb => done.trans (if_pos hb),
    fun hb => ⟨_, done.trans (if_neg (by rw [← Bool.not_eq_true] at hb; exact hb)), ?_⟩⟩
  rw [State.layerMode_withLmode]
  simp only [State.withLmode, kget_kset, if_true]
  cases mode <;> rfl

/-! ### Memory across the move of a way (R330) -/

/-- The cells of a window of `n` bytes at `src`, moved to `dst`. -/
def shifted (src dst n : Nat) (m : Memory) : Memory :=
  m.filterMap fun e => if decide (src ≤ e.1 ∧ e.1 < src + n) = true then some (e.1 - src + dst, e.2) else none

theorem shifted_bounds {src dst n : Nat} {m : Memory} {e : Host.Cell} (he : e ∈ shifted src dst n m) : dst ≤ e.1 ∧ e.1 < dst + n := by
  obtain ⟨x, -, hx⟩ := List.mem_filterMap.mp he
  split at hx
  · rename_i hin
    have hin := of_decide_eq_true hin
    obtain rfl := Option.some.inj hx
    constructor <;> simp only <;> omega
  · cases hx

theorem shifted_pairwise {m : Memory} (src dst n : Nat) (h : m.Pairwise fun a b => a.1 < b.1) :
    (shifted src dst n m).Pairwise fun a b => a.1 < b.1 := by
  refine h.filterMap _ fun x y hxy u hu v hv => ?_
  simp only [Option.ite_none_right_eq_some, Option.some.injEq, decide_eq_true_eq] at hu hv
  obtain ⟨hx, rfl⟩ := hu
  obtain ⟨hy, rfl⟩ := hv
  simp only
  omega

theorem kget_shifted {src dst n off : Nat} (m : Memory) (h : off < n) :
    kget 0 (shifted src dst n m) (dst + off) = kget 0 m (src + off) := by
  induction m with
  | nil => rfl
  | cons e m ih =>
    obtain ⟨k, b⟩ := e
    unfold shifted at ih ⊢
    by_cases hin : src ≤ k ∧ k < src + n
    · have hk : (k - src + dst = dst + off) ↔ k = src + off := by omega
      simp only [List.filterMap_cons, hin, and_self, decide_true, if_true, kget, hk, ih]
    · have hk : k ≠ src + off := by omega
      simp only [List.filterMap_cons, hin, decide_false, Bool.false_eq_true, if_false, kget, hk, ih]

/-- Memory after the window of `n` bytes at `src` has moved to `dst`. -/
def relocated (src dst n : Nat) (m : Memory) : Memory :=
  let rest := m.filter fun e => !decide (src ≤ e.1 ∧ e.1 < src + n) && !decide (dst ≤ e.1 ∧ e.1 < dst + n)
  (rest.filter fun e => decide (e.1 < dst)) ++ shifted src dst n m ++ rest.filter fun e => decide (dst ≤ e.1)

/-- The move of a way relocates its 128 MiB. -/
theorem MemSys.moveWay_mem (ms : MemSys) (ctx col w tc tw : Nat) :
    (ms.moveWay ctx col w tc tw).mem =
      relocated (wayBase (ms.served ctx col w).1 (ms.served ctx col w).2) (wayBase tc tw) 0x8000000 ms.mem := rfl

theorem relocated_pairwise {m : Memory} (src dst n : Nat) (h : m.Pairwise fun a b => a.1 < b.1) :
    (relocated src dst n m).Pairwise fun a b => a.1 < b.1 := by
  have below : ∀ e ∈ (m.filter fun e => !decide (src ≤ e.1 ∧ e.1 < src + n) && !decide (dst ≤ e.1 ∧ e.1 < dst + n)).filter
      (fun e => decide (e.1 < dst)), e.1 < dst := fun e he => of_decide_eq_true (List.mem_filter.mp he).2
  have above : ∀ e ∈ (m.filter fun e => !decide (src ≤ e.1 ∧ e.1 < src + n) && !decide (dst ≤ e.1 ∧ e.1 < dst + n)).filter
      (fun e => decide (dst ≤ e.1)), dst + n ≤ e.1 := fun e he => by
    simp only [List.mem_filter, Bool.and_eq_true, Bool.not_eq_true', decide_eq_false_iff_not, decide_eq_true_eq] at he
    omega
  refine List.pairwise_append.mpr ⟨List.pairwise_append.mpr ⟨(h.filter _).filter _, shifted_pairwise src dst n h, ?_⟩,
    (h.filter _).filter _, ?_⟩
  · intro x hx y hy
    have := below x hx
    have := (shifted_bounds hy).1
    omega
  · intro x hx y hy
    have hy := above y hy
    obtain hx | hx := List.mem_append.mp hx
    · have := below x hx
      omega
    · have := (shifted_bounds hx).2
      omega

/-- A byte of the moved window. -/
theorem mget_relocated {src dst n off : Nat} (m : Memory) (h : off < n) :
    mget (relocated src dst n m) (dst + off) = mget m (src + off) := by
  unfold mget relocated
  rw [kget_append_of_absent, kget_append, kget_shifted m h]
  · intro e he
    have : e.1 < dst := of_decide_eq_true (List.mem_filter.mp he).2
    omega
  · intro e he
    simp only [List.mem_filter, Bool.and_eq_true, Bool.not_eq_true', decide_eq_false_iff_not, decide_eq_true_eq] at he
    omega

/-! ### Migration (R330) -/

/-- The way that receives a moved way belongs to the context, and serves its old column. -/
theorem MemSys.moveWay_owner (ms : MemSys) (ctx col w tc tw : Nat) :
    (ms.moveWay ctx col w tc tw).owner tc tw = { scratch := true, ctx := ctx, origin := col } := by
  simp [MemSys.moveWay, MemSys.owner, kget_kset]

theorem MemSys.moveWay_served (ms : MemSys) (ctx col w tc tw : Nat) : (ms.moveWay ctx col w tc tw).served ctx col w = (tc, tw) := by
  simp [MemSys.moveWay, MemSys.served, kget_kset]

/-- A byte of a moved way is where the way is now. -/
theorem MemSys.moveWay_mread {ms : MemSys} (h : Memory.wf ms.mem) (ctx col w tc tw : Nat) {off : Nat} (hoff : off < 0x8000000) :
    mread (ms.moveWay ctx col w tc tw).mem (wayBase tc tw + off) 1 =
      mread ms.mem (wayBase (ms.served ctx col w).1 (ms.served ctx col w).2 + off) 1 := by
  rw [MemSys.moveWay_mem, mread_one (relocated_pairwise _ _ _ h.1), mread_one h.1, mget_relocated _ hoff]

/-- The near tier and the scratch ways after a migration. -/
def MemSys.migrated (ms : MemSys) (m : Migration) : MemSys :=
  let ok := m.moves.filter fun x => (ms.ways m.ctx m.col).contains x.1 && !(ms.owner x.2.1 x.2.2).scratch
  let ls := (ms.lines.map fun e => e.1).filter fun l => ok.any fun x => x.2.1 == homeCol (l * 64)
  ok.foldl (fun ms x => ms.moveWay m.ctx m.col x.1 x.2.1 x.2.2) (ls.foldl MemSys.evict { ms with migration := none })

theorem MemSys.migrated_migration (ms : MemSys) (m : Migration) : (ms.migrated m).migration = none :=
  List.foldlRecOn _ _ (motive := fun n : MemSys => n.migration = none) (MemSys.foldl_evict_migration ..) fun _ hn _ _ => hn

/-- A migration of one way is the move of that way, once the target's column has written its lines back. -/
theorem MemSys.migrated_one {ms : MemSys} {m : Migration} {w d v : Nat} (hm : m.moves = [(w, d, v)]) (hw : w ∈ ms.ways m.ctx m.col)
    (hs : (ms.owner d v).scratch = false) :
    ∃ n : MemSys, ms.migrated m = n.moveWay m.ctx m.col w d v ∧ (ms.lines = [] → n = { ms with migration := none }) := by
  have ok : m.moves.filter (fun x => (ms.ways m.ctx m.col).contains x.1 && !(ms.owner x.2.1 x.2.2).scratch) = [(w, d, v)] := by
    simp [hm, hw, hs]
  simp only [MemSys.migrated, ok]
  exact ⟨_, rfl, fun hl => by rw [hl]; rfl⟩

/-- Whether a copy that a migration waits for is still under way. -/
def State.copying (s : State) (x : Nat × Nat) : Bool :=
  (s.core x.1).engines && (s.core x.1).started.any fun y => y.id == x.2 && (y.stage matches .copying ..)

theorem State.copying_iff (s : State) (x : Nat × Nat) :
    s.copying x = true ↔ (s.core x.1).engines = true ∧
      ∃ y ∈ (s.core x.1).started, y.id = x.2 ∧ ∃ total done, y.stage = .copying total done := by
  have stage (y : Started) : (y.stage matches .copying ..) = true ↔ ∃ total done, y.stage = .copying total done := by
    cases y.stage <;> simp
  simp only [State.copying, Bool.and_eq_true, List.any_eq_true, beq_iff_eq, stage]

/-- MIGRATION_MOVE waits for the copies and for the accesses that memory slots owe the ways; then the ways move, and the banks whose retirement
waited follow. -/
theorem exec_migrationMove_cases {s : State} {m : Migration} (h : s.ms.migration = some m) (col : Nat) :
    let waits := m.copies.any s.copying = true ∨ s.owesTo (fun w => m.moves.any fun x => decide (s.ms.served m.ctx m.col x.1 = w)) = true
    (col ≠ m.col ∨ waits → exec (.migrationMove col) s = .next s) ∧
      (col = m.col → ¬waits → ∃ t, exec (.migrationMove col) s = .next t ∧ t.ms = s.ms.migrated m ∧
        t.agenda = s.agenda ++ m.after.map fun x => .retirement (.nearBank x.1 x.2)) := by
  intro waits
  refine ⟨fun hw => ?_, fun hc hw => ?_⟩
  · show execMigrationMove col s = _
    simp only [execMigrationMove, h]
    exact if_pos (hw.imp_left Ne.symm)
  · have go : ¬(m.col ≠ col ∨ waits) := fun hn => hn.elim (fun hn => hn hc.symm) hw
    show ∃ t, execMigrationMove col s = .next t ∧ _
    simp only [execMigrationMove, h]
    refine ⟨_, if_neg go, ?_⟩
    cases m.bank with
    | none => exact ⟨rfl, rfl⟩
    | some w => exact ⟨rfl, rfl⟩

/-- THERMAL_MIGRATION begins a migration of the listed ways that may move, unless one is under way. -/
theorem exec_thermalMigration_of_none {s : State} (ctx col : Nat) (moves : List (Nat × Nat × Nat)) (h : s.ms.migration = none) :
    ∃ t m, exec (.thermalMigration ctx col moves) s = .next t ∧ t.ms.migration = some m ∧
      m.ctx = ctx ∧ m.col = col ∧ m.bank = none ∧ m.after = [] ∧ t.ms.mem = s.ms.mem ∧ t.cores = s.cores ∧
      ∀ x, x ∈ m.moves ↔ x ∈ moves ∧ x.1 ∈ s.ms.ways ctx col ∧ x.2.1 < 8 ∧ x.2.2 < 16 ∧ x.2.1 ≠ col ∧
        (s.ms.owner x.2.1 x.2.2).scratch = false := by
  show ∃ t m, execThermalMigration ctx col moves s = .next t ∧ _
  simp only [execThermalMigration, h, Option.isSome_none, Bool.false_eq_true, if_false]
  refine ⟨_, _, rfl, rfl, rfl, rfl, rfl, rfl, rfl, rfl, fun x => ?_⟩
  simp [and_assoc]

/-- A scratch bank to be retired during a migration waits for its end (R334). -/
theorem exec_retirement_nearBank_of_migration {s : State} {m : Migration} {c w : Nat} (h : s.ms.migration = some m)
    (hs : (s.ms.owner c (w % 16)).scratch = true) :
    exec (.retirement (.nearBank c w)) s =
      .next { s with ms := { s.ms with migration := some { m with after := m.after ++ [(c, w)] } } } := by
  show execRetirement (.nearBank c w) s = _
  simp only [execRetirement, hs, h, Bool.not_true, Bool.false_eq_true, if_false]

end Sys2Proof.Machine
end

section
/-!
Slot tables, zone temperatures, error windows and retirement, and the statement on memory, heat and errors (R9, R299, R320, R333, R334, R350).
-/
namespace Sys2Proof.Machine

/-! ### Slot tables (R299) -/

/-- Installing tables ends each of their operations. -/
theorem State.finishedAt_foldl_finish (xs : List Install) {s : State} {x : Install}
    (h : x ∈ xs ∨ s.finishedAt x.core x.startedId) :
    (xs.foldl (fun (s : State) x => s.finish x.core x.startedId (outcome .done 0 0 x.time)) s).finishedAt x.core x.startedId := by
  induction xs generalizing s with
  | nil => exact h.resolve_left nofun
  | cons y xs ih =>
    refine ih ?_
    obtain h | h := h
    · obtain rfl | h := List.mem_cons.mp h
      · exact .inr (State.finishedAt_finish _ _ _ rfl)
      · exact .inl h
    · exact .inr (h.finish _ _ rfl)

theorem State.foldl_finish_rt (xs : List Install) (s : State) :
    (xs.foldl (fun (s : State) x => s.finish x.core x.startedId (outcome .done 0 0 x.time)) s).rt = s.rt :=
  List.foldlRecOn xs _ (motive := fun t : State => t.rt = s.rt) rfl fun _ ht _ _ => ht

/-- SLOT_TABLE_INSTALL: what is due is installed, and its operations end. -/
theorem exec_slotTableInstall (s : State) : ∃ t, exec .slotTableInstall s = .next t ∧
    t.rt.installs = (s.rt.installs.filter fun x => !decide (x.due ≤ s.cycle)) ∧
    ∀ x ∈ s.rt.installs, x.due ≤ s.cycle → t.finishedAt x.core x.startedId ∧
      ((∀ y ∈ s.rt.installs, y.router = x.router → y = x) → kget [] t.rt.slotTables x.router = x.table) := by
  refine ⟨_, rfl, ?_, fun x hx hd => ?_⟩
  · rw [State.foldl_finish_rt]
  · have due : x ∈ s.rt.installs.filter fun x => decide (x.due ≤ s.cycle) := List.mem_filter.mpr ⟨hx, decide_eq_true hd⟩
    refine ⟨State.finishedAt_foldl_finish _ (.inl due), fun only => ?_⟩
    rw [State.foldl_finish_rt]
    exact kget_foldl_kput [] Install.router Install.table _ _
      (fun y hy hr => by rw [only y (List.mem_filter.mp hy).1 hr]) (.inr ⟨x, due, rfl⟩)

/-! ### Zone temperatures and error windows (R320, R350) -/

/-- ZONE_TEMPERATURE: nothing below 95 °C, an event from there, the end of the package from 105 °C on. -/
theorem exec_zoneTemperature {s : State} {col zone : Nat} (celsius : Nat) (hc : col < 8) (hz : zone < 16) :
    ∃ t, exec (.zoneTemperature col zone celsius) s = .next t ∧ t.ms = s.ms ∧ (celsius < 95 → t.hub = s.hub ∧ t.cores = s.cores) ∧
      (95 ≤ celsius → celsius < 105 → t.cores = s.cores ∧ ∃ f, kget [] t.hub.fwEvents f =
        kget [] s.hub.fwEvents f ++ [{ source := 2, cause := 0, tval := 0 }]) ∧
      (105 ≤ celsius → t.sec.phase = .halted ∧ t.fe.pool = [] ∧ ∀ e ∈ t.cores, e.2.run = .off) := by
  have placed : ¬(8 ≤ col ∨ 16 ≤ zone) := by omega
  show ∃ t, execZoneTemperature col zone celsius s = .next t ∧ _
  simp only [execZoneTemperature, if_neg placed]
  split
  · rename_i hot
    refine ⟨_, rfl, ?_, by omega, by omega, fun _ => ⟨rfl, rfl, fun e he => ?_⟩⟩
    · simp only [State.logError_ms]
    obtain ⟨x, -, rfl⟩ := List.mem_map.mp he
    rfl
  · rename_i cool
    split
    · exact ⟨_, rfl, rfl, by omega, fun _ _ => ⟨rfl, State.report_fwEvents ..⟩, by omega⟩
    · exact ⟨_, rfl, rfl, fun _ => ⟨rfl, rfl⟩, by omega, by omega⟩

/-- CORRECTABLE_ERROR: the unit's window counts on, or begins anew, and reports a lasting fault when it is full. -/
theorem exec_correctableError {s : State} {u : UnitId} {w : ErrWindow} (h : s.hub.windows.find? (fun w => w.u == u) = some w) :
    let n := if s.cycle - w.start ≤ s.hub.errW then w.count + 1 else 1
    let start := if s.cycle - w.start ≤ s.hub.errW then w.start else s.cycle
    (n < s.hub.thresh → ∃ t, exec (.correctableError u) s = .next t ∧
      t.hub.windows.head? = some { w with start := start, count := n } ∧ t.hub.fwEvents = s.hub.fwEvents) ∧
    (s.hub.thresh ≤ n → ∃ t, exec (.correctableError u) s = .next t ∧
      t.hub.windows.head? = some { w with start := start, count := 0 } ∧ ∃ f, kget [] t.hub.fwEvents f =
        kget [] s.hub.fwEvents f ++ [{ source := 3, cause := 0, tval := 0 }]) := by
  intro n start
  have window : (if s.hub.errW < s.cycle - w.start then { w with start := s.cycle, count := 0 } else w) =
      { w with start := start, count := n - 1 } := by
    by_cases hw : s.cycle - w.start ≤ s.hub.errW
    · simp [n, start, hw, Nat.not_lt.mpr hw]
    · simp [n, start, hw, Nat.lt_of_not_le hw]
  have count : n - 1 + 1 = n := by
    simp only [n]
    split <;> omega
  refine ⟨fun hn => ?_, fun hn => ?_⟩
  · show ∃ t, execCorrectableError u s = .next t ∧ _
    simp only [execCorrectableError, h, Option.getD_some, window, count, Nat.not_le.mpr hn, decide_false, Bool.false_eq_true, if_false]
    exact ⟨_, rfl, rfl, rfl⟩
  · show ∃ t, execCorrectableError u s = .next t ∧ _
    simp only [execCorrectableError, h, Option.getD_some, window, count, hn, decide_true, if_true]
    exact ⟨_, rfl, rfl, State.report_fwEvents ..⟩

/-! ### Uncorrectable errors in a load (R160, R333) -/

/-- UNCORRECTABLE_ERROR in the data of an outstanding load: the load ends with the cause, its destination keeps its value, and the line stays
spoilt. -/
theorem exec_uncorrectableError_of_load {s : State} {core n addr : Nat} {o : Outstanding} (b : Bool) (ho : (s.core core).out n = some o)
    (hp : o.ldPend = true) (hl : (s.core core).late = []) :
    ∃ t o', exec (.uncorrectableError core b (some n) addr) s = .next t ∧ (t.core core).out n = some o' ∧
      o'.trap = some (.uncorrectable, BitVec.ofNat 64 addr) ∧ o'.ldPend = false ∧ (t.core core).writes = (s.core core).writes ∧
      (isDram addr = true ∨ isScratch addr = true → addr / 64 ∈ t.ms.faulty) := by
  let s1 : State := { s with ms := s.ms.spoil addr }
  let s2 := s1.failLoad core o .uncorrectable (BitVec.ofNat 64 addr)
  have hid : o.id = n := by simpa using List.find?_some ho
  have core2 : s2.core core = _ := State.core_modCore ..
  have late2 : (s2.core core).late = [] := by
    rw [core2]
    exact hl
  obtain ⟨hms, hcore⟩ := State.drainCore_of_late_nil late2
  have fail2 := Core.out_map (congrArg Core.outs core2) (fun x => by split <;> rfl) n
  have out3 := Core.out_map (congrArg Core.outs hcore) (fun x => rfl) n
  rw [fail2, show (s1.core core).out n = some o from ho, Option.map_some, Option.map_some, if_pos rfl] at out3
  refine ⟨_, _, ?_, out3, rfl, rfl, ?_, fun ha => ?_⟩
  · show execUncorrectableError core b (some n) addr s = _
    simp only [execUncorrectableError, show ({ s with ms := s.ms.spoil addr } : State).core core = s.core core from rfl, ho, hp,
      if_true]
    rfl
  · rw [hcore, core2]
    rfl
  · have ha : (isDram addr || isScratch addr) = true := by simpa using ha
    rw [hms]
    show addr / 64 ∈ (s.ms.spoil addr).faulty
    rw [MemSys.spoil, if_pos ha]
    exact .head _

/-! ### Retired cores (R9, R334) -/

/-- A launch with a task at a core whose own launch is not in the pool has been saved there. -/
theorem Launch.preempted_of_live {s : State} {n : Nat} {l : Launch} (hs : s.launch (s.core n).lid = none) (hl : l ∈ s.fe.pool)
    (hn : n ∈ s.liveCores l) : l.state = .preempted := by
  by_contra hp
  have lid : (s.core (l.home n)).lid = l.lid := by simpa using (List.mem_filter.mp hn).2
  rw [Launch.home, if_neg hp] at lid
  have := List.find?_eq_none.mp hs l hl
  simp [lid] at this

/-- A core is retired while its die has a spare: the spare takes its index. -/
theorem State.retireCore_spare {s : State} {n : Nat} (h : s.launch (s.core n).lid = none)
    (spare : kget 0 s.hub.sparesUsed (colOf n) < spares (colOf n)) :
    kget 0 (s.retireCore n).hub.sparesUsed (colOf n) = kget 0 s.hub.sparesUsed (colOf n) + 1 ∧
      (s.retireCore n).hub.absent = s.hub.absent := by
  have launch (hub : Hub) : ({ s with hub := hub } : State).launch (({ s with hub := hub } : State).core n).lid = none := h
  simp only [State.retireCore, if_pos spare, launch, kget_kset, if_true]
  exact ⟨trivial, trivial⟩

/-- A core is retired while its die has no spare left: it becomes absent. -/
theorem State.mem_absent_retireCore {s : State} {n : Nat} (h : s.launch (s.core n).lid = none)
    (spare : ¬kget 0 s.hub.sparesUsed (colOf n) < spares (colOf n)) : n ∈ (s.retireCore n).hub.absent := by
  simp only [State.retireCore, if_neg spare]
  refine List.foldlRecOn _ _ (motive := fun t : State => n ∈ t.hub.absent) List.mem_cons_self fun t ht l hl => ?_
  obtain ⟨hpool, hlive⟩ := List.mem_filter.mp hl
  rw [State.absent_failLaunch_of_preempted (Launch.preempted_of_live h hpool (List.contains_iff_mem.mp hlive))]
  exact ht

/-- An error of an idle core itself retires it; one elsewhere changes nothing. -/
theorem exec_uncorrectableError_idle {s : State} {core : Nat} (addr : Nat) (hf : isFw core = false)
    (h : s.launch (s.core core).lid = none) :
    exec (.uncorrectableError core false none addr) s = .next s ∧
      exec (.uncorrectableError core true none addr) s = exec (.retirement (.userCore core)) s := by
  have same : s.uncorrectableIn core = s := by simp only [State.uncorrectableIn, h]
  constructor
  · show execUncorrectableError core false none addr s = _
    simp only [execUncorrectableError, same, Bool.false_and, Bool.false_eq_true, if_false]
  · show execUncorrectableError core true none addr s = .next (s.retireCore core)
    simp only [execUncorrectableError, same, hf, Bool.not_false, Bool.true_and, if_true]

/-- A firmware core is retired: the next column's takes over its events. -/
theorem exec_retirement_firmwareCore (s : State) (c : Nat) :
    ∃ t, exec (.retirement (.firmwareCore c)) s = .next t ∧ UnitId.firmwareCore c ∈ t.hub.retired ∧
      kget [] t.hub.fwEvents ((c + 1) % 8) = kget [] s.hub.fwEvents ((c + 1) % 8) ++ kget [] s.hub.fwEvents c ∧
      (t.core (0xF000 + c)).run = .off :=
  ⟨_, rfl, .head _, kget_kput_same .., congrArg Core.run (kget_kput_same Core.init ..)⟩

/-! ### Retired banks and ports (R13, R334) -/

/-- A caching bank is retired: its way leaves use. -/
theorem exec_retirement_nearBank_of_caching {s : State} {c w : Nat} (h : (s.ms.owner c (w % 16)).scratch = false) :
    ∃ t, exec (.retirement (.nearBank c w)) s = .next t ∧ t.ms.owner c (w % 16) = .outOfUse ∧ UnitId.nearBank c w ∈ t.hub.retired := by
  refine ⟨s.retireBank c w, ?_, ?_, .head _⟩
  · show execRetirement (.nearBank c w) s = _
    simp only [execRetirement, h, Bool.not_false, if_true]
  · simp only [State.retireBank, MemSys.owner, kget_kset, if_true]

/-- The banks of a column's DRAM among retired units. -/
def banksIn (c : Nat) (us : List UnitId) : List Nat :=
  us.filterMap fun x => match x with
    | .dramBank d v => if d = c then some v else none
    | _ => none

theorem mem_banksIn {c w : Nat} {us : List UnitId} : w ∈ banksIn c us ↔ UnitId.dramBank c w ∈ us := by
  unfold banksIn
  rw [List.mem_filterMap]
  constructor
  · rintro ⟨x, hx, hw⟩
    split at hw
    · rename_i d v
      obtain ⟨rfl, rfl⟩ : d = c ∧ v = w := by simpa using hw
      exact hx
    · cases hw
  · exact fun h => ⟨_, h, by simp⟩

theorem length_banksIn (c : Nat) (us : List UnitId) :
    (us.filter fun u => match u with | .dramBank d _ => d == c | _ => false).length = (banksIn c us).length := by
  rw [banksIn, List.length_filterMap_eq_countP, ← List.countP_eq_length_filter]
  refine List.countP_congr fun x _ => ?_
  cases x with
  | dramBank d v => by_cases hd : d = c <;> simp [hd]
  | _ => simp

/-- A DRAM bank that is not yet retired: spare rows stand in for it, or it is gone. -/
theorem State.retireDram_of_fresh {s : State} {c w : Nat} (h : UnitId.dramBank c w ∉ s.hub.retired) :
    s.retireDram c w =
      { s with
        hub := { s.hub with retired := .dramBank c w :: s.hub.retired }
        ms := { s.ms with dead := if (banksIn c s.hub.retired).length < Config.spareBanks c then s.ms.dead else (c, w) :: s.ms.dead } } := by
  have fresh : ¬(banksIn c s.hub.retired).contains w = true := by
    rw [List.contains_iff_mem, mem_banksIn]
    exact h
  exact if_neg fresh

/-- A line of a bank that is gone cannot be accessed. -/
theorem MemSys.deadAt_of_dead {ms : MemSys} {c l : Nat} (hd : (c, Config.dramBank l) ∈ ms.dead) (hl : isDram (64 * l) = true)
    (hc : homeCol (64 * l) = c) : ms.deadAt (.phys (64 * l)) 64 = some (64 * l) := by
  have dead : ms.deadLine l = true := by
    rw [MemSys.deadLine, List.any_eq_true]
    exact ⟨_, hd, by simp [hl, hc]⟩
  simp [MemSys.deadAt, Place.firstLine, dead]

/-- A fabric link is retired: its port is idle. -/
theorem exec_retirement_fabricLink (s : State) (p : Nat) :
    ∃ t, exec (.retirement (.fabricLink p)) s = .next t ∧ UnitId.fabricLink p ∈ t.hub.retired ∧
      (kget 0 t.rt.groupRegs (17 + p)).toNat % 4 = 0 := by
  refine ⟨_, rfl, .head _, ?_⟩
  simp only [kget_kset, if_true, BitVec.toNat_ofNat]
  omega

/-! ### O45 -/

/-- Settles O45: each clause is the lemma above about its event. -/
theorem memoryHeatAndErrorEvents : Obligations.MemoryHeatAndErrorEvents := by
  unfold Obligations.MemoryHeatAndErrorEvents
  refine ⟨fun s col mode old h => ⟨lmodeWrite_switches mode h, exec_layerModeSwitchDone_of_mode h⟩,
    fun s col mode h => exec_lmodeWrite_of_switch mode h, ?thermal, ?move, exec_slotTableInstall,
    fun s col zone celsius hc hz => exec_zoneTemperature celsius hc hz, fun s u w h => exec_correctableError h,
    fun s core n addr o b ho hp hl => exec_uncorrectableError_of_load b ho hp hl,
    fun s core addr hf h => exec_uncorrectableError_idle addr hf h, ?core, fun s => ⟨?router, ?firmware, ?near, ?dram, ?link⟩⟩
  case thermal =>
    refine fun s ctx col moves => ⟨fun h => ?_, exec_thermalMigration_of_none ctx col moves⟩
    show execThermalMigration ctx col moves s = _
    rw [execThermalMigration, if_pos h]
  case move =>
    intro s m h going owed
    have copies : m.copies.any s.copying = true ↔ going := by
      simp only [List.any_eq_true, State.copying_iff]
      rfl
    refine ⟨fun col hw => (exec_migrationMove_cases h col).1 (hw.imp_right (Or.imp_left copies.mpr)),
      fun c w hs => exec_retirement_nearBank_of_migration h hs, fun hg ho => ?_⟩
    obtain ⟨t, ht, hms, hagenda⟩ := (exec_migrationMove_cases h m.col).2 rfl fun hw =>
      hw.elim (fun hc => hg (copies.mp hc)) fun hn => Bool.false_ne_true (ho.symm.trans hn)
    refine ⟨t, ht, hms ▸ MemSys.migrated_migration .., hagenda, fun w d v hm hw hs => ?_⟩
    obtain ⟨n, hn, hlines⟩ := MemSys.migrated_one hm hw hs
    rw [hms, hn]
    refine ⟨MemSys.moveWay_owner .., MemSys.moveWay_served .., fun hl hwf off hoff => ?_⟩
    rw [hlines hl]
    exact MemSys.moveWay_mread (ms := { s.ms with migration := none }) hwf m.ctx m.col w d v hoff
  case core =>
    refine fun s n h => ⟨s.retireCore n, rfl, ?_⟩
    intro spare
    rw [ite_prop_iff_and]
    exact ⟨State.retireCore_spare h, State.mem_absent_retireCore h⟩
  case router => exact fun n => ⟨_, rfl, .head _⟩
  case firmware => exact fun c _ => exec_retirement_firmwareCore s c
  case near => exact fun c w h => exec_retirement_nearBank_of_caching h
  case dram =>
    intro c w h
    refine ⟨_, congrArg Host.Outcome.next (State.retireDram_of_fresh h), .head _, fun hl => ?_, fun hl l hdram hc hb => ?_⟩
    · have spare : (banksIn c s.hub.retired).length < Config.spareBanks c := length_banksIn c s.hub.retired ▸ hl
      simp only [if_pos spare]
    · have gone : ¬(banksIn c s.hub.retired).length < Config.spareBanks c := Nat.not_lt.mpr (length_banksIn c s.hub.retired ▸ hl)
      refine MemSys.deadAt_of_dead ?_ hdram hc
      simp only [if_neg gone, hb]
      exact .head _
  case link => exact exec_retirement_fabricLink s

end Sys2Proof.Machine
end

section
/-!
What packets, renames and accesses of the hub leave of the cores and of the launch pool.
-/
namespace Sys2Proof.Machine

/-! ### What others may change of a core -/

/-- A core without what packets, other cores and completions may change of it while it stands: its buffers, flags, barriers, outstanding
accesses, pieces left for later and started operations. -/
def Core.control (k : Core) : Core :=
  { k with wbuf := [], abuf := [], rbuf := [], hist := [], flags := [], barriers := [], outs := [], late := [], started := [] }

/-- Every core is as before but for what others may change of it, and so is the launch pool. -/
structure State.Aside (s t : State) : Prop where
  control : ∀ i, (t.core i).control = (s.core i).control
  pool : t.fe.pool = s.fe.pool

theorem State.Aside.refl (s : State) : s.Aside s := ⟨fun _ => rfl, rfl⟩

theorem State.Aside.trans {s t u : State} (h : s.Aside t) (g : t.Aside u) : s.Aside u :=
  ⟨fun i => (g.control i).trans (h.control i), g.pool.trans h.pool⟩

/-- A change of memory, networks, hub or front end that leaves cores and pool alone. -/
theorem State.Aside.of_eq {s t : State} (hc : t.cores = s.cores) (hp : t.fe.pool = s.fe.pool) : s.Aside t :=
  ⟨fun i => by rw [State.core, State.core, hc], hp⟩

theorem State.aside_modCore (s : State) (i : Nat) {f : Core → Core} (hf : (f (s.core i)).control = (s.core i).control) :
    s.Aside (s.modCore i f) := by
  refine ⟨fun j => ?_, rfl⟩
  by_cases hj : j = i
  · rw [hj, State.core_modCore, hf]
  · rw [State.core_modCore_other s f hj]

theorem State.aside_foldl {α : Type} {f : State → α → State} (hf : ∀ (s : State) (x : α), s.Aside (f s x)) (xs : List α) (s : State) :
    s.Aside (xs.foldl f s) :=
  List.foldlRecOn xs f (motive := fun t => s.Aside t) (.refl s) fun t ht x _ => ht.trans (hf t x)

/-- The cores after a change of each of them. -/
theorem kget_map_control {m : KMap Core} {g : Nat × Core → Nat × Core} (hk : ∀ e, (g e).1 = e.1)
    (hc : ∀ e, (g e).2.control = e.2.control) (i : Nat) :
    (kget Core.init (m.map g) i).control = (kget Core.init m i).control := by
  induction m with
  | nil => rfl
  | cons e m ih =>
    obtain ⟨key, k⟩ := e
    have hkey : (g (key, k)).1 = key := hk (key, k)
    simp only [List.map_cons, kget, hkey]
    split
    · exact hc (key, k)
    · exact ih

/-! ### Packets (R158, R369) -/

theorem State.aside_writePlace (s : State) (p : Place) (bs : List Byte) : s.Aside (s.writePlace p bs) := by
  cases p with
  | buf i b off =>
    refine s.aside_modCore i (f := fun k => k.setBuf b (mwrite (k.buf b) off bs)) ?_
    cases b <;> rfl
  | phys a => exact .of_eq rfl rfl
  | far k a => exact .refl s

theorem State.aside_forget (s : State) (p : Place) (bs : List Byte) : s.Aside (s.forget p bs) := by
  cases p with
  | buf i b off =>
    unfold State.forget
    simp only
    split
    · exact .refl s
    · exact s.aside_modCore i rfl
  | phys a => exact .refl s
  | far k a => exact .refl s

theorem State.aside_modOut (s : State) (core id : Nat) (f : Outstanding → Outstanding) : s.Aside (s.modOut core id f) :=
  s.aside_modCore core rfl

theorem State.aside_finish (s : State) (core id : Nat) (o : Outcome) : s.Aside (s.finish core id o) := s.aside_modCore core rfl

theorem State.aside_applyBarrier (s : State) (src dst id : Nat) (v : BarVariant) (b : Nat) (n : W64) (time : Nat) :
    s.Aside (s.applyBarrier src dst id v b n time) := by
  unfold State.applyBarrier
  split
  · exact (s.aside_modCore dst rfl).trans (State.aside_finish ..)
  · exact State.aside_finish ..

theorem State.aside_store (s : State) (p : Place) (bs : List Byte) : s.Aside ((s.writePlace p bs).forget p bs) :=
  (s.aside_writePlace p bs).trans (State.aside_forget ..)

theorem State.aside_applyAccess (s : State) (src : Nat) (item : NetItem) : s.Aside (s.applyAccess src item) := by
  cases item with
  | flag f t => exact .refl s
  | barrier id v b n t => exact .refl s
  | load id i =>
    simp only [State.applyAccess]
    split
    · split
      · exact s.aside_modOut ..
      · exact .refl s
    · exact .refl s
  | store id i =>
    simp only [State.applyAccess]
    split
    · split
      · exact (s.aside_store ..).trans (State.aside_modOut ..)
      · exact .refl s
    · exact .refl s
  | amo id i dbl f b =>
    simp only [State.applyAccess]
    split
    · split
      · refine State.Aside.trans ?_ (State.aside_modOut ..)
        split
        · exact s.aside_store ..
        · exact .refl s
      · exact .refl s
    · exact .refl s
  | cas id i dbl e v =>
    simp only [State.applyAccess]
    split
    · split
      · refine State.Aside.trans ?_ (State.aside_modOut ..)
        split
        · exact s.aside_store ..
        · exact .refl s
      · exact .refl s
    · exact .refl s

theorem State.aside_applyPacket (s : State) (p : NetPacket) : s.Aside (s.applyPacket p) := by
  unfold State.applyPacket
  split
  · exact s.aside_modCore p.dst rfl
  · exact s.aside_applyBarrier ..
  · exact s.aside_applyAccess ..

theorem State.aside_deliverHeld (s : State) (dst : Nat) : s.Aside (s.deliverHeld dst) := by
  refine State.Aside.trans ?_ (State.aside_foldl State.aside_applyPacket ..)
  exact .of_eq rfl rfl

theorem State.aside_discardPart (s : State) (src id i : Nat) : s.Aside (s.discardPart src id i) := by
  unfold State.discardPart
  split
  · split
    · split
      · exact s.aside_modOut ..
      · exact s.aside_modOut ..
    · exact .refl s
  · exact .refl s

theorem State.aside_discardPacket (s : State) (p : NetPacket) : s.Aside (s.discardPacket p) := by
  unfold State.discardPacket
  split
  · exact s.aside_discardPart ..
  · exact s.aside_discardPart ..
  · exact s.aside_discardPart ..
  · exact s.aside_discardPart ..
  · exact .refl s
  · exact s.aside_finish ..

theorem State.aside_discardHeld (s : State) (dst : Nat) : s.Aside (s.discardHeld dst) := by
  refine State.Aside.trans ?_ (State.aside_foldl State.aside_discardPacket ..)
  exact .of_eq rfl rfl

theorem State.aside_discardLate (s : State) (dst : Nat) : s.Aside (s.discardLate dst) := by
  unfold State.discardLate
  refine State.Aside.trans (State.Aside.trans ?_ (State.aside_foldl State.aside_discardPacket ..))
    (State.aside_foldl (fun t x => t.aside_discardPart ..) ..)
  refine ⟨fun i => ?_, rfl⟩
  refine kget_map_control (fun _ => ?_) (fun _ => ?_) i
  · rfl
  · rfl

/-- A rename changes of the cores only the pieces that memory slots have left for later. -/
theorem State.aside_rename (s : State) (i j : Nat) : s.Aside (s.rename i j) := by
  refine ⟨fun n => kget_map_control (fun e => ?_) (fun e => ?_) n, rfl⟩
  · split <;> rfl
  · split <;> rfl

/-! ### Accesses of the hub (R203, R265) -/

theorem State.forward_cores (s : State) (group : Nat) (came : Option Nat) (origin addr : Nat) (bs : List Byte) :
    (s.forward group came origin addr bs).cores = s.cores ∧ (s.forward group came origin addr bs).fe = s.fe := by
  unfold State.forward
  refine List.foldlRecOn _ _ (motive := fun t : State => t.cores = s.cores ∧ t.fe = s.fe) ⟨rfl, rfl⟩ fun t ht p _ => ?_
  split <;> exact ht

theorem State.ctlWrite_cores (s : State) (p : Nat) (bs : List Byte) : (s.ctlWrite p bs).cores = s.cores ∧ (s.ctlWrite p bs).fe = s.fe := by
  unfold State.ctlWrite
  split
  · simp only [apply_ite State.cores, apply_ite State.fe, ite_self, and_self]
  · exact ⟨rfl, rfl⟩

/-- A place outside the typed buffers of cores. -/
def Place.outside : Place → Bool
  | .buf .. => false
  | .phys _ | .far .. => true

/-- An agent of the hub finds no address in a typed buffer (R153). -/
theorem hubPlace_outside {s : State} {ctx col n : Nat} {a : W64} {acc : Access} {p : Place} (h : hubPlace s ctx col a n acc = .ok p) :
    p.outside = true := by
  unfold hubPlace at h
  split at h
  · split at h
    · split at h
      · cases h
      · cases h; rfl
    · split at h
      · cases h
      · split at h
        · cases h
          split <;> rfl
        · cases h
  · cases h; rfl
  · cases h

theorem State.engWrite_cores (s : State) (floor : Nat) {p : Place} (bs : List Byte) (hp : p.outside = true) :
    (s.engWrite floor p bs).1.cores = s.cores ∧ (s.engWrite floor p bs).1.fe = s.fe := by
  cases p with
  | buf => cases hp
  | far => exact ⟨rfl, rfl⟩
  | phys a =>
    simp only [State.engWrite]
    split
    · exact ⟨rfl, rfl⟩
    · split
      · exact s.ctlWrite_cores ..
      · exact ⟨rfl, rfl⟩

theorem State.hubStore_cores (s : State) (ctx : Nat) (a : W64) (floor : Nat) {p : Place} (bs : List Byte) (hp : p.outside = true) :
    (s.hubStore ctx a floor p bs).1.cores = s.cores ∧ (s.hubStore ctx a floor p bs).1.fe = s.fe := by
  have hw := s.engWrite_cores floor bs hp
  have copies {t : State} (ht : t.cores = s.cores ∧ t.fe = s.fe) (q : Nat) :
      (t.replicate ctx q bs).cores = s.cores ∧ (t.replicate ctx q bs).fe = s.fe := by
    obtain ⟨hc, hf⟩ := t.forward_cores (kget { valid := false, root := 0, group := 0 } t.ms.contexts ctx).group none t.pkg q bs
    exact ⟨hc.trans ht.1, hf.trans ht.2⟩
  cases p with
  | buf => cases hp
  | phys q =>
    simp only [State.hubStore]
    split
    · exact copies hw q
    · exact hw
  | far k q =>
    simp only [State.hubStore]
    split
    · exact copies (t := (s.engWrite floor (.far k q) bs).1.sendFabric k 0 _) hw q
    · exact hw

theorem State.engRead_cores (s : State) (pts : Nat) (p : Place) (n : Nat) : (s.engRead pts p n).2.2.cores = s.cores := by
  cases p with
  | buf => rfl
  | far => rfl
  | phys a =>
    simp only [State.engRead, State.engReadAt]
    split <;> rfl

theorem HubFlow.piece_cores (f : HubFlow) (q : Place) (n : Nat) : (f.piece q n).st.cores = f.st.cores := by
  have := f.st.engRead_cores f.time q n
  cases q <;> exact this

theorem HubFlow.get_cores (f : HubFlow) (ctx col : Nat) (a : W64) (n : Nat) : (f.get ctx col a n).2.st.cores = f.st.cores := by
  refine List.foldlRecOn _ _ (motive := fun g : HubFlow => g.st.cores = f.st.cores) rfl fun g hg p _ => ?_
  split
  · exact hg
  · split
    · exact hg
    · exact (g.piece_cores ..).trans hg

theorem HubFlow.put_cores (f : HubFlow) (ctx col : Nat) (a : W64) (bs : List Byte) : (f.put ctx col a bs).st.cores = f.st.cores := by
  refine List.foldlRecOn _ _ (motive := fun x : HubFlow × List Byte => x.1.st.cores = f.st.cores) rfl fun x hx p _ => ?_
  simp only
  split
  · exact hx
  · split
    · exact hx
    · next q hq => exact (State.hubStore_cores _ _ _ _ _ (hubPlace_outside hq)).1.trans hx

/-- The copies of a commit change no core. -/
theorem HubFlow.copyOut_cores (f : HubFlow) (cfg : ManagerConfig) (r : SeqRec) (c : Commit) :
    (f.copyOut cfg r c).st.cores = f.st.cores := by
  have pages : (f.pages cfg c.slot r.pages).2.st.cores = f.st.cores := f.get_cores ..
  have copies := List.foldlRecOn (c.path.mapIdx fun i n => (i, n)) (fun (g : HubFlow) (y : Nat × Nat) =>
      let (bs, h) := g.get cfg.ctx 0 (BitVec.ofNat 64 (cfg.tb + (64 * c.slot + y.2) * cfg.e)) cfg.e
      if h.bad.isSome then h else h.put cfg.ctx 0 (kvAddr cfg (f.pages cfg c.slot r.pages).1 (r.lc + y.1)) bs)
    (motive := fun g : HubFlow => g.st.cores = f.st.cores) pages fun g hg y _ => by
      have get := (g.get_cores cfg.ctx 0 (BitVec.ofNat 64 (cfg.tb + (64 * c.slot + y.2) * cfg.e)) cfg.e).trans hg
      simp only
      split
      · exact get
      · exact (HubFlow.put_cores ..).trans get
  simp only [HubFlow.copyOut]
  split
  · exact copies
  · exact (HubFlow.put_cores ..).trans copies

end Sys2Proof.Machine
end

section
/-!
The launch pool: what a change of one launch gives, and what the end of a launch, or of a saved task, leaves of the others (R26, R234, R238).
-/
namespace Sys2Proof.Machine

/-! ### One launch -/

theorem State.launch_mem {s : State} {lid : Nat} {l : Launch} (h : s.launch lid = some l) : l ∈ s.fe.pool ∧ l.lid = lid :=
  ⟨List.mem_of_find?_eq_some h, by simpa using List.find?_some h⟩

theorem State.launch_eq_none {s : State} {lid : Nat} (h : ∀ l ∈ s.fe.pool, l.lid ≠ lid) : s.launch lid = none :=
  List.find?_eq_none.mpr fun l hl => by simpa using h l hl

theorem State.launch_congr {s t : State} (h : t.fe.pool = s.fe.pool) (lid : Nat) : t.launch lid = s.launch lid := by
  rw [State.launch, State.launch, h]

/-- A change of launches that keeps their identifiers. -/
theorem State.launch_modLaunch (s : State) (lid : Nat) {f : Launch → Launch} (hf : ∀ l, (f l).lid = l.lid) (n : Nat) :
    (s.modLaunch lid f).launch n = if n = lid then (s.launch n).map f else s.launch n := by
  have keeps (l : Launch) : (if l.lid = lid then f l else l).lid = l.lid := by split <;> simp [hf]
  have pick : (fun l : Launch => l.lid == n) ∘ (fun l => if l.lid = lid then f l else l) = fun l => l.lid == n :=
    funext fun l => by simp only [Function.comp_apply, keeps]
  simp only [State.launch, State.modLaunch, List.find?_map, pick]
  cases hl : s.fe.pool.find? (fun l => l.lid == n) with
  | none => simp
  | some l =>
    have hn : l.lid = n := by simpa using List.find?_some hl
    by_cases h : n = lid <;> simp [hn, h]

theorem State.launch_modLaunch_same {s : State} {lid : Nat} {l : Launch} {f : Launch → Launch} (hf : ∀ l, (f l).lid = l.lid)
    (h : s.launch lid = some l) : (s.modLaunch lid f).launch lid = some (f l) := by
  rw [State.launch_modLaunch s lid hf, if_pos rfl, h, Option.map_some]

/-- A launch of the changed pool is one of the pool before, changed or not. -/
theorem State.mem_pool_modLaunch {s : State} {lid : Nat} {f : Launch → Launch} {x : Launch} (h : x ∈ (s.modLaunch lid f).fe.pool) :
    ∃ y ∈ s.fe.pool, (y.lid = lid ∧ x = f y) ∨ (y.lid ≠ lid ∧ x = y) := by
  obtain ⟨y, hy, rfl⟩ := List.mem_map.mp h
  by_cases hl : y.lid = lid
  · exact ⟨y, hy, .inl ⟨hl, if_pos hl⟩⟩
  · exact ⟨y, hy, .inr ⟨hl, if_neg hl⟩⟩

/-! ### Effective priorities (R234) -/

theorem State.setPool_pool (s : State) (pool : List Launch) : (s.setPool pool).fe.pool = pool := by
  refine List.foldlRecOn _ _ (motive := fun t : State => t.fe.pool = pool) rfl fun t ht l _ => ?_
  refine List.foldlRecOn _ _ (motive := fun t : State => t.fe.pool = pool) ht fun t ht i _ => ?_
  split <;> exact ht

/-- Launches that differ from some of a pool in their effective priorities only. -/
def Reranked (old new : List Launch) : Prop := ∀ x ∈ new, ∃ y ∈ old, ∃ e, x = { y with eff := e }

theorem Reranked.refl (pool : List Launch) : Reranked pool pool := fun x hx => ⟨x, hx, x.eff, rfl⟩

theorem Reranked.trans {p q r : List Launch} (h : Reranked p q) (g : Reranked q r) : Reranked p r := fun x hx => by
  obtain ⟨y, hy, e, rfl⟩ := g x hx
  obtain ⟨z, hz, e', rfl⟩ := h y hy
  exact ⟨z, hz, e, rfl⟩

theorem reranked_map {pool : List Launch} (c : Launch → Bool) (e : Launch → Nat) :
    Reranked pool (pool.map fun l => if c l then { l with eff := e l } else l) := fun x hx => by
  obtain ⟨y, hy, rfl⟩ := List.mem_map.mp hx
  by_cases h : c y = true
  · exact ⟨y, hy, e y, if_pos h⟩
  · exact ⟨y, hy, y.eff, if_neg h⟩

theorem reranked_settlePriorities (ids : List Nat) (n : Nat) (pool : List Launch) : Reranked pool (settlePriorities ids n pool) := by
  induction n generalizing pool with
  | zero => exact .refl pool
  | succ n ih => exact (reranked_map (fun l => ids.contains l.lid) _).trans (ih _)

theorem State.reranked_rewalk (s : State) (preds : List Nat) : Reranked s.fe.pool (s.rewalk preds).fe.pool := by
  have pool : (s.rewalk preds).fe.pool = settlePriorities (ancestors s.fe.pool 16 preds).1 (ancestors s.fe.pool 16 preds).1.length
      (s.fe.pool.map fun l => if (ancestors s.fe.pool 16 preds).1.contains l.lid then { l with eff := l.own } else l) := by
    simp only [State.rewalk]
    split
    · exact State.setPool_pool ..
    · exact State.setPool_pool ..
  rw [pool]
  exact (reranked_map (fun l => (ancestors s.fe.pool 16 preds).1.contains l.lid) Launch.own).trans (reranked_settlePriorities _ _ _)

/-! ### The end of a launch (R26, R238) -/

theorem State.countDone_pool (s : State) (ctx word t : Nat) : (s.countDone ctx word t).fe.pool = s.fe.pool := by
  unfold State.countDone
  split
  · rfl
  · simp only
    split
    · rfl
    · split <;> rfl
    · next p hp hfar =>
      have outside : p.outside = true := by
        split at hfar
        · exact hubPlace_outside hfar
        · cases hfar
      exact congrArg FrontEnd.pool (State.hubStore_cores _ _ _ _ _ outside).2

theorem State.eventRecord_pool (s : State) (e : Nat) (st : TokState) (cause bytes t : Nat) :
    (s.eventRecord e st cause bytes t).fe.pool = s.fe.pool := by
  unfold State.eventRecord
  simp only
  split
  · rfl
  · split
    · rfl
    · next p hp =>
      show (s.hubStore _ _ _ p _).1.fe.pool = s.fe.pool
      rw [(State.hubStore_cores _ _ _ _ _ (hubPlace_outside hp)).2]

/-- A launch that is closed leaves the pool. -/
theorem State.closeLaunch_pool (s : State) (l : Launch) (st : TokState) (cause failed : Nat) :
    (s.closeLaunch l st cause failed).fe.pool = s.fe.pool.filter fun x => x.lid != l.lid := by
  unfold State.closeLaunch
  simp only
  split
  · exact State.countDone_pool ..
  · split
    · exact (State.eventRecord_pool ..).trans (State.countDone_pool ..)
    · exact State.countDone_pool ..

theorem State.mem_pool_of_closeAll {n : Nat} {xs : List (Launch × TokState × Nat × Nat)} {s : State} {x : Launch}
    (h : x ∈ (State.closeAll n xs s).fe.pool) : x ∈ s.fe.pool := by
  induction n generalizing xs s with
  | zero => exact h
  | succ n ih =>
    cases xs with
    | nil => exact h
    | cons y rest =>
      have := ih h
      rw [State.closeLaunch_pool] at this
      exact (List.mem_filter.mp this).1

/-- What stays in the pool when a launch ends: other launches, with effective priorities of their own. -/
theorem State.mem_pool_endLaunch {s : State} {l x : Launch} {st : TokState} {cause failed : Nat}
    (h : x ∈ (s.endLaunch l st cause failed).fe.pool) : ∃ y ∈ s.fe.pool, y.lid ≠ l.lid ∧ ∃ e, x = { y with eff := e } := by
  have closed {y : Launch} (hy : y ∈ (State.closeAll (s.fe.pool.length + 1) [(l, st, cause, failed)] s).fe.pool) :
      y ∈ s.fe.pool ∧ y.lid ≠ l.lid := by
    have := State.mem_pool_of_closeAll (n := s.fe.pool.length) hy
    rw [State.closeLaunch_pool] at this
    simpa using List.mem_filter.mp this
  unfold State.endLaunch at h
  simp only at h
  split at h
  · obtain ⟨hp, hl⟩ := closed h
    exact ⟨x, hp, hl, x.eff, rfl⟩
  · obtain ⟨y, hy, e, rfl⟩ := State.reranked_rewalk _ _ x h
    obtain ⟨hp, hl⟩ := closed hy
    exact ⟨y, hp, hl, e, rfl⟩

/-- A launch that ends is no longer in the pool. -/
theorem State.launch_endLaunch (s : State) (l : Launch) (st : TokState) (cause failed : Nat) :
    (s.endLaunch l st cause failed).launch l.lid = none :=
  State.launch_eq_none fun x hx => by
    obtain ⟨y, -, hl, e, rfl⟩ := State.mem_pool_endLaunch hx
    exact hl

/-! ### Saved tasks that are dropped (R26, R369) -/

theorem State.saveToken_pool (s : State) (core n : Nat) (t : Token) : (s.saveToken core n t).fe.pool = s.fe.pool := by
  unfold State.saveToken
  split
  · split <;> rfl
  · rfl

theorem State.retire_pool (s : State) (core n gen : Nat) (o : Outcome) : (s.retire core n gen o).fe.pool = s.fe.pool := by
  unfold State.retire
  split
  · rfl
  · exact s.saveToken_pool ..

theorem State.endMatrix_pool (s : State) (core cause : Nat) : (s.endMatrix core cause).fe.pool = s.fe.pool := by
  simp only [State.endMatrix]
  split
  · rfl
  · exact List.foldlRecOn _ _ (motive := fun t : State => t.fe.pool = s.fe.pool) rfl fun t ht _ _ => (State.retire_pool ..).trans ht

theorem State.dropSaved_pool (s : State) (l : Launch) (cause : Option Nat) : (s.dropSaved l cause).fe.pool = s.fe.pool := by
  refine List.foldlRecOn _ _ (motive := fun t : State => t.fe.pool = s.fe.pool) rfl fun t ht e _ => ?_
  show (((((_ : State).discardHeld e.1).discardLate e.1).returnAll e.1).disown [e.1] |>.rename e.1 _).fe.pool = _
  refine (State.aside_rename ..).pool.trans ((State.aside_discardLate ..).pool.trans ((State.aside_discardHeld ..).pool.trans ?_))
  cases cause with
  | none => exact ht
  | some c => exact (State.endMatrix_pool ..).trans ht

/-- Launches that have identifier `lid` do not stand preempted. -/
def State.Resumed (s : State) (lid : Nat) : Prop := ∀ l ∈ s.fe.pool, l.lid = lid → l.state ≠ .preempted

theorem State.Resumed.of_pool {s t : State} {lid : Nat} (h : s.Resumed lid) (hp : t.fe.pool = s.fe.pool) : t.Resumed lid := by
  rw [State.Resumed, hp]
  exact h

/-- A change of one launch after which it is not preempted. -/
theorem State.Resumed.modLaunch {s : State} {lid : Nat} (h : s.Resumed lid) (n : Nat) {f : Launch → Launch} (hf : ∀ l, (f l).lid = l.lid)
    (hs : ∀ l, l.state ≠ .preempted → (f l).state ≠ .preempted) : (s.modLaunch n f).Resumed lid := fun x hx hl => by
  obtain ⟨y, hy, ⟨-, rfl⟩ | ⟨-, rfl⟩⟩ := State.mem_pool_modLaunch hx
  · exact hs y (h y hy ((hf y).symm.trans hl))
  · exact h x hy hl

/-- No launch becomes preempted when one fails. -/
theorem State.Resumed.failLaunch {s : State} {lid : Nat} (h : s.Resumed lid) (l : Launch) (st : TokState) (cause : Nat) :
    (s.failLaunch l st cause).Resumed lid := by
  unfold State.failLaunch
  split
  · intro x hx hl
    obtain ⟨y, hy, -, e, rfl⟩ := State.mem_pool_endLaunch hx
    exact h y hy hl
  · exact h.modLaunch _ (fun _ => rfl) fun _ _ => nofun
  · refine h.modLaunch _ (fun l => ?_) fun l hl => ?_
    · split <;> rfl
    · split <;> exact hl
  · refine h.modLaunch _ (fun l => ?_) fun l hl => ?_
    · split <;> rfl
    · split <;> exact hl
  · exact (h.of_pool (s.dropSaved_pool ..)).modLaunch _ (fun _ => rfl) fun _ _ => nofun

/-- A preempted launch that fails is not preempted any more. -/
theorem State.resumed_failLaunch {s : State} {l : Launch} (h : l.state = .preempted) (st : TokState) (cause : Nat) :
    (s.failLaunch l st cause).Resumed l.lid := by
  intro x hx hl
  simp only [State.failLaunch, h] at hx
  obtain ⟨y, -, ⟨-, rfl⟩ | ⟨hn, rfl⟩⟩ := State.mem_pool_modLaunch hx
  · nofun
  · exact absurd hl hn

end Sys2Proof.Machine
end

section
/-!
The release of launches, their completion, and requests for pre-emption (R18, R19, R21, R25, R29, R235, R238).
-/
namespace Sys2Proof.Machine

/-! ### First tasks (R18, R20, R21) -/

/-- Launch `lid` has been released on cycle `now`: it stands in the pool no longer waiting, and the cores of the gang that are still its own
dispatch their first bundle on that cycle. -/
structure State.Released (s : State) (lid now : Nat) (gang : List Nat) : Prop where
  pool : ∀ l ∈ s.fe.pool, l.lid = lid → l.state ≠ .pending ∧ l.release = now
  cores : lid ≠ 0 → ∀ i ∈ gang, (s.core i).lid = lid → (s.core i).starts = true ∧ (s.core i).nextAt = now

section Released

variable {s : State} {lid now : Nat} {gang : List Nat}

theorem State.Released.modLaunch (h : s.Released lid now gang) (n : Nat) {f : Launch → Launch} (hl : ∀ l, (f l).lid = l.lid)
    (hr : ∀ l, (f l).release = l.release) (hs : ∀ l, (f l).state = l.state ∨ (f l).state = .completing) :
    (s.modLaunch n f).Released lid now gang := by
  refine ⟨fun x hx hlid => ?_, h.cores⟩
  obtain ⟨y, hy, ⟨-, rfl⟩ | ⟨-, rfl⟩⟩ := State.mem_pool_modLaunch hx
  · obtain ⟨hstate, hrelease⟩ := h.pool y hy ((hl y).symm.trans hlid)
    refine ⟨?_, (hr y).trans hrelease⟩
    obtain hc | hc := hs y
    · rw [hc]; exact hstate
    · rw [hc]; nofun
  · exact h.pool x hy hlid

/-- A change of a core that leaves its launch and its next bundle's cycle alone, or takes it out of every gang. -/
theorem State.Released.modCore (h : s.Released lid now gang) (n : Nat) {f : Core → Core}
    (hf : (f (s.core n)).lid = 0 ∨ (f (s.core n)).lid = (s.core n).lid ∧ (f (s.core n)).starts = (s.core n).starts ∧
      (f (s.core n)).nextAt = (s.core n).nextAt) : (s.modCore n f).Released lid now gang := by
  refine ⟨h.pool, fun h0 i hi hlid => ?_⟩
  by_cases hn : i = n
  · subst hn
    rw [State.core_modCore] at hlid ⊢
    obtain hz | ⟨hl, hs, ht⟩ := hf
    · exact absurd (hlid.symm.trans hz) h0
    · rw [hs, ht]
      exact h.cores h0 i hi (hl.symm.trans hlid)
  · rw [State.core_modCore_other s f hn] at hlid ⊢
    exact h.cores h0 i hi hlid

/-- A draw of coordinates. -/
theorem State.Released.nextCoord (h : s.Released lid now gang) (l : Launch) (core : Nat) :
    (s.nextCoord l core).2.Released lid now gang := by
  have keep (n : Nat) {f : Launch → Launch} (hl : ∀ l, (f l).lid = l.lid) (hr : ∀ l, (f l).release = l.release)
      (hs : ∀ l, (f l).state = l.state) : (s.modLaunch n f).Released lid now gang := h.modLaunch n hl hr fun l => .inl (hs l)
  have taken {t : State} (ht : t.Released lid now gang) (r : Core → Nat × Nat) :
      (t.modCore core fun k => { k with range := r k }).Released lid now gang := by
    refine ht.modCore core (.inr ?_)
    exact ⟨rfl, rfl, rfl⟩
  unfold State.nextCoord
  split
  · exact h
  · split
    · exact keep _ (fun _ => rfl) (fun _ => rfl) fun _ => rfl
    · simp only
      split
      · split
        · exact keep _ (fun _ => rfl) (fun _ => rfl) fun _ => rfl
        · exact h
      · split
        · exact taken h fun k => (k.range.1 + 1, k.range.2)
        · have drawn : (s.draw l).1.Released lid now gang := keep _ (fun _ => rfl) (fun _ => rfl) fun _ => rfl
          split
          · exact drawn
          · exact taken drawn fun _ => ((s.draw l).2.1 + 1, (s.draw l).2.1 + (s.draw l).2.2)

/-- The front end notes when a context last ran, and the core's extensions return to the spill pool (R225, R239). -/
theorem State.Released.returnAll (h : s.Released lid now gang) (core : Nat) (k : Core) :
    ((s.noteRan k).returnAll core).Released lid now gang := by
  obtain ⟨hpool, hcores⟩ := State.Released.modCore (s := s.noteRan k) ⟨h.pool, h.cores⟩ core
    (f := fun k => { k with extensions := [] }) (.inr ⟨rfl, rfl, rfl⟩)
  exact ⟨hpool, hcores⟩

theorem State.Released.leaveGang (h : s.Released lid now gang) (core : Nat) : (s.leaveGang core).Released lid now gang := by
  have noted : (((s.noteRan (s.core core)).returnAll core).modCore core fun k =>
      { k with run := .free, lid := 0, hold := .none, fetched := none, ending := none, closing := none, started := k.orphans, outs := [], due := []
               slips := [], late := [], hist := [], starts := false, finalWait := false }).Released lid now gang :=
    by
    refine (h.returnAll core (s.core core)).modCore core (.inl ?_)
    rfl
  have timed (n : Nat) := noted.modLaunch n (f := fun l => { l with time := Nat.max l.time (s.core core).workTime })
    (fun _ => rfl) (fun _ => rfl) fun _ => .inl rfl
  unfold State.leaveGang
  simp only
  split
  · exact noted
  · split
    · exact timed _
    · exact (timed _).modLaunch _ (f := fun l => { l with state := .completing }) (fun _ => rfl) (fun _ => rfl) fun _ => .inr rfl

/-- A core that takes its first task, or leaves its gang. -/
theorem State.Released.firstTask (h : s.Released lid now gang) (n core : Nat) : (s.firstTask n core).Released lid now gang := by
  unfold State.firstTask
  split
  · exact h
  · next l _ =>
    have := h.nextCoord l core
    split
    · next hd =>
      rw [hd] at this
      exact this.modCore core (.inr ⟨rfl, rfl, rfl⟩)
    · next hd =>
      rw [hd] at this
      exact this.leaveGang core

end Released

/-! ### LAUNCH_RELEASE and LAUNCH_COMPLETE (R18, R21, R238) -/

theorem HubFlow.piece_cycle (f : HubFlow) (q : Place) (n : Nat) : (f.piece q n).st.cycle = f.st.cycle := by
  cases q with
  | buf => rfl
  | far => rfl
  | phys a =>
    simp only [HubFlow.piece, State.engRead, State.engReadAt]
    split <;> rfl

theorem hubRead_cycle (s : State) (ctx : Nat) (a : W64) (n : Nat) : (hubRead s ctx a n).st.cycle = s.cycle := by
  refine List.foldlRecOn _ _ (motive := fun g : HubFlow => g.st.cycle = s.cycle) rfl fun g hg p _ => ?_
  split
  · exact hg
  · split
    · exact hg
    · exact (g.piece_cycle ..).trans hg

/-- The resets of a release, with core and rank: each core dispatches on the cycle. -/
theorem State.core_foldl_atRelease (l : Launch) (text : KMap W32) (data : List Byte) (xs : List (Nat × Nat)) (s : State) {i : Nat}
    (h : (s.core i).starts = true ∧ (s.core i).nextAt = s.cycle ∨ ∃ x ∈ xs, x.2 = i) :
    let t := xs.foldl (fun s x => s.modCore x.2 fun k => k.atRelease l x.2 x.1 s.cycle text data) s
    (t.core i).starts = true ∧ (t.core i).nextAt = s.cycle := by
  induction xs generalizing s with
  | nil => exact h.resolve_right nofun
  | cons x xs ih =>
    refine ih (s.modCore x.2 _) ?_
    by_cases hi : i = x.2
    · subst hi
      exact .inl (by rw [State.core_modCore]; exact ⟨rfl, rfl⟩)
    · rw [State.core_modCore_other _ _ hi]
      refine h.imp_right fun ⟨y, hy, hk⟩ => ⟨y, ?_, hk⟩
      obtain rfl | hy := List.mem_cons.mp hy
      · exact absurd hk.symm hi
      · exact hy

/-- The gang of a release whose image can be read starts on its cycle; one whose image cannot be read has ended. -/
theorem State.released_release (s : State) (l : Launch) :
    (∀ x ∈ (s.release l).fe.pool, x.lid = l.lid → x.state ≠ .pending ∧ x.release = s.cycle) ∧
      ((hubRead s l.ctx (BitVec.ofNat 64 (l.desc.image + 64)) (4 * l.desc.hdr.text + l.desc.hdr.data + l.desc.hdr.routes)).bad = none →
        (s.release l).Released l.lid s.cycle l.desc.gang) := by
  let f := hubRead s l.ctx (BitVec.ofNat 64 (l.desc.image + 64)) (4 * l.desc.hdr.text + l.desc.hdr.data + l.desc.hdr.routes)
  have released (hb : (hubRead s l.ctx (BitVec.ofNat 64 (l.desc.image + 64))
      (4 * l.desc.hdr.text + l.desc.hdr.data + l.desc.hdr.routes)).bad = none) : (s.release l).Released l.lid s.cycle l.desc.gang := by
    simp only [State.release, hb]
    refine List.foldlRecOn _ _ (motive := fun t : State => t.Released l.lid s.cycle l.desc.gang) ⟨fun x hx hl => ?_, fun _ i hi _ => ?_⟩
      fun t ht i _ => ht.firstTask l.lid i
    · obtain ⟨y, -, ⟨-, rfl⟩ | ⟨hn, rfl⟩⟩ := State.mem_pool_modLaunch hx
      · exact ⟨nofun, rfl⟩
      · exact absurd hl hn
    · obtain ⟨r, hr, rfl⟩ := List.mem_iff_getElem.mp hi
      have starts := State.core_foldl_atRelease l
        (textWords l.desc.hdr.text 0 f.data) ((f.data.drop (4 * l.desc.hdr.text)).take l.desc.hdr.data)
        (l.desc.gang.mapIdx fun r i => (r, i))
        ((f.st.disown l.desc.gang).loadSlots l
          (readRoutes l.desc.gang ((f.data.drop (4 * l.desc.hdr.text)).drop l.desc.hdr.data)) s.cycle)
        (i := l.desc.gang[r]) (.inr ⟨(r, l.desc.gang[r]), List.mem_mapIdx.mpr ⟨r, hr, rfl⟩, rfl⟩)
      exact ⟨starts.1, starts.2.trans (hubRead_cycle ..)⟩
  refine ⟨?_, released⟩
  cases hb : (hubRead s l.ctx (BitVec.ofNat 64 (l.desc.image + 64)) (4 * l.desc.hdr.text + l.desc.hdr.data + l.desc.hdr.routes)).bad with
  | none => exact (released hb).pool
  | some e =>
    intro x hx hl
    simp only [State.release, hb] at hx
    obtain ⟨y, -, hn, e, rfl⟩ := State.mem_pool_endLaunch hx
    exact absurd hl hn

theorem exec_launchRelease {s : State} {lid : Nat} {l : Launch} (h : s.launch lid = some l) :
    exec (.launchRelease lid) s = if l.state = .pending ∧ s.mayRun l then .next (s.release l) else .next s := by
  show execLaunchRelease lid s = _
  simp only [execLaunchRelease, h]

/-- LAUNCH_RELEASE of a launch that may take its cores. -/
theorem exec_launchRelease_of_mayRun {s : State} {lid : Nat} {l : Launch} (h : s.launch lid = some l) (hp : l.state = .pending)
    (hm : s.mayRun l = true) : ∃ t, exec (.launchRelease lid) s = .next t ∧
      (∀ l', t.launch lid = some l' → l'.state ≠ .pending ∧ l'.release = s.cycle) ∧
      ((hubRead s l.ctx (BitVec.ofNat 64 (l.desc.image + 64)) (4 * l.desc.hdr.text + l.desc.hdr.data + l.desc.hdr.routes)).bad = none →
        lid ≠ 0 → ∀ i ∈ l.desc.gang, (t.core i).lid = lid → (t.core i).starts = true ∧ (t.core i).nextAt = s.cycle) := by
  obtain ⟨-, rfl⟩ := State.launch_mem h
  obtain ⟨hpool, hgang⟩ := s.released_release l
  refine ⟨s.release l, (exec_launchRelease h).trans (if_pos ⟨hp, hm⟩), fun l' hl' => ?_, fun hb => (hgang hb).cores⟩
  obtain ⟨hmem, hlid⟩ := State.launch_mem hl'
  exact hpool l' hmem hlid

theorem exec_launchComplete_of_completing {s : State} {lid : Nat} {l : Launch} (h : s.launch lid = some l) (hc : l.state = .completing) :
    ∃ t, exec (.launchComplete lid) s = .next t ∧ t.launch lid = none := by
  obtain ⟨-, rfl⟩ := State.launch_mem h
  show ∃ t, execLaunchComplete l.lid s = .next t ∧ _
  simp only [execLaunchComplete, h, hc, ne_eq, not_true_eq_false, if_false]
  split
  · exact ⟨_, rfl, State.launch_endLaunch ..⟩
  · exact ⟨_, rfl, State.launch_endLaunch ..⟩

theorem exec_launchComplete_of_ne {s : State} {lid : Nat} {l : Launch} (h : s.launch lid = some l) (hc : l.state ≠ .completing) :
    exec (.launchComplete lid) s = .next s := by
  show execLaunchComplete lid s = _
  simp only [execLaunchComplete, h]
  exact if_pos hc

/-! ### PREEMPTION_REQUEST (R29, R235) -/

theorem exec_preemptionRequest_of_running {s : State} {lid : Nat} {l : Launch} (h : s.launch lid = some l) (hr : l.state = .running) :
    ∃ t l', exec (.preemptionRequest lid) s = .next t ∧ t.launch lid = some l' ∧ l' = { l with state := .preempting } ∧
      t.cores = s.cores := by
  refine ⟨s.modLaunch lid fun l => { l with state := .preempting }, _, ?_, State.launch_modLaunch_same (fun _ => rfl) h, rfl, rfl⟩
  show execPreemptionRequest lid s = _
  simp only [execPreemptionRequest, h]
  exact if_pos hr

/-- What PREEMPTION_REQUEST asks for on behalf of a waiting launch: every holder, when each is outranked. -/
theorem exec_preemptionRequest_of_ne {s : State} {lid : Nat} {l : Launch} (h : s.launch lid = some l) (hr : l.state ≠ .running) :
    exec (.preemptionRequest lid) s = if l.waits && (s.holders l).all fun g => decide (l.eff < g.eff) then
      .next ((s.holders l).foldl (fun s g => s.modLaunch g.lid fun l => { l with state := .preempting }) s) else .next s := by
  show execPreemptionRequest lid s = _
  simp only [execPreemptionRequest, h]
  exact if_neg hr

/-- Every launch that is asked to pre-empt does. -/
theorem State.foldl_ask (gs : List Launch) (s : State) :
    (gs.foldl (fun s g => s.modLaunch g.lid fun l => { l with state := .preempting }) s).cores = s.cores ∧
      ∀ x ∈ (gs.foldl (fun s g => s.modLaunch g.lid fun l => { l with state := .preempting }) s).fe.pool,
        (∃ g ∈ gs, g.lid = x.lid) → x.state = .preempting := by
  induction gs using List.reverseRecOn with
  | nil => exact ⟨rfl, fun x _ h => by obtain ⟨g, hg, -⟩ := h; cases hg⟩
  | append_singleton gs g ih =>
    obtain ⟨hc, hs⟩ := ih
    simp only [List.foldl_append, List.foldl_cons, List.foldl_nil]
    refine ⟨hc, fun x hx hg => ?_⟩
    obtain ⟨y, hy, ⟨-, rfl⟩ | ⟨hn, rfl⟩⟩ := State.mem_pool_modLaunch hx
    · rfl
    · obtain ⟨g', hg', hl⟩ := hg
      refine hs x hy ⟨g', (List.mem_append.mp hg').resolve_right fun h1 => ?_, hl⟩
      rw [List.mem_singleton.mp h1] at hl
      exact hn hl.symm

theorem exec_preemptionRequest_of_waits {s : State} {lid : Nat} {l : Launch} (h : s.launch lid = some l) (hr : l.state ≠ .running)
    (hw : l.waits = true) (hg : ∀ g ∈ s.holders l, l.eff < g.eff) : ∃ t, exec (.preemptionRequest lid) s = .next t ∧ t.cores = s.cores ∧
      ∀ g ∈ s.holders l, ∀ g', t.launch g.lid = some g' → g'.state = .preempting := by
  have asks : (l.waits && (s.holders l).all fun g => decide (l.eff < g.eff)) = true := by
    simpa [hw] using hg
  obtain ⟨hc, hs⟩ := State.foldl_ask (s.holders l) s
  refine ⟨_, (exec_preemptionRequest_of_ne h hr).trans (if_pos asks), hc, fun g hgm g' hg' => ?_⟩
  obtain ⟨hmem, hlid⟩ := State.launch_mem hg'
  exact hs g' hmem ⟨g, hgm, hlid.symm⟩

theorem exec_preemptionRequest_refused {s : State} {lid : Nat} {l : Launch} (h : s.launch lid = some l) (hr : l.state ≠ .running)
    (hn : l.waits = false ∨ ∃ g ∈ s.holders l, g.eff ≤ l.eff) : exec (.preemptionRequest lid) s = .next s := by
  refine (exec_preemptionRequest_of_ne h hr).trans (if_neg fun asks => ?_)
  simp only [Bool.and_eq_true, List.all_eq_true, decide_eq_true_eq] at asks
  obtain ⟨hw, hall⟩ := asks
  obtain hn | ⟨g, hg, hle⟩ := hn
  · exact Bool.false_ne_true (hn.symm.trans hw)
  · have := hall g hg
    omega

end Sys2Proof.Machine
end

section
/-!
Halting, saving and going on: CORE_HALT, SAVE_COMPLETE and GANG_RESUME (R29, R323, R328, R329).
-/
namespace Sys2Proof.Machine

/-! ### CORE_HALT (R29, R323) -/

theorem State.flushLate_of_late_nil {s : State} {core : Nat} (h : (s.core core).late = []) : s.flushLate core = s := by
  simp [State.flushLate, h]

/-- A core between bundles stands where it stops. -/
theorem Core.bounded_eq_self {k : Core} (h : k.closing = none ∨ k.slips ≠ []) : k.bounded = k := by
  unfold Core.bounded
  split
  · next hs =>
    rw [Core.atBoundary, h.resolve_right (not_not_intro (List.isEmpty_iff.mp hs))]
  · rfl

theorem exec_coreHalt {s : State} {core : Nat} {l : Launch} (h : s.launch (s.core core).lid = some l) (hp : l.state = .preempting)
    (hr : (s.core core).run = .running) (hb : (s.core core).closing = none ∨ (s.core core).slips ≠ []) (hl : (s.core core).late = []) :
    exec (.coreHalt core) s = .next (s.modCore core fun k =>
      { k.bounded with run := .halted, fetched := none, isSaved := false, haltCycle := s.cycle, starts := false }) ∧
      (s.core core).bounded = s.core core := by
  refine ⟨?_, Core.bounded_eq_self hb⟩
  show execCoreHalt core s = _
  simp only [execCoreHalt, h, State.flushLate_of_late_nil hl]
  exact if_pos ⟨hp, .inl hr⟩

/-! ### SAVE_COMPLETE (R323, R328) -/

/-- The end of an engine's writes of a register leaves of its core everything but the held writes. -/
theorem State.core_land (s : State) (core : Nat) (cls : Class) (n : Nat) (tok : Option Nat) (w : WriteTo) :
    ∃ ws, (s.land core cls n tok w).core core = { s.core core with writes := ws } := by
  unfold State.land
  split
  · exact ⟨(s.core core).writes, rfl⟩
  · rw [State.core_modCore]
    exact ⟨_, rfl⟩

theorem State.core_suspendMatrix (s : State) (core : Nat) : (s.suspendMatrix core).fe = s.fe ∧
    ∃ ws mx, (s.suspendMatrix core).core core = { s.core core with writes := ws, mx := mx } := by
  simp only [State.suspendMatrix]
  split
  · exact ⟨rfl, _, _, rfl⟩
  · simp only [State.core_modCore]
    split
    · exact ⟨rfl, _, _, rfl⟩
    · simp only [State.putMres]
      split
      · exact ⟨rfl, _, _, rfl⟩
      · obtain ⟨ws, hws⟩ := s.core_land core .x _ _ _
        exact ⟨rfl, ws, _, by rw [hws]⟩

theorem State.writeSave_cores (s : State) (i : Nat) : (s.writeSave i).cores = s.cores ∧ (s.writeSave i).fe = s.fe := by
  unfold State.writeSave
  split <;> exact ⟨rfl, rfl⟩

/-- A suspended core with its state in its save area (R323). -/
def State.savedAt (s : State) (core : Nat) : State :=
  ((s.suspendMatrix core).modCore core fun k => { k.emptyCaches with isSaved := true }).writeSave core

/-- A save leaves the launches alone and, of the core, all but its matrix engine, its held writes and its caches. -/
theorem State.core_savedAt (s : State) (core : Nat) : (s.savedAt core).fe = s.fe ∧ ∃ ws mx,
    (s.savedAt core).core core =
      { s.core core with writes := ws, mx := mx, loadBuf := [], records := [], scale0 := [], scale1 := [], isSaved := true } := by
  obtain ⟨hfe, ws, mx, hc⟩ := s.core_suspendMatrix core
  obtain ⟨hw, hwfe⟩ := State.writeSave_cores ((s.suspendMatrix core).modCore core fun k => { k.emptyCaches with isSaved := true }) core
  refine ⟨hwfe.trans hfe, ws, mx, ?_⟩
  show kget Core.init (State.writeSave _ core).cores core = _
  rw [hw]
  show (State.modCore _ core _).core core = _
  rw [State.core_modCore, hc]
  rfl

/-- What SAVE_COMPLETE does with a halted core that has drained. -/
theorem exec_saveComplete {s : State} {core : Nat} (hr : (s.core core).run = .halted) (hs : (s.core core).isSaved = false) (hc : core < 65536)
    (hd : s.drained core = true) : exec (.saveComplete core) s =
      match (s.savedAt core).launch (s.core core).lid with
      | none => .next (s.savedAt core)
      | some l =>
        if l.state ≠ .preempting then
          .next (match (s.core core).isSaved, (s.core core).tdisp with
            | false, some 0 => { s.savedAt core with agenda := (s.savedAt core).agenda ++ [.tdispResume core] }
            | false, some _ => { s.savedAt core with agenda := (s.savedAt core).agenda ++ [.tdispHandler core] }
            | _, _ => s.savedAt core)
        else if l.fate.isSome then .next (((s.savedAt core).stopCore core).replayAgain l.lid)
        else if ((s.savedAt core).liveCores l).all fun i => ((s.savedAt core).core i).isSaved then .next ((s.savedAt core).saveGang l)
        else .next (s.savedAt core) := by
  have late : (s.core core).late = [] := by
    simp only [State.drained, Bool.and_eq_true] at hd
    exact List.isEmpty_iff.mp hd.1.1.2
  show execSaveComplete core s = _
  simp only [execSaveComplete, State.flushLate_of_late_nil late, hr, hs, hd, Nat.not_le.mpr hc, beq_self_eq_true, Bool.true_or,
    Bool.not_true, Bool.not_false, decide_false, Bool.or_self, Bool.and_false, Bool.false_eq_true, if_false]
  rfl

/-- The save of a gang with one live core: its task stands under its key in the save area, and the core is vacated (R328, log 20). -/
theorem State.saveGang_one {s : State} {l : Launch} {core : Nat} (live : s.liveCores l = [core]) (hr : (s.core core).run = .halted) :
    s.saveGang l = ((((s.noteRan (s.core core)).setCore (l.lid * 65536 + core) { s.core core with run := .saved }).setCore core
      (s.core core).vacated).rename core (l.lid * 65536 + core)).modLaunch l.lid fun l =>
        { l with state := .preempted, haltAt := ((s.liveCores l).map fun i => (s.core i).haltCycle).foldl Nat.max 0 } := by
  simp only [State.saveGang, live, List.foldl_cons, List.foldl_nil, hr, if_true]

/-- Where the launch, the core and its task stand once a gang with one live core is saved. -/
theorem State.saveGang_stands {s : State} {l : Launch} {core : Nat} (live : s.liveCores l = [core]) (hr : (s.core core).run = .halted)
    (h : s.launch l.lid = some l) (h0 : 0 < l.lid) :
    let t := s.saveGang l
    let task := t.core (l.lid * 65536 + core)
    (∃ l', t.launch l.lid = some l' ∧ l'.state = .preempted ∧ l'.haltAt = (s.core core).haltCycle) ∧ (t.core core).run = .free ∧
      task.run = .saved ∧ task.sregs = (s.core core).sregs ∧ task.pc = (s.core core).pc := by
  have apart : l.lid * 65536 + core ≠ core := by omega
  let stored : State := ((s.noteRan (s.core core)).setCore (l.lid * 65536 + core) { s.core core with run := .saved }).setCore core
    (s.core core).vacated
  have aside := stored.aside_rename core (l.lid * 65536 + core)
  have freed := (aside.control core).trans (congrArg Core.control (State.core_setCore ..))
  have kept := (aside.control (l.lid * 65536 + core)).trans
    (congrArg Core.control ((State.core_setCore_other _ _ apart).trans (State.core_setCore ..)))
  rw [State.saveGang_one live hr]
  refine ⟨⟨_, State.launch_modLaunch_same (s := stored.rename core (l.lid * 65536 + core)) (l := l) (fun _ => rfl)
    ((State.launch_congr aside.pool _).trans h), rfl, ?_⟩, (congrArg Core.run freed :), (congrArg Core.run kept :),
    (congrArg Core.sregs kept :), (congrArg Core.pc kept :)⟩
  simp only [live, List.map_cons, List.map_nil, List.foldl_cons, List.foldl_nil]
  exact Nat.zero_max _

/-- The last core of a gang is saved: it is free, and its task stands in its save area (R328). -/
theorem exec_saveComplete_gang {s : State} {core : Nat} {l : Launch} (hr : (s.core core).run = .halted) (hs : (s.core core).isSaved = false)
    (hc : core < 65536) (hd : s.drained core = true) (h : s.launch (s.core core).lid = some l) (hp : l.state = .preempting)
    (hf : l.fate = none) (hg : l.desc.gang = [core]) (h0 : 0 < l.lid) :
    ∃ t l', exec (.saveComplete core) s = .next t ∧ t.launch l.lid = some l' ∧ l'.state = .preempted ∧
      l'.haltAt = (s.core core).haltCycle ∧ (t.core core).run = .free ∧ (t.core (l.lid * 65536 + core)).run = .saved ∧
      (t.core (l.lid * 65536 + core)).sregs = (s.core core).sregs ∧ (t.core (l.lid * 65536 + core)).pc = (s.core core).pc := by
  have hexec := exec_saveComplete hr hs hc hd
  obtain ⟨hfe, ws, mx, hcore⟩ := s.core_savedAt core
  have hlaunch := (State.launch_congr (congrArg FrontEnd.pool hfe) _).trans h
  have hlid : l.lid = (s.core core).lid := (State.launch_mem h).2
  generalize s.savedAt core = u at hexec hcore hlaunch
  have home : l.home core = core := by simp [Launch.home, hp]
  have live : u.liveCores l = [core] := by simp [State.liveCores, hg, home, hcore, hlid]
  have saved : (u.liveCores l).all (fun i => (u.core i).isSaved) = true := by
    simp only [live, List.all_cons, List.all_nil, hcore, Bool.and_true]
  obtain ⟨⟨l', hl', hstate, hhalt⟩, hfree, hsaved, hsregs, hpc⟩ :=
    State.saveGang_stands live ((congrArg Core.run hcore).trans hr) (by rw [hlid]; exact hlaunch) h0
  rw [hcore] at hhalt hsregs hpc
  refine ⟨u.saveGang l, l', ?_, hl', hstate, hhalt, hfree, hsaved, hsregs, hpc⟩
  rw [hexec, hlaunch]
  simp only [hp, ne_eq, not_true_eq_false, if_false, hf, Option.isSome_none, Bool.false_eq_true]
  exact if_pos saved

/-- A core that stands in no launch is saved and stays halted. -/
theorem exec_saveComplete_alone {s : State} {core : Nat} (hr : (s.core core).run = .halted) (hs : (s.core core).isSaved = false)
    (hc : core < 65536) (hd : s.drained core = true) (h : s.launch (s.core core).lid = none) :
    ∃ t, exec (.saveComplete core) s = .next t ∧ (t.core core).isSaved = true ∧ (t.core core).run = .halted := by
  obtain ⟨hfe, ws, mx, hcore⟩ := s.core_savedAt core
  refine ⟨s.savedAt core, ?_, congrArg Core.isSaved hcore, (congrArg Core.run hcore).trans hr⟩
  rw [exec_saveComplete hr hs hc hd, State.launch_congr (congrArg FrontEnd.pool hfe), h]

/-! ### Going on (R327, R369) -/

theorem Core.resumeMatrix_queue (k : Core) (free : Nat) :
    ∃ mx, k.resumeMatrix free = { k with mx := mx } ∧ mx.queue = k.mx.queue := by
  unfold Core.resumeMatrix
  split
  · exact ⟨k.mx, rfl, rfl⟩
  · exact ⟨_, rfl, rfl⟩

/-- A core that goes on at `pc` on a cycle, with its matrix engine; in the final wait of its `tend` it makes that wait again (R242, R320). -/
def Core.goesOn (k : Core) (pc cycle : Nat) (mx : Matrix) : Core :=
  { k with
    run := if (k.finalWait && decide (pc = k.pc)) = true then .ending else .running
    finalWait := k.finalWait && decide (pc = k.pc)
    hold := .none, holdCount := 0, pc := pc, fetched := none, isSaved := false, tdisp := none, starts := true, nextAt := cycle, mx := mx }

/-- Where a core stands once it goes on, but for what the held items that are made first change. -/
theorem State.control_goOn (s : State) (core pc cycle : Nat) :
    (s.goOn core pc cycle).fe.pool = s.fe.pool ∧ ∃ mx, mx.queue = (s.core core).mx.queue ∧
      ((s.goOn core pc cycle).core core).control = ((s.core core).goesOn pc cycle mx).control := by
  obtain ⟨mx, hk, hq⟩ := (s.core core).resumeMatrix_queue s.free
  have aside := State.aside_deliverHeld (s.modCore core fun k0 =>
    let k := k0.resumeMatrix s.free
    let waits := k.finalWait && decide (pc = k.pc)
    { k with
      run := if waits then .ending else .running
      finalWait := waits
      hold := .none
      holdCount := 0
      pc := pc
      fetched := none
      isSaved := false
      tdisp := none
      starts := true
      nextAt := cycle
      mx := { k.mx with headAt := Nat.max k.mx.headAt s.cycle, faulted := none } }) core
  refine ⟨aside.pool, { mx with headAt := Nat.max mx.headAt s.cycle, faulted := none }, hq, (aside.control core).trans ?_⟩
  rw [State.core_modCore, hk]
  rfl

theorem State.goOn_pool (s : State) (core pc cycle : Nat) : (s.goOn core pc cycle).fe.pool = s.fe.pool := (s.control_goOn core pc cycle).1

end Sys2Proof.Machine
end

section
/-!
Going on: GANG_RESUME, and the dispositions TDISP_RESUME, TDISP_HANDLER and TDISP_END (R327 to R329).
-/
namespace Sys2Proof.Machine

/-! ### What a resumption leaves of the launch pool -/

theorem State.resolveEdited_pool (s : State) (i : Nat) (old new : Core) : (s.resolveEdited i old new).fe.pool = s.fe.pool :=
  List.foldlRecOn _ _ (motive := fun t : State => t.fe.pool = s.fe.pool) rfl fun _ ht _ _ => ht

theorem State.reload_pool {s t : State} {i : Nat} (h : s.reload i = some t) : t.fe.pool = s.fe.pool := by
  simp only [State.reload] at h
  split at h
  · split at h
    · cases h; rfl
    · obtain ⟨k1, -, rfl⟩ := Option.map_eq_some_iff.mp h
      exact State.resolveEdited_pool ..
  · cases h; rfl

theorem State.resumeTrapped_pool (s : State) (core cycle : Nat) : (s.resumeTrapped core cycle).fe.pool = s.fe.pool := by
  simp only [State.resumeTrapped]
  split
  · exact State.goOn_pool ..
  · split <;> exact State.goOn_pool ..

theorem State.cancelGbind_pool (s : State) (core : Nat) (e : EngEntry) (code : Nat) : (s.cancelGbind core e code).fe.pool = s.fe.pool := by
  unfold State.cancelGbind
  split
  · show (if _ then _ else s : State).fe.pool = _
    split <;> rfl
  · rfl

theorem State.handleTrapped_pool (s : State) (core handler cycle : Nat) : (s.handleTrapped core handler cycle).fe.pool = s.fe.pool := by
  refine (State.goOn_pool ..).trans ?_
  exact List.foldlRecOn _ _ (motive := fun t : State => t.fe.pool = s.fe.pool) rfl fun t ht e _ => (t.cancelGbind_pool ..).trans ht

theorem State.Resumed.dispose {s : State} {lid : Nat} (h : s.Resumed lid) (core action : Nat) (gang : Option Nat) :
    (s.dispose core action gang).Resumed lid := by
  simp only [State.dispose]
  split
  · split
    · refine h.of_pool ((State.resumeTrapped_pool ..).trans ?_)
      cases hr : s.reload core with
      | none => rfl
      | some t => exact State.reload_pool hr
    · exact h
  · split
    · split
      · exact h.failLaunch _ _ _
      · next hr =>
        split
        · exact h.of_pool ((State.resumeTrapped_pool ..).trans (State.reload_pool hr))
        · exact h.of_pool ((State.handleTrapped_pool ..).trans (State.reload_pool hr))
    · exact h.failLaunch _ _ _

theorem State.Resumed.restoreCore {s : State} {lid : Nat} (h : s.Resumed lid) (l : Launch) (shift i : Nat) :
    (s.restoreCore l shift i).Resumed lid := by
  simp only [State.restoreCore]
  have back (cores : KMap Core) (j : Nat) : (State.rename { s with cores := cores } j i).Resumed lid :=
    h.of_pool (State.aside_rename ..).pool
  split
  · split
    · exact (back _ _).dispose _ _ _
    · exact back _ _
  · exact (back _ _).of_pool (State.goOn_pool ..)

/-! ### GANG_RESUME (R329) -/

/-- A pre-empted gang that may run is resumed, or its launch fails: it is not pre-empted any more. -/
theorem exec_gangResume_of_mayRun {s : State} {lid : Nat} {l : Launch} (h : s.launch lid = some l) (hp : l.state = .preempted)
    (hm : s.mayRun l = true) : ∃ t, exec (.gangResume lid) s = .next t ∧ ∀ l', t.launch lid = some l' → l'.state ≠ .preempted := by
  obtain ⟨-, rfl⟩ := State.launch_mem h
  have resumed : ∃ t, exec (.gangResume l.lid) s = .next t ∧ t.Resumed l.lid := by
    show ∃ t, execGangResume l.lid s = .next t ∧ _
    simp only [execGangResume, h, hp, hm, ne_eq, not_true_eq_false, Bool.not_true, Bool.false_eq_true, or_self, if_false]
    split
    · exact ⟨_, rfl, State.resumed_failLaunch hp _ _⟩
    · split
      · exact ⟨_, rfl, State.resumed_failLaunch hp _ _⟩
      · refine ⟨_, rfl, List.foldlRecOn _ _ (motive := fun t : State => t.Resumed l.lid) (fun x hx hl => ?_)
          fun t ht i _ => ht.restoreCore _ _ _⟩
        obtain ⟨y, -, ⟨-, rfl⟩ | ⟨hn, rfl⟩⟩ := State.mem_pool_modLaunch hx
        · nofun
        · exact absurd hl hn
  obtain ⟨t, ht, hr⟩ := resumed
  refine ⟨t, ht, fun l' hl' => ?_⟩
  obtain ⟨hmem, hlid⟩ := State.launch_mem hl'
  exact hr l' hmem hlid

theorem exec_gangResume_of_ne {s : State} {lid : Nat} {l : Launch} (h : s.launch lid = some l) (hp : l.state ≠ .preempted) :
    exec (.gangResume lid) s = .next s := by
  show execGangResume lid s = _
  simp only [execGangResume, h]
  exact if_pos (.inl hp)

/-- A saved task that halted goes on in its core where it stood. -/
theorem State.control_restoreCore (s : State) (l : Launch) (shift : Nat) {i : Nat} (h0 : 0 < l.lid)
    (hr : (s.core (l.lid * 65536 + i)).run = .saved) (hw : (s.core (l.lid * 65536 + i)).finalWait = false) :
    let k := s.core (l.lid * 65536 + i)
    let t := s.restoreCore l shift i
    t.fe.pool = s.fe.pool ∧ (t.core i).run = .running ∧ (t.core i).pc = k.pc ∧ (t.core i).sregs = k.sregs ∧ (t.core i).starts = true ∧
      (t.core i).nextAt = s.cycle := by
  have apart : i ≠ l.lid * 65536 + i := by omega
  let k := s.core (l.lid * 65536 + i)
  let now := s.core i
  let back : Core :=
    { k with
      wdogCount := 0
      wdogSeen := 0
      serial := Nat.max k.serial now.serial
      outNext := Nat.max k.outNext now.outNext
      outs := k.outs.map fun o => { o with no := o.no + (Nat.max k.outNext now.outNext - k.outNext) }
      perf := now.perf
      perfSel := now.perfSel
      started := k.started ++ now.started
      haltCycle := k.haltCycle + shift }
  let s1 : State := { s with cores := kdel (kput s.cores i back) (l.lid * 65536 + i) }
  let s2 := s1.rename (l.lid * 65536 + i) i
  have moved : s1.core i = back := by
    show kget Core.init (kdel _ _) i = back
    rw [kget_kdel, if_neg apart, kget_kput_same]
  have aside := s1.aside_rename (l.lid * 65536 + i) i
  have stands : (s2.core i).control = back.control := (aside.control i).trans (congrArg Core.control moved)
  obtain ⟨hpool, mx, -, hgo⟩ := s2.control_goOn i k.pc s.cycle
  have waits : (s2.core i).finalWait = false := (congrArg Core.finalWait stands).trans hw
  have restored : s.restoreCore l shift i = (s2.goOn i k.pc s.cycle).modCore i fun b => { b with hold := k.hold, holdCount := k.holdCount } := by
    simp only [State.restoreCore]
    exact if_neg (by rw [hr]; nofun)
  have hrun : ((s2.goOn i k.pc s.cycle).core i).run = .running := by
    refine (congrArg Core.run hgo).trans ?_
    show (if _ then _ else _ : Run) = _
    rw [waits]
    rfl
  simp only [restored, State.core_modCore]
  exact ⟨hpool.trans aside.pool, hrun, (congrArg Core.pc hgo :), (congrArg Core.sregs hgo :).trans (congrArg Core.sregs stands :),
    (congrArg Core.starts hgo :), (congrArg Core.nextAt hgo :)⟩

/-- The one core of a gang whose task stands saved goes on with it on the cycle of the resumption. -/
theorem exec_gangResume_one {s : State} {l : Launch} {i : Nat} (h : s.launch l.lid = some l) (hp : l.state = .preempted)
    (hm : s.mayRun l = true) (hg : l.desc.gang = [i]) (h0 : 0 < l.lid) (hl : (s.core (l.lid * 65536 + i)).lid = l.lid)
    (hr : (s.core (l.lid * 65536 + i)).run = .saved) (hw : (s.core (l.lid * 65536 + i)).finalWait = false)
    (hs : s.reload (l.lid * 65536 + i) = some s) (hf : l.desc.slotFlag = false) :
    let k := s.core (l.lid * 65536 + i)
    ∃ t l', exec (.gangResume l.lid) s = .next t ∧ t.launch l.lid = some l' ∧ l'.state = .running ∧ (t.core i).run = .running ∧
      (t.core i).pc = k.pc ∧ (t.core i).sregs = k.sregs ∧ (t.core i).starts = true ∧ (t.core i).nextAt = s.cycle := by
  have live : s.liveCores l = [i] := by simp [State.liveCores, hg, Launch.home, hp, hl]
  let shift := s.cycle - l.haltAt
  let s2 := (s.disown [i]).modLaunch l.lid fun l => { l with state := .running, release := l.release + shift }
  obtain ⟨hpool, hrest⟩ := s2.control_restoreCore l shift h0 hr hw
  refine ⟨s2.restoreCore l shift i, _, ?_, (State.launch_congr hpool _).trans
    (State.launch_modLaunch_same (s := s.disown [i]) (l := l) (fun _ => rfl) h), rfl, hrest⟩
  show execGangResume l.lid s = _
  simp only [execGangResume, h, hp, hm, ne_eq, not_true_eq_false, Bool.not_true, Bool.false_eq_true, or_self, if_false, live,
    List.foldl_cons, List.foldl_nil, Option.bind_some, hs]
  simp only [State.reloadSlots, hf, Bool.not_false, if_true]
  rfl

end Sys2Proof.Machine
end

section
/-!
The dispositions of a trapped task: TDISP_RESUME, TDISP_HANDLER and TDISP_END (R327, R328).
-/
namespace Sys2Proof.Machine

/-! ### Dispositions -/

/-- A core has gone on from where it stood: it runs, dispatches next on a cycle, and keeps its registers, held writes and loops. -/
def Core.WentOn (b k : Core) (cycle : Nat) : Prop :=
  b.run = .running ∧ b.tdisp = none ∧ b.sregs = k.sregs ∧ b.writes = k.writes ∧ b.loops = k.loops ∧ b.starts = true ∧ b.nextAt = cycle

/-- A task that does not stand in its final wait runs when it goes on. -/
theorem State.wentOn_goOn {s : State} {core : Nat} (hw : (s.core core).finalWait = false) (pc cycle : Nat) :
    let b := (s.goOn core pc cycle).core core
    b.WentOn (s.core core) cycle ∧ b.pc = pc ∧ b.slips = (s.core core).slips ∧ b.ending = (s.core core).ending := by
  obtain ⟨-, mx, -, hgo⟩ := s.control_goOn core pc cycle
  have runs : ((s.core core).goesOn pc cycle mx).run = .running := by simp [Core.goesOn, hw]
  exact ⟨⟨(congrArg Core.run hgo :).trans runs, (congrArg Core.tdisp hgo :), (congrArg Core.sregs hgo :), (congrArg Core.writes hgo :),
    (congrArg Core.loops hgo :), (congrArg Core.starts hgo :), (congrArg Core.nextAt hgo :)⟩,
    (congrArg Core.pc hgo :), (congrArg Core.slips hgo :), (congrArg Core.ending hgo :)⟩

/-- A trapped core goes on at `tepc`, or where its classes stand when it stopped behind one that waits there (R327; log 7). -/
theorem State.wentOn_resumeTrapped {s : State} {core : Nat} (hw : (s.core core).finalWait = false) (cycle : Nat) :
    let k := s.core core
    let b := (s.resumeTrapped core cycle).core core
    let tepc := (k.csrNow 0x051).toNat
    b.WentOn k cycle ∧ (k.slips = [] → k.ending = none → b.pc = tepc) ∧
      ((k.slips ≠ [] ∨ k.ending ≠ none) → k.stopsAt tepc = true → b.pc = k.pc ∧ b.slips = k.slips ∧ b.ending = k.ending) ∧
      ((k.slips ≠ [] ∨ k.ending ≠ none) → k.stopsAt tepc = false →
        b.pc = tepc ∧ b.slips = k.slips.filter (fun x => !x.op.isWait) ∧ b.ending = none) := by
  let k := s.core core
  have alone : (k.slips.isEmpty = true ∧ k.ending = none) ↔ ¬(k.slips ≠ [] ∨ k.ending ≠ none) := by simp
  simp only [State.resumeTrapped]
  split
  · next h =>
    obtain ⟨hgo, hpc, -⟩ := State.wentOn_goOn hw (k.csrNow 0x051).toNat cycle
    exact ⟨hgo, fun _ _ => hpc, fun g => absurd g (alone.mp h), fun g => absurd g (alone.mp h)⟩
  · next h =>
    have behind {p : Prop} (hs : k.slips = []) (he : k.ending = none) : p := absurd ⟨List.isEmpty_iff.mpr hs, he⟩ h
    split
    · next ha =>
      obtain ⟨hgo, stands⟩ := State.wentOn_goOn hw k.pc cycle
      exact ⟨hgo, behind, fun _ _ => stands, fun _ g => absurd (g.symm.trans ha) Bool.false_ne_true⟩
    · next ha =>
      let s1 := s.modCore core fun k =>
        { k with bn := k.bn + (if k.ending.isSome then 1 else 0), ending := none, slips := k.slips.filter fun x => !x.op.isWait }
      have h1 : s1.core core = { k with bn := k.bn + (if k.ending.isSome then 1 else 0), ending := none
                                        slips := k.slips.filter fun x => !x.op.isWait } := State.core_modCore ..
      have moved := State.wentOn_goOn (s := s1) (by rw [h1]; exact hw) (k.csrNow 0x051).toNat cycle
      rw [h1] at moved
      obtain ⟨hgo, stands⟩ := moved
      exact ⟨hgo, behind, fun _ g => absurd g ha, fun _ _ => stands⟩

/-- The cycle on which a task resumes alone comes within one turn of its slot counter, at its slot. -/
theorem State.sameSlot_bounds (s : State) (core : Nat) :
    s.cycle ≤ s.sameSlot core ∧ s.sameSlot core < s.cycle + 256 ∧ s.sameSlot core % 256 = (s.core core).haltCycle % 256 := by
  simp only [State.sameSlot]
  omega

/-- Landing a register write leaves the engine queues alone. -/
theorem WriteTo.land_queues (w : WriteTo) (k : Core) : (w.land k).mx = k.mx ∧ (w.land k).queues = k.queues := by
  cases w with
  | scalar r v df => simp only [WriteTo.land]; split <;> exact ⟨rfl, rfl⟩
  | vector c r lanes df => exact ⟨rfl, rfl⟩
  | mask c r v => simp only [WriteTo.land]; split <;> exact ⟨rfl, rfl⟩
  | mstack c d es => exact ⟨rfl, rfl⟩
  | csr n v => exact ⟨rfl, rfl⟩
  | flags b => exact ⟨rfl, rfl⟩

theorem Core.landAll_queues (k : Core) : k.landAll.mx = k.mx ∧ k.landAll.queues = k.queues := by
  refine List.foldlRecOn _ _ (motive := fun t : Core => t.mx = k.mx ∧ t.queues = k.queues) ⟨rfl, rfl⟩ fun t ht w _ => ?_
  obtain ⟨hm, hq⟩ := w.wr.land_queues t
  exact ⟨hm.trans ht.1, hq.trans ht.2⟩

theorem Core.queue_eq_nil {k : Core} (hm : k.mx.queue = []) (hq : k.queues = []) (q : Nat) : k.queue q = [] := by
  unfold Core.queue
  split
  · exact hm
  · rw [hq]; rfl

/-- A task that a trap handler takes over runs there, without loops, mask stacks or queued operations. -/
theorem State.core_handleTrapped (s : State) (core handler cycle : Nat) :
    let b := (s.handleTrapped core handler cycle).core core
    b.run = .running ∧ b.pc = handler ∧ b.loops = [] ∧ b.mdepth = [] ∧ ∀ q, b.queue q = [] := by
  simp only [State.handleTrapped]
  set s1 : State := State.returnAll _ core
  set f : Core → Core := fun k => _
  obtain ⟨-, mx, hq, hgo⟩ := (s1.modCore core f).control_goOn core handler cycle
  rw [State.core_modCore] at hq hgo
  have waits : (f (s1.core core)).finalWait = false := rfl
  have runs : ((f (s1.core core)).goesOn handler cycle mx).run = .running := by simp [Core.goesOn, waits]
  obtain ⟨hm, hqs⟩ := Core.landAll_queues ({ s1.core core with
    queues := [], slips := [], tokens := (s1.core core).slips.foldr Slip.undo (s1.core core).tokens
    mx := (s1.core core).mx.abandon }.dropAhead ((s1.core core).oldest (s1.core core).bn))
  have none : mx.queue = [] := hq.trans (congrArg Matrix.queue hm)
  exact ⟨(congrArg Core.run hgo :).trans runs, (congrArg Core.pc hgo :), (congrArg Core.loops hgo :),
    (congrArg Core.mdepth hgo :), Core.queue_eq_nil ((congrArg (fun k => k.mx.queue) hgo :).trans none) ((congrArg Core.queues hgo :).trans hqs)⟩

/-! ### TDISP (R327, R328; log 24) -/

section Trapped

variable {s : State} {core : Nat} (hr : (s.core core).run = .trapped)
include hr

/-- A write of TDISP reaches the trapped task that stands on its core. -/
theorem State.trappedTask_of_trapped : s.trappedTask core = some core := if_pos hr

theorem State.tdisp_of_none (h : s.launch (s.core core).lid = none) (hs : (s.core core).isSaved = true) (action : Nat) :
    s.tdisp core action = s.dispose core action none := by
  simp [State.tdisp, State.trappedTask_of_trapped hr, h, hs]

theorem State.tdisp_of_running {l : Launch} (h : s.launch (s.core core).lid = some l) (hl : l.state = .running)
    (hs : (s.core core).isSaved = true) {action : Nat} (ha : ¬(action = 2 ∨ (action = 1 ∧ (!l.desc.handlerValid) = true))) :
    s.tdisp core action = s.dispose core action none := by
  simp only [State.tdisp, State.trappedTask_of_trapped hr, h, hl, hs, if_neg ha, and_self, if_true]

theorem exec_tdispResume_unsaved {l : Launch} (h : s.launch (s.core core).lid = some l) (hs : (s.core core).isSaved = false) :
    ∃ t, exec (.tdispResume core) s = .next t ∧ (t.core core).tdisp = some 0 ∧ (t.core core).run = .trapped := by
  refine ⟨s.modCore core fun k => { k with tdisp := some 0 }, ?_, ?_, ?_⟩
  · show execTdispResume core s = _
    simp [execTdispResume, State.tdisp, State.trappedTask_of_trapped hr, h, hs]
  · rw [State.core_modCore]
  · rw [State.core_modCore]
    exact hr

/-- TDISP_RESUME of a saved task whose launch runs, or has gone, and whose save area has not been changed. -/
theorem exec_tdispResume (h : s.launch (s.core core).lid = none ∨ ∃ l, s.launch (s.core core).lid = some l ∧ l.state = .running)
    (hs : (s.core core).isSaved = true) (hld : s.reload core = some s) :
    exec (.tdispResume core) s = .next (s.resumeTrapped core (s.sameSlot core)) := by
  show execTdispResume core s = _
  rw [execTdispResume]
  obtain h | ⟨l, h, hl⟩ := h
  · rw [State.tdisp_of_none hr h hs]
    simp [State.dispose, h, hld]
  · rw [State.tdisp_of_running hr h hl hs (by omega)]
    simp [State.dispose, h, hld]

theorem exec_tdispHandler_of_running {l : Launch} (h : s.launch (s.core core).lid = some l) (hl : l.state = .running)
    (hs : (s.core core).isSaved = true) (hv : l.desc.handlerValid = true) (hld : s.reload core = some s) :
    exec (.tdispHandler core) s = .next (s.handleTrapped core l.desc.handler s.cycle) := by
  show execTdispHandler core s = _
  rw [execTdispHandler, State.tdisp_of_running hr h hl hs (by simp [hv])]
  simp [State.dispose, h, hv, hld]

theorem exec_tdispEnd_of_running {l : Launch} (h : s.launch (s.core core).lid = some l) (hl : l.state = .running) :
    ∃ t, exec (.tdispEnd core) s = .next t ∧
      t.launch (s.core core).lid = some { l with state := .preempting, fate := some (.faulted, ((s.core core).csrNow 0x050).toNat % 256, 0) } := by
  obtain ⟨-, hlid⟩ := State.launch_mem h
  refine ⟨s.modLaunch l.lid fun l =>
    { l with state := .preempting, fate := some (.faulted, field ((s.core core).csrNow 0x050) 0 8, 0) }, ?_, ?_⟩
  · show execTdispEnd core s = _
    simp [execTdispEnd, State.tdisp, State.trappedTask_of_trapped hr, h, State.dispose, State.failLaunch, hl]
  · have cause : field ((s.core core).csrNow 0x050) 0 8 = ((s.core core).csrNow 0x050).toNat % 256 := by simp [field, bits]
    rw [← cause, ← hlid]
    exact State.launch_modLaunch_same (l := l) (fun _ => rfl) (by rw [hlid]; exact h)

/-- A task without its launch is free once it is ended. -/
theorem exec_tdisp_free (h : s.launch (s.core core).lid = none) (hs : (s.core core).isSaved = true) :
    (∃ t, exec (.tdispHandler core) s = .next t ∧ (t.core core).run = .free) ∧
      ∃ t, exec (.tdispEnd core) s = .next t ∧ (t.core core).run = .free := by
  have freed (action : Nat) (ha : action ≠ 0) : ((s.tdisp core action).core core).run = .free := by
    simp [State.tdisp_of_none hr h hs, State.dispose, h, ha]
  exact ⟨⟨_, rfl, freed 1 (by omega)⟩, _, rfl, freed 2 (by omega)⟩

end Trapped

end Sys2Proof.Machine
end

section
/-!
Sequence managers: the end of a commit, and a new configuration (R262, R263, R265, R275); the obligation on launches.
-/
namespace Sys2Proof.Machine

@[simp] theorem State.manager_setManager (s : State) (m : Nat) (x : Manager) : (s.setManager m x).manager m = x := kget_kput_same ..

/-- A manager in which nothing waits has nothing to try again. -/
theorem State.wakeManager_of_idle {s : State} {m : Nat} (h : (s.manager m).waiting = []) :
    s.wakeManager m = s.setManager m (s.manager m) := by
  simp only [State.wakeManager, h, List.foldl_nil]
  rw [← h]

/-- The end of the only commit of a manager in which nothing waits: its slot has its record, and its operation is finished. -/
theorem State.endCommit_only {s : State} {m : Nat} {c : Commit} {x : Manager} (hc : x.commits = [c]) (hw : x.waiting = []) (r : SeqRec)
    (t : Nat) (ans : Except Cause Nat) :
    ((s.endCommit m c x r t ans).manager m).commits = [] ∧ ((s.endCommit m c x r t ans).manager m).slot c.slot = r ∧
      ∀ e d, s.commitEntry c = some e → ans = .ok d → (s.endCommit m c x r t ans).finishedAt c.core c.startedId := by
  let left : Manager := { x.setSlot c.slot r with commits := x.commits.filter fun y => y != c }
  let s2 := match s.commitEntry c with
    | some e => (s.setManager m left).finish c.core c.startedId (seqOutcome s e t ans)
    | none => s.setManager m left
  have manager : s2.manager m = left := by
    simp only [s2]
    split <;> exact State.manager_setManager ..
  have ended : s.endCommit m c x r t ans = s2.setManager m left := by
    rw [← manager]
    exact State.wakeManager_of_idle ((congrArg Manager.waiting manager).trans hw)
  rw [ended, State.manager_setManager]
  refine ⟨by simp [left, hc], (kget_kset ..).trans (if_pos rfl), fun e d he hd => ?_⟩
  have finished : s2 = (s.setManager m left).finish c.core c.startedId (seqOutcome s e t ans) := by simp only [s2, he]
  have := State.finishedAt_finish (s.setManager m left) c.core c.startedId (o := seqOutcome s e t ans) (by rw [hd]; rfl)
  rw [← finished] at this
  exact this

theorem exec_sqaccCommitEnd_idle {s : State} {m : Nat} (h : (s.manager m).commits = []) : exec (.sqaccCommitEnd m) s = .next s := by
  show execSqaccCommitEnd m s = _
  simp only [execSqaccCommitEnd, h]
  rfl

/-- SQACC_COMMIT_END of a manager's only commit: its slot has the copies' record, and its operation is done (R275). -/
theorem exec_sqaccCommitEnd {s : State} {m : Nat} {c : Commit} (hc : (s.manager m).commits = [c]) (hw : (s.manager m).waiting = []) :
    let x := s.manager m
    let r := x.slot c.slot
    ∃ t, exec (.sqaccCommitEnd m) s = .next t ∧ (t.manager m).commits = [] ∧
      ∀ e, s.commitEntry c = some e →
        (HubFlow.copyOut { st := s, time := Nat.max e.time e.inTime, data := [], bad := none } x.cfg r c).bad = none →
          ((t.manager m).slot c.slot).state = (if c.done = true then .done else .active) ∧
          ((t.manager m).slot c.slot).lc = r.lc + c.out.length ∧ ((t.manager m).slot c.slot).g = r.g + c.out.length ∧
          ((t.manager m).slot c.slot).round = (r.round + 1) % 2 ^ 64 ∧ t.finishedAt c.core c.startedId := by
  intro x r
  let t0 := ((s.commitEntry c).map fun e => Nat.max e.time e.inTime).getD 0
  let f := HubFlow.copyOut { st := s, time := t0, data := [], bad := none } x.cfg r c
  have picked : ((s.manager m).commits[Config.freeNat s.free 227 % ((s.manager m).commits.length + 1)]?.orElse fun _ =>
      (s.manager m).commits.head?) = some c := by
    rw [hc]
    obtain h | h : Config.freeNat s.free 227 % 2 = 0 ∨ Config.freeNat s.free 227 % 2 = 1 := by omega
    · simp [h]
    · simp [h]
  have entry : f.st.commitEntry c = s.commitEntry c := by
    rw [State.commitEntry, State.commitEntry, State.core, State.core, HubFlow.copyOut_cores]
  show ∃ t, execSqaccCommitEnd m s = .next t ∧ _
  simp only [execSqaccCommitEnd, picked]
  split
  · next e hb =>
    have ended := State.endCommit_only (s := f.st) (m := m) (c := c) (x := { x with free := c.took ++ x.free }) hc hw
      { r with state := .active, pages := r.pages - c.took.length } f.time (.error e)
    refine ⟨_, rfl, ended.1, fun e he hgood => ?_⟩
    have : f.bad = none := by simp only [f, t0, he]; exact hgood
    exact absurd (this.symm.trans hb) nofun
  · obtain ⟨commits, slot, finished⟩ := State.endCommit_only (s := f.st) (m := m) hc hw
      (SeqRec.cut { r with
        lc := r.lc + c.out.length, g := r.g + c.out.length, pending := c.out.getLastD 0, round := (r.round + 1) % 2 ^ 64
        state := if c.done then .done else .active })
      f.time (.ok (c.out.length + c.a * 256 + (if c.done then 65536 else 0) + (r.lc + c.out.length) * 2 ^ 32))
    exact ⟨_, rfl, commits, fun e he _ => ⟨congrArg SeqRec.state slot, congrArg SeqRec.lc slot, congrArg SeqRec.g slot,
      congrArg SeqRec.round slot, finished e _ (entry.trans he) rfl⟩⟩

theorem exec_managerConfigure {s : State} {m : Nat} {cfg : ManagerConfig} (hm : m < 8) :
    (configOk cfg = true → (s.manager m).waiting = [] →
      ∃ t, exec (.managerConfigure m cfg) s = .next t ∧ t.manager m = Manager.fresh cfg) ∧
    (configOk cfg = false → exec (.managerConfigure m cfg) s = .next s) := by
  refine ⟨fun hok hw => ?_, fun hok => if_pos (.inr (by rw [hok]; rfl))⟩
  show ∃ t, execManagerConfigure m cfg s = .next t ∧ _
  simp only [execManagerConfigure, hok, Bool.not_true, Bool.false_eq_true, or_false, Nat.not_le.mpr hm, if_false, hw]
  refine ⟨_, rfl, ?_⟩
  rw [State.wakeManager_of_idle (by rw [State.manager_setManager]), State.manager_setManager, State.manager_setManager]
  rfl

/-- Settles O48: the release, completion, pre-emption, suspension and resumption of launches, the dispositions of a trapped task, and the
sequence managers' commits and configurations. -/
theorem launchesRunAndSuspend : Obligations.LaunchesRunAndSuspend := by
  unfold Obligations.LaunchesRunAndSuspend
  refine ⟨fun s lid l h => ?_, fun s core l h hp hr hb hl => ?_, fun s core hr hs hc hd => ?_, fun s core hr => ?_,
    fun s m h => exec_sqaccCommitEnd_idle h, fun s m c hc hw => exec_sqaccCommitEnd hc hw, fun s m cfg hm => exec_managerConfigure hm⟩
  · obtain ⟨-, rfl⟩ := State.launch_mem h
    refine ⟨fun hn => ?_, exec_launchRelease_of_mayRun h, exec_launchComplete_of_completing h, exec_launchComplete_of_ne h,
      exec_preemptionRequest_of_running h, exec_preemptionRequest_of_waits h, exec_preemptionRequest_refused h,
      exec_gangResume_of_mayRun h, fun i hp hm hg _ h0 hl hr hw hs hf => exec_gangResume_one h hp hm hg h0 hl hr hw hs hf,
      exec_gangResume_of_ne h⟩
    refine (exec_launchRelease h).trans (if_neg fun ⟨hp, hm⟩ => ?_)
    exact hn.elim (fun hn => hn hp) fun hn => Bool.false_ne_true (hn.symm.trans hm)
  · obtain ⟨ht, hbounded⟩ := exec_coreHalt h hp hr hb hl
    refine ⟨_, ht, ?_⟩
    simp only [State.core_modCore, hbounded, true_and]
    rfl
  · exact ⟨exec_saveComplete_alone hr hs hc hd, fun l h hp hf hg h0 => exec_saveComplete_gang hr hs hc hd h hp hf hg h0⟩
  · intro k tepc resumes
    have goes (h : s.launch k.lid = none ∨ ∃ l, s.launch k.lid = some l ∧ l.state = .running) (hs : k.isSaved = true)
        (hld : s.reload core = some s) (hw : k.finalWait = false) : resumes := by
      obtain ⟨⟨hrun, htdisp, hsregs, hwrites, hloops, hstarts, hnext⟩, alone, waits, moved⟩ := State.wentOn_resumeTrapped hw (s.sameSlot core)
      obtain ⟨hle, hlt, hmod⟩ := s.sameSlot_bounds core
      exact ⟨_, exec_tdispResume hr h hs hld, hrun, htdisp, hsregs, hwrites, hloops, alone, waits, moved, hstarts, hle.trans_eq hnext.symm,
        hnext.trans_lt hlt, (congrArg (· % 256) hnext).trans hmod⟩
    exact ⟨fun l h hl hs hld hw => goes (.inr ⟨l, h, hl⟩) hs hld hw, fun l h hl hs => exec_tdispResume_unsaved hr h hs,
      fun l h hl hs hv hld => ⟨_, exec_tdispHandler_of_running hr h hl hs hv hld, State.core_handleTrapped ..⟩,
      fun l h hl => exec_tdispEnd_of_running hr h hl,
      fun h hs => ⟨fun hld hw => goes (.inl h) hs hld hw, exec_tdisp_free hr h hs⟩⟩

end Sys2Proof.Machine
end

section
/-!
What a core meets by itself: bundle fetch, watchdog, stale grid reads, stuck queues and the clocks (R28, R44, R46, R144, R202, R220, R225, R226).
-/
namespace Sys2Proof.Machine

/-! ### Taking an exception (R144) -/

/-- The trap's CSRs read what the exception wrote: no earlier write of them is held any more. -/
theorem Core.csrNow_enterTrap (k : Core) (m tepc code : Nat) (tval : W64) (slot : Nat) :
    (k.enterTrap m tepc code tval slot).csrNow 0x050 = BitVec.ofNat 64 code ∧
      (k.enterTrap m tepc code tval slot).csrNow 0x051 = BitVec.ofNat 64 (tepc % 16384) ∧
      (k.enterTrap m tepc code tval slot).csrNow 0x052 = tval := by
  have stored (n : Nat) (hn : n ≥ 0x050 ∧ n ≤ 0x053) :
      (k.enterTrap m tepc code tval slot).csrNow n = kget 0 (k.enterTrap m tepc code tval slot).csr n := by
    refine List.foldlRecOn _ _ (motive := fun x => x = kget 0 (k.enterTrap m tepc code tval slot).csr n) rfl fun x hx w hw => ?_
    have kept := (List.mem_filter.mp hw).2
    split
    · next q v hq =>
      rw [hq] at kept
      refine (if_neg fun ⟨hqn, _⟩ => ?_).trans hx
      rw [hqn] at kept
      simp [hn.1, hn.2] at kept
    · exact hx
  rw [stored _ (by omega), stored _ (by omega), stored _ (by omega)]
  simp [Core.enterTrap, kget_kset]

/-- A precise trap suspends a user core, with the trap's cause, address and value in its CSRs. -/
theorem State.core_exception {s : State} {core : Nat} (hu : isFw core = false) (m tepc : Nat) {t : Trap} (ht : t.async = false) :
    let k := (s.exception core m tepc t).core core
    k.run = .trapped ∧ k.csrNow 0x050 = BitVec.ofNat 64 t.cause.code ∧ k.csrNow 0x051 = BitVec.ofNat 64 (tepc % 16384) ∧
      k.csrNow 0x052 = t.tval := by
  let k := (s.core core).enterTrap m tepc t.cause.code t.tval t.slot
  have taken : (s.exception core m tepc t).core core =
      { k with
        pc := if k.slips.isEmpty then tepc % 16384 else k.pc
        run := .trapped
        fetched := none
        haltCycle := s.cycle + (m - k.bn)
        starts := false } := by
    simp only [State.exception, hu, ht, Bool.false_eq_true, if_false, Nat.add_zero]
    split <;> exact State.core_setCore ..
  rw [taken]
  exact ⟨rfl, (s.core core).csrNow_enterTrap m tepc t.cause.code t.tval t.slot⟩

/-! ### BUNDLE_FETCH (R44, R95) -/

theorem exec_bundleFetch {s : State} {core : Nat} (hr : (s.core core).run = .running) (hf : (s.core core).fetched = none)
    (hc : (s.core core).closing = none) (he : (s.core core).ending = none) : exec (.bundleFetch core) s = .next (s.fetchBundle core) :=
  if_pos ⟨hr, hf, he, hc⟩

theorem State.fetchBundle_of_ok {s : State} {core : Nat} {b : Bundle}
    (h : decodeBundle (s.core core).fetch (s.core core).pc (isFw core) = .ok b) :
    s.fetchBundle core = s.setCore core { s.core core with fetched := some b } := by
  simp only [State.fetchBundle, h]

theorem State.fetchBundle_of_error {s : State} {core : Nat} {d : Defect}
    (h : decodeBundle (s.core core).fetch (s.core core).pc (isFw core) = .error d) :
    s.fetchBundle core = if (s.core core).slips.isEmpty then s.exception core (s.core core).bn (s.core core).pc (defectTrap d)
      else s.setCore core { s.core core with hold := .slip } := by
  simp only [State.fetchBundle, h]
  rfl

/-- A bundle that breaks a rule traps precisely. -/
theorem defectTrap_async (d : Defect) : (defectTrap d).async = false := by cases d <;> rfl

/-! ### WATCHDOG (R28) -/

theorem exec_watchdog_waits {s : State} {core : Nat}
    (h : ((s.core core).csrNow 0x068).toNat = 0 ∨ (s.core core).wdogCount < ((s.core core).csrNow 0x068).toNat) :
    exec (.watchdog core) s = .next s := by
  refine if_pos ?_
  obtain h | h := h
  · simp [h]
  · simp [h]

theorem exec_watchdog_traps {s : State} {core : Nat} (hu : isFw core = false) (hb : (s.core core).busy = true)
    (h0 : ((s.core core).csrNow 0x068).toNat ≠ 0) (hc : ((s.core core).csrNow 0x068).toNat ≤ (s.core core).wdogCount)
    (hs : (s.core core).wdogSeen < ((s.core core).csrNow 0x068).toNat) :
    exec (.watchdog core) s = .next ((s.modCore core fun k => { k with wdogSeen := k.wdogCount }).exception core (s.core core).bn
      (s.core core).stopPc
      { cause := .watchdog, tval := BitVec.ofNat 64 ((s.core core).csrNow 0x068).toNat, slot := 15, async := false }) := by
  refine if_neg ?_
  simp [hu, hb, h0, hc, hs]

/-! ### STEP_STALE (R220) -/

/-- No class is behind bundle `n` exactly when `n` is no later than what each blocked class has still to dispatch. -/
theorem Core.le_oldest {k : Core} {n m : Nat} : n ≤ k.oldest m ↔ n ≤ m ∧ ∀ y ∈ k.slips, n ≤ y.cur.bn := by
  unfold Core.oldest
  induction k.slips generalizing m with
  | nil => simp
  | cons x xs ih =>
    simp only [List.foldl_cons, ih, List.forall_mem_cons, ← and_assoc]
    exact and_congr_left' Nat.le_min

/-- The stale read that traps when no class is behind: the one that holds the next bundle, at its limit. -/
theorem Core.staleTrap_of_hold {k : Core} {slot step limit : Nat} (hs : k.slips = []) (hh : k.hold = .staleBy slot step limit) :
    k.staleTrap = if limit ≤ k.holdCount then some (k.bn, k.pc, slot, step) else none := by
  simp [Core.staleTrap, hs, hh, Core.oldest]

/-- The stale read that traps where the M class is behind: the one it has next, at its limit, once every class has reached it. -/
theorem Core.staleTrap_of_slip {k : Core} {x : Slip} {slot step limit : Nat} (hx : k.slips.find? (fun x => x.cls == .m) = some x)
    (hw : x.why = .staleBy slot step limit) :
    k.staleTrap = if limit ≤ k.holdCount ∧ ∀ y ∈ k.slips, x.cur.bn ≤ y.cur.bn then some (x.cur.bn, x.cur.pc, slot, step) else none := by
  simp [Core.staleTrap, hx, hw, Core.le_oldest]

theorem exec_stepStale_none {s : State} {core : Nat} (h : (s.core core).staleTrap = none) : exec (.stepStale core) s = .next s := by
  show execStepStale core s = _
  simp only [execStepStale, h]

/-- The trap of a stale grid read. -/
theorem exec_stepStale_traps {s : State} {core bn pc slot step : Nat} (hu : isFw core = false) (hr : (s.core core).run = .running)
    (h : (s.core core).staleTrap = some (bn, pc, slot, step)) :
    ∃ t, exec (.stepStale core) s = .next t ∧ (t.core core).run = .trapped ∧ (t.core core).csrNow 0x050 = 0x0D ∧
      (t.core core).csrNow 0x051 = BitVec.ofNat 64 (pc % 16384) ∧ (t.core core).csrNow 0x052 = BitVec.ofNat 64 step := by
  refine ⟨_, ?_, State.core_exception (s := s) hu bn pc (t := { cause := .stepStale, tval := BitVec.ofNat 64 step, slot := slot, async := false }) rfl⟩
  show execStepStale core s = _
  simp only [execStepStale, h, hr, if_true]

/-! ### STUCK_CORE (R225, R226) -/

/-- A core whose queue has taken 16 entries of the spill pool. -/
def Core.extended (k : Core) (q : Nat) : Core :=
  { k.count 14 1 with extensions := kput k.extensions q (kget 0 k.extensions q + 16) }

section Stuck

variable {s : State} {core q : Nat} (hu : isFw core = false) (hb : (s.core core).busy = true) (hi : 64 ≤ (s.core core).idle)
  (hq : (s.core core).smallestFull = some q)
include hu hb hi hq

/-- The smallest full queue of a stuck core takes 16 entries of the spill pool. -/
theorem exec_stuckCore_extends (h : kget 0 s.spill (clusterOf core) + 16 ≤ 1024) : ∃ t, exec (.stuckCore core) s = .next t ∧
    kget 0 (t.core core).extensions q = kget 0 (s.core core).extensions q + 16 ∧
    kget 0 t.spill (clusterOf core) = kget 0 s.spill (clusterOf core) + 16 ∧ (t.core core).run = (s.core core).run := by
  let rested := s.modCore core fun k => { k with idle := 0 }
  let grown : State :=
    { rested.modCore core fun k => k.extended q with spill := kput s.spill (clusterOf core) (kget 0 s.spill (clusterOf core) + 16) }
  have stands : grown.core core = ({ s.core core with idle := 0 } : Core).extended q := by
    show (rested.modCore core fun k => k.extended q).core core = _
    rw [State.core_modCore, State.core_modCore]
  refine ⟨grown, ?_, by rw [stands]; exact kget_kput_same .., kget_kput_same .., by rw [stands]; rfl⟩
  show execStuckCore core s = _
  simp only [execStuckCore, hu, hb, Bool.not_true, Bool.or_self, Bool.false_or, decide_eq_true_eq, Nat.not_lt.mpr hi, if_false, hq,
    Nat.not_lt.mpr h]
  rfl

/-- A stuck core whose cluster has no room left traps where the class of its full queue waits. -/
theorem exec_stuckCore_traps (h : 1024 < kget 0 s.spill (clusterOf core) + 16) : ∃ t, exec (.stuckCore core) s = .next t ∧
    (t.core core).run = .trapped ∧ (t.core core).csrNow 0x050 = 0x11 ∧
    (t.core core).csrNow 0x051 = BitVec.ofNat 64 ((s.core core).lagsAt (if q = 1 then .x else .a) % 16384) ∧
    (t.core core).csrNow 0x052 = BitVec.ofNat 64 q := by
  refine ⟨_, ?_, State.core_exception (s := s.modCore core fun k => { k with idle := 0 }) hu (s.core core).bn
    ((s.core core).lagsAt (if q = 1 then .x else .a))
    (t := { cause := .queueExhausted, tval := BitVec.ofNat 64 q, slot := if q = 1 then 8 else 9, async := false }) rfl⟩
  show execStuckCore core s = _
  simp only [execStuckCore, hu, hb, Bool.not_true, Bool.or_self, Bool.false_or, decide_eq_true_eq, Nat.not_lt.mpr hi, if_false, hq, h, if_true]

end Stuck

/-! ### LTIME_ADVANCE (R202) -/

/-- The cores after one change of each of some different cores. -/
theorem State.core_foldl_modCore (f : Core → Core) {xs : List Nat} (hx : xs.Nodup) (s : State) (i : Nat) :
    (xs.foldl (fun s i => s.modCore i f) s).core i = if i ∈ xs then f (s.core i) else s.core i := by
  induction xs generalizing s with
  | nil => rfl
  | cons x xs ih =>
    obtain ⟨hn, hx⟩ := List.nodup_cons.mp hx
    rw [List.foldl_cons, ih hx]
    by_cases hi : i = x
    · subst hi
      rw [if_neg hn, if_pos List.mem_cons_self, State.core_modCore]
    · rw [State.core_modCore_other _ _ hi]
      simp only [List.mem_cons, hi, false_or]

theorem mem_allCores {i : Nat} : i ∈ allCores ↔ i < 2048 ∨ (0xF000 ≤ i ∧ i < 0xF008) := by
  simp only [allCores, List.mem_append, List.mem_range, List.mem_map]
  refine or_congr_right ⟨fun ⟨c, hc, hi⟩ => by omega, fun h => ⟨i - 0xF000, by omega, by omega⟩⟩

theorem allCores_nodup : allCores.Nodup := by
  refine List.Nodup.append List.nodup_range (List.nodup_range.map fun a b h => Nat.add_left_cancel h) fun i h g => ?_
  obtain ⟨c, -, hc⟩ := List.mem_map.mp g
  have := List.mem_range.mp h
  omega

/-- A raised clock. -/
theorem Core.ltime_raise (k : Core) (t : Nat) : (k.raise t).ltime = Nat.max k.ltime t % 2 ^ 64 := by
  simp only [Core.ltime, Core.raise, kget_kset, if_true, BitVec.toNat_ofNat]

/-- Settles O46: bundle fetch, the watchdog, stale reads, stuck cores and the clocks. -/
theorem coreEvents : Obligations.CoreEvents := by
  unfold Obligations.CoreEvents
  refine ⟨fun s core hr hf hc he => ?_, fun s core hu hb => ?_, fun s core slot step limit hh hu hr hs => ?_,
    fun s core slot step limit x hx hw hu hr => ?_, fun s core q hu hb hi hq => ?_, fun s => ?_⟩
  case refine_1 =>
    rw [exec_bundleFetch hr hf hc he]
    refine ⟨fun b hd => by rw [State.fetchBundle_of_ok hd], fun d hd hs => ?_, fun d hd hs hu => ⟨_, rfl, ?_⟩⟩
    · rw [State.fetchBundle_of_error hd, if_neg (mt List.isEmpty_iff.mp hs)]
    · rw [State.fetchBundle_of_error hd, if_pos (List.isEmpty_iff.mpr hs)]
      obtain ⟨hrun, hcause, hpc, -⟩ := State.core_exception (s := s) hu (s.core core).bn (s.core core).pc (defectTrap_async d)
      exact ⟨hrun, hcause, hpc⟩
  case refine_2 =>
    refine ⟨exec_watchdog_waits, fun h0 hc hs => ⟨_, exec_watchdog_traps hu hb h0 hc hs, State.core_exception hu _ _ rfl⟩⟩
  case refine_3 =>
    have := Core.staleTrap_of_hold hs hh
    exact ⟨fun h => exec_stepStale_none (this.trans (if_neg (Nat.not_le.mpr h))), fun h => exec_stepStale_traps hu hr (this.trans (if_pos h))⟩
  case refine_4 =>
    have := Core.staleTrap_of_slip hx hw
    refine ⟨fun h => exec_stepStale_none (this.trans (if_neg fun ⟨hl, ho⟩ => ?_)),
      fun hl _ ho => exec_stepStale_traps hu hr (this.trans (if_pos ⟨hl, ho⟩))⟩
    obtain h | ⟨y, hy, h⟩ := h
    · omega
    · exact Nat.not_le.mpr h (ho y hy)
  case refine_5 =>
    refine ⟨exec_stuckCore_extends hu hb hi hq, fun h => ?_⟩
    obtain ⟨t, ht, hrun, hcause, hpc, hval⟩ := exec_stuckCore_traps hu hb hi hq h
    exact ⟨t, ht, hrun, hcause, hval, hpc⟩
  case refine_6 =>
    have advanced := State.core_foldl_modCore (fun k => k.raise (k.ltime + 1)) allCores_nodup s
    refine ⟨_, rfl, fun i hi => ?_, fun i => ?_, List.foldlRecOn _ _ (motive := fun t : State => t.ms = s.ms) rfl fun _ ht _ _ => ht⟩
    · rw [advanced, if_pos (mem_allCores.mpr hi), Core.ltime_raise]
      congr 1
      exact Nat.max_eq_right (Nat.le_succ _)
    · rw [advanced]
      split <;> rfl

end Sys2Proof.Machine
end

section
/-!
What an engine's write within one line leaves to read at its home (R187, R189, R203).
-/
namespace Sys2Proof.Machine

/-! ### Reads of several bytes -/

theorem window_eq_map {n a : Nat} {m : Memory} (hm : m.Pairwise fun x y => x.1 < y.1) (ha : ∀ e ∈ m, a ≤ e.1) :
    window n a m = (List.range n).map fun i => mget m (a + i) := by
  induction n generalizing a m with
  | zero => cases m <;> rfl
  | succ n ih =>
    rw [List.range_succ_eq_map, List.map_cons, List.map_map]
    have shift (m' : Memory) : (fun i => mget m' (a + 1 + i)) = (fun i => mget m' (a + i)) ∘ Nat.succ :=
      funext fun i => by simp only [Function.comp_apply]; congr 1; omega
    cases m with
    | nil => rw [window, ih .nil nofun, shift]; rfl
    | cons e m =>
      obtain ⟨k, b⟩ := e
      obtain ⟨hk, hp⟩ := List.pairwise_cons.mp hm
      by_cases h : k = a
      · subst h
        rw [window, if_pos rfl, ih hp hk, shift]
        refine congrArg₂ List.cons (if_pos rfl).symm (List.map_congr_left fun i _ => ?_)
        exact (if_neg (by omega)).symm
      · have above : ∀ e ∈ (k, b) :: m, a + 1 ≤ e.1 := fun e he => by
          have := ha e he
          obtain rfl | he := List.mem_cons.mp he
          · omega
          · have := hk e he
            have := ha (k, b) (.head _)
            omega
        rw [window, if_neg h, ih hm above, shift]
        refine congrArg (· :: _) (kget_of_absent 0 fun e he => ?_).symm
        have := above e he
        omega

/-- In a memory in canonical form a read gives its bytes one by one. -/
theorem mread_eq_map {m : Memory} (hm : m.Pairwise fun x y => x.1 < y.1) (a n : Nat) :
    mread m a n = (List.range n).map fun i => mget m (a + i) := by
  have from_a : ∀ e ∈ m.dropWhile fun e => e.1 < a, a ≤ e.1 := by
    induction m with
    | nil => nofun
    | cons e m ih =>
      obtain ⟨hk, hp⟩ := List.pairwise_cons.mp hm
      rw [List.dropWhile_cons]
      split
      · exact ih hp
      · next h =>
        have hle : a ≤ e.1 := by simpa using h
        rintro x (_ | ⟨_, hx⟩)
        · exact hle
        · exact hle.trans (hk x hx).le
  rw [mread, window_eq_map (hm.sublist (List.dropWhile_sublist _)) from_a]
  refine List.map_congr_left fun i _ => ?_
  conv_rhs => rw [mget, ← List.takeWhile_append_dropWhile (p := fun e : Nat × Byte => decide (e.1 < a)) (l := m)]
  refine (kget_append 0 _ _ _ fun e he => ?_).symm
  have : e.1 < a := by simpa using List.mem_takeWhile_imp he
  omega

/-- Bytes that were written read back, from any window that holds them. -/
theorem mread_mwrite_within {m : Memory} (hm : Memory.wf m) {a o n : Nat} {bs : List Byte} (h : o + bs.length ≤ n) :
    ((mread (mwrite m (a + o) bs) a n).drop o).take bs.length = bs := by
  rw [mread_eq_map (mwrite_wf m _ bs hm).1]
  refine List.ext_getElem (by simp; omega) fun i hi _ => ?_
  have hlt : i < bs.length := (List.length_take_le _ _).trans_lt' hi
  simp only [List.getElem_take, List.getElem_drop, List.getElem_map, List.getElem_range, ← Nat.add_assoc]
  exact mget_mwrite_in m (a + o) bs i hlt

/-! ### Lines of the near tier -/

theorem mem_kput {α : Type} {m : KMap α} {i : Nat} {v : α} {e : Nat × α} (h : e ∈ kput m i v) : e = (i, v) ∨ e ∈ m := by
  induction m with
  | nil => exact .inl (List.mem_singleton.mp h)
  | cons x m ih =>
    obtain ⟨k, w⟩ := x
    unfold kput at h
    split at h
    · exact List.mem_cons.mp h
    · split at h
      · exact (List.mem_cons.mp h).imp_right (.tail _)
      · obtain rfl | h := List.mem_cons.mp h
        · exact .inr (.head _)
        · exact (ih h).imp_right (.tail _)

theorem find?_kput {α : Type} (m : KMap α) (i : Nat) (v : α) : (kput m i v).find? (fun e => e.1 == i) = some (i, v) := by
  induction m with
  | nil => simp [kput]
  | cons x m ih =>
    obtain ⟨k, w⟩ := x
    unfold kput
    split
    · simp
    · split
      · simp
      · next hk => simp [Ne.symm hk, ih]

/-- The home's memory in canonical form: lines of the near tier have 64 bytes. -/
def MemSys.Tidy (ms : MemSys) : Prop := Memory.wf ms.mem ∧ ∀ e ∈ ms.lines, e.2.data.length = 64

theorem MemSys.Tidy.of_eq {ms ns : MemSys} (h : ms.Tidy) (hm : ns.mem = ms.mem) (hl : ns.lines = ms.lines) : ns.Tidy := by
  rw [MemSys.Tidy, hm, hl]
  exact h

theorem MemSys.Tidy.hold {ms : MemSys} (h : ms.Tidy) (l : Nat) : (ms.hold l).Tidy := by
  unfold MemSys.hold
  split
  · refine ⟨h.1, fun e he => ?_⟩
    obtain rfl | he := mem_kput he
    · simp [mread_eq_map h.1.1]
    · exact h.2 e he
  · exact h

theorem MemSys.Tidy.line_length {ms : MemSys} (h : ms.Tidy) (l : Nat) : (ms.line l).length = 64 := by
  unfold MemSys.line
  split
  · next e he => exact h.2 e (List.mem_of_find?_eq_some he)
  · simp [mread_eq_map h.1.1]

theorem MemSys.Tidy.engStores {ms : MemSys} (h : ms.Tidy) (floor : Nat) (ls : List Nat) : (ms.engStores floor ls).1.Tidy := by
  refine List.foldlRecOn _ _ (motive := fun x : MemSys × Nat => x.1.Tidy) h fun x hx l _ => ?_
  refine hx.of_eq ?_ ?_
  · simp only [MemSys.engStore, MemSys.setTime]; split <;> rfl
  · simp only [MemSys.engStore, MemSys.setTime]; split <;> rfl

/-- A line after a store within it: the stored bytes at their offset. -/
theorem MemSys.line_writeLine {ms : MemSys} (h : ms.Tidy) {p : Nat} {bs : List Byte} (hfit : p % 64 + bs.length ≤ 64) :
    (((ms.writeLine p bs).line (p / 64)).drop (p % 64)).take bs.length = bs := by
  unfold MemSys.writeLine
  simp only
  split
  · have := (h.hold (p / 64)).line_length (p / 64)
    simp only [MemSys.line, find?_kput, overlay] at this ⊢
    rw [List.append_assoc, List.drop_append_of_le_length (by simp; omega)]
    simp
  · next hn =>
    have absent : ms.lines.find? (fun e => e.1 == p / 64) = none := by
      have hold : ms.held (p / 64) = false := by
        by_contra hh
        have hh : ms.held (p / 64) = true := by simpa using hh
        simp [MemSys.hold, hh] at hn
      simpa [MemSys.held] using hold
    simp only [MemSys.line, absent]
    have := mread_mwrite_within h.1 (a := p / 64 * 64) (o := p % 64) hfit
    rwa [Nat.div_add_mod' p 64] at this

/-- A store within one line is one store of the line. -/
theorem MemSys.write_within (ms : MemSys) {p : Nat} {bs : List Byte} (h0 : bs ≠ []) (hfit : p % 64 + bs.length ≤ 64) :
    ms.write p bs = (ms.writeLine p bs).renew p bs.length := by
  have rest (n q : Nat) (ns : MemSys) : ns.writeLines n q [] = ns := by cases n <;> rfl
  rw [MemSys.write, MemSys.writeLines, if_neg (by simpa using h0)]
  simp only [List.take_of_length_le (show bs.length ≤ 64 - p % 64 by omega), List.drop_of_length_le (show bs.length ≤ 64 - p % 64 by omega), rest]

/-- What was stored within one line reads back. -/
theorem MemSys.read_write {ms : MemSys} (h : ms.Tidy) {p : Nat} {bs : List Byte} (h0 : bs ≠ []) (hfit : p % 64 + bs.length ≤ 64) :
    (ms.write p bs).read p bs.length = bs := by
  have one : (p % 64 + bs.length + 63) / 64 = 1 := by
    have := List.length_pos_iff.mpr h0
    omega
  rw [MemSys.write_within ms h0 hfit, MemSys.read, one]
  simp only [List.range_one, List.flatMap_singleton, Nat.add_zero]
  exact MemSys.line_writeLine h hfit

/-- An engine's store within one line of the home's memory reads back. -/
theorem State.read_engWrite {s : State} (h : s.ms.Tidy) (floor : Nat) {a : Nat} {bs : List Byte} (h0 : bs ≠ []) (hfit : a % 64 + bs.length ≤ 64)
    (hc : isControl a = false) : (s.engWrite floor (.phys a) bs).1.ms.read a bs.length = bs := by
  have held (ls : List Nat) : (ls.foldl MemSys.hold s.ms).Tidy :=
    List.foldlRecOn _ _ (motive := MemSys.Tidy) h fun _ hm l _ => hm.hold l
  simp only [State.engWrite, List.isEmpty_iff, h0, hc, if_false, Bool.false_eq_true]
  split
  · exact MemSys.read_write ((held _).engStores ..) h0 hfit
  · exact MemSys.read_write (h.engStores ..) h0 hfit

end Sys2Proof.Machine
end

section
/-!
The completion of an engine operation: its registers, its token and its entry (R26, R207, R304, R307, R324).
-/
namespace Sys2Proof.Machine

open Sys2Proof.Claims

/-! ### A fence at its completion (R207) -/

/-- Whether a started operation is a fence. -/
def Started.fences (x : Started) : Bool := match x.e.op with | .fence .. => true | _ => false

/-- What its completion makes of the outcome of an operation: a fence's carries the clock. -/
def Started.outcomeAt (x : Started) (k : Core) (o : Outcome) : Outcome :=
  if x.fences = true ∧ x.orphan = none then { o with t := Nat.max k.ltime o.t % 2 ^ 64 } else o

/-- The completion of a fence raises the clock and may empty the load buffer. -/
theorem State.endFence_of_fence {s : State} {x : Started} {scope : Scope} {tw : TokenWord} (core : Nat) (o : Outcome)
    (hf : x.e.op = .fence scope tw) (ho : x.orphan = none) : s.endFence core x o =
      (s.modCore core fun k => { k.raise o.t with loadBuf := if scopeEmpties scope then [] else k.loadBuf }, x.outcomeAt (s.core core) o) := by
  have clock : ((s.modCore core fun k => { k.raise o.t with loadBuf := if scopeEmpties scope then [] else k.loadBuf }).core core).ltime =
      Nat.max (s.core core).ltime o.t % 2 ^ 64 := by
    rw [State.core_modCore]
    exact Core.ltime_raise ..
  simp only [State.endFence, hf, ho, clock, Started.outcomeAt, Started.fences, and_self, if_true]

theorem State.endFence_of_not {s : State} {x : Started} (core : Nat) (o : Outcome) (h : ¬(x.fences = true ∧ x.orphan = none)) :
    s.endFence core x o = (s, x.outcomeAt (s.core core) o) := by
  rw [Started.outcomeAt, if_neg h]
  unfold State.endFence
  split
  · next hf ho => exact absurd ⟨by simp [Started.fences, hf], ho⟩ h
  · rfl

/-- A core at the completion of an operation: a fence may have raised its clock and emptied its load buffer. -/
theorem State.endFence_frame (s : State) (core : Nat) (x : Started) (o : Outcome) :
    ∃ t, s.endFence core x o = (t, x.outcomeAt (s.core core) o) ∧ t = { s with cores := t.cores } ∧
      ∃ csr lb, t.core core = { s.core core with csr := csr, loadBuf := lb } ∧ kget 0 csr 0x003 = kget 0 (s.core core).csr 0x003 := by
  by_cases h : x.fences = true ∧ x.orphan = none
  · obtain ⟨hf, ho⟩ := h
    cases hop : x.e.op with
    | fence scope tw =>
      refine ⟨_, State.endFence_of_fence core o hop ho, rfl, _, _, State.core_modCore .., ?_⟩
      exact (kget_kset ..).trans (if_neg (by decide))
    | _ => simp [Started.fences, hop] at hf
  · exact ⟨s, State.endFence_of_not core o h, rfl, _, _, rfl, rfl⟩

/-! ### Registers and token (R304, R307, R324) -/

/-- The end of an engine's register write changes only the held writes of its core. -/
theorem State.land_frame (s : State) (core : Nat) (cls : Class) (n : Nat) (tok : Option Nat) (w : WriteTo) :
    s.land core cls n tok w = { s with cores := (s.land core cls n tok w).cores } := by
  unfold State.land
  split <;> rfl

/-- The registers of a finished operation. -/
def State.landRegs (s : State) (core : Nat) (x : Started) (o : Outcome) : State :=
  o.regs.foldl (fun s r => s.land core .a x.e.bundle (tokOf x.e.prod) (.scalar r.1 r.2 false)) s

theorem State.landRegs_frame (s : State) (core : Nat) (x : Started) (o : Outcome) :
    s.landRegs core x o = { s with cores := (s.landRegs core x o).cores } ∧
      ∃ ws, (s.landRegs core x o).core core = { s.core core with writes := ws } := by
  refine List.foldlRecOn _ _ (motive := fun t : State => t = { s with cores := t.cores } ∧ ∃ ws, t.core core = { s.core core with writes := ws })
    ⟨rfl, _, rfl⟩ fun t ⟨ht, ws, hws⟩ r _ => ⟨?_, ?_⟩
  · rw [State.land_frame, ht]
  · obtain ⟨ws', h⟩ := t.core_land core .a x.e.bundle (tokOf x.e.prod) (.scalar r.1 r.2 false)
    exact ⟨ws', by rw [h, hws]⟩

/-- A write that enters the order of held writes is in it. -/
theorem mem_insertHeld_self (order : HeldWrite → Landing) (w : HeldWrite) (es : List HeldWrite) : w ∈ insertHeld order w es := by
  simp [insertHeld]

theorem mem_of_mem_insertHeld {order : HeldWrite → Landing} {w e : HeldWrite} {es : List HeldWrite} (h : e ∈ insertHeld order w es) :
    e = w ∨ e ∈ es := by
  have tail {e : HeldWrite} (h : e ∈ (es.reverse.takeWhile fun e => order e != .precedes).reverse) : e ∈ es :=
    List.mem_reverse.mp ((List.takeWhile_sublist _).subset (List.mem_reverse.mp h))
  simp only [insertHeld, List.mem_append, List.mem_cons] at h
  obtain (h | h) | h | h | h := h
  · exact .inr (List.mem_of_mem_take (List.mem_filter.mp h).1)
  · exact .inr (tail ((List.takeWhile_sublist _).subset h))
  · exact .inl h
  · exact .inr (List.mem_of_mem_take (List.mem_filter.mp h).1)
  · exact .inr (tail ((List.dropWhile_sublist _).subset h))

/-- What a reader of scalar register `v` takes a held write for, `x` before it. -/
def HeldWrite.scalarAfter (see : HeldWrite → Bool) (v : Nat) (x : SReg) (w : HeldWrite) : SReg :=
  match w.wr with
  | .scalar r u df => if r = v ∧ see w = true then ⟨u, df⟩ else x
  | _ => x

theorem Core.sread_eq_foldl (k : Core) (see : HeldWrite → Bool) {v : Nat} (hv : v ≠ 0) :
    k.sread see v = k.writes.foldl (HeldWrite.scalarAfter see v) (k.sbase v) := if_neg hv

theorem HeldWrite.scalarAfter_of_other {w : HeldWrite} {v : Nat} (h : writesScalar v w = false) (see : HeldWrite → Bool) (x : SReg) :
    w.scalarAfter see v x = x := by
  unfold HeldWrite.scalarAfter
  split
  · next r u df hr =>
    have : r ≠ v := by simpa [writesScalar, hr] using h
    exact if_neg fun g => this g.1
  · rfl

/-- A register reads the value of the one held write of it that the reader sees. -/
theorem Core.sread_of_only {k : Core} {see : HeldWrite → Bool} {v : Nat} {q : W64} {w : HeldWrite} (hv : v ≠ 0) (hw : w ∈ k.writes)
    (hwr : w.wr = .scalar v q false) (hsee : see w = true) (only : ∀ e ∈ k.writes, e = w ∨ writesScalar v e = false) :
    k.sread see v = ⟨q, false⟩ := by
  have own (x : SReg) : w.scalarAfter see v x = ⟨q, false⟩ := by simp [HeldWrite.scalarAfter, hwr, hsee]
  have ends (ws : List HeldWrite) (x : SReg) (hx : x = ⟨q, false⟩ ∨ w ∈ ws) (only : ∀ e ∈ ws, e = w ∨ writesScalar v e = false) :
      ws.foldl (HeldWrite.scalarAfter see v) x = ⟨q, false⟩ := by
    induction ws generalizing x with
    | nil => exact hx.resolve_right nofun
    | cons e ws ih =>
      refine ih _ ?_ fun y hy => only y (.tail _ hy)
      obtain rfl | he := only e (.head _)
      · exact .inl (own x)
      · rw [HeldWrite.scalarAfter_of_other he]
        refine hx.imp_right fun h => (List.mem_cons.mp h).resolve_left ?_
        rintro rfl
        simp [writesScalar, hwr] at he
  rw [k.sread_eq_foldl see hv]
  exact ends k.writes _ (.inr hw) only

theorem State.core_saveToken (s : State) (core n : Nat) (t : Token) : (s.saveToken core n t).core core = s.core core := by
  unfold State.saveToken
  split
  · split <;> rfl
  · rfl

theorem State.retire_zero (s : State) (core gen : Nat) (o : Outcome) : s.retire core 0 gen o = s := rfl

/-- A generation that leaves pending changes of its core the token, where it is still of that generation, and what waits for it. -/
theorem State.core_retire (s : State) (core gen : Nat) (o : Outcome) {n : Nat} (hn : n ≠ 0) :
    ∃ qs mx slips, (s.retire core n gen o).core core =
      { s.core core with
        tokens := if (kget Token.init (s.core core).tokens n).gen = gen then
            kput (s.core core).tokens n { state := o.st, cause := o.cause, gen := gen, bytes := o.bytes, t := o.t, cycle := s.cycle }
          else (s.core core).tokens
        queues := qs, mx := mx, slips := slips } := by
  have stands := State.core_modCore (s.saveToken core n { state := o.st, cause := o.cause, gen := gen, bytes := o.bytes, t := o.t, cycle := s.cycle })
    core
  rw [State.core_saveToken] at stands
  rw [State.retire, if_neg hn]
  exact ⟨_, _, _, stands _⟩

theorem State.retire_ms_of_unsaved {s : State} {core : Nat} (h : (s.core core).isSaved = false) (n gen : Nat) (o : Outcome) :
    (s.retire core n gen o).ms = s.ms := by
  unfold State.retire
  split
  · rfl
  · simp [State.saveToken, h]

/-- The token of a saved task is written to the saved token table too. -/
theorem State.retire_ms_of_saved {s : State} {core n gen base : Nat} (h : (s.core core).isSaved = true) (hb : s.saveBase core = some base)
    (hn : n ≠ 0) (hg : (kget Token.init (s.core core).tokens n).gen = gen) (o : Outcome) :
    (s.retire core n gen o).ms = { s.ms with mem := (mwrite s.ms.mem (base + 0x70800 + 16 * n)
      (leBytes 1 o.st.status ++ leBytes 1 o.cause ++ leBytes 2 gen ++ leBytes 4 o.bytes ++ leBytes 8 o.t)) } := by
  simp only [State.retire, hn, if_false, State.modCore_ms, State.saveToken, h, hg, beq_self_eq_true, Bool.and_self, if_true, hb, Token.save]

/-! ### The completion of an operation -/

/-- A core whose operation `id` leaves. -/
def Core.leaves (k : Core) (id : Nat) : Core := { k with started := k.started.filter fun y => y.id ≠ id }

/-- Of an operation whose task was ended only the entry leaves (R26). -/
theorem State.complete_of_orphan {s : State} {x : Started} (h : x.orphan.isSome = true) (core : Nat) (o : Outcome) :
    s.complete core x o = s.modCore core fun k => k.leaves x.id := by
  have none : ¬(x.fences = true ∧ x.orphan = none) := fun g => by simp [g.2] at h
  simp only [State.complete, State.endFence_of_not core o none, h, if_true]
  rfl

/-- What the completion of a running task's operation leaves, but for the list of launches of its core. -/
theorem State.complete_of_task {s : State} {x : Started} (h : x.orphan = none) (core : Nat) (o : Outcome) :
    let o1 := x.outcomeAt (s.core core) o
    let u := ((((s.endFence core x o).1.modCore core fun k => k.leaves x.id).landRegs core x o1).retire core x.e.prod x.e.gen o1)
    (s.complete core x o).ms = u.ms ∧ (s.complete core x o).hub = u.hub ∧
      ∃ ls, (s.complete core x o).core core = { u.core core with launches := ls } := by
  obtain ⟨t, ht, -⟩ := s.endFence_frame core x o
  simp only [State.complete, ht, h, Option.isSome_none, Bool.false_eq_true, if_false]
  have noted (u : State) (a : List Instr) (f : Core → Core) (hf : ∀ k, ∃ ls, f k = { k with launches := ls }) :
      (State.modCore { u with agenda := a } core f).ms = u.ms ∧ (State.modCore { u with agenda := a } core f).hub = u.hub ∧
        ∃ ls, (State.modCore { u with agenda := a } core f).core core = { u.core core with launches := ls } :=
    ⟨rfl, rfl, by rw [State.core_modCore]; exact hf _⟩
  have note (serial : Nat) (lid : Option Nat) (k : Core) : ∃ ls, k.noteLaunch serial lid = { k with launches := ls } := by
    unfold Core.noteLaunch
    split <;> exact ⟨_, rfl⟩
  split
  · split
    · exact noted _ _ _ (note _ _)
    · exact noted _ _ _ (note _ _)
  · split
    · exact ⟨rfl, rfl, _, rfl⟩
    · exact ⟨rfl, rfl, _, rfl⟩

end Sys2Proof.Machine
end

section
/-!
Completion records, and the obligation on the completion of engine operations (R257, R258, R304, R307).
-/
namespace Sys2Proof.Machine

open Sys2Proof.Claims

/-! ### What a completed operation leaves (R26, R304, R307, R324) -/

theorem Started.fences_iff {x : Started} : x.fences = true ↔ ∃ scope tw, x.e.op = .fence scope tw := by
  unfold Started.fences
  split
  · next hop => exact ⟨fun _ => ⟨_, _, hop⟩, fun _ => rfl⟩
  · next hop => exact ⟨nofun, fun ⟨_, _, h⟩ => absurd h (hop _ _)⟩

section OutcomeAt

variable (x : Started) (k : Core) (o : Outcome)

@[simp] theorem Started.outcomeAt_st : (x.outcomeAt k o).st = o.st := by unfold Started.outcomeAt; split <;> rfl
@[simp] theorem Started.outcomeAt_cause : (x.outcomeAt k o).cause = o.cause := by unfold Started.outcomeAt; split <;> rfl
@[simp] theorem Started.outcomeAt_bytes : (x.outcomeAt k o).bytes = o.bytes := by unfold Started.outcomeAt; split <;> rfl
@[simp] theorem Started.outcomeAt_regs : (x.outcomeAt k o).regs = o.regs := by unfold Started.outcomeAt; split <;> rfl

theorem Started.outcomeAt_with_t (u : Nat) : { x.outcomeAt k o with t := u } = { o with t := u } := by
  unfold Started.outcomeAt; split <;> rfl

end OutcomeAt

/-- The state in which the token of a finished operation leaves: its entry is gone, and its registers have their values. -/
def State.released (s : State) (core : Nat) (x : Started) (o : Outcome) : State :=
  ((s.endFence core x o).1.modCore core fun k => k.leaves x.id).landRegs core x (x.outcomeAt (s.core core) o)

theorem State.released_frame (s : State) (core : Nat) (x : Started) (o : Outcome) :
    s.released core x o = { s with cores := (s.released core x o).cores } ∧
      ∃ csr lb ws, (s.endFence core x o).1.core core = { s.core core with csr := csr, loadBuf := lb } ∧
        (s.released core x o).core core = { (s.core core).leaves x.id with csr := csr, loadBuf := lb, writes := ws } := by
  obtain ⟨t, ht, hframe, csr, lb, hcore, -⟩ := s.endFence_frame core x o
  obtain ⟨hland, ws, hws⟩ := (t.modCore core fun k => k.leaves x.id).landRegs_frame core x (x.outcomeAt (s.core core) o)
  rw [State.core_modCore, hcore] at hws
  simp only [State.released, ht]
  refine ⟨hland.trans ?_, csr, lb, ws, hcore, hws⟩
  rw [hframe]
  rfl

theorem State.complete_hub (s : State) (core : Nat) (x : Started) (o : Outcome) : (s.complete core x o).hub = s.hub := by
  cases h : x.orphan with
  | some c =>
    rw [State.complete_of_orphan (by simp [h])]
    rfl
  | none =>
    obtain ⟨hframe, -⟩ := s.released_frame core x o
    exact (State.complete_of_task h core o).2.1.trans ((State.retire_hub ..).trans (congrArg State.hub hframe :))

theorem State.complete_ms_of_unsaved {s : State} {core : Nat} (hs : (s.core core).isSaved = false) (x : Started) (o : Outcome) :
    (s.complete core x o).ms = s.ms := by
  cases h : x.orphan with
  | some c =>
    rw [State.complete_of_orphan (by simp [h])]
    rfl
  | none =>
    obtain ⟨hframe, csr, lb, ws, -, hcore⟩ := s.released_frame core x o
    have unsaved : ((s.released core x o).core core).isSaved = false := by rw [hcore]; exact hs
    exact (State.complete_of_task h core o).1.trans ((State.retire_ms_of_unsaved unsaved ..).trans (congrArg State.ms hframe :))

theorem State.complete_ms_of_saved {s : State} {core base : Nat} {x : Started} (hs : (s.core core).isSaved = true)
    (hb : s.saveBase core = some base) (h : x.orphan = none) (hn : x.e.prod ≠ 0)
    (hg : (kget Token.init (s.core core).tokens x.e.prod).gen = x.e.gen) (o : Outcome) :
    (s.complete core x o).ms = { s.ms with mem := (mwrite s.ms.mem (base + 0x70800 + 16 * x.e.prod)
      (leBytes 1 o.st.status ++ leBytes 1 o.cause ++ leBytes 2 x.e.gen ++ leBytes 4 o.bytes ++
        leBytes 8 (x.outcomeAt (s.core core) o).t)) } := by
  obtain ⟨hframe, csr, lb, ws, -, hcore⟩ := s.released_frame core x o
  have saved : ((s.released core x o).core core).isSaved = true := by rw [hcore]; exact hs
  have gen : (kget Token.init ((s.released core x o).core core).tokens x.e.prod).gen = x.e.gen := by rw [hcore]; exact hg
  have area : (s.released core x o).saveBase core = some base := by rw [hframe]; exact hb
  have ms : (s.released core x o).ms = s.ms := (congrArg State.ms hframe :)
  refine (State.complete_of_task h core o).1.trans ((State.retire_ms_of_saved saved area hn gen _).trans ?_)
  rw [ms, Started.outcomeAt_st, Started.outcomeAt_cause, Started.outcomeAt_bytes]

/-- Where the core stands whose operation has completed. -/
theorem State.core_complete {x : Started} (s : State) (core : Nat) (o : Outcome) (h : x.orphan = none) :
    ∃ csr lb ws qs mx slips ls, (s.endFence core x o).1.core core = { s.core core with csr := csr, loadBuf := lb } ∧
      ((s.released core x o).core core).writes = ws ∧ (s.complete core x o).core core =
        { (s.core core).leaves x.id with
          csr := csr, loadBuf := lb, writes := ws, queues := qs, mx := mx, slips := slips, launches := ls
          tokens := if x.e.prod ≠ 0 ∧ (kget Token.init (s.core core).tokens x.e.prod).gen = x.e.gen then
              kput (s.core core).tokens x.e.prod
                { state := o.st, cause := o.cause, gen := x.e.gen, bytes := o.bytes, t := (x.outcomeAt (s.core core) o).t, cycle := s.cycle }
            else (s.core core).tokens } := by
  obtain ⟨hframe, csr, lb, ws, hfence, hcore⟩ := s.released_frame core x o
  obtain ⟨-, -, ls, hls⟩ := State.complete_of_task h core o
  by_cases hn : x.e.prod = 0
  · refine ⟨csr, lb, ws, (s.core core).queues, (s.core core).mx, (s.core core).slips, ls, hfence, congrArg Core.writes hcore, hls.trans ?_⟩
    show { ((s.released core x o).retire core x.e.prod x.e.gen _).core core with launches := ls } = _
    rw [hn, State.retire_zero, hcore, if_neg fun g => g.1 rfl]
    rfl
  · obtain ⟨qs, mx, slips, hretire⟩ := (s.released core x o).core_retire core x.e.gen (x.outcomeAt (s.core core) o) hn
    refine ⟨csr, lb, ws, qs, mx, slips, ls, hfence, congrArg Core.writes hcore, hls.trans ?_⟩
    show { ((s.released core x o).retire core x.e.prod x.e.gen _).core core with launches := ls } = _
    have cycle : (s.released core x o).cycle = s.cycle := (congrArg State.cycle hframe :)
    rw [hretire, hcore, cycle]
    simp only [Started.outcomeAt_st, Started.outcomeAt_cause, Started.outcomeAt_bytes, Core.leaves, ne_eq, hn, not_false_eq_true, true_and]

/-- The only register of a finished operation is written for the A class. -/
theorem State.writes_released {s : State} {core : Nat} {x : Started} {o : Outcome} {v : Nat} {q : W64} (hr : o.regs = [(v, q)]) (hv : v ≠ 0) :
    ∃ order w, ((s.released core x o).core core).writes = insertHeld order w (s.core core).writes ∧ w.cls = .a ∧ w.n = x.e.bundle ∧
      w.wr = .scalar v q false := by
  obtain ⟨t, ht, -, csr, lb, hcore, -⟩ := s.endFence_frame core x o
  have landed (u : State) (tok : Option Nat) (n : Nat) : ∃ order w, ((u.land core .a n tok (.scalar v q false)).core core).writes =
      insertHeld order w (u.core core).writes ∧ w.cls = .a ∧ w.n = n ∧ w.wr = .scalar v q false := by
    unfold State.land
    split
    · next h => cases h; exact absurd rfl hv
    · exact ⟨_, { cls := .a, n := n, lat := 0, sync := none, tok := tok, wr := .scalar v q false }, by rw [State.core_modCore], rfl, rfl, rfl⟩
  obtain ⟨order, w, hw, hkind⟩ := landed (t.modCore core fun k => k.leaves x.id) (tokOf x.e.prod) x.e.bundle
  rw [State.core_modCore, hcore] at hw
  refine ⟨order, w, ?_, hkind⟩
  simp only [State.released, ht, State.landRegs, Started.outcomeAt_regs, hr, List.foldl_cons, List.foldl_nil]
  exact hw

theorem exec_engineOperationComplete {s : State} {core idx : Nat} {x : Started} {o : Outcome} {r : Bool}
    (hx : (s.core core).started[idx]? = some x) (hst : x.stage = .finished o r) (hcr : x.e.cr = true → r = true) :
    exec (.engineOperationComplete core idx) s = .next (s.complete core x o) := by
  have written : (x.e.cr && !r) = false := by cases hc : x.e.cr <;> simp_all
  show execEngineOperationComplete core idx s = _
  simp only [execEngineOperationComplete, hx, hst, written, Bool.false_eq_true, if_false]

/-! ### COMPLETION_RECORD_WRITE (R207, R257, R258) -/

theorem leBytes_length (n x : Nat) : (leBytes n x).length = n := by
  induction n generalizing x with
  | zero => rfl
  | succ n ih => exact congrArg (· + 1) (ih _)

section Record

variable {s : State} {core idx : Nat} {x : Started} {o : Outcome} (hx : (s.core core).started[idx]? = some x)
  (hst : x.stage = .finished o false) (hcr : x.e.cr = true)
include hx hst hcr

/-- Of an operation whose ring nothing has set, or whose place there cannot be written, the record fails. -/
theorem exec_completionRecordWrite_of_invalid
    (hv : (kget Ring.unset s.hub.rings (ringIx (x.orphan.getD (s.core core).ctx) (colOf core) x.e.ring)).valid = false) :
    exec (.completionRecordWrite core idx) s = .next ((s.endFence core x o).1.setStage core x.id
      (.finished { x.outcomeAt (s.core core) o with st := .faulted, cause := Cause.record.code } true)) := by
  obtain ⟨t, ht, hframe, csr, lb, hcore, hctx⟩ := s.endFence_frame core x o
  have ctx : (t.core core).ctx = (s.core core).ctx := by rw [hcore]; exact congrArg BitVec.toNat hctx
  have hub : t.hub = s.hub := (congrArg State.hub hframe :)
  show execCompletionRecordWrite core idx s = _
  simp only [execCompletionRecordWrite, hx, hst, hcr, ht, ctx, hub, hv, Bool.not_true, Bool.false_eq_true, if_false, Bool.not_false, if_true]

theorem exec_completionRecordWrite_of_full
    (hv : (kget Ring.unset s.hub.rings (ringIx (x.orphan.getD (s.core core).ctx) (colOf core) x.e.ring)).valid = true)
    (hfull : let r := kget Ring.unset s.hub.rings (ringIx (x.orphan.getD (s.core core).ctx) (colOf core) x.e.ring)
      r.size ≤ r.tail - r.head) : exec (.completionRecordWrite core idx) s = .next s := by
  obtain ⟨t, ht, hframe, csr, lb, hcore, hctx⟩ := s.endFence_frame core x o
  have ctx : (t.core core).ctx = (s.core core).ctx := by rw [hcore]; exact congrArg BitVec.toNat hctx
  have hub : t.hub = s.hub := (congrArg State.hub hframe :)
  show execCompletionRecordWrite core idx s = _
  simp only [execCompletionRecordWrite, hx, hst, hcr, ht, ctx, hub, hv, Bool.not_true, Bool.false_eq_true, if_false]
  exact if_pos hfull

/-- A record that has a slot in its ring is written there with the time of its store; a fence completes with it. -/
theorem exec_completionRecordWrite_of_ok {p : Place}
    (hv : (kget Ring.unset s.hub.rings (ringIx (x.orphan.getD (s.core core).ctx) (colOf core) x.e.ring)).valid = true)
    (hroom : let r := kget Ring.unset s.hub.rings (ringIx (x.orphan.getD (s.core core).ctx) (colOf core) x.e.ring)
      r.tail - r.head < r.size)
    (hp : let r := kget Ring.unset s.hub.rings (ringIx (x.orphan.getD (s.core core).ctx) (colOf core) x.e.ring)
      hubPlace s (x.orphan.getD (s.core core).ctx) (colOf core) (r.base + BitVec.ofNat 64 (16 * (r.tail % r.size))) 16 .write = .ok p) :
    let ix := ringIx (x.orphan.getD (s.core core).ctx) (colOf core) x.e.ring
    let r := kget Ring.unset s.hub.rings ix
    ∃ (u : Nat) (w : State), w.core core = (s.endFence core x o).1.core core ∧ kget Ring.unset w.hub.rings ix = { r with tail := r.tail + 1 } ∧
      (∀ a, p = .phys a → isControl a = false → s.ms.Tidy → a % 64 + 16 ≤ 64 →
        w.ms.read a 16 = recordBytes x.e.prod { o with t := u }) ∧
      exec (.completionRecordWrite core idx) s = .next (if x.fences = true then w.complete core x { o with t := u }
        else w.setStage core x.id (.finished { o with t := u } true)) := by
  intro ix r
  obtain ⟨t, ht, hframe, csr, lb, hcore, hctx⟩ := s.endFence_frame core x o
  have ctx : (t.core core).ctx = (s.core core).ctx := by rw [hcore]; exact congrArg BitVec.toNat hctx
  have hub : t.hub = s.hub := (congrArg State.hub hframe :)
  have ms : t.ms = s.ms := (congrArg State.ms hframe :)
  have place : hubPlace t (x.orphan.getD (s.core core).ctx) (colOf core) (r.base + BitVec.ofNat 64 (16 * (r.tail % r.size))) 16 .write = .ok p := by
    rw [hframe]
    exact hp
  let o1 := x.outcomeAt (s.core core) o
  let u := (t.engWrite o1.t p (List.replicate 16 0)).2
  let stored := (t.hubStore (x.orphan.getD (s.core core).ctx) (r.base + BitVec.ofNat 64 (16 * (r.tail % r.size))) o1.t p
    (recordBytes x.e.prod { o1 with t := u })).1
  have cores := (t.hubStore_cores (x.orphan.getD (s.core core).ctx) (r.base + BitVec.ofNat 64 (16 * (r.tail % r.size))) o1.t
    (recordBytes x.e.prod { o1 with t := u }) (hubPlace_outside hp)).1
  have same : ({ o1 with t := u } : Outcome) = { o with t := u } := x.outcomeAt_with_t (s.core core) o u
  refine ⟨u, { stored with hub := { stored.hub with rings := kput stored.hub.rings ix { r with tail := r.tail + 1 } } }, ?_, kget_kput_same ..,
    fun a ha hc hm hfit => ?_, ?_⟩
  · rw [ht]
    show kget Core.init stored.cores core = _
    rw [cores]
    rfl
  · subst ha
    have length : (recordBytes x.e.prod { o1 with t := u }).length = 16 := by simp [recordBytes, leBytes_length]
    have read := State.read_engWrite (s := t) (by rw [ms]; exact hm) o1.t (a := a) (bs := recordBytes x.e.prod { o1 with t := u })
      (List.ne_nil_of_length_pos (by omega)) (by omega) hc
    have home : stored.ms = (t.engWrite o1.t (.phys a) (recordBytes x.e.prod { o1 with t := u })).1.ms := by
      simp only [stored, State.hubStore]
      split
      · exact State.replicate_ms ..
      · rfl
    show stored.ms.read a 16 = _
    rw [length, ← home] at read
    rw [← same]
    exact read
  · show execCompletionRecordWrite core idx s = _
    simp only [execCompletionRecordWrite, hx, hst, hcr, ht, ctx, hub, Bool.not_true, Bool.false_eq_true, if_false]
    rw [if_neg (by rw [hv]; nofun), if_neg (Nat.not_le.mpr hroom), ← same]
    simp only [r, ix] at place
    simp only [place]
    rfl

end Record

/-! ### The obligation -/

/-- ENGINE_OPERATION_COMPLETE of a finished operation (R26, R207, R304, R307, R324). -/
theorem State.completes (s : State) (core : Nat) (x : Started) (o : Outcome) :
    let t := s.complete core x o
    let time := (x.outcomeAt (s.core core) o).t
    (∀ y ∈ (t.core core).started, y.id ≠ x.id) ∧
      (∀ scope tw, x.orphan = none → x.e.op = .fence scope tw → (t.core core).ltime = time ∧
        (t.core core).loadBuf = if scopeEmpties scope = true then [] else (s.core core).loadBuf) ∧
      (x.orphan.isSome = true → (t.core core).tokens = (s.core core).tokens ∧ (t.core core).writes = (s.core core).writes) ∧
      (∀ v q, x.orphan = none → o.regs = [(v, q)] → v ≠ 0 → (∀ w ∈ (s.core core).writes, writesScalar v w = false) →
        ∀ see : HeldWrite → Bool, (∀ w, w.cls = .a → w.n = x.e.bundle → w.wr = .scalar v q false → see w = true) →
          (t.core core).sread see v = { val := q, df := false }) ∧
      (x.orphan = none → (t.core core).tokens = if x.e.prod ≠ 0 ∧ (kget Token.init (s.core core).tokens x.e.prod).gen = x.e.gen then
          kput (s.core core).tokens x.e.prod
            { state := o.st, cause := o.cause, gen := x.e.gen, bytes := o.bytes, t := time, cycle := s.cycle }
        else (s.core core).tokens) := by
  intro t time
  have left (k : Core) : ∀ y ∈ (k.leaves x.id).started, y.id ≠ x.id := fun y hy => by simpa using (List.mem_filter.mp hy).2
  cases h : x.orphan with
  | some c =>
    have hcore : t.core core = (s.core core).leaves x.id := by
      simp only [t]
      rw [State.complete_of_orphan (by simp [h]), State.core_modCore]
    rw [hcore]
    exact ⟨left _, nofun, fun _ => ⟨rfl, rfl⟩, nofun, nofun⟩
  | none =>
    obtain ⟨csr, lb, ws, qs, mx, slips, ls, hfence, hws, hcore⟩ := s.core_complete core o h
    rw [show t.core core = _ from hcore]
    refine ⟨left _, fun scope tw _ hop => ?_, nofun, fun v q _ hr hv hno see hsee => ?_, fun _ => rfl⟩
    · rw [State.endFence_of_fence core o hop h, State.core_modCore] at hfence
      have clock : Core.ltime { s.core core with csr := csr, loadBuf := lb } = Nat.max (s.core core).ltime o.t % 2 ^ 64 :=
        (congrArg Core.ltime hfence).symm.trans (Core.ltime_raise ..)
      refine ⟨clock.trans ?_, (congrArg Core.loadBuf hfence).symm⟩
      simp only [time]
      rw [Started.outcomeAt, if_pos ⟨Started.fences_iff.mpr ⟨scope, tw, hop⟩, h⟩]
    · obtain ⟨order, w, hins, hcls, hn, hwr⟩ := State.writes_released (s := s) (core := core) (x := x) hr hv
      refine Core.sread_of_only (w := w) hv ?_ hwr (hsee w hcls hn hwr) fun e he => ?_
      · show w ∈ ws
        rw [← hws, hins]
        exact mem_insertHeld_self ..
      · have he : e ∈ insertHeld order w (s.core core).writes := by rw [← hins, hws]; exact he
        exact (mem_of_mem_insertHeld he).imp_right (hno e)

/-- Settles O40: finished operations write their records and leave their tokens with their outcomes, and a fence acts at its completion. -/
theorem engineOperationsComplete : Obligations.EngineOperationsComplete := by
  unfold Obligations.EngineOperationsComplete
  refine ⟨fun s core idx x o r hx hst hcr => ?_, fun s core idx x o => ?_⟩
  · intro time
    have htime (h : x.orphan = none) : (x.outcomeAt (s.core core) o).t = time := by
      simp only [time]
      split
      · next hop => rw [Started.outcomeAt, if_pos ⟨Started.fences_iff.mpr ⟨_, _, hop⟩, h⟩]
      · next hop =>
        rw [Started.outcomeAt, if_neg fun g => ?_]
        obtain ⟨scope, tw, hf⟩ := Started.fences_iff.mp g.1
        exact hop scope tw hf
    obtain ⟨hleft, hfence, hended, hreg, htokens⟩ := s.completes core x o
    refine ⟨s.complete core x o, exec_engineOperationComplete hx hst hcr, hleft, fun hs => State.complete_ms_of_unsaved hs x o,
      fun base hs hb h hn hg => ?_, fun scope tw h hop => ?_, hended, hreg, fun h hn hg => ?_, fun h hn hg => ?_⟩
    · rw [State.complete_ms_of_saved hs hb h hn hg, htime h]
    · obtain ⟨hclock, hbuf⟩ := hfence scope tw h hop
      refine ⟨hclock.trans (htime h), hbuf.trans ?_⟩
      cases scope <;> rfl
    · rw [htokens h, if_pos ⟨hn, hg⟩, kget_kput_same, htime h]
    · rw [htokens h, if_neg fun g => hg g.2]
  · intro ctx ix ring fence o1 hx hst hcr
    refine ⟨fun hv => ?_, fun hv hfull => exec_completionRecordWrite_of_full hx hst hcr hv hfull, fun p hv hroom hp => ?_⟩
    · obtain ⟨t, ht, hframe, -⟩ := s.endFence_frame core x o
      refine ⟨_, exec_completionRecordWrite_of_invalid hx hst hcr hv, ?_, fun y hy hid => State.stage_of_mem_setStage hy hid⟩
      rw [ht]
      exact (congrArg State.ms hframe :)
    · obtain ⟨u, w, hcore, hring, hread, hexec⟩ := exec_completionRecordWrite_of_ok hx hst hcr hv hroom hp
      obtain ⟨t, ht, -, csr, lb, hfence, -⟩ := s.endFence_frame core x o
      rw [ht, hfence] at hcore
      have bytes (a : Nat) (ha : p = .phys a) (hc : isControl a = false) (hfit : a % 64 + 16 ≤ 64) (htidy : TidyMemory s core) :=
        hread a ha hc ⟨htidy.1, htidy.2.1⟩ hfit
      cases hf : x.fences with
      | false =>
        rw [hf, if_neg Bool.false_ne_true] at hexec
        exact ⟨_, u, hexec, hring, fun y hy hid => ⟨hf, State.stage_of_mem_setStage hy hid⟩, fun h => absurd (h.symm.trans hf) nofun,
          fun a _ => bytes a⟩
      | true =>
        rw [hf, if_pos rfl] at hexec
        obtain ⟨hleft, -, -, -, htokens⟩ := w.completes core x { o with t := u }
        refine ⟨_, u, hexec, (congrArg (fun hub => kget Ring.unset hub.rings ix) (State.complete_hub ..)).trans hring,
          fun y hy hid => absurd hid (hleft y hy), fun _ h hn hg => ?_, fun a hs ha hc hfit htidy => ?_⟩
        · rw [htokens h, hcore, if_pos ⟨hn, hg⟩, kget_kput_same]
        · have unsaved : (w.core core).isSaved = false := by
            rw [hcore]
            exact hs.resolve_left fun g => absurd (hf.symm.trans g) nofun
          rw [State.complete_ms_of_unsaved unsaved]
          exact bytes a ha hc hfit htidy

end Sys2Proof.Machine
end

section
/-!
The head of the matrix queue: what an engine's write holds, starts, and block scales (R174, R182 to R184).
-/
namespace Sys2Proof.Machine

/-! ### Held writes -/

theorem mem_insertHeld_of_mem {order : HeldWrite → Landing} {w e : HeldWrite} {es : List HeldWrite} (h : e ∈ es) :
    e ∈ insertHeld order w es := by
  let tail := (es.reverse.takeWhile fun e => order e != .precedes).reverse
  have whole : es.take (es.length - tail.length) ++ tail = es := by
    have suffix : tail <:+ es := by
      rw [← List.reverse_prefix, List.reverse_reverse]
      exact List.takeWhile_prefix _
    obtain ⟨head, hhead⟩ := suffix
    rw [← hhead]
    simp
  have hsplit := whole ▸ h
  simp only [insertHeld, List.mem_append, List.mem_cons]
  obtain hhead | htail := List.mem_append.mp hsplit
  · by_cases hf : order e = .follows
    · exact .inr (.inr (.inl (List.mem_filter.mpr ⟨hhead, by simp [hf]⟩)))
    · exact .inl (.inl (List.mem_filter.mpr ⟨hhead, by simpa using hf⟩))
  · rw [← List.takeWhile_append_dropWhile (p := fun e => order e == .before) (l := tail)] at htail
    obtain hearly | hlate := List.mem_append.mp htail
    · exact .inl (.inr hearly)
    · exact .inr (.inr (.inr hlate))

theorem State.mem_writes_land (s : State) (core : Nat) (cls : Class) (n : Nat) (tok : Option Nat) {w : WriteTo}
    (hw : ∀ r v df, w ≠ .scalar r v df) :
    { cls := cls, n := n, lat := 0, sync := none, tok := tok, wr := w } ∈ ((s.land core cls n tok w).core core).writes := by
  unfold State.land
  split
  · exact absurd rfl (hw _ _ _)
  · rw [State.core_modCore]
    exact mem_insertHeld_self ..

theorem State.mem_writes_land_of_mem {s : State} {core : Nat} {h : HeldWrite} (hh : h ∈ (s.core core).writes) (cls : Class) (n : Nat)
    (tok : Option Nat) (w : WriteTo) : h ∈ ((s.land core cls n tok w).core core).writes := by
  unfold State.land
  split
  · exact hh
  · rw [State.core_modCore]
    exact mem_insertHeld_of_mem hh

@[simp] theorem State.land_ms (s : State) (core : Nat) (cls : Class) (n : Nat) (tok : Option Nat) (w : WriteTo) :
    (s.land core cls n tok w).ms = s.ms := by
  rw [State.land_frame]

@[simp] theorem State.land_mx (s : State) (core : Nat) (cls : Class) (n : Nat) (tok : Option Nat) (w : WriteTo) :
    ((s.land core cls n tok w).core core).mx = (s.core core).mx := by
  obtain ⟨ws, h⟩ := s.core_land core cls n tok w
  rw [h]

/-! ### Leaving the head (R174) -/

theorem State.core_returnSpill (s : State) (core q : Nat) :
    (s.returnSpill core q).ms = s.ms ∧ ∃ ext, (s.returnSpill core q).core core = { s.core core with extensions := ext } := by
  simp only [State.returnSpill]
  split
  · exact ⟨rfl, _, State.core_setCore s core _⟩
  · exact ⟨rfl, _, rfl⟩

/-- An entry leaves the matrix queue: of the core that may also return an extension of the queue. -/
theorem State.core_dequeue_matrix (s : State) (core i : Nat) : (s.dequeue core 1 i).ms = s.ms ∧ ∃ ext, (s.dequeue core 1 i).core core =
    { s.core core with mx := { (s.core core).mx with queue := (s.core core).mx.queue.eraseIdx i }, extensions := ext } := by
  let u := s.modCore core fun k => k.setQueue 1 ((k.queue 1).eraseIdx i)
  obtain ⟨hms, ext, hcore⟩ := u.core_returnSpill core 1
  refine ⟨hms, ext, hcore.trans ?_⟩
  rw [State.core_modCore]
  rfl

/-- The head of the matrix queue leaves: the queue goes on with the next entry, and no memory changes. -/
theorem State.core_leaveHead {s : State} {core : Nat} {e : EngEntry} {es : List EngEntry} (h : (s.core core).mx.queue = e :: es) (q : Nat) :
    (s.leaveHead core q).ms = s.ms ∧ ∃ ext, (s.leaveHead core q).core core =
      { s.core core with mx := { (s.core core).mx with queue := es, headAt := q + 1 }, extensions := ext, idle := 0 } := by
  obtain ⟨hms, ext, hcore⟩ := s.core_dequeue_matrix core 0
  refine ⟨hms, ext, ?_⟩
  rw [State.leaveHead, State.core_modCore, hcore, h]
  rfl

section Start

variable {s : State} {core q : Nat} {e : EngEntry} {es : List EngEntry} (hq : (s.core core).mx.queue = e :: es)
  (hl : (s.core core).leaveCycle e = some q) (hc : q ≤ s.cycle) (he : (s.core core).engines = true)
include hq hl hc he

theorem exec_matrixOperationStart (hop : ∀ d sides, e.op ≠ .mps d sides) :
    exec (.matrixOperationStart core) s = .next (s.startMatrix core e q) := by
  show execMatrixOperationStart core s = _
  simp only [execMatrixOperationStart, hq, hl, he, hc, decide_true, Bool.and_self, if_true]

theorem exec_mpsLeaveHead {d : Fin 64} {sides : MpsSides} (hop : e.op = .mps d sides) :
    exec (.mpsLeaveHead core) s = .next (applyMps (s.leaveHead core q) core e sides q) := by
  show execMpsLeaveHead core s = _
  simp only [execMpsLeaveHead, hq, hl, hop, he, hc, decide_true, Bool.and_self, if_true]

end Start

section Leave

variable {s : State} {core : Nat} {e : EngEntry} {es : List EngEntry} (hq : (s.core core).mx.queue = e :: es) (q : Nat)
include hq

/-- The start of an operation that is not cancelled: its blocks join the started ones. -/
theorem State.startMatrix_blocks (hop : ∀ j a n, e.op ≠ .mscl j a n) (hn : e.cancelled = none) :
    (s.startMatrix core e q).ms = s.ms ∧ ((s.startMatrix core e q).core core).mx.queue = es ∧
      ((s.startMatrix core e q).core core).mx.blocks = (s.core core).mx.blocks ++ newBlocks s core e q ∧
      ((s.startMatrix core e q).core core).mx.freeAt = q + e.blocks.2 * e.blocks.1 := by
  obtain ⟨hms, ext, hcore⟩ := State.core_leaveHead hq q
  unfold State.startMatrix
  split
  · next h => exact absurd h (hop _ _ _)
  · simp only [hn, State.addStarted, State.modCore_ms, State.core_modCore, hcore, hms, Core.count, and_self]

/-- The start of an `mscl`: its two CSRs are written, and its side of the scale cache is empty (R182). -/
theorem State.startMatrix_mscl {j : Fin 4} {a : Reg} {n : Fin 64} (hop : e.op = .mscl j a n) :
    ((s.startMatrix core e q).core core).mx.queue = es ∧
      (if j.val = 0 then ((s.startMatrix core e q).core core).scale0 else ((s.startMatrix core e q).core core).scale1) = [] ∧
      ∀ w ∈ [(0x030 + 2 * j.val, e.vals.getD 0 0), (0x031 + 2 * j.val, BitVec.ofNat 64 n.val)],
        { cls := .x, n := e.bundle, lat := 0, sync := none, tok := none, wr := .csr w.1 w.2 } ∈
          ((s.startMatrix core e q).core core).writes := by
  obtain ⟨-, ext, hcore⟩ := State.core_leaveHead hq q
  let s2 := (s.leaveHead core q).land core .x e.bundle none (.csr (0x030 + 2 * j.val) (e.vals.getD 0 0))
  let s3 := s2.land core .x e.bundle none (.csr (0x031 + 2 * j.val) (BitVec.ofNat 64 n.val))
  have started : (s.startMatrix core e q).core core =
      if j.val = 0 then { s3.core core with scale0 := [] } else { s3.core core with scale1 := [] } := by
    simp only [State.startMatrix, hop, State.core_modCore, s3, s2]
  have queue : (s3.core core).mx.queue = es := by simp only [s3, s2, State.land_mx, hcore]
  have written : ∀ w ∈ [(0x030 + 2 * j.val, e.vals.getD 0 0), (0x031 + 2 * j.val, BitVec.ofNat 64 n.val)],
      { cls := .x, n := e.bundle, lat := 0, sync := none, tok := none, wr := .csr w.1 w.2 } ∈ (s3.core core).writes := by
    simp only [List.forall_mem_cons, List.not_mem_nil, false_implies, implies_true, and_true]
    have csr (n : Nat) (v : W64) : ∀ r x df, WriteTo.csr n v ≠ .scalar r x df := fun _ _ _ => WriteTo.noConfusion
    exact ⟨State.mem_writes_land_of_mem (State.mem_writes_land _ _ _ _ _ (csr _ _)) _ _ _ _, State.mem_writes_land _ _ _ _ _ (csr _ _)⟩
  rw [started]
  split
  · exact ⟨queue, rfl, written⟩
  · exact ⟨queue, rfl, written⟩

end Leave

/-! ### Block scales (R182 to R184) -/

theorem State.engReadAt_cores (s : State) (pts lease : Nat) (p : Place) (n : Nat) : (s.engReadAt pts lease p n).2.2.cores = s.cores := by
  cases p with
  | buf => rfl
  | far => rfl
  | phys a =>
    simp only [State.engReadAt]
    split <;> rfl

theorem scaleLine_cores {s t : State} {core : Nat} {byte line : W64} {bs : List Byte} (h : scaleLine s core byte line = some (bs, t)) :
    t.cores = s.cores := by
  unfold scaleLine at h
  split at h
  · split at h
    · split at h
      · cases h
      · cases h; rfl
    · cases h
      exact s.engReadAt_cores ..
    · cases h
  · cases h

/-- A look-up in the scale cache leaves the matrix engine as it is. -/
theorem scaleByte_mx {s t : State} {core side : Nat} {a : W64} {b : Byte} (h : scaleByte s core side a = some (b, t)) :
    (t.core core).mx = (s.core core).mx := by
  simp only [scaleByte] at h
  split at h
  · cases h; rfl
  · obtain ⟨⟨bs, u⟩, hu, ht⟩ := Option.map_eq_some_iff.mp h
    cases ht
    have same : u.core core = s.core core := congrArg (kget Core.init · core) (scaleLine_cores hu)
    rw [State.core_modCore, same]
    split <;> rfl

theorem scaleBytes_mx {core side : Nat} {as : List W64} {s t : State} {bs : List Byte} (h : scaleBytes core side as s = some (bs, t)) :
    (t.core core).mx = (s.core core).mx := by
  induction as generalizing s t bs with
  | nil => cases h; rfl
  | cons a as ih =>
    simp only [scaleBytes] at h
    split at h
    · next b u hu =>
      obtain ⟨⟨bs', t'⟩, hrest, ht⟩ := Option.map_eq_some_iff.mp h
      cases ht
      exact (ih hrest).trans (scaleByte_mx hu)
    · cases h

theorem sideScales_mx {core side n : Nat} {named : Bool} {b : Block} {s t : State} {bs : Option (List Byte)}
    (h : sideScales core side n named b s = some (bs, t)) : (t.core core).mx = (s.core core).mx := by
  unfold sideScales at h
  split at h
  · obtain ⟨⟨bs', t'⟩, hbytes, ht⟩ := Option.map_eq_some_iff.mp h
    cases ht
    exact scaleBytes_mx hbytes
  · cases h; rfl

/-- An `mps` scales a block or misses: the matrix queue stays. -/
theorem applyMps_queue (s : State) (core : Nat) (e : EngEntry) (sides : MpsSides) (q : Nat) :
    ((applyMps s core e sides q).core core).mx.queue = (s.core core).mx.queue := by
  simp only [applyMps]
  split
  · simp only [missScale, State.land_mx]
  · split
    · simp only [missScale, State.land_mx]
    · next ea eb u hgot =>
      obtain ⟨⟨ea', t⟩, ha, hrest⟩ := Option.bind_eq_some_iff.mp hgot
      obtain ⟨⟨eb', u'⟩, hb, hu⟩ := Option.map_eq_some_iff.mp hrest
      cases hu
      rw [State.core_modCore]
      exact (congrArg Matrix.queue ((sideScales_mx hb).trans (sideScales_mx ha)) :)

/-- An `mps` that comes when no block is due is discarded with MPSMISS (R184). -/
theorem applyMps_of_none {s : State} {core q : Nat} (h : ∀ b ∈ (s.core core).mx.blocks, b.start + 12 ≠ q) (e : EngEntry) (sides : MpsSides) :
    applyMps s core e sides q = missScale s core e := by
  have none_due : (s.core core).mx.blocks.find? (fun b => b.start + 12 == q && b.scalable) = none :=
    List.find?_eq_none.mpr fun b hb => by simp [h b hb]
  simp only [applyMps, none_due]

end Sys2Proof.Machine
end

section
/-!
Tiles of words in an R-buffer: what the bytes of a list of words read as, and what stands in the buffer after the matrix engine's write
(R92, R172, R185).
-/
namespace Sys2Proof.Machine

open Sys2Proof.Claims

/-! ### Lists of equal pieces -/

theorem getElem?_flatMap_of_length {α β : Type} {f : α → List β} {w : Nat} {xs : List α} (h : ∀ x ∈ xs, (f x).length = w) {k o : Nat}
    (ho : o < w) : (xs.flatMap f)[k * w + o]? = xs[k]?.bind fun x => (f x)[o]? := by
  induction xs generalizing k with
  | nil => simp
  | cons x xs ih =>
    obtain ⟨hx, hxs⟩ := List.forall_mem_cons.mp h
    rw [List.flatMap_cons]
    cases k with
    | zero => rw [List.getElem?_append_left (by omega)]; simp
    | succ k =>
      have past : (k + 1) * w + o - w = k * w + o := by rw [Nat.succ_mul]; omega
      rw [List.getElem?_append_right (by rw [Nat.succ_mul]; omega), hx, past, ih hxs, List.getElem?_cons_succ]

/-- A part of piece `k` of equal pieces. -/
theorem take_drop_flatMap {α β : Type} {f : α → List β} {w : Nat} {xs : List α} (h : ∀ x ∈ xs, (f x).length = w) {k o n : Nat}
    (hk : k < xs.length) (hn : o + n ≤ w) : ((xs.flatMap f).drop (k * w + o)).take n = ((f xs[k]).drop o).take n := by
  refine List.ext_getElem? fun i => ?_
  simp only [List.getElem?_take, List.getElem?_drop, Nat.add_assoc]
  split
  · rw [getElem?_flatMap_of_length h (by omega), List.getElem?_eq_getElem hk, Option.bind_some]
  · rfl

/-- Piece `k` of equal pieces. -/
theorem piece_flatMap {α β : Type} {f : α → List β} {w : Nat} {xs : List α} (h : ∀ x ∈ xs, (f x).length = w) {k : Nat}
    (hk : k < xs.length) : ((xs.flatMap f).drop (k * w)).take w = f xs[k] := by
  have := take_drop_flatMap h hk (o := 0) (n := w) (by omega)
  rwa [Nat.add_zero, List.drop_zero, List.take_of_length_le (h _ (List.getElem_mem hk)).le] at this

theorem length_flatMap_of_length {α β : Type} {f : α → List β} {w : Nat} {xs : List α} (h : ∀ x ∈ xs, (f x).length = w) :
    (xs.flatMap f).length = xs.length * w := by
  rw [List.length_flatMap, List.map_congr_left h, List.map_const', List.sum_replicate, smul_eq_mul]

/-! ### Numbers in bytes -/

theorem leNat_leBytes (n x : Nat) : leNat (leBytes n x) = x % 2 ^ (8 * n) := by
  induction n generalizing x with
  | zero => simp [leBytes, leNat, Nat.mod_one]
  | succ n ih =>
    rw [leBytes, leNat, ih, BitVec.toNat_ofNat, Nat.mul_succ, Nat.add_comm (8 * n), Nat.pow_add, Nat.mod_mul]

/-! ### Reads within a read -/

theorem take_drop_mread {m : Memory} (h : Memory.wf m) (a : Nat) {o k n : Nat} (hn : o + k ≤ n) :
    ((mread m a n).drop o).take k = mread m (a + o) k := by
  rw [mread_eq_map h.1, mread_eq_map h.1]
  refine List.ext_getElem (by simp; omega) fun i _ _ => ?_
  simp [Nat.add_assoc]

/-- What was written, read from within it. -/
theorem mread_mwrite_part {m : Memory} (h : Memory.wf m) (a : Nat) {bs : List Byte} {o n : Nat} (hn : o + n ≤ bs.length) :
    mread (mwrite m a bs) (a + o) n = (bs.drop o).take n := by
  have whole := mread_mwrite_within h (a := a) (o := 0) (bs := bs) (n := bs.length) (by omega)
  rw [← take_drop_mread (mwrite_wf m a bs h) a hn]
  have hlen : (mread (mwrite m a bs) a bs.length).length = bs.length := by simp [mread_eq_map (mwrite_wf m a bs h).1]
  rw [Nat.add_zero, List.drop_zero, List.take_of_length_le hlen.le] at whole
  rw [whole]

theorem mread_mwrite_apart {m : Memory} (h : Memory.wf m) {a b n : Nat} {bs : List Byte} (hab : b + n ≤ a ∨ a + bs.length ≤ b) :
    mread (mwrite m a bs) b n = mread m b n := by
  rw [mread_eq_map (mwrite_wf m a bs h).1, mread_eq_map h.1]
  refine List.map_congr_left fun i hi => mget_mwrite_out m a bs _ ?_
  have := List.mem_range.mp hi
  omega

/-! ### The R-buffer of a core -/

theorem rPlace_eq (core : Nat) (a : W64) : rPlace core a = .buf core .r (a.toNat % 2 ^ 18) := by
  simp [rPlace, bits]

theorem rBytes_eq (s : State) (core : Nat) (a : W64) (o n : Nat) : rBytes s core a o n = mread (s.core core).rbuf (a.toNat % 2 ^ 18 + o) n := rfl

section Buffer

variable {s t : State} {core : Nat} {a : W64} {bs : List Byte} (hw : Memory.wf (s.core core).rbuf)
include hw

/-- A part of what was read of a tile. -/
theorem take_drop_rBytes {o k n : Nat} (hn : o + k ≤ n) : ((rBytes s core a 0 n).drop o).take k = rBytes s core a o k := by
  rw [rBytes_eq, rBytes_eq, Nat.add_zero, take_drop_mread hw _ hn]

/-- The words of a tile. -/
theorem wordsOf_rBytes : wordsOf 1024 (rBytes s core a 0 4096) = (List.range 1024).map (rWord s core a) :=
  List.map_congr_left fun q hq => by
    have := List.mem_range.mp hq
    rw [leAt, take_drop_rBytes hw (by omega), rWord]

variable (ht : (t.core core).rbuf = mwrite (s.core core).rbuf (a.toNat % 2 ^ 18) bs)
include ht

theorem rBytes_of_write {o n : Nat} (hn : o + n ≤ bs.length) : rBytes t core a o n = (bs.drop o).take n := by
  rw [rBytes_eq, ht, mread_mwrite_part hw _ hn]

theorem rBytes_of_write_apart {c : W64} {o n : Nat}
    (hc : c.toNat % 2 ^ 18 + o + n ≤ a.toNat % 2 ^ 18 ∨ a.toNat % 2 ^ 18 + bs.length ≤ c.toNat % 2 ^ 18 + o) :
    rBytes t core c o n = rBytes s core c o n := by
  rw [rBytes_eq, rBytes_eq, ht, mread_mwrite_apart hw hc]

end Buffer

theorem length_leBytes_flatMap (n : Nat) (ws : List Nat) : (ws.flatMap (leBytes n)).length = ws.length * n :=
  length_flatMap_of_length fun x _ => leBytes_length n x

/-- Values written side by side read back, each cut to its bytes. -/
theorem leNat_rBytes_of_values {s t : State} {core : Nat} {a : W64} (hw : Memory.wf (s.core core).rbuf) {z : Nat} {ws : List Nat}
    (ht : (t.core core).rbuf = mwrite (s.core core).rbuf (a.toNat % 2 ^ 18) (ws.flatMap (leBytes z))) {q : Nat} (hq : q < ws.length) :
    leNat (rBytes t core a (q * z) z) = ws[q] % 2 ^ (8 * z) := by
  have fits : q * z + z ≤ (ws.flatMap (leBytes z)).length := by
    rw [length_leBytes_flatMap, ← Nat.succ_mul]
    exact Nat.mul_le_mul_right z hq
  rw [rBytes_of_write hw ht fits, piece_flatMap (fun x _ => leBytes_length z x) hq, leNat_leBytes]

/-- A tile of words that the matrix engine wrote. -/
theorem rWord_of_words {s t : State} {core : Nat} {a : W64} (hw : Memory.wf (s.core core).rbuf) {new : Nat → Nat}
    (ht : (t.core core).rbuf = mwrite (s.core core).rbuf (a.toNat % 2 ^ 18) (wordBytes ((List.range 1024).map new))) {q : Nat} (hq : q < 1024) :
    rWord t core a q = new q % 2 ^ 32 := by
  have := leNat_rBytes_of_values hw ht (q := q) (by simpa using hq)
  rwa [Nat.mul_comm q, List.getElem_map, List.getElem_range] at this

end Sys2Proof.Machine
end

section
/-!
The values of a matrix operation's update, element by element (R88 to R92, R185).
-/
namespace Sys2Proof.Machine

open Sys2Proof.Claims

/-! ### Elements of a block (R88 to R91) -/

theorem length_pieces {α : Type} (n count : Nat) (xs : List α) : (pieces n count xs).length = count := by
  induction count generalizing xs with
  | zero => rfl
  | succ count ih => simp [pieces, ih]

theorem length_aRows (ty m k : Nat) (bs : List Byte) : (aRows ty m k bs).length = m := length_pieces ..

theorem length_bCols (ty n k planes : Nat) (sp : Bool) (bs md : List Byte) : (bCols ty n k planes sp bs md).length = n := by
  unfold bCols
  split
  · exact length_pieces ..
  · split
    · exact length_pieces ..
    · exact length_pieces ..

/-- Every accumulator tile has 1,024 words, and at least one column (R87). -/
theorem mmaDims_tile (sh : Nat) : 0 < (mmaDims sh).2.1 ∧ (mmaDims sh).1 * (mmaDims sh).2.1 = 1024 := by
  unfold mmaDims
  split <;> decide

/-- The 32 products' share of a row or a column that a block takes. -/
def Block.cut (b : Block) (xs : List Elem) : List Elem := (xs.drop (32 * b.idx)).take 32

theorem blockElems_eq (ta tb sh planes : Nat) (sp : Bool) (b : Block) :
    blockElems ta tb sh planes b.idx sp b.a b.b b.md = ((aRows ta (mmaDims sh).1 (mmaDims sh).2.2 b.a).map b.cut).flatMap fun row =>
      ((bCols tb (mmaDims sh).2.1 (mmaDims sh).2.2 planes sp b.b b.md).map b.cut).map fun col => blockSum (ta == 7) row col := rfl

theorem length_blockRow (ta tb sh planes : Nat) (sp : Bool) (b : Block) (rows : List (List Elem)) :
    ∀ row ∈ rows, (((bCols tb (mmaDims sh).2.1 (mmaDims sh).2.2 planes sp b.b b.md).map b.cut).map fun col =>
      blockSum (ta == 7) row col).length = (mmaDims sh).2.1 := fun _ _ => by
  rw [List.length_map, List.length_map, length_bCols]

/-- Element `q` of a block: the sum of row `q / n` and column `q % n`. -/
theorem getElem?_blockElems (ta tb sh planes : Nat) (sp : Bool) (b : Block) {q : Nat} (hq : q < 1024) :
    (blockElems ta tb sh planes b.idx sp b.a b.b b.md)[q]? = some (blockSum (ta == 7)
      (b.cut ((aRows ta (mmaDims sh).1 (mmaDims sh).2.2 b.a).getD (q / (mmaDims sh).2.1) []))
      (b.cut ((bCols tb (mmaDims sh).2.1 (mmaDims sh).2.2 planes sp b.b b.md).getD (q % (mmaDims sh).2.1) []))) := by
  obtain ⟨hn, hmn⟩ := mmaDims_tile sh
  have hrow : q / (mmaDims sh).2.1 < (mmaDims sh).1 := (Nat.div_lt_iff_lt_mul hn).mpr (hmn.symm ▸ hq)
  have hcol := Nat.mod_lt q hn
  have at_q := getElem?_flatMap_of_length (length_blockRow ta tb sh planes sp b ((aRows ta (mmaDims sh).1 (mmaDims sh).2.2 b.a).map b.cut))
    (k := q / (mmaDims sh).2.1) hcol
  rw [Nat.div_add_mod', ← blockElems_eq] at at_q
  refine at_q.trans ?_
  simp only [List.getElem?_map, List.getD_eq_getElem?_getD]
  rw [List.getElem?_eq_getElem (by rwa [length_aRows]), List.getElem?_eq_getElem (by rwa [length_bCols])]
  rfl

theorem length_blockElems (ta tb sh planes : Nat) (sp : Bool) (b : Block) :
    (blockElems ta tb sh planes b.idx sp b.a b.b b.md).length = 1024 := by
  rw [blockElems_eq, length_flatMap_of_length (length_blockRow ta tb sh planes sp b _), List.length_map, length_aRows, (mmaDims_tile sh).2]

/-- The words and flags that a block leaves of the words `old` of its accumulator tile. -/
theorem updateWords_blockElems (ta tb sh tacc planes : Nat) (sp : Bool) (b : Block) (old : Nat → Nat) :
    updateWords (tacc == 10) (mmaDims sh).2.1 b.ea b.eb (blockElems ta tb sh planes b.idx sp b.a b.b b.md) ((List.range 1024).map old) =
      ((List.range 1024).map fun q => (blockElement ta tb sh tacc planes sp b q (old q)).1,
        orFlags ((List.range 1024).map fun q => (blockElement ta tb sh tacc planes sp b q (old q)).2)) := by
  have each (f : Nat → Nat × FVal × Bool → Nat × FlagSet)
      (hf : ∀ q x, f q (old q, x) = if (tacc == 10) = true then accumInt (old q) (scaled 0 x.1) else
        let y := scaleSum x (b.ea.bind fun e => e[q / (mmaDims sh).2.1]?) (b.eb.bind fun e => e[q % (mmaDims sh).2.1]?)
        ((accumFloat (old q) y.1).1, (accumFloat (old q) y.1).2 ||| flagIf y.2 flNV)) :
      (((List.range 1024).map old).zip (blockElems ta tb sh planes b.idx sp b.a b.b b.md)).mapIdx f =
        (List.range 1024).map fun q => blockElement ta tb sh tacc planes sp b q (old q) := by
    refine List.ext_getElem? fun q => ?_
    by_cases hq : q < 1024
    · simp only [List.getElem?_mapIdx, List.zip, List.getElem?_zipWith, List.getElem?_map, List.getElem?_range hq,
        getElem?_blockElems ta tb sh planes sp b hq, Option.map_some, hf]
      simp only [blockElement, beq_iff_eq]
      rfl
    · rw [List.getElem?_eq_none (by simp [length_blockElems]; omega), List.getElem?_eq_none (by simp; omega)]
  simp only [updateWords]
  rw [each _ fun q x => rfl, List.map_map, List.map_map]
  rfl

/-! ### Conversions and sums of tiles (R92, R185) -/

theorem convertWords_map (src dst n : Nat) (w : Nat → Nat) :
    convertWords src dst ((List.range n).map w) =
      (((List.range n).map fun q => (convertTo dst (codeVal src (w q))).1).flatMap (leBytes (typeBits dst / 8)),
        orFlags ((List.range n).map fun q => (convertTo dst (codeVal src (w q))).2)) := by
  simp only [convertWords, List.map_map, List.flatMap_map]
  rfl

/-- No element takes more than 4 bytes. -/
theorem length_convertWords (src dst : Nat) (w : Nat → Nat) : (convertWords src dst ((List.range 1024).map w)).1.length ≤ 4096 := by
  have bits : typeBits dst ≤ 32 := by
    unfold typeBits
    split <;> decide
  rw [convertWords_map, length_flatMap_of_length fun x _ => leBytes_length (typeBits dst / 8) x, List.length_map, List.length_range]
  omega

theorem addWordTiles_map (ty n : Nat) (d a : Nat → Nat) :
    let new (q : Nat) : Nat × FlagSet := if ty = 10 then accumInt (d q) (signed 32 (a q)) else accumFloat (d q) (decodeFloat fp32 (a q))
    addWordTiles ty ((List.range n).map d) ((List.range n).map a) =
      ((List.range n).map fun q => (new q).1, orFlags ((List.range n).map fun q => (new q).2)) := by
  simp only [addWordTiles, List.zipWith_map, List.zipWith_self, List.map_map]
  rfl

/-! ### Transposition (R185) -/

/-- Element (i, k) of a tile lies within the tile. -/
theorem tileElement_within {rows cols i k : Nat} (hi : i < rows) (hk : k < cols) (z : Nat) : (i * cols + k) * z + z ≤ rows * cols * z := by
  rw [← Nat.succ_mul]
  refine Nat.mul_le_mul_right z ?_
  calc i * cols + k + 1 ≤ (i + 1) * cols := by rw [Nat.succ_mul]; omega
    _ ≤ rows * cols := Nat.mul_le_mul_right cols hi

section Transpose

variable {rows cols z : Nat} {bs : List Byte} (hl : bs.length = rows * cols * z)
include hl

theorem length_tileElement {i k : Nat} (hi : i < rows) (hk : k < cols) : ((bs.drop ((i * cols + k) * z)).take z).length = z := by
  have within := tileElement_within hi hk z
  simp only [List.length_take, List.length_drop, hl]
  omega

theorem length_tileColumn : ∀ k ∈ List.range cols,
    ((List.range rows).flatMap fun i => (bs.drop ((i * cols + k) * z)).take z).length = rows * z := fun k hk => by
  rw [length_flatMap_of_length fun i hi => length_tileElement hl (List.mem_range.mp hi) (List.mem_range.mp hk), List.length_range]

theorem length_transposeTile : (transposeTile rows cols z bs).length = rows * cols * z := by
  rw [transposeTile, length_flatMap_of_length (length_tileColumn hl), List.length_range, ← Nat.mul_assoc, Nat.mul_comm cols]

/-- Element (k, i) of a transposed tile. -/
theorem transposeTile_element {i k : Nat} (hi : i < rows) (hk : k < cols) :
    ((transposeTile rows cols z bs).drop ((k * rows + i) * z)).take z = (bs.drop ((i * cols + k) * z)).take z := by
  have within : i * z + z ≤ rows * z := by
    rw [← Nat.succ_mul]
    exact Nat.mul_le_mul_right z hi
  rw [transposeTile, Nat.add_mul, Nat.mul_assoc, take_drop_flatMap (length_tileColumn hl) (by simpa using hk) within, List.getElem_range,
    piece_flatMap (fun i hi => length_tileElement hl (List.mem_range.mp hi) hk) (by simpa using hi), List.getElem_range]

end Transpose

end Sys2Proof.Machine
end

section
/-!
ACCUMULATOR_UPDATE: what the update of a block writes, and what it leaves (R88 to R92, R174, R185).
-/
namespace Sys2Proof.Machine

open Sys2Proof.Claims

/-! ### Frames of the update -/

/-- `t` has the memory of `s`, and the held writes and the started blocks of its core. -/
structure State.TileOnly (s t : State) (core : Nat) : Prop where
  ms : t.ms = s.ms
  writes : (t.core core).writes = (s.core core).writes
  blocks : (t.core core).mx.blocks = (s.core core).mx.blocks

theorem State.TileOnly.refl (s : State) (core : Nat) : s.TileOnly s core := ⟨rfl, rfl, rfl⟩

theorem State.TileOnly.trans {s t u : State} {core : Nat} (h : s.TileOnly t core) (g : t.TileOnly u core) : s.TileOnly u core :=
  ⟨g.ms.trans h.ms, g.writes.trans h.writes, g.blocks.trans h.blocks⟩

/-- A write of the matrix engine to a tile. -/
theorem State.tileOnly_writeR (s : State) (core : Nat) (e : EngEntry) (a : W64) (bs : List Byte) : s.TileOnly (s.writeR core e a bs) core := by
  refine ⟨rfl, ?_, ?_⟩ <;> simp [State.writeR, State.noteEngine, rPlace, State.writePlace, Core.setBuf]

theorem State.rbuf_writeR (s : State) (core : Nat) (e : EngEntry) (a : W64) (bs : List Byte) :
    ((s.writeR core e a bs).core core).rbuf = mwrite (s.core core).rbuf (a.toNat % 2 ^ 18) bs := by
  simp [State.writeR, State.noteEngine, rPlace_eq, State.writePlace, Core.setBuf, Core.buf]

theorem tileOnly_blockEffect (s : State) (core : Nat) (b : Block) : s.TileOnly (blockEffect s core b).1 core := by
  unfold blockEffect
  split
  · simp only
    split
    · exact (s.tileOnly_writeR ..).trans (State.tileOnly_writeR ..)
    · exact s.tileOnly_writeR ..
  · exact s.tileOnly_writeR ..
  · exact s.tileOnly_writeR ..
  · exact s.tileOnly_writeR ..
  · exact s.tileOnly_writeR ..
  · exact .refl s core

/-- What the end of an update keeps: memory, the core's R-buffer, its started blocks and its held writes, which others may join. -/
structure State.Settles (s t : State) (core : Nat) : Prop where
  ms : t.ms = s.ms
  rbuf : (t.core core).rbuf = (s.core core).rbuf
  blocks : (t.core core).mx.blocks = (s.core core).mx.blocks
  writes : ∀ h ∈ (s.core core).writes, h ∈ (t.core core).writes

theorem State.Settles.refl (s : State) (core : Nat) : s.Settles s core := ⟨rfl, rfl, rfl, fun _ h => h⟩

theorem State.Settles.trans {s t u : State} {core : Nat} (h : s.Settles t core) (g : t.Settles u core) : s.Settles u core :=
  ⟨g.ms.trans h.ms, g.rbuf.trans h.rbuf, g.blocks.trans h.blocks, fun w hw => g.writes w (h.writes w hw)⟩

theorem State.settles_land (s : State) (core : Nat) (cls : Class) (n : Nat) (tok : Option Nat) (w : WriteTo) :
    s.Settles (s.land core cls n tok w) core := by
  obtain ⟨ws, hws⟩ := s.core_land core cls n tok w
  exact ⟨s.land_ms .., by rw [hws], by rw [hws], fun h hh => State.mem_writes_land_of_mem hh ..⟩

theorem State.settles_finish (s : State) (core id : Nat) (o : Outcome) : s.Settles (s.finish core id o) core := by
  refine ⟨rfl, ?_, ?_, fun h hh => ?_⟩ <;> rw [State.finish, State.core_modCore]
  exact hh

theorem State.settles_putMres (s : State) (core : Nat) (e : EngEntry) (v : W64) : s.Settles (s.putMres core e v) core := by
  unfold State.putMres
  split
  · exact .refl s core
  · exact s.settles_land ..

/-- Whether the end of an operation clears mres: it fetches (R181, R185). -/
def EngEntry.clearsMres (e : EngEntry) : Bool := e.op matches .mma .. | .macc ..

theorem State.clearMres_eq (s : State) (core : Nat) (e : EngEntry) : s.clearMres core e =
    if (e.clearsMres && ((s.core core).mx.held.getD e.serial) == e.serial) = true then
      (s.putMres core e 0).modCore core fun k => { k with mx := { k.mx with held := none } }
    else s := rfl

theorem State.settles_clearMres (s : State) (core : Nat) (e : EngEntry) : s.Settles (s.clearMres core e) core := by
  rw [State.clearMres_eq]
  split
  · refine (s.settles_putMres core e 0).trans ⟨rfl, ?_, ?_, fun h hh => ?_⟩ <;> rw [State.core_modCore]
    exact hh
  · exact .refl s core

/-! ### The update of a block (R174) -/

section Update

variable (s : State) (core : Nat) (b : Block)

/-- A block's effect with its flags held and the block gone. -/
def State.afterEffect : State :=
  let u := blockEffect s core b
  (if u.2 = 0 then u.1 else u.1.land core .x b.e.bundle (tokOf b.e.prod) (.flags (BitVec.ofNat 64 u.2))).modCore core fun k =>
    { k with mx := { k.mx with blocks := k.mx.blocks.drop 1 } }

theorem State.updateBlock_eq : s.updateBlock core b = if b.last = true then
    ((s.afterEffect core b).clearMres core b.e).finish core b.e.serial
      (outcome .done 0 (matrixBytes s b.e) (Nat.max b.e.time b.e.inTime))
  else s.afterEffect core b := rfl

theorem State.settles_updateBlock : (s.afterEffect core b).Settles (s.updateBlock core b) core := by
  rw [State.updateBlock_eq]
  split
  · exact (State.settles_clearMres ..).trans (State.settles_finish ..)
  · exact .refl ..

theorem State.afterEffect_frame : (s.afterEffect core b).ms = s.ms ∧
    ((s.afterEffect core b).core core).rbuf = ((blockEffect s core b).1.core core).rbuf ∧
    ((s.afterEffect core b).core core).mx.blocks = (s.core core).mx.blocks.drop 1 ∧
    HoldsFlags (s.afterEffect core b) core b.e (blockEffect s core b).2 ∧
    ((blockEffect s core b).2 = 0 → ((s.afterEffect core b).core core).writes = (s.core core).writes) := by
  have tile := tileOnly_blockEffect s core b
  simp only [HoldsFlags, State.afterEffect, State.modCore_ms, State.core_modCore]
  split
  · next h => exact ⟨tile.ms, rfl, by rw [tile.blocks], fun hn => absurd h hn, fun _ => tile.writes⟩
  · next h =>
    have land := (blockEffect s core b).1.settles_land core .x b.e.bundle (tokOf b.e.prod) (.flags (BitVec.ofNat 64 (blockEffect s core b).2))
    exact ⟨land.ms.trans tile.ms, land.rbuf, by rw [land.blocks, tile.blocks], fun _ => State.mem_writes_land _ _ _ _ _ nofun,
      fun h0 => absurd h0 h⟩

/-- The update of a block writes its effect, holds its flags, drops the block, and leaves memory. -/
theorem State.updateBlock_frame : (s.updateBlock core b).ms = s.ms ∧
    ((s.updateBlock core b).core core).rbuf = ((blockEffect s core b).1.core core).rbuf ∧
    ((s.updateBlock core b).core core).mx.blocks = (s.core core).mx.blocks.drop 1 ∧
    HoldsFlags (s.updateBlock core b) core b.e (blockEffect s core b).2 := by
  obtain ⟨hms, hrbuf, hblocks, hflags, -⟩ := s.afterEffect_frame core b
  have settles := s.settles_updateBlock core b
  exact ⟨settles.ms.trans hms, settles.rbuf.trans hrbuf, settles.blocks.trans hblocks, fun h => settles.writes _ (hflags h)⟩

/-- An operation that fetches nothing and sets no flags writes no register. -/
theorem State.writes_updateBlock (hop : b.e.clearsMres = false) (hfl : (blockEffect s core b).2 = 0) :
    ((s.updateBlock core b).core core).writes = (s.core core).writes := by
  obtain ⟨-, -, -, -, hwrites⟩ := s.afterEffect_frame core b
  have kept : (s.afterEffect core b).clearMres core b.e = s.afterEffect core b := by
    rw [State.clearMres_eq, hop]
    rfl
  rw [State.updateBlock_eq, kept]
  split
  · rw [State.finish, State.core_modCore]
    exact hwrites hfl
  · exact hwrites hfl

/-- With its last block an operation ends, and counts its bytes. -/
theorem State.stage_updateBlock (hl : b.last = true) :
    ∀ y ∈ ((s.updateBlock core b).core core).started, y.id = b.e.serial →
      y.stage = .finished (outcome .done 0 (matrixBytes s b.e) (Nat.max b.e.time b.e.inTime)) false := by
  intro y hy hid
  rw [State.updateBlock_eq, if_pos hl, State.finish, State.core_modCore] at hy
  exact stage_of_mem_restaged hy hid

end Update

/-! ### The effect of each operation -/

theorem withOld_nil (choose : Nat → Bool) (p : Place) (bs : List Byte) : withOld [] choose p bs = bs := by
  refine List.ext_getElem? fun i => ?_
  simp [withOld]

/-- Where nothing that R159 leaves open has been written, an operation reads what stands there. -/
theorem Flow.view_of_quiet {f : Flow} (hh : (f.st.core f.core).hist = []) (hs : f.e.stale = []) (p : Place) (bs : List Byte) :
    f.view p bs = bs := by
  simp [Flow.view, hh, hs, withOld_nil]

/-- The space tag of an address (R153). -/
theorem tag_eq (a : W64) : bits a.toNat 60 4 = a.toNat / 2 ^ 60 := Nat.mod_eq_of_lt (by have := a.isLt; omega)

section Effect

variable {s : State} {core : Nat} {b : Block}

theorem blockEffect_mmz {d : Reg} {tw : TokenWord} (hop : b.e.op = .mmz d tw) :
    blockEffect s core b = (s.writeR core b.e (b.e.vals.getD 0 0) (List.replicate 4096 0), 0) := by
  simp only [blockEffect, hop]

variable (hw : Memory.wf (s.core core).rbuf) (hh : (s.core core).hist = []) (hs : b.e.stale = [])
include hh hs

theorem view_rPlace (a : W64) (n : Nat) : Flow.view { s.flow core b.e 0 [] with matrix := true } (rPlace core a) (s.readPlace (rPlace core a) n) =
    rBytes s core a 0 n := by
  rw [Flow.view_of_quiet hh hs, rPlace_eq]
  rfl

theorem blockEffect_mtr {x y : Reg} {sh size : Fin 4} {tw : TokenWord} (hop : b.e.op = .mtr x y sh size tw)
    (hr : (b.e.vals.getD 1 0).toNat / 2 ^ 60 = 0xA) :
    blockEffect s core b = (s.writeR core b.e (b.e.vals.getD 0 0) (transposeTile (aShape sh.val).1 (aShape sh.val).2 (2 ^ size.val)
      (rBytes s core (b.e.vals.getD 1 0) 0 ((aShape sh.val).1 * (aShape sh.val).2 * 2 ^ size.val))), 0) := by
  simp only [blockEffect, hop, tag_eq, hr, if_true, view_rPlace hh hs]
  rfl

include hw

theorem blockEffect_mma {x y z res md : Reg} {sh : Fin 4} {sp : Bool} {ta tb tacc tres planes : Fin 16} {tw : TokenWord}
    (hop : b.e.op = .mma x y z sh sp ta tb tacc tres planes res md tw) :
    let new (q : Nat) : Nat × FlagSet :=
      blockElement ta.val tb.val sh.val tacc.val planes.val sp b q (rWord s core (b.e.vals.getD 3 0) q)
    let ws := (List.range 1024).map fun q => (new q).1
    let fl := orFlags ((List.range 1024).map fun q => (new q).2)
    let s1 := s.writeR core b.e (b.e.vals.getD 3 0) (wordBytes ws)
    blockEffect s core b =
      if b.last = true ∧ res ≠ 0 then
        (s1.writeR core b.e (b.e.vals.getD 4 0) (convertWords tacc.val tres.val ws).1, fl ||| (convertWords tacc.val tres.val ws).2)
      else (s1, fl) := by
  have hres : (b.last && res.val != 0) = true ↔ b.last = true ∧ res ≠ 0 := by
    rw [Bool.and_eq_true, bne_iff_ne, Fin.val_ne_zero_iff]
  simp only [blockEffect, hop, view_rPlace hh hs, wordsOf_rBytes hw, updateWords_blockElems, hres]

theorem blockEffect_mcvt {x y : Reg} {src dst : Fin 16} {tw : TokenWord} (hop : b.e.op = .mcvt x y src dst tw) :
    let new (q : Nat) : Nat × FlagSet := convertTo dst.val (codeVal src.val (rWord s core (b.e.vals.getD 1 0) q))
    blockEffect s core b = (s.writeR core b.e (b.e.vals.getD 0 0)
      (((List.range 1024).map fun q => (new q).1).flatMap (leBytes (typeBits dst.val / 8))),
        orFlags ((List.range 1024).map fun q => (new q).2)) := by
  simp only [blockEffect, hop, view_rPlace hh hs, wordsOf_rBytes hw, convertWords_map]

theorem blockEffect_macc {x y : Reg} {ty : Fin 16} {tw : TokenWord} (hop : b.e.op = .macc x y ty tw) :
    let add (q : Nat) : Nat := if (b.e.vals.getD 1 0).toNat / 2 ^ 60 = 0xA then rWord s core (b.e.vals.getD 1 0) q else leAt b.a (4 * q) 4
    let new (q : Nat) : Nat × FlagSet := if ty = 10 then accumInt (rWord s core (b.e.vals.getD 0 0) q) (signed 32 (add q))
      else accumFloat (rWord s core (b.e.vals.getD 0 0) q) (decodeFloat fp32 (add q))
    blockEffect s core b = (s.writeR core b.e (b.e.vals.getD 0 0) (wordBytes ((List.range 1024).map fun q => (new q).1)),
      orFlags ((List.range 1024).map fun q => (new q).2)) := by
  intro add new
  have source : wordsOf 1024 (if (b.e.vals.getD 1 0).toNat / 2 ^ 60 = 0xA then rBytes s core (b.e.vals.getD 1 0) 0 4096 else b.a) =
      (List.range 1024).map add := by
    by_cases hr : (b.e.vals.getD 1 0).toNat / 2 ^ 60 = 0xA
    · simp only [add, hr, if_true, wordsOf_rBytes hw]
    · simp only [add, hr, if_false, wordsOf]
  have hty : ty.val = 10 ↔ ty = 10 := by simp [Fin.ext_iff]
  simp only [blockEffect, hop, view_rPlace hh hs, wordsOf_rBytes hw, tag_eq, source, addWordTiles_map, hty]
  rfl

end Effect

end Sys2Proof.Machine
end

section
/-!
ACCUMULATOR_UPDATE, OPERAND_CHUNK_ARRIVAL and FETCH_FAULT as events (R174, R178 to R181, R333).
-/
namespace Sys2Proof.Machine

open Sys2Proof.Claims

/-! ### ACCUMULATOR_UPDATE (R174) -/

section Accumulator

variable {s : State} {core : Nat} {b : Block} {bs : List Block} (hb : (s.core core).mx.blocks = b :: bs)
include hb

theorem exec_accumulatorUpdate_early (hc : s.cycle < b.start + b.dur + 20) : exec (.accumulatorUpdate core) s = .next s := by
  show execAccumulatorUpdate core s = _
  simp [execAccumulatorUpdate, hb, hc]

theorem exec_accumulatorUpdate (hc : b.start + b.dur + 20 ≤ s.cycle)
    (ho : (s.core core).scaleOpen b = false ∨ (s.core core).engines = false) :
    exec (.accumulatorUpdate core) s = .next (s.updateBlock core b) := by
  have closed : ((s.core core).engines && (s.core core).scaleOpen b) = false := by
    obtain ho | ho := ho <;> simp [ho]
  show execAccumulatorUpdate core s = _
  simp [execAccumulatorUpdate, hb, Nat.not_lt.mpr hc, closed]

end Accumulator

section Updated

variable {s : State} {core : Nat} {b : Block}

/-- Where a block's effect is one write, the R-buffer after the update is that write's. -/
theorem rbuf_updateBlock_of_write {a : W64} {bs : List Byte} {fl : FlagSet} (h : blockEffect s core b = (s.writeR core b.e a bs, fl)) :
    ((s.updateBlock core b).core core).rbuf = mwrite (s.core core).rbuf (a.toNat % 2 ^ 18) bs := by
  obtain ⟨-, hrbuf, -, -⟩ := s.updateBlock_frame core b
  rw [hrbuf, h, State.rbuf_writeR]

theorem holdsFlags_updateBlock {u : State} {fl : FlagSet} (h : blockEffect s core b = (u, fl)) :
    HoldsFlags (s.updateBlock core b) core b.e fl := by
  obtain ⟨-, -, -, hflags⟩ := s.updateBlock_frame core b
  rwa [h] at hflags

variable (hw : Memory.wf (s.core core).rbuf)
include hw

/-- A tile of words and then a second tile: the second reads as written, and so do the words where the tiles are apart. -/
theorem updateBlock_of_two_writes {a c : W64} {ws : Nat → Nat} {bs : List Byte} {fl : FlagSet}
    (h : blockEffect s core b = ((s.writeR core b.e a (wordBytes ((List.range 1024).map ws))).writeR core b.e c bs, fl))
    (hl : bs.length ≤ 4096) :
    rBytes (s.updateBlock core b) core c 0 bs.length = bs ∧
      (c.toNat % 2 ^ 18 + 4096 ≤ a.toNat % 2 ^ 18 ∨ a.toNat % 2 ^ 18 + 4096 ≤ c.toNat % 2 ^ 18 →
        ∀ q < 1024, rWord (s.updateBlock core b) core a q = ws q % 2 ^ 32) := by
  let u := s.writeR core b.e a (wordBytes ((List.range 1024).map ws))
  have first : (u.core core).rbuf = mwrite (s.core core).rbuf (a.toNat % 2 ^ 18) (wordBytes ((List.range 1024).map ws)) :=
    State.rbuf_writeR ..
  have hu : Memory.wf (u.core core).rbuf := first ▸ mwrite_wf _ _ _ hw
  have second : ((s.updateBlock core b).core core).rbuf = mwrite (u.core core).rbuf (c.toNat % 2 ^ 18) bs := by
    obtain ⟨-, hrbuf, -, -⟩ := s.updateBlock_frame core b
    rw [hrbuf, h, State.rbuf_writeR]
  refine ⟨?_, fun apart q hq => ?_⟩
  · rw [rBytes_of_write hu second (by omega), List.drop_zero, List.take_length]
  · rw [rWord, rBytes_of_write_apart hu second (by omega)]
    exact rWord_of_words hw first hq

/-- The update of the oldest block, whatever operation it is of. -/
theorem updated_updateBlock : Updated s (s.updateBlock core b) core b := by
  have ends {n : Nat} (hn : matrixBytes s b.e = n) (hl : b.last = true) := hn ▸ s.stage_updateBlock core b hl
  refine ⟨fun d tw hop => ?_, fun hh hs => ⟨fun x y z sh sp ta tb tacc tres planes res md tw hop => ?_, fun x y src dst tw hop => ?_,
    fun x y sh size tw hop hr => ?_, fun x y ty tw hop => ?_⟩⟩
  · -- `mmz`
    have effect := blockEffect_mmz (s := s) (core := core) hop
    refine ⟨?_, s.writes_updateBlock core b (by simp [EngEntry.clearsMres, hop]) (by rw [effect]), ends (by simp [matrixBytes, hop])⟩
    have zeros := rBytes_of_write hw (rbuf_updateBlock_of_write effect) (o := 0) (n := 4096) (by rw [List.length_replicate])
    rwa [List.drop_zero, List.take_of_length_le (by rw [List.length_replicate])] at zeros
  · -- `mma`
    intro new fl converts apart
    by_cases hc : converts
    · have effect := (blockEffect_mma hw hh hs hop).trans (if_pos hc)
      obtain ⟨hres, hacc⟩ := updateBlock_of_two_writes hw effect (length_convertWords ..)
      exact ⟨fun h => hacc (h.resolve_left (not_not_intro hc)), fun h => absurd hc h, fun _ => ⟨_, rfl, hres, holdsFlags_updateBlock effect⟩,
        fun hl y hy hid => ⟨_, ends rfl hl y hy hid⟩⟩
    · have effect := (blockEffect_mma hw hh hs hop).trans (if_neg hc)
      exact ⟨fun _ q hq => rWord_of_words hw (rbuf_updateBlock_of_write effect) hq, fun _ => holdsFlags_updateBlock effect,
        fun h => absurd h hc, fun hl y hy hid => ⟨_, ends rfl hl y hy hid⟩⟩
  · -- `mcvt`
    have effect := blockEffect_mcvt hw hh hs hop
    refine ⟨fun q hq => ?_, holdsFlags_updateBlock effect, fun h8 => ends ?_⟩
    · have value := leNat_rBytes_of_values hw (rbuf_updateBlock_of_write effect) (q := q) (by simpa using hq)
      rwa [List.getElem_map, List.getElem_range] at value
    · simp only [matrixBytes, hop, tileSize]
      exact Nat.mul_div_assoc 1024 h8
  · -- `mtr`
    intro rows cols z
    have effect := blockEffect_mtr hh hs hop hr
    have whole : (rBytes s core (b.e.vals.getD 1 0) 0 (rows * cols * z)).length = rows * cols * z := by
      simp [rBytes_eq, mread_eq_map hw.1]
    refine ⟨fun i hi k hk => ?_, s.writes_updateBlock core b (by simp [EngEntry.clearsMres, hop]) (by rw [effect]),
      ends (by simp only [matrixBytes, hop]; rfl)⟩
    have fits : (k * rows + i) * z + z ≤ (transposeTile rows cols z (rBytes s core (b.e.vals.getD 1 0) 0 (rows * cols * z))).length := by
      rw [length_transposeTile whole, Nat.mul_comm rows]
      exact tileElement_within hk hi z
    rw [rBytes_of_write hw (rbuf_updateBlock_of_write effect) fits, transposeTile_element whole hi hk,
      take_drop_rBytes hw (tileElement_within hi hk z)]
  · -- `macc`
    have effect := blockEffect_macc hw hh hs hop
    exact ⟨fun q hq => rWord_of_words hw (rbuf_updateBlock_of_write effect) hq, holdsFlags_updateBlock effect,
      ends (by simp only [matrixBytes, hop])⟩

end Updated
/-! ### Operand fetch (R178 to R181) -/

/-- The stream that fetches a chunk of an operation. -/
def State.fetchFlow (s : State) (core : Nat) (e : EngEntry) (data : List Byte) : Flow := { s.flow core e e.time data with matrix := true }

section Fetch

variable {s : State} {core operand chunk : Nat} {data : List Byte} {e : EngEntry} (hf : (s.core core).fetcher operand chunk = some e)
  (he : (s.core core).engines = true)
include hf he

section Sound

variable (hn : fetchCause s core ((e.chunks operand).getD chunk 0) = none) (hh : heldBy s core ((e.chunks operand).getD chunk 0) = false)
include hn hh

/-- Sound data of a chunk arrive in operand staging. -/
theorem exec_operandChunkArrival_sound (hb : ((s.fetchFlow core e data).read ((e.chunks operand).getD chunk 0) 64).2.bad = none) :
    ∃ t, exec (.operandChunkArrival core operand chunk data) s = .next t ∧
      kget [] (t.core core).mx.staging (stageKey e.serial operand chunk) =
        ((s.fetchFlow core e data).read ((e.chunks operand).getD chunk 0) 64).1 := by
  rw [State.fetchFlow] at hb
  show ∃ t, execOperandChunkArrival core operand chunk data s = .next t ∧ _
  simp only [execOperandChunkArrival, hf, he, hn, hh, hb, Bool.not_true, Option.isSome_none, Bool.or_self, Bool.false_eq_true, if_false]
  refine ⟨_, rfl, ?_⟩
  rw [State.core_modCore, kget_kput_same]
  rfl

/-- Spoilt data of a chunk end the operation (R333). -/
theorem exec_operandChunkArrival_spoilt
    (hb : ((s.fetchFlow core e data).read ((e.chunks operand).getD chunk 0) 64).2.bad = some .uncorrectable) :
    exec (.operandChunkArrival core operand chunk data) s = .next (s.failFetch core e) := by
  rw [State.fetchFlow] at hb
  show execOperandChunkArrival core operand chunk data s = _
  simp only [execOperandChunkArrival, hf, he, hn, hh, hb, Bool.not_true, Option.isSome_none, Bool.or_self, Bool.false_eq_true, if_false, if_true]

end Sound

/-- A fault at a chunk's address traps the core (R180). -/
theorem exec_fetchFault {w : Cause} (hw : fetchCause s core ((e.chunks operand).getD chunk 0) = some w) :
    ∃ (u : State) (m tepc : Nat), exec (.fetchFault core operand chunk w.code) s =
      .next (u.exception core m tepc { cause := w, tval := (e.chunks operand).getD chunk 0, slot := 8, async := true }) := by
  show ∃ (u : State) (m tepc : Nat), execFetchFault core operand chunk w.code s = _
  simp only [execFetchFault, hf, he, hw, Option.orElse_some, Bool.not_true, ne_eq, not_true_eq_false, decide_false, Bool.or_self,
    Bool.false_eq_true, if_false]
  exact ⟨_, _, _, rfl⟩

end Fetch

/-- An operation whose fetch meets spoilt data is faulted, with no bytes. -/
theorem State.failFetch_started (s : State) (core : Nat) (e : EngEntry) : ∃ y ∈ ((s.failFetch core e).core core).started,
    y.id = e.serial ∧ y.stage = .finished (outcome .faulted Cause.uncorrectable.code 0 0) false := by
  refine ⟨{ id := e.serial, e := e, stage := .finished (outcome .faulted Cause.uncorrectable.code 0 0) false, orphan := none }, ?_, rfl, rfl⟩
  rw [State.failFetch, State.addStarted, State.core_modCore]
  exact List.mem_append_right _ (.head _)

/-- An asynchronous exception suspends a user core, with the marked cause and the value in its CSRs (R144). -/
theorem State.core_exception_async {s : State} {core : Nat} (hu : isFw core = false) (m tepc : Nat) {t : Trap} (ht : t.async = true) :
    let k := (s.exception core m tepc t).core core
    k.run = .trapped ∧ k.csrNow 0x050 = BitVec.ofNat 64 (t.cause.code + 256) ∧ k.csrNow 0x052 = t.tval := by
  let k := (s.core core).enterTrap m tepc (t.cause.code + 256) t.tval t.slot
  have taken : (s.exception core m tepc t).core core =
      { k with
        pc := if k.slips.isEmpty then tepc % 16384 else k.pc
        run := .trapped
        fetched := none
        haltCycle := s.cycle + (m - k.bn)
        starts := false } := by
    simp only [State.exception, hu, ht, Bool.false_eq_true, if_false, if_true]
    split <;> exact State.core_setCore ..
  obtain ⟨hcause, -, hval⟩ := (s.core core).csrNow_enterTrap m tepc (t.cause.code + 256) t.tval t.slot
  rw [taken]
  exact ⟨rfl, hcause, hval⟩

end Sys2Proof.Machine
end

section
/-!
COPY_CHUNK (R198, R199), and the obligation on the matrix engine's and the copy engine's progress.
-/
namespace Sys2Proof.Machine

open Sys2Proof.Claims

/-! ### COPY_CHUNK (R198) -/

section Copy

variable {s : State} {core idx chunk total : Nat} {data : List Byte} {x : Started} {done : List Nat}
  (hx : (s.core core).started[idx]? = some x) (hst : x.stage = .copying total done)
include hx hst

theorem exec_copyChunk_done (hd : chunk ∈ done) : exec (.copyChunk core idx chunk data) s = .next s := by
  show execCopyChunk core idx chunk data s = _
  simp [execCopyChunk, copyChunk, hx, hst, hd]

end Copy

/-- The fault that stops a chunk: one met by the reads, or, but for a multicast, one that the writes would meet. -/
def chunkFault (s : State) (core : Nat) (p : Plan) (g : Seg) (got : List (Nat × Nat) × Flow) : Option Cause :=
  match got.2.bad with
  | some e => some e
  | none => if p.receivers.isSome then none else writeFault s core (g.byteMoves got.1 ++ g.secondMoves got.1)

theorem chunkFault_eq_none {s : State} {core : Nat} {p : Plan} {g : Seg} {got : List (Nat × Nat) × Flow} (hb : got.2.bad = none)
    (hw : p.receivers = none → writeFault s core (g.byteMoves got.1 ++ g.secondMoves got.1) = none) : chunkFault s core p g got = none := by
  simp only [chunkFault, hb]
  split
  · rfl
  · next hr => exact hw (by simpa using hr)

/-- The stage of a copy after a chunk. -/
def chunkStage (p : Plan) (total chunk : Nat) (done : List Nat) (t0 time : Nat) : Option Cause → Stage
  | some c => copyFault p done c t0
  | none => if done.length + 1 = total then .finished (outcome .done 0 p.bytes time) false else .copying total (chunk :: done)

/-- A chunk that meets no fault is counted, and with the last one the copy ends; a fault ends it too. -/
theorem exec_copyChunk {s : State} {core idx chunk total i : Nat} {data : List Byte} {x : Started} {done : List Nat} {g : Seg}
    (hx : (s.core core).started[idx]? = some x) (hst : x.stage = .copying total done) (hd : chunk ∉ done)
    (he : (s.core core).engines = true) (hg : findChunk (copyPlan core x.e).segs chunk = some (g, i)) :
    let p := copyPlan core x.e
    let t0 := Nat.max x.e.time x.e.inTime
    ∃ t time, exec (.copyChunk core idx chunk data) s = .next t ∧ ∀ y ∈ (t.core core).started, y.id = x.id →
      y.stage = chunkStage p total chunk done t0 time (chunkFault s core p g (Flow.readAll g (g.range i) (s.flow core x.e t0 data))) := by
  intro p t0
  have runs : ∃ (f2 : Flow) (n : Nat), exec (.copyChunk core idx chunk data) s =
      match chunkFault s core p g (Flow.readAll g (g.range i) (s.flow core x.e t0 data)) with
      | some c => .next (((Flow.readAll g (g.range i) (s.flow core x.e t0 data)).2.st.abandon core x.id c).setStage core x.id
          (copyFault p done c t0))
      | none => .next (f2.st.modCore core fun k => { k.count 10 n with started := k.started.map fun y =>
          if y.id = x.id then { y with stage := chunkStage p total chunk done t0 f2.time none, e := { y.e with time := f2.time } } else y }) := by
    show ∃ (f2 : Flow) (n : Nat), execCopyChunk core idx chunk data s = _
    simp only [execCopyChunk, copyChunk, hx, hst, hd, he, hg, List.contains_eq_mem, decide_false, Bool.not_true, Bool.or_self, Bool.false_eq_true,
      if_false]
    exact ⟨_, _, rfl⟩
  obtain ⟨f2, n, hexec⟩ := runs
  cases hf : chunkFault s core p g (Flow.readAll g (g.range i) (s.flow core x.e t0 data)) with
  | some c =>
    rw [hf] at hexec
    exact ⟨_, 0, hexec, fun y hy hid => State.stage_of_mem_setStage hy hid⟩
  | none =>
    rw [hf] at hexec
    refine ⟨_, f2.time, hexec, fun y hy hid => ?_⟩
    rw [State.core_modCore] at hy
    obtain ⟨z, -, rfl⟩ := List.mem_map.mp hy
    by_cases hz : z.id = x.id
    · rw [if_pos hz]
    · exact absurd ((congrArg Started.id (if_neg hz)).symm.trans hid) hz

/-! ### The obligation -/

/-- Settles O44: each event by what it does at the matrix engine's head, to a block's tile, to operand staging, or to a started copy. -/
theorem matrixAndCopyProgress : Obligations.MatrixAndCopyProgress := by
  unfold Obligations.MatrixAndCopyProgress
  refine ⟨fun s core q e es hq hl hc he => ⟨fun hmps hmscl hn => ?_, fun j a n hop => ?_, fun d sides hop => ?_⟩,
    fun s core b bs hb => ⟨exec_accumulatorUpdate_early hb, fun hc ho hw => ?_⟩,
    fun s core operand chunk data e hf he =>
      ⟨fun hn hh hb => exec_operandChunkArrival_sound hf he hn hh hb, fun hn hh hb => ?_, fun w hw hu => ?_⟩,
    fun s core idx chunk data x total done hx hst => ⟨exec_copyChunk_done hx hst, fun hd he hg => ?_, fun g i hd he hg hb hnf => ?_⟩⟩
  · obtain ⟨hms, hqueue, hblocks, hfree⟩ := State.startMatrix_blocks hq q hmscl hn
    exact ⟨_, exec_matrixOperationStart hq hl hc he hmps, hqueue, hblocks, hfree, hms⟩
  · exact ⟨_, exec_matrixOperationStart hq hl hc he (by simp [hop]), State.startMatrix_mscl hq q hop⟩
  · obtain ⟨-, ext, hcore⟩ := State.core_leaveHead hq q
    refine ⟨_, exec_mpsLeaveHead hq hl hc he hop, ?_, fun hmiss => ?_⟩
    · rw [applyMps_queue, hcore]
    · rw [applyMps_of_none (by rw [hcore]; exact hmiss)]
      exact State.mem_writes_land _ _ _ _ _ nofun
  · obtain ⟨hms, -, hblocks, -⟩ := s.updateBlock_frame core b
    exact ⟨_, exec_accumulatorUpdate hb hc ho, by rw [hblocks, hb]; rfl, hms, updated_updateBlock hw⟩
  · exact ⟨_, exec_operandChunkArrival_spoilt hf he hn hh hb, s.failFetch_started core e⟩
  · obtain ⟨u, m, tepc, hexec⟩ := exec_fetchFault hf he hw
    exact ⟨_, hexec, State.core_exception_async hu m tepc rfl⟩
  · obtain ⟨⟨g, i⟩, hg⟩ := Option.isSome_iff_exists.mp hg
    obtain ⟨t, time, hexec, hstage⟩ := exec_copyChunk hx hst hd he hg
    refine ⟨t, hexec, fun y hy hid => ?_⟩
    rw [hstage y hy hid]
    unfold chunkStage
    split
    · exact .inr ⟨_, rfl⟩
    · split
      · exact .inr ⟨_, rfl⟩
      · exact .inl rfl
  · obtain ⟨t, time, hexec, hstage⟩ := exec_copyChunk hx hst hd he hg
    refine ⟨t, time, hexec, fun y hy hid => (hstage y hy hid).trans ?_⟩
    rw [chunkFault_eq_none hb hnf]
    rfl

end Sys2Proof.Machine
end

section
/-!
A step on an event of the agenda (log 6): what the passing of no time leaves of a state.
-/
namespace Sys2Proof.Machine

open Sys2Proof.Claims

/-- No line of the near tier is clean and differs from the memory behind it. -/
def MemSys.Coherent (ms : MemSys) : Prop :=
  ∀ x ∈ ms.lines, x.2.data.length = 64 ∧ (x.2.dirty = false → x.2.data = mread ms.mem (x.1 * 64) 64)

theorem find?_kdel_other {α : Type} (m : KMap α) {l n : Nat} (h : n ≠ l) :
    (kdel m l).find? (fun e => e.1 == n) = m.find? fun e => e.1 == n := by
  rw [kdel, List.find?_filter]
  congr 1
  funext e
  by_cases he : e.1 = n
  · simp [he, h]
  · simp [he]

theorem find?_kdel_same {α : Type} (m : KMap α) (l : Nat) : (kdel m l).find? (fun e => e.1 == l) = none := by
  rw [List.find?_eq_none]
  intro e he
  simpa using (List.mem_filter.mp he).2

/-- The line that leaves the near tier is in memory: it has been written back, or it was clean (R187, R189). -/
theorem MemSys.line_evict {ms : MemSys} (hw : Memory.wf ms.mem) (hc : ms.Coherent) (l n : Nat) : (ms.evict l).line n = ms.line n := by
  unfold MemSys.evict
  cases hf : ms.lines.find? fun e => e.1 == l with
  | none => rfl
  | some e =>
    obtain ⟨hlen, hclean⟩ := hc e (List.mem_of_find?_eq_some hf)
    have hl : e.1 = l := by simpa using List.find?_some hf
    subst hl
    have back : mread (if e.2.dirty then mwrite ms.mem (e.1 * 64) e.2.data else ms.mem) (e.1 * 64) 64 = e.2.data := by
      split
      · have := mread_mwrite_part hw (e.1 * 64) (bs := e.2.data) (o := 0) (n := 64) (by omega)
        rwa [Nat.add_zero, List.drop_zero, List.take_of_length_le hlen.le] at this
      · next hd => exact (hclean (by simpa using hd)).symm
    by_cases hn : n = e.1
    · subst hn
      simp only [MemSys.line, find?_kdel_same, hf]
      exact back
    · simp only [MemSys.line, find?_kdel_other _ hn]
      split
      · rfl
      · split
        · exact mread_mwrite_apart hw (by omega)
        · rfl

theorem MemSys.line_mayEvict {ms : MemSys} (hw : Memory.wf ms.mem) (hc : ms.Coherent) (go : Bool) (pick n : Nat) :
    (ms.mayEvict go pick).line n = ms.line n := by
  unfold MemSys.mayEvict
  split
  · split
    · exact MemSys.line_evict hw hc _ n
    · rfl
  · rfl

/-- After an event no cycle passes: the clock and the cores stand as the event left them, and so does every byte of memory. -/
theorem State.tick_zero (t : State) : (t.tick 0).cycle = t.cycle ∧ (t.tick 0).cores = t.cores ∧
    (Memory.wf t.ms.mem → t.ms.Coherent → ∀ p, (t.tick 0).ms.byte p = t.ms.byte p) :=
  ⟨rfl, rfl, fun hw hc p => congrArg (fun l => l.getD (p % 64) 0)
    (MemSys.line_mayEvict hw hc (Config.freeBit t.free 105) (Config.freeNat t.free 107) (p / 64))⟩

/-- What a step makes of the outcome of its event: no time passes. -/
def afterEvent : Res → Res
  | .next t => .next (t.tick 0)
  | .fault x => .fault x
  | .refused x => .refused x

/-- A step with an event at the head of the agenda is that event, and no time passes (log 6). -/
theorem step_agenda {s : State} {e : Instr} {rest : List Instr} (h : s.agenda = e :: rest) :
    step s = afterEvent (exec e { s with agenda := rest, cur := none }) := by
  simp only [step, runStep, h]
  generalize exec e { s with agenda := rest, cur := none } = r
  cases r <;> rfl

/-- Settles O59: the event's outcome is the step's, and what the passing of no time may evict from the near tier stands in memory. -/
theorem stepTakesTheAgenda : Obligations.StepTakesTheAgenda := by
  unfold Obligations.StepTakesTheAgenda
  intro s e rest h
  refine ⟨fun t ht => ?_, fun x hx => ?_, fun x hx => ?_⟩
  · obtain ⟨hcycle, hcores, hbyte⟩ := t.tick_zero
    exact ⟨by rw [step_agenda h, ht, afterEvent], hcycle, hcores, fun p hw hl => hbyte hw hl p⟩
  · rw [step_agenda h, hx, afterEvent]
  · rw [step_agenda h, hx, afterEvent]

end Sys2Proof.Machine
end

section
/-!
Held writes of scalar registers: when they are seen, and what register 0 makes of them (R94 to R98, R107).
-/
namespace Sys2Proof.Machine

open Sys2Proof.Claims

/-! ### Held writes (R96 to R98) -/

/-- A write whose order with every held write is open and comes after them all stands at the end. -/
theorem insertHeld_of_before {order : HeldWrite → Landing} {w : HeldWrite} {es : List HeldWrite} (h : ∀ e ∈ es, order e = .before) :
    insertHeld order w es = es ++ [w] := by
  have tail : es.reverse.takeWhile (fun e => order e != .precedes) = es.reverse :=
    List.takeWhile_eq_self_iff.mpr fun e he => by simp [h e (List.mem_reverse.mp he)]
  have early : es.takeWhile (fun e => order e == .before) = es := List.takeWhile_eq_self_iff.mpr fun e he => by simp [h e he]
  have late : es.dropWhile (fun e => order e == .before) = [] := List.dropWhile_eq_nil_iff.mpr fun e he => by simp [h e he]
  simp [insertHeld, tail, early, late]

theorem clash_scalar_eq_false {e : HeldWrite} {r : Nat} (h : writesScalar r e = false) (v : W64) (df : Bool) :
    e.wr.clash (.scalar r v df) = false := by
  unfold writesScalar at h
  cases hw : e.wr with
  | scalar q x d => rw [hw] at h; exact h
  | vector | mask | mstack | csr | flags => rfl

theorem HeldWrite.order_of_apart {e w : HeldWrite} (h : e.wr.clash w.wr = false) (bit : Bool) : e.order w bit = .before := by
  simp [HeldWrite.order, h]

/-- The held write that a scalar result at the cursor makes. -/
def heldScalar (c : Cursor) (lat r : Nat) (v : W64) (df : Bool) : HeldWrite :=
  { cls := c.slot.cls, n := c.bn, lat := lat, sync := none, tok := none, wr := .scalar r v df }

/-- The first held write of a scalar register comes behind all others. -/
theorem State.core_put_scalar {s : State} {c : Cursor} {r : Nat} (hr : r ≠ 0)
    (only : ∀ w ∈ (s.core c.core).writes, writesScalar r w = false) (lat : Nat) (v : W64) (df : Bool) :
    (s.put c lat (.scalar r v df)).core c.core =
      { s.core c.core with writes := (s.core c.core).writes ++ [heldScalar c lat r v df] } := by
  obtain ⟨n, rfl⟩ := Nat.exists_eq_succ_of_ne_zero hr
  have last : insertHeld (landingOf s c (heldScalar c lat (n + 1) v df)) (heldScalar c lat (n + 1) v df) (s.core c.core).writes =
      (s.core c.core).writes ++ [heldScalar c lat (n + 1) v df] :=
    insertHeld_of_before fun e he => HeldWrite.order_of_apart (clash_scalar_eq_false (only e he) v df) _
  rw [← last]
  exact State.core_modCore ..

theorem Core.sread_zero (k : Core) (see : HeldWrite → Bool) : k.sread see 0 = ⟨0, false⟩ := rfl

/-- A register that no held write changes reads as it stands. -/
theorem foldl_scalarAfter_of_others {r : Nat} {see : HeldWrite → Bool} {ws : List HeldWrite} (h : ∀ w ∈ ws, writesScalar r w = false)
    (x : SReg) : ws.foldl (HeldWrite.scalarAfter see r) x = x := by
  induction ws with
  | nil => rfl
  | cons w ws ih =>
    obtain ⟨hw, hws⟩ := List.forall_mem_cons.mp h
    rw [List.foldl_cons, HeldWrite.scalarAfter_of_other hw, ih hws]

/-- Settles O3: the write stands behind the others, and its reader sees it by R97. -/
theorem heldWriteBecomesVisible : Obligations.HeldWriteBecomesVisible := by
  unfold Obligations.HeldWriteBecomesVisible
  intro s c lat r v df hr only k
  have hk : k = { s.core c.core with writes := (s.core c.core).writes ++ [heldScalar c lat r v df] } :=
    State.core_put_scalar hr only lat v df
  have reads {q : Nat} (hq : q ≠ 0) (see : HeldWrite → Bool) : k.sread see q =
      HeldWrite.scalarAfter see q ((s.core c.core).writes.foldl (HeldWrite.scalarAfter see q) ((s.core c.core).sbase q))
        (heldScalar c lat r v df) := by
    rw [k.sread_eq_foldl see hq, hk, List.foldl_append]
    rfl
  refine ⟨fun m bit => ?_, fun q see hqr => ?_⟩
  · rw [reads hr, foldl_scalarAfter_of_others only]
    have seen : (heldScalar c lat r v df).seen c.slot.cls m bit = (decide (c.bn < m) && decide (lat ≤ m - c.bn)) :=
      congrArg (decide (c.bn < m) && ·) (if_pos rfl)
    show (if r = r ∧ (heldScalar c lat r v df).seen c.slot.cls m bit = true then (⟨v, df⟩ : SReg) else _) = _
    simp [seen]
  · by_cases hq : q = 0
    · rw [hq, Core.sread_zero, Core.sread_zero]
    · have other : writesScalar q (heldScalar c lat r v df) = false := by simpa [writesScalar, heldScalar] using hqr.symm
      rw [reads hq, HeldWrite.scalarAfter_of_other other, (s.core c.core).sread_eq_foldl see hq]

/-! ### Register 0 (R94, R107) -/

theorem Core.addStride_strides (k : Core) (reg : Nat) (x : W32) : (k.addStride reg x).strides = k.strides := by
  unfold Core.addStride
  split <;> rfl

/-- One stride entry at the close of its level: its add is made, or waits until its register has been written (R107). -/
def Core.closeStride (k : Core) (e : Stride) : Core :=
  if k.writing e.reg then { k with due := k.due ++ [(e.reg, e.stride)] } else k.addStride e.reg e.stride

theorem Core.closeStride_strides (k : Core) (e : Stride) : (k.closeStride e).strides = k.strides := by
  unfold Core.closeStride
  split
  · rfl
  · exact k.addStride_strides ..

/-- The close of a level makes, in order, the adds of its entries that name a register. -/
theorem Core.addStrides_eq_foldl (k : Core) (lv : Nat) : k.addStrides lv = (strideEntries k lv).foldl Core.closeStride k := by
  have entries (js : List Nat) (k' : Core) (hs : k'.strides = k.strides) :
      js.foldl (fun k j =>
        let e := kget ⟨0, 0⟩ k.strides ((lv - 1) * 4 + j)
        if e.reg = 0 then k
        else if k.writing e.reg then { k with due := k.due ++ [(e.reg, e.stride)] }
        else k.addStride e.reg e.stride) k' =
      ((js.map fun j => kget ⟨0, 0⟩ k.strides ((lv - 1) * 4 + j)).filter fun e => decide (e.reg ≠ 0)).foldl Core.closeStride k' := by
    induction js generalizing k' with
    | nil => rfl
    | cons j js ih =>
      have entry : kget (⟨0, 0⟩ : Stride) k'.strides ((lv - 1) * 4 + j) = kget ⟨0, 0⟩ k.strides ((lv - 1) * 4 + j) := by rw [hs]
      rw [List.foldl_cons, List.map_cons, entry]
      by_cases he : (kget (⟨0, 0⟩ : Stride) k.strides ((lv - 1) * 4 + j)).reg = 0
      · rw [List.filter_cons_of_neg (by simpa using he)]
        simp only [if_pos he]
        exact ih k' hs
      · rw [List.filter_cons_of_pos (by simpa using he), List.foldl_cons]
        simp only [if_neg he]
        exact ih (k'.closeStride (kget ⟨0, 0⟩ k.strides ((lv - 1) * 4 + j))) ((k'.closeStride_strides _).trans hs)
  exact entries (List.range 4) k rfl

/-- Settles O4: register 0 is left out wherever a register is read, written or added to. -/
theorem scalarZeroIsConstant : Obligations.ScalarZeroIsConstant := by
  unfold Obligations.ScalarZeroIsConstant
  refine ⟨Core.sread_zero, fun _ _ _ _ _ => rfl, fun _ _ _ _ _ _ _ => rfl, fun s c a b h => ?_, fun _ _ => rfl,
    fun k lv => k.addStrides_eq_foldl lv⟩
  exact slotOp_act h.1 h.2 _

end Sys2Proof.Machine
end

section
/-!
The values of the scalar operations as numbers (R48, R102, R103).
-/
namespace Sys2Proof.Machine

open Sys2Proof.Claims

/-! ### Arithmetic (R102) -/

theorem add_eq_ofNat (x y : W64) : x + y = BitVec.ofNat 64 (x.toNat + y.toNat) := by
  rw [BitVec.ofNat_add, BitVec.ofNat_toNat, BitVec.ofNat_toNat, BitVec.setWidth_eq, BitVec.setWidth_eq]

theorem sub_eq_ofInt (x y : W64) : x - y = BitVec.ofInt 64 (x.toInt - y.toInt) :=
  BitVec.eq_of_toInt_eq (by rw [BitVec.toInt_sub, BitVec.toInt_ofInt])

theorem add_signExtend_eq_ofInt {n : Nat} (x : W64) (imm : BitVec n) : x + imm.signExtend 64 = BitVec.ofInt 64 (x.toInt + imm.toInt) := by
  rw [BitVec.ofInt_add, BitVec.ofInt_toInt]
  rfl

theorem mul_eq_ofNat (x y : W64) : x * y = BitVec.ofNat 64 (x.toNat * y.toNat) := by
  rw [BitVec.ofNat_mul, BitVec.ofNat_toNat, BitVec.ofNat_toNat, BitVec.setWidth_eq, BitVec.setWidth_eq]

theorem mulHigh_uu (x y : W64) : mulHigh .uu x y = BitVec.ofNat 64 (x.toNat * y.toNat / 2 ^ 64) := by
  rw [← BitVec.ofInt_natCast]
  rfl

theorem toNat_eq_zero_iff (y : W64) : y.toNat = 0 ↔ y = 0 := by
  rw [← BitVec.toNat_inj]
  rfl

theorem divWord_unsigned (x y : W64) : divWord true x y =
    if y.toNat = 0 then BitVec.ofNat 64 (2 ^ 64 - 1) else BitVec.ofNat 64 (x.toNat / y.toNat) := by
  simp only [divWord, toNat_eq_zero_iff, if_true]
  split
  · rfl
  · exact BitVec.eq_of_toNat_eq (by
      rw [BitVec.toNat_udiv, BitVec.toNat_ofNat, Nat.mod_eq_of_lt ((Nat.div_le_self _ _).trans_lt x.isLt)])

theorem divWord_signed (x y : W64) : divWord false x y =
    if y.toNat = 0 then BitVec.ofNat 64 (2 ^ 64 - 1) else BitVec.ofInt 64 (x.toInt.tdiv y.toInt) := by
  simp only [divWord, toNat_eq_zero_iff, Bool.false_eq_true, if_false]
  split
  · rfl
  · exact BitVec.eq_of_toInt_eq (by rw [BitVec.toInt_sdiv, BitVec.toInt_ofInt])

theorem remWord_unsigned (x y : W64) : remWord true x y = if y.toNat = 0 then x else BitVec.ofNat 64 (x.toNat % y.toNat) := by
  simp only [remWord, toNat_eq_zero_iff, if_true]
  split
  · rfl
  · exact BitVec.eq_of_toNat_eq (by
      rw [BitVec.toNat_umod, BitVec.toNat_ofNat, Nat.mod_eq_of_lt ((Nat.mod_le _ _).trans_lt x.isLt)])

theorem remWord_signed (x y : W64) : remWord false x y = if y.toNat = 0 then x else BitVec.ofInt 64 (x.toInt.tmod y.toInt) := by
  simp only [remWord, toNat_eq_zero_iff, Bool.false_eq_true, if_false]
  split
  · rfl
  · rw [← BitVec.toInt_srem, BitVec.ofInt_toInt]

theorem minWord_unsigned (x y : W64) : minWord true x y = BitVec.ofNat 64 (Nat.min x.toNat y.toNat) := by
  by_cases h : x.toNat < y.toNat
  · rw [minWord, if_pos (by simpa [BitVec.ult] using h), show Nat.min x.toNat y.toNat = x.toNat from Nat.min_eq_left h.le]
    simp
  · rw [minWord, if_neg (by simpa [BitVec.ult] using h), show Nat.min x.toNat y.toNat = y.toNat from Nat.min_eq_right (Nat.le_of_not_lt h)]
    simp

theorem minWord_signed (x y : W64) : minWord false x y = BitVec.ofInt 64 (min x.toInt y.toInt) := by
  by_cases h : x.toInt < y.toInt
  · rw [minWord, if_pos (by simpa [BitVec.slt] using h), min_eq_left h.le, BitVec.ofInt_toInt]
  · rw [minWord, if_neg (by simpa [BitVec.slt] using h), min_eq_right (not_lt.mp h), BitVec.ofInt_toInt]

theorem maxWord_unsigned (x y : W64) : maxWord true x y = BitVec.ofNat 64 (Nat.max x.toNat y.toNat) := by
  by_cases h : y.toNat < x.toNat
  · rw [maxWord, if_pos (by simpa [BitVec.ult] using h), show Nat.max x.toNat y.toNat = x.toNat from Nat.max_eq_left h.le]
    simp
  · rw [maxWord, if_neg (by simpa [BitVec.ult] using h), show Nat.max x.toNat y.toNat = y.toNat from Nat.max_eq_right (Nat.le_of_not_lt h)]
    simp

theorem maxWord_signed (x y : W64) : maxWord false x y = BitVec.ofInt 64 (max x.toInt y.toInt) := by
  by_cases h : y.toInt < x.toInt
  · rw [maxWord, if_pos (by simpa [BitVec.slt] using h), max_eq_left h.le, BitVec.ofInt_toInt]
  · rw [maxWord, if_neg (by simpa [BitVec.slt] using h), max_eq_right (not_lt.mp h), BitVec.ofInt_toInt]

/-- The leading zeros of an `n`-bit number stand above its highest one. -/
theorem leadingZeros_eq {n x : Nat} (h : x < 2 ^ n) : leadingZeros n x = if x = 0 then n else n - 1 - Nat.log2 x := by
  induction n with
  | zero => simp [leadingZeros]
  | succ n ih =>
    have top : bits x n 1 = x / 2 ^ n :=
      Nat.mod_eq_of_lt (Nat.div_lt_of_lt_mul (by rwa [← Nat.pow_add]))
    rw [leadingZeros, top]
    by_cases hx : x < 2 ^ n
    · rw [Nat.div_eq_of_lt hx, if_neg (by decide), ih hx]
      split
      · omega
      · next h0 =>
        have := (Nat.log2_lt h0).mpr hx
        omega
    · have one : x / 2 ^ n = 1 := Nat.div_eq_of_lt_le (by omega) (by rw [Nat.pow_succ] at h; omega)
      have h0 : x ≠ 0 := by
        have := Nat.two_pow_pos n
        omega
      have log : Nat.log2 x = n := (Nat.log2_eq_iff h0).mpr ⟨by omega, h⟩
      rw [one, if_pos rfl, if_neg h0, log]
      omega

theorem oneBits_eq (n x : Nat) : oneBits n x = ((List.range n).filter fun j => x.testBit j).length := by
  induction n with
  | zero => rfl
  | succ n ih =>
    rw [oneBits, ih, List.range_succ, List.filter_append, List.length_append, Nat.add_comm]
    congr 1
    rw [List.filter_singleton, Nat.testBit_eq_decide_div_mod_eq]
    have := Nat.mod_two_eq_zero_or_one (x / 2 ^ n)
    have one : bits x n 1 = x / 2 ^ n % 2 := rfl
    obtain h | h := this
    · simp [one, h]
    · simp [one, h]

/-! ### Logic and shifts (R102) -/

theorem and_eq_ofNat (x y : W64) : x &&& y = BitVec.ofNat 64 (x.toNat &&& y.toNat) :=
  BitVec.eq_of_toNat_eq (by rw [BitVec.toNat_and, BitVec.toNat_ofNat, Nat.mod_eq_of_lt (Nat.and_lt_two_pow _ y.isLt)])

theorem or_eq_ofNat (x y : W64) : x ||| y = BitVec.ofNat 64 (x.toNat ||| y.toNat) :=
  BitVec.eq_of_toNat_eq (by rw [BitVec.toNat_or, BitVec.toNat_ofNat, Nat.mod_eq_of_lt (Nat.or_lt_two_pow x.isLt y.isLt)])

theorem xor_eq_ofNat (x y : W64) : x ^^^ y = BitVec.ofNat 64 (x.toNat ^^^ y.toNat) :=
  BitVec.eq_of_toNat_eq (by rw [BitVec.toNat_xor, BitVec.toNat_ofNat, Nat.mod_eq_of_lt (Nat.xor_lt_two_pow x.isLt y.isLt)])

theorem shiftWord_left (x : W64) (n : Nat) : shiftWord .left x n = BitVec.ofNat 64 (x.toNat * 2 ^ n) :=
  BitVec.eq_of_toNat_eq (by rw [shiftWord, BitVec.toNat_shiftLeft, BitVec.toNat_ofNat, Nat.shiftLeft_eq])

theorem shiftWord_right (x : W64) (n : Nat) : shiftWord .right x n = BitVec.ofNat 64 (x.toNat / 2 ^ n) :=
  BitVec.eq_of_toNat_eq (by
    rw [shiftWord, BitVec.toNat_ushiftRight, BitVec.toNat_ofNat, Nat.shiftRight_eq_div_pow,
      Nat.mod_eq_of_lt ((Nat.div_le_self _ _).trans_lt x.isLt)])

theorem shiftWord_arith (x : W64) (n : Nat) : shiftWord .arith x n = BitVec.ofInt 64 (x.toInt / 2 ^ n) := by
  have := BitVec.toInt_sshiftRight (x := x) (n := n)
  rw [shiftWord, ← BitVec.ofInt_toInt (x := x.sshiftRight n), this, Int.shiftRight_eq_div_pow]
  rfl

/-- A rotation puts the `n` low bits above the others. -/
theorem shiftWord_rotate (x : W64) {n : Nat} (h : n < 64) :
    shiftWord .rotate x n = BitVec.ofNat 64 (x.toNat / 2 ^ n + x.toNat % 2 ^ n * 2 ^ (64 - n)) := by
  have hx := x.isLt
  have split : (2 : Nat) ^ 64 = 2 ^ n * 2 ^ (64 - n) := by rw [← Nat.pow_add]; congr 1; omega
  have high : x.toNat <<< (64 - n) % 2 ^ 64 = (x.toNat % 2 ^ n) <<< (64 - n) := by
    rw [Nat.shiftLeft_eq, Nat.shiftLeft_eq, split, Nat.mul_mod_mul_right]
  have low : x.toNat / 2 ^ n < 2 ^ (64 - n) := Nat.div_lt_of_lt_mul (by rwa [← split])
  have sum : x.toNat / 2 ^ n + x.toNat % 2 ^ n * 2 ^ (64 - n) < 2 ^ 64 := by
    have : x.toNat % 2 ^ n + 1 ≤ 2 ^ n := Nat.mod_lt _ (Nat.two_pow_pos n)
    have := Nat.mul_le_mul_right (2 ^ (64 - n)) this
    rw [Nat.add_mul, ← split] at this
    omega
  refine BitVec.eq_of_toNat_eq ?_
  rw [shiftWord, BitVec.toNat_rotateRight, Nat.mod_eq_of_lt h, high, Nat.shiftRight_eq_div_pow, BitVec.toNat_ofNat, Nat.mod_eq_of_lt sum,
    Nat.or_comm, ← Nat.shiftLeft_add_eq_or_of_lt low, Nat.shiftLeft_eq, Nat.add_comm]

/-! ### Compares, constants and bit fields (R48, R103) -/

theorem condHolds_eq_holds (cd : Cond) (x y : W64) : condHolds cd x y = holds cd x y := by
  cases cd with
  | eq => simp [condHolds, holds, Bool.beq_eq_decide_eq, BitVec.toNat_inj]
  | ne => simp [condHolds, holds, bne, Bool.beq_eq_decide_eq, BitVec.toNat_inj]
  | lt => rfl
  | ge => rfl
  | ltu => rfl
  | geu => rfl

theorem extractField_signed (x : W64) (pos len1 : Nat) : extractField x pos (len1 + 1) true =
    BitVec.ofInt 64 (if 2 ^ len1 ≤ x.toNat / 2 ^ pos % 2 ^ (len1 + 1) then
      ((x.toNat / 2 ^ pos % 2 ^ (len1 + 1) : Nat) : Int) - 2 ^ (len1 + 1) else (x.toNat / 2 ^ pos % 2 ^ (len1 + 1) : Nat)) := by
  simp [extractField, sext64, signed, field, bits, w64]

/-- A field is replaced between the bits above and below it. -/
theorem insertField_eq (d a : W64) (pos len : Nat) : insertField d a pos len = BitVec.ofNat 64
    (d.toNat / 2 ^ (pos + len) * 2 ^ (pos + len) + a.toNat % 2 ^ len * 2 ^ pos + d.toNat % 2 ^ pos) := by
  have parts : d.toNat = d.toNat / 2 ^ (pos + len) * 2 ^ (pos + len) + d.toNat / 2 ^ pos % 2 ^ len * 2 ^ pos + d.toNat % 2 ^ pos := by
    have above := Nat.div_add_mod' (d.toNat / 2 ^ pos) (2 ^ len)
    rw [Nat.div_div_eq_div_mul, ← Nat.pow_add] at above
    conv_lhs => rw [← Nat.div_add_mod' d.toNat (2 ^ pos), ← above, Nat.add_mul, Nat.mul_assoc, ← Nat.pow_add, Nat.add_comm len pos]
  simp only [insertField, field, bits, Nat.pow_zero, Nat.div_one]
  congr 1
  omega

end Sys2Proof.Machine
end

section
/-!
Scalar operations write the result of R102 and R103, with its latency and its DF bit (R96, R100).
-/
namespace Sys2Proof.Machine

open Sys2Proof.Claims

section

variable {s : State} {c : Cursor} {d a b : Reg} {lat : Nat} {x : W64}

theorem alu1_eq {f : W64 → W64} (h : Acts s c (sUses [d, a])) (hx : f (val s c a) = x) :
    alu1 f lat d a s = .next (s.put c lat (.scalar d.val x ([a].any fun r => (s.sr c r.val).df))) := by
  subst hx
  refine (slotOp_act h.1 h.2 _).trans ?_
  simp [val]

theorem alu2_eq {f : W64 → W64 → W64} (h : Acts s c (sUses [d, a, b])) (hx : f (val s c a) (val s c b) = x) :
    alu2 f lat d a b s = .next (s.put c lat (.scalar d.val x ([a, b].any fun r => (s.sr c r.val).df))) := by
  subst hx
  refine (slotOp_act h.1 h.2 _).trans ?_
  simp [val]

theorem aluConst_eq (h : Acts s c (sUses [d])) : aluConst x d s = .next (s.put c 1 (.scalar d.val x false)) :=
  slotOp_act h.1 h.2 _

end

/-- Settles O1: each operation by its value. -/
theorem scalarArithmeticResults : Obligations.ScalarArithmeticResults := by
  intro i s c d rs x lat _ hi h
  unfold arithmetic at hi
  simp only at hi
  split at hi <;> cases hi
  case h_1 => show execAdd _ _ _ s = _; exact alu2_eq h (add_eq_ofNat _ _)
  case h_2 => show execSub _ _ _ s = _; exact alu2_eq h (sub_eq_ofInt _ _)
  case h_3 => show execAddi _ _ _ s = _; exact alu1_eq h (add_signExtend_eq_ofInt _ _)
  case h_4 => show execMul _ _ _ s = _; exact alu2_eq h (mul_eq_ofNat _ _)
  case h_5 => show execMulh _ _ _ _ s = _; exact alu2_eq h rfl
  case h_6 => show execMulh _ _ _ _ s = _; exact alu2_eq h (mulHigh_uu _ _)
  case h_7 => show execMulh _ _ _ _ s = _; exact alu2_eq h rfl
  case h_8 => show execDiv _ _ _ _ s = _; exact alu2_eq h (divWord_unsigned _ _)
  case h_9 => show execDiv _ _ _ _ s = _; exact alu2_eq h (divWord_signed _ _)
  case h_10 => show execRem _ _ _ _ s = _; exact alu2_eq h (remWord_unsigned _ _)
  case h_11 => show execRem _ _ _ _ s = _; exact alu2_eq h (remWord_signed _ _)
  case h_12 => show execMin _ _ _ _ s = _; exact alu2_eq h (minWord_unsigned _ _)
  case h_13 => show execMin _ _ _ _ s = _; exact alu2_eq h (minWord_signed _ _)
  case h_14 => show execMax _ _ _ _ s = _; exact alu2_eq h (maxWord_unsigned _ _)
  case h_15 => show execMax _ _ _ _ s = _; exact alu2_eq h (maxWord_signed _ _)
  case h_16 => show execClz _ _ s = _; exact alu1_eq h (congrArg (BitVec.ofNat 64) (leadingZeros_eq (val s c _).isLt))
  case h_17 => show execPopc _ _ s = _; exact alu1_eq h (congrArg (BitVec.ofNat 64) (oneBits_eq 64 _))

theorem shiftAmount_eq (y : W64) : field y 0 6 = y.toNat % 64 := by simp [field, bits]

theorem scalarResult_logic : ScalarResult logic := by
  intro i s c d rs x lat _ hi h
  unfold logic at hi
  simp only at hi
  split at hi <;> cases hi
  case h_1 => show execAnd _ _ _ s = _; exact alu2_eq h (and_eq_ofNat _ _)
  case h_2 => show execOr _ _ _ s = _; exact alu2_eq h (or_eq_ofNat _ _)
  case h_3 => show execXor _ _ _ s = _; exact alu2_eq h (xor_eq_ofNat _ _)
  case h_4 => show execAndi _ _ _ s = _; exact alu1_eq h rfl
  case h_5 => show execOri _ _ _ s = _; exact alu1_eq h rfl
  case h_6 => show execXori _ _ _ s = _; exact alu1_eq h rfl
  case h_7 => show execSll _ _ _ s = _; exact alu2_eq h (by rw [shiftAmount_eq, shiftWord_left])
  case h_8 => show execSrl _ _ _ s = _; exact alu2_eq h (by rw [shiftAmount_eq, shiftWord_right])
  case h_9 => show execSra _ _ _ s = _; exact alu2_eq h (by rw [shiftAmount_eq, shiftWord_arith])
  case h_10 => show execShi _ _ _ _ s = _; exact alu1_eq h (shiftWord_left _ _)
  case h_11 => show execShi _ _ _ _ s = _; exact alu1_eq h (shiftWord_right _ _)
  case h_12 => show execShi _ _ _ _ s = _; exact alu1_eq h (shiftWord_arith _ _)
  case h_13 n _ => show execShi _ _ _ _ s = _; exact alu1_eq h (shiftWord_rotate _ n.isLt)

theorem boolWord_condHolds (cd : Cond) (x y : W64) : boolWord (condHolds cd x y) = if holds cd x y then 1 else 0 := by
  rw [condHolds_eq_holds, boolWord]

theorem scalarResult_selection : ScalarResult selection := by
  intro i s c d rs x lat _ hi h
  unfold selection at hi
  simp only at hi
  split at hi <;> cases hi
  case h_1 => show execCmp _ _ _ _ s = _; exact alu2_eq h (boolWord_condHolds _ _ _)
  case h_2 => show execCmpi _ _ _ _ s = _; exact alu1_eq h (boolWord_condHolds _ _ _)
  case h_3 => show execCmpiExt _ _ _ _ s = _; exact alu1_eq h (boolWord_condHolds _ _ _)
  case h_4 a b k _ =>
    refine (slotOp_act h.1 h.2 _).trans ?_
    have pick : (if (s.sr c k.val).val ≠ 0 then (s.sr c a.val).val else (s.sr c b.val).val) =
        if val s c k = 0 then val s c b else val s c a := ite_not ..
    rw [← pick]
    simp only [List.any_cons, List.any_nil, Bool.or_false, Bool.or_assoc]
  case h_5 => exact aluConst_eq h
  case h_6 => exact aluConst_eq h
  case h_7 => show execBfx _ _ _ _ _ s = _; exact alu1_eq h rfl
  case h_8 => show execBfx _ _ _ _ _ s = _; exact alu1_eq h (extractField_signed _ _ _)
  case h_9 =>
    refine (slotOp_act h.1 (fun u hu => h.2 u (List.mem_append_left [.s d.val] hu)) _).trans ?_
    simp only [insertField_eq, val, List.any_cons, List.any_nil, Bool.or_false]
  case h_10 => show execStag _ _ _ s = _; exact alu1_eq h (by simp [field, bits, val])

/-- Settles O2. -/
theorem scalarLogicAndSelectionResults : Obligations.ScalarLogicAndSelectionResults := ⟨scalarResult_logic, scalarResult_selection⟩

end Sys2Proof.Machine
end

section
/-!
Control transfers: the target's checks, and what each transfer does besides (R104, R110).
-/
namespace Sys2Proof.Machine

open Sys2Proof.Claims

@[simp] theorem State.pc_goto (s : State) (c : Cursor) (n : Nat) : ((s.goto c n).core c.core).pc = n := by
  show ((s.modCore c.core fun k => { k with pc := n }).core c.core).pc = n
  rw [State.core_modCore]

theorem testBit_eq_bits (x n : Nat) : x.testBit n = (bits x n 1 == 1) := Nat.testBit_eq_decide_div_mod_eq

theorem not_testBit_eq_bits (x n : Nat) : (!x.testBit n) = (bits x n 1 == 0) := by
  obtain h | h := Nat.mod_two_eq_zero_or_one (x / 2 ^ n)
  · simp [testBit_eq_bits, bits, h]
  · simp [testBit_eq_bits, bits, h]

theorem TokState.bit_eq_stateBit (st : TokState) : st.bit = stateBit st := by cases st <;> rfl

/-- What R104 and R110 say of a transfer to `target` at the cursor, its sources `rs` and `t` what it leaves besides the pc. -/
structure Transfers (s t : State) (c : Cursor) (rs : List Reg) (target : Int) (r : Res) : Prop where
  goes : (s.core c.core).inLoop = false → Clean s c rs → 0 ≤ target → target ≤ 16383 →
    r = .next (t.goto c target.toNat) ∧ ((t.goto c target.toNat).core c.core).pc = target.toNat
  inLoop : (s.core c.core).inLoop = true → r = .next (trapped s c .loopControl (slotTval c 1))
  deferred : ∀ x, (s.core c.core).inLoop = false → rs.find? (fun r => (s.sr c r.val).df) = some x →
    r = .next (trapped s c .dfConsumed (dfTval c x.val false 0))
  bad : (s.core c.core).inLoop = false → Clean s c rs → (target < 0 ∨ 16383 < target) →
    r = .next (trapped s c .addressSpace (BitVec.ofInt 64 target))

theorem transferTo_good {s : State} {c : Cursor} {target : Int} (h : 0 ≤ target ∧ target ≤ 16383) (after : State → State) :
    transferTo s c target after = .next ((after s).goto c target.toNat) := if_pos h

theorem transferTo_bad {s : State} {c : Cursor} {target : Int} (h : target < 0 ∨ 16383 < target) (after : State → State) :
    transferTo s c target after = .next (trapped s c .addressSpace (BitVec.ofInt 64 target)) := if_neg (by omega)

/-- The checks of a transfer come in the order of R110: the loop, the sources, the target. -/
theorem transfers_of_checks (s : State) (c : Cursor) (rs : List Reg) (target : Int) (after : State → State) :
    Transfers s (after s) c rs target
      (outsideLoop s c fun _ => withClean s c rs fun _ => transferTo s c target after) where
  goes hl hc h0 h1 := by
    rw [outsideLoop, if_neg (by simp [hl]), withClean_pass hc, transferTo_good ⟨h0, h1⟩]
    exact ⟨rfl, State.pc_goto ..⟩
  inLoop hl := by
    rw [outsideLoop, if_pos hl]
    rfl
  deferred x hl hx := by
    rw [outsideLoop, if_neg (by simp [hl]), withClean, hx]
    rfl
  bad hl hc ht := by rw [outsideLoop, if_neg (by simp [hl]), withClean_pass hc, transferTo_bad ht]

section

variable {s : State} {c : Cursor} {us : List Use} {rs : List Reg} (h : Acts s c us)
include h

theorem transfers_branchOn {taken : State → Cursor → Bool} {b : Bool} (hb : taken s c = b) (after : State → Cursor → State) (off : BitVec 32) :
    Transfers s (after s c) c rs (if b then (c.pc : Int) + off.toInt else (c.pc : Int) + c.len) (branchOn us rs taken after off s) := by
  subst hb
  have := transfers_of_checks s c rs (if taken s c then (c.pc : Int) + off.toInt else (c.after : Int)) fun s => after s c
  rw [branchOn, slotOp_act h.1 h.2]
  exact this

end

/-- Each transfer makes the checks of R104 and R110. -/
theorem transfers_exec {i : Instr} {s t : State} {c : Cursor} {us : List Use} {rs : List Reg} {target : Int}
    (hi : transfer i s c = some (us, rs, target, t)) (h : Acts s c us) : Transfers s t c rs target (exec i s) := by
  unfold transfer at hi
  split at hi <;> cases hi
  case h_1 a b cd off =>
    show Transfers s s c _ _ (execBr a b cd off s)
    exact transfers_branchOn h (condHolds_eq_holds cd (val s c a) (val s c b)) noEffect off
  case h_2 a imm cd off =>
    show Transfers s s c _ _ (execBri a imm cd off s)
    exact transfers_branchOn h (condHolds_eq_holds cd (val s c a) (imm.signExtend 64)) noEffect off
  case h_3 off =>
    show Transfers s s c _ _ (execJ off s)
    exact transfers_branchOn h (b := true) rfl noEffect off
  case h_4 d off =>
    show Transfers s _ c _ _ (execJal d off s)
    exact transfers_branchOn h (b := true) rfl (fun s c => s.put c 1 (.scalar d.val (BitVec.ofNat 64 c.after) false)) off
  case h_5 a =>
    show Transfers s s c _ _ (execJr a s)
    rw [show execJr a s = _ from slotOp_act h.1 h.2 _]
    exact transfers_of_checks s c [a] (val s c a).toNat id
  case h_6 tok set off =>
    show Transfers s _ c _ _ (execBtok tok set off s)
    refine transfers_branchOn h ?_ (fun s c => s.observe c tok.val) off
    rw [testBit_eq_bits, TokState.bit_eq_stateBit]
  case h_7 set off =>
    show Transfers s s c _ _ (execBempty set off s)
    refine transfers_branchOn h ?_ noEffect off
    simp only [not_testBit_eq_bits]
  case h_8 a off =>
    show Transfers s s c _ _ (execChk a off s)
    exact transfers_branchOn h (b := (s.sr c a.val).df) rfl noEffect off

/-- Settles O5. -/
theorem transfersSetThePcOrTrap : Obligations.TransfersSetThePcOrTrap := by
  unfold Obligations.TransfersSetThePcOrTrap
  intro i s t c us rs target hi h
  obtain ⟨goes, inLoop, deferred, bad⟩ := transfers_exec hi h
  exact ⟨goes, inLoop, deferred, bad⟩

end Sys2Proof.Machine
end

section
/-!
The loop sequencer: starting a level, its stride entries, leaving it, and the close of an iteration (R105, R107 to R109).
-/
namespace Sys2Proof.Machine

open Sys2Proof.Claims

/-! ### `loop`, `lstr` and `lbrk` -/

section

variable {s : State} {c : Cursor} {lv : Fin 8} {r : Reg}

theorem exec_loop (h : Acts s c (sUses [r])) (hl : lv.val = (s.core c.core).innermost + 1) (he : c.le = 0) (hc : Clean s c [r]) (n1 : Fin 64) :
    exec (.loop lv r n1) s =
      if val s c r = 0 then .next (s.goto c (skipBundles (s.core c.core).fetch (n1.val + 1) (c.pc + c.len)))
      else .next ((s.modCore c.core fun k => k.setLevel lv.val
        { active := true, count := val s c r, iter := 0, start := c.pc + c.len, len := n1.val + 1 }).goto c (c.pc + c.len)) := by
  refine (slotOp_act h.1 h.2 _).trans ?_
  simp only
  rw [if_neg (by simp [hl, he]), withClean_pass hc]
  rfl

theorem exec_lstr (h : Acts s c (sUses [r])) (j : Fin 4) (stride : BitVec 32) : exec (.lstr lv j r stride) s =
    .next (s.modCore c.core fun k => { k with strides := kset ⟨0, 0⟩ k.strides ((lv.val - 1) * 4 + j.val) ⟨r.val, stride⟩ }) :=
  slotOp_act h.1 h.2 _

theorem exec_lbrk {u : Bool} (h : Acts s c (sUses [r])) (ha : ((s.core c.core).level lv.val).active = true) (hc : u = false → Clean s c [r]) :
    exec (.lbrk lv r u) s =
      if u = true ∨ val s c r ≠ 0 then .next ((s.modCore c.core fun k => k.leaveLoops lv.val).goto c
        (skipBundles (s.core c.core).fetch ((s.core c.core).level lv.val).len ((s.core c.core).level lv.val).start))
      else .next s := by
  refine (slotOp_act h.1 h.2 _).trans ?_
  simp only
  have clean : ∀ x ∈ (if u then [] else [r]), (s.sr c x.val).df = false := by
    cases u with
    | true => exact nofun
    | false => exact hc rfl
  rw [if_neg (by simp [ha]), withClean_pass clean]
  have leaves : (u || decide ((s.sr c r.val).val ≠ 0)) = true ↔ u = true ∨ val s c r ≠ 0 := by simp [val]
  by_cases h : u = true ∨ val s c r ≠ 0
  · exact (if_pos (leaves.mpr h)).trans (if_pos h).symm
  · exact (if_neg fun g => h (leaves.mp g)).trans (if_neg h).symm

end

/-! ### The stride adds of a close (R107) -/

theorem Core.writes_addStride (k : Core) {reg : Nat} (h : reg ≠ 0) (x : W32) :
    (k.addStride reg x).writes = k.writes.filter fun w => !writesScalar reg w := by
  simp only [Core.addStride, h, if_false]
  refine List.filter_congr fun w _ => ?_
  unfold writesScalar
  cases w.wr with
  | scalar q v df => simp [beq_eq_decide]
  | vector | mask | mstack | csr | flags => rfl

theorem writesScalar_of_ne {w : HeldWrite} {reg q : Nat} (h : q ≠ reg) (hw : writesScalar reg w = true) : writesScalar q w = false := by
  unfold writesScalar at hw ⊢
  cases hwr : w.wr with
  | scalar r v df =>
    have : r = reg := by simpa [hwr] using hw
    simp [this, h.symm]
  | vector | mask | mstack | csr | flags => rfl

theorem foldl_scalarAfter_filter {reg q : Nat} (h : q ≠ reg) (see : HeldWrite → Bool) (ws : List HeldWrite) (x : SReg) :
    (ws.filter fun w => !writesScalar reg w).foldl (HeldWrite.scalarAfter see q) x = ws.foldl (HeldWrite.scalarAfter see q) x := by
  induction ws generalizing x with
  | nil => rfl
  | cons w ws ih =>
    cases hw : writesScalar reg w with
    | false => rw [List.filter_cons_of_pos (by simp [hw]), List.foldl_cons, List.foldl_cons, ih]
    | true =>
      rw [List.filter_cons_of_neg (by simp [hw]), List.foldl_cons, HeldWrite.scalarAfter_of_other (writesScalar_of_ne h hw), ih]

theorem Core.sregs_addStride (k : Core) {reg : Nat} (h : reg ≠ 0) (x : W32) :
    (k.addStride reg x).sregs = kset ⟨0, false⟩ k.sregs reg
      ⟨(k.sread (fun _ => true) reg).val + x.signExtend 64, (k.sread (fun _ => true) reg).df⟩ := by
  simp only [Core.addStride, h, if_false]

/-- A stride add changes its register by its stride, for every reader. -/
theorem Core.sread_addStride_same (k : Core) {reg : Nat} (h : reg ≠ 0) (x : W32) (see : HeldWrite → Bool) : (k.addStride reg x).sread see reg =
    ⟨(k.sread (fun _ => true) reg).val + x.signExtend 64, (k.sread (fun _ => true) reg).df⟩ := by
  rw [Core.sread_eq_foldl _ _ h]
  rw [Core.writes_addStride k h, foldl_scalarAfter_of_others fun w hw => by simpa using (List.mem_filter.mp hw).2]
  simp [Core.sbase, Core.sregs_addStride k h, kget_kset]

theorem Core.sread_addStride_other (k : Core) {reg q : Nat} (h : q ≠ reg) (x : W32) (see : HeldWrite → Bool) :
    (k.addStride reg x).sread see q = k.sread see q := by
  by_cases hr : reg = 0
  · simp [Core.addStride, hr]
  by_cases hq : q = 0
  · rw [hq, Core.sread_zero, Core.sread_zero]
  rw [Core.sread_eq_foldl _ _ hq, Core.sread_eq_foldl _ _ hq]
  rw [Core.writes_addStride k hr, foldl_scalarAfter_filter h]
  simp [Core.sbase, Core.sregs_addStride k hr, kget_kset, h]

/-- What the entries of a level leave of a core, apart from registers and the adds that wait. -/
theorem Core.closeStride_frame (k : Core) (e : Stride) :
    k.closeStride e = { k with writes := (k.closeStride e).writes, sregs := (k.closeStride e).sregs, due := (k.closeStride e).due } := by
  unfold Core.closeStride Core.addStride
  split
  · rfl
  · split <;> rfl

theorem Core.writing_closeStride (k : Core) (e : Stride) (r : Nat) : (k.closeStride e).writing r = k.writing r := by
  rw [Core.closeStride_frame]
  rfl

theorem Core.due_addStride (k : Core) (reg : Nat) (x : W32) : (k.addStride reg x).due = k.due := by
  unfold Core.addStride
  split <;> rfl

theorem Core.due_closeStride (k : Core) (e : Stride) :
    (k.closeStride e).due = k.due ++ if k.writing e.reg then [(e.reg, e.stride)] else [] := by
  unfold Core.closeStride
  split
  · rfl
  · rw [Core.due_addStride, List.append_nil]

theorem Core.sread_closeStride_other (k : Core) {e : Stride} {r : Nat} (h : e.reg = r → k.writing r = true) (see : HeldWrite → Bool) :
    (k.closeStride e).sread see r = k.sread see r := by
  unfold Core.closeStride
  split
  · rfl
  · next hw =>
    refine k.sread_addStride_other (fun hr => ?_) _ see
    rw [hr] at h
    exact hw (h rfl)

theorem Core.sread_closeStride_same (k : Core) {e : Stride} (h : e.reg ≠ 0) (hw : k.writing e.reg = false) (see : HeldWrite → Bool) :
    (k.closeStride e).sread see e.reg =
      ⟨(k.sread (fun _ => true) e.reg).val + e.stride.signExtend 64, (k.sread (fun _ => true) e.reg).df⟩ := by
  rw [Core.closeStride, if_neg (by simp [hw])]
  exact k.sread_addStride_same h e.stride see

theorem Core.closeStrides_frame (es : List Stride) (k : Core) :
    es.foldl Core.closeStride k = { k with
      writes := (es.foldl Core.closeStride k).writes, sregs := (es.foldl Core.closeStride k).sregs
      due := (es.foldl Core.closeStride k).due } := by
  refine List.foldlRecOn es _ (motive := fun k' : Core => k' = { k with writes := k'.writes, sregs := k'.sregs, due := k'.due }) rfl
    fun k' hk e _ => ?_
  rw [Core.closeStride_frame]
  exact hk ▸ rfl

theorem Core.due_closeStrides (es : List Stride) (k : Core) : (es.foldl Core.closeStride k).due =
    k.due ++ (es.filter fun e => k.writing e.reg).map fun e => (e.reg, e.stride) := by
  induction es generalizing k with
  | nil => simp
  | cons e es ih =>
    rw [List.foldl_cons, ih, Core.due_closeStride, List.filter_cons, List.append_assoc]
    simp only [Core.writing_closeStride]
    split <;> rfl

theorem Core.sread_closeStrides_other {es : List Stride} {k : Core} {r : Nat} (h : ∀ e ∈ es, e.reg = r → k.writing r = true)
    (see : HeldWrite → Bool) : (es.foldl Core.closeStride k).sread see r = k.sread see r := by
  induction es generalizing k with
  | nil => rfl
  | cons e es ih =>
    obtain ⟨he, hes⟩ := List.forall_mem_cons.mp h
    rw [List.foldl_cons, ih fun x hx hr => by rw [Core.writing_closeStride]; exact hes x hx hr, k.sread_closeStride_other he]

/-- A register that is not still to be written gets every stride of the entries that name it. -/
theorem Core.sread_closeStrides_same {es : List Stride} {k : Core} {r : Nat} (h0 : r ≠ 0) (hw : k.writing r = false)
    (h : ∃ e ∈ es, e.reg = r) (see : HeldWrite → Bool) : (es.foldl Core.closeStride k).sread see r =
      ⟨strided es r (k.sread (fun _ => true) r).val, (k.sread (fun _ => true) r).df⟩ := by
  induction es generalizing k with
  | nil => obtain ⟨e, he, -⟩ := h; exact absurd he nofun
  | cons e es ih =>
    have hw' : (k.closeStride e).writing r = false := by rw [Core.writing_closeStride, hw]
    by_cases he : e.reg = r
    · subst he
      have now := k.sread_closeStride_same h0 hw
      have add (x : W64) : strided (e :: es) e.reg x = strided es e.reg (x + e.stride.signExtend 64) := by simp [strided]
      rw [List.foldl_cons, add]
      by_cases hes : ∃ e' ∈ es, e'.reg = e.reg
      · rw [ih hw' hes, now]
      · have none_ : ∀ e' ∈ es, e'.reg ≠ e.reg := fun e' he' hr => hes ⟨e', he', hr⟩
        rw [Core.sread_closeStrides_other fun e' he' hr => absurd hr (none_ e' he'), now]
        have : es.filter (fun x => x.reg == e.reg) = [] := List.filter_eq_nil_iff.mpr fun e' he' => by simpa using none_ e' he'
        simp [strided, this]
    · have hes : ∃ e' ∈ es, e'.reg = r := by
        obtain ⟨e', he', hr⟩ := h
        exact ⟨e', (List.mem_cons.mp he').resolve_left (by rintro rfl; exact he hr), hr⟩
      have add (x : W64) : strided (e :: es) r x = strided es r x := by simp [strided, he]
      rw [List.foldl_cons, ih hw' hes, add, k.sread_closeStride_other fun hr => absurd hr he]

/-! ### The close of an iteration (R107) -/

theorem Core.level_setLevel (k : Core) (lv : Nat) (l : LoopLevel) : (k.setLevel lv l).level lv = l := by
  simp [Core.setLevel, Core.level, kget_kset]

theorem exec_loopIterationClose {s : State} {core : Nat} (h : (s.core core).slips = []) :
    exec (.loopIterationClose core) s = .next (s.modCore core Core.atBoundary) := if_pos (by simp [h])

theorem exec_loopIterationClose_lags {s : State} {core : Nat} (h : (s.core core).slips ≠ []) :
    exec (.loopIterationClose core) s = .next s := if_neg (by simp [h])

/-- The close of an iteration: the stride adds, then the next iteration or the end of the level. -/
theorem Core.closeLoop_eq (k : Core) (lv after : Nat) :
    let l := k.level lv
    let k1 := (strideEntries k lv).foldl Core.closeStride k
    k.closeLoop lv after = if l.iter + 1 < l.count then { k1.setLevel lv { l with iter := l.iter + 1 } with pc := l.start, closing := none }
      else { k1.setLevel lv { l with iter := l.iter + 1, active := false } with pc := after, closing := none } := by
  have level : ((strideEntries k lv).foldl Core.closeStride k).level lv = k.level lv := by
    rw [Core.closeStrides_frame]
    rfl
  intro l k1
  rw [Core.closeLoop, Core.addStrides_eq_foldl]
  simp only [level]
  rfl

/-- Settles O7. -/
theorem loopsStartIterateAndEnd : Obligations.LoopsStartIterateAndEnd := by
  unfold Obligations.LoopsStartIterateAndEnd
  refine ⟨fun s c lv r n1 h hl he hc => ⟨fun hv => ?_, fun hv => ?_⟩, fun s c lv j x stride h => ⟨_, exec_lstr h j stride, ?_⟩,
    fun s c lv a u h ha hc => ⟨fun hv => ?_, fun hu hv => ?_⟩, ?_⟩
  · rw [exec_loop h hl he hc, if_neg hv]
  · rw [exec_loop h hl he hc, if_pos hv]
  · rw [State.core_modCore, kget_kset, if_pos rfl]
  · rw [exec_lbrk h ha hc, if_pos hv]
  · rw [exec_lbrk h ha hc, if_neg (by simp [hu, hv])]
  · intro s core lv after l
    refine ⟨exec_loopIterationClose_lags, ?_⟩
    intro es hcl hsl
    have named : ∀ e ∈ es, e.reg ≠ 0 := fun e he => by simpa using (List.mem_filter.mp he).2
    have closes : ((s.modCore core Core.atBoundary).core core) = (s.core core).closeLoop lv after := by
      rw [State.core_modCore, Core.atBoundary, hcl]
    refine ⟨_, exec_loopIterationClose hsl, ?_⟩
    rw [closes, Core.closeLoop_eq]
    have due := Core.due_closeStrides es (s.core core)
    have other (r : Nat) (see : HeldWrite → Bool) (h : ∀ e ∈ es, e.reg = r → (s.core core).writing r = true) :=
      Core.sread_closeStrides_other h see
    have same (r : Nat) (see : HeldWrite → Bool) (h : ∃ e ∈ es, e.reg = r) (hw : (s.core core).writing r = false) :=
      Core.sread_closeStrides_same (h.elim fun e he => he.2 ▸ named e he.1) hw h see
    split
    · next hn => exact ⟨rfl, due, fun r see h => other r see h, fun r see h hw => same r see h hw,
        fun _ => ⟨rfl, Core.level_setLevel ..⟩, fun h => absurd hn h⟩
    · next hn => exact ⟨rfl, due, fun r see h => other r see h, fun r see h hw => same r see h hw,
        fun h => absurd h hn, fun _ => ⟨rfl, Core.level_setLevel ..⟩⟩

end Sys2Proof.Machine
end

section
/-!
The frame of the operations that only write registers (R94 to R98, R156).
-/
namespace Sys2Proof.Machine

open Sys2Proof.Claims

/-- Between two states only held writes of one core have been added. -/
def OnlyHeldWrites (core : Nat) (s t : State) : Prop :=
  t = { s with cores := t.cores } ∧ (∀ j, j ≠ core → t.core j = s.core j) ∧
    ∃ ws, t.core core = { s.core core with writes := ws } ∧ ∀ w ∈ (s.core core).writes, w ∈ ws

/-- An outcome that neither traps nor moves the cursor has only added held writes of the cursor's core. -/
def Framed (s : State) (c : Cursor) (r : Res) : Prop :=
  ∀ t, r = .next t → t.cur = some c → OnlyHeldWrites c.core s t

/-! ### The relation -/

namespace OnlyHeldWrites

variable {core : Nat} {s t u : State}

theorem refl : OnlyHeldWrites core s s := ⟨rfl, fun _ _ => rfl, _, rfl, fun _ h => h⟩

theorem trans (h : OnlyHeldWrites core s t) (g : OnlyHeldWrites core t u) : OnlyHeldWrites core s u := by
  obtain ⟨ht, hto, ws, htc, hws⟩ := h
  obtain ⟨hu, huo, vs, huc, hvs⟩ := g
  refine ⟨?_, fun j hj => (huo j hj).trans (hto j hj), vs, ?_, fun w hw => hvs w ?_⟩
  · rw [ht] at hu
    exact hu
  · rw [huc, htc]
  · rw [htc]
    exact hws w hw

/-- Every byte reads as before: memory and the typed buffers stand outside the held writes. -/
theorem sameByte (h : OnlyHeldWrites core s t) (p : Place) : SameByte s t p := by
  obtain ⟨ht, hto, ws, htc, -⟩ := h
  cases p with
  | buf i b off =>
    have buf : (t.core i).buf b = (s.core i).buf b := by
      by_cases hi : i = core
      · subst hi
        rw [htc]
        cases b <;> rfl
      · rw [hto i hi]
    exact congrArg (mread · off 1) buf
  | phys a =>
    show t.ms.read a 1 = s.ms.read a 1
    rw [ht]
  | far => rfl

end OnlyHeldWrites

theorem State.put_onlyHeldWrites (s : State) (c : Cursor) (lat : Nat) (w : WriteTo) : OnlyHeldWrites c.core s (s.put c lat w) := by
  unfold State.put
  split
  · exact .refl
  · refine ⟨rfl, fun j hj => State.core_modCore_other _ _ hj, _, State.core_modCore .., fun e he => mem_insertHeld_of_mem he⟩

theorem State.puts_onlyHeldWrites (c : Cursor) (lat : Nat) (ws : List WriteTo) (s : State) : OnlyHeldWrites c.core s (s.puts c lat ws) := by
  induction ws generalizing s with
  | nil => exact .refl
  | cons w ws ih => exact (s.put_onlyHeldWrites c lat w).trans (ih _)

theorem State.flag_onlyHeldWrites (s : State) (c : Cursor) (lat : Nat) (b : W64) : OnlyHeldWrites c.core s (s.flag c lat b) := by
  unfold State.flag
  split
  · exact .refl
  · exact s.put_onlyHeldWrites c lat _

/-! ### The frame of the shared parts of operations -/

theorem framed_next {s t : State} {c : Cursor} (h : OnlyHeldWrites c.core s t) : Framed s c (.next t) := by
  intro u hu _
  cases hu
  exact h

theorem framed_put (s : State) (c : Cursor) (lat : Nat) (w : WriteTo) : Framed s c (.next (s.put c lat w)) :=
  framed_next (s.put_onlyHeldWrites c lat w)

theorem framed_puts (s : State) (c : Cursor) (lat : Nat) (ws : List WriteTo) : Framed s c (.next (s.puts c lat ws)) :=
  framed_next (State.puts_onlyHeldWrites c lat ws s)

/-- A trap marks the cursor. -/
theorem framed_takeTrap {c : Cursor} (h : c.trapped = none) (s : State) (cause : Cause) (tval : W64) :
    Framed s c (takeTrap s c cause tval) := by
  intro t ht hc
  cases ht
  have marked : ({ c with trapped := some { cause := cause, tval := tval, slot := c.slot.index, async := false } } : Cursor) = c :=
    Option.some.inj hc
  rw [← marked] at h
  exact absurd h nofun

section

variable {s : State} {c : Cursor} (hs : s.cur = some c) (h : c.trapped = none)

include hs h in
theorem framed_slotOp {f : Cursor → Res} (hf : Framed s c (f c)) (us : List Use) : Framed s c (slotOp s us f) := by
  simp only [slotOp, hs, withUses]
  split
  · exact framed_takeTrap h s _ _
  · exact hf

include h in
theorem framed_withCleanV {f : Unit → Res} (hf : Framed s c (f ())) (rs : List Reg) : Framed s c (withCleanV s c rs f) := by
  simp only [withCleanV]
  split
  · exact framed_takeTrap h s _ _
  · exact hf

include h in
theorem framed_withNf {f : Nat → Res} (hf : ∀ w, Framed s c (f w)) (d i : Nat) : Framed s c (withNf s c d i f) := by
  unfold withNf
  split
  · split
    · exact hf _
    · exact framed_takeTrap h s _ _
  · exact framed_takeTrap h s _ _

include h in
theorem framed_csrAccess {f : Unit → Res} (hf : Framed s c (f ())) (n : Nat) (w : Bool) : Framed s c (csrAccess s c n w f) := by
  unfold csrAccess
  split
  · exact framed_takeTrap h s _ _
  · split
    · exact framed_takeTrap h s _ _
    · exact hf

theorem framed_vframe (s : State) (c : Cursor) (lat vd : Nat) (src : Nat → Bool) (op : Nat → Nat → W32 × FlagSet) :
    Framed s c (vframe s c lat vd src op) :=
  framed_next ((State.puts_onlyHeldWrites c lat _ s).trans (State.flag_onlyHeldWrites ..))

include hs h

/-! ### The operations -/

theorem framed_vext (sd va : Reg) (lane : Fin 16) (sgn : Bool) : Framed s c (execVext sd va lane sgn s) := by
  refine framed_slotOp hs h ?_ _
  split <;> exact framed_put s c _ _

theorem framed_mpush (k : KReg) : Framed s c (execMpush k s) := by
  refine framed_slotOp hs h ?_ _
  split
  · exact framed_takeTrap h s _ _
  · exact framed_puts s c _ _

theorem framed_minv : Framed s c (execMinv s) := by
  refine framed_slotOp hs h ?_ _
  split
  · exact framed_takeTrap h s _ _
  · exact framed_puts s c _ _

theorem framed_mpop : Framed s c (execMpop s) := by
  refine framed_slotOp hs h ?_ _
  split
  · exact framed_takeTrap h s _ _
  · exact framed_puts s c _ _

theorem framed_vred (sd va : Reg) (f : RedOp) : Framed s c (execVred sd va f s) :=
  framed_slotOp hs h (framed_next ((State.put_onlyHeldWrites ..).trans (State.flag_onlyHeldWrites ..))) _

theorem framed_registerOnly {i : Instr} (hi : registerOnly i = true) : Framed s c (exec i s) := by
  cases i with
  | add | sub | addi | mul | mulh | div | rem | and | or | xor | andi | ori | xori | sll | srl | sra | shi | min | max | clz | popc
  | cmp | cmpi | cmpiExt | sel | li | liExt | bfx | bfi | stag | vcm | fcm | mcm =>
    refine framed_slotOp hs h ?_ _
    exact framed_put s c _ _
  | nop => exact framed_next .refl
  | csrr =>
    refine framed_slotOp hs h (framed_csrAccess h ?_ _ _) _
    exact framed_put s c _ _
  | vadd | vsub | vmul | vmulh | vmin | vmax | vabs | vand | vor | vxor | vnot | vshl | vshr | vsra | vmov | vli | vliExt | viota
  | vbcast | vsel | vperm | vxc | vdot4 | vfadd | vfsub | vfmul | vfma | vfmin | vfmax | vcvt | vscan | vlgmul | vlgsum | fexp2
  | flog2 | frcp | frsqrt | fsqrt | ftanh | fsigm | fsin | fcos =>
    refine framed_slotOp hs h ?_ _
    exact framed_vframe s c _ _ _ _
  | vpack | vunpack =>
    refine framed_slotOp hs h (framed_withNf h (fun _ => ?_) _ _) _
    exact framed_vframe s c _ _ _ _
  | flut =>
    refine framed_slotOp hs h (framed_withCleanV h ?_ _) _
    exact framed_vframe s c _ _ _ _
  | vcmp | vfcmp =>
    refine framed_slotOp hs h (framed_withCleanV h ?_ _) _
    exact framed_puts s c _ _
  | kmov =>
    refine framed_slotOp hs h ?_ _
    exact framed_puts s c _ _
  | vext => exact framed_vext hs h _ _ _ _
  | mpush => exact framed_mpush hs h _
  | minv => exact framed_minv hs h
  | mpop => exact framed_mpop hs h
  | vred => exact framed_vred hs h _ _ _
  | _ => exact absurd hi Bool.false_ne_true

end

/-- Settles O51: register operations trap, which marks the cursor, or add their writes to the held ones. -/
theorem registerOperationsFrame : Obligations.RegisterOperationsFrame := by
  unfold Obligations.RegisterOperationsFrame
  intro i s t c hi hs h ht hc
  have frame := framed_registerOnly hs h hi t ht hc
  obtain ⟨rest, others, own⟩ := id frame
  exact ⟨rest, others, own, frame.sameByte⟩

end Sys2Proof.Machine
end

section
/-!
The waiting operations: blocked, behind the other classes, or at their observation (R308 to R317).
-/
namespace Sys2Proof.Machine

open Sys2Proof.Claims

/-! ### A wait of the A slot (R95) -/

theorem slipOr_eq_blockedBy (s : State) (c : Cursor) (h : Hold) (op : Slipped) : slipOr s c h op = .next (blockedBy s c h op) := by
  unfold slipOr blockedBy
  split <;> rfl

section

variable {s : State} {c : Cursor} {h : Hold} {op : Slipped} {f : Option State}

theorem waitOp_behind (hb : staysBehind s c = true) : waitOp s c h op f = .next (s.slip c op) := if_pos hb

theorem waitOp_blocked (hb : staysBehind s c = false) (hf : f = none) : waitOp s c h op f = .next (blockedBy s c h op) := by
  unfold waitOp
  rw [if_neg (by simp [hb]), hf]
  exact slipOr_eq_blockedBy s c h op

theorem waitOp_returns {t : State} (hb : staysBehind s c = false) (hf : f = some t) : waitOp s c h op f = .next t := by
  unfold waitOp
  rw [if_neg (by simp [hb]), hf]

end

/-! ### `fwait` (R309, R310) -/

section

variable {s : State} {c : Cursor} {f : Fin 32} (h : Acts s c [.flag f.val])
include h

theorem exec_fwait (clear : Bool) : exec (.fwait clear f) s =
    if (c.flag0 (s.core c.core) f.val).set = true then
      let t := s.modCore c.core fun k => k.raise (c.flag0 (s.core c.core) f.val).time
      .next (if clear = true then t.clearFlag c f.val else t)
    else .next (Claims.heldBy s c .fwait) :=
  slotOp_act h.1 h.2 _

end

theorem State.core_clearFlag (s : State) {c : Cursor} (h : c.sets = []) (f : Nat) :
    (s.clearFlag c f).core c.core = { s.core c.core with flags := kdel (s.core c.core).flags f } := by
  rw [State.clearFlag, State.core_modCore, h]
  rfl

theorem State.ltime_clearFlag (s : State) (c : Cursor) (f : Nat) :
    ((s.clearFlag c f).core c.core).ltime = (s.core c.core).ltime := by
  rw [State.clearFlag, State.core_modCore]
  rfl

/-! ### `twait` and `barw` (R308, R315) -/

theorem exec_twait {s : State} {c : Cursor} {d : Reg} {t : Tok} (h : Acts s c [.s d.val, .tok t.val]) : exec (.twait d t) s =
    waitOp s c .twait (.twait d.val (c.ref t.val)) ((c.ref t.val).st.map (s.endTwait c d.val t.val)) :=
  slotOp_act h.1 h.2 _

theorem Cursor.ref_st_of_pending {c : Cursor} {n : Nat} (h : (c.token n).state = .pending) : (c.ref n).st = none := if_pos h

theorem Cursor.ref_st {c : Cursor} {n : Nat} (h : (c.token n).state ≠ .pending) : (c.ref n).st = some (c.token n) := if_neg h

theorem exec_barw {s : State} {c : Cursor} {p : Reg} {b : Fin 16} (h : Acts s c [.s p.val, .bar b.val]) (hc : Clean s c [p]) :
    exec (.barw p b) s = waitOp s c .barw (.barw b.val ((val s c p).toNat % 2 ^ 32)) (s.endBarw c.core b.val ((val s c p).toNat % 2 ^ 32)) :=
  (slotOp_act h.1 h.2 _).trans (withClean_pass hc _)

theorem State.endBarw_same {s : State} {core b phase : Nat} (h : (kget Barrier.none (s.core core).barriers b).phase = phase) :
    s.endBarw core b phase = none := if_pos h

theorem State.endBarw_changed {s : State} {core b phase : Nat} (h : (kget Barrier.none (s.core core).barriers b).phase ≠ phase) :
    s.endBarw core b phase = some (s.modCore core fun k =>
      (k.raise (kget Barrier.none (s.core core).barriers b).doneT).seenPhase b (kget Barrier.none (s.core core).barriers b).phase) := if_neg h

/-! ### `vwait` (R317) -/

/-- The trap of a `vwait` on a version word at a place: no answer of its package, or no reading it. -/
def vwaitFails (s : State) : Place → Option Failed
  | .far k _ => if s.lost k then some (.remote, BitVec.ofNat 64 k) else none
  | .phys p => (s.ms.spoiltAt (.phys p) 8).map fun x => (.uncorrectable, BitVec.ofNat 64 x)
  | .buf i b off => (s.ms.spoiltAt (.buf i b off) 8).map fun x => (.uncorrectable, BitVec.ofNat 64 x)

section

variable {s : State} {c : Cursor} {a v : Reg} (h : Acts s c (sUses [a, v])) (hc : Clean s c [a, v])
  (htag : (val s c a).toNat / 2 ^ 60 = 0 ∨ (val s c a).toNat / 2 ^ 60 = 0xC)
  (hcheck : checkEach s c.core c.slot.index .slots .read [(val s c a, 8, 64)] = none) (hodd : s.oddPhys c.core 8 [val s c a] = none)
include h hc htag hcheck hodd

theorem exec_vwait {p : Place} (hp : (s.placeOf c.core .read (val s c a) 8).1 = p) : exec (.vwait a v) s =
    orTrap s c (vwaitFails s p) fun _ => waitOp s c .vwait (.vwait p ((val s c v).toNat % 2 ^ 48)) (s.endVwait c p ((val s c v).toNat % 2 ^ 48)) := by
  subst hp
  have tag : bits (s.sr c a.val).val.toNat 60 4 = 0 ∨ bits (s.sr c a.val).val.toNat 60 4 = 0xC := by
    rw [tag_eq]
    exact htag
  refine (slotOp_act h.1 h.2 _).trans ((withClean_pass hc _).trans ?_)
  simp only [versionCheck, versionTag, withAccess, onMemory]
  rw [if_pos tag, show checkEach s c.core c.slot.index .slots .read [((s.sr c a.val).val, 8, 64)] = none from hcheck]
  simp only
  rw [show s.oddPhys c.core 8 [(s.sr c a.val).val] = none from hodd]
  have version : field (s.sr c v.val).val 0 48 = (val s c v).toNat % 2 ^ 48 := by simp [field, bits, val]
  rw [version, show (s.placeOf c.core .read (s.sr c a.val).val 8).1 = (s.placeOf c.core .read (val s c a) 8).1 from rfl]
  generalize (s.placeOf c.core .read (val s c a) 8).1 = p
  cases p <;> rfl

/-- Where the word can be read, `vwait` waits for its version. -/
theorem exec_vwait_sound {p : Nat} (hp : (s.placeOf c.core .read (val s c a) 8).1 = .phys p) (hs : s.ms.spoiltAt (.phys p) 8 = none) :
    exec (.vwait a v) s =
      waitOp s c .vwait (.vwait (.phys p) ((val s c v).toNat % 2 ^ 48)) (s.endVwait c (.phys p) ((val s c v).toNat % 2 ^ 48)) := by
  rw [exec_vwait h hc htag hcheck hodd hp, vwaitFails, hs]
  rfl

end

theorem State.endVwait_reached {s : State} {c : Cursor} {p v : Nat} (h : v ≤ leNat (s.ms.read p 8) % 2 ^ 48) :
    s.endVwait c (.phys p) v = some (s.modCore c.core fun k => k.raise (s.ms.time (p / 64)).1) := if_pos h

theorem State.endVwait_waits {s : State} {c : Cursor} {p v : Nat} (h : leNat (s.ms.read p 8) % 2 ^ 48 < v) :
    s.endVwait c (.phys p) v = none := if_neg (Nat.not_le.mpr h)

/-- Settles O14. -/
theorem waitsObserve : Obligations.WaitsObserve := by
  unfold Obligations.WaitsObserve
  refine ⟨fun s c clear f h => ?_, fun s c d t h => ?_, fun s c p b h hc => ?_, fun s c a v k p h hc htag hcheck hodd hp hlost => ?_,
    fun s c a v p h hc htag hcheck hodd hp => ?_⟩
  · intro x
    refine ⟨fun hx => ?_, fun hx => ?_⟩
    · rw [exec_fwait h, if_neg (by simp [x, hx])]
    · rw [exec_fwait h, if_pos hx]
      cases clear with
      | true => exact ⟨_, rfl, by rw [if_pos rfl, State.ltime_clearFlag, State.core_modCore, Core.ltime_raise],
          fun _ hsets => by rw [if_pos rfl, State.core_clearFlag _ hsets]; simp [Core.flag, kget_kdel], nofun⟩
      | false => exact ⟨_, rfl, by rw [if_neg nofun, State.core_modCore, Core.ltime_raise], nofun,
          fun _ => by rw [if_neg nofun, State.core_modCore]; rfl⟩
  · intro back
    refine ⟨fun hb => ?_, fun hb hp => ?_, fun hb hp => ?_, fun r x hr hx => ?_⟩
    · rw [exec_twait h, waitOp_behind hb]
    · rw [exec_twait h, waitOp_blocked hb (by rw [Cursor.ref_st_of_pending hp]; rfl)]
    · rw [exec_twait h, waitOp_returns hb (by rw [Cursor.ref_st hp]; rfl)]
      rfl
    · simp only [State.takeSlip, hx, hr]
      rfl
  · intro x phase
    refine ⟨fun hb => ?_, fun hb hx => ?_, ?_⟩
    · rw [exec_barw h hc, waitOp_behind hb]
    · rw [exec_barw h hc, waitOp_blocked hb (State.endBarw_same hx)]
    · intro back
      refine ⟨fun hb hx => ⟨?_, ?_⟩, fun hx => State.endBarw_changed hx⟩
      · rw [exec_barw h hc, waitOp_returns hb (State.endBarw_changed hx)]
      · rw [State.core_modCore]
        exact Core.ltime_raise ..
  · rw [exec_vwait h hc htag hcheck hodd hp, vwaitFails, if_pos hlost]
    rfl
  · intro x now back sound
    have waits (hs : sound) := exec_vwait_sound h hc htag hcheck hodd hp hs
    refine ⟨fun q hq => ?_, fun hs hb => ?_, fun hs hb hx => ?_, fun hs hb hx => ?_, fun hx => State.endVwait_reached hx⟩
    · rw [exec_vwait h hc htag hcheck hodd hp, vwaitFails, hq]
      rfl
    · rw [waits hs, waitOp_behind hb]
    · rw [waits hs, waitOp_blocked hb (State.endVwait_waits hx)]
    · rw [waits hs, waitOp_returns hb (State.endVwait_reached hx)]

end Sys2Proof.Machine
end

section
/-!
The dispatch of engine operations: queue entries, token generations, full queues and busy tokens (R223, R304, R305).
-/
namespace Sys2Proof.Machine

open Sys2Proof.Claims

/-! ### Queues -/

theorem Core.queue_setQueue (k : Core) (q : Nat) (es : List EngEntry) : (k.setQueue q es).queue q = es := by
  unfold Core.setQueue Core.queue
  split
  · rfl
  · simp [kget_kset]

/-- Replacing a queue leaves everything of a core outside its queues. -/
theorem Core.setQueue_frame (k : Core) (q : Nat) (es : List EngEntry) :
    (k.setQueue q es).slips = k.slips ∧ (k.setQueue q es).tokens = k.tokens ∧ (k.setQueue q es).sregs = k.sregs ∧
      (k.setQueue q es).writes = k.writes := by
  unfold Core.setQueue
  split <;> exact ⟨rfl, rfl, rfl, rfl⟩

theorem Core.queueFull_iff (k : Core) (q : Nat) :
    k.queueFull q = true ↔ (if q = 0 then 32 else 16) + kget 0 k.extensions q ≤ (k.queue q).length := decide_eq_true_iff

/-! ### The generation that a dispatch makes (R304) -/

/-- The next generation of a token, pending. -/
def Token.next (t : Token) : Token := { state := .pending, cause := 0, gen := (t.gen + 1) % 65536, bytes := 0, t := 0, cycle := 0 }

/-- A core whose serial number has risen and whose token `n` has its next generation. -/
def Core.generation (k : Core) (n : Nat) : Core :=
  { k with serial := k.serial + 1, tokens := kput k.tokens n (kget Token.init k.tokens n).next }

theorem State.core_produce (s : State) {core n : Nat} (h : n ≠ 0) :
    ((s.modCore core fun k => { k with serial := k.serial + 1 }).produce core n).core core = (s.core core).generation n := by
  rw [State.produce, if_neg h, State.core_modCore, State.core_modCore]
  rfl

theorem State.core_produce_other (s : State) {core n j : Nat} (h : j ≠ core) :
    ((s.modCore core fun k => { k with serial := k.serial + 1 }).produce core n).core j = s.core j := by
  unfold State.produce
  split
  · exact State.core_modCore_other _ _ h
  · rw [State.core_modCore_other _ _ h, State.core_modCore_other _ _ h]

theorem State.produce_ms (s : State) (core n : Nat) : (s.produce core n).ms = s.ms := by
  unfold State.produce
  split <;> rfl

theorem Core.generation_token (k : Core) (n : Nat) : kget Token.init (k.generation n).tokens n = (kget Token.init k.tokens n).next := by
  simp [Core.generation]

theorem Core.generation_token_other (k : Core) {n m : Nat} (h : m ≠ n) :
    kget Token.init (k.generation n).tokens m = kget Token.init k.tokens m := by
  simp [Core.generation, kget_kput_other _ _ _ h]

/-! ### Entering a queue -/

/-- An entry with the time at which its bundle has filled records (R203). -/
def EngEntry.filled (e : EngEntry) (s : State) : EngEntry := { e with time := Nat.max e.time ((s.cur.map fun d => d.fill).getD 0) }

section

variable {s : State} {c : Cursor} {q : Nat} {e : EngEntry}

theorem State.core_enqueue_enters (h : e.prod ≠ 0) (hb : staysBehind s c = false) (hq : (s.core c.core).queueFull q = false) :
    (s.enqueue c q e).core c.core = ((s.core c.core).generation e.prod).setQueue q ((s.core c.core).queue q ++ [e.filled s]) := by
  simp only [State.enqueue, hb, hq, Bool.or_self, Bool.false_eq_true, if_false]
  rw [State.core_modCore, State.core_produce s h]
  rfl

theorem State.core_enqueue_behind (h : e.prod ≠ 0) (hb : staysBehind s c = true ∨ (s.core c.core).queueFull q = true) :
    (s.enqueue c q e).core c.core = { (s.core c.core).generation e.prod with
      slips := (s.core c.core).slips ++ [{ cls := c.slot.cls, cur := c, op := .enter q (e.filled s) }] } := by
  have : (staysBehind s c || (s.core c.core).queueFull q) = true := by simpa using hb
  simp only [State.enqueue, this, if_true]
  rw [State.core_slip, State.core_produce s h]
  rfl

theorem State.core_enqueue_other {j : Nat} (h : j ≠ c.core) : (s.enqueue c q e).core j = s.core j := by
  simp only [State.enqueue]
  split
  · rw [State.core_slip_other _ _ _ _ h, State.core_produce_other s h]
  · rw [State.core_modCore_other _ _ h, State.core_produce_other s h]

theorem State.enqueue_ms : (s.enqueue c q e).ms = s.ms := by
  simp only [State.enqueue]
  split
  · exact State.produce_ms ..
  · exact State.produce_ms ..

end

/-- What a dispatch leaves of registers and makes of tokens, whether its operation enters the queue or stays behind. -/
theorem State.enqueue_frame {s : State} {c : Cursor} {q : Nat} {e : EngEntry} (h : e.prod ≠ 0) :
    ((s.enqueue c q e).core c.core).tokens = ((s.core c.core).generation e.prod).tokens ∧
      ((s.enqueue c q e).core c.core).sregs = (s.core c.core).sregs ∧ ((s.enqueue c q e).core c.core).writes = (s.core c.core).writes := by
  by_cases hb : staysBehind s c = true ∨ (s.core c.core).queueFull q = true
  · rw [State.core_enqueue_behind h hb]
    exact ⟨rfl, rfl, rfl⟩
  · obtain ⟨hb, hq⟩ := not_or.mp hb
    rw [State.core_enqueue_enters h (by simpa using hb) (by simpa using hq)]
    obtain ⟨-, htok, hsregs, hwrites⟩ := Core.setQueue_frame ((s.core c.core).generation e.prod) q ((s.core c.core).queue q ++ [e.filled s])
    exact ⟨htok, hsregs, hwrites⟩

/-! ### Checks before the dispatch (R223, R305) -/

section

variable {s : State} {c : Cursor} {q : Nat} {tw : TokenWord}

theorem withRoom_full (hw : c.whole = true) (hq : (s.core c.core).queueFull q = true) (f : Unit → Res) :
    withRoom s c q f = .next (Claims.heldBy s c .queueFull) := if_pos (by simp [hw, hq])

theorem withRoom_passes (h : c.whole = true → (s.core c.core).queueFull q = false) (f : Unit → Res) : withRoom s c q f = f () :=
  if_neg (by simpa using h)

variable (hu : ∀ n ∈ tokNames tw, (Use.tok n).over (s.hlim c) = false) (h0 : tw.prod.val ≠ 0)
  (hp : (c.token tw.prod.val).state = .pending) (ha : c.awaitsToken (s.core c.core) tw.prod.val = false)
include hu h0 hp ha

theorem withTokens_busy (f : Unit → Res) : withTokens s c tw f =
    if (s.core c.core).lagsBefore c then (if c.whole || isFw c.core then .next (Claims.heldBy s c .slip) else .next (s.defer c tw))
    else .next (trapped s c .tokenBusy (BitVec.ofNat 64 (tw.prod.val + c.slot.index * 2 ^ 40))) := by
  refine (withUses_pass (fun u hu' => ?_) _).trans (if_neg ?_)
  · obtain ⟨n, hn, rfl⟩ := List.mem_map.mp hu'
    exact hu n hn
  · simp [h0, hp, ha]

end

theorem State.core_defer {s : State} {c : Cursor} {tw : TokenWord} (h : tw.prod.val ≠ 0) : (s.defer c tw).core c.core =
    { (s.core c.core).generation tw.prod.val with slips := (s.core c.core).slips ++ [{
      cls := c.slot.cls, cur := c
      op := .defer c.op tw.prod.val (((kget Token.init (s.core c.core).tokens tw.prod.val).gen + 1) % 65536) (s.core c.core).serial }] } := by
  rw [State.defer, State.core_slip, State.core_produce s h]
  rfl

theorem exec_nflush_room {s : State} {c : Cursor} {a : Reg} {tw : TokenWord} (h : Acts s c (sUses [a])) : exec (.nflush a tw) s =
    withRoom s c 0 fun _ => withTokens s c tw fun _ => withClean s c [a] fun _ =>
      .next (s.enqueue c 0 (newEntry s c (.nflush a tw) tw [val s c a])) :=
  slotOp_act h.1 h.2 _

theorem State.takeSlip_enter {s : State} {core q : Nat} (c : Cursor) (e : EngEntry) (h : (s.core core).queueFull q = false) :
    s.takeSlip core { cls := c.slot.cls, cur := c, op := .enter q e } = some (s.modCore core fun k =>
      k.setQueue q (k.queue q ++ [{ e with time := Nat.max e.time k.ltime, entered := s.cycle }])) := if_neg (by simp [h])

/-- Settles O37. -/
theorem dispatchMakesAGeneration : Obligations.DispatchMakesAGeneration := by
  unfold Obligations.DispatchMakesAGeneration
  refine ⟨fun s c q e h => ?_, fun s c a tw h => ⟨fun hw hq => ?_, fun hroom hu h0 hp ha => ?_⟩, fun s core q c e hq => ?_,
    Core.queueFull_iff⟩
  · intro t e'
    obtain ⟨htok, hsregs, hwrites⟩ := State.enqueue_frame (s := s) (c := c) (q := q) h
    refine ⟨fun hb hq => ?_, fun hb => ?_, ?_, ?_, fun n hn => ?_, hsregs, hwrites, State.enqueue_ms, fun j hj => State.core_enqueue_other hj⟩
    · rw [State.core_enqueue_enters h hb hq]
      exact ⟨Core.queue_setQueue .., (Core.setQueue_frame ..).1⟩
    · rw [State.core_enqueue_behind h hb]
      exact ⟨rfl, rfl⟩
    · rw [htok, Core.generation_token]
      rfl
    · rw [htok, Core.generation_token]
      rfl
    · rw [htok, Core.generation_token_other _ hn]
  · rw [exec_nflush_room h, withRoom_full hw hq]
  · have busy := withTokens_busy hu h0 hp ha
    rw [exec_nflush_room h, withRoom_passes hroom, busy]
    refine ⟨fun hl => if_neg (by simp [hl]), fun hl hw => (if_pos hl).trans (if_pos (by simpa using hw)), fun hl hw hf => ?_⟩
    refine ⟨s.defer c tw, (if_pos hl).trans (if_neg (by simp [hw, hf])), ?_⟩
    rw [State.core_defer h0]
    refine ⟨rfl, ?_, ?_, rfl, rfl, State.produce_ms ..⟩
    · exact congrArg Token.state (Core.generation_token ..)
    · exact congrArg Token.gen (Core.generation_token ..)
  · refine ⟨_, State.takeSlip_enter c e hq, ?_⟩
    rw [State.core_modCore, Core.queue_setQueue]

end Sys2Proof.Machine
end

section
/-!
The memory slots' instructions after their checks: each is a load, a store or an atomic over its addresses (R160 to R166).
-/
namespace Sys2Proof.Machine

open Sys2Proof.Claims

/-! ### The checks in front of an access (R155, R171) -/

section

variable {s : State} {c : Cursor}

theorem onMemory_pass {n : Nat} {as : List W64} (h : s.oddPhys c.core n as = none) (f : Unit → Res) : onMemory s c n as f = f () := by
  simp only [onMemory, h]

theorem withAccess_pass {acc : Access} {parts : List (W64 × Nat × Nat)} (h : checkEach s c.core c.slot.index .slots acc parts = none)
    (f : Unit → Res) : withAccess s c acc parts f = f () := by
  simp only [withAccess, h]

/-- An access whose addresses pass is made. -/
theorem withAccess_onMemory {acc : Access} {n : Nat} {as : List W64} (h : Reaches s c acc n as) (f : Unit → Res) :
    withAccess s c acc (as.map fun a => (a, n, n)) (fun _ => onMemory s c n as f) = f () :=
  (withAccess_pass h.1 _).trans (onMemory_pass h.2 f)

theorem withClean_lanes {rs : List Reg} (h : Clean s c rs) (f : Unit → Res) : withClean s c (laneRegs s c rs) f = f () := by
  refine withClean_pass (fun r hr => h r ?_) f
  unfold laneRegs at hr
  split at hr
  · exact absurd hr nofun
  · exact hr

/-- Over part of the addresses the checks of R155 fail only if they fail over all. -/
theorem checkEach_none_of_subset {core slot : Nat} {g : Agent} {acc : Access} {as bs : List (W64 × Nat × Nat)}
    (h : checkEach s core slot g acc as = none) (hs : ∀ x ∈ bs, x ∈ as) : checkEach s core slot g acc bs = none := by
  simp only [checkEach, List.findSome?_eq_none_iff] at h ⊢
  exact fun chk hchk x hx => h chk hchk x (hs x hx)

/-! ### Scalar accesses (R162, R164, R206) -/

section

variable {d a : Reg} {sz : MemSize} {off : BitVec 32} (h : Acts s c (sUses [d, a]))

section

variable (hc : Clean s c [a]) (hr : Reaches s c .read (szBytes sz) [baseAddr s c a off])
include h hc hr

theorem loadAt_eq : loadAt d a sz off s =
    finishLoad s c (szBytes sz) [baseAddr s c a off] { newOut s c with dest := .scalar d.val (szSigned sz) } :=
  (slotOp_act h.1 h.2 _).trans ((withClean_pass hc _).trans (withAccess_onMemory hr _))

theorem acquireAt_eq (sc : Scope) : acquireAt d a sz sc off s =
    finishLoad s c (szBytes sz) [baseAddr s c a off] { newOut s c with
      dest := .scalar d.val (szSigned sz)
      acq := if inOrder s c (baseAddr s c a off) (szBytes sz) then some (scopeEmpties sc) else none } :=
  (slotOp_act h.1 h.2 _).trans ((withClean_pass hc _).trans (withAccess_onMemory hr _))

theorem specAt_eq : specAt d a sz off s =
    finishLoad s c (szBytes sz) [baseAddr s c a off] { newOut s c with dest := .scalar d.val (szSigned sz), spec := true } := by
  refine (slotOp_act h.1 h.2 _).trans ?_
  have clean : (s.sr c a.val).df = false := hc a (.head _)
  simp only [clean, Bool.false_eq_true, if_false]
  rw [show checkEach s c.core c.slot.index .slots .read [scalarPart (baseAddr s c a off) sz] = none from hr.1]
  exact onMemory_pass hr.2 _

end

variable (hc : Clean s c [a, d]) (hr : Reaches s c .write (szBytes sz) [baseAddr s c a off])
include h hc hr

theorem storeAt_eq : storeAt d a sz off s =
    finishStore s c (szBytes sz) [(baseAddr s c a off, leBytes (szBytes sz) (val s c d).toNat)] (newOut s c) := by
  refine (slotOp_act h.1 h.2 _).trans ((withClean_pass hc _).trans ((withAccess_pass hr.1 _).trans ?_))
  rw [scalarStore, leBytes_length]
  exact onMemory_pass hr.2 _

theorem releaseAt_eq (sc : Scope) : releaseAt d a sz sc off s =
    finishStore s c (szBytes sz) [(baseAddr s c a off, leBytes (szBytes sz) (val s c d).toNat)]
      { newOut s c with scope := if inOrder s c (baseAddr s c a off) (szBytes sz) then some sc else none } := by
  refine (slotOp_act h.1 h.2 _).trans ((withClean_pass hc _).trans ((withAccess_pass hr.1 _).trans ?_))
  simp only [scalarStore, leBytes_length]
  exact onMemory_pass hr.2 _

end

/-! ### Vector accesses (R163) -/

section

variable {vd a : Reg} {idx : Option Reg} {addr : State → Cursor → Nat × Nat → W64}
  (h : Acts s c ([.v vd.val, .s a.val] ++ vUses idx.toList)) (hc : Clean s c [a])
include h hc

theorem vloadOn_eq (hv : CleanV s c idx.toList) (hr : Reaches s c .read 4 ((laneList s c).map (addr s c))) :
    vloadOn vd a idx addr s = finishLoad s c 4 ((laneList s c).map (addr s c)) { newOut s c with dest := vecDest s c vd } :=
  (slotOp_act h.1 h.2 _).trans ((withClean_lanes hc _).trans ((withCleanV_pass hv _).trans (withAccess_onMemory hr _)))

theorem vstoreOn_eq (hv : CleanV s c (idx.toList ++ [vd])) (hr : Reaches s c .write 4 ((laneList s c).map (addr s c))) :
    vstoreOn vd a idx addr s =
      finishStore s c 4 ((laneList s c).map fun l => (addr s c l, leBytes 4 (s.vr c l.1 vd.val l.2).toNat)) (newOut s c) :=
  (slotOp_act h.1 h.2 _).trans ((withClean_lanes hc _).trans ((withCleanV_pass hv _).trans (withAccess_onMemory hr _)))

end

/-! ### Speculative vector loads (R164) -/

/-- The destination of a speculative vector load: the clusters that load, and those that get 0. -/
def specDest (s : State) (c : Cursor) (vd : Reg) (bad : Nat → Bool) : LoadDest :=
  .vector vd.val (((s.enabled c).filter fun cl => !bad cl).map fun cl => (cl, s.active c cl, destDf s c vd.val cl false))
    (((s.enabled c).filter bad).map fun cl => (cl, s.active c cl))

/-- The addresses of a cluster's active lanes. -/
def laneAddrs (s : State) (c : Cursor) (addr : State → Cursor → Nat × Nat → W64) (cl : Nat) : List W64 :=
  (s.active c cl).map fun i => addr s c (cl, i)

/-- What the check of a cluster's lanes finds. -/
def laneCheck (s : State) (c : Cursor) (addr : State → Cursor → Nat × Nat → W64) (cl : Nat) : Option Failed :=
  checkEach s c.core c.slot.index .slots .read ((laneAddrs s c addr cl).map wordPart)

/-- The clusters `bad` are those that would fault for a cause that a speculative load defers; no other one would fault. -/
def Splits (s : State) (c : Cursor) (a : Reg) (addr : State → Cursor → Nat × Nat → W64) (bad : Nat → Bool) : Prop :=
  (∀ cl ∈ s.enabled c, bad cl = true ↔
    (s.active c cl ≠ [] ∧ ((s.sr c a.val).df = true ∨ ∃ e, laneCheck s c addr cl = some e ∧ e.1 ∈ defers))) ∧
  ∀ cl ∈ s.enabled c, bad cl = false → laneCheck s c addr cl = none

theorem deferrable_iff (x : Cause) : deferrable x = true ↔ x ∈ defers := by cases x <;> decide

/-- Whether a cluster gets 0 instead of a load. -/
def specBad (s : State) (c : Cursor) (a : Reg) (addr : State → Cursor → Nat × Nat → W64) (cl : Nat) : Bool :=
  !(s.active c cl).isEmpty && ((s.sr c a.val).df ||
    match laneCheck s c addr cl with
    | some e => deferrable e.1
    | none => false)

/-- A speculative vector load without a trap, in which the clusters `bad` get 0. -/
def specLoad (s : State) (c : Cursor) (vd : Reg) (addr : State → Cursor → Nat × Nat → W64) (bad : Nat → Bool) : Res :=
  let as := ((s.enabled c).filter fun cl => !bad cl).flatMap (laneAddrs s c addr)
  let zeros := ((s.enabled c).filter bad).map fun cl => (cl, s.active c cl)
  if as.isEmpty && !zeros.isEmpty then
    deferredLoad s c ((zeros.flatMap fun z => z.2.map fun i => addr s c (z.1, i)).headD 0) ((specDest s c vd bad).writes [])
  else vectorLoad s c as { newOut s c with dest := specDest s c vd bad, spec := true }

theorem specLoad_congr {vd : Reg} {addr : State → Cursor → Nat × Nat → W64} {f g : Nat → Bool} (h : ∀ cl ∈ s.enabled c, f cl = g cl) :
    specLoad s c vd addr f = specLoad s c vd addr g := by
  have bad : (s.enabled c).filter f = (s.enabled c).filter g := List.filter_congr h
  have good : ((s.enabled c).filter fun cl => !f cl) = (s.enabled c).filter fun cl => !g cl :=
    List.filter_congr fun cl hcl => by rw [h cl hcl]
  simp only [specLoad, specDest, bad, good]

theorem specBad_eq {a : Reg} {addr : State → Cursor → Nat × Nat → W64} {bad : Nat → Bool} (hb : Splits s c a addr bad) {cl : Nat}
    (hcl : cl ∈ s.enabled c) : specBad s c a addr cl = bad cl := by
  refine Bool.eq_iff_iff.mpr (Iff.trans ?_ (hb.1 cl hcl).symm)
  unfold specBad
  cases laneCheck s c addr cl <;> simp [deferrable_iff]

theorem vspecOn_eq {vd a : Reg} {addr : State → Cursor → Nat × Nat → W64} {bad : Nat → Bool}
    (h : Acts s c [.v vd.val, .s a.val]) (hb : Splits s c a addr bad) : vspecOn vd a addr s = specLoad s c vd addr bad := by
  have agree : ∀ cl ∈ s.enabled c, specBad s c a addr cl = bad cl := fun cl hcl => specBad_eq hb hcl
  have passes : ((s.enabled c).filter fun cl => !specBad s c a addr cl).findSome? (laneCheck s c addr) = none := by
    refine List.findSome?_eq_none_iff.mpr fun cl hcl => ?_
    obtain ⟨hcl, hgood⟩ := List.mem_filter.mp hcl
    exact hb.2 cl hcl (by simpa [agree cl hcl] using hgood)
  rw [← specLoad_congr agree]
  refine (slotOp_act h.1 h.2 _).trans ?_
  show orTrap s c (((s.enabled c).filter fun cl => !specBad s c a addr cl).findSome? (laneCheck s c addr))
    (fun _ => specLoad s c vd addr (specBad s c a addr)) = _
  rw [passes]
  rfl

/-- Where no cluster would fault, a speculative load is a load of every lane. -/
theorem vspecOn_load {vd a : Reg} {addr : State → Cursor → Nat × Nat → W64} (h : Acts s c [.v vd.val, .s a.val]) (hc : Clean s c [a])
    (hr : Reaches s c .read 4 ((laneList s c).map (addr s c))) :
    vspecOn vd a addr s =
      finishLoad s c 4 ((laneList s c).map (addr s c)) { newOut s c with dest := vecDest s c vd, spec := true } := by
  have clean : (s.sr c a.val).df = false := hc a (.head _)
  have check : ∀ cl ∈ s.enabled c, laneCheck s c addr cl = none := fun cl hcl =>
    checkEach_none_of_subset hr.1 fun x hx => by
      obtain ⟨y, hy, rfl⟩ := List.mem_map.mp hx
      obtain ⟨i, hi, rfl⟩ := List.mem_map.mp hy
      exact List.mem_map.mpr ⟨_, List.mem_map.mpr ⟨(cl, i), List.mem_flatMap.mpr ⟨cl, hcl, List.mem_map.mpr ⟨i, hi, rfl⟩⟩, rfl⟩, rfl⟩
  have splits : Splits s c a addr fun _ => false :=
    ⟨fun cl hcl => by simp [clean, check cl hcl], fun cl hcl _ => check cl hcl⟩
  have all : ((s.enabled c).filter fun _ => !false) = s.enabled c := List.filter_eq_self.mpr fun _ _ => rfl
  have lanes : (s.enabled c).flatMap (laneAddrs s c addr) = (laneList s c).map (addr s c) := by
    simp only [laneList, List.map_flatMap, List.map_map]
    rfl
  rw [vspecOn_eq h splits, specLoad]
  simp only [specDest, all, List.filter_false, lanes, List.map_nil, List.isEmpty_nil, Bool.not_true, Bool.and_false, Bool.false_eq_true, if_false]
  exact onMemory_pass hr.2 _

/-! ### Atomics (R165, R166) -/

theorem atomicOn_eq {d a : Reg} {others : List Reg} {dbl : Bool} {m : State → Cursor → Rmw}
    (h : Acts s c (sUses (d :: a :: others))) (hc : Clean s c (a :: others)) (hr : Reaches s c .atomic (amoBytes dbl) [val s c a]) :
    atomicOn d a others dbl m s = finishRmw s c (amoBytes dbl) [(val s c a, m s c)] { newOut s c with dest := .scalar d.val true } :=
  (slotOp_act h.1 h.2 _).trans ((withClean_pass hc _).trans (withAccess_onMemory hr _))

theorem execVamo_eq {vd a vb : Reg} {f : AmoOp} (h : Acts s c [.v vd.val, .s a.val, .v vb.val]) (hc : Clean s c [a])
    (hv : CleanV s c [vb, vd]) (hr : Reaches s c .atomic 4 ((laneList s c).map (indexAddr s c a vb 2 0))) :
    execVamo vd a vb f s = finishRmw s c 4 ((laneList s c).map fun l =>
      (indexAddr s c a vb 2 0 l, .amo f (BitVec.ofNat 64 (s.vr c l.1 vd.val l.2).toNat))) { newOut s c with dest := vecDest s c vd } :=
  (slotOp_act h.1 h.2 _).trans ((withClean_lanes hc _).trans ((withCleanV_pass hv _).trans (withAccess_onMemory hr _)))

/-! ### The forms of the claims -/

variable {i : Instr} {us : List Use} {rs vs : List Reg} {n : Nat}

/-- Every load form loads over its addresses. -/
theorem exec_loadForm {as : List W64} {o : Outstanding} (hi : loadForm i s c = some (us, rs, vs, n, as, o)) (h : Acts s c us)
    (hc : Clean s c rs) (hv : CleanV s c vs) (hr : Reaches s c .read n as) : exec i s = finishLoad s c n as o := by
  unfold loadForm at hi
  split at hi <;> cases hi
  case h_1 => exact loadAt_eq h hc hr
  case h_2 => exact loadAt_eq h hc hr
  case h_3 => exact specAt_eq h hc hr
  case h_4 => exact specAt_eq h hc hr
  case h_5 => exact acquireAt_eq h hc hr _
  case h_6 => exact acquireAt_eq h hc hr _
  case h_7 vd a => exact vloadOn_eq (idx := none) (addr := fun s c l => laneAddr s c a 0 64 l) h hc hv hr
  case h_8 vd a off stride =>
    exact vloadOn_eq (idx := none) (addr := fun s c l => laneAddr s c a off (strideOf stride) l) h hc hv hr
  case h_9 vd a vb k => exact vloadOn_eq (idx := some vb) (addr := fun s c l => indexAddr s c a vb k.val 0 l) h hc hv hr
  case h_10 vd a vb k off => exact vloadOn_eq (idx := some vb) (addr := fun s c l => indexAddr s c a vb k.val off l) h hc hv hr
  case h_11 vd a => exact vspecOn_load (addr := fun s c l => laneAddr s c a 0 64 l) h hc hr
  case h_12 vd a off stride => exact vspecOn_load (addr := fun s c l => laneAddr s c a off (strideOf stride) l) h hc hr

theorem scopeOf_none (s : State) (c : Cursor) (n : Nat) (as : List (W64 × List Byte)) : scopeOf s c n as none = none := by
  unfold scopeOf
  split <;> rfl

theorem scopeOf_one (s : State) (c : Cursor) (n : Nat) (a : W64) (bs : List Byte) (row : Option Scope) :
    scopeOf s c n [(a, bs)] row = if inOrder s c a n then row else none := by
  simp [scopeOf]

/-- Every store form stores over its addresses. -/
theorem exec_storeForm {as : List (W64 × List Byte)} {row : Option Scope} (hi : storeForm i s c = some (us, rs, vs, n, as, row))
    (h : Acts s c us) (hc : Clean s c rs) (hv : CleanV s c vs) (hr : Reaches s c .write n (as.map fun a => a.1)) :
    exec i s = finishStore s c n as { newOut s c with scope := scopeOf s c n as row } := by
  have reach {acc : Access} (f : Nat × Nat → W64) (g : Nat × Nat → List Byte)
      (h : Reaches s c acc 4 (((laneList s c).map fun l => (f l, g l)).map fun a => a.1)) : Reaches s c acc 4 ((laneList s c).map f) := by
    rwa [List.map_map] at h
  unfold storeForm at hi
  split at hi <;> cases hi
  case h_1 =>
    rw [scopeOf_none]
    exact storeAt_eq h hc hr
  case h_2 =>
    rw [scopeOf_none]
    exact storeAt_eq h hc hr
  case h_3 =>
    rw [scopeOf_one]
    exact releaseAt_eq h hc hr _
  case h_4 =>
    rw [scopeOf_one]
    exact releaseAt_eq h hc hr _
  case h_5 vd a =>
    rw [scopeOf_none]
    exact vstoreOn_eq (idx := none) (addr := fun s c l => laneAddr s c a 0 64 l) h hc hv (reach _ _ hr)
  case h_6 vd a off stride =>
    rw [scopeOf_none]
    exact vstoreOn_eq (idx := none) (addr := fun s c l => laneAddr s c a off (strideOf stride) l) h hc hv (reach _ _ hr)
  case h_7 vd a vb k =>
    rw [scopeOf_none]
    exact vstoreOn_eq (idx := some vb) (addr := fun s c l => indexAddr s c a vb k.val 0 l) h hc hv (reach _ _ hr)
  case h_8 vd a vb k off =>
    rw [scopeOf_none]
    exact vstoreOn_eq (idx := some vb) (addr := fun s c l => indexAddr s c a vb k.val off l) h hc hv (reach _ _ hr)

/-- Every atomic form is an atomic over its addresses. -/
theorem exec_atomicForm {as : List (W64 × Rmw)} {d : LoadDest} (hi : atomicForm i s c = some (us, rs, vs, n, as, d))
    (h : Acts s c us) (hc : Clean s c rs) (hv : CleanV s c vs) (hr : Reaches s c .atomic n (as.map fun a => a.1)) :
    exec i s = finishRmw s c n as { newOut s c with dest := d } := by
  unfold atomicForm at hi
  split at hi <;> cases hi
  case h_1 d a b f dbl => exact atomicOn_eq (m := fun s c => .amo f (s.sr c b.val).val) h hc hr
  case h_2 d a b r dbl => exact atomicOn_eq (m := fun s c => .cas (s.sr c b.val).val (s.sr c r.val).val) h hc hr
  case h_3 vd a vb f =>
    rw [List.map_map] at hr
    exact execVamo_eq h hc hv hr

end
end Sys2Proof.Machine
end

section
/-!
The dispatch of an access in the M class: what the translation caches take in, an access that lags, and one whose pieces are all made at
once (R95, R156, R298, R301).
-/
namespace Sys2Proof.Machine

open Sys2Proof.Claims

/-! ### What the translation caches take in (R298) -/

/-- Between two states only translation caches, their counts and the times of lines have changed. -/
structure FillsOnly (core : Nat) (s t : State) : Prop where
  state : t = { s with cores := t.cores, ms := t.ms }
  ms : t.ms = { s.ms with clusterTlb := t.ms.clusterTlb, times := t.ms.times, colTimes := t.ms.colTimes }
  own : t.core core = { s.core core with utlb := (t.core core).utlb, perf := (t.core core).perf }
  others : ∀ j, j ≠ core → t.core j = s.core j

namespace FillsOnly

variable {core : Nat} {s t u : State}

theorem refl : FillsOnly core s s := ⟨rfl, rfl, rfl, fun _ _ => rfl⟩

theorem trans (h : FillsOnly core s t) (g : FillsOnly core t u) : FillsOnly core s u where
  state := by rw [g.state, h.state]
  ms := by rw [g.ms, h.ms]
  own := by rw [g.own, h.own]
  others j hj := (g.others j hj).trans (h.others j hj)

end FillsOnly

theorem MemSys.setTime_frame (ms : MemSys) (l : Nat) (t : Nat × Nat) :
    ms.setTime l t = { ms with times := (ms.setTime l t).times, colTimes := (ms.setTime l t).colTimes } := by
  unfold MemSys.setTime
  split <;> rfl

theorem MemSys.foldl_engLoad_frame (pts lease : Nat) (ls : List Nat) (ms : MemSys) :
    let ns := ls.foldl (fun m l => m.engLoad pts lease l) ms
    ns = { ms with times := ns.times, colTimes := ns.colTimes } := by
  refine List.foldlRecOn ls _ (motive := fun ns : MemSys => ns = { ms with times := ns.times, colTimes := ns.colTimes }) rfl
    fun ns h l _ => ?_
  rw [MemSys.engLoad, MemSys.setTime_frame]
  exact h ▸ rfl

theorem State.fillCluster_fillsOnly (s : State) (core ctx va : Nat) : FillsOnly core s (s.fillCluster core ctx va) := by
  unfold State.fillCluster
  split
  · exact .refl
  · simp only
    split
    · exact .refl
    · refine ⟨rfl, ?_, rfl, fun _ _ => rfl⟩
      have := MemSys.foldl_engLoad_frame 0 0
        (walkLines s.ms s.pkg va [4, 3, 2, 1, 0] (kget { valid := false, root := 0, group := 0 } s.ms.contexts ctx).root) s.ms
      generalize List.foldl _ s.ms _ = ns at this ⊢
      rw [this]

theorem State.fillTlb_fillsOnly (s : State) (core ctx va : Nat) : FillsOnly core s (s.fillTlb core ctx va) := by
  unfold State.fillTlb
  split
  · exact .refl
  · simp only
    refine FillsOnly.trans ?_ (State.fillCluster_fillsOnly ..)
    split
    · exact .refl
    · refine ⟨rfl, rfl, ?_, fun j hj => State.core_modCore_other _ _ hj⟩
      rw [State.core_modCore]
      rfl

theorem State.fillFor_fillsOnly (s : State) (core n : Nat) (as : List W64) : FillsOnly core s (s.fillFor core n as) := by
  refine List.foldlRecOn as _ (motive := FillsOnly core s) .refl fun t h a _ => h.trans ?_
  split
  · exact State.fillTlb_fillsOnly ..
  · exact .refl

/-! ### An access that lags (R95) -/

/-- The M class dispatches, lags and waits by what the translation caches do not hold. -/
theorem FillsOnly.prompt {c : Cursor} {s t : State} (h : FillsOnly c.core s t) (hp : Prompt s c) : Prompt t c := by
  unfold Prompt at hp ⊢
  rw [h.own, h.ms]
  exact hp

theorem FillsOnly.lags {c : Cursor} {s t : State} (h : FillsOnly c.core s t) (hl : Lags s c) : Lags t c := by
  unfold Lags at hl ⊢
  rw [h.own]
  exact hl

section

variable {s : State} {c : Cursor}

theorem accessOp_lags (h : Lags s c) (o : Outstanding) (ts : List Todo) : accessOp s c o ts = .next (s.slip c (.access c.op o.dest)) := by
  obtain ⟨hw, hl⟩ := h
  unfold accessOp
  exact if_pos (by simpa [hw] using hl)

theorem accessOp_dispatches {t : State} {o : Outstanding} {ts : List Todo} (h : Prompt s c) (hd : s.dispatchAccess c o ts = (.none, t)) :
    accessOp s c o ts = .next t := by
  obtain ⟨hnow, -⟩ := h
  have now : ¬(!c.atOnce && (c.lag || (s.core c.core).lags .m)) = true := by
    obtain hw | ⟨hl, hm⟩ := hnow
    · simp [hw]
    · simp [hl, hm]
  unfold accessOp
  rw [if_neg now, hd]

/-! ### Which pieces are made (R166, R170, R206) -/

theorem leavePieces_none {o : Outstanding} (h : Prompt s c) (hrel : o.rel = []) (hver : o.ver = none) (ts : List Todo) :
    leavePieces s c o ts = (ts, []) := by
  obtain ⟨-, hsplit, hlate, -⟩ := h
  have all (xs : List Todo) : ts.foldl (fun (x : List Todo × List Todo) t =>
      if !o.rel.isEmpty || (s.core c.core).behind c.bn t || (o.ver.isSome && !x.2.isEmpty) ||
        ((c.split && !oneUnit ts) && Config.freeBit s.free (freeKey c 11 0 t.ix)) ||
        x.2.any fun u => u.piece.place.word == t.piece.place.word then (x.1, x.2 ++ [t])
      else (x.1 ++ [t], x.2)) (xs, []) = (xs ++ ts, []) := by
    simp only [hrel, hver, hsplit, Core.behind, hlate, List.any_nil, List.isEmpty_nil, Bool.not_true, Option.isSome_none, Bool.false_and,
      Bool.or_false]
    generalize ts = ys
    induction ys generalizing xs with
    | nil => simp
    | cons y ys ih => simpa using ih (xs ++ [y])
  exact all []

theorem leavePieces_all {o : Outstanding} (hrel : o.rel ≠ []) (ts : List Todo) : leavePieces s c o ts = ([], ts) := by
  have rel : o.rel.isEmpty = false := by simpa using hrel
  have all (xs : List Todo) : ts.foldl (fun (x : List Todo × List Todo) t =>
      if !o.rel.isEmpty || (s.core c.core).behind c.bn t || (o.ver.isSome && !x.2.isEmpty) ||
        ((c.split && !oneUnit ts) && Config.freeBit s.free (freeKey c 11 0 t.ix)) ||
        x.2.any fun u => u.piece.place.word == t.piece.place.word then (x.1, x.2 ++ [t])
      else (x.1 ++ [t], x.2)) ([], xs) = ([], xs ++ ts) := by
    simp only [rel, Bool.not_false, Bool.true_or, if_true]
    generalize ts = ys
    induction ys generalizing xs with
    | nil => simp
    | cons y ys ih => simpa using ih (xs ++ [y])
  exact all []

/-! ### A dispatch that makes its pieces at once -/

/-- The pieces of an access where a migration has put their ways (R330). -/
def forwarded (s : State) (ts : List Todo) : List Todo := ts.map fun t => { t with piece := t.piece.forward s.ms }

/-- An access as it is dispatched: with its number, its parts, the counters it raises, and what its release waits for. -/
def dispatched (s : State) (c : Cursor) (o : Outstanding) (ts : List Todo) : Outstanding :=
  { o with
    id := (s.core c.core).outNext
    parts := ts.map Todo.part
    ldPend := o.ldPend && !ownOnly o ts
    stPend := o.stPend && !ownOnly o ts
    rel := waitsFor s c o.scope }

/-- The pieces of an access made one after another. -/
def madeAll (s : State) (c : Cursor) (o : Outstanding) (ts : List Todo) : Run1 :=
  ts.foldl (performPiece c (oneUnit ts) true) { st := s, o := dispatched s c o ts, held := false }

theorem blockedAccess_none {o : Outstanding} {own : Bool} (h : Prompt s c)
    (hcount : own = true ∨ countersFull s c o.ldPend o.stPend = false) : blockedAccess s c own o = .none := by
  obtain ⟨-, -, -, -, hacq⟩ := h
  have closed : (s.core c.core).outs.any (fun x => x.ldPend && x.acq.isSome && decide (x.bundle < c.bn)) = false := by
    rw [List.any_eq_false]
    intro x hx hopen
    obtain ⟨⟨hld, hac⟩, hlt⟩ : (x.ldPend = true ∧ x.acq.isSome = true) ∧ x.bundle < c.bn := by simpa using hopen
    have := hacq x hx hld hac
    omega
  unfold blockedAccess
  rw [closed]
  obtain rfl | hcount := hcount
  · rfl
  · simp [hcount]

section

variable {o : Outstanding} {ts : List Todo} (h : Prompt s c)
  (hcount : ownOnly o (forwarded s ts) = true ∨ countersFull s c o.ldPend o.stPend = false)
include h hcount

theorem dispatchAccess_eq : s.dispatchAccess c o ts =
    let fs := forwarded s ts
    let (now, left) := leavePieces s c (dispatched s c o fs) fs
    let r := now.foldl (performPiece c (oneUnit fs) true) { st := s, o := dispatched s c o fs, held := false }
    if r.held then (.loadBuffer, s)
    else if ownOnly o fs && left.isEmpty then (.none, r.st.puts c 6 (o.dest.writes (r.o.parts.map fun p => p.data)))
    else
      let s1 := if ownOnly o fs then r.st else r.st.addOut c.core r.o
      (.none, if left.isEmpty then s1
        else s1.modCore c.core fun k => { k with late := k.late ++ [{ cur := { c with mw := [] }, o := r.o, todo := left }] }) := by
  have still : (forwarded s ts).any (fun t => s.ms.moving t.piece.place) = false := by
    obtain ⟨-, -, -, hmig, -⟩ := h
    simp [MemSys.moving, hmig]
  have why : (if (forwarded s ts).any (fun t => s.ms.moving t.piece.place) then Hold.moving
      else blockedAccess s c (ownOnly o (forwarded s ts)) o) = .none := by
    rw [still]
    exact blockedAccess_none h hcount
  unfold State.dispatchAccess
  exact if_neg (not_not.mpr why)

/-- Nothing is left for later of an access that waits for nothing. -/
theorem dispatchAccess_made (hrel : waitsFor s c o.scope = []) (hver : o.ver = none) (hheld : (madeAll s c o (forwarded s ts)).held = false) :
    s.dispatchAccess c o ts = (.none,
      let r := madeAll s c o (forwarded s ts)
      if ownOnly o (forwarded s ts) then r.st.puts c 6 (o.dest.writes (r.o.parts.map fun p => p.data)) else r.st.addOut c.core r.o) := by
  rw [dispatchAccess_eq h hcount]
  simp only [leavePieces_none (o := dispatched s c o (forwarded s ts)) h hrel hver]
  rw [show List.foldl (performPiece c (oneUnit (forwarded s ts)) true) _ (forwarded s ts) = madeAll s c o (forwarded s ts) from rfl, hheld]
  cases ownOnly o (forwarded s ts) <;> rfl

/-- All pieces of a release that waits are left. -/
theorem dispatchAccess_left (hrel : waitsFor s c o.scope ≠ []) (hown : ownOnly o (forwarded s ts) = false) (hts : ts ≠ []) :
    s.dispatchAccess c o ts = (.none, (s.addOut c.core (dispatched s c o (forwarded s ts))).modCore c.core fun k => { k with
      late := k.late ++ [{ cur := { c with mw := [] }, o := dispatched s c o (forwarded s ts), todo := forwarded s ts }] }) := by
  have some_ : (forwarded s ts).isEmpty = false := by simpa [forwarded] using hts
  rw [dispatchAccess_eq h hcount]
  simp only [leavePieces_all (s := s) (c := c) (o := dispatched s c o (forwarded s ts)) hrel, hown, some_]
  rfl

end

end

end Sys2Proof.Machine
end

section
/-!
The pieces of an access made one after another: what each makes of the state and of its part (R163, R166, R301).
-/
namespace Sys2Proof.Machine

open Sys2Proof.Claims

/-! ### Making one piece -/

/-- What a piece gives at once: the bytes of its part and their time; `none` where its queue answers later. -/
abbrev Given := Option (List Byte × Nat)

/-- The part of a piece after it has been made. -/
def Todo.made (t : Todo) : Given → Part
  | some (bs, _) => { t.part with done := true, data := bs }
  | none => t.part

/-- The latest time that made pieces have come to, from a first one on. -/
def timeAfter : List Given → Nat → Nat
  | [], t => t
  | some (_, u) :: ds, t => timeAfter ds (Nat.max t u)
  | none :: ds, t => timeAfter ds t

/-- A running access after its piece `i` has been made. -/
def Run1.after (r : Run1) (s : State) (i : Nat) : Given → Run1
  | some (bs, u) => r.done s i bs u
  | none => { r with st := s }

/-- In state `s` piece `t` of access `id` is made: it leaves state `u` and gives `d`. -/
def Makes (c : Cursor) (whole : Bool) (id : Nat) (s : State) (t : Todo) (u : State) (d : Given) : Prop :=
  ∀ r : Run1, r.st = s → r.o.id = id → r.held = false → performPiece c whole true r t = r.after u t.ix d

/-- Pieces of access `id` made one after another. -/
inductive MakesAll (c : Cursor) (whole : Bool) (id : Nat) : State → List Todo → State → List Given → Prop
  | nil {s : State} : MakesAll c whole id s [] s []
  | cons {s t u : State} {x : Todo} {xs : List Todo} {d : Given} {ds : List Given} :
    Makes c whole id s x t d → MakesAll c whole id t xs u ds → MakesAll c whole id s (x :: xs) u (d :: ds)

theorem modify_append_cons {α : Type} (f : α → α) (xs : List α) (y : α) (zs : List α) :
    (xs ++ y :: zs).modify xs.length f = xs ++ f y :: zs := by
  induction xs with
  | nil => rfl
  | cons x xs ih => simpa using ih

/-- A made piece has changed its own part only. -/
theorem Run1.after_eq {r : Run1} {s : State} {t : Todo} {d : Given} {done : List Part} {rest : List Todo} (hix : t.ix = done.length)
    (hp : r.o.parts = done ++ (t :: rest).map Todo.part) : r.after s t.ix d =
      { r with st := s, o := { r.o with parts := (done ++ [t.made d]) ++ rest.map Todo.part, time := timeAfter [d] r.o.time } } := by
  cases d with
  | none =>
    have same : (done ++ [t.made none]) ++ rest.map Todo.part = r.o.parts := by simp [hp, Todo.made]
    rw [same]
    rfl
  | some x =>
    have : r.o.parts.modify t.ix (fun p => { p with done := true, data := x.1 }) = done ++ t.made (some x) :: rest.map Todo.part := by
      rw [hp, hix]
      exact modify_append_cons ..
    simp [Run1.after, Run1.done, Outstanding.perform, timeAfter, this]

namespace MakesAll

variable {c : Cursor} {whole : Bool} {id : Nat} {s u : State} {ts : List Todo} {ds : List Given}

theorem length_eq (h : MakesAll c whole id s ts u ds) : ds.length = ts.length := by
  induction h with
  | nil => rfl
  | cons _ _ ih => simp [ih]

theorem timeAfter_cons (d : Given) (ds : List Given) (t : Nat) : timeAfter (d :: ds) t = timeAfter ds (timeAfter [d] t) := by
  cases d <;> rfl

/-- The fold over the pieces gives the last state, and each part as its piece left it. -/
theorem foldl_eq (h : MakesAll c whole id s ts u ds) : ∀ (done : List Part) (r : Run1), r.st = s → r.o.id = id → r.held = false →
    r.o.parts = done ++ ts.map Todo.part → (∀ j t, ts[j]? = some t → t.ix = done.length + j) →
      ts.foldl (performPiece c whole true) r =
        { st := u, o := { r.o with parts := done ++ List.zipWith Todo.made ts ds, time := timeAfter ds r.o.time }, held := false } := by
  induction h with
  | nil =>
    intro done r hs hid hheld hp hix
    obtain ⟨st, o, held⟩ := r
    subst hs hheld
    simp only [List.map_nil] at hp
    simp [timeAfter, ← hp]
  | @cons s t u x xs d ds hm _ ih =>
    intro done r hs hid hheld hp hix
    have first : x.ix = done.length := hix 0 x rfl
    rw [List.foldl_cons, hm r hs hid hheld, Run1.after_eq first hp]
    refine (ih (done ++ [x.made d]) _ ?_ ?_ ?_ ?_ ?_).trans ?_
    · rfl
    · exact hid
    · exact hheld
    · rfl
    · intro j t ht
      have := hix (j + 1) t ht
      simp
      omega
    · rw [timeAfter_cons d ds]
      simp

end MakesAll

end Sys2Proof.Machine
end

section
/-!
Loads: what each piece reads, and that a load leaves every byte as it stands (R156, R160 to R164, R202).
-/
namespace Sys2Proof.Machine

open Sys2Proof.Claims

/-! ### What a load leaves as it stands -/

/-- Between two states every byte reads the same, and a core's registers, held writes and outstanding accesses stand; its load buffer has
taken in lines only as their home serves them. -/
structure LoadKeeps (core : Nat) (s t : State) : Prop where
  writes : (t.core core).writes = (s.core core).writes
  sregs : (t.core core).sregs = (s.core core).sregs
  outs : (t.core core).outs = (s.core core).outs
  hist : (t.core core).hist = (s.core core).hist
  bufs : ∀ i b, (t.core i).buf b = (s.core i).buf b
  lines : ∀ l, t.ms.line l = s.ms.line l
  loadBuf : ∀ e ∈ (t.core core).loadBuf, e ∈ (s.core core).loadBuf ∨ e.data = s.ms.line e.key

/-- A load buffer whose lines are as their homes serve them. -/
def Sound (s : State) (core : Nat) : Prop := ∀ e ∈ (s.core core).loadBuf, e.data = s.ms.line e.key

theorem MemSys.read_congr {ms ns : MemSys} (h : ∀ l, ns.line l = ms.line l) (p n : Nat) : ns.read p n = ms.read p n := by
  simp only [MemSys.read, h]

namespace LoadKeeps

variable {core : Nat} {s t u : State}

theorem refl : LoadKeeps core s s := ⟨rfl, rfl, rfl, rfl, fun _ _ => rfl, fun _ => rfl, fun _ h => .inl h⟩

theorem trans (h : LoadKeeps core s t) (g : LoadKeeps core t u) : LoadKeeps core s u where
  writes := g.writes.trans h.writes
  sregs := g.sregs.trans h.sregs
  outs := g.outs.trans h.outs
  hist := g.hist.trans h.hist
  bufs i b := (g.bufs i b).trans (h.bufs i b)
  lines l := (g.lines l).trans (h.lines l)
  loadBuf e he := (g.loadBuf e he).elim (h.loadBuf e) fun heq => .inr (heq.trans (h.lines _))

theorem sound (h : LoadKeeps core s t) (hs : Sound s core) : Sound t core := fun e he =>
  ((h.loadBuf e he).elim (hs e) id).trans (h.lines _).symm

theorem readPlace (h : LoadKeeps core s t) (p : Place) (n : Nat) : t.readPlace p n = s.readPlace p n := by
  cases p with
  | buf i b off => exact congrArg (mread · off n) (h.bufs i b)
  | phys a => exact MemSys.read_congr h.lines a n
  | far => rfl

/-- A change of one core that leaves its registers, held writes, accesses, buffers and load buffer. -/
theorem of_modCore {f : Core → Core}
    (h : (f (s.core core)).writes = (s.core core).writes ∧ (f (s.core core)).sregs = (s.core core).sregs ∧
      (f (s.core core)).outs = (s.core core).outs ∧ (f (s.core core)).hist = (s.core core).hist)
    (hb : ∀ b, (f (s.core core)).buf b = (s.core core).buf b)
    (hl : ∀ e ∈ (f (s.core core)).loadBuf, e ∈ (s.core core).loadBuf ∨ e.data = s.ms.line e.key) : LoadKeeps core s (s.modCore core f) := by
  obtain ⟨hw, hs, ho, hh⟩ := h
  have own := State.core_modCore s core f
  refine ⟨?_, ?_, ?_, ?_, fun i b => ?_, fun _ => rfl, ?_⟩
  · rw [own, hw]
  · rw [own, hs]
  · rw [own, ho]
  · rw [own, hh]
  · by_cases hi : i = core
    · rw [hi, own, hb]
    · rw [State.core_modCore_other _ _ hi]
  · rw [own]
    exact hl

/-- A change outside the cores that leaves the home's lines. -/
theorem of_lines (hc : t.cores = s.cores) (hl : ∀ l, t.ms.line l = s.ms.line l) : LoadKeeps core s t := by
  have cores (i : Nat) : t.core i = s.core i := by rw [State.core, hc]; rfl
  exact ⟨by rw [cores], by rw [cores], by rw [cores], by rw [cores], fun i b => by rw [cores], hl, fun e he => .inl (by rwa [cores] at he)⟩

/-- An observation raises the core's clock only. -/
theorem raise (s : State) (core t : Nat) : LoadKeeps core s (s.modCore core fun k => k.raise t) := by
  refine .of_modCore ⟨rfl, rfl, rfl, rfl⟩ (fun b => ?_) fun e he => .inl he
  cases b <;> rfl

end LoadKeeps

theorem FillsOnly.loadKeeps {core : Nat} {s t : State} (h : FillsOnly core s t) : LoadKeeps core s t := by
  refine ⟨?_, ?_, ?_, ?_, fun i b => ?_, fun l => ?_, fun e he => .inl ?_⟩
  · rw [h.own]
  · rw [h.own]
  · rw [h.own]
  · rw [h.own]
  · by_cases hi : i = core
    · rw [hi, h.own]
      cases b <;> rfl
    · rw [h.others i hi]
  · rw [h.ms]
    rfl
  · rw [h.own] at he
    exact he

/-! ### A load at the home (R202) -/

theorem MemSys.line_setTime (ms : MemSys) (l : Nat) (t : Nat × Nat) (n : Nat) : (ms.setTime l t).line n = ms.line n := by
  rw [MemSys.setTime_frame]
  rfl

theorem find?_kput_other {α : Type} (m : KMap α) {i j : Nat} (v : α) (h : j ≠ i) :
    (kput m i v).find? (fun e => e.1 == j) = m.find? fun e => e.1 == j := by
  induction m with
  | nil => simp [kput, h.symm]
  | cons x m ih =>
    obtain ⟨k, w⟩ := x
    unfold kput
    split
    · simp [h.symm]
    · split
      · next hk =>
        subst hk
        simp [h.symm]
      · simp [List.find?_cons, ih]

/-- A line that comes into the near tier is served as before (R189). -/
theorem MemSys.line_hold (ms : MemSys) (l n : Nat) : (ms.hold l).line n = ms.line n := by
  unfold MemSys.hold
  split
  · next h =>
    have absent : ms.lines.find? (fun e => e.1 == l) = none := by
      have hheld : ms.held l = false := by
        simp only [Bool.and_eq_true, Bool.not_eq_true'] at h
        exact h.1.2
      simpa [MemSys.held] using hheld
    by_cases hn : n = l
    · subst hn
      simp only [MemSys.line, find?_kput, absent]
    · simp only [MemSys.line, find?_kput_other _ _ hn]
  · rfl

theorem State.homeLoad_keeps (s : State) (core p : Nat) : LoadKeeps core s (s.homeLoad core p) := by
  unfold State.homeLoad
  simp only
  refine LoadKeeps.trans ?_ (LoadKeeps.raise ..)
  refine .of_lines rfl fun l => ?_
  simp only [MemSys.line_setTime]
  split
  · exact MemSys.line_hold ..
  · rfl

/-! ### A load by the load buffer (R202) -/

/-- Bytes within one line, read from the line. -/
theorem MemSys.read_line (ms : MemSys) {p n : Nat} (h : p % 64 + n ≤ 64) : ms.read p n = ((ms.line (p / 64)).drop (p % 64)).take n := by
  obtain rfl | hn := Nat.eq_zero_or_pos n
  · simp [MemSys.read]
  · have one : (p % 64 + n + 63) / 64 = 1 := by omega
    simp [MemSys.read, one]

theorem Core.mem_fillBuf {k : Core} {pick : Nat} {e x : CacheLine} (h : x ∈ (k.fillBuf pick e).loadBuf) : x = e ∨ x ∈ k.loadBuf := by
  obtain rfl | h := List.mem_cons.mp h
  · exact .inl rfl
  · refine .inr ?_
    split at h
    · exact (List.mem_filter.mp h).1
    · exact (List.mem_filter.mp (List.mem_of_mem_eraseIdx h)).1

section

variable {s : State} {c : Cursor}

theorem bufferLoad_home (whole : Bool) (p n : Nat) :
    ∃ t, State.bufferLoad.home s c whole p n (p / 64) (s.core c.core) = some (s.readSlot c whole (.phys p) n, t) ∧ LoadKeeps c.core s t := by
  refine ⟨_, rfl, (s.homeLoad_keeps c.core p).trans (.of_modCore ⟨rfl, rfl, rfl, rfl⟩ (fun b => ?_) fun e he => ?_)⟩
  · cases b <;> rfl
  · obtain rfl | he := Core.mem_fillBuf he
    · exact .inr ((s.homeLoad_keeps c.core p).lines _).symm
    · exact .inl he

/-- With no store open a load gives its bytes, from a copy or from the home. -/
theorem bufferLoad_gives (hopen : (s.core c.core).storesOpen c.bn = false) (whole : Bool) (p n : Nat) :
    ∃ bs t, s.bufferLoad c whole true p n = some (bs, t) ∧ LoadKeeps c.core s t ∧
      (p % 64 + n ≤ 64 → c.mw = [] → Sound s c.core → bs = s.readPlace (.phys p) n) := by
  obtain ⟨t, ht, keeps⟩ := bufferLoad_home (s := s) (c := c) whole p n
  have home : State.bufferLoad.home s c whole p n (p / 64) (s.core c.core) = some (s.readSlot c whole (.phys p) n, t) ∧ LoadKeeps c.core s t ∧
      (p % 64 + n ≤ 64 → c.mw = [] → Sound s c.core → s.readSlot c whole (.phys p) n = s.readPlace (.phys p) n) :=
    ⟨ht, keeps, fun _ hmw _ => by rw [State.readSlot, hmw, withOld_nil]⟩
  unfold State.bufferLoad
  simp only [hopen]
  split
  · next e he =>
    split
    · refine ⟨_, _, if_neg (by simp), LoadKeeps.raise .., fun hfit _ hs => ?_⟩
      have key : e.key = p / 64 := by
        have := List.find?_some he
        simp only [Bool.and_eq_true, beq_iff_eq] at this
        exact this.1.1
      rw [hs e (List.mem_of_find?_eq_some he), key]
      exact (MemSys.read_line _ hfit).symm
    · exact ⟨_, _, home⟩
  · exact ⟨_, _, home⟩

end

end Sys2Proof.Machine
end

section
/-!
The pieces of an access over its addresses, and an access that makes them all at its dispatch (R153, R160, R301).
-/
namespace Sys2Proof.Machine

open Sys2Proof.Claims

/-! ### The pieces of an access -/

/-- A piece of an access over addresses, where a migration has put its way. -/
def work (s : State) (c : Cursor) (acc : Access) (n i : Nat) (a : W64) (op : PieceOp) : Todo :=
  { ix := i, n := n, piece := (s.piece c.core acc n a).forward s.ms, op := op }

/-- A piece that its core reaches itself: at its own buffer port, or within a line of the home. -/
def Reached (t : Todo) : Prop :=
  viaOf t.piece.sp t.piece.place = .own ∨ ∃ p, t.piece.place = .phys p ∧ isControl p = false ∧ p % 64 + t.n ≤ 64

theorem viaOf_phys (sp : Space) (p : Nat) : viaOf sp (.phys p) = .home := by cases sp <;> rfl

theorem viaOf_far (sp : Space) (k p : Nat) : viaOf sp (.far k p) = .fabric k := by cases sp <;> rfl

theorem viaOf_buf (sp : Space) (i : Nat) (b : Buf) (o : Nat) : viaOf sp (.buf i b o) = .own ∨ viaOf sp (.buf i b o) = .net i := by
  cases sp with
  | remote => exact .inr rfl
  | global | own | scratch => exact .inl rfl

theorem not_reached_of_via {t : Todo} (hv : viaOf t.piece.sp t.piece.place ≠ .own) (hp : ∀ p, t.piece.place ≠ .phys p) : ¬Reached t := by
  rintro (hown | ⟨p, hphys, -⟩)
  · exact hv hown
  · exact hp p hphys

theorem Reached.of_phys {t : Todo} {p : Nat} (h : Reached t) (hp : t.piece.place = .phys p) : isControl p = false ∧ p % 64 + t.n ≤ 64 := by
  obtain hown | ⟨q, hphys, hq⟩ := h
  · rw [hp, viaOf_phys] at hown
    exact absurd hown nofun
  · obtain rfl : q = p := Place.phys.inj (hphys.symm.trans hp)
    exact hq

/-- The ways of a piece: the own buffer port, the cluster network, control space, the home, the fabric. -/
theorem piece_cases (t : Todo) :
    viaOf t.piece.sp t.piece.place = .own ∨
    (∃ i, viaOf t.piece.sp t.piece.place = .net i ∧ ¬Reached t) ∨
    (∃ p, t.piece.place = .phys p ∧ isControl p = true ∧ ¬Reached t) ∨
    (∃ p, t.piece.place = .phys p ∧ isControl p = false) ∨
    ∃ k p, t.piece.place = .far k p ∧ ¬Reached t := by
  cases hp : t.piece.place with
  | buf j b off =>
    refine (viaOf_buf t.piece.sp j b off).imp_right fun hv => .inl ⟨j, hv, not_reached_of_via ?_ ?_⟩
    · rw [hp, hv]
      exact nofun
    · rw [hp]
      exact nofun
  | phys p =>
    cases hc : isControl p with
    | true => exact .inr (.inr (.inl ⟨p, rfl, hc, fun h => by simp [(h.of_phys hp).1] at hc⟩))
    | false => exact .inr (.inr (.inr (.inl ⟨p, rfl, hc⟩)))
  | far k p =>
    refine .inr (.inr (.inr (.inr ⟨k, p, rfl, not_reached_of_via ?_ ?_⟩)))
    · rw [hp, viaOf_far]
      exact nofun
    · rw [hp]
      exact nofun

theorem Piece.isOwn_forward (p : Piece) (ms : MemSys) : (p.forward ms).isOwn = p.isOwn := by
  unfold Piece.isOwn Piece.forward
  cases p.place with
  | phys a => rw [viaOf_phys, viaOf_phys]
  | buf | far => rfl

/-- A piece in an own buffer is at the buffer that its address names (R153). -/
theorem place_of_isOwn {s : State} {core n : Nat} {acc : Access} {a : W64} (h : (s.piece core acc n a).isOwn = true) :
    ∃ b off, s.space core a n = .own b off ∧ (s.piece core acc n a).place = .buf core b off := by
  unfold Piece.isOwn State.piece State.placeOf at h
  cases hs : s.space core a n with
  | own b off => exact ⟨b, off, rfl, by simp [State.piece, State.placeOf, hs]⟩
  | remote | scratch => simp [hs, viaOf] at h
  | global va =>
    simp only [hs] at h
    split at h
    · split at h
      · simp [viaOf] at h
      · simp [viaOf] at h
    · simp [viaOf] at h

section

variable {s : State} {c : Cursor} {acc : Access} {n i : Nat} {a : W64} {op : PieceOp}

theorem work_isOwn : (work s c acc n i a op).piece.isOwn = (s.piece c.core acc n a).isOwn := Piece.isOwn_forward ..

/-- What a core reaches itself, as the claims say it. -/
theorem reached_of_local (h : Local s c acc n a) : Reached (work s c acc n i a op) := by
  unfold Local at h
  split at h
  · next hv => exact .inl hv
  · next p _ hp => exact .inr ⟨p, hp, h⟩
  · exact h.elim

end

/-! ### The access as a whole -/

/-- The pieces of an access over a list of addresses with what is done at each. -/
def works (s : State) (c : Cursor) (acc : Access) (n : Nat) (as : List (W64 × PieceOp)) : List Todo :=
  as.mapIdx fun i a => work s c acc n i a.1 a.2

section

variable {s t : State} {c : Cursor} {acc : Access} {n : Nat} {as : List (W64 × PieceOp)}

theorem getElem?_works (j : Nat) : (works s c acc n as)[j]? = as[j]?.map fun a => work s c acc n j a.1 a.2 := List.getElem?_mapIdx

theorem length_works : (works s c acc n as).length = as.length := List.length_mapIdx

theorem mem_works {t : Todo} (h : t ∈ works s c acc n as) : ∃ i, ∃ a ∈ as, t = work s c acc n i a.1 a.2 := by
  obtain ⟨i, hi, rfl⟩ := List.mem_mapIdx.mp h
  exact ⟨i, _, List.getElem_mem hi, rfl⟩

theorem works_ix (j : Nat) (x : Todo) (h : (works s c acc n as)[j]? = some x) : x.ix = j := by
  rw [getElem?_works] at h
  obtain ⟨a, -, rfl⟩ := Option.map_eq_some_iff.mp h
  rfl

theorem FillsOnly.forward (h : FillsOnly c.core s t) (p : Piece) : p.forward t.ms = p.forward s.ms := by
  rw [h.ms]
  rfl

theorem forwarded_works (h : FillsOnly c.core s t) :
    forwarded t (as.mapIdx fun i a => { ix := i, n := n, piece := s.piece c.core acc n a.1, op := a.2 }) = works s c acc n as := by
  refine List.ext_getElem? fun i => ?_
  simp [forwarded, works, work, h.forward, Function.comp_def]

/-- An access stays in own buffers if every address does, unless its result is fixed. -/
theorem ownOnly_works {o : Outstanding} (hh : o.handle = none) (hd : ∀ ws, o.dest ≠ .fixed ws) :
    ownOnly o (works s c acc n as) = true ↔ AllOwn s c acc n (as.map fun a => a.1) := by
  have pieces : (works s c acc n as).all (fun t => t.piece.isOwn) = true ↔ AllOwn s c acc n (as.map fun a => a.1) := by
    rw [List.all_eq_true]
    refine ⟨fun h a ha => ?_, fun h t ht => ?_⟩
    · obtain ⟨x, hx, rfl⟩ := List.mem_map.mp ha
      obtain ⟨i, hi⟩ := List.getElem?_of_mem hx
      rw [← work_isOwn (i := i) (op := x.2)]
      exact h _ (List.mem_of_getElem? (by rw [getElem?_works, hi]; rfl))
    · obtain ⟨i, a, ha, rfl⟩ := mem_works ht
      rw [work_isOwn]
      exact h _ (List.mem_map_of_mem ha)
  unfold ownOnly
  cases hdest : o.dest with
  | fixed ws => exact absurd hdest (hd ws)
  | none | scalar | vector => simpa [hh] using pieces

theorem FillsOnly.waitsFor (h : FillsOnly c.core s t) (sc : Option Scope) : Claims.waitsFor t c sc = Claims.waitsFor s c sc := by
  have groups : t.groupMembers = s.groupMembers := by
    rw [h.state]
    rfl
  cases sc with
  | none => rfl
  | some x =>
    have names : rowNames t x = rowNames s x := by
      funext p
      cases x <;> simp only [rowNames, groups]
    simp only [Claims.waitsFor, State.rowOf, names]
    rw [h.own]

/-- An access that waits for nothing makes its pieces in order; on own buffers it writes its destination with L = 6, else it is
outstanding with a part for each piece (R156, R160, R301). -/
theorem accessOp_made {u : State} {o : Outstanding} {ts fs : List Todo} {ds : List Given} (hf : FillsOnly c.core s t) (hp : Prompt s c)
    (hfs : forwarded t ts = fs) (hix : ∀ (j : Nat) (x : Todo), fs[j]? = some x → x.ix = j) (hrel : Claims.waitsFor s c o.scope = []) (hver : o.ver = none)
    (hcount : ownOnly o fs = true ∨ countersFull s c o.ldPend o.stPend = false)
    (hm : MakesAll c (oneUnit fs) (s.core c.core).outNext t fs u ds) :
    accessOp t c o ts = .next (
      let parts := List.zipWith Todo.made fs ds
      if ownOnly o fs then u.puts c 6 (o.dest.writes (parts.map fun p => p.data))
      else u.addOut c.core { o with
        id := (s.core c.core).outNext, ldPend := o.ldPend, stPend := o.stPend, rel := [], parts := parts, time := timeAfter ds o.time }) := by
  subst hfs
  have next : (t.core c.core).outNext = (s.core c.core).outNext := by rw [hf.own]
  have count : ownOnly o (forwarded t ts) = true ∨ countersFull t c o.ldPend o.stPend = false := by
    refine hcount.imp_right fun h => ?_
    unfold countersFull at h ⊢
    rw [hf.own]
    exact h
  have all : madeAll t c o (forwarded t ts) = { st := u, held := false, o := { dispatched t c o (forwarded t ts) with
      parts := List.zipWith Todo.made (forwarded t ts) ds, time := timeAfter ds o.time } } :=
    hm.foldl_eq [] _ rfl next rfl rfl fun j x hx => by simpa using hix j x hx
  refine accessOp_dispatches (hf.prompt hp) ?_
  rw [dispatchAccess_made (hf.prompt hp) count ((hf.waitsFor _).trans hrel) hver (by rw [all]), all]
  cases hown : ownOnly o (forwarded t ts) with
  | true => rfl
  | false => simp [dispatched, hown, next, (hf.waitsFor o.scope).trans hrel]

end

end Sys2Proof.Machine
end

section
/-!
Loads complete: at once from own buffers, through the counter elsewhere; speculative ones defer (R156, R160 to R164).
-/
namespace Sys2Proof.Machine

open Sys2Proof.Claims

/-! ### Making a load's piece -/

section

variable {c : Cursor} {whole : Bool} {id : Nat} {s : State} {t : Todo}

theorem makes_load_own (hop : t.op = .load false) (hv : viaOf t.piece.sp t.piece.place = .own) :
    Makes c whole id s t s (some (s.loadOwn c whole t.piece.place t.n, 0)) := by
  intro r hs _ hheld
  subst hs
  rw [performPiece, if_neg (by simp [hheld]), hop]
  simp only [performLoad, hv]
  rfl

/-- A load's piece gives its bytes, or its queue answers later; no byte changes. -/
theorem makes_load (hop : t.op = .load false) (hopen : (s.core c.core).storesOpen c.bn = false) :
    ∃ u d, Makes c whole id s t u d ∧ LoadKeeps c.core s u ∧ (∀ x, d = some x → x.2 = 0) ∧
      (Reached t → c.mw = [] → (s.core c.core).hist = [] → Sound s c.core → d = some (s.readPlace t.piece.place t.n, 0)) := by
  have unheld {r : Run1} (hheld : r.held = false) : performPiece c whole true r t = performLoad c whole true false r t := by
    rw [performPiece, if_neg (by simp [hheld]), hop]
  obtain hv | ⟨j, hv, hn⟩ | ⟨p, hp, hc, hn⟩ | ⟨p, hp, hc⟩ | ⟨k, p, hp, hn⟩ := piece_cases t
  · refine ⟨s, _, makes_load_own hop hv, .refl, fun x hx => by cases hx; rfl, fun _ hmw hh _ => ?_⟩
    simp [State.loadOwn, hmw, hh, withOld_nil]
  · refine ⟨s.sendNet c.core j (.load id t.ix), none, fun r hs hid hheld => ?_, .of_lines rfl fun _ => rfl, nofun, fun hr => (hn hr).elim⟩
    rw [unheld hheld]
    simp only [performLoad, hv, hs, hid]
    rfl
  · refine ⟨s, some (s.ctlRead p t.n, 0), fun r hs _ hheld => ?_, .refl, fun x hx => by cases hx; rfl, fun hr => (hn hr).elim⟩
    rw [unheld hheld]
    simp only [performLoad, hp, viaOf_phys, hc, hs]
    rfl
  · obtain ⟨bs, u, hload, keeps, reads⟩ := bufferLoad_gives hopen whole p t.n
    refine ⟨u, some (bs, 0), fun r hs _ hheld => ?_, keeps, fun x hx => by cases hx; rfl, fun hr hmw _ hsound => ?_⟩
    · rw [unheld hheld]
      simp only [performLoad, hp, viaOf_phys, hc, hs, hload]
      rfl
    · rw [reads (hr.of_phys hp).2 hmw hsound, hp]
  · refine ⟨s.sendFabric k 0 (.access c.core id (.load p t.n id)), none, fun r hs hid hheld => ?_, .of_lines rfl fun _ => rfl, nofun,
      fun hr => (hn hr).elim⟩
    rw [unheld hheld]
    simp only [performLoad, hp, viaOf_far, hs, hid]
    rfl

end

/-! ### Making all pieces of a load -/

theorem timeAfter_of_zero {ds : List Given} (h : ∀ d ∈ ds, ∀ x, d = some x → x.2 = 0) (t : Nat) : timeAfter ds t = t := by
  induction ds generalizing t with
  | nil => rfl
  | cons d ds ih =>
    obtain ⟨hd, hds⟩ := List.forall_mem_cons.mp h
    cases d with
    | none => exact ih hds t
    | some x =>
      rw [show timeAfter (some x :: ds) t = timeAfter ds (Nat.max t x.2) from rfl, hd x rfl, ih hds]
      exact Nat.max_eq_left (Nat.zero_le t)

section

variable {c : Cursor} {whole : Bool} {id : Nat}

/-- In own buffers no piece of a load changes the state. -/
theorem makesAll_loads_own {s : State} {ts : List Todo} (h : ∀ t ∈ ts, t.op = .load false ∧ viaOf t.piece.sp t.piece.place = .own) :
    MakesAll c whole id s ts s (ts.map fun t => some (s.loadOwn c whole t.piece.place t.n, 0)) := by
  induction ts with
  | nil => exact .nil
  | cons t ts ih =>
    obtain ⟨⟨hop, hv⟩, hts⟩ := List.forall_mem_cons.mp h
    exact .cons (makes_load_own hop hv) (ih hts)

theorem makesAll_loads {ts : List Todo} (hop : ∀ t ∈ ts, t.op = .load false) (s : State) (hopen : (s.core c.core).storesOpen c.bn = false) :
    ∃ u ds, MakesAll c whole id s ts u ds ∧ LoadKeeps c.core s u ∧ (∀ d ∈ ds, ∀ x, d = some x → x.2 = 0) ∧
      ∀ (j : Nat) (t : Todo), ts[j]? = some t → Reached t → c.mw = [] → (s.core c.core).hist = [] → Sound s c.core →
        ds[j]? = some (some (s.readPlace t.piece.place t.n, 0)) := by
  induction ts generalizing s with
  | nil => exact ⟨s, [], .nil, .refl, nofun, nofun⟩
  | cons t ts ih =>
    obtain ⟨ht, hts⟩ := List.forall_mem_cons.mp hop
    obtain ⟨v, d, hm, keeps, zero, gives⟩ := makes_load (whole := whole) (id := id) ht hopen
    obtain ⟨u, ds, hms, keeps', zeros, gives'⟩ := ih hts v (by
      unfold Core.storesOpen at hopen ⊢
      rwa [keeps.outs])
    refine ⟨u, d :: ds, .cons hm hms, keeps.trans keeps', List.forall_mem_cons.mpr ⟨zero, zeros⟩, fun j x hx hr hmw hh hs => ?_⟩
    cases j with
    | zero =>
      obtain rfl : t = x := Option.some.inj hx
      exact congrArg some (gives hr hmw hh hs)
    | succ j =>
      have := gives' j x hx hr hmw (keeps.hist.trans hh) (keeps.sound hs)
      rwa [keeps.readPlace] at this

end

/-! ### A load over its addresses -/

/-- What is done at the addresses of a load. -/
def loadWorks (as : List W64) : List (W64 × PieceOp) := as.map fun a => (a, .load false)

section

variable {s : State} {c : Cursor} {n : Nat} {as : List W64}

theorem loads_eq : s.loads c.core n false as =
    (loadWorks as).mapIdx fun i a => { ix := i, n := n, piece := s.piece c.core .read n a.1, op := a.2 } := by
  refine List.ext_getElem? fun i => ?_
  simp [State.loads, loadWorks, Function.comp_def]

theorem loadWorks_addresses (as : List W64) : (loadWorks as).map (fun a => a.1) = as := by simp [loadWorks, Function.comp_def]

theorem getElem?_loadWorks (j : Nat) :
    (works s c .read n (loadWorks as))[j]? = as[j]?.map fun a => work s c .read n j a (.load false) := by
  rw [getElem?_works, loadWorks, List.getElem?_map, Option.map_map]
  rfl

theorem loadWorks_op : ∀ t ∈ works s c .read n (loadWorks as), t.op = .load false := by
  intro t ht
  obtain ⟨i, a, ha, rfl⟩ := mem_works ht
  obtain ⟨x, -, rfl⟩ := List.mem_map.mp ha
  rfl

/-- An address of an own buffer needs no translation. -/
theorem State.fillFor_own {acc : Access} (h : AllOwn s c acc n as) : s.fillFor c.core n as = s := by
  refine List.foldlRecOn as _ (motive := fun t => t = s) rfl fun t ht a ha => ?_
  subst ht
  obtain ⟨b, off, hs, -⟩ := place_of_isOwn (h a ha)
  rw [hs]

/-- In own buffers the pieces are where their addresses say. -/
theorem works_own {acc : Access} {xs : List (W64 × PieceOp)} (h : AllOwn s c acc n (xs.map fun a => a.1)) : works s c acc n xs =
    xs.mapIdx fun i a => { ix := i, n := n, piece := s.piece c.core acc n a.1, op := a.2 } := by
  refine List.mapIdx_eq_mapIdx_iff.mpr fun i hi => ?_
  obtain ⟨b, off, -, hp⟩ := place_of_isOwn (h _ (List.mem_map_of_mem (List.getElem_mem hi)))
  have same : (s.piece c.core acc n xs[i].1).forward s.ms = s.piece c.core acc n xs[i].1 := by
    unfold Piece.forward
    rw [hp]
    cases hx : s.piece c.core acc n xs[i].1
    simp_all
  rw [work, same]

end

/-- What a load is besides its parts: destination, acquire and speculation. -/
def loadOut (s : State) (c : Cursor) (d : LoadDest) (acq : Option Bool) (spec : Bool) : Outstanding :=
  { newOut s c with dest := d, acq := acq, spec := spec }

section

variable {s : State} {c : Cursor} {n : Nat} {as : List W64} {d : LoadDest} {acq : Option Bool} {spec : Bool}

theorem finishLoad_own (hp : Prompt s c) (hd : ∀ ws, d ≠ .fixed ws) (h : AllOwn s c .read n as) :
    finishLoad s c n as (loadOut s c d acq spec) = .next (s.puts c 6 (d.writes (as.map fun a =>
      s.loadOwn c (oneUnit (s.loads c.core n false as)) (placeOf s c .read n a) n))) := by
  have hall : AllOwn s c .read n ((loadWorks as).map fun a => a.1) := by rwa [loadWorks_addresses]
  have own := (ownOnly_works (s := s) (c := c) (acc := .read) (n := n) (o := { loadOut s c d acq spec with ldPend := true }) rfl hd).mpr hall
  have pieces : ∀ t ∈ works s c .read n (loadWorks as), t.op = .load false ∧ viaOf t.piece.sp t.piece.place = .own := by
    intro t ht
    refine ⟨loadWorks_op t ht, ?_⟩
    obtain ⟨i, a, ha, rfl⟩ := mem_works ht
    have := hall a.1 (List.mem_map_of_mem ha)
    rw [← work_isOwn (i := i) (op := a.2)] at this
    simpa [Piece.isOwn] using this
  have made := accessOp_made (o := { loadOut s c d acq spec with ldPend := true }) .refl hp (loads_eq ▸ forwarded_works .refl) works_ix
    rfl rfl (.inl own) (makesAll_loads_own pieces)
  have unit : oneUnit (works s c .read n (loadWorks as)) = oneUnit (s.loads c.core n false as) := by rw [works_own hall, loads_eq]
  rw [finishLoad, State.fillFor_own h, made, if_pos own, unit]
  refine congrArg (fun ds => Host.Outcome.next (s.puts c 6 (d.writes ds))) (List.ext_getElem? fun j => ?_)
  simp only [List.getElem?_map, List.getElem?_zipWith, getElem?_loadWorks]
  cases as[j]? <;> rfl

/-- A load with another address raises ld and leaves a part for each address. -/
theorem finishLoad_elsewhere (hp : Prompt s c) (hd : ∀ ws, d ≠ .fixed ws) (h : ¬AllOwn s c .read n as) (hld : (s.core c.core).ld < 256)
    (hopen : (s.core c.core).storesOpen c.bn = false) :
    ∃ (t : State) (parts : List Part),
      finishLoad s c n as (loadOut s c d acq spec) = .next (t.addOut c.core { loadOut s c d acq spec with ldPend := true, parts := parts }) ∧
      parts.length = as.length ∧ LoadKeeps c.core s t ∧
      ∀ (j : Nat) (a : W64), as[j]? = some a → ∃ p, parts[j]? = some p ∧ p.place = placeOf s c .read n a ∧ p.n = n ∧
        (Local s c .read n a → c.mw = [] → (s.core c.core).hist = [] → Sound s c.core → p.done = true ∧ p.data = s.readPlace p.place n) := by
  have fills := State.fillFor_fillsOnly s c.core n as
  have hall : ¬AllOwn s c .read n ((loadWorks as).map fun a => a.1) := by rwa [loadWorks_addresses]
  have own : ownOnly { loadOut s c d acq spec with ldPend := true } (works s c .read n (loadWorks as)) = false :=
    Bool.eq_false_iff.mpr fun ho => hall ((ownOnly_works rfl hd).mp ho)
  have count : countersFull s c true false = false := by
    unfold countersFull
    simpa using hld
  obtain ⟨u, ds, hm, keeps, zero, gives⟩ := makesAll_loads (c := c) (whole := oneUnit (works s c .read n (loadWorks as)))
    (id := (s.core c.core).outNext) loadWorks_op (s.fillFor c.core n as) (by
      unfold Core.storesOpen at hopen ⊢
      rwa [fills.loadKeeps.outs])
  have made := accessOp_made (o := { loadOut s c d acq spec with ldPend := true }) fills hp (loads_eq ▸ forwarded_works fills) works_ix
    rfl rfl (.inr count) hm
  rw [own, timeAfter_of_zero zero] at made
  have length : ds.length = as.length := by rw [hm.length_eq, length_works, loadWorks, List.length_map]
  refine ⟨u, List.zipWith Todo.made (works s c .read n (loadWorks as)) ds, made, ?_, fills.loadKeeps.trans keeps, fun j a ha => ?_⟩
  · simp [length_works, length, loadWorks]
  · have hw : (works s c .read n (loadWorks as))[j]? = some (work s c .read n j a (.load false)) := by rw [getElem?_loadWorks, ha]; rfl
    obtain ⟨g, hg⟩ : ∃ g, ds[j]? = some g := by
      refine ⟨_, List.getElem?_eq_getElem ?_⟩
      rw [length]
      exact (List.getElem?_eq_some_iff.mp ha).1
    have part : (List.zipWith Todo.made (works s c .read n (loadWorks as)) ds)[j]? =
        some ((work s c .read n j a (.load false)).made g) := by
      rw [List.getElem?_zipWith, hw, hg]
    refine ⟨_, part, ?_, ?_, fun hl hmw hh hs => ?_⟩
    · cases g <;> rfl
    · cases g <;> rfl
    · have given := gives j _ hw (reached_of_local hl) hmw (fills.loadKeeps.hist.trans hh) (fills.loadKeeps.sound hs)
      obtain rfl := Option.some.inj (hg.symm.trans given)
      rw [fills.loadKeeps.readPlace]
      exact ⟨rfl, rfl⟩

/-- A load form is a load with a register or a vector register as its destination. -/
theorem loadForm_out {i : Instr} {us : List Use} {rs vs : List Reg} {o : Outstanding}
    (hi : loadForm i s c = some (us, rs, vs, n, as, o)) : ∃ d acq spec, o = loadOut s c d acq spec ∧ ∀ ws, d ≠ .fixed ws := by
  unfold loadForm at hi
  split at hi <;> cases hi <;> exact ⟨_, _, _, rfl, nofun⟩

end

/-! ### Deferred results (R164) -/

/-- A deferred result returns as a load does where its address names memory that a load reaches through a queue, else with L = 6. -/
theorem deferredLoad_eq {s : State} {c : Cursor} (hp : Prompt s c) (hld : (s.core c.core).ld < 256) (a : W64) (ws : List WriteTo) :
    deferredLoad s c a ws = .next (deferred s c a ws) := by
  unfold deferredLoad deferred
  simp only [tag_eq]
  split
  · have count : countersFull s c true false = false := by
      unfold countersFull
      simpa using hld
    exact accessOp_made (o := { newOut s c with ldPend := true, dest := .fixed ws, spec := true }) (fs := []) .refl hp rfl nofun rfl rfl
      (.inr count) .nil
  · rfl

theorem scalarDefers : ScalarDefers := by
  unfold ScalarDefers
  intro s c d a sz off h ad check both
  refine ⟨fun hp hld hbad => ?_, fun e hclean he hdef => ?_⟩
  · have spec : specAt d a sz off s = .next (deferred s c ad [.scalar d.val 0 true]) := by
      refine (slotOp_act h.1 h.2 _).trans ?_
      by_cases hdf : (s.sr c a.val).df = true
      · exact (if_pos hdf).trans (deferredLoad_eq hp hld ..)
      · obtain ⟨e, he, hdef⟩ := hbad.resolve_left hdf
        refine (if_neg hdf).trans ?_
        rw [show checkEach s c.core c.slot.index .slots .read [scalarPart (baseAddr s c a off) sz] = some e from he]
        exact (if_pos ((deferrable_iff e.1).mpr hdef)).trans (deferredLoad_eq hp hld ..)
    exact ⟨spec, fun hoff => by subst hoff; exact spec⟩
  · have spec : specAt d a sz off s = .next (trapped s c e.1 e.2) := by
      refine (slotOp_act h.1 h.2 _).trans ((if_neg (by simp [hclean])).trans ?_)
      rw [show checkEach s c.core c.slot.index .slots .read [scalarPart (baseAddr s c a off) sz] = some e from he]
      exact if_neg fun hd => hdef ((deferrable_iff e.1).mp hd)
    exact ⟨spec, fun hoff => by subst hoff; exact spec⟩

/-- The address of a lane of `vlds` (R163, R164). -/
def strideLane (a : Reg) (off : BitVec 32) (stride : Option (BitVec 32)) (s : State) (c : Cursor) (l : Nat × Nat) : W64 :=
  laneAddr s c a off (strideOf stride) l

theorem vectorDefers : VectorDefers := by
  unfold VectorDefers
  intro s c vd a off stride bad lanes check good zeros as dest both h hp hbad hgood
  have spec : vspecOn vd a (strideLane a off stride) s = specLoad s c vd (strideLane a off stride) bad := vspecOn_eq h ⟨hbad, hgood⟩
  have back {x : State} (hx : specLoad s c vd (strideLane a off stride) bad = .next x) : both x :=
    ⟨spec.trans hx, fun hoff hst => by subst hoff hst; exact spec.trans hx⟩
  refine ⟨fun cl hcl ds => ?_, fun has hzeros hld => back ?_, fun has hodd => ?_⟩
  · exact List.mem_append_right _ (List.mem_map.mpr ⟨(cl, s.active c cl), List.mem_map_of_mem hcl, rfl⟩)
  · have first : ((zeros.map fun cl => (cl, s.active c cl)).flatMap fun z => z.2.map fun i => strideLane a off stride s c (z.1, i)) =
        zeros.flatMap lanes :=
      List.flatMap_map ..
    have some_ : (zeros.map fun cl => (cl, s.active c cl)).isEmpty = false := by simpa using hzeros
    have none_ : as.isEmpty = true := by rw [has]; rfl
    refine (if_pos (Bool.and_eq_true_iff.mpr ⟨none_, by rw [some_]; rfl⟩)).trans ?_
    rw [first]
    exact deferredLoad_eq hp hld ..
  · have loads : specLoad s c vd (strideLane a off stride) bad = finishLoad s c 4 as (loadOut s c (specDest s c vd bad) none true) := by
      refine (if_neg fun he => ?_).trans (onMemory_pass hodd _)
      exact has (List.isEmpty_iff.mp (Bool.and_eq_true_iff.mp he).1)
    refine ⟨fun hown => back ?_, fun hown hld hopen => ?_⟩
    · rw [loads, finishLoad_own hp (by exact nofun) hown]
      rfl
    · obtain ⟨t, parts, ht, hlen, -⟩ := finishLoad_elsewhere (d := specDest s c vd bad) (acq := none) (spec := true) hp (by exact nofun) hown hld hopen
      exact ⟨t, parts, hlen, back (loads.trans ht)⟩

/-- Settles O22. -/
theorem loadsComplete : Obligations.LoadsComplete := by
  unfold Obligations.LoadsComplete
  refine ⟨scalarDefers, vectorDefers, fun i s c us rs vs n as o hi h hc hv hr => ?_⟩
  obtain ⟨d, acq, spec, rfl, hd⟩ := loadForm_out hi
  have loads := exec_loadForm hi h hc hv hr
  refine ⟨fun hl => ?_, fun hp hown => ⟨?_, fun hmw hh => ?_⟩, fun hp hown hld hopen => ?_⟩
  · rw [loads, finishLoad, accessOp_lags ((State.fillFor_fillsOnly s c.core n as).lags hl)]
    rfl
  · rw [loads, finishLoad_own hp hd hown]
    rfl
  · have bytes : (as.map fun a => s.loadOwn c (oneUnit (s.loads c.core n false as)) (placeOf s c .read n a) n) =
        as.map fun a => s.readPlace (placeOf s c .read n a) n :=
      List.map_congr_left fun a _ => by simp [State.loadOwn, hmw, hh, withOld_nil]
    rw [loads, finishLoad_own hp hd hown, bytes]
    rfl
  · obtain ⟨t, parts, ht, hlen, keeps, hparts⟩ := finishLoad_elsewhere (acq := acq) (spec := spec) hp hd hown hld hopen
    refine ⟨t, parts, loads.trans ht, hlen, keeps.writes, keeps.sregs, keeps.outs, fun _ p => keeps.readPlace p 1, fun j a ha => ?_⟩
    obtain ⟨p, hp, hplace, hn, hgives⟩ := hparts j a ha
    refine ⟨p, hp, hplace, hn, fun hl hmw hh hbuf _ => hgives hl hmw hh fun e he => ?_⟩
    rw [hbuf] at he
    exact absurd he nofun

end Sys2Proof.Machine
end

section
/-!
The bytes of memory after stores: at the home a line, in a typed buffer the buffer's bytes (R157, R187 to R189, R202).
-/
namespace Sys2Proof.Machine

open Sys2Proof.Claims

/-! ### A store within one line of the home (R187) -/

theorem overlay_length {xs bs : List Byte} {o : Nat} (h : o + bs.length ≤ xs.length) : (overlay xs o bs).length = xs.length := by
  simp [overlay]
  omega

theorem getElem?_overlay {xs bs : List Byte} {off : Nat} (h : off + bs.length ≤ xs.length) (i : Nat) :
    (overlay xs off bs)[i]? = if off ≤ i ∧ i < off + bs.length then bs[i - off]? else xs[i]? := by
  have ho : (xs.take off).length = off := by simp; omega
  unfold overlay
  rw [List.append_assoc]
  by_cases h1 : i < off
  · rw [List.getElem?_append_left (by omega), if_neg (by omega), List.getElem?_take_of_lt h1]
  · rw [List.getElem?_append_right (by omega), ho]
    by_cases h2 : i - off < bs.length
    · rw [List.getElem?_append_left h2, if_pos (by omega)]
    · rw [List.getElem?_append_right (by omega), if_neg (by omega), List.getElem?_drop]
      congr 1
      omega

/-- A xs of memory after a write within it. -/
theorem mread_mwrite_line {m : Memory} (h : Memory.wf m) {p : Nat} {bs : List Byte} (hfit : p % 64 + bs.length ≤ 64) :
    mread (mwrite m p bs) (p / 64 * 64) 64 = overlay (mread m (p / 64 * 64) 64) (p % 64) bs := by
  have len : (mread m (p / 64 * 64) 64).length = 64 := by simp [mread_eq_map h.1]
  refine List.ext_getElem? fun i => ?_
  rw [getElem?_overlay (by omega), mread_eq_map (mwrite_wf m p bs h).1, mread_eq_map h.1]
  by_cases hi : i < 64
  · simp only [List.getElem?_map, List.getElem?_range hi, Option.map_some]
    split
    · next hin =>
      have := mget_mwrite_in m p bs (i - p % 64) (by omega)
      rw [show p + (i - p % 64) = p / 64 * 64 + i by omega] at this
      rw [this]
      exact (List.getElem?_eq_getElem _).symm
    · next hout => rw [mget_mwrite_out m p bs _ (by omega)]
  · have : 64 ≤ i := by omega
    rw [if_neg (by omega)]
    simp [this]

theorem MemSys.lines_of_not_held {ms : MemSys} {l : Nat} (h : (ms.hold l).held l = false) :
    ms.lines.find? (fun e => e.1 == l) = none := by
  have hold : ms.held l = false := by
    by_contra hh
    have hh : ms.held l = true := by simpa using hh
    simp [MemSys.hold, hh] at h
  simpa [MemSys.held] using hold

/-- A line after a store within a line: the stored bytes over the line as it was. -/
theorem MemSys.line_writeLine_eq {ms : MemSys} (h : ms.Tidy) {p : Nat} {bs : List Byte} (hfit : p % 64 + bs.length ≤ 64) (l : Nat) :
    (ms.writeLine p bs).line l = if l = p / 64 then overlay (ms.line l) (p % 64) bs else ms.line l := by
  unfold MemSys.writeLine
  simp only
  split
  · split
    · next hl =>
      subst hl
      simp only [MemSys.line, find?_kput]
      exact congrArg (overlay · (p % 64) bs) (ms.line_hold (p / 64) (p / 64))
    · next hl =>
      rw [← ms.line_hold (p / 64) l]
      simp only [MemSys.line, find?_kput_other _ _ hl]
  · next hn =>
    have absent := MemSys.lines_of_not_held (by simpa using hn)
    split
    · next hl =>
      subst hl
      simp only [MemSys.line, absent]
      exact mread_mwrite_line h.1 hfit
    · next hl =>
      simp only [MemSys.line]
      split
      · rfl
      · exact mread_mwrite_apart h.1 (by omega)

theorem MemSys.Tidy.writeLine {ms : MemSys} (h : ms.Tidy) {p : Nat} {bs : List Byte} (hfit : p % 64 + bs.length ≤ 64) :
    (ms.writeLine p bs).Tidy := by
  unfold MemSys.writeLine
  simp only
  split
  · refine ⟨(h.hold _).1, fun e he => ?_⟩
    obtain rfl | he := mem_kput he
    · have := (h.hold (p / 64)).line_length (p / 64)
      rw [overlay_length (by omega), this]
    · exact (h.hold _).2 e he
  · exact ⟨mwrite_wf _ _ _ h.1, h.2⟩

theorem MemSys.write_nil (ms : MemSys) (p : Nat) : ms.write p [] = ms.renew p 0 := rfl

theorem overlay_nil (line : List Byte) (o : Nat) : overlay line o [] = line := by simp [overlay]

theorem MemSys.line_write {ms : MemSys} (h : ms.Tidy) {p : Nat} {bs : List Byte} (hfit : p % 64 + bs.length ≤ 64) (l : Nat) :
    (ms.write p bs).line l = if l = p / 64 then overlay (ms.line l) (p % 64) bs else ms.line l := by
  by_cases h0 : bs = []
  · subst h0
    rw [MemSys.write_nil, overlay_nil]
    split <;> rfl
  · rw [MemSys.write_within ms h0 hfit]
    exact MemSys.line_writeLine_eq h hfit l

theorem MemSys.Tidy.write {ms : MemSys} (h : ms.Tidy) {p : Nat} {bs : List Byte} (hfit : p % 64 + bs.length ≤ 64) : (ms.write p bs).Tidy := by
  by_cases h0 : bs = []
  · subst h0
    exact h
  · rw [MemSys.write_within ms h0 hfit]
    exact h.writeLine hfit

theorem MemSys.Tidy.setTime {ms : MemSys} (h : ms.Tidy) (l : Nat) (t : Nat × Nat) : (ms.setTime l t).Tidy := by
  rw [MemSys.setTime_frame]
  exact h

end Sys2Proof.Machine
end

section
/-!
Stores and atomics piece by piece: the bytes that each leaves, and what of its core stands (R157, R162 to R166, R202).
-/
namespace Sys2Proof.Machine

open Sys2Proof.Claims

/-! ### States that hold the same bytes -/

/-- Two states hold the same bytes in every typed buffer and in every line that a home serves. -/
structure SameBytes (s t : State) : Prop where
  bufs : ∀ i b, (t.core i).buf b = (s.core i).buf b
  lines : ∀ l, t.ms.line l = s.ms.line l

namespace SameBytes

variable {s t u : State}

theorem refl : SameBytes s s := ⟨fun _ _ => rfl, fun _ => rfl⟩

theorem trans (h : SameBytes s t) (g : SameBytes t u) : SameBytes s u :=
  ⟨fun i b => (g.bufs i b).trans (h.bufs i b), fun l => (g.lines l).trans (h.lines l)⟩

theorem readPlace (h : SameBytes s t) (p : Place) (n : Nat) : t.readPlace p n = s.readPlace p n := by
  cases p with
  | buf i b off => exact congrArg (mread · off n) (h.bufs i b)
  | phys a => exact MemSys.read_congr h.lines a n
  | far => rfl

theorem of_modCore {core : Nat} {f : Core → Core} (h : ∀ b, (f (s.core core)).buf b = (s.core core).buf b) : SameBytes s (s.modCore core f) := by
  refine ⟨fun i b => ?_, fun _ => rfl⟩
  by_cases hi : i = core
  · rw [hi, State.core_modCore, h]
  · rw [State.core_modCore_other _ _ hi]

theorem of_eq (hc : t.cores = s.cores) (hm : t.ms = s.ms) : SameBytes s t := by
  refine ⟨fun i b => ?_, fun l => by rw [hm]⟩
  rw [State.core, hc]
  rfl

end SameBytes

theorem LoadKeeps.sameBytes {core : Nat} {s t : State} (h : LoadKeeps core s t) : SameBytes s t := ⟨h.bufs, h.lines⟩

/-- A store of bytes at a place that stays in a line of the home, whose memory is in canonical form in both states. -/
def FitsBoth (s t : State) (q : Place) (n : Nat) : Prop := ∀ p, q = .phys p → s.ms.Tidy ∧ t.ms.Tidy ∧ p % 64 + n ≤ 64

theorem Core.buf_setBuf_same (k : Core) (b : Buf) (m : Memory) : (k.setBuf b m).buf b = m := by cases b <;> rfl

theorem Core.buf_setBuf_other (k : Core) {b d : Buf} (m : Memory) (h : d ≠ b) : (k.setBuf b m).buf d = k.buf d := by
  cases b <;> cases d <;> simp_all [Core.setBuf, Core.buf]

theorem State.buf_writePlace (s : State) (i : Nat) (b : Buf) (off : Nat) (bs : List Byte) (j : Nat) (d : Buf) :
    ((s.writePlace (.buf i b off) bs).core j).buf d = if j = i ∧ d = b then mwrite ((s.core i).buf b) off bs else (s.core j).buf d := by
  show ((s.modCore i fun k => k.setBuf b (mwrite (k.buf b) off bs)).core j).buf d = _
  by_cases hj : j = i
  · subst hj
    rw [State.core_modCore]
    by_cases hd : d = b
    · subst hd
      rw [Core.buf_setBuf_same, if_pos ⟨rfl, rfl⟩]
    · rw [Core.buf_setBuf_other _ _ hd, if_neg fun h => hd h.2]
  · rw [State.core_modCore_other _ _ hj, if_neg fun h => hj h.1]

/-- The same bytes stored at the same place leave the same bytes. -/
theorem SameBytes.writePlace {s t : State} (h : SameBytes s t) {q : Place} {bs : List Byte} (hq : FitsBoth s t q bs.length) :
    SameBytes (s.writePlace q bs) (t.writePlace q bs) := by
  cases q with
  | buf i b off =>
    refine ⟨fun j d => ?_, h.lines⟩
    simp only [State.buf_writePlace, h.bufs]
  | phys p =>
    obtain ⟨hs, ht, hfit⟩ := hq p rfl
    refine ⟨h.bufs, fun l => ?_⟩
    show (t.ms.write p bs).line l = (s.ms.write p bs).line l
    rw [MemSys.line_write ht hfit, MemSys.line_write hs hfit, h.lines]
  | far => exact h

theorem State.tidy_writePlace {s : State} (h : s.ms.Tidy) {q : Place} {bs : List Byte} (hq : ∀ p, q = .phys p → p % 64 + bs.length ≤ 64) :
    (s.writePlace q bs).ms.Tidy := by
  cases q with
  | buf | far => exact h
  | phys p => exact h.write (hq p rfl)

/-! ### What an access leaves of its core -/

/-- Between two states a core's held writes, registers and outstanding accesses stand. -/
structure CoreKeeps (core : Nat) (s t : State) : Prop where
  writes : (t.core core).writes = (s.core core).writes
  sregs : (t.core core).sregs = (s.core core).sregs
  outs : (t.core core).outs = (s.core core).outs

namespace CoreKeeps

variable {core : Nat} {s t u : State}

theorem refl : CoreKeeps core s s := ⟨rfl, rfl, rfl⟩

theorem trans (h : CoreKeeps core s t) (g : CoreKeeps core t u) : CoreKeeps core s u :=
  ⟨g.writes.trans h.writes, g.sregs.trans h.sregs, g.outs.trans h.outs⟩

theorem of_eq (h : t.cores = s.cores) : CoreKeeps core s t := by
  have own : t.core core = s.core core := by rw [State.core, h]; rfl
  exact ⟨by rw [own], by rw [own], by rw [own]⟩

theorem of_modCore {i : Nat} {f : Core → Core} (h : ∀ k, (f k).writes = k.writes ∧ (f k).sregs = k.sregs ∧ (f k).outs = k.outs) :
    CoreKeeps core s (s.modCore i f) := by
  by_cases hi : core = i
  · subst hi
    obtain ⟨hw, hs, ho⟩ := h (s.core core)
    refine ⟨?_, ?_, ?_⟩
    · rw [State.core_modCore, hw]
    · rw [State.core_modCore, hs]
    · rw [State.core_modCore, ho]
  · have other := State.core_modCore_other s f hi
    exact ⟨by rw [other], by rw [other], by rw [other]⟩

end CoreKeeps

theorem LoadKeeps.coreKeeps {core : Nat} {s t : State} (h : LoadKeeps core s t) : CoreKeeps core s t := ⟨h.writes, h.sregs, h.outs⟩

theorem State.writePlace_coreKeeps (s : State) (core : Nat) (q : Place) (bs : List Byte) : CoreKeeps core s (s.writePlace q bs) := by
  cases q with
  | buf i b off =>
    refine CoreKeeps.of_modCore (f := fun k => k.setBuf b (mwrite (k.buf b) off bs)) fun k => ?_
    cases b <;> exact ⟨rfl, rfl, rfl⟩
  | phys | far => exact .of_eq rfl

/-! ### What stores note for later readers (R157, R159) -/

theorem State.forget_keeps (s : State) (core : Nat) (p : Place) (bs : List Byte) :
    CoreKeeps core s (s.forget p bs) ∧ SameBytes s (s.forget p bs) ∧ (s.forget p bs).ms = s.ms := by
  unfold State.forget
  split
  · split
    · exact ⟨.refl, .refl, rfl⟩
    · refine ⟨.of_modCore fun _ => ⟨rfl, rfl, rfl⟩, .of_modCore fun b => ?_, rfl⟩
      cases b <;> rfl
  · exact ⟨.refl, .refl, rfl⟩

theorem State.noteStore_keeps (s : State) (c : Cursor) (whole : Bool) (ws : List OldWord) (core : Nat) :
    CoreKeeps core s (s.noteStore c whole ws) ∧ SameBytes s (s.noteStore c whole ws) ∧ (s.noteStore c whole ws).ms = s.ms := by
  refine ⟨?_, ?_, rfl⟩
  · exact CoreKeeps.trans (t := s.modCore c.core fun k => { k with recent := addWords k.recent ws }) (.of_modCore fun _ => ⟨rfl, rfl, rfl⟩)
      (.of_eq rfl)
  · refine SameBytes.trans (t := s.modCore c.core fun k => { k with recent := addWords k.recent ws }) (.of_modCore fun b => ?_)
      (.of_eq rfl rfl)
    cases b <;> rfl

theorem State.noteRmw_keeps (s : State) (c : Cursor) (first : Bool) (ws : List OldWord) (p : Place) (bs : List Byte) (core : Nat) :
    CoreKeeps core s (s.noteRmw c first ws p bs) ∧ SameBytes s (s.noteRmw c first ws p bs) ∧ (s.noteRmw c first ws p bs).ms = s.ms := by
  refine ⟨?_, ?_, rfl⟩
  · exact CoreKeeps.trans (t := s.modCore c.core fun k => { k with recent := addWords k.recent ws }) (.of_modCore fun _ => ⟨rfl, rfl, rfl⟩)
      (.of_eq rfl)
  · refine SameBytes.trans (t := s.modCore c.core fun k => { k with recent := addWords k.recent ws }) (.of_modCore fun b => ?_)
      (.of_eq rfl rfl)
    cases b <;> rfl

theorem State.replicate_keeps (s : State) (ctx addr : Nat) (bs : List Byte) (core : Nat) :
    CoreKeeps core s (s.replicate ctx addr bs) ∧ SameBytes s (s.replicate ctx addr bs) ∧ (s.replicate ctx addr bs).ms = s.ms := by
  have cores : (s.replicate ctx addr bs).cores = s.cores := (State.forward_cores ..).1
  exact ⟨.of_eq cores, .of_eq cores (State.replicate_ms ..), State.replicate_ms ..⟩

/-! ### Bytes stored at the home (R202) -/

section

variable (s : State) (core p : Nat)

theorem State.homeLoad_tidy (h : s.ms.Tidy) : (s.homeLoad core p).ms.Tidy := by
  unfold State.homeLoad
  simp only [State.modCore_ms]
  refine MemSys.Tidy.setTime ?_ _ _
  split
  · exact h.hold _
  · exact h

theorem State.homeStore_coreKeeps (bs : List Byte) : CoreKeeps core s (s.homeStore core p bs).1 := by
  unfold State.homeStore
  simp only
  refine CoreKeeps.trans ?_ (CoreKeeps.of_modCore fun _ => ⟨rfl, rfl, rfl⟩)
  exact .of_eq rfl

/-- A store at the home leaves its bytes. -/
theorem State.homeStore_stores {bs : List Byte} (h : s.ms.Tidy) (hfit : p % 64 + bs.length ≤ 64) :
    SameBytes (s.writePlace (.phys p) bs) (s.homeStore core p bs).1 ∧ (s.homeStore core p bs).1.ms.Tidy := by
  unfold State.homeStore
  simp only
  have held := (h.hold (p / 64)).setTime (p / 64) ((s.core core).accessTime.max ((MemSys.time (s.ms.hold (p / 64)) (p / 64)).2 + 1),
    (s.core core).accessTime.max ((MemSys.time (s.ms.hold (p / 64)) (p / 64)).2 + 1))
  refine ⟨SameBytes.trans ?_ (.of_modCore fun b => ?_), held.write hfit⟩
  · refine ⟨fun _ _ => rfl, fun l => ?_⟩
    refine (MemSys.line_write held hfit l).trans (Eq.trans ?_ (MemSys.line_write h hfit l).symm)
    rw [MemSys.line_setTime, MemSys.line_hold]
  · cases b <;> rfl

end

end Sys2Proof.Machine
end

section
/-!
Stores complete: their pieces, and the bytes they leave lane by lane (R156, R162, R163, R204 to R206).
-/
namespace Sys2Proof.Machine

open Sys2Proof.Claims

/-! ### A store's piece -/

/-- Beside no other slot's store, a store leaves its own bytes (R157). -/
theorem State.mergeSlot_alone (s : State) {c : Cursor} (h : c.mw = []) (whole : Bool) (p : Place) (bs : List Byte) :
    s.mergeSlot c whole p bs = bs := by
  refine List.ext_getElem? fun i => ?_
  simp [State.mergeSlot, h]

theorem State.writeSlot_keeps (s : State) (c : Cursor) (whole : Bool) (q : Place) (bs : List Byte) :
    CoreKeeps c.core s (s.writeSlot c whole q bs) ∧
      SameBytes (s.writePlace q (s.mergeSlot c whole q bs)) (s.writeSlot c whole q bs) ∧
      (s.writeSlot c whole q bs).ms = (s.writePlace q (s.mergeSlot c whole q bs)).ms := by
  obtain ⟨hnc, hnb, hnm⟩ := (s.writePlace q (s.mergeSlot c whole q bs)).noteStore_keeps c whole (s.wordsAt q bs.length) c.core
  obtain ⟨hfc, hfb, hfm⟩ := State.forget_keeps ((s.writePlace q (s.mergeSlot c whole q bs)).noteStore c whole (s.wordsAt q bs.length)) c.core q bs
  exact ⟨(s.writePlace_coreKeeps c.core q _).trans (hnc.trans hfc), hnb.trans hfb, hfm.trans hnm⟩

/-- A store at the home, noted for later readers, and copied to its group. -/
def State.storeHome (s : State) (c : Cursor) (whole : Bool) (p : Nat) (g : Bool) (bs : List Byte) : State :=
  let t := (s.homeStore c.core p (s.mergeSlot c whole (.phys p) bs)).1.noteStore c whole (s.wordsAt (.phys p) bs.length)
  if g then t.replicate (t.core c.core).ctx p bs else t

theorem State.storeHome_keeps (s : State) (c : Cursor) (whole : Bool) (p : Nat) (g : Bool) (bs : List Byte) :
    CoreKeeps c.core s (s.storeHome c whole p g bs) ∧
      SameBytes (s.homeStore c.core p (s.mergeSlot c whole (.phys p) bs)).1 (s.storeHome c whole p g bs) ∧
      (s.storeHome c whole p g bs).ms = (s.homeStore c.core p (s.mergeSlot c whole (.phys p) bs)).1.ms := by
  obtain ⟨hnc, hnb, hnm⟩ :=
    (s.homeStore c.core p (s.mergeSlot c whole (.phys p) bs)).1.noteStore_keeps c whole (s.wordsAt (.phys p) bs.length) c.core
  have hc := (s.homeStore_coreKeeps c.core p (s.mergeSlot c whole (.phys p) bs)).trans hnc
  unfold State.storeHome
  simp only
  cases g with
  | false => exact ⟨hc, hnb, hnm⟩
  | true =>
    obtain ⟨hrc, hrb, hrm⟩ := State.replicate_keeps
      ((s.homeStore c.core p (s.mergeSlot c whole (.phys p) bs)).1.noteStore c whole (s.wordsAt (.phys p) bs.length))
      (((s.homeStore c.core p (s.mergeSlot c whole (.phys p) bs)).1.noteStore c whole (s.wordsAt (.phys p) bs.length)).core c.core).ctx
      p bs c.core
    exact ⟨hc.trans hrc, hnb.trans hrb, hrm.trans hnm⟩

/-- A fabric packet for a store, with its copies to the group. -/
def State.storeFar (s : State) (c : Cursor) (id k p : Nat) (g : Bool) (bs : List Byte) : State :=
  let t := s.sendFabric k 0 (.access c.core id (.store p bs id))
  if g then t.replicate (t.core c.core).ctx p bs else t

theorem State.storeFar_keeps (s : State) (c : Cursor) (id k p : Nat) (g : Bool) (bs : List Byte) :
    CoreKeeps c.core s (s.storeFar c id k p g bs) := by
  unfold State.storeFar
  simp only
  split
  · exact CoreKeeps.trans (t := s.sendFabric k 0 (.access c.core id (.store p bs id))) (.of_eq rfl) (State.replicate_keeps ..).1
  · exact .of_eq rfl

theorem makes_store {c : Cursor} {whole : Bool} {id : Nat} {s : State} {t : Todo} {bs : List Byte} (hop : t.op = .store bs)
    (hn : bs.length = t.n) :
    ∃ u d, Makes c whole id s t u d ∧ CoreKeeps c.core s u ∧ (∀ x, d = some x → x.1 = bs) ∧ (Reached t → d.isSome = true) ∧
      (Reached t → c.mw = [] → s.ms.Tidy → SameBytes (s.writePlace t.piece.place bs) u ∧ u.ms.Tidy) := by
  have unheld {r : Run1} (hheld : r.held = false) : performPiece c whole true r t = performStore c whole bs r t := by
    rw [performPiece, if_neg (by simp [hheld]), hop]
  obtain hv | ⟨j, hv, hr⟩ | ⟨p, hp, hc, hr⟩ | ⟨p, hp, hc⟩ | ⟨k, p, hp, hr⟩ := piece_cases t
  · obtain ⟨keeps, bytes, mem⟩ := s.writeSlot_keeps c whole t.piece.place bs
    refine ⟨s.writeSlot c whole t.piece.place bs, some (bs, 0), fun r hs _ hheld => ?_, keeps, fun x hx => by cases hx; rfl, fun _ => rfl,
      fun hr hmw hm => ?_⟩
    · rw [unheld hheld]
      simp only [performStore, hv, hs]
      rfl
    · rw [s.mergeSlot_alone hmw] at bytes mem
      exact ⟨bytes, mem ▸ State.tidy_writePlace hm fun p hp => hn ▸ (hr.of_phys hp).2⟩
  · refine ⟨s.sendNet c.core j (.store id t.ix), none, fun r hs hid hheld => ?_, .of_eq rfl, nofun, fun h => (hr h).elim, fun h => (hr h).elim⟩
    rw [unheld hheld]
    simp only [performStore, hv, hs, hid]
    rfl
  · refine ⟨s.ctlWrite p bs, some (bs, 0), fun r hs _ hheld => ?_, .of_eq (s.ctlWrite_cores p bs).1, fun x hx => by cases hx; rfl,
      fun h => (hr h).elim, fun h => (hr h).elim⟩
    rw [unheld hheld]
    simp only [performStore, hp, viaOf_phys, hc, hs]
    rfl
  · obtain ⟨keeps, bytes, mem⟩ := s.storeHome_keeps c whole p t.piece.g bs
    refine ⟨s.storeHome c whole p t.piece.g bs, some (bs, (s.homeStore c.core p (s.mergeSlot c whole (.phys p) bs)).2),
      fun r hs _ hheld => ?_, keeps, fun x hx => by cases hx; rfl, fun _ => rfl, fun hr hmw hm => ?_⟩
    · rw [unheld hheld]
      simp only [performStore, hp, viaOf_phys, hc, hs]
      rfl
    · rw [s.mergeSlot_alone hmw] at bytes mem
      obtain ⟨stores, tidy⟩ := s.homeStore_stores c.core p hm (hn ▸ (hr.of_phys hp).2)
      exact ⟨hp ▸ stores.trans bytes, mem ▸ tidy⟩
  · refine ⟨s.storeFar c id k p t.piece.g bs, none, fun r hs hid hheld => ?_, s.storeFar_keeps c id k p t.piece.g bs, nofun,
      fun h => (hr h).elim, fun h => (hr h).elim⟩
    rw [unheld hheld]
    simp only [performStore, hp, viaOf_far, hs, hid]
    rfl

end Sys2Proof.Machine
end

section
/-!
The bytes that stores one after another leave: at each place those of the last store that covers it (R163).
-/
namespace Sys2Proof.Machine

open Sys2Proof.Claims

/-! ### One byte -/

/-- The byte at a place. -/
def byteAt (s : State) (x : Place) : Byte := (s.readPlace x 1).headD 0

/-- The byte that a store of `bs` at `q` leaves at a place, if it covers the place. -/
def stored (q : Place) (bs : List Byte) (x : Place) : Option Byte :=
  match x.minus q with
  | some d => if 0 ≤ d then bs[d.toNat]? else none
  | none => none

theorem byteAfter_eq (s : State) (ps : List (Place × List Byte)) (x : Place) :
    byteAfter s ps x = (ps.reverse.findSome? fun e => stored e.1 e.2 x).getD (byteAt s x) := rfl

theorem window_length (n a : Nat) (m : Memory) : (window n a m).length = n := by
  induction n generalizing a m with
  | zero => rfl
  | succ n ih =>
    cases m with
    | nil => simp [window, ih]
    | cons e m =>
      unfold window
      split <;> simp [ih]

theorem singleton_of_length {α : Type} {xs : List α} (h : xs.length = 1) (d : α) : xs = [xs.headD d] := by
  obtain ⟨x, rfl⟩ := List.length_eq_one_iff.mp h
  rfl

theorem MemSys.read_one (ms : MemSys) (a : Nat) : ms.read a 1 = ((ms.line (a / 64)).drop (a % 64)).take 1 := ms.read_line (by omega)

theorem MemSys.Tidy.read_one_length {ms : MemSys} (h : ms.Tidy) (a : Nat) : (ms.read a 1).length = 1 := by
  have := h.line_length (a / 64)
  rw [MemSys.read_one, List.length_take, List.length_drop]
  omega

theorem readPlace_one {s : State} (h : s.ms.Tidy) (x : Place) : s.readPlace x 1 = [byteAt s x] := by
  refine singleton_of_length ?_ 0
  cases x with
  | buf i b off => exact window_length ..
  | phys a => exact h.read_one_length a
  | far => rfl

theorem byteAt_phys (s : State) (a : Nat) : byteAt s (.phys a) = ((s.ms.line (a / 64))[a % 64]?).getD 0 := by
  show (s.ms.read a 1).headD 0 = _
  rw [MemSys.read_one, List.headD_eq_head?_getD, List.head?_take, List.head?_drop]
  rfl

theorem byteAt_buf {s : State} {i : Nat} {b : Buf} (h : Memory.wf ((s.core i).buf b)) (off : Nat) :
    byteAt s (.buf i b off) = mget ((s.core i).buf b) off := by
  show (mread ((s.core i).buf b) off 1).headD 0 = _
  rw [mread_one h.1]
  rfl

/-! ### One store -/

/-- Where a core's own store goes: an own buffer, or within a line of the home. -/
def StorePlace (core n : Nat) (q : Place) : Prop := (∃ b off, q = .buf core b off) ∨ ∃ p, q = .phys p ∧ p % 64 + n ≤ 64

/-- The core's buffers and the home's memory in canonical form. -/
def TidyAt (s : State) (core : Nat) : Prop := s.ms.Tidy ∧ ∀ b, Memory.wf ((s.core core).buf b)

theorem tidyAt_iff (s : State) (core : Nat) : TidyAt s core ↔ TidyMemory s core := by
  refine ⟨fun ⟨⟨hm, hl⟩, hb⟩ => ⟨hm, hl, hb .w, hb .a, hb .r⟩, fun ⟨hm, hl, hw, ha, hr⟩ => ⟨⟨hm, hl⟩, fun b => ?_⟩⟩
  cases b with
  | w => exact hw
  | a => exact ha
  | r => exact hr

theorem TidyAt.writePlace {s : State} {core : Nat} (h : TidyAt s core) {q : Place} {bs : List Byte} (hq : StorePlace core bs.length q) :
    TidyAt (s.writePlace q bs) core := by
  obtain ⟨b, off, rfl⟩ | ⟨p, rfl, hfit⟩ := hq
  · refine ⟨h.1, fun d => ?_⟩
    rw [State.buf_writePlace]
    split
    · exact mwrite_wf _ _ _ (h.2 b)
    · exact h.2 d
  · exact ⟨h.1.write hfit, h.2⟩

theorem mget_mwrite {m : Memory} (off : Nat) (bs : List Byte) (o : Nat) :
    mget (mwrite m off bs) o = (if off ≤ o then bs[o - off]? else none).getD (mget m o) := by
  by_cases h : off ≤ o ∧ o < off + bs.length
  · have := mget_mwrite_in m off bs (o - off) (by omega)
    rw [show off + (o - off) = o by omega] at this
    rw [this, if_pos h.1, List.getElem?_eq_getElem (by omega)]
    rfl
  · rw [mget_mwrite_out m off bs o (by omega)]
    split
    · rw [List.getElem?_eq_none (by omega)]
      rfl
    · rfl

theorem offset_of_minus {off o : Nat} {bs : List Byte} :
    (if (0 : Int) ≤ (o : Int) - off then bs[((o : Int) - off).toNat]? else none) = if off ≤ o then bs[o - off]? else none := by
  by_cases h : off ≤ o
  · rw [if_pos (by omega), if_pos h, show ((o : Int) - off).toNat = o - off by omega]
  · rw [if_neg (by omega), if_neg h]

theorem stored_phys (p : Nat) (bs : List Byte) (a : Nat) : stored (.phys p) bs (.phys a) = if p ≤ a then bs[a - p]? else none :=
  offset_of_minus

theorem stored_buf (i : Nat) (b : Buf) (off : Nat) (bs : List Byte) (o : Nat) :
    stored (.buf i b off) bs (.buf i b o) = if off ≤ o then bs[o - off]? else none := by
  rw [← offset_of_minus]
  simp [stored, Place.minus]

/-- A byte of a line after bytes have been laid over it from the offset of `p` on. -/
theorem getElem?_overlay_getD {xs bs : List Byte} {p a : Nat} (hlen : xs.length = 64) (hfit : p % 64 + bs.length ≤ 64) :
    (((if a / 64 = p / 64 then overlay xs (p % 64) bs else xs)[a % 64]?).getD 0) =
      (if p ≤ a then bs[a - p]? else none).getD ((xs[a % 64]?).getD 0) := by
  by_cases hin : p ≤ a ∧ a < p + bs.length
  · rw [if_pos (by omega), getElem?_overlay (by omega), if_pos (by omega), if_pos hin.1, show a % 64 - p % 64 = a - p by omega,
      List.getElem?_eq_getElem (show a - p < bs.length by omega)]
    rfl
  · have out : (if p ≤ a then bs[a - p]? else none) = none := by
      split
      · exact List.getElem?_eq_none (by omega)
      · rfl
    rw [out]
    split
    · rw [getElem?_overlay (by omega), if_neg (by omega)]
      rfl
    · rfl

/-- A store changes the bytes it covers, and no other. -/
theorem byteAt_writePlace {s : State} {core : Nat} (h : TidyAt s core) {q : Place} {bs : List Byte} (hq : StorePlace core bs.length q)
    (x : Place) : byteAt (s.writePlace q bs) x = (stored q bs x).getD (byteAt s x) := by
  obtain ⟨b, off, rfl⟩ | ⟨p, rfl, hfit⟩ := hq
  · cases x with
    | phys | far => rfl
    | buf j d o =>
      by_cases hj : j = core ∧ d = b
      · obtain ⟨rfl, rfl⟩ := hj
        have wf := (h.writePlace (q := .buf j d off) (bs := bs) (.inl ⟨d, off, rfl⟩)).2 d
        rw [byteAt_buf wf, byteAt_buf (h.2 d), State.buf_writePlace, if_pos ⟨rfl, rfl⟩, mget_mwrite, stored_buf]
      · have : stored (.buf core b off) bs (.buf j d o) = none := by simp [stored, Place.minus, hj]
        rw [this]
        show (mread (((s.writePlace (.buf core b off) bs).core j).buf d) o 1).headD 0 = _
        rw [State.buf_writePlace, if_neg hj]
        rfl
  · cases x with
    | buf | far => rfl
    | phys a =>
      rw [byteAt_phys, byteAt_phys, stored_phys]
      show (((s.ms.write p bs).line (a / 64))[a % 64]?).getD 0 = _
      rw [MemSys.line_write h.1 hfit]
      exact getElem?_overlay_getD (h.1.line_length _) hfit

/-! ### Stores in order -/

/-- Stores one after another. -/
def storeAll (ps : List (Place × List Byte)) (s : State) : State := ps.foldl (fun s e => s.writePlace e.1 e.2) s

theorem storeAll_concat (ps : List (Place × List Byte)) (e : Place × List Byte) (s : State) :
    storeAll (ps ++ [e]) s = (storeAll ps s).writePlace e.1 e.2 := by
  simp [storeAll]

theorem TidyAt.storeAll {s : State} {core : Nat} (h : TidyAt s core) {ps : List (Place × List Byte)}
    (hps : ∀ e ∈ ps, StorePlace core e.2.length e.1) : TidyAt (storeAll ps s) core := by
  refine List.foldlRecOn ps _ (motive := fun t => TidyAt t core) h fun t ht e he => ht.writePlace (hps e he)

theorem byteAt_storeAll {s : State} {core : Nat} (h : TidyAt s core) {ps : List (Place × List Byte)}
    (hps : ∀ e ∈ ps, StorePlace core e.2.length e.1) (x : Place) : byteAt (storeAll ps s) x = byteAfter s ps x := by
  rw [byteAfter_eq]
  induction ps using List.reverseRecOn with
  | nil => rfl
  | append_singleton ps e ih =>
    have hps' : ∀ y ∈ ps, StorePlace core y.2.length y.1 := fun y hy => hps y (List.mem_append_left _ hy)
    rw [storeAll_concat, byteAt_writePlace (h.storeAll hps') (hps e (by simp)), ih hps', List.reverse_append]
    simp only [List.reverse_singleton, List.singleton_append, List.findSome?_cons]
    cases stored e.1 e.2 x <;> rfl

/-- What stands at a place after stores in order (R163). -/
theorem readPlace_storeAll {s : State} {core : Nat} (h : TidyAt s core) {ps : List (Place × List Byte)}
    (hps : ∀ e ∈ ps, StorePlace core e.2.length e.1) (x : Place) : (storeAll ps s).readPlace x 1 = [byteAfter s ps x] := by
  rw [readPlace_one (h.storeAll hps).1, byteAt_storeAll h hps]

end Sys2Proof.Machine
end

section
/-!
Stores complete: at once in own buffers, through the counter elsewhere, kept unsent where their scope waits (R160, R163, R204 to R206).
-/
namespace Sys2Proof.Machine

open Sys2Proof.Claims

/-! ### Making all pieces of a store -/

section

variable {c : Cursor} {whole : Bool} {id : Nat}

/-- The pieces of a store keep the core's registers and accesses, hold their bytes, and leave them one after another. -/
theorem makesAll_stores {ts : List Todo} (hop : ∀ t ∈ ts, t.op = .store t.part.data ∧ t.part.data.length = t.n) (s : State) :
    ∃ u ds, MakesAll c whole id s ts u ds ∧ CoreKeeps c.core s u ∧
      (∀ (j : Nat) (t : Todo), ts[j]? = some t → ∃ d, ds[j]? = some d ∧ (t.made d).data = t.part.data ∧ (Reached t → (t.made d).done = true)) ∧
      ((∀ t ∈ ts, Reached t) → c.mw = [] → s.ms.Tidy → ∀ v, SameBytes v s → v.ms.Tidy →
        SameBytes (storeAll (ts.map fun t => (t.piece.place, t.part.data)) v) u) := by
  induction ts generalizing s with
  | nil => exact ⟨s, [], .nil, .refl, nofun, fun _ _ _ v hv _ => hv⟩
  | cons t ts ih =>
    obtain ⟨⟨ht, hn⟩, hts⟩ := List.forall_mem_cons.mp hop
    obtain ⟨s1, d, hm, keeps, bytes, isDone, stores⟩ := makes_store (c := c) (whole := whole) (id := id) (s := s) ht hn
    obtain ⟨u, ds, hms, keeps', parts, stores'⟩ := ih hts s1
    refine ⟨u, d :: ds, .cons hm hms, keeps.trans keeps', fun j x hx => ?_, fun hr hmw hs v hv hvt => ?_⟩
    · cases j with
      | zero =>
        obtain rfl : t = x := Option.some.inj hx
        refine ⟨d, rfl, ?_, fun hr => ?_⟩
        · cases d with
          | none => rfl
          | some g => exact bytes g rfl
        · obtain ⟨g, rfl⟩ := Option.isSome_iff_exists.mp (isDone hr)
          rfl
      | succ j => exact parts j x hx
    · obtain ⟨ht, hts⟩ := List.forall_mem_cons.mp hr
      obtain ⟨wrote, tidy⟩ := stores ht hmw hs
      have fits {p : Nat} (hp : t.piece.place = .phys p) : p % 64 + t.part.data.length ≤ 64 := hn ▸ (ht.of_phys hp).2
      exact stores' hts hmw tidy _ ((hv.writePlace fun p hp => ⟨hvt, hs, fits hp⟩).trans wrote)
        (State.tidy_writePlace hvt fun p hp => fits hp)

end

/-! ### A store over its addresses -/

/-- What is done at the addresses of a store. -/
def storeWorks (as : List (W64 × List Byte)) : List (W64 × PieceOp) := as.map fun a => (a.1, .store a.2)

theorem State.addOut_keeps (s : State) (core : Nat) (o : Outstanding) :
    ((s.addOut core o).core core).writes = (s.core core).writes ∧ ((s.addOut core o).core core).sregs = (s.core core).sregs ∧
      SameBytes s (s.addOut core o) := by
  unfold State.addOut
  refine ⟨?_, ?_, .of_modCore fun b => ?_⟩
  · rw [State.core_modCore]
  · rw [State.core_modCore]
  · cases b <;> rfl

section

variable {s : State} {c : Cursor} {n : Nat} {as : List (W64 × List Byte)}

theorem storeWorks_addresses (as : List (W64 × List Byte)) : (storeWorks as).map (fun a => a.1) = as.map fun a => a.1 := by
  simp [storeWorks, Function.comp_def]

theorem storePieces_eq : storePieces s c n as =
    (storeWorks as).mapIdx fun i a => { ix := i, n := n, piece := s.piece c.core .write n a.1, op := a.2 } := by
  refine List.ext_getElem? fun i => ?_
  simp [storePieces, storeWorks, Function.comp_def]

theorem getElem?_storeWorks (j : Nat) :
    (works s c .write n (storeWorks as))[j]? = as[j]?.map fun a => work s c .write n j a.1 (.store a.2) := by
  rw [getElem?_works, storeWorks, List.getElem?_map, Option.map_map]
  rfl

theorem mem_storeWorks {t : Todo} (h : t ∈ works s c .write n (storeWorks as)) : ∃ i, ∃ a ∈ as, t = work s c .write n i a.1 (.store a.2) := by
  obtain ⟨i, x, hx, rfl⟩ := mem_works h
  obtain ⟨a, ha, rfl⟩ := List.mem_map.mp hx
  exact ⟨i, a, ha, rfl⟩

theorem storeWorks_op (hlen : ∀ a ∈ as, a.2.length = n) :
    ∀ t ∈ works s c .write n (storeWorks as), t.op = .store t.part.data ∧ t.part.data.length = t.n := by
  intro t ht
  obtain ⟨i, a, ha, rfl⟩ := mem_storeWorks ht
  exact ⟨rfl, hlen a ha⟩

theorem storeWorks_stores : (works s c .write n (storeWorks as)).map (fun t => (t.piece.place, t.part.data)) =
    as.map fun a => (placeOf s c .write n a.1, a.2) := by
  refine List.ext_getElem? fun j => ?_
  rw [List.getElem?_map, List.getElem?_map, getElem?_storeWorks, Option.map_map]
  rfl

/-- An address that its core reaches itself is in an own buffer, or within a line of the home. -/
theorem storePlace_of_local {acc : Access} {a : W64} (h : Local s c acc n a) : StorePlace c.core n (placeOf s c acc n a) := by
  obtain hv | ⟨p, hp, -, hfit⟩ := reached_of_local (i := 0) (op := .load false) h
  · have own : (s.piece c.core acc n a).isOwn = true := by
      rw [← work_isOwn (i := 0) (op := .load false)]
      simpa [Piece.isOwn] using hv
    obtain ⟨b, off, -, hp⟩ := place_of_isOwn own
    exact .inl ⟨b, off, by rw [placeOf, Piece.forward, hp]⟩
  · exact .inr ⟨p, hp, hfit⟩

theorem newOut_dest (s : State) (c : Cursor) (ws : List WriteTo) : (newOut s c).dest ≠ .fixed ws :=
  show LoadDest.none ≠ .fixed ws from nofun

variable {sc : Option Scope}

/-- A store's access as it is dispatched where its scope waits for nothing. -/
theorem finishStore_made (hp : Prompt s c) (hrel : waitsFor s c sc = []) (hlen : ∀ a ∈ as, a.2.length = n)
    (hcount : AllOwn s c .write n (as.map fun a => a.1) ∨ (s.core c.core).st < 256) :
    ∃ (u : State) (parts : List Part) (time : Nat),
      finishStore s c n as { newOut s c with scope := sc } = .next (
        if ownOnly { newOut s c with stPend := true, scope := sc } (works s c .write n (storeWorks as)) then u
        else u.addOut c.core { newOut s c with stPend := true, scope := sc, parts := parts, time := time }) ∧
      CoreKeeps c.core s u ∧
      (∀ (j : Nat) (a : W64 × List Byte), as[j]? = some a → ∃ p, parts[j]? = some p ∧ p.place = placeOf s c .write n a.1 ∧ p.n = n ∧
        p.data = a.2 ∧ (Local s c .write n a.1 → p.done = true)) ∧
      (c.mw = [] → TidyMemory s c.core → (∀ a ∈ as, Local s c .write n a.1) →
        ∀ x, u.readPlace x 1 = [byteAfter s (as.map fun a => (placeOf s c .write n a.1, a.2)) x]) := by
  have fills := State.fillFor_fillsOnly s c.core n (as.map fun a => a.1)
  have count : ownOnly { newOut s c with stPend := true, scope := sc } (works s c .write n (storeWorks as)) = true ∨
      countersFull s c false true = false := by
    refine hcount.imp (fun hown => (ownOnly_works rfl (newOut_dest s c)).mpr (by rwa [storeWorks_addresses])) fun hst => ?_
    unfold countersFull
    simpa using hst
  obtain ⟨u, ds, hm, keeps, gives, stores⟩ := makesAll_stores (c := c) (whole := oneUnit (works s c .write n (storeWorks as)))
    (id := (s.core c.core).outNext) (storeWorks_op hlen) (s.fillFor c.core n (as.map fun a => a.1))
  have made := accessOp_made (o := { newOut s c with stPend := true, scope := sc }) fills hp
    (storePieces_eq (as := as) ▸ forwarded_works fills) works_ix hrel rfl count hm
  refine ⟨u, List.zipWith Todo.made (works s c .write n (storeWorks as)) ds, timeAfter ds 0, made, fills.loadKeeps.coreKeeps.trans keeps,
    fun j a ha => ?_, fun hmw htidy hlocal x => ?_⟩
  · have hw : (works s c .write n (storeWorks as))[j]? = some (work s c .write n j a.1 (.store a.2)) := by rw [getElem?_storeWorks, ha]; rfl
    obtain ⟨g, hg, hdata, hdone⟩ := gives j _ hw
    refine ⟨(work s c .write n j a.1 (.store a.2)).made g, by rw [List.getElem?_zipWith, hw, hg], ?_, ?_, hdata,
      fun hl => hdone (reached_of_local hl)⟩
    · cases g <;> rfl
    · cases g <;> rfl
  · have htidy := (tidyAt_iff s c.core).mpr htidy
    have reach : ∀ t ∈ works s c .write n (storeWorks as), Reached t := fun t ht => by
      obtain ⟨i, a, ha, rfl⟩ := mem_storeWorks ht
      exact reached_of_local (hlocal a ha)
    have fillTidy : (s.fillFor c.core n (as.map fun a => a.1)).ms.Tidy := by
      rw [fills.ms]
      exact htidy.1
    rw [(stores reach hmw fillTidy s fills.loadKeeps.sameBytes htidy.1).readPlace, storeWorks_stores]
    refine readPlace_storeAll htidy (fun e he => ?_) x
    obtain ⟨a, ha, rfl⟩ := List.mem_map.mp he
    rw [hlen a ha]
    exact storePlace_of_local (hlocal a ha)

/-- A release whose scope names open accesses is kept, unsent, with its bytes (R206). -/
theorem finishStore_waits (hp : Prompt s c) (hst : (s.core c.core).st < 256) (hrel : waitsFor s c sc ≠ [])
    (hown : ¬AllOwn s c .write n (as.map fun a => a.1)) (has : as ≠ []) :
    finishStore s c n as { newOut s c with scope := sc } = .next (
      let o1 : Outstanding := { newOut s c with
        stPend := true, scope := sc, rel := waitsFor s c sc, parts := (works s c .write n (storeWorks as)).map Todo.part }
      ((s.fillFor c.core n (as.map fun a => a.1)).addOut c.core o1).modCore c.core fun k => { k with
        late := k.late ++ [{ cur := { c with mw := [] }, o := o1, todo := works s c .write n (storeWorks as) }] }) := by
  have fills := State.fillFor_fillsOnly s c.core n (as.map fun a => a.1)
  have pieces : forwarded (s.fillFor c.core n (as.map fun a => a.1)) (storePieces s c n as) = works s c .write n (storeWorks as) :=
    storePieces_eq (as := as) ▸ forwarded_works fills
  have own : ownOnly { newOut s c with stPend := true, scope := sc } (works s c .write n (storeWorks as)) = false := by
    refine Bool.eq_false_iff.mpr fun h => hown ?_
    rw [← storeWorks_addresses]
    exact (ownOnly_works rfl (newOut_dest s c)).mp h
  have count : countersFull (s.fillFor c.core n (as.map fun a => a.1)) c false true = false := by
    have st : ((s.fillFor c.core n (as.map fun a => a.1)).core c.core).st = (s.core c.core).st := by
      rw [fills.own]
      rfl
    unfold countersFull
    rw [st]
    simpa using hst
  have next : ((s.fillFor c.core n (as.map fun a => a.1)).core c.core).outNext = (s.core c.core).outNext := by rw [fills.own]
  have kept := dispatchAccess_left (o := { newOut s c with stPend := true, scope := sc }) (ts := storePieces s c n as) (fills.prompt hp)
    (.inr count) (by rwa [fills.waitsFor]) (by rwa [pieces]) (by rw [storePieces]; exact mt List.mapIdx_eq_nil_iff.mp has)
  refine accessOp_dispatches (fills.prompt hp) (kept.trans ?_)
  simp only [pieces, dispatched, own, next, fills.waitsFor]
  rfl

end

/-! ### The claim -/

/-- Each address of a store form gets as many bytes as the form's size. -/
theorem storeForm_length {i : Instr} {s : State} {c : Cursor} {us : List Use} {rs vs : List Reg} {n : Nat} {as : List (W64 × List Byte)}
    {row : Option Scope} (hi : storeForm i s c = some (us, rs, vs, n, as, row)) : ∀ a ∈ as, a.2.length = n := by
  have vector {f : Nat × Nat → W64} {g : Nat × Nat → Nat} {ls : List (Nat × Nat)} :
      ∀ a ∈ ls.map fun l => (f l, leBytes 4 (g l)), a.2.length = 4 := by
    intro a ha
    obtain ⟨l, -, rfl⟩ := List.mem_map.mp ha
    exact leBytes_length ..
  have scalar {x : W64} {n v : Nat} : ∀ a ∈ [(x, leBytes n v)], a.2.length = n := by
    intro a ha
    obtain rfl := List.mem_singleton.mp ha
    exact leBytes_length ..
  unfold storeForm at hi
  split at hi <;> cases hi
  case h_1 | h_2 | h_3 | h_4 => exact scalar
  case h_5 | h_6 | h_7 | h_8 => exact vector

/-- A release names one address (R206). -/
theorem storeForm_row {i : Instr} {s : State} {c : Cursor} {us : List Use} {rs vs : List Reg} {n : Nat} {as : List (W64 × List Byte)}
    {row : Option Scope} (hi : storeForm i s c = some (us, rs, vs, n, as, row)) (hrow : row ≠ none) : ∃ a, as = [a] := by
  unfold storeForm at hi
  split at hi <;> cases hi
  case h_1 | h_2 | h_3 | h_4 => exact ⟨_, rfl⟩
  case h_5 | h_6 | h_7 | h_8 => exact absurd rfl hrow

/-- A scope has its effect outside own buffers only. -/
theorem isOwn_of_inOrder {s : State} {c : Cursor} {acc : Access} {n : Nat} {a : W64} (h : inOrder s c a n = true) :
    (s.piece c.core acc n a).isOwn = false := by
  refine Bool.eq_false_iff.mpr fun hown => ?_
  obtain ⟨b, off, hs, -⟩ := place_of_isOwn hown
  simp [inOrder, hs] at h

/-- A store that waits is a release at one address outside own buffers. -/
theorem outside_of_waits {i : Instr} {s : State} {c : Cursor} {us : List Use} {rs vs : List Reg} {n : Nat} {as : List (W64 × List Byte)}
    {row : Option Scope} (hi : storeForm i s c = some (us, rs, vs, n, as, row)) (hw : waitsFor s c (scopeOf s c n as row) ≠ []) :
    as ≠ [] ∧ ¬AllOwn s c .write n (as.map fun a => a.1) := by
  have hrow : row ≠ none := by
    rintro rfl
    rw [scopeOf_none] at hw
    exact hw rfl
  obtain ⟨a, rfl⟩ := storeForm_row hi hrow
  refine ⟨List.cons_ne_nil a [], fun hown => hw ?_⟩
  have own := hown a.1 (.head _)
  have : inOrder s c a.1 n = false := by
    by_contra h
    simp [isOwn_of_inOrder (acc := .write) (by simpa using h)] at own
  rw [scopeOf_one, this]
  rfl

/-- Settles O23. -/
theorem storesComplete : Obligations.StoresComplete := by
  unfold Obligations.StoresComplete
  intro i s c us rs vs n as row hi h hc hv hr sc o
  have stores := exec_storeForm hi h hc hv hr
  refine ⟨fun hl => ?_, fun hp hst hw => ?_, fun hp hw hcount => ?_⟩
  · rw [stores, finishStore, accessOp_lags ((State.fillFor_fillsOnly s c.core n _).lags hl)]
    rfl
  · obtain ⟨has, hown⟩ := outside_of_waits hi hw
    have pieces : (storePieces s c n as).map (fun t => { t with piece := t.piece.forward s.ms }) = works s c .write n (storeWorks as) :=
      storePieces_eq (as := as) ▸ forwarded_works .refl
    intro ts o1
    rw [stores, finishStore_waits hp hst hw hown has]
    simp only [o1, ts, pieces]
    rfl
  · obtain ⟨u, parts, time, hu, keeps, gives, bytes⟩ := finishStore_made hp hw (storeForm_length hi) hcount
    have own : ownOnly { newOut s c with stPend := true, scope := sc } (works s c .write n (storeWorks as)) = true ↔
        AllOwn s c .write n (as.map fun a => a.1) := by
      rw [← storeWorks_addresses]
      exact ownOnly_works rfl (newOut_dest s c)
    by_cases hown : AllOwn s c .write n (as.map fun a => a.1)
    · rw [if_pos (own.mpr hown)] at hu
      exact ⟨u, stores.trans hu, keeps.writes, keeps.sregs, fun _ => keeps.outs, fun h => absurd hown h, bytes⟩
    · rw [if_neg (mt own.mp hown)] at hu
      obtain ⟨hwrites, hsregs, hbytes⟩ := u.addOut_keeps c.core { o with parts := parts, time := time }
      refine ⟨_, stores.trans hu, hwrites.trans keeps.writes, hsregs.trans keeps.sregs, fun h => absurd h hown,
        fun _ => ⟨u, parts, time, rfl, keeps.outs, gives⟩, fun hmw ht hl x => ?_⟩
      exact (hbytes.readPlace x 1).trans (bytes hmw ht hl x)

end Sys2Proof.Machine
end

section
/-!
Atomics complete: lane by lane in own buffers and at the home, through both counters elsewhere (R165, R166).
-/
namespace Sys2Proof.Machine

open Sys2Proof.Claims

/-! ### One read-modify-write -/

/-- The state after one read-modify-write at a place (R165). -/
def rmwState (s : State) (q : Place) (n : Nat) (m : Rmw) : State :=
  match m.apply n (s.readPlace q n) with
  | some new => s.writePlace q new
  | none => s

theorem rmwState_some {s : State} {q : Place} {n : Nat} {m : Rmw} {new : List Byte} (h : m.apply n (s.readPlace q n) = some new) :
    rmwState s q n m = s.writePlace q new := by
  simp only [rmwState, h]

theorem rmwState_none {s : State} {q : Place} {n : Nat} {m : Rmw} (h : m.apply n (s.readPlace q n) = none) : rmwState s q n m = s := by
  simp only [rmwState, h]

theorem rmwAll_cons (n : Nat) (q : Place) (m : Rmw) (ps : List (Place × Rmw)) (s : State) :
    rmwAll n ((q, m) :: ps) s = (s.readPlace q n :: (rmwAll n ps (rmwState s q n m)).1, (rmwAll n ps (rmwState s q n m)).2) := rfl

theorem Rmw.apply_length {m : Rmw} {n : Nat} {old new : List Byte} (h : m.apply n old = some new) : new.length = n := by
  cases m with
  | amo f b =>
    obtain rfl := Option.some.inj h
    exact leBytes_length ..
  | cas e v =>
    simp only [Rmw.apply] at h
    split at h
    · obtain rfl := Option.some.inj h
      exact leBytes_length ..
    · exact absurd h nofun

/-- Where bytes of the home are read and written, its memory is in canonical form and they lie in one line. -/
def Sits (s : State) (q : Place) (n : Nat) : Prop := ∀ p, q = .phys p → s.ms.Tidy ∧ p % 64 + n ≤ 64

theorem SameBytes.rmwState {s t : State} (h : SameBytes s t) {q : Place} {n : Nat} (hs : Sits s q n) (ht : Sits t q n) (m : Rmw) :
    SameBytes (rmwState s q n m) (rmwState t q n m) := by
  cases ha : m.apply n (s.readPlace q n) with
  | none => rwa [rmwState_none ha, rmwState_none (by rwa [h.readPlace])]
  | some new =>
    rw [rmwState_some ha, rmwState_some (s := t) (by rwa [h.readPlace])]
    refine h.writePlace fun p hp => ⟨(hs p hp).1, (ht p hp).1, ?_⟩
    rw [Rmw.apply_length ha]
    exact (hs p hp).2

theorem tidy_rmwState {s : State} (h : s.ms.Tidy) {q : Place} {n : Nat} (hq : ∀ p, q = .phys p → p % 64 + n ≤ 64) (m : Rmw) :
    (rmwState s q n m).ms.Tidy := by
  cases ha : m.apply n (s.readPlace q n) with
  | none => rwa [rmwState_none ha]
  | some new =>
    rw [rmwState_some ha]
    exact State.tidy_writePlace h fun p hp => Rmw.apply_length ha ▸ hq p hp

/-! ### An atomic's piece -/

/-- Beside no other slot's store, an atomic comes first on no word, and reads what stands (R157). -/
theorem firstOnWord_alone (s : State) {c : Cursor} (h : c.mw = []) (p : Place) (n : Nat) : firstOnWord s c p n = false := by
  simp [firstOnWord, h]

/-- An atomic's bytes in an own buffer, noted for later readers. -/
def State.rmwOwn (s : State) (c : Cursor) (first : Bool) (q : Place) (n : Nat) (new : List Byte) : State :=
  ((s.writePlace q (s.rmwMerge c first q new)).noteRmw c first (s.wordsAt q n) q new).forget q new

theorem State.rmwOwn_keeps (s : State) (c : Cursor) (first : Bool) (q : Place) (n : Nat) (new : List Byte) :
    CoreKeeps c.core s (s.rmwOwn c first q n new) ∧ SameBytes (s.writePlace q (s.rmwMerge c first q new)) (s.rmwOwn c first q n new) ∧
      (s.rmwOwn c first q n new).ms = (s.writePlace q (s.rmwMerge c first q new)).ms := by
  obtain ⟨hnc, hnb, hnm⟩ := (s.writePlace q (s.rmwMerge c first q new)).noteRmw_keeps c first (s.wordsAt q n) q new c.core
  obtain ⟨hfc, hfb, hfm⟩ :=
    State.forget_keeps ((s.writePlace q (s.rmwMerge c first q new)).noteRmw c first (s.wordsAt q n) q new) c.core q new
  exact ⟨(s.writePlace_coreKeeps c.core q _).trans (hnc.trans hfc), hnb.trans hfb, hfm.trans hnm⟩

/-- An atomic's bytes at the home, noted for later readers. -/
def State.rmwHome (s : State) (c : Cursor) (first : Bool) (p n : Nat) (new : List Byte) : State :=
  (s.homeStore c.core p (s.rmwMerge c first (.phys p) new)).1.noteRmw c first (s.wordsAt (.phys p) n) (.phys p) new

theorem State.rmwHome_keeps (s : State) (c : Cursor) (first : Bool) (p n : Nat) (new : List Byte) :
    CoreKeeps c.core s (s.rmwHome c first p n new) ∧
      SameBytes (s.homeStore c.core p (s.rmwMerge c first (.phys p) new)).1 (s.rmwHome c first p n new) ∧
      (s.rmwHome c first p n new).ms = (s.homeStore c.core p (s.rmwMerge c first (.phys p) new)).1.ms := by
  obtain ⟨hnc, hnb, hnm⟩ := (s.homeStore c.core p (s.rmwMerge c first (.phys p) new)).1.noteRmw_keeps c first (s.wordsAt (.phys p) n)
    (.phys p) new c.core
  exact ⟨(s.homeStore_coreKeeps c.core p _).trans hnc, hnb, hnm⟩

section

variable {c : Cursor} {whole : Bool} {id : Nat} {s : State} {t : Todo} {m : Rmw}

/-- What a made atomic leaves: the old bytes given, the new ones in place. -/
def Modifies (s : State) (t : Todo) (m : Rmw) (u : State) (d : Given) : Prop :=
  d.map Prod.fst = some (s.readPlace t.piece.place t.n) ∧ SameBytes (rmwState s t.piece.place t.n m) u ∧ (s.ms.Tidy → u.ms.Tidy)

theorem unheld_rmw (hop : t.op = .rmw m) {r : Run1} (hheld : r.held = false) : performPiece c whole true r t = performRmw c m r t := by
  rw [performPiece, if_neg (by simp [hheld]), hop]

theorem makes_rmw_own (hop : t.op = .rmw m) (hv : viaOf t.piece.sp t.piece.place = .own) :
    ∃ u d, Makes c whole id s t u d ∧ CoreKeeps c.core s u ∧
      (Reached t → c.mw = [] → Sits s t.piece.place t.n → Modifies s t m u d) := by
  cases ha : m.apply t.n (s.rmwRead c (firstOnWord s c t.piece.place t.n) t.piece.place t.n) with
  | none =>
    refine ⟨s, some (s.rmwRead c (firstOnWord s c t.piece.place t.n) t.piece.place t.n, 0), fun r hs _ hheld => ?_, .refl,
      fun _ hmw _ => ?_⟩
    · rw [unheld_rmw hop hheld]
      simp only [performRmw, hv, hs, ha]
      rfl
    · simp only [firstOnWord_alone s hmw, State.rmwRead, Bool.false_eq_true, if_false] at ha ⊢
      rw [Modifies, rmwState_none ha]
      exact ⟨rfl, .refl, fun h => h⟩
  | some new =>
    obtain ⟨keeps, bytes, mem⟩ := s.rmwOwn_keeps c (firstOnWord s c t.piece.place t.n) t.piece.place t.n new
    refine ⟨s.rmwOwn c (firstOnWord s c t.piece.place t.n) t.piece.place t.n new,
      some (s.rmwRead c (firstOnWord s c t.piece.place t.n) t.piece.place t.n, 0), fun r hs _ hheld => ?_, keeps, fun hr hmw _ => ?_⟩
    · rw [unheld_rmw hop hheld]
      simp only [performRmw, hv, hs, ha]
      rfl
    · simp only [firstOnWord_alone s hmw, State.rmwRead, State.rmwMerge, Bool.false_eq_true, if_false] at ha bytes mem ⊢
      refine ⟨rfl, rmwState_some ha ▸ bytes, fun h => mem ▸ State.tidy_writePlace h fun p hp => ?_⟩
      exact Rmw.apply_length ha ▸ (hr.of_phys hp).2

theorem makes_rmw_home (hop : t.op = .rmw m) {p : Nat} (hp : t.piece.place = .phys p) (hc : isControl p = false) :
    ∃ u d, Makes c whole id s t u d ∧ CoreKeeps c.core s u ∧
      (Reached t → c.mw = [] → Sits s t.piece.place t.n → Modifies s t m u d) := by
  have load := s.homeLoad_keeps c.core p
  cases ha : m.apply t.n (s.rmwRead c (firstOnWord s c (.phys p) t.n) (.phys p) t.n) with
  | none =>
    refine ⟨s.homeLoad c.core p, some (s.rmwRead c (firstOnWord s c (.phys p) t.n) (.phys p) t.n, 0), fun r hs _ hheld => ?_,
      load.coreKeeps, fun _ hmw _ => ?_⟩
    · rw [unheld_rmw hop hheld]
      simp only [performRmw, hp, viaOf_phys, hc, hs, ha]
      rfl
    · simp only [firstOnWord_alone s hmw, State.rmwRead, Bool.false_eq_true, if_false] at ha ⊢
      rw [Modifies, hp, rmwState_none ha]
      exact ⟨rfl, load.sameBytes, s.homeLoad_tidy c.core p⟩
  | some new =>
    obtain ⟨keeps, bytes, mem⟩ := (s.homeLoad c.core p).rmwHome_keeps c (firstOnWord s c (.phys p) t.n) p t.n new
    refine ⟨(s.homeLoad c.core p).rmwHome c (firstOnWord s c (.phys p) t.n) p t.n new,
      some (s.rmwRead c (firstOnWord s c (.phys p) t.n) (.phys p) t.n,
        ((s.homeLoad c.core p).homeStore c.core p ((s.homeLoad c.core p).rmwMerge c (firstOnWord s c (.phys p) t.n) (.phys p) new)).2),
      fun r hs _ hheld => ?_, load.coreKeeps.trans keeps, fun hr hmw hsits => ?_⟩
    · rw [unheld_rmw hop hheld]
      simp only [performRmw, hp, viaOf_phys, hc, hs, ha]
      rfl
    · simp only [firstOnWord_alone s hmw, State.rmwRead, State.rmwMerge, Bool.false_eq_true, if_false] at ha bytes mem ⊢
      have fit : p % 64 + new.length ≤ 64 := Rmw.apply_length ha ▸ (hr.of_phys hp).2
      have tidy := (hsits p hp).1
      have tidy' := s.homeLoad_tidy c.core p tidy
      obtain ⟨stores, after⟩ := (s.homeLoad c.core p).homeStore_stores c.core p tidy' fit
      rw [Modifies, hp, rmwState_some ha]
      refine ⟨rfl, (load.sameBytes.writePlace fun q hq => ?_).trans (stores.trans bytes), fun _ => mem ▸ after⟩
      obtain rfl := Place.phys.inj hq
      exact ⟨tidy, tidy', fit⟩

/-- An atomic's piece acts at its place, or its queue answers later. -/
theorem makes_rmw (hop : t.op = .rmw m) :
    ∃ u d, Makes c whole id s t u d ∧ CoreKeeps c.core s u ∧
      (Reached t → c.mw = [] → Sits s t.piece.place t.n → Modifies s t m u d) := by
  obtain hv | ⟨j, hv, hr⟩ | ⟨p, hp, hc, hr⟩ | ⟨p, hp, hc⟩ | ⟨k, p, hp, hr⟩ := piece_cases t
  · exact makes_rmw_own hop hv
  · refine ⟨s.sendNet c.core j (match m with
      | .amo f b => .amo id t.ix (t.n == 8) f b
      | .cas e v => .cas id t.ix (t.n == 8) e v), none, fun r hs hid hheld => ?_, .of_eq rfl, fun h => (hr h).elim⟩
    rw [unheld_rmw hop hheld]
    simp only [performRmw, hv, hs, hid]
    cases m <;> rfl
  · refine ⟨s, some (s.ctlRead p t.n, 0), fun r hs _ hheld => ?_, .refl, fun h => (hr h).elim⟩
    rw [unheld_rmw hop hheld]
    simp only [performRmw, hp, viaOf_phys, hc, hs]
    rfl
  · exact makes_rmw_home hop hp hc
  · refine ⟨s.sendFabric k 0 (.access c.core id (match m with
      | .amo f b => .amo p f (t.n == 8) b id
      | .cas e v => .cas p (t.n == 8) e v id)), none, fun r hs hid hheld => ?_, .of_eq rfl, fun h => (hr h).elim⟩
    rw [unheld_rmw hop hheld]
    simp only [performRmw, hp, viaOf_far, hs, hid]
    cases m <;> rfl

end

/-! ### Making all pieces of an atomic -/

/-- A piece of an atomic, with the place and the read-modify-write that it stands for. -/
def Stands (n : Nat) (t : Todo) (e : Place × Rmw) : Prop := t.op = .rmw e.2 ∧ t.piece.place = e.1 ∧ t.n = n

theorem makesAll_rmws {c : Cursor} {whole : Bool} {id n : Nat} {ts : List Todo} {ps : List (Place × Rmw)}
    (h : List.Forall₂ (Stands n) ts ps) (s : State) :
    ∃ u ds, MakesAll c whole id s ts u ds ∧ CoreKeeps c.core s u ∧
      ((∀ t ∈ ts, Reached t) → c.mw = [] → ((∀ e ∈ ps, ∀ p, e.1 ≠ .phys p) ∨ s.ms.Tidy) →
        ∀ v, SameBytes v s → ((∀ e ∈ ps, ∀ p, e.1 ≠ .phys p) ∨ v.ms.Tidy) →
          (List.zipWith Todo.made ts ds).map (fun p => p.data) = (rmwAll n ps v).1 ∧
          (∀ p ∈ List.zipWith Todo.made ts ds, p.done = true) ∧ SameBytes (rmwAll n ps v).2 u) := by
  induction h generalizing s with
  | nil => exact ⟨s, [], .nil, .refl, fun _ _ _ v hv _ => ⟨rfl, nofun, hv⟩⟩
  | @cons t e ts ps he hps ih =>
    obtain ⟨q, m⟩ := e
    obtain ⟨hop, rfl, rfl⟩ := he
    obtain ⟨s1, d, hm, keeps, acts⟩ := makes_rmw (c := c) (whole := whole) (id := id) (s := s) hop
    obtain ⟨u, ds, hms, keeps', all⟩ := ih s1
    refine ⟨u, d :: ds, .cons hm hms, keeps.trans keeps', fun hr hmw hs v hv hvt => ?_⟩
    obtain ⟨hr, hrs⟩ := List.forall_mem_cons.mp hr
    have sits {x : State} (hx : (∀ e ∈ (t.piece.place, m) :: ps, ∀ p, e.1 ≠ .phys p) ∨ x.ms.Tidy) : Sits x t.piece.place t.n := fun p hp =>
      ⟨hx.resolve_left fun h => h _ (.head _) p hp, (hr.of_phys hp).2⟩
    obtain ⟨given, bytes, tidy⟩ := acts hr hmw (sits hs)
    obtain ⟨datas, dones, same⟩ := all hrs hmw (hs.imp (fun h e he => h e (.tail _ he)) tidy) _
      ((hv.rmwState (sits hvt) (sits hs) m).trans bytes)
      (hvt.imp (fun h e he => h e (.tail _ he)) fun h => tidy_rmwState h (fun p hp => (hr.of_phys hp).2) m)
    obtain ⟨x, rfl, hx⟩ := Option.map_eq_some_iff.mp given
    rw [rmwAll_cons]
    refine ⟨?_, List.forall_mem_cons.mpr ⟨rfl, dones⟩, same⟩
    rw [List.zipWith_cons_cons, List.map_cons, datas, ← hv.readPlace, ← hx]
    rfl

/-! ### An atomic over its addresses -/

/-- What is done at the addresses of an atomic. -/
def rmwWorks (as : List (W64 × Rmw)) : List (W64 × PieceOp) := as.map fun a => (a.1, .rmw a.2)

theorem rmwWorks_addresses (as : List (W64 × Rmw)) : (rmwWorks as).map (fun a => a.1) = as.map fun a => a.1 := by
  simp [rmwWorks, Function.comp_def]

section

variable {s : State} {c : Cursor} {n : Nat} {as : List (W64 × Rmw)} {d : LoadDest}

theorem rmws_eq : (as.mapIdx fun i a => ({ ix := i, n := n, piece := s.piece c.core .atomic n a.1, op := .rmw a.2 } : Todo)) =
    (rmwWorks as).mapIdx fun i a => { ix := i, n := n, piece := s.piece c.core .atomic n a.1, op := a.2 } := by
  refine List.ext_getElem? fun i => ?_
  simp [rmwWorks, Function.comp_def]

theorem mem_rmwWorks {t : Todo} (h : t ∈ works s c .atomic n (rmwWorks as)) : ∃ i, ∃ a ∈ as, t = work s c .atomic n i a.1 (.rmw a.2) := by
  obtain ⟨i, x, hx, rfl⟩ := mem_works h
  obtain ⟨a, ha, rfl⟩ := List.mem_map.mp hx
  exact ⟨i, a, ha, rfl⟩

theorem rmwWorks_stand :
    List.Forall₂ (Stands n) (works s c .atomic n (rmwWorks as)) (as.map fun a => (placeOf s c .atomic n a.1, a.2)) := by
  refine List.forall₂_iff_get.mpr ⟨by simp [length_works, rmwWorks], fun i h₁ h₂ => ?_⟩
  simp only [works, rmwWorks, List.get_eq_getElem, List.getElem_mapIdx, List.getElem_map]
  exact ⟨rfl, rfl, rfl⟩

/-- An atomic's access as it is dispatched. -/
theorem finishRmw_made (hp : Prompt s c) (hd : ∀ ws, d ≠ .fixed ws)
    (hcount : AllOwn s c .atomic n (as.map fun a => a.1) ∨ ((s.core c.core).ld < 256 ∧ (s.core c.core).st < 256)) :
    ∃ (u : State) (parts : List Part) (time : Nat),
      finishRmw s c n as { newOut s c with dest := d } = .next (
        if ownOnly { newOut s c with dest := d, ldPend := true, stPend := true } (works s c .atomic n (rmwWorks as)) then
          u.puts c 6 (d.writes (parts.map fun p => p.data))
        else u.addOut c.core { newOut s c with dest := d, ldPend := true, stPend := true, parts := parts, time := time }) ∧
      parts.length = as.length ∧ CoreKeeps c.core s u ∧
      (c.mw = [] → (∀ a ∈ as, Reached (work s c .atomic n 0 a.1 (.rmw a.2))) →
        ((∀ a ∈ as, ∀ p, placeOf s c .atomic n a.1 ≠ .phys p) ∨ s.ms.Tidy) →
          let ps := as.map fun a => (placeOf s c .atomic n a.1, a.2)
          (parts.map fun p => p.data) = (rmwAll n ps s).1 ∧ (∀ p ∈ parts, p.done = true) ∧ SameBytes (rmwAll n ps s).2 u) := by
  have fills := State.fillFor_fillsOnly s c.core n (as.map fun a => a.1)
  have count : ownOnly { newOut s c with dest := d, ldPend := true, stPend := true } (works s c .atomic n (rmwWorks as)) = true ∨
      countersFull s c true true = false := by
    refine hcount.imp (fun hown => (ownOnly_works rfl hd).mpr (by rwa [rmwWorks_addresses])) fun hlow => ?_
    unfold countersFull
    simpa using hlow
  obtain ⟨u, ds, hm, keeps, acts⟩ := makesAll_rmws (c := c) (whole := oneUnit (works s c .atomic n (rmwWorks as)))
    (id := (s.core c.core).outNext) rmwWorks_stand (s.fillFor c.core n (as.map fun a => a.1))
  have made := accessOp_made (o := { newOut s c with dest := d, ldPend := true, stPend := true }) fills hp
    (rmws_eq (as := as) ▸ forwarded_works fills) works_ix rfl rfl count hm
  refine ⟨u, List.zipWith Todo.made (works s c .atomic n (rmwWorks as)) ds, timeAfter ds 0, made, ?_, fills.loadKeeps.coreKeeps.trans keeps,
    fun hmw hreach hsits => ?_⟩
  · rw [List.length_zipWith, hm.length_eq, length_works, rmwWorks, List.length_map, Nat.min_self]
  · have places : (∀ a ∈ as, ∀ p, placeOf s c .atomic n a.1 ≠ .phys p) →
        ∀ e ∈ as.map (fun a => (placeOf s c .atomic n a.1, a.2)), ∀ p, e.1 ≠ .phys p := fun h e he => by
      obtain ⟨a, ha, rfl⟩ := List.mem_map.mp he
      exact h a ha
    refine acts (fun t ht => ?_) hmw (hsits.imp places fun h => ?_) s fills.loadKeeps.sameBytes (hsits.imp_left places)
    · obtain ⟨i, a, ha, rfl⟩ := mem_rmwWorks ht
      exact hreach a ha
    · rw [fills.ms]
      exact h

/-- An atomic form writes a register or a vector register. -/
theorem atomicForm_dest {i : Instr} {us : List Use} {rs vs : List Reg} (hi : atomicForm i s c = some (us, rs, vs, n, as, d)) :
    ∀ ws, d ≠ .fixed ws := by
  unfold atomicForm at hi
  split at hi <;> cases hi <;> exact nofun

end

/-- Settles O25. -/
theorem atomicsComplete : Obligations.AtomicsComplete := by
  unfold Obligations.AtomicsComplete
  intro i s c us rs vs n as d hi h hc hv hr ps o
  have atomics := exec_atomicForm hi h hc hv hr
  have hd := atomicForm_dest hi
  have own : ownOnly { newOut s c with dest := d, ldPend := true, stPend := true } (works s c .atomic n (rmwWorks as)) = true ↔
      AllOwn s c .atomic n (as.map fun a => a.1) := by
    rw [← rmwWorks_addresses]
    exact ownOnly_works rfl hd
  refine ⟨fun hl => ?_, fun hp hown => ?_, fun hp hown hld hst => ?_⟩
  · rw [atomics, finishRmw, accessOp_lags ((State.fillFor_fillsOnly s c.core n _).lags hl)]
    rfl
  · obtain ⟨u, parts, time, hu, hlen, keeps, acts⟩ := finishRmw_made hp hd (.inl hown)
    rw [if_pos (own.mpr hown)] at hu
    refine ⟨u, parts.map fun p => p.data, atomics.trans hu, by rw [List.length_map, hlen], keeps.writes, keeps.outs, fun hmw => ?_⟩
    have reach : ∀ a ∈ as, Reached (work s c .atomic n 0 a.1 (.rmw a.2)) := fun a ha => .inl (by
      have := hown a.1 (List.mem_map_of_mem ha)
      rw [← work_isOwn (i := 0) (op := .rmw a.2)] at this
      simpa [Piece.isOwn] using this)
    have inBuffers : ∀ a ∈ as, ∀ p, placeOf s c .atomic n a.1 ≠ .phys p := fun a ha p => by
      obtain ⟨b, off, -, hplace⟩ := place_of_isOwn (hown a.1 (List.mem_map_of_mem ha))
      rw [placeOf, Piece.forward, hplace]
      exact nofun
    obtain ⟨olds, -, same⟩ := acts hmw reach (.inl inBuffers)
    exact ⟨olds, fun x m => same.readPlace x m⟩
  · obtain ⟨u, parts, time, hu, hlen, keeps, acts⟩ := finishRmw_made hp hd (.inr ⟨hld, hst⟩)
    rw [if_neg (mt own.mp hown)] at hu
    refine ⟨u, parts, time, atomics.trans hu, hlen, keeps.writes, keeps.outs, fun hmw htidy hl => ?_⟩
    obtain ⟨olds, dones, same⟩ := acts hmw (fun a ha => reached_of_local (hl a ha)) (.inr ⟨htidy.1, htidy.2.1⟩)
    exact ⟨olds, dones, fun x => same.readPlace x 1⟩

end Sys2Proof.Machine
end

section
/-!
The values of the integer lane operations as numbers (R123, R124, R132).
-/
namespace Sys2Proof.Machine

open Sys2Proof.Claims

/-! ### Saturation (R119, R123) -/

/-- A signed clamp is the one of R119, its flag with it. -/
theorem clampS_eq (x : Int) : clampS x =
    (BitVec.ofInt 32 (clampInt (-(2 ^ 31)) (2 ^ 31 - 1) x).1, flagIf (clampInt (-(2 ^ 31)) (2 ^ 31 - 1) x).2 flSAT) := by
  unfold clampS clampInt
  by_cases low : x < -2147483648
  · rw [if_pos low, if_pos (by omega)]
    rfl
  · rw [if_neg low, if_neg (c := x < -(2 ^ 31)) (by omega)]
    by_cases high : 2147483647 < x
    · rw [if_pos high, if_pos (by omega)]
      rfl
    · rw [if_neg high, if_neg (by omega)]
      rfl

/-- An unsigned clamp is the one of R119, its flag with it. -/
theorem clampU_eq (x : Int) : clampU x =
    (BitVec.ofInt 32 (clampInt 0 (2 ^ 32 - 1) x).1, flagIf (clampInt 0 (2 ^ 32 - 1) x).2 flSAT) := by
  unfold clampU clampInt
  by_cases low : x < 0
  · rw [if_pos low, if_pos low]
    rfl
  · rw [if_neg low, if_neg low]
    by_cases high : 4294967295 < x
    · rw [if_pos high, if_pos (by omega)]
      rfl
    · rw [if_neg high, if_neg (by omega)]
      rfl

theorem satLane_ss (x y : Int) : satLane .ss x y = clampS x := (clampS_eq x).symm

theorem arithLane_eq (f : Int → Int → Int) (k : SatKind) (x y : W32) : arithLane f k x y = saturate k f x y := by
  cases k with
  | wrap => rfl
  | ss => exact satLane_ss _ _
  | us => exact (clampU_eq _).symm

theorem absLane_saturating (x : W32) : absLane true x = clampS x.toInt.natAbs := satLane_ss _ 0

theorem absLane_wrapping (x : W32) : absLane false x = plain (BitVec.ofNat 32 x.toInt.natAbs) := by
  have neg : x.slt 0 = true ↔ x.toInt < 0 := by simp [BitVec.slt]
  rw [absLane, if_neg Bool.false_ne_true]
  by_cases h : x.toInt < 0
  · have : -x = BitVec.ofInt 32 (x.toInt.natAbs : Nat) := by
      rw [show ((x.toInt.natAbs : Nat) : Int) = -x.toInt by omega, BitVec.ofInt_neg, BitVec.ofInt_toInt]
    rw [if_pos (neg.mpr h), this, BitVec.ofInt_natCast]
  · have : x = BitVec.ofInt 32 (x.toInt.natAbs : Nat) := by
      rw [show ((x.toInt.natAbs : Nat) : Int) = x.toInt by omega, BitVec.ofInt_toInt]
    rw [if_neg (mt neg.mp h), ← BitVec.ofInt_natCast, ← this]

/-! ### Products, the smaller and the larger, and shifts (R123) -/

theorem mulHigh32_uu (x y : W32) : mulHigh32 .uu x y = BitVec.ofNat 32 (x.toNat * y.toNat / 2 ^ 32) := by
  rw [← BitVec.ofInt_natCast]
  rfl

theorem minLane_signed (x y : W32) : minLane false x y = BitVec.ofInt 32 (min x.toInt y.toInt) := by
  rw [min_def_lt, apply_ite (BitVec.ofInt 32), BitVec.ofInt_toInt, BitVec.ofInt_toInt]
  simp [minLane, BitVec.slt]

theorem minLane_unsigned (x y : W32) : minLane true x y = BitVec.ofNat 32 (Nat.min x.toNat y.toNat) := by
  show _ = BitVec.ofNat 32 (min x.toNat y.toNat)
  rw [min_def_lt, apply_ite (BitVec.ofNat 32)]
  simp [minLane, BitVec.ult]

theorem maxLane_signed (x y : W32) : maxLane false x y = BitVec.ofInt 32 (max x.toInt y.toInt) := by
  rw [max_comm, max_def_lt, apply_ite (BitVec.ofInt 32), BitVec.ofInt_toInt, BitVec.ofInt_toInt]
  simp [maxLane, BitVec.slt]

theorem maxLane_unsigned (x y : W32) : maxLane true x y = BitVec.ofNat 32 (Nat.max x.toNat y.toNat) := by
  show _ = BitVec.ofNat 32 (max x.toNat y.toNat)
  rw [max_comm, max_def_lt, apply_ite (BitVec.ofNat 32)]
  simp [maxLane, BitVec.ult]

theorem shiftLeft_eq_ofNat (x : W32) (n : Nat) : x <<< n = BitVec.ofNat 32 (x.toNat * 2 ^ n) :=
  BitVec.eq_of_toNat_eq (by rw [BitVec.toNat_shiftLeft, BitVec.toNat_ofNat, Nat.shiftLeft_eq])

theorem shiftRight_eq_ofNat (x : W32) (n : Nat) : x >>> n = BitVec.ofNat 32 (x.toNat / 2 ^ n) :=
  BitVec.eq_of_toNat_eq (by
    rw [BitVec.toNat_ushiftRight, BitVec.toNat_ofNat, Nat.shiftRight_eq_div_pow, Nat.mod_eq_of_lt ((Nat.div_le_self _ _).trans_lt x.isLt)])

theorem sshiftRight_eq_ofInt (x : W32) (n : Nat) : x.sshiftRight n = BitVec.ofInt 32 (x.toInt / 2 ^ n) := by
  rw [← BitVec.ofInt_toInt (x := x.sshiftRight n), BitVec.toInt_sshiftRight, Int.shiftRight_eq_div_pow]
  rfl

/-! ### Dot products of bytes (R132) -/

theorem laneByte_eq (sgn : Bool) (x : W32) (p : Nat) : laneByte sgn x p = byteOf sgn x p := by
  cases sgn with
  | false => rfl
  | true => simp [laneByte, byteOf, signed, bits]

theorem dot4Lane_eq (k : DotKind) (sat : Bool) (x y z : W32) :
    dot4Lane k sat x y z = if sat then clampS (dot4 k x y z) else (BitVec.ofInt 32 (dot4 k x y z), 0) := by
  have sum : (List.range 4).foldl (fun t p => t + laneByte (k ≠ .uu) x p * laneByte (k = .ss) y p) z.toInt = dot4 k x y z := by
    simp only [laneByte_eq]
    cases k with
    | ss => rfl
    | uu => rfl
    | su => rfl
  rw [dot4Lane, sum]
  cases sat with
  | false => rfl
  | true => exact satLane_ss _ 0

end Sys2Proof.Machine
end

section
/-!
The lane operations of the V and F slots: the frame of R116 with the value of a lane (R116, R119, R123 to R134).
-/
namespace Sys2Proof.Machine

open Sys2Proof.Claims

/-- The frame of R116 with its clusters, lanes and flags written out. -/
theorem vframe_eq (s : State) (c : Cursor) (lat vd : Nat) (src : Nat → Bool) (op : Nat → Nat → W32 × FlagSet) :
    vframe s c lat vd src op = .next (vectorNext s c lat vd src op) := by
  simp only [vframe, laneResults, laneFlags, vectorNext, destDf, List.map_map, List.flatMap_map, Function.comp_def]

section

variable {s : State} {c : Cursor} {d a b : Reg} {lat : Nat} {op : Nat → Nat → W32 × Nat}

/-- The frame's DF bits and lanes may be given otherwise. -/
theorem vframe_congr {vd : Nat} {src src' : Nat → Bool} {op op' : Nat → Nat → W32 × FlagSet} (hs : ∀ cl, src cl = src' cl)
    (ho : ∀ cl j, op cl j = op' cl j) : vframe s c lat vd src op = .next (vectorNext s c lat vd src' op') := by
  rw [vframe_eq, funext hs, funext fun cl => funext (ho cl)]

theorem lane1_eq {f : W32 → W32 × FlagSet} (h : Acts s c (vUses [d, a])) (hf : ∀ cl j, f (s.vr c cl a.val j) = op cl j) :
    lane1 f lat d a s = .next (vectorNext s c lat d.val (fun cl => [a].any fun r => s.vf c cl r.val) op) :=
  (slotOp_act h.1 h.2 _).trans (vframe_congr (fun _ => by simp) hf)

theorem lane2_eq {f : W32 → W32 → W32 × FlagSet} (h : Acts s c (vUses [d, a, b]))
    (hf : ∀ cl j, f (s.vr c cl a.val j) (s.vr c cl b.val j) = op cl j) :
    lane2 f lat d a b s = .next (vectorNext s c lat d.val (fun cl => [a, b].any fun r => s.vf c cl r.val) op) :=
  (slotOp_act h.1 h.2 _).trans (vframe_congr (fun _ => by simp) hf)

/-- A function of the F slot, on the fp32 value of a lane (R133). -/
theorem lane1F_eq {f : FVal → Nat × FlagSet} (h : Acts s c (vUses [d, a]))
    (hf : ∀ cl j, (BitVec.ofNat 32 (f (decodeFloat fp32 (s.vr c cl a.val j).toNat)).1,
      (f (decodeFloat fp32 (s.vr c cl a.val j).toNat)).2) = op cl j) :
    lane1F f d a s = .next (vectorNext s c 8 d.val (fun cl => [a].any fun r => s.vf c cl r.val) op) :=
  lane1_eq h hf

/-- vd is a source too. -/
theorem lane3_eq {f : W32 → W32 → W32 → W32 × FlagSet} (h : Acts s c (vUses [d, a, b, d]))
    (hf : ∀ cl j, f (s.vr c cl a.val j) (s.vr c cl b.val j) (s.vr c cl d.val j) = op cl j) :
    lane3 f lat d a b s = .next (vectorNext s c lat d.val (fun cl => [a, b, d].any fun r => s.vf c cl r.val) op) :=
  (slotOp_act h.1 (fun u hu => h.2 u (List.mem_append_left [.v d.val] hu)) _).trans
    (vframe_congr (fun _ => by simp [Bool.or_assoc]) hf)

end

/-- Settles O17: each operation by the value of a lane. -/
theorem vectorIntegerLanes : Obligations.VectorIntegerLanes := by
  intro i s c d rs f hi h
  unfold laneInteger at hi
  simp only at hi
  split at hi <;> cases hi
  case h_1 => show execVadd _ _ _ _ s = _; exact lane2_eq h fun _ _ => arithLane_eq _ _ _ _
  case h_2 => show execVsub _ _ _ _ s = _; exact lane2_eq h fun _ _ => arithLane_eq _ _ _ _
  case h_3 => show execVmul _ _ _ _ s = _; exact lane2_eq h fun _ _ => arithLane_eq _ _ _ _
  case h_4 => show execVmulh _ _ _ _ s = _; exact lane2_eq h fun _ _ => rfl
  case h_5 => show execVmulh _ _ _ _ s = _; exact lane2_eq h fun _ _ => congrArg plain (mulHigh32_uu _ _)
  case h_6 => show execVmulh _ _ _ _ s = _; exact lane2_eq h fun _ _ => rfl
  case h_7 => show execVmin _ _ _ _ s = _; exact lane2_eq h fun _ _ => congrArg plain (minLane_unsigned _ _)
  case h_8 => show execVmin _ _ _ _ s = _; exact lane2_eq h fun _ _ => congrArg plain (minLane_signed _ _)
  case h_9 => show execVmax _ _ _ _ s = _; exact lane2_eq h fun _ _ => congrArg plain (maxLane_unsigned _ _)
  case h_10 => show execVmax _ _ _ _ s = _; exact lane2_eq h fun _ _ => congrArg plain (maxLane_signed _ _)
  case h_11 => show execVabs _ _ _ s = _; exact lane1_eq h fun _ _ => absLane_saturating _
  case h_12 => show execVabs _ _ _ s = _; exact lane1_eq h fun _ _ => absLane_wrapping _
  case h_13 => show execVand _ _ _ s = _; exact lane2_eq h fun _ _ => rfl
  case h_14 => show execVor _ _ _ s = _; exact lane2_eq h fun _ _ => rfl
  case h_15 => show execVxor _ _ _ s = _; exact lane2_eq h fun _ _ => rfl
  case h_16 => show execVnot _ _ s = _; exact lane1_eq h fun _ _ => rfl
  case h_17 => show execVshl _ _ _ s = _; exact lane2_eq h fun _ _ => congrArg plain (shiftLeft_eq_ofNat _ _)
  case h_18 => show execVshr _ _ _ s = _; exact lane2_eq h fun _ _ => congrArg plain (shiftRight_eq_ofNat _ _)
  case h_19 => show execVsra _ _ _ s = _; exact lane2_eq h fun _ _ => congrArg plain (sshiftRight_eq_ofInt _ _)
  case h_20 => show execVmov _ _ s = _; exact lane1_eq h fun _ _ => rfl
  case h_21 => show execVdot4 _ _ _ _ _ s = _; exact lane3_eq h fun _ _ => dot4Lane_eq _ _ _ _ _

/-- Settles O18: each operation by its lane function. -/
theorem vectorFloatLanes : Obligations.VectorFloatLanes := by
  intro i s c d rs lat f hi h
  unfold laneFloat at hi
  simp only at hi
  split at hi <;> cases hi
  case h_1 => show execVfadd _ _ _ _ _ s = _; exact lane2_eq h fun _ _ => rfl
  case h_2 => show execVfsub _ _ _ _ _ s = _; exact lane2_eq h fun _ _ => rfl
  case h_3 => show execVfmul _ _ _ _ _ s = _; exact lane2_eq h fun _ _ => rfl
  case h_4 => show execVfma _ _ _ _ _ s = _; exact lane3_eq h fun _ _ => rfl
  case h_5 => show execVfmin _ _ _ _ s = _; exact lane2_eq h fun _ _ => rfl
  case h_6 => show execVfmax _ _ _ _ s = _; exact lane2_eq h fun _ _ => rfl
  case h_7 => show execVcvt _ _ _ _ _ s = _; exact lane1_eq h fun _ _ => rfl
  case h_8 => show execVlgmul _ _ _ s = _; exact lane2_eq h fun _ _ => rfl
  case h_9 => show execVlgsum _ _ _ s = _; exact lane3_eq h fun _ _ => rfl
  case h_10 => show execFexp2 _ _ s = _; exact lane1F_eq h fun _ _ => rfl
  case h_11 => show execFlog2 _ _ s = _; exact lane1F_eq h fun _ _ => rfl
  case h_12 => show execFrcp _ _ s = _; exact lane1F_eq h fun _ _ => rfl
  case h_13 => show execFrsqrt _ _ s = _; exact lane1F_eq h fun _ _ => rfl
  case h_14 => show execFsqrt _ _ s = _; exact lane1F_eq h fun _ _ => rfl
  case h_15 => show execFtanh _ _ s = _; exact lane1F_eq h fun _ _ => rfl
  case h_16 => show execFsigm _ _ s = _; exact lane1F_eq h fun _ _ => rfl
  case h_17 => show execFsin _ _ s = _; exact lane1F_eq h fun _ _ => rfl
  case h_18 => show execFcos _ _ s = _; exact lane1F_eq h fun _ _ => rfl

end Sys2Proof.Machine
end

section
/-!
Moves, constants, permutes and table lookups, packing, reductions and scans (R124, R125, R130, R131, R134).
-/
namespace Sys2Proof.Machine

open Sys2Proof.Claims

/-- A slot operation whose effect is a frame of R116. -/
theorem slotOp_vframe {s : State} {c : Cursor} {us : List Use} {lat vd : Nat} {src src' : Nat → Bool} {op op' : Nat → Nat → W32 × FlagSet}
    {f : Cursor → Res} (h : Acts s c us) (hf : f c = vframe s c lat vd src op) (hs : ∀ cl, src cl = src' cl)
    (ho : ∀ cl j, op cl j = op' cl j) : slotOp s us f = .next (vectorNext s c lat vd src' op') :=
  (slotOp_act h.1 h.2 f).trans (hf.trans (vframe_congr hs ho))

/-! ### Moves, constants and permutes (R124) -/

theorem ofNat_field_eq (x : W64) (hi : Bool) : BitVec.ofNat 32 (field x (if hi then 32 else 0) 32) =
    BitVec.ofNat 32 (if hi then x.toNat / 2 ^ 32 else x.toNat) := by
  have wrap (n : Nat) : BitVec.ofNat 32 (n % 2 ^ 32) = BitVec.ofNat 32 n := BitVec.eq_of_toNat_eq (Nat.mod_mod n _)
  cases hi with
  | false => exact (wrap _).trans (congrArg _ (Nat.div_one _))
  | true => exact wrap _

theorem bits_one_iff (n j : Nat) : bits n j 1 = 1 ↔ n.testBit j = true := by
  simp [bits, Nat.testBit_eq_decide_div_mod_eq]

/-- The lane operations of R124, each by the frame of R116 with its lanes. -/
theorem exec_laneMove {i : Instr} {s : State} {c : Cursor} {us : List Use} {d : Reg} {lat : Nat} {df : Nat → Bool} {op : Nat → Nat → W32}
    (hi : laneMove i s c = some (us, d, lat, df, op)) (h : Acts s c us) :
    exec i s = .next (vectorNext s c lat d.val df fun cl j => (op cl j, 0)) := by
  unfold laneMove at hi
  split at hi <;> cases hi
  case h_1 => show execVli _ _ s = _; exact slotOp_vframe h rfl (fun _ => rfl) fun _ _ => rfl
  case h_2 => show execVliExt _ _ s = _; exact slotOp_vframe h rfl (fun _ => rfl) fun _ _ => rfl
  case h_3 => show execViota _ _ s = _; exact slotOp_vframe h rfl (fun _ => rfl) fun _ _ => rfl
  case h_4 => show execVbcast _ _ _ s = _; exact slotOp_vframe h rfl (fun _ => rfl) fun _ _ => congrArg plain (ofNat_field_eq _ _)
  case h_5 => show execVsel _ _ _ _ s = _; exact slotOp_vframe h rfl (fun _ => rfl) fun _ _ => by simp only [plain, bits_one_iff]
  case h_6 => show execVperm _ _ _ s = _; exact slotOp_vframe h rfl (fun _ => rfl) fun _ _ => rfl
  case h_7 => show execVxc _ _ _ _ s = _; exact slotOp_vframe h rfl (fun _ => rfl) fun _ _ => rfl
  case h_8 => show execVxc _ _ _ _ s = _; exact slotOp_vframe h rfl (fun _ => rfl) fun _ _ => rfl
  case h_9 => show execVxc _ _ _ _ s = _; exact slotOp_vframe h rfl (fun _ => rfl) fun _ _ => rfl

/-- The lane that `vext` reads, as a scalar. -/
theorem extendLane_eq (sgn : Bool) (x : W32) : (if sgn then x.signExtend 64 else x.setWidth 64) =
    if sgn then BitVec.ofInt 64 x.toInt else BitVec.ofNat 64 x.toNat := by
  rw [BitVec.ofNat_toNat]
  rfl

/-- Settles O19: the frames of R124, `vext` by whether a cluster is enabled, and `flut` past its clean source. -/
theorem vectorMovesAndPermutes : Obligations.VectorMovesAndPermutes := by
  refine ⟨fun i s c us d lat df op hi h => exec_laneMove hi h, fun s c d a lane sgn h => ⟨fun none_ => ?_, fun cl cls some_ => ?_⟩,
    fun s c d a b => fun h clean => ?_⟩
  · show execVext _ _ _ _ s = _
    refine (slotOp_act h.1 h.2 _).trans ?_
    simp only [none_]
  · show execVext _ _ _ _ s = _
    refine (slotOp_act h.1 h.2 _).trans ?_
    simp only [some_, extendLane_eq]
  · show execFlut _ _ _ s = _
    exact slotOp_vframe h (withCleanV_pass (by simpa using clean) _) (fun _ => rfl) fun _ _ => rfl

/-! ### Packed codes (R130, R131) -/

section

variable {s : State} {c : Cursor} {n i w : Nat}

theorem withNf_pass (hw : nfWidth n = some w) (h : nfValid n = true ∧ i < 32 / w) (f : Nat → Res) : withNf s c n i f = f w := by
  simp only [withNf, hw]
  exact if_pos h

theorem withNf_trap (hw : nfWidth n = some w) (h : ¬(nfValid n = true ∧ i < 32 / w)) (f : Nat → Res) :
    withNf s c n i f = .next (trapped s c .illegalSlotOp (slotTval c 5)) := by
  simp only [withNf, hw]
  exact if_neg h

end

/-- Settles O20: packing and unpacking by the check of R131, reductions and scans by the lanes that they combine. -/
theorem vectorPackAndReduce : Obligations.VectorPackAndReduce := by
  refine ⟨fun s c d a i nf int w h hw => ⟨fun valid fits => ⟨?_, ?_⟩, fun bad => ⟨?_, ?_⟩⟩,
    fun s c d a f h => ?_, fun s c d a f h => ?_⟩
  · show execVpack _ _ _ _ _ s = _
    exact slotOp_vframe h (withNf_pass hw ⟨valid, fits⟩ _) (fun _ => rfl) fun _ _ => rfl
  · show execVunpack _ _ _ _ s = _
    exact slotOp_vframe h (withNf_pass hw ⟨valid, fits⟩ _) (fun _ => rfl) fun _ _ => rfl
  · exact (slotOp_act h.1 h.2 _).trans (withNf_trap hw bad _)
  · exact (slotOp_act h.1 h.2 _).trans (withNf_trap hw bad _)
  · exact slotOp_act h.1 h.2 _
  · show execVscan _ _ _ s = _
    exact slotOp_vframe h rfl (fun _ => rfl) fun _ _ => rfl

end Sys2Proof.Machine
end

section
/-!
Masks, the mask stack and the cluster masks (R114, R118, R120 to R122, R168).
-/
namespace Sys2Proof.Machine

open Sys2Proof.Claims

theorem exec_kmov {s : State} {c : Cursor} (kd ka kb : KReg) (f : KOp) (h : Acts s c []) : exec (.kmov kd ka kb f) s =
    .next (s.puts c 2 ((s.enabled c).map fun cl => .mask cl kd.val (maskMove f (s.kr c cl ka.val) (s.kr c cl kb.val) (s.top c cl)))) := by
  refine (slotOp_act h.1 h.2 _).trans ?_
  cases f <;> rfl

/-- A stack operation traps where one enabled cluster's stack cannot take it. -/
theorem ite_any_pos {cls : List Nat} {p : Nat → Bool} (h : ∃ cl ∈ cls, p cl = true) (x y : Res) : (if cls.any p then x else y) = x :=
  if_pos (List.any_eq_true.mpr h)

theorem ite_any_neg {cls : List Nat} {p : Nat → Bool} (h : ∀ cl ∈ cls, p cl = false) (x y : Res) : (if cls.any p then x else y) = y :=
  if_neg (by simpa using h)

/-- Settles O21: compares past their clean sources, the stack operations by the depth of each enabled cluster's stack. -/
theorem masksAndMaskStack : Obligations.MasksAndMaskStack := by
  refine ⟨fun s c a b kd h clean => ⟨fun cd => ?_, fun cd k => ?_⟩, fun s c kd ka kb f h => exec_kmov kd ka kb f h,
    fun s c k h => ⟨fun room => ?_, fun full => ?_⟩, fun s c h => ⟨fun deep => ⟨?_, ?_⟩, fun flat => ⟨?_, ?_⟩⟩,
    fun s c m h => ⟨fun j => ?_, ?_, fun j => ?_⟩⟩
  · exact (slotOp_act h.1 h.2 _).trans (withCleanV_pass clean _)
  · exact (slotOp_act h.1 h.2 _).trans (withCleanV_pass clean _)
  · exact (slotOp_act h.1 h.2 _).trans (ite_any_neg (fun cl hcl => by simpa using room cl hcl) _ _)
  · exact (slotOp_act h.1 h.2 _).trans (ite_any_pos (by simpa using full) _ _)
  · exact (slotOp_act h.1 h.2 _).trans (ite_any_neg (fun cl hcl => by simpa using deep cl hcl) _ _)
  · exact (slotOp_act h.1 h.2 _).trans (ite_any_neg (fun cl hcl => by simpa using deep cl hcl) _ _)
  · exact (slotOp_act h.1 h.2 _).trans (ite_any_pos (by simpa using flat) _ _)
  · exact (slotOp_act h.1 h.2 _).trans (ite_any_pos (by simpa using flat) _ _)
  · rw [BitVec.ofNat_toNat]
    exact slotOp_act h.1 h.2 _
  · rw [BitVec.ofNat_toNat]
    exact slotOp_act h.1 h.2 _
  · rw [BitVec.ofNat_toNat]
    exact slotOp_act h.1 h.2 _

end Sys2Proof.Machine
end

section
/-!
An access that counts: its pieces made at its dispatch, a read at the home among them (R156, R160, R202, R301, R318).
-/
namespace Sys2Proof.Machine

open Sys2Proof.Claims

section

variable {s t : State} {c : Cursor}

/-- Where the M class makes every piece at once nothing is left, the pieces behind a version word among them (R318). -/
theorem leavePieces_prompt {o : Outstanding} (h : Prompt s c) (hrel : o.rel = []) (ts : List Todo) : leavePieces s c o ts = (ts, []) := by
  obtain ⟨-, hsplit, hlate, -⟩ := h
  simp only [leavePieces, hrel, hsplit, Core.behind, hlate, List.any_nil, List.isEmpty_nil, Bool.not_true, Bool.false_and, Bool.or_false,
    Bool.false_or]
  induction ts using List.reverseRecOn with
  | nil => rfl
  | append_singleton ts t ih =>
    rw [List.foldl_append, ih]
    simp

/-- An access outside the own buffers that waits for nothing makes its pieces in order and is outstanding with a part for each. -/
theorem accessOp_counts {u : State} {o : Outstanding} {ts fs : List Todo} {ds : List Given} (hp : Prompt s c) (hfs : forwarded s ts = fs)
    (hix : ∀ (j : Nat) (x : Todo), fs[j]? = some x → x.ix = j) (hscope : o.scope = none) (hown : ownOnly o fs = false)
    (hcount : countersFull s c o.ldPend o.stPend = false) (hm : MakesAll c (oneUnit fs) (s.core c.core).outNext s fs u ds) :
    accessOp s c o ts = .next (u.addOut c.core { o with
      id := (s.core c.core).outNext, rel := [], parts := List.zipWith Todo.made fs ds, time := timeAfter ds o.time }) := by
  subst hfs
  have hrel : waitsFor s c o.scope = [] := by rw [hscope]; rfl
  have made : (forwarded s ts).foldl (performPiece c (oneUnit (forwarded s ts)) true)
      { st := s, o := dispatched s c o (forwarded s ts), held := false } = { st := u, held := false, o := { dispatched s c o (forwarded s ts) with
        parts := List.zipWith Todo.made (forwarded s ts) ds, time := timeAfter ds o.time } } :=
    hm.foldl_eq [] _ rfl rfl rfl rfl fun j x hx => by simpa using hix j x hx
  refine accessOp_dispatches hp ?_
  rw [dispatchAccess_eq hp (.inr hcount)]
  simp only [leavePieces_prompt (o := dispatched s c o (forwarded s ts)) hp hrel, made, hown]
  simp [dispatched, hrel, hown]

end

/-! ### Reads of a line at its home (R202, R220, R318) -/

/-- What a read at the home makes of its core's clock: at the own buffer port nothing, at the home of a line the line's write time. -/
def ReadsClock (core : Nat) (s u : State) (t : Todo) : Prop :=
  match viaOf t.piece.sp t.piece.place, t.piece.place with
  | .own, _ => (u.core core).ltime = (s.core core).ltime
  | .home, .phys p => isControl p = false → ∃ w ∈ [(s.ms.time (p / 64)).1, ((s.ms.hold (p / 64)).time (p / 64)).1],
      (u.core core).ltime = Nat.max (s.core core).ltime w % 2 ^ 64
  | _, _ => True

theorem State.homeLoad_clock (s : State) (core p : Nat) : ∃ w ∈ [(s.ms.time (p / 64)).1, ((s.ms.hold (p / 64)).time (p / 64)).1],
    ((s.homeLoad core p).core core).ltime = Nat.max (s.core core).ltime w % 2 ^ 64 := by
  refine ⟨((if Config.freeBit s.free (7 * (p / 64) + 1) then s.ms.hold (p / 64) else s.ms).time (p / 64)).1, ?_, ?_⟩
  · cases Config.freeBit s.free (7 * (p / 64) + 1) <;> simp
  · simp only [State.homeLoad, State.core_modCore, Core.ltime_raise]
    rfl

section

variable {c : Cursor} {whole : Bool} {id : Nat}

/-- A read at the home never waits for the load buffer. -/
theorem makes_homeLoad {s : State} {t : Todo} (hop : t.op = .load true) :
    ∃ u d, Makes c whole id s t u d ∧ LoadKeeps c.core s u ∧ (∀ x, d = some x → x.2 = 0) ∧ ReadsClock c.core s u t := by
  have unheld {r : Run1} (hheld : r.held = false) : performPiece c whole true r t = performLoad c whole true true r t := by
    rw [performPiece, if_neg (by simp [hheld]), hop]
  obtain hv | ⟨j, hv, -⟩ | ⟨p, hp, hc, -⟩ | ⟨p, hp, hc⟩ | ⟨k, p, hp, -⟩ := piece_cases t
  · refine ⟨s, some (s.loadOwn c whole t.piece.place t.n, 0), fun r hs _ hheld => ?_, .refl, fun x hx => by cases hx; rfl, ?_⟩
    · rw [unheld hheld]
      simp only [performLoad, hv, hs]
      rfl
    · simp only [ReadsClock, hv]
  · refine ⟨s.sendNet c.core j (.load id t.ix), none, fun r hs hid hheld => ?_, .of_lines rfl fun _ => rfl, nofun, ?_⟩
    · rw [unheld hheld]
      simp only [performLoad, hv, hs, hid]
      rfl
    · simp only [ReadsClock, hv]
  · refine ⟨s, some (s.ctlRead p t.n, 0), fun r hs _ hheld => ?_, .refl, fun x hx => by cases hx; rfl, ?_⟩
    · rw [unheld hheld]
      simp only [performLoad, hp, viaOf_phys, hc, hs]
      rfl
    · simp [ReadsClock, hp, viaOf_phys, hc]
  · refine ⟨s.homeLoad c.core p, some (s.readSlot c whole (.phys p) t.n, 0), fun r hs _ hheld => ?_, s.homeLoad_keeps c.core p,
      fun x hx => by cases hx; rfl, ?_⟩
    · rw [unheld hheld]
      simp only [performLoad, hp, viaOf_phys, hc, hs]
      rfl
    · simp only [ReadsClock, hp, viaOf_phys]
      exact fun _ => s.homeLoad_clock c.core p
  · refine ⟨s.sendFabric k 0 (.access c.core id (.load p t.n id)), none, fun r hs hid hheld => ?_, .of_lines rfl fun _ => rfl, nofun, ?_⟩
    · rw [unheld hheld]
      simp only [performLoad, hp, viaOf_far, hs, hid]
      rfl
    · simp only [ReadsClock, hp, viaOf_far]

/-- The pieces of a read one after another, whether at the home or by the load buffer. -/
theorem makesAll_reads {ts : List Todo} (hop : ∀ t ∈ ts, ∃ home, t.op = .load home) (s : State)
    (hopen : (s.core c.core).storesOpen c.bn = false) : ∃ u ds, MakesAll c whole id s ts u ds ∧ (∀ d ∈ ds, ∀ x, d = some x → x.2 = 0) ∧
      ∀ t, ts = [t] → t.op = .load true → ReadsClock c.core s u t := by
  induction ts generalizing s with
  | nil => exact ⟨s, [], .nil, nofun, nofun⟩
  | cons t ts ih =>
    obtain ⟨⟨home, ht⟩, hts⟩ := List.forall_mem_cons.mp hop
    obtain ⟨v, d, hm, keeps, zero, clock⟩ : ∃ v d, Makes c whole id s t v d ∧ LoadKeeps c.core s v ∧ (∀ x, d = some x → x.2 = 0) ∧
        (t.op = .load true → ReadsClock c.core s v t) := by
      cases home with
      | true =>
        obtain ⟨v, d, hm, keeps, zero, clock⟩ := makes_homeLoad (c := c) (whole := whole) (id := id) (s := s) ht
        exact ⟨v, d, hm, keeps, zero, fun _ => clock⟩
      | false =>
        obtain ⟨v, d, hm, keeps, zero, -⟩ := makes_load (whole := whole) (id := id) ht hopen
        exact ⟨v, d, hm, keeps, zero, fun h => by simp [ht] at h⟩
    obtain ⟨u, ds, hms, zeros, -⟩ := ih hts v (by
      unfold Core.storesOpen at hopen ⊢
      rwa [keeps.outs])
    refine ⟨u, d :: ds, .cons hm hms, List.forall_mem_cons.mpr ⟨zero, zeros⟩, fun x hx hhome => ?_⟩
    obtain ⟨rfl, rfl⟩ := List.cons.inj hx
    cases hms
    exact clock hhome

/-- The parts of a made access lie where its pieces do. -/
theorem MakesAll.places {s u : State} {ts : List Todo} {ds : List Given} (h : MakesAll c whole id s ts u ds) :
    (List.zipWith Todo.made ts ds).map (fun p => p.place) = ts.map fun t => t.piece.place := by
  induction h with
  | nil => rfl
  | @cons _ _ _ _ _ d _ _ _ ih =>
    rw [List.zipWith_cons_cons, List.map_cons, List.map_cons, ih]
    cases d <;> rfl

end

end Sys2Proof.Machine
end

section
/-!
Reads of a grid: the handle, the cells with their tags, and the read itself (R219, R220).
-/
namespace Sys2Proof.Machine

open Sys2Proof.Claims

section

variable {s : State} {c : Cursor} {h : Fin 8} {dest : LoadDest}

/-! ### The handle (R220) -/

theorem withGrid_pending (hp : ((s.core c.core).handle h.val).pending = true) (f : Handle → Grid → Res) :
    withGrid s c h dest f = .next (blockedBy s c .handlePending (.access c.op dest)) :=
  (if_pos hp).trans (slipOr_eq_blockedBy ..)

section

variable (hp : ((s.core c.core).handle h.val).pending = false)
include hp

theorem withGrid_invalid (hv : ((s.core c.core).handle h.val).valid = false) (f : Handle → Grid → Res) :
    withGrid s c h dest f = .next (trapped s c .record 0) := by
  simp only [withGrid, hp, hv]
  rfl

theorem withGrid_bound {g : Grid} (hv : ((s.core c.core).handle h.val).valid = true) (hg : ((s.core c.core).handle h.val).grid = some g)
    (f : Handle → Grid → Res) : withGrid s c h dest f = f ((s.core c.core).handle h.val) g := by
  simp only [withGrid, hp, hv, hg]
  rfl

end

/-- The forms of a grid read go through their handle, the vector form to elements of 4 bytes (R219, R220). -/
theorem exec_gridForm {i : Instr} {x r : Reg} {us : List Use} {cells : List (List Int)} {vec : Bool}
    (hi : gridForm i s c = some (x, r, h, us, cells, dest, vec)) (ha : Acts s c us) (hc : Clean s c [x, r])
    (hv : vec = true → s.enabled c ≠ []) : exec i s = withGrid s c h dest fun hd g =>
      if vec = true ∧ g.esize ≠ 2 then takeTrap s c .record (BitVec.ofNat 64 hd.desc)
      else readCells s c h x ((val s c r).toNat % 2 ^ 48) hd g cells dest := by
  unfold gridForm at hi
  split at hi <;> cases hi
  case h_1 =>
    refine (slotOp_act ha.1 ha.2 _).trans ((withClean_pass hc _).trans ?_)
    simp only [Bool.false_eq_true, false_and, if_false]
    rfl
  case h_2 =>
    refine (slotOp_act ha.1 ha.2 _).trans ((withClean_lanes hc _).trans ((if_neg (by simpa using hv rfl)).trans ?_))
    simp only [true_and]
    rfl

/-! ### The cells and their tags (R220) -/

section

variable {x : Reg} {step : Nat} {hd : Handle} {g : Grid} {cells : List (List Int)} {refs : List CellRef}

/-- The tags of the polder that a handle names. -/
def tagsOf (s : State) (c : Cursor) (hd : Handle) : KMap Nat :=
  ((s.polder (s.core c.core).ctx hd.desc hd.polder).map fun y => y.tags).getD []

/-- The times of its strips. -/
def timesOf (s : State) (c : Cursor) (hd : Handle) : KMap Nat :=
  ((s.polder (s.core c.core).ctx hd.desc hd.polder).map fun y => y.times).getD []

/-- The tags found at the foreland cells of a read. -/
theorem mem_cellTags {tags : KMap Nat} {z : Option Nat} : z ∈ refs.filterMap (cellTag tags g step) ↔
    ∃ ref ∈ refs, ∃ y, ref.region = some y ∧ stepAt tags (2 * y + step / g.berm % 2) = z := by
  simp only [List.mem_filterMap, cellTag, Option.map_eq_some_iff]

/-- A cell whose foreland has the tag of a later step. -/
def Ahead (tags : KMap Nat) (g : Grid) (step : Nat) (ref : CellRef) : Prop :=
  ∃ y m, ref.region = some y ∧ stepAt tags (2 * y + step / g.berm % 2) = some m ∧ g.berm * (step / g.berm) < m

/-- A cell whose foreland has not the tag of the step. -/
def Stale (tags : KMap Nat) (g : Grid) (step : Nat) (ref : CellRef) : Prop :=
  ∃ y, ref.region = some y ∧ stepAt tags (2 * y + step / g.berm % 2) ≠ some (g.berm * (step / g.berm))

theorem any_ahead_iff {tags : KMap Nat} : ((refs.filterMap (cellTag tags g step)).any fun y =>
      match y with | some m => decide (step / g.berm * g.berm < m) | none => false) = true ↔ ∃ ref ∈ refs, Ahead tags g step ref := by
  simp only [List.any_eq_true, mem_cellTags, Ahead, Nat.mul_comm g.berm]
  constructor
  · rintro ⟨z, ⟨ref, href, y, hy, hz⟩, hlt⟩
    cases z with
    | none => exact absurd hlt nofun
    | some m => exact ⟨ref, href, y, m, hy, hz, of_decide_eq_true hlt⟩
  · rintro ⟨ref, href, y, m, hy, hz, hlt⟩
    exact ⟨some m, ⟨ref, href, y, hy, hz⟩, decide_eq_true hlt⟩

theorem any_stale_iff {tags : KMap Nat} : ((refs.filterMap (cellTag tags g step)).any fun y => y != some (step / g.berm * g.berm)) = true ↔
    ∃ ref ∈ refs, Stale tags g step ref := by
  simp only [List.any_eq_true, mem_cellTags, Stale, Nat.mul_comm g.berm, bne_iff_ne]
  constructor
  · rintro ⟨z, ⟨ref, href, y, hy, rfl⟩, hne⟩
    exact ⟨ref, href, y, hy, hne⟩
  · rintro ⟨ref, href, y, hy, hne⟩
    exact ⟨_, ⟨ref, href, y, hy, rfl⟩, hne⟩

theorem Ahead.stale {tags : KMap Nat} {ref : CellRef} (ha : Ahead tags g step ref) : Stale tags g step ref := by
  obtain ⟨y, m, hy, hm, hlt⟩ := ha
  refine ⟨y, hy, fun hs => ?_⟩
  cases hm.symm.trans hs
  exact absurd hlt (Nat.lt_irrefl _)

/-- What is done at the addresses of a read's cells: a foreland is read at its home. -/
def cellWorks (refs : List CellRef) : List (W64 × PieceOp) := refs.map fun r => (r.addr, .load r.region.isSome)

/-! ### The clock of the strips (R220) -/

/-- The time of the latest strip that a read sees. -/
def stripTime (times : KMap Nat) (g : Grid) (step : Nat) (refs : List CellRef) : Nat :=
  refs.foldl (fun n r => match r.region with
    | some i => Nat.max n (kget 0 times (2 * i + step / g.berm % 2))
    | none => n) 0

/-- A core whose clock the time of strips has raised; without a strip nothing changes. -/
def State.raisedTo (s : State) (core t : Nat) : State := if t = 0 then s else s.modCore core fun k => k.raise t

theorem State.raisedTo_ms (s : State) (core t : Nat) : (s.raisedTo core t).ms = s.ms := by
  unfold State.raisedTo
  split <;> rfl

/-- Of its core only the clock differs. -/
theorem State.core_raisedTo (s : State) (core t : Nat) :
    (s.raisedTo core t).core core = { s.core core with csr := ((s.raisedTo core t).core core).csr } := by
  unfold State.raisedTo
  split
  · rfl
  · rw [State.core_modCore]
    rfl

theorem State.ltime_raisedTo (s : State) (core t : Nat) : ((s.raisedTo core t).core core).ltime = Nat.max (s.core core).ltime t % 2 ^ 64 := by
  unfold State.raisedTo
  split
  · next h =>
    rw [h]
    exact ((congrArg (· % 2 ^ 64) (Nat.max_zero _)).trans (Nat.mod_eq_of_lt (BitVec.isLt _))).symm
  · rw [State.core_modCore, Core.ltime_raise]

/-! ### The read (R98, R220, R301) -/

section

variable (hm : cells.mapM (cellRef g hd.polder step) = some refs)
include hm

/-- A read of a grid's cells, all of them inside the polder and its forelands, by what their tags say. -/
theorem readCells_eq : readCells s c h x step hd g cells dest =
    let found := refs.filterMap (cellTag (tagsOf s c hd) g step)
    if found.any fun y => match y with | some m => decide (step / g.berm * g.berm < m) | none => false then
      .next (trapped s c .stepOverrun (BitVec.ofNat 64 step))
    else if found.any fun y => y != some (step / g.berm * g.berm) then
      .next (blockedBy s c (if g.faultMode then .staleBy c.slot.index step g.limit else .stale) (.access c.op dest))
    else withAccess s c .read (refs.map fun r => (r.addr, g.elem, g.elem)) fun _ =>
      if refs.isEmpty then .next s
      else accessOp (s.raisedTo c.core (stripTime (timesOf s c hd) g step refs)) c
        { newOut s c with ldPend := true, dest := dest, handle := some h.val }
        (refs.mapIdx fun i r => { ix := i, n := g.elem, piece := s.piece c.core .read g.elem r.addr, op := .load r.region.isSome }) := by
  simp only [readCells, hm, slipOr_eq_blockedBy]
  rfl

theorem readCells_ahead (ha : ∃ ref ∈ refs, Ahead (tagsOf s c hd) g step ref) :
    readCells s c h x step hd g cells dest = .next (trapped s c .stepOverrun (BitVec.ofNat 64 step)) :=
  (readCells_eq hm).trans (if_pos (any_ahead_iff.mpr ha))

theorem readCells_stale (ha : ∀ ref ∈ refs, ¬Ahead (tagsOf s c hd) g step ref) (hs : ∃ ref ∈ refs, Stale (tagsOf s c hd) g step ref) :
    readCells s c h x step hd g cells dest =
      .next (blockedBy s c (if g.faultMode then .staleBy c.slot.index step g.limit else .stale) (.access c.op dest)) :=
  (readCells_eq hm).trans ((if_neg fun h => by
    obtain ⟨ref, href, hx⟩ := any_ahead_iff.mp h
    exact ha ref href hx).trans (if_pos (any_stale_iff.mpr hs)))

/-- Past its tags and the check of its addresses the read is made. -/
theorem readCells_current (hs : ∀ ref ∈ refs, ¬Stale (tagsOf s c hd) g step ref) (hne : refs ≠ [])
    (hcheck : checkEach s c.core c.slot.index .slots .read (refs.map fun ref => (ref.addr, g.elem, g.elem)) = none) :
    readCells s c h x step hd g cells dest = accessOp (s.raisedTo c.core (stripTime (timesOf s c hd) g step refs)) c
      { newOut s c with ldPend := true, dest := dest, handle := some h.val }
      ((cellWorks refs).mapIdx fun i a => { ix := i, n := g.elem, piece := s.piece c.core .read g.elem a.1, op := a.2 }) := by
  refine (readCells_eq hm).trans ((if_neg fun h => ?_).trans ((if_neg fun h => ?_).trans
    ((withAccess_pass hcheck _).trans ((if_neg ?_).trans ?_))))
  · obtain ⟨ref, href, hx⟩ := any_ahead_iff.mp h
    exact hs ref href hx.stale
  · obtain ⟨ref, href, hx⟩ := any_stale_iff.mp h
    exact hs ref href hx
  · simpa using hne
  · refine congrArg _ (List.ext_getElem? fun i => ?_)
    simp [cellWorks, Function.comp_def]

/-- Cells of the step itself are read as a load reads; a foreland raises the clock to the time of its strips. -/
theorem readCells_reads (hs : ∀ ref ∈ refs, ¬Stale (tagsOf s c hd) g step ref) (hne : refs ≠ []) (hp : Prompt s c)
    (hld : (s.core c.core).ld < 256) (hopen : (s.core c.core).storesOpen c.bn = false)
    (hcheck : checkEach s c.core c.slot.index .slots .read (refs.map fun ref => (ref.addr, g.elem, g.elem)) = none) :
    ∃ (u : State) (parts : List Part), readCells s c h x step hd g cells dest =
        .next (u.addOut c.core { newOut s c with ldPend := true, parts := parts, dest := dest, handle := some h.val }) ∧
      (parts.map fun p => p.place) = refs.map (fun ref => placeOf s c .read g.elem ref.addr) ∧
      ∀ ref, refs = [ref] → ref.region.isSome = true →
        ReadsClock c.core (s.raisedTo c.core (stripTime (timesOf s c hd) g step refs)) u (work s c .read g.elem 0 ref.addr (.load true)) := by
  rw [readCells_current hm hs hne hcheck]
  have own := s.core_raisedTo c.core (stripTime (timesOf s c hd) g step refs)
  have ms := s.raisedTo_ms c.core (stripTime (timesOf s c hd) g step refs)
  generalize s.raisedTo c.core (stripTime (timesOf s c hd) g step refs) = s1 at own ms
  have prompt : Prompt s1 c := by
    unfold Prompt at hp ⊢
    rw [own, ms]
    exact hp
  have count : countersFull s1 c true false = false := by
    have : (s1.core c.core).ld = (s.core c.core).ld := by rw [own]; rfl
    simpa [countersFull, this] using hld
  have pieces (ts : List Todo) : forwarded s1 ts = forwarded s ts := by simp only [forwarded, Piece.forward, ms]
  obtain ⟨u, ds, made, zero, clock⟩ := makesAll_reads (c := c) (whole := oneUnit (works s c .read g.elem (cellWorks refs)))
    (id := (s1.core c.core).outNext) (ts := works s c .read g.elem (cellWorks refs)) (fun t ht => by
      obtain ⟨i, a, ha, rfl⟩ := mem_works ht
      obtain ⟨r, -, rfl⟩ := List.mem_map.mp ha
      exact ⟨_, rfl⟩) s1 (by rw [own]; exact hopen)
  have access := accessOp_counts (o := { newOut s c with ldPend := true, dest := dest, handle := some h.val }) prompt
    ((pieces _).trans (forwarded_works .refl)) works_ix rfl rfl count made
  rw [timeAfter_of_zero zero, own] at access
  refine ⟨u, _, access, ?_, fun ref href hsome => ?_⟩
  · rw [made.places]
    refine List.ext_getElem? fun i => ?_
    simp [getElem?_works, work, placeOf, cellWorks, Function.comp_def]
  · subst href
    refine clock _ ?_ rfl
    simp [works, cellWorks, hsome]

end
end
end

end Sys2Proof.Machine
end

section
/-!
`pref`, `vldv` and the grid reads (R113, R167, R219, R220, R318).
-/
namespace Sys2Proof.Machine

open Sys2Proof.Claims

section

variable {s : State} {c : Cursor}

/-! ### Prefetch (R167) -/

theorem MemSys.hold_mem (ms : MemSys) (l : Nat) : (ms.hold l).mem = ms.mem := by
  unfold MemSys.hold
  split <;> rfl

/-- A prefetch fills a translation cache, brings a line in, or does nothing. -/
theorem prefAt_keeps {a : Reg} (h : Acts s c (sUses [a])) (xlat : Bool) (off : BitVec 32) :
    ∃ t, prefAt a xlat off s = .next t ∧ LoadKeeps c.core s t ∧ t.ms.mem = s.ms.mem := by
  unfold prefAt
  rw [slotOp_act (us := [.s a.val]) h.1 h.2]
  simp only
  split
  · exact ⟨s, rfl, .refl, rfl⟩
  · split
    · next va _ =>
      split
      · exact ⟨s, rfl, .refl, rfl⟩
      · split
        · have fills := s.fillTlb_fillsOnly c.core (s.core c.core).ctx va
          exact ⟨_, rfl, fills.loadKeeps, by rw [fills.ms]⟩
        · split
          · next p _ => exact ⟨_, rfl, .of_lines rfl (s.ms.line_hold (p / 64)), s.ms.hold_mem (p / 64)⟩
          · exact ⟨s, rfl, .refl, rfl⟩
    · exact ⟨s, rfl, .refl, rfl⟩

/-! ### Loads under a version check (R318) -/

/-- A version word does not lie in an own buffer. -/
theorem isOwn_of_versionTag {acc : Access} {n : Nat} {a : W64} (h : bits a.toNat 60 4 = 0 ∨ bits a.toNat 60 4 = 0xC) :
    (s.piece c.core acc n a).isOwn = false := by
  refine Bool.eq_false_iff.mpr fun hown => ?_
  obtain ⟨b, off, hs, -⟩ := place_of_isOwn hown
  unfold State.space decodeAddr at hs
  obtain h | h := h
  · simp only [h] at hs
    split at hs <;> cases hs
  · simp only [h] at hs
    split at hs <;> cases hs

/-- The addresses of the lanes' words (R318). -/
def versionLanes (s : State) (c : Cursor) (a : Reg) (off : BitVec 32) : List W64 := (laneList s c).map fun l => laneAddr s c a off 64 l

/-- The pieces of `vldv`: the version word, then the lanes' words. -/
def versionWorks (s : State) (c : Cursor) (w : W64) (as : List W64) : List Todo :=
  work s c .read 8 0 w (.load true) :: as.mapIdx fun i a => work s c .read 4 (i + 1) a (.load false)

theorem forwarded_versionWorks {t : State} (h : FillsOnly c.core s t) (w : W64) (as : List W64) :
    forwarded t (s.loads c.core 8 true [w] ++ (s.loads c.core 4 false as).map fun t => { t with ix := t.ix + 1 }) =
      versionWorks s c w as := by
  refine List.ext_getElem? fun i => ?_
  cases i with
  | zero => simp [forwarded, versionWorks, State.loads, work, h.forward]
  | succ i => simp [forwarded, versionWorks, State.loads, work, h.forward, Function.comp_def]

theorem versionWorks_ix {w : W64} {as : List W64} (j : Nat) (x : Todo) (h : (versionWorks s c w as)[j]? = some x) : x.ix = j := by
  cases j with
  | zero => cases h; rfl
  | succ j =>
    rw [versionWorks, List.getElem?_cons_succ, List.getElem?_mapIdx] at h
    obtain ⟨a, -, rfl⟩ := Option.map_eq_some_iff.mp h
    rfl

theorem versionWorks_places (w : W64) (as : List W64) : ((versionWorks s c w as).map fun t => t.piece.place) =
    placeOf s c .read 8 w :: as.map (placeOf s c .read 4) := by
  refine congrArg (_ :: ·) (List.ext_getElem? fun i => ?_)
  simp only [List.getElem?_map, List.getElem?_mapIdx, Option.map_map]
  rfl

section

variable {vd a v : Reg} {off : BitVec 32} (h : Acts s c [.v vd.val, .s a.val, .s v.val]) (hc : Clean s c [a, v])
include h hc

/-- Without an enabled cluster `vldv` does nothing (R113). -/
theorem versionLoad_disabled (he : s.enabled c = []) : versionLoad vd a v off s = .next s :=
  (slotOp_act h.1 h.2 _).trans ((withClean_lanes hc _).trans (if_pos (by simp [he])))

section

variable (he : s.enabled c ≠ []) (htag : bits (val s c a).toNat 60 4 = 0 ∨ bits (val s c a).toNat 60 4 = 0xC)
  (hcheck : checkEach s c.core c.slot.index .slots .read
    ((val s c a, 8, 64) :: (versionLanes s c a off).map fun x => (x, 4, 4)) = none)
  (hword : s.oddPhys c.core 8 [val s c a] = none) (hlanes : s.oddPhys c.core 4 (versionLanes s c a off) = none)
include he htag hcheck hword hlanes

theorem versionLoad_eq : versionLoad vd a v off s =
    accessOp ((s.fillFor c.core 8 [val s c a]).fillFor c.core 4 (versionLanes s c a off)) c
      { newOut s c with ldPend := true, dest := vecDest s c vd, ver := some (BitVec.ofNat 64 ((val s c v).toNat % 2 ^ 48)) }
      (s.loads c.core 8 true [val s c a] ++ (s.loads c.core 4 false (versionLanes s c a off)).map fun t => { t with ix := t.ix + 1 }) := by
  have version : field (val s c v) 0 48 = (val s c v).toNat % 2 ^ 48 := by simp [field, bits]
  rw [← version]
  refine (slotOp_act h.1 h.2 _).trans ((withClean_lanes hc _).trans ((if_neg (by simpa using he)).trans ?_))
  exact (if_pos htag).trans ((withAccess_pass hcheck _).trans ((onMemory_pass hword _).trans (onMemory_pass hlanes _)))

/-- With its checks passed `vldv` raises ld, with a part for the version word and one for each lane. -/
theorem versionLoad_reads (hp : Prompt s c) (hld : (s.core c.core).ld < 256) (hopen : (s.core c.core).storesOpen c.bn = false) :
    ∃ (t : State) (parts : List Part), versionLoad vd a v off s = .next (t.addOut c.core { newOut s c with
        ldPend := true, parts := parts, dest := vecDest s c vd, ver := some (BitVec.ofNat 64 ((val s c v).toNat % 2 ^ 48)) }) ∧
      (parts.map fun p => p.place) = placeOf s c .read 8 (val s c a) :: (versionLanes s c a off).map (placeOf s c .read 4) := by
  rw [versionLoad_eq h hc he htag hcheck hword hlanes]
  generalize versionLanes s c a off = as
  have fills : FillsOnly c.core s ((s.fillFor c.core 8 [val s c a]).fillFor c.core 4 as) :=
    (s.fillFor_fillsOnly c.core 8 _).trans (State.fillFor_fillsOnly ..)
  generalize (s.fillFor c.core 8 [val s c a]).fillFor c.core 4 as = t at fills
  have count : countersFull t c true false = false := by
    have : (t.core c.core).ld = (s.core c.core).ld := by rw [Core.ld, fills.loadKeeps.outs]; rfl
    simpa [countersFull, this] using hld
  obtain ⟨u, ds, made, zero, -⟩ := makesAll_reads (c := c) (whole := oneUnit (versionWorks s c (val s c a) as))
    (id := (t.core c.core).outNext) (ts := versionWorks s c (val s c a) as) (fun x hx => by
      obtain rfl | hx := List.mem_cons.mp hx
      · exact ⟨true, rfl⟩
      · obtain ⟨i, hi, rfl⟩ := List.mem_mapIdx.mp hx
        exact ⟨false, rfl⟩) t (by
      unfold Core.storesOpen at hopen ⊢
      rwa [fills.loadKeeps.outs])
  have access := accessOp_counts (o := { newOut s c with
      ldPend := true, dest := vecDest s c vd, ver := some (BitVec.ofNat 64 ((val s c v).toNat % 2 ^ 48)) }) (fills.prompt hp)
    (forwarded_versionWorks fills _ as) versionWorks_ix rfl (by
      simp [ownOnly, versionWorks, work_isOwn, isOwn_of_versionTag htag]) count made
  rw [timeAfter_of_zero zero, fills.own] at access
  exact ⟨u, _, access, made.places.trans (versionWorks_places ..)⟩

end
end
end

end Sys2Proof.Machine
end

section
/-!
The grid reads by their handle, their cells and their tags, and the settled statement (R113, R167, R219, R220, R318).
-/
namespace Sys2Proof.Machine

open Sys2Proof.Claims

theorem readCells_outside {s : State} {c : Cursor} {h : Fin 8} {x : Reg} {step : Nat} {hd : Handle} {g : Grid} {cells : List (List Int)}
    {dest : LoadDest} (hm : cells.mapM (cellRef g hd.polder step) = none) :
    readCells s c h x step hd g cells dest = .next (trapped s c .addressSpace (val s c x)) := by
  simp only [readCells, hm]
  rfl

/-- A grid read through a bound handle, of elements of 4 bytes in the vector form, reads its cells. -/
theorem exec_boundGrid {s : State} {c : Cursor} {i : Instr} {x r : Reg} {h : Fin 8} {us : List Use} {cells : List (List Int)}
    {dest : LoadDest} {vec : Bool} {g : Grid} (hi : gridForm i s c = some (x, r, h, us, cells, dest, vec)) (ha : Acts s c us)
    (hc : Clean s c [x, r]) (hv : vec = true → s.enabled c ≠ [] ∧ g.esize = 2) (hp : ((s.core c.core).handle h.val).pending = false)
    (hvalid : ((s.core c.core).handle h.val).valid = true) (hg : ((s.core c.core).handle h.val).grid = some g) :
    exec i s = readCells s c h x ((val s c r).toNat % 2 ^ 48) ((s.core c.core).handle h.val) g cells dest :=
  (exec_gridForm hi ha hc fun h => (hv h).1).trans ((withGrid_bound hp hvalid hg _).trans (if_neg fun ⟨hvec, hes⟩ => hes (hv hvec).2))

theorem gridReadsChecked : GridReadsChecked := by
  intro i s c x r h us cells dest vec hi ha hc hv
  have reads := exec_gridForm hi ha hc hv
  refine ⟨fun hp => reads.trans (withGrid_pending hp _), fun g hp hvalid hg => ⟨fun hvec hes => ?_, fun hes hm => ?_⟩⟩
  · exact reads.trans ((withGrid_bound hp hvalid hg _).trans (if_pos ⟨hvec, hes⟩))
  · exact reads.trans ((withGrid_bound hp hvalid hg _).trans ((if_neg fun ⟨hvec, hne⟩ => hne (hes hvec)).trans (readCells_outside hm)))

theorem forelandReads : ForelandReads := by
  intro i s c x r h us cells dest vec g refs hi ha hc hv hd step due slot own tags times ahead stale hp hvalid hg hm
  have reads := exec_boundGrid hi ha hc hv hp hvalid hg
  refine ⟨fun hahead => reads.trans (readCells_ahead hm hahead), fun hahead hstale => reads.trans (readCells_stale hm hahead hstale),
    fun hstale hne hprompt hld hopen hcheck => ?_⟩
  obtain ⟨u, parts, hread, hplaces, clock⟩ := readCells_reads (x := x) (h := h) (dest := dest) hm hstale hne hprompt hld hopen hcheck
  refine ⟨u, parts, reads.trans hread, hplaces, fun ref y href hy => ?_⟩
  have raised : ((s.raisedTo c.core (stripTime (timesOf s c hd) g step refs)).core c.core).ltime =
      Nat.max (s.core c.core).ltime (kget 0 times (2 * y + slot)) % 2 ^ 64 := by
    rw [State.ltime_raisedTo, href]
    simp only [stripTime, List.foldl_cons, List.foldl_nil, hy, show ∀ n, Nat.max 0 n = n from Nat.zero_max]
    rfl
  have one := clock ref href (by rw [hy]; rfl)
  unfold ReadsClock at one
  rw [raised, State.raisedTo_ms] at one
  exact one

/-- A cell of the interior has no tag. -/
theorem not_stale_of_interior {tags : KMap Nat} {g : Grid} {step : Nat} {ref : CellRef} (h : ref.region = none) : ¬Stale tags g step ref := by
  rintro ⟨y, hy, -⟩
  exact absurd (h.symm.trans hy) nofun

theorem acts_of_subset {s : State} {c : Cursor} {us vs : List Use} (h : Acts s c us) (hs : ∀ u ∈ vs, u ∈ us) : Acts s c vs :=
  ⟨h.1, fun u hu => h.2 u (hs u hu)⟩

/-- Settles O27: prefetches, version loads, and grid reads by their handle, their cells and their tags. -/
theorem prefetchVersionAndGridReads : Obligations.PrefetchVersionAndGridReads := by
  refine ⟨gridReadsChecked, forelandReads, fun s c a xlat off h => ?_, fun s c vd a v off h hc => ?_, ?_⟩
  · obtain ⟨t, ht, keeps, hmem⟩ := prefAt_keeps h xlat off
    exact ⟨t, ht, fun hoff => by subst hoff; exact ht, keeps.sregs, keeps.writes, keeps.outs, hmem⟩
  · refine ⟨fun hoff => by subst hoff; rfl, fun he => versionLoad_disabled h hc he, fun he htag hcheck hword hlanes hp hld hopen => ?_⟩
    exact versionLoad_reads h hc he htag hcheck hword hlanes hp hld hopen
  · intro s c d x r h hd step hc
    have scalar (ha : Acts s c [.grid h.val, .s d.val, .s x.val, .s r.val]) : Acts s c [.s d.val, .s x.val, .s r.val, .grid h.val] :=
      acts_of_subset ha (by simp)
    have vector (ha : Acts s c [.grid h.val, .v d.val, .s x.val, .s r.val]) : Acts s c [.v d.val, .s x.val, .s r.val, .grid h.val] :=
      acts_of_subset ha (by simp)
    refine ⟨fun sx ha hp hv => ?_, fun ha => ⟨fun he => ?_, fun he hp hv => ?_⟩, fun g hp hv hg hprompt hld hopen =>
      ⟨fun sx ref ha hm hin hcheck => ?_, fun refs ha hes hne hm hin hcheck => ?_⟩⟩
    · exact (exec_gridForm (i := .ldg d x r h sx) rfl (scalar ha) hc nofun).trans (withGrid_invalid hp hv _)
    · exact (slotOp_act (vector ha).1 (vector ha).2 _).trans ((withClean_lanes hc _).trans (if_pos (by simp [he])))
    · exact (exec_gridForm (i := .vldg d x r h) rfl (vector ha) hc fun _ => he).trans (withGrid_invalid hp hv _)
    · have reads := exec_boundGrid (i := .ldg d x r h sx) rfl (scalar ha) hc nofun hp hv hg
      obtain ⟨u, parts, hread, hplaces, -⟩ := readCells_reads (x := x) (h := h) (dest := .scalar d.val sx) (hd := hd) (step := step)
        (cells := [coordsOf (val s c x)]) (refs := [ref]) (by simp [hm]) (by simpa using not_stale_of_interior hin) (by simp) hprompt hld hopen hcheck
      exact ⟨u, parts, reads.trans hread, hplaces⟩
    · have he : s.enabled c ≠ [] := fun he => by
        simp only [laneList, he, List.flatMap_nil, List.map_nil, List.mapM_nil] at hm
        exact hne (Option.some.inj hm).symm
      have reads := exec_boundGrid (i := .vldg d x r h) rfl (vector ha) hc (fun _ => ⟨he, hes⟩) hp hv hg
      obtain ⟨u, parts, hread, hplaces, -⟩ := readCells_reads (x := x) (h := h) (dest := vecDest s c d) hm
        (fun ref href => not_stale_of_interior (hin ref href)) hne hprompt hld hopen hcheck
      exact ⟨u, parts, reads.trans hread, hplaces⟩

end Sys2Proof.Machine
end

section
/-!
BAR2 over a way whose map entry names no window of the scratch space (R330, R347): its reads come from control space, not from memory.
-/
namespace Sys2Proof.Machine

open Sys2Proof.Claims

/-- An access within one line has one piece. -/
theorem linePieces_one (f : Nat) {a n : Nat} (hn : n ≠ 0) (hfit : a % 64 + n ≤ 64) : linePieces (f + 1) a n = [(a, n)] := by
  have fits : Nat.min (64 - a % 64) n = n := Nat.min_eq_right (by omega)
  rw [linePieces, if_neg hn]
  simp only [fits, Nat.sub_self]
  cases f <;> rfl

/-- A host read within one line is one read at its home, in the way where a migration has put the line (R330, R347). -/
theorem exec_hostBar2Read_line {s : State} {o n a : Nat} (ha : bar2Addr s o n = some a) (hn : n ≠ 0) (hfit : a % 64 + n ≤ 64) :
    exec (.hostBar2Read o n) s = .next ((s.engRead 0 (.phys (s.ms.forward a)) n).2.2.answer
      (.read (s.engRead 0 (.phys (s.ms.forward a)) n).1)) := by
  show execHostBar2Read o n s = _
  simp only [execHostBar2Read, ha, linePieces_one _ hn hfit, List.foldl_cons, List.foldl_nil, List.nil_append]

/-- A read of a control-space address gives what its registers hold. -/
theorem State.engRead_control (s : State) (pts n : Nat) {p : Nat} (h : isControl p = true) :
    s.engRead pts (.phys p) n = (s.ctlRead p n, 0, s) := if_pos h

/-- Firmware runs, BAR2 shows the first way of column 0, and the map of that way names column 1025: its window would begin at the window
registers of control space (R348), the first of which holds 1. -/
def strayWay : State :=
  { State.reset with
    agenda := []
    ms := { MemSys.init with owners := [(0, { scratch := true, ctx := 0, origin := 0 })], waymap := [(0, (1026, 0))] }
    sec := { State.reset.sec with phase := .firmware, bar2Base := 0x40000000000, bar2Size := 8, windows := [(0, 1)] } }

theorem strayWay_forward : strayWay.ms.forward 0x40000000000 = 0x60080000000 := by decide

/-- The host reads the window register. -/
theorem exec_hostBar2Read_strayWay : exec (.hostBar2Read 0 8) strayWay = .next (strayWay.answer (.read (strayWay.ctlRead 0x60080000000 8))) := by
  rw [exec_hostBar2Read_line (a := 0x40000000000) (by decide) (by decide) (by decide), strayWay_forward, State.engRead_control _ _ _ (by decide)]

theorem ctlRead_strayWay : strayWay.ctlRead 0x60080000000 8 = leBytes 8 1 := by decide

/-- Memory holds zeros there. -/
theorem read_strayWay : strayWay.ms.read 0x60080000000 8 = List.replicate 8 0 := by decide

/-- Refutes O49, in its clause on HOST_BAR2_READ: in `strayWay` the 8 bytes that BAR2 returns are those of the window register at the way's
mapped address, 1 in the lowest, where the statement asks for the zeros of the memory there. -/
theorem not_bootRecoveryAndScrub : ¬ Obligations.BootRecoveryAndScrub := by
  unfold Obligations.BootRecoveryAndScrub
  rintro ⟨-, -, -, -, -, -, -, -, bar2, -⟩
  obtain ⟨t, bs, hread, hanswers, -, hbytes⟩ := (bar2 strayWay 0 8 0x40000000000 [] rfl rfl).1 (by decide) (by decide)
  obtain rfl : strayWay.answer (.read (strayWay.ctlRead 0x60080000000 8)) = t := Host.Outcome.next.inj (exec_hostBar2Read_strayWay.symm.trans hread)
  have returned : strayWay.ctlRead 0x60080000000 8 = bs := Answer.read.inj (List.cons.inj (List.append_cancel_left hanswers)).1
  have stands : bs = List.replicate 8 0 := by rw [hbytes (by decide), strayWay_forward, read_strayWay]
  exact absurd (ctlRead_strayWay.symm.trans (returned.trans stands)) (by decide)

end Sys2Proof.Machine
end
